-- ==== Sys2Proof/Word.lean ====
section
/-! DEFINITION. The byte, byte strings and the 32-bit register word. -/

namespace Sys2Proof

/-- One byte. -/
abbrev Byte := BitVec 8

/-- A byte string, byte 0 first. -/
abbrev Bytes := List Byte

/-- A register word (R716: registers are accessed as aligned 32-bit words). -/
abbrev Word := BitVec 32

end Sys2Proof
end

