-- ==== Sys2Proof/Syntax.lean ====
section
/-! DEFINITION. The commands: one constructor of `Instr` for each row of spec/opcode_table.json, with the operands the
rules of the row name. A command is one whole, indivisible step of the part (95_what_each_step_holds.md). What reaches the
part from outside it (bytes that a DMA read returns, a raw bit of the sampler, the verdict of an analogue detector) is an
operand of the command that brings it. -/

namespace Sys2Proof

/-- A register or memory page of R728 and R729: its kind, the hearth or VF it belongs to (0 for a page of the flue or the
chimney) and its instance number within the kind. Beside the register pages stand the MSI-X tables and pending-bit arrays of the
functions (R55, R724 to R726) and the Device Control words of their configuration spaces (R41, R85). -/
inductive PageKind where
  | flueBoot | adminq | link | functab | damper | gang | flueCounters | flueEvents | evtroute | debug
  | tamper | vault | fuse | vfQueue
  | msixVf | msixPf | pbaVf | pbaPf | cfgVf | cfgPf
  | stoker | keycache | keypolicy | cipher | hash | bignum | hob | group | entropy | mempath | mpu | gate | power
  | counters | events
  deriving DecidableEq, Repr

structure Page where
  kind : PageKind
  unit : Fin 512
  inst : Fin 32
  deriving DecidableEq, Repr

/-- Who makes a register access (R711 ERR_CAPTURE0.REQUESTER). -/
inductive Requester where
  | pf0 | pf1
  | inner (core : Fin 4) | outer (core : Fin 4)
  | debug
  | vf (v : Fin 512)
  | fw
  deriving DecidableEq, Repr

/-- A queue pair: of a VF, or one of the four administration queues. -/
inductive Queue where
  | vf (v : Fin 512) (q : Fin 8)
  | admin (q : Fin 4)
  deriving DecidableEq, Repr

/-- An access to a doorbell offset (R57): a read, or a write of so many bytes. -/
inductive DoorAccess where
  | read
  | write (size : Fin 9) (data : BitVec 64)
  deriving DecidableEq, Repr

/-- An access to the doorbells or queue registers of a VF (R48): a read or a write. -/
structure VfAccess where
  vf   : Fin 512
  read : Bool
  deriving DecidableEq, Repr

/-- A write of one to BOOT_CTRL.RESTART (R679): who makes it, and whether it finds a command of R680 in progress. -/
structure RestartWrite where
  who    : Requester
  fusing : Bool
  deriving DecidableEq, Repr

/-- What a DMA read of host memory returns: data, or Unsupported Request, Completer Abort or poison (R66). -/
inductive Dma where
  | ok (data : Bytes)
  | error
  deriving DecidableEq, Repr

/-- What a descriptor fetch reads: the descriptor, the entries of its input and output scatter lists as read along their
chains, and under SHAIM2_COMPAT the head of its input list (R131); or the read is issued only, and returns in a later step (R65,
R98). -/
inductive FetchRead where
  | ok (desc sglIn sglOut head : Bytes)
  | error
  | pending
  deriving DecidableEq, Repr

/-- The descriptor an administration queue executes, with its scatter lists and the bytes of its input; `failed` tells that the
read of the descriptor returned an error or poison (R66). -/
structure AdminRead where
  desc   : Bytes
  sglIn  : Bytes
  sglOut : Bytes
  inp    : Dma
  failed : Bool := false
  deriving DecidableEq, Repr

/-- A group control opcode comes from a VF's job or from an administration queue of PF0 (R397, R398). -/
inductive GroupSrc where
  | job (h : Fin 16) (j : Fin 2048)
  | admin (q : Fin 4) (rd : AdminRead)
  deriving DecidableEq, Repr

/-- The result of the restore of a saved big-number job (R374, R377). -/
inductive RestoreRead where
  | ok | poison | integrity
  deriving DecidableEq, Repr

/-- The kind of a data-fabric access (R512 KIND). -/
inductive AccessKind where
  | read | write | fetch | atomic
  deriving DecidableEq, Repr

/-- How a data-fabric access or a patrol pass finds what the line needs (R468, R492): clean; corrected; its data line with an
uncorrectable error or, in an integrity range, failing its tag; its MAC line with an uncorrectable error; its counter block,
or the tree node of a level above it, with an uncorrectable error (`ecc`) or failing the CMAC above it; the line of the
ownership table that governs the page failing either way. -/
inductive LineCheck where
  | clean | corrected | uncorrectable | integrity
  | macLine
  | counter (ecc : Bool)
  | node (level : Nat) (ecc : Bool)
  | ownTable
  deriving DecidableEq, Repr

/-- What waits for randomness (R289, R389, R243): a job of the table, or the job on an engine or burner. -/
inductive Waiter where
  | job (j : Fin 2048)
  | unit (u : Fin 20)
  deriving DecidableEq, Repr

/-- A world transit request of a core (R520). -/
inductive WorldOp where
  | call | ret | resume | dispatch | interrupt
  deriving DecidableEq, Repr

/-- The supply of the always-on island (R566). -/
inductive Supply where
  | vaon | vbat | none
  deriving DecidableEq, Repr

inductive Instr where
  -- queues and the stoker
  -- a doorbell is named by the function whose BAR0 holds it, PF0 or a VF, and its offset there; where `fn` names a queue pair's
  -- function with the pair's number, none is PF0 too
  | sqTailDoorbell (fn : Option (Fin 512)) (off : BitVec 12) (acc : DoorAccess)
  | cqHeadDoorbell (fn : Option (Fin 512)) (off : BitVec 12) (acc : DoorAccess)
  | unboundVfAccess (v : VfAccess)
  | qpEnable (t : Queue)
  | qpDisable (t : Queue)
  | descriptorFetch (v : Fin 512) (q : Fin 8) (issued : Bool) (rd : FetchRead)
  | keywaitUnwrapDone (h : Fin 16) (j : Fin 2048) (ref : Fin 3) (blob : Dma)
  | jobDispatch (h : Fin 16) (elapsedUs : Nat)
  | engineJobEnd (h : Fin 16) (u : Fin 20) (invariantHolds : Bool)
  | completionWritten (h : Fin 16) (j : Fin 2048)
  | qpCoalTimeout (fn : Option (Fin 512)) (q : Fin 8)
  | stkClassBlocked (h : Fin 16) (c : Fin 4)
  | entropyWaitTimeout (h : Fin 16) (w : Waiter)
  | yieldPointSaveDone (h : Fin 16) (n : Fin 4) (written : Bool)
  | jobResumeRestoreDone (h : Fin 16) (n : Fin 4) (rd : RestoreRead)
  | hobBatchRelease (h : Fin 16)
  | turnoverEnd (h : Fin 16) (b : Fin 4)
  -- engines
  | lockScrubDone (h : Fin 16) (u : Fin 20)
  | operandClearDone (h : Fin 16) (n : Fin 4)
  | pageLockWrite (h : Fin 16) (u : Fin 16) (who : Requester) (data : Word)
  | ceStart (h : Fin 16) (n : Fin 8) (who : Requester)
  | heStart (h : Fin 16) (n : Fin 4) (who : Requester)
  | bnStart (h : Fin 16) (n : Fin 4) (who : Requester)
  | bnClear (h : Fin 16) (n : Fin 4) (who : Requester)
  | bnWindowAccess (h : Fin 16) (n : Fin 4) (who : Requester) (hi : Bool) (write : Option Word)
  | katReq (h : Fin 16) (u : Fin 20) (who : Requester)
  | katPeriodExpiry (h : Fin 16) (u : Fin 20)
  | katStart (h : Fin 16) (u : Fin 20)
  | katDone (h : Fin 16) (u : Fin 20) (pass : Bool)
  | mgReseedDue (h : Fin 16) (u : Fin 20)
  | mgPrefetch (h : Fin 16) (u : Fin 20)
  | mgSeedArrival (h : Fin 16) (u : Fin 20)
  | stkModeWrite (h : Fin 16) (who : Requester) (data : Word)
  | hobModeWrite (h : Fin 16) (who : Requester) (data : Word)
  | pinfailClr (h : Fin 16) (who : Requester)
  | dtValidWrite (h : Fin 16) (n : Fin 4) (who : Requester) (data : Word)
  -- opcodes of the key, cipher, hash, public-key, payment and random classes: the run of a dispatched job
  | keyUnwrap (h : Fin 16) (j : Fin 2048)
  | keyWrap (h : Fin 16) (j : Fin 2048)
  | keyGenerate (h : Fin 16) (j : Fin 2048)
  | keyEvict (h : Fin 16) (j : Fin 2048)
  | keyInfo (h : Fin 16) (j : Fin 2048)
  | keyDerive (h : Fin 16) (j : Fin 2048) (inp : Dma)
  | keyExportKw (h : Fin 16) (j : Fin 2048)
  | keyImportKw (h : Fin 16) (j : Fin 2048) (inp : Dma)
  | transportCert (h : Fin 16) (j : Fin 2048)
  | keyExportTransport (h : Fin 16) (j : Fin 2048) (inp : Dma)
  | keyImportTransport (h : Fin 16) (j : Fin 2048) (inp : Dma)
  | keyblockImport (h : Fin 16) (j : Fin 2048) (inp : Dma)
  | keyblockExport (h : Fin 16) (j : Fin 2048) (inp : Dma)
  | encrypt (h : Fin 16) (j : Fin 2048) (inp : Dma)
  | decrypt (h : Fin 16) (j : Fin 2048) (inp : Dma)
  | hash (h : Fin 16) (j : Fin 2048) (inp : Dma)
  | xof (h : Fin 16) (j : Fin 2048) (inp : Dma)
  | macGenerate (h : Fin 16) (j : Fin 2048) (inp : Dma)
  | macVerify (h : Fin 16) (j : Fin 2048) (inp : Dma)
  | pkSign (h : Fin 16) (j : Fin 2048) (inp : Dma)
  | pkVerify (h : Fin 16) (j : Fin 2048) (inp : Dma)
  | pkPublic (h : Fin 16) (j : Fin 2048)
  | keyAgree (h : Fin 16) (j : Fin 2048) (inp : Dma)
  | kemEncaps (h : Fin 16) (j : Fin 2048) (inp : Dma)
  | kemDecaps (h : Fin 16) (j : Fin 2048) (inp : Dma)
  | rsaOaepImport (h : Fin 16) (j : Fin 2048) (inp : Dma)
  | clearOperands (h : Fin 16) (j : Fin 2048)
  | pinTranslate (h : Fin 16) (j : Fin 2048)
  | pinVerify (h : Fin 16) (j : Fin 2048)
  | pinValueCalc (h : Fin 16) (j : Fin 2048)
  | cardValueGenerate (h : Fin 16) (j : Fin 2048)
  | cardValueVerify (h : Fin 16) (j : Fin 2048)
  | payMacGenerate (h : Fin 16) (j : Fin 2048) (inp : Dma)
  | payMacVerify (h : Fin 16) (j : Fin 2048) (inp : Dma)
  | emvCryptogram (h : Fin 16) (j : Fin 2048) (inp : Dma)
  | randomGenerate (h : Fin 16) (j : Fin 2048)
  | entropyStatus (h : Fin 16) (j : Fin 2048)
  -- atomic groups and gangs
  | groupOpen (src : GroupSrc)
  | groupCommit (src : GroupSrc)
  | groupAbort (src : GroupSrc)
  | groupQuery (src : GroupSrc)
  | groupEvent (src : GroupSrc)
  | groupCommitApply (h : Fin 16) (g : BitVec 16)
  | groupRollback (h : Fin 16) (g : BitVec 16)
  | groupIdleTimeout (h : Fin 16) (g : BitVec 16)
  | gangVote (h : Fin 16) (g : BitVec 16)
  | gangTimeout (stack : Fin 32) (tag : Word)
  | vaultStepDone (record : Fin 16)
  | gangCommitMsg (h : Fin 16) (g : BitVec 16)
  | gangAbortMsg (h : Fin 16) (g : BitVec 16)
  -- administration opcodes
  | bindVf (q : Fin 4) (rd : AdminRead)
  | unbindVf (q : Fin 4) (rd : AdminRead)
  | moveVf (q : Fin 4) (rd : AdminRead)
  | resetVf (q : Fin 4) (rd : AdminRead)
  | setQpGrant (q : Fin 4) (rd : AdminRead)
  | setDraught (q : Fin 4) (rd : AdminRead)
  | setEngineShare (q : Fin 4) (rd : AdminRead)
  | setDamperOpen (q : Fin 4) (rd : AdminRead)
  | setDamperThrottle (q : Fin 4) (rd : AdminRead)
  | setDamperClose (q : Fin 4) (rd : AdminRead)
  | setDamperCloseWait (q : Fin 4) (rd : AdminRead)
  | setCompat (q : Fin 4) (rd : AdminRead)
  | setInflight (q : Fin 4) (rd : AdminRead)
  | stackDefine (q : Fin 4) (rd : AdminRead)
  | slotUpdate (q : Fin 4) (rd : AdminRead)
  | slotTableLoad (q : Fin 4) (rd : AdminRead)
  | ownershipBegin (q : Fin 4) (rd : AdminRead)
  | ownershipAuthorise (q : Fin 4) (rd : AdminRead)
  | ownershipComplete (q : Fin 4) (rd : AdminRead)
  | ceremonyExpiry
  | tamperLogExport (q : Fin 4) (rd : AdminRead)
  | dumpOpen (q : Fin 4) (rd : AdminRead)
  | dumpClear (q : Fin 4) (rd : AdminRead)
  | imageLoad (q : Fin 4) (rd : AdminRead)
  | hearthStart (q : Fin 4) (rd : AdminRead)
  | hearthStarted (h : Fin 16)
  | hearthReset (q : Fin 4) (rd : AdminRead)
  | lifecycleAdvance (q : Fin 4) (rd : AdminRead) (partialBits : Option Nat)
  | fuseProgram (q : Fin 4) (rd : AdminRead)
  | rollbackAdvance (q : Fin 4) (rd : AdminRead)
  -- resets of functions and the link
  | vfFlr (v : Fin 512)
  | flrAbortDone (v : Fin 512)
  | pf0Flr
  | vfEnableClear
  | hotReset
  | linkDown
  | linkTrained (rate width : Fin 4) (flit : Bool)
  | perstNAssert
  | pf0PowerState (d3hot : Bool)
  -- IDE, TDISP, SPDM
  | ideKm (session : Fin 8) (rid : Fin 514) (msg : Bytes)
  | ideStreamInsecure (stream : Fin 65)
  | getTdispVersion (session : Fin 8) (v : Fin 512)
  | getTdispCapabilities (session : Fin 8) (v : Fin 512)
  | lockInterface (session : Fin 8) (v : Fin 512) (msg : Bytes)
  | getDeviceInterfaceReport (session : Fin 8) (v : Fin 512) (off len : BitVec 16)
  | getDeviceInterfaceState (session : Fin 8) (v : Fin 512)
  | startInterface (session : Fin 8) (v : Fin 512) (nonce : Bytes)
  | stopInterface (session : Fin 8) (v : Fin 512)
  | getVersion (msg : Bytes)
  | getCapabilities (msg : Bytes)
  | negotiateAlgorithms (msg : Bytes)
  | getDigests (session : Option (Fin 8)) (msg : Bytes)
  | getCertificate (session : Option (Fin 8)) (msg : Bytes)
  | challenge (msg : Bytes)
  | getMeasurements (session : Option (Fin 8)) (msg : Bytes)
  | keyExchange (msg : Bytes)
  | finish (session : Fin 8) (msg : Bytes)
  | keyUpdate (session : Fin 8) (msg : Bytes)
  | heartbeat (session : Fin 8) (msg : Bytes)
  | endSession (session : Fin 8) (msg : Bytes)
  -- vault and key cache
  | identityKeyReady (rsa : Bool)
  | emberBanking
  | bankPeriodWrite (who : Requester) (data : Word)
  | shadowReloadDone (h : Fin 16)
  | kcBankPass (h : Fin 16)
  | kcBankRetry (h : Fin 16)
  | kcFlush (h : Fin 16) (who : Requester)
  -- entropy
  | rawSample (h : Fin 16) (bits rings : BitVec 64)
  | conditionerBlock (h : Fin 16)
  | startupTestDone (h : Fin 16)
  | drbgInstantiate (h : Fin 16)
  | drbgGenerate (h : Fin 16) (bytes : Nat)
  | drbgReseed (h : Fin 16)
  | entRestart (h : Fin 16) (who : Requester)
  | entRetest (h : Fin 16) (who : Requester)
  | entTestDone (h : Fin 16)
  | entPolicyWrite (h : Fin 16) (who : Requester) (data : Word)
  | entDataRead (h : Fin 16) (who : Requester) (outer : Bool)
  | entRawRead (h : Fin 16) (who : Requester)
  -- the memory path
  | memoryAccess (h : Fin 16) (master : Fin 26) (kind : AccessKind) (mmode : Bool) (addr : BitVec 48) (len : Fin 65)
      (data : Bytes) (line : LineCheck)
  | memInit (h : Fin 16) (who : Requester)
  | memTrainingDone (h : Fin 16) (ok : Bool)
  | patrolScrub (h : Fin 16) (off : BitVec 35) (line : LineCheck)
  | rngInit (h : Fin 16) (r : Fin 8) (who : Requester)
  | memRangeReady (h : Fin 16) (r : Fin 8)
  | reencryptionDone (h : Fin 16)
  | ownGo (h : Fin 16) (who : Requester)
  | ownershipSync (h : Fin 16) (who : Requester)
  | ownershipSyncDone (h : Fin 16)
  | mpuSync (h : Fin 16) (m : Fin 26) (who : Requester)
  | mpuSyncDone (h : Fin 16) (m : Fin 26)
  -- cores and worlds
  | gateCall (h : Fin 16) (c : Fin 4) (service : Byte)
  | gateReturn (h : Fin 16) (c : Fin 4)
  | gateResume (h : Fin 16) (c : Fin 4)
  | gateDispatch (h : Fin 16) (c : Fin 4)
  | gateInterrupt (h : Fin 16) (c : Fin 4)
  | gateFault (h : Fin 16) (c : Fin 4) (data : Word)
  | gateTransitDone (h : Fin 16) (c : Fin 4)
  | coreRelease (h : Fin 16) (c : Fin 4) (who : Requester)
  | firmwareFatal (h : Fin 16)
  | coreLockup (h : Fin 16) (c : Fin 4)
  | dumpWriteDone (h : Fin 16)
  -- debug
  | dbgNewChallenge (who : Requester)
  | dbgSubmit (who : Requester)
  | dbgTokenCheckDone
  | dbgRevoke (who : Requester) (data : Word)
  | dbgExpiry (h : Fin 16)
  -- power
  | pwrTargetWrite (h : Fin 16) (who : Requester) (data : Word)
  | h1Entry (h : Fin 16)
  | h1Wake (h : Fin 16)
  | h2Entry (h : Fin 16)
  | h2ExitDone (h : Fin 16)
  | h3Entry (h : Fin 16)
  | profileWrite (h : Fin 16) (who : Requester) (data : Word)
  | pwrProfileDone (h : Fin 16)
  | flattenWrite (h : Fin 16) (who : Requester) (data : Word)
  | pwrBlkReqWrite (h : Fin 16) (who : Requester) (hi : Bool) (data : Word)
  | blockPowerDone (h : Fin 16) (b : Fin 20)
  | pwrHoldWrite (h : Fin 16) (who : Requester) (data : Word)
  -- tamper and the chimney
  | tamperTrip (trips : List (Fin 30 × BitVec 32))
  | quenchDone
  | tmpTrigger (who : Requester)
  | tmpFwTrigger (h : Fin 16) (who : Requester)
  | tmpRelease (who : Requester)
  | tmpLock (who : Requester)
  | tmpRespWrite (who : Requester) (hi : Bool) (data : Word)
  | tmpStickyClear (who : Requester) (data : Word)
  | batterySample (trips : List (Fin 30 × BitVec 32))
  | supplySwitch (target : Supply)
  | mainPowerLoss
  | porNAssert
  | porNDeassert
  | opTimeTick
  -- boot, snapshots, events
  | bootGo (who : Requester) (image : Dma)
  | flueImageCheckDone
  | bootRestart (w : RestartWrite)
  | flueFault
  | snapGo (who : Requester) (data : Word)
  | snapPeriodExpiry
  | snapshotLatch
  | evtInject (p : Page) (who : Requester) (data : Word)
  | evrFreeze (unit : Option (Fin 16)) (who : Requester)
  | evrUnfreeze (unit : Option (Fin 16)) (who : Requester)
  | evrAck (unit : Option (Fin 16)) (who : Requester) (seq : Word)
  | softReset (h : Fin 16) (u : Fin 16) (who : Requester)
  | pageLockSet (p : Page) (who : Requester)
  | registerWrite (p : Page) (who : Requester) (off : BitVec 12) (size : Fin 9) (enables : BitVec 4) (data : Word)
  -- further events
  | mainPowerReturn
  | perstNDeassert
  | aspmL1Entry (sub : Fin 3)
  | l1Exit
  | detectorCleared (src : Fin 30)
  | vbatRestored
  | vaultHoldExpiry
  | debugHalt (h : Fin 16) (c : Fin 4)
  | debugResume (h : Fin 16) (c : Fin 4)
  deriving DecidableEq, Repr

end Sys2Proof
end

