-- ==== Sys2Proof/Config.lean ====
section
/-! DEFINITION. The free values: constants with no body, so that nothing in Lean can prove a value of them. Each stands for a
value the spec leaves open; notes/assumptions names it. -/

namespace Sys2Proof

/-- The `n`th free byte the part draws: physical randomness of the vault controller, the test keys. -/
opaque Config.freeByte : Nat → Byte

/-- Byte `n` of the keystream of a mask generator, by its key and its starting value (R239: the construction is not given). -/
opaque Config.maskByte : Bytes → Bytes → Nat → Byte

/-- The identity RSA-4096 pair of an identity seed (R133: a fixed deterministic method the spec does not give): p and q,
each as an integer. -/
opaque Config.identityRsa : Bytes → Nat × Nat

/-- The identity P-384 private scalar of an identity seed (R133). -/
opaque Config.identityP384 : Bytes → Nat

/-- The P-384 private scalar of a 512-bit derived seed (R140 does not give the method). -/
opaque Config.seedToP384 : Bytes → Nat

/-- The AES-256 key of the entropy conditioner (R432: a fixed internal key whose value the spec does not give). -/
opaque Config.conditionerKey : Bytes

/-- The content whose digest is a measurement of R125 that the spec gives no bytes for: the boot ROM, the lifecycle state and
fuse configuration as a function of the fuses, the image of a world in which none has been accepted. By index. -/
opaque Config.measurement : Nat → List Nat → Bytes

/-- Values of SPDM, IDE_KM and TDISP messages that the spec does not give, by name: timeouts, message sizes, the heartbeat
period, the delay and token of ResponseNotReady, fields of the device interface report. -/
opaque Config.messageValue : String → Nat

/-- The opaque data of KEY_EXCHANGE_RSP, by that of the request. -/
opaque Config.spdmOpaque : Bytes → Bytes

/-- The address the host gave BAR0 of a VF. -/
opaque Config.vfBar : Nat → Nat

/-- The certificate chain of a slot (R124: issued by Horwyn Nasis; the spec does not give its bytes). -/
opaque Config.certChain : Nat → Bytes

/-- The boot ROM's contents, by byte address (R727: the spec does not give them). -/
opaque Config.bootRom : Nat → Byte

/-- The bytes of a recorder slot that holds no record, beside its SEQUENCE (R646), by slot and offset. -/
opaque Config.emptySlotByte : Nat → Nat → Byte

/-- An EC private scalar or ECDSA nonce from DRBG output, below the order; the model brings it into 1 to n − 1 (R389: the
method is not given). -/
opaque Config.drawScalar : Nat → Bytes → Nat

/-- The bytes of the blinding and projective randomisation values of a private operation, by algorithm and KEY_BITS, beyond
the one byte the model takes at least (R389: the sizes are not given). -/
opaque Config.blindingBytes : Nat → Nat → Nat

/-- The primes of an RSA key of a length, from DRBG output (R357: the candidates' construction is not given). -/
opaque Config.rsaPair : Nat → Bytes → Nat × Nat

/-- The number of candidates examined on the way (R357). -/
opaque Config.rsaCandidates : Nat → Bytes → Nat

/-- A fill digit 0xA to 0xF from a random byte (R301, format 3: the mapping is not given). -/
opaque Config.fillDigit : Byte → Nat

/-- The engine-cycle count of a cipher or hash job by algorithm, mode, direction, order and lengths (R238: a function of
these alone, of which R268 gives a few values). -/
opaque Config.engineCycles : List Nat → Nat

/-- The way of an L2 group that gives up its line, by group and replacement state (R529): the spec names no policy. -/
opaque Config.l2Victim : Nat → Nat → Nat

end Sys2Proof
end

