-- ==== Sys2Proof/Machine/Bytes.lean ====
section
/-! DEFINITION. Byte strings: slices, padding, and the two byte orders of integers (R765 makes multi-byte fields
little-endian where no other order is stated; cryptographic integers are big-endian as their rules say). -/

namespace Sys2Proof.Machine

/-- The byte with value `n` modulo 256. -/
def byte (n : Nat) : Byte := BitVec.ofNat 8 n

/-- `n` zero bytes. -/
def zeros (n : Nat) : Bytes := List.replicate n 0

/-- Bytes `off` to `off + len - 1`; bytes past the end read as zero. -/
def slice (b : Bytes) (off len : Nat) : Bytes :=
  let t := (b.drop off).take len
  t ++ zeros (len - t.length)

/-- The byte at `off`, zero past the end. -/
def byteAt (b : Bytes) (off : Nat) : Nat := (b.getD off 0).toNat

/-- The little-endian value of a byte string. -/
def leNat : Bytes → Nat
  | [] => 0
  | b :: r => b.toNat + 256 * leNat r

/-- The big-endian value of a byte string. -/
def beNat (b : Bytes) : Nat := b.foldl (fun a x => 256 * a + x.toNat) 0

/-- `v` as `n` little-endian bytes. -/
def toLe : Nat → Nat → Bytes
  | 0, _ => []
  | n + 1, v => byte v :: toLe n (v / 256)

/-- `v` as `n` big-endian bytes. -/
def toBe (n v : Nat) : Bytes := (toLe n v).reverse

/-- A little-endian field of a byte string. -/
def fieldLe (b : Bytes) (off len : Nat) : Nat := leNat (slice b off len)

/-- A big-endian field of a byte string. -/
def fieldBe (b : Bytes) (off len : Nat) : Nat := beNat (slice b off len)

/-- Bitwise exclusive or of two byte strings, the length of the first. -/
def xorBytes : Bytes → Bytes → Bytes
  | [], _ => []
  | a :: r, [] => a :: r
  | a :: r, b :: t => (a ^^^ b) :: xorBytes r t

/-- All bytes zero. -/
def isZero (b : Bytes) : Bool := b.all (· == 0)

/-- The bytes of an ASCII string. -/
def ascii (t : String) : Bytes := t.toList.map (fun c => byte c.toNat)

/-- The string padded with zero bytes to `n` bytes. -/
def padTo (n : Nat) (b : Bytes) : Bytes := b ++ zeros (n - b.length)

/-- Pieces of `n` bytes, the last one possibly shorter. -/
def chunksAux (n : Nat) : Nat → Bytes → List Bytes
  | 0, _ => []
  | _ + 1, [] => []
  | f + 1, b => b.take n :: chunksAux n f (b.drop n)

def chunks (n : Nat) (b : Bytes) : List Bytes := chunksAux n b.length b

/-- Bit `i` of a number. -/
def bit (v i : Nat) : Bool := v.testBit i

/-- Bits `lo` to `lo + w - 1` of a number. -/
def bits (v lo w : Nat) : Nat := v / 2 ^ lo % 2 ^ w

/-- The number with bit `i` set or cleared. -/
def setBit (v i : Nat) (b : Bool) : Nat :=
  if v.testBit i == b then v else if b then v + 2 ^ i else v - 2 ^ i

/-- A Boolean as a one-bit field value. -/
def b2n (b : Bool) : Nat := if b then 1 else 0

/-- The packing of a list of bits, least significant first. -/
def packBits : List Bool → Nat
  | [] => 0
  | b :: r => b2n b + 2 * packBits r

/-- The number of set bits among the lowest `n`. -/
def popCount (n v : Nat) : Nat := ((List.range n).filter (v.testBit ·)).length

/-- A number brought into the range from `lo` to `hi`. -/
def clamp (lo hi v : Nat) : Nat := if v < lo then lo else if hi < v then hi else v

/-- An error counter of width `w`: it stays at its largest value (R620). -/
def satAdd (w v k : Nat) : Nat := if 2 ^ w ≤ v + k then 2 ^ w - 1 else v + k

end Sys2Proof.Machine
end

