-- ==== Sys2Proof/Machine/Tab.lean ====
section
/-! DEFINITION. Tables with sparse entries: a list of (key, value) pairs with strictly rising keys. Registers, jobs,
key-cache entries, queue pairs and memory bytes are held in such tables, so that equal contents are equal data. -/

namespace Sys2Proof.Machine

/-- A sparse table. -/
abbrev Tab (α : Type) := List (Nat × α)

/-- The entry at a key, if there is one. -/
def Tab.find? {α : Type} : Tab α → Nat → Option α
  | [], _ => none
  | (k, v) :: r, n => if k = n then some v else Tab.find? r n

/-- The table with an entry placed at a key. -/
def Tab.put {α : Type} : Tab α → Nat → α → Tab α
  | [], n, x => [(n, x)]
  | (k, v) :: r, n, x =>
    if n < k then (n, x) :: (k, v) :: r
    else if n = k then (n, x) :: r
    else (k, v) :: Tab.put r n x

/-- The table without an entry at a key. -/
def Tab.del {α : Type} : Tab α → Nat → Tab α
  | [], _ => []
  | (k, v) :: r, n => if k = n then r else (k, v) :: Tab.del r n

/-- The entry at a key, or the value an absent entry stands for. -/
def Tab.getD {α : Type} (t : Tab α) (n : Nat) (d : α) : α := (t.find? n).getD d

/-- The table after a change of one present entry. -/
def Tab.upd {α : Type} (t : Tab α) (n : Nat) (f : α → α) : Tab α :=
  match t.find? n with
  | some v => t.put n (f v)
  | none => t

/-- The lowest key below the bound that has no entry. -/
def Tab.freeAux {α : Type} (t : Tab α) : Nat → Nat → Option Nat
  | 0, _ => none
  | f + 1, n => if (t.find? n).isNone then some n else Tab.freeAux t f (n + 1)

def Tab.lowestFree {α : Type} (t : Tab α) (lo bound : Nat) : Option Nat := Tab.freeAux t (bound - lo) lo

/-- The table with every entry changed. -/
def Tab.mapVals {α : Type} (t : Tab α) (f : Nat → α → α) : Tab α := t.map (fun p => (p.1, f p.1 p.2))

/-- The keys strictly rise. -/
def Tab.sorted {α : Type} : Tab α → Bool
  | [] => true
  | [_] => true
  | (k, _) :: (k', v') :: r => decide (k < k') && Tab.sorted ((k', v') :: r)

end Sys2Proof.Machine
end

