-- ==== Sys2Proof/WellFormed.lean ====
section
/-! DEFINITION. Commands that the part's interface can carry: a page that exists, byte operands of the length their layouts give
them, and the values that no encoding of the command reaches. -/

namespace Sys2Proof

/-- The number of pages of a kind within its unit (R728, R729); PF0's MSI-X table takes eight pages of 4 KiB, and PF1's is the
ninth (R724, R725). -/
def PageKind.count : PageKind → Nat
  | .functab => 4
  | .evtroute => 2
  | .cipher => 8
  | .hash => 4
  | .bignum => 4
  | .mpu => 26
  | .msixPf => 9
  | .pbaPf => 2
  | .cfgPf => 2
  | _ => 1

/-- The number of units that have a page of a kind: 512 VFs, 16 hearths; the flue and the chimney are one unit each.
CHIMNEY.TAMPER and CHIMNEY.FUSE also stand in the local space of each hearth (R727), whose number the unit then gives. -/
def PageKind.units : PageKind → Nat
  | .vfQueue => 512 | .msixVf => 512 | .pbaVf => 512 | .cfgVf => 512
  | .msixPf => 1 | .pbaPf => 1 | .cfgPf => 1
  | .tamper => 16
  | .fuse => 16
  | .flueBoot => 1 | .adminq => 1 | .link => 1 | .functab => 1 | .damper => 1 | .gang => 1 | .flueCounters => 1
  | .flueEvents => 1 | .evtroute => 1 | .debug => 1 | .vault => 1
  | _ => 16

/-- The page exists. -/
def Page.wf (p : Page) : Bool := decide (p.inst.val < p.kind.count) && decide (p.unit.val < p.kind.units)

/-- Memory of a BAR or of a configuration space that is no register page: it has no header (R709). -/
def PageKind.bare (k : PageKind) : Bool :=
  k == .msixVf || k == .msixPf || k == .pbaVf || k == .pbaPf || k == .cfgVf || k == .cfgPf

/-- The page exists and has the header of R709. -/
def Page.regWf (p : Page) : Bool := p.wf && !p.kind.bare

/-- The page itself: the two pages of the chimney that each hearth's local space shows are the chimney's (R727). -/
def Page.home (p : Page) : Page := if p.kind = .tamper ∨ p.kind = .fuse then { p with unit := 0 } else p

/-- A descriptor is 128 bytes, or 64 under SHAIM2_COMPAT (R67, R128). -/
def FetchRead.wf : FetchRead → Bool
  | .ok d _ _ _ => d.length == 128 || d.length == 64
  | .error => true
  | .pending => true

/-- A descriptor of an administration queue is 128 bytes (R67), where its read returned it. -/
def AdminRead.wf (r : AdminRead) : Bool := r.failed || r.desc.length == 128

def GroupSrc.wf : GroupSrc → Bool
  | .job _ _ => true
  | .admin _ r => r.wf

/-- The command is one the interface can carry: its page exists and its descriptor is one of the two sizes. Every value of the
other operands is a command. -/
def Instr.wf : Instr → Bool
  | .descriptorFetch _ _ _ rd => rd.wf
  | .groupOpen src => src.wf
  | .groupCommit src => src.wf
  | .groupAbort src => src.wf
  | .groupQuery src => src.wf
  | .groupEvent src => src.wf
  | .bindVf _ rd => rd.wf
  | .unbindVf _ rd => rd.wf
  | .moveVf _ rd => rd.wf
  | .resetVf _ rd => rd.wf
  | .setQpGrant _ rd => rd.wf
  | .setDraught _ rd => rd.wf
  | .setEngineShare _ rd => rd.wf
  | .setDamperOpen _ rd => rd.wf
  | .setDamperThrottle _ rd => rd.wf
  | .setDamperClose _ rd => rd.wf
  | .setDamperCloseWait _ rd => rd.wf
  | .setCompat _ rd => rd.wf
  | .setInflight _ rd => rd.wf
  | .stackDefine _ rd => rd.wf
  | .slotUpdate _ rd => rd.wf
  | .slotTableLoad _ rd => rd.wf
  | .ownershipBegin _ rd => rd.wf
  | .ownershipAuthorise _ rd => rd.wf
  | .ownershipComplete _ rd => rd.wf
  | .tamperLogExport _ rd => rd.wf
  | .dumpOpen _ rd => rd.wf
  | .dumpClear _ rd => rd.wf
  | .imageLoad _ rd => rd.wf
  | .hearthStart _ rd => rd.wf
  | .hearthReset _ rd => rd.wf
  | .lifecycleAdvance _ rd _ => rd.wf
  | .fuseProgram _ rd => rd.wf
  | .rollbackAdvance _ rd => rd.wf
  | .evtInject p _ _ => p.regWf
  | .pageLockSet p _ => p.regWf
  | .registerWrite p _ _ _ _ _ => p.wf
  | _ => true

end Sys2Proof
end

