-- ==== Sys2Proof/Machine/State.lean ====
section
/-! DEFINITION. The state of the part as plain data: every register, buffer, queue, counter, mode and pin the spec gives it,
the queue of waiting commands, and the state after reset. Registers that software reads or writes are held in one register
file (`State.regs`), keyed by page and bit; a key that is absent holds its field's reset value. What the machine holds
besides its registers is held in records with the spec's own names. -/

namespace Sys2Proof.Machine

/-! ### Registers -/

/-- The access kinds of R10 to R12. -/
inductive Acc where
  | ro | rw | rwl | w1c | w1s | wo
  deriving DecidableEq, Repr

/-- A register field: byte offset of its register, lowest bit, width, access kind and reset value. -/
structure Fld where
  off   : Nat
  lo    : Nat
  w     : Nat
  acc   : Acc
  reset : Nat
  deriving DecidableEq, Repr

/-! ### Jobs -/

/-- The states of a job-table entry (R20); an absent entry is FREE. -/
inductive JobState where
  | fetched | keywait | ready | running | yielded | held | completing
  deriving DecidableEq, Repr

/-- One data entry of a scatter list (R72). -/
structure SgEntry where
  addr : Nat
  len  : Nat
  deriving DecidableEq, Repr

/-- A key reference after its checks: a key-cache entry, or a fixed slot with the recipe in use at dispatch (R163). -/
inductive KeyUse where
  | none
  | cache (idx : Nat)
  | fixed (slot : Nat)
  deriving DecidableEq, Repr

/-- Attributes of a key (R168, R181). -/
structure KeyAttr where
  alg    : Nat := 0
  bits   : Nat := 0
  usage  : Nat := 0
  flags  : Nat := 0
  owner  : Nat := 0
  limit  : Nat := 0
  expiry : Nat := 0
  deriving DecidableEq, Repr

/-- An accepted slot record (R155). -/
structure SlotRec where
  recipe  : Bytes := []
  fp      : Bytes := []
  counter : Nat := 0
  deriving DecidableEq, Repr

/-- The key a dispatched job holds, as shares (R171, R233): an entry's two, or those of a key derived from a fixed slot; at masking
order 2 the engine's third one beside them. -/
structure KeyHold where
  use  : KeyUse := .none
  attr : KeyAttr := {}
  fp   : Bytes := []
  parts : List Bytes := []
  /-- the record of a fixed slot in use at dispatch (R163) -/
  slot : Option SlotRec := none
  /-- VF_SET and USES of a cached key at dispatch -/
  set  : Nat := 0
  uses : Nat := 0
  deriving DecidableEq, Repr

/-- The states of a key-cache head entry (R168); an absent entry is FREE. -/
inductive EntryState where
  | valid | pending | transient
  deriving DecidableEq, Repr

/-- A key in the key cache: its head entry and the extent that follows it (R167, R168). -/
structure KeyEntry where
  state  : EntryState := .valid
  attr   : KeyAttr := {}
  vfSet  : Nat := 0
  uses   : Nat := 0
  fp     : Bytes := []
  nonceCtr : Nat := 0
  extent : Nat := 1
  shareA : Bytes := []
  shareB : Bytes := []
  /-- hearth position the entries are charged to (R766) -/
  charge : Option Nat := none
  /-- group that marked the entry for removal -/
  marked : Option Nat := none
  deriving DecidableEq, Repr

/-- A job-table entry (R17, R20, R667). -/
structure Job where
  state    : JobState := .fetched
  vf       : Nat := 0
  qp       : Nat := 0
  /-- the descriptor in the Shaim 3 layout of R67 -/
  desc     : Bytes := []
  /-- fetched under SHAIM2_COMPAT (R127) -/
  compat   : Bool := false
  sglIn    : List SgEntry := []
  sglOut   : List SgEntry := []
  /-- order of the fetch within the hearth -/
  seq      : Nat := 0
  /-- µs spent in READY or YIELDED (R26) -/
  waitUs   : Nat := 0
  /-- how long the hob's BATCH mode has held the job, in µs (R331) -/
  heldUs   : Nat := 0
  status   : Nat := 0
  result   : Bytes := []
  hasNonce : Bool := false
  hasResult : Bool := false
  outData  : Bytes := []
  /-- extra writes to hearth DDR with the output: offset and bytes (R395) -/
  ddrOut   : Option (Nat × Bytes) := none
  /-- output bytes to overwrite with zero when the job fails (R226) -/
  wipe     : Nat := 0
  /-- engines held, in the numbering of R666 -/
  units    : List Nat := []
  /-- the function of the opcode has run -/
  ran      : Bool := false
  keys     : List KeyHold := []
  /-- cache entries the unwraps of its references took (R174), by key reference; those in the transient reserve end with the job -/
  unwrapped : List (Nat × Nat) := []
  /-- key references whose unwrap failed, with its status (R192) -/
  unwrapErr : List (Nat × Nat) := []
  /-- key references not yet present, awaiting an unwrap (R20 KEYWAIT) -/
  awaiting : List Nat := []
  nonce    : Bytes := []
  order2   : Bool := false
  /-- bytes drawn from the DRBG for the job at its dispatch (R196, R289, R389) -/
  rand     : Bytes := []
  /-- HOB_PINPOL and the decimalisation table present at a hob job's dispatch (R287): MIN_LEN, MAX_LEN, DT_LO, DT_HI -/
  latch    : List Nat := []
  /-- input, output and RESULT as the shares that the engine's rows hold of a masked job (R232, R234) -/
  inShares  : List Bytes := []
  outShares : List Bytes := []
  resShares : List Bytes := []
  /-- the key the job's function made, inserted when the job ends: its entry and material -/
  newKey   : Option (KeyEntry × Bytes) := none
  group    : Nat := 0
  joined   : Bool := false
  /-- the job was an action of a group that ended with its hearth (R424) -/
  lostGroup : Bool := false
  /-- engines that CLEAR_OPERANDS has passed (R381) -/
  cleared  : Nat := 0
  /-- yield points passed -/
  passed   : Nat := 0
  attempts : Nat := 0
  deriving DecidableEq, Repr

/-- A job that the inner world creates on behalf of host jobs (R18): the unwrap of a key reference of a job that waits for it, or
a known-answer test of a unit. -/
inductive InnerJob where
  | unwrap (job ref : Nat)
  | kat (u : Nat)
  deriving DecidableEq, Repr

/-! ### Engines -/

/-- The mask generator of an engine, a burner or a key cache (R147, R239 to R244): its 256-bit key, its 128-bit starting value and
the bytes given since, and the seed it holds in the shadow. -/
structure MaskGen where
  key        : Bytes := []
  start      : Bytes := []
  given      : Nat := 0
  shadow     : Bytes := []
  seeded     : Bool := false
  prefetched : Bool := false
  stalled    : Bool := false
  grace      : Nat := 0
  requested  : Bool := false
  deriving DecidableEq, Repr

/-- An engine or burner: cipher 0-7 are units 0-7, hash 0-3 units 8-11, big-number 0-3 units 12-15, burners 0-3 units
16-19, the order of R666. -/
structure Engine where
  owner      : Nat := 0
  /-- R250 HOLDER: 0 none, 1 stoker, 2 inner world, 3 outer world -/
  holder     : Nat := 0
  reservedBy : Nat := 0
  scrubbing  : Bool := false
  lastOwner  : Nat := 0
  relPending : Bool := false
  job        : Option Nat := none
  /-- a direct-use job is running or paused -/
  busy       : Bool := false
  paused     : Bool := false
  offline    : Bool := false
  katPending : Bool := false
  /-- the test was asked for by KAT_REQ or at hearth reset: a pass returns an offline engine to rotation (R276) -/
  katReturns : Bool := false
  katRunning : Bool := false
  /-- masking order latched at job start (R237) -/
  order2     : Bool := false
  /-- the key registers hold shares (R257, R258) -/
  keysLoaded : Bool := false
  mg         : MaskGen := {}
  /-- a direct-use job has run, so that part of its output may be written (R226, R243) -/
  streamed   : Bool := false
  /-- status a direct-use job ends with -/
  pendCode   : Nat := 0
  /-- a direct-use job's keys, hardware nonce and drawn bytes, and whether it waits for the DRBG -/
  keys       : List KeyHold := []
  nonce      : Bytes := []
  rand       : Bytes := []
  waitDraw   : Bool := false
  /-- big-number engines: yield requested, save in progress, regions being cleared, restore in progress -/
  yieldReq   : Bool := false
  saving     : Bool := false
  restoring  : Bool := false
  clearing   : Bool := false
  /-- operand regions that queued jobs have used since they were cleared, with the VF of the last such job (R113, R379) -/
  left       : List (Nat × Nat) := []
  /-- burners: clock gated between batches (R331) and turnover in progress (R281) -/
  gated      : Bool := false
  turnover   : Bool := false
  deriving DecidableEq, Repr

/-- One line of big-number operand memory (R343 to R346): 64 bytes and the SECRET mark. -/
structure OpLine where
  data   : Bytes := []
  secret : Bool := false
  deriving DecidableEq, Repr

/-- A save slot (R371): the job it is assigned to; a slot of a YIELDED job holds its image. -/
structure SaveSlot where
  job   : Option Nat := none
  deriving DecidableEq, Repr

/-! ### Groups -/

/-- The states of an atomic group (R407). -/
inductive GroupState where
  | opened | sealed | prepared | committing | rollingBack | doomed
  deriving DecidableEq, Repr

/-- A member of an action list: a job of the hearth or an administration action held in the flue. -/
inductive ActionRef where
  | job (j : Nat)
  | admin (tag : Nat)
  deriving DecidableEq, Repr

/-- One action of a group, with its effects that wait for the group (R392). -/
structure Action where
  ref    : ActionRef
  /-- HELD, or failed with its own status -/
  held   : Bool := false
  failed : Option Nat := none
  insert : Option Nat := none
  evict  : Option Nat := none
  /-- fixed-slot update: slot, record, reissue -/
  slot   : Option (Nat × SlotRec × Bool) := none
  uses   : List Nat := []
  event  : Option Bytes := none
  heldBytes : Nat := 0
  deriving DecidableEq, Repr

/-- Gang membership: stack, tag, participants. -/
structure GangRef where
  stack : Nat
  tag   : Nat
  parts : Nat
  deriving DecidableEq, Repr

/-- A group control completion that waits for the group to resolve: from a job or an administration queue. -/
inductive CtlRef where
  | job (j : Nat)
  | admin (q : Nat) (tag : Nat)
  deriving DecidableEq, Repr

structure Group where
  state   : GroupState := .opened
  /-- the function that opened it: a VF, or none for PF0 -/
  vf      : Option Nat := none
  gang    : Option GangRef := none
  count   : Option Nat := none
  actions : List Action := []
  commit  : Option CtlRef := none
  abort   : Option CtlRef := none
  /-- status for the other actions and the commit at a rollback -/
  cause   : Nat := 0
  commitStatus : Nat := 0
  idleMs  : Nat := 0
  /-- the effects have been applied or undone, and the completions are on their way (R411, R412) -/
  released : Bool := false
  deriving DecidableEq, Repr

/-! ### Entropy -/

/-- Per-pair health-test state (R434 to R436). -/
structure PairTest where
  last  : Nat := 2
  run   : Nat := 0
  first : Nat := 2
  pos   : Nat := 0
  count : Nat := 0
  deriving DecidableEq, Repr

/-- ENT_STATUS.SOURCE (R461). -/
inductive SourceState where
  | starting | healthy | failed
  deriving DecidableEq, Repr

/-- ENT_STATUS.DRBG (R461). -/
inductive DrbgState where
  | uninstantiated | running | holdover | stopped
  deriving DecidableEq, Repr

structure Entropy where
  source  : SourceState := .starting
  drbg    : DrbgState := .uninstantiated
  /-- removed pairs, one bit each (ENT_PAIR_LO, ENT_PAIR_HI) -/
  removed : Nat := 0
  tests   : Tab PairTest := []
  /-- the collection register (R432): bits gathered, first bit lowest, and how many -/
  coll    : Nat := 0
  collN   : Nat := 0
  /-- raw bits of the pair ENT_RAW_SEL names, gathered for ENT_RAW (R460) -/
  raw     : Nat := 0
  rawN    : Nat := 0
  pool    : List Bytes := []
  key     : Bytes := []
  v       : Bytes := []
  /-- the key of the core's own mask generator (R433, R444) -/
  core    : Bytes := []
  /-- ENT_COUNT.REQUESTS -/
  requests : Nat := 0
  /-- the test in progress: 0 none, 1 start-up, 2 RESTART, 3 RETEST -/
  testing : Nat := 0
  /-- pairs under test, those of them that failed, and the raw bits each has had -/
  under   : Nat := 0
  testFails : Nat := 0
  testPos : Nat := 0
  bufIn   : Bytes := []
  bufOut  : Bytes := []
  deriving DecidableEq, Repr

/-! ### Memory path -/

/-- The states of a memory range (R479) are held in its RNG_STATUS register; beside them the model keeps the integrity
counters of an integrity range: page to major counter and written minor counters (R485). -/
structure PageCtr where
  major  : Nat := 0
  minors : Tab Nat := []
  deriving DecidableEq, Repr

structure MemRange where
  /-- values in force since INIT: base, size, meta, generation, mode -/
  base : Nat := 0
  size : Nat := 0
  metaAt : Nat := 0
  gen  : Nat := 0
  mode : Nat := 0
  key  : Bytes := []
  ctrs : Tab PageCtr := []
  deriving DecidableEq, Repr

/-- A queued ownership command (R498). -/
structure OwnCmd where
  page  : Nat
  count : Nat
  entry : Nat
  deriving DecidableEq, Repr

/-- One region of a memory protection unit: base, attributes (R503). -/
structure MpuRegion where
  base : Nat := 0
  attr : Nat := 0
  deriving DecidableEq, Repr

structure Mpu where
  regions : Tab MpuRegion := []
  syncing : Bool := false
  deriving DecidableEq, Repr

structure MemPath where
  /-- stored bytes by DDR offset, the plaintext the ranges deliver -/
  ddr     : List Host.Cell := []
  /-- poisoned lines by DDR offset / 64 (R493) -/
  poison  : List Nat := []
  ranges  : Tab MemRange := []
  /-- DDR lines of counter blocks, MAC lines and tree nodes that the node cache holds (R487) -/
  nodes   : List Nat := []
  /-- ownership table: page to entry (R495); an absent entry is 0 -/
  owners  : Tab Nat := []
  pending : List OwnCmd := []
  /-- pages between their old and new owner (R510) -/
  transit : List OwnCmd := []
  reenc   : List (Nat × Nat) := []
  mpus    : Tab Mpu := []
  deriving DecidableEq, Repr

/-! ### Caches (R522, R529, R530) -/

/-- A cache line: 64 bytes at 64 times `line`, in which world it was brought in, whether it is newer than memory, and the core that
wrote it last. -/
structure CacheLine where
  line  : Nat := 0
  outer : Bool := false
  data  : Bytes := []
  dirty : Bool := false
  core  : Nat := 0
  deriving DecidableEq, Repr

/-- The ways of one set of the L2 that serve one world, with the replacement state that is theirs alone (R529). -/
structure L2Group where
  lines : List CacheLine := []
  repl  : Nat := 0
  deriving DecidableEq, Repr

/-- A hearth's caches: by core the L1 instruction and data cache, and the L2 by set and world. -/
structure Caches where
  l1i : Tab (List CacheLine) := []
  l1d : Tab (List CacheLine) := []
  l2  : Tab L2Group := []
  deriving DecidableEq, Repr

/-! ### Cores -/

inductive World where
  | inner | outer
  deriving DecidableEq, Repr

/-- A core (R15, R16, R520 to R528): its world, the outstanding call, the banked registers, and the architectural
registers the gate and the debugger read or change. -/
structure Core where
  world    : World := .inner
  released : Bool := false
  callOpen : Bool := false
  banked   : Bool := false
  bank     : List (BitVec 64) := []
  halted   : Bool := false
  /-- a transit in progress: the operation and the service byte -/
  transit  : Option (WorldOp × Nat) := none
  entry    : Nat := 0
  service  : Nat := 0
  pc       : BitVec 64 := 0
  epc      : BitVec 64 := 0
  regs     : List (BitVec 64) := []
  /-- per-world copies of the CSRs of R526, by CSR number -/
  csrInner : Tab (BitVec 64) := []
  csrOuter : Tab (BitVec 64) := []
  wfi      : Bool := false
  /-- machine mode, or user mode; the modes saved with GATE_EPC and in the bank -/
  machine  : Bool := true
  epcMachine  : Bool := true
  bankMachine : Bool := true
  /-- a debugged core that an inner-world interrupt took out of halt halts again on RESUME (R533) -/
  haltAgain : Bool := false
  deriving DecidableEq, Repr

/-! ### Recorders -/

/-- A record (R646); `payload` holds the bytes of DETAIL, up to 48 for GRP_AUDIT (R648). -/
structure Rec where
  time    : Nat := 0
  seq     : Nat := 0
  event   : Nat := 0
  sev     : Nat := 0
  count   : Nat := 1
  overflow : Bool := false
  plen    : Nat := 0
  owner   : Nat := 0
  vf      : Nat := 0x1FF
  inst    : Nat := 0xFF
  payload : Bytes := []
  deriving DecidableEq, Repr

/-- A record in a ring with the slots it occupies, oldest first in its zone's list. -/
structure Slotted where
  slots : List Nat
  entry : Rec
  deriving DecidableEq, Repr

structure Recorder where
  general  : List Slotted := []
  reserved : List Slotted := []
  hold     : List Rec := []
  /-- the record of severity 6 or 7 that found no room (R653, R666) -/
  lost     : Option Rec := none
  stopped  : Bool := false
  /-- flue only: records of severity 6 and 7 that wait for room (R654) -/
  waiting  : Bool := false
  deriving DecidableEq, Repr

/-! ### The hearth -/

/-- The fatal dump of R663 to R671. -/
structure Dump where
  /-- DDR offset of the fatal dump region, known since the sub-channel last became READY -/
  base     : Option Nat := none
  /-- the fatal handler runs -/
  handler  : Bool := false
  time     : Nat := 0
  lastSeq  : Nat := 0
  deriving DecidableEq, Repr

/-- A value held in two shares with its polarity (R142). -/
structure Shared where
  s : Bytes := []
  m : Bytes := []
  inv : Bool := false
  deriving DecidableEq, Repr

/-- A pulse crossing towards a hearth whose clock is stopped (R614, R615): the count of the transfer in flight, the pending count and
OVERFLOW. -/
structure Crossing where
  inFlight : Nat := 0
  pending  : Nat := 0
  overflow : Bool := false
  deriving DecidableEq, Repr

/-- One more pulse (R614, R615): it starts a transfer, adds to the pending count, or is lost. -/
def Crossing.pulse (c : Crossing) : Crossing :=
  if c.inFlight = 0 then { c with inFlight := 1 }
  else if c.pending < 255 then { c with pending := c.pending + 1 }
  else { c with overflow := true }

structure Hearth where
  jobs      : Tab Job := []
  /-- entries 2,016 to 2,047 of the job table (R18) -/
  inner     : Tab InnerJob := []
  fetchSeq  : Nat := 0
  /-- engine classes whose blocking has been reported and that have had no dispatch since (R23, R30) -/
  blocked   : List Nat := []
  fatal     : Option Nat := none
  /-- current VF of the round-robin fetch is not state of the model: each fetch names its queue -/
  engines   : Tab Engine := []
  opmem     : Tab OpLine := []
  saves     : Tab SaveSlot := []
  preemptOff : Bool := false
  cache     : Tab KeyEntry := []
  slots     : Tab SlotRec := []
  /-- the masked shadow of the ember that the derivation unit holds (R137) -/
  shadow    : Option Shared := none
  /-- the key cache's own mask generator (R147, R149) -/
  cacheMg   : MaskGen := {}
  testRoot  : Bool := false
  /-- a banking pass of the key cache is due; it waits for randomness (R147, R149) -/
  bankWait  : Bool := false
  bankDeferred : Bool := false
  /-- a shadow reload is on its way (R146) -/
  reloading : Bool := false
  /-- embers written since the hearth's last start (R699) -/
  needStart : Bool := false
  compat    : Bool := false
  compatLock : Bool := false
  pinArmed  : Bool := true
  batchOpen : Bool := false
  groups    : Tab Group := []
  nextGroup : Nat := 1
  /-- journal payloads of administration actions: tag to descriptor facts -/
  ent       : Entropy := {}
  mem       : MemPath := {}
  tcmIn     : List Host.Cell := []
  tcmOut    : List Host.Cell := []
  cores     : Tab Core := []
  caches    : Caches := {}
  /-- pulse crossings that wait for hc, by their bits in CTR_XOVF (R616, R617) -/
  cross     : Tab Crossing := []
  enables   : Nat := 0
  iiPending : Bool := false
  dbgExpiry : Nat := 0
  /-- power state of each gateable block, numbered as the units of R546: 0 RUN, 1 PARKED, 2 OFF, 3 DRAINING (R546), 4 on its
  way from OFF to RUN -/
  blocks    : Tab Nat := []
  /-- the power state reached: 0 H0 to 3 H3 (R542) -/
  power     : Nat := 0
  /-- the target in force: PWR_CTRL.TARGET unless a hold defers it (R550) -/
  pwrTarget : Nat := 1
  /-- the profile in force, and a change of it in progress (R555) -/
  profile   : Nat := 0
  transition : Bool := false
  /-- the PROFILE strap as last sampled (R554, R753) -/
  strap     : Nat := 0
  recorder  : Recorder := {}
  dump      : Dump := {}
  /-- the live counters of the bank that no register shows (R624) -/
  ctrs      : Tab Nat := []
  imageInner : Option (Nat × Bytes) := none
  imageOuter : Option (Nat × Bytes) := none
  attestPub : Bytes := []
  endorsement : Bytes := []
  deriving DecidableEq, Repr

/-! ### VFs and queue pairs -/

/-- What a queue pair holds besides its registers (R57, R63, R76 to R86). -/
structure Qp where
  sqTail   : Nat := 0
  sqHead   : Nat := 0
  cqTail   : Nat := 0
  cqHead   : Nat := 0
  /-- completion entries written and not yet consumed -/
  occ      : Nat := 0
  seq      : Nat := 0
  phase    : Bool := true
  unsignalled : Nat := 0
  /-- job of a fence descriptor not yet completed (R81) -/
  fence    : Option Nat := none
  /-- a read of the next descriptor is issued and has not returned (R65, R98); a queue pair has one at a time, since the descriptor
  read may be a fence -/
  reading  : Bool := false
  deriving DecidableEq, Repr

/-- The TDI states of R118. -/
inductive TdiState where
  | unlocked | locked | run | error
  deriving DecidableEq, Repr

structure Vf where
  position  : Nat := 0
  throttle  : Nat := 0
  vtime     : Nat := 0
  tokens    : Nat := 0
  tdi       : TdiState := .unlocked
  tdiNonce  : Bytes := []
  /-- the offset LOCK_INTERFACE gave for the addresses of the report -/
  tdiOffset : Nat := 0
  /-- the next job to finish this VF's reset -/
  aborting  : Bool := false
  deriving DecidableEq, Repr

/-! ### The flue -/

/-- An administration request that completes later: CLOSE_WAIT, GROUP_COMMIT, a held action (R106, R403). -/
structure AdminHeld where
  queue   : Nat
  hostTag : Nat
  flags   : Nat := 0
  vf      : Nat := 0
  status  : Nat := 0
  result  : Bytes := []
  out     : Bytes := []
  outAddr : List SgEntry := []
  group   : Nat := 0
  hearth  : Nat := 0
  isWait  : Bool := false
  /-- a HEARTH_START that waits for the end of the sequence (R693) -/
  isStart : Bool := false
  deriving DecidableEq, Repr

inductive GangState where
  | forming | preparing | deciding | committed | aborting
  deriving DecidableEq, Repr

/-- A gang at the coordinator (R417). -/
structure Gang where
  stack  : Nat
  tag    : Nat
  parts  : Nat
  state  : GangState := .forming
  opened : Nat := 0
  votes  : Nat := 0
  done   : Nat := 0
  late   : Nat := 0
  timeout : Bool := false
  limit  : Bool := false
  culprit : Nat := 0
  record : Option Nat := none
  deriving DecidableEq, Repr

structure Stack where
  owner : Nat
  mask  : Nat
  deriving DecidableEq, Repr

/-- The ownership ceremony (R204 to R211). -/
structure Ceremony where
  request   : Bytes
  challenge : Bytes
  started   : Nat
  accepted  : List (Nat × Bytes) := []
  deriving DecidableEq, Repr

/-- An IDE stream (R115, R116): 0 the link stream, 1 to 64 the selective streams. -/
structure IdeStream where
  /-- the function the stream carries, as its routing ID less PF0's: 0 PF0, 1 PF1, 2 + v VF v (R41, R116) -/
  rid    : Nat := 0
  /-- keys programmed, by key set * 6 + direction * 3 + sub-stream -/
  keys   : Tab Bytes := []
  /-- of those, the ones told to go -/
  going  : List Nat := []
  secure : Bool := false
  deriving DecidableEq, Repr

/-- A secured SPDM session (R124). A command carries the message that the record layer has opened; answers leave sealed. -/
structure Session where
  /-- 0 handshake, 1 application -/
  phase  : Nat := 0
  /-- the handshake secret, and the secrets of the two directions -/
  secret : Bytes := []
  keysRx : Bytes := []
  keysTx : Bytes := []
  /-- the secrets a key update replaced, until the new key is verified -/
  pendRx : Bytes := []
  pendTx : Bytes := []
  /-- the requester's half of the session's number, and the records sealed under the present keys -/
  reqId  : Nat := 0
  seqTx  : Nat := 0
  /-- transcripts: of the session's handshake, and of its measurements -/
  trans  : Bytes := []
  msgL   : Bytes := []
  deriving DecidableEq, Repr

/-- The SPDM responder (R124, R134). -/
structure Spdm where
  versionDone : Bool := false
  capsDone    : Bool := false
  algsDone    : Bool := false
  /-- the negotiated signature: slot 0's RSASSA-4096 with SHA-512, or slot 1's ECDSA P-384 with SHA-384 -/
  ecdsa       : Bool := false
  /-- the messages of version, capabilities and algorithms; of digests and certificates; of measurements -/
  vca         : Bytes := []
  msgB        : Bytes := []
  msgL        : Bytes := []
  sessions    : Tab Session := []
  p384Ready   : Bool := false
  rsaReady    : Bool := false
  deriving DecidableEq, Repr

structure Flue where
  vfs      : Tab Vf := []
  qps      : Tab Qp := []
  adminQps : Tab Qp := []
  held     : Tab AdminHeld := []
  nextTag  : Nat := 0
  numVfs   : Nat := 0
  vfEnable : Bool := false
  unbound  : Nat := 0
  stackTab : Tab Stack := []
  gangs    : List Gang := []
  recovering : Bool := false
  ceremony : Option Ceremony := none
  ide      : Tab IdeStream := []
  spdm     : Spdm := {}
  /-- PF0 is in D3hot (R552) -/
  d3hot    : Bool := false
  recorder : Recorder := {}
  /-- the live counters of the flue bank that no register shows (R625) -/
  ctrs     : Tab Nat := []
  /-- a periodic snapshot owed (R628) -/
  snapOwed : Bool := false
  bootImage : Bytes := []
  bootErr  : Bool := false
  imageMeas : Bytes := []
  /-- the token under check, and the challenge that was open at its SUBMIT (R536, R537) -/
  token    : Bytes := []
  tokenChal : Option Bytes := none
  deriving DecidableEq, Repr

/-! ### The chimney -/

/-- An apply entry of the vault (R413). -/
structure ApplyEntry where
  hearth   : Nat
  record   : Nat
  reissue  : Nat
  slots    : List Nat
  progress : Nat := 0
  deriving DecidableEq, Repr

/-- A decision record of the vault (R413). STATE: 1 COMMITTED, 2 COUNTED. -/
structure Decision where
  state   : Nat
  kind    : Nat
  unit    : Nat
  tag     : Nat
  parts   : Nat
  applied : Nat
  owner   : Nat
  first   : Nat
  count   : Nat
  time    : Nat
  /-- actions of each participant's member, the number R422 reports; the record's layout names no byte for it -/
  acts    : Tab Nat := []
  deriving DecidableEq, Repr

/-- An entry of the tamper log (R590). -/
structure TamperEntry where
  slot  : Nat
  seq   : Nat
  bytes : Bytes
  deriving DecidableEq, Repr

structure Vault where
  intact    : Bool := false
  valid     : Bool := false
  lost      : Bool := false
  owner     : Shared := {}
  embers    : Tab Shared := []
  /-- update counters by hearth * 256 + slot (R154) -/
  counters  : Tab Nat := []
  rngGens   : Tab Nat := []
  records   : Tab Decision := []
  applies   : Tab ApplyEntry := []
  opTime    : Nat := 0
  powerCycles : Nat := 0
  cyclesStuck : Bool := false
  level     : Nat := 0
  locked    : Bool := false
  /-- TMP_QUENCH is owed at the next flue start (R580) -/
  quenched  : Bool := false
  sticky    : Nat := 0
  resp      : Nat := 0
  log       : List TamperEntry := []
  logSeq    : Nat := 0
  logDropped : Nat := 0
  /-- operating time in ms since the last banking (R143) -/
  sinceBank : Nat := 0
  /-- a banking with fresh randomness is owed since the return of main power (R145) -/
  freshOwed : Bool := false
  /-- stored polarity, and the last banking drew no fresh randomness (R142, R150) -/
  polarity  : Bool := false
  deferred  : Bool := false
  deriving DecidableEq, Repr

/-- The lifecycle states of R694. -/
inductive Lifecycle where
  | vendorTest | provisioned | owned | operational | decommissioned
  deriving DecidableEq, Repr

structure Fuses where
  /-- bits blown in each lifecycle word (R702) -/
  lcWords   : Tab Nat := []
  tamperDis : Nat := 0
  compat    : Nat := 0
  arbFlue   : Nat := 0
  arbInner  : Nat := 0
  arbOuter  : Nat := 0
  seed      : Option Bytes := none
  serial    : Bytes := []
  /-- digests of the vendor keys: firmware, debug, lifecycle (R681, R536, R701) -/
  vendorFw  : Bytes := []
  vendorDbg : Bytes := []
  vendorLc  : Bytes := []
  deriving DecidableEq, Repr

/-- The four variants of R2: sixteen or eight hearths, with or without the payment hob. -/
structure Variant where
  hearths : Nat := 16
  hob     : Bool := true
  /-- the industrial grade (VXL-6416-PI), with its own trip points (R572) -/
  industrial : Bool := false
  deriving DecidableEq, Repr

structure Chimney where
  vault   : Vault := {}
  fuses   : Fuses := {}
  /-- R566, R567: the supply of the island, and main power -/
  supply  : Supply := .vaon
  main    : Bool := true
  por     : Bool := false
  perst   : Bool := false
  /-- detectors at their trip condition (TMP_ACTIVE) -/
  active  : Nat := 0
  alarmN  : Bool := true
  tamperOut : Bool := false
  /-- a quench in the MAIN regime is in progress (R578) -/
  quenching : Bool := false
  /-- the holding capacitor keeps the vault (R597) -/
  holding : Bool := false
  deriving DecidableEq, Repr

/-! ### Outputs -/

/-- A function of the part as a requester on the link (R41). -/
inductive Func where
  | pf0 | pf1
  | vf (v : Nat)
  deriving DecidableEq, Repr

/-- What the part sends out, in the order in which it leaves. -/
inductive Output where
  /-- a DMA write to host memory, and whether it carries Relaxed Ordering (R85) -/
  | hostWrite (fn : Func) (relaxed : Bool) (addr : Nat) (data : Bytes)
  /-- an MSI-X message: the function's vector, and the address and data of the vector's table entry -/
  | msix (fn : Func) (vector addr data : Nat)
  /-- the answer of a read -/
  | readData (data : Bytes)
  /-- the answer of a data-fabric access (R514): the cause of R512 (0 none), whether the read is poisoned or the line refused
  as a poisoned read is, and the bytes read -/
  | access (cause : Nat) (poison : Bool) (data : Bytes)
  /-- an SPDM, IDE_KM or TDISP response: session (none outside a session), code, body -/
  | message (session : Option Nat) (code : Nat) (body : Bytes)
  /-- a pulse or level on a pin: name, level -/
  | pin (name : String) (high : Bool)
  deriving DecidableEq, Repr

/-! ### The part -/

structure State where
  pending : List Instr := []
  out     : List Output := []
  /-- the model's own: the number of free values drawn so far -/
  freeCtr : Nat := 0
  regs    : Tab Nat := []
  variant : Variant := {}
  hearths : Tab Hearth := []
  flue    : Flue := {}
  chim    : Chimney := {}
  deriving DecidableEq, Repr

/-- Why a command stops the model. -/
inductive Fault where
  /-- Raised by a command whose operands no well-formed command has (a descriptor that is not 128 bytes long, a message
  shorter than its layout): the part has no such command. Safe: the model stops where the part cannot be. -/
  | illFormed
  deriving DecidableEq, Repr

/-- Why the model gives a command no meaning. -/
inductive Refusal where
  /-- Answered only by an arm of `exec` whose command has no meaning yet. Safe. -/
  | notModelled (mnemonic : String)
  deriving DecidableEq, Repr

/-- The fuses of the part the model starts with: VENDOR_TEST and PROVISIONED blown whole, an identity seed, nothing else. -/
def Fuses.start : Fuses :=
  { lcWords := [(1, 32), (2, 32)], seed := some (List.replicate 64 0), serial := List.replicate 16 0
    vendorFw := List.replicate 32 0, vendorDbg := List.replicate 32 0, vendorLc := List.replicate 32 0 }

/-- The part after reset: main power on, POR_N and PERST_N low, the vault's contents not intact, every register at its reset
value and no command waiting. -/
def State.reset : State :=
  { flue := { numVfs := 512 }, chim := { fuses := Fuses.start, por := true, perst := true } }

end Sys2Proof.Machine
end

