-- ==== Sys2Proof/Machine/Regs.lean ====
section
/-! DEFINITION. The register fields of the spec's register tables, one definition per field: byte offset in the page,
lowest bit, width, access and reset value, each table under the rule that states it; and for each kind of page the list
of its fields. A field of an array takes the entry's number. Where the Reset column holds a word (Vault, Fuses, Strap,
Fixed, Derived, Boot ROM, R720) the value written here is 0 and the value comes from the state that R720 names. -/

namespace Sys2Proof.Machine

/-! R710 (15_register_pages.md). -/
def Reg.PAGE_ID_REVISION : Fld := ⟨0x000, 0, 4, .ro, 1⟩
def Reg.PAGE_ID_LEVEL : Fld := ⟨0x000, 4, 4, .ro, 0⟩
def Reg.PAGE_ID_INSTANCE : Fld := ⟨0x000, 8, 8, .ro, 0⟩
def Reg.PAGE_ID_TYPE : Fld := ⟨0x000, 16, 16, .ro, 0⟩
def Reg.PAGE_CAPS_UNIT : Fld := ⟨0x004, 0, 5, .ro, 0⟩
def Reg.PAGE_CAPS_LOCKABLE : Fld := ⟨0x004, 5, 1, .ro, 0⟩
def Reg.PAGE_CAPS_ENGINE_LOCK : Fld := ⟨0x004, 6, 1, .ro, 0⟩
def Reg.PAGE_CAPS_SOFT_RESET : Fld := ⟨0x004, 7, 1, .ro, 0⟩
def Reg.PAGE_CAPS_EVENTS : Fld := ⟨0x004, 8, 8, .ro, 0⟩
def Reg.PAGE_CTRL_ENABLE : Fld := ⟨0x008, 0, 1, .ro, 1⟩
def Reg.PAGE_CTRL_SOFT_RESET : Fld := ⟨0x008, 1, 1, .wo, 0⟩
def Reg.PAGE_CTRL_LOCK : Fld := ⟨0x008, 2, 1, .w1s, 0⟩
def Reg.EVT_STATUS_STATUS : Fld := ⟨0x010, 0, 32, .w1c, 0⟩
def Reg.EVT_ENABLE_ENABLE : Fld := ⟨0x014, 0, 32, .rw, 0⟩
def Reg.EVT_INJECT_INJECT : Fld := ⟨0x018, 0, 32, .wo, 0⟩
def Reg.PAGE_GEN_GEN : Fld := ⟨0x01C, 0, 16, .ro, 0⟩

/-! R55, R724, R725: an MSI-X table entry `i` of a page of 256, and word `w` of a pending-bit array. The entry's layout and
its Mask bit, which reset sets, are those of PCI Express (PRESUMED, log 131). -/
def Reg.MSIX_ADDR_LO (i : Nat) : Fld := ⟨0x000 + 16 * i, 2, 30, .rw, 0⟩
def Reg.MSIX_ADDR_HI (i : Nat) : Fld := ⟨0x004 + 16 * i, 0, 32, .rw, 0⟩
def Reg.MSIX_DATA (i : Nat) : Fld := ⟨0x008 + 16 * i, 0, 32, .rw, 0⟩
def Reg.MSIX_MASK (i : Nat) : Fld := ⟨0x00C + 16 * i, 0, 1, .rw, 1⟩
def Reg.MSIX_PENDING (w : Nat) : Fld := ⟨0x000 + 4 * w, 0, 32, .ro, 0⟩

/-! R41, R85: Device Control of a function's PCI Express capability, by its offset in the capability; layout and reset values are
those of PCI Express (PRESUMED, log 131). -/
def Reg.DEVCTL_RELAXED : Fld := ⟨0x008, 4, 1, .rw, 1⟩
def Reg.DEVCTL_MAX_PAYLOAD : Fld := ⟨0x008, 5, 3, .rw, 0⟩
def Reg.DEVCTL_MAX_READ : Fld := ⟨0x008, 12, 3, .rw, 2⟩

/-! R711 (15_register_pages.md). -/
def Reg.ERR_CAPTURE0_OFFSET : Fld := ⟨0x020, 0, 12, .ro, 0⟩
def Reg.ERR_CAPTURE0_REQUESTER : Fld := ⟨0x020, 12, 3, .ro, 0⟩
def Reg.ERR_CAPTURE0_CORE : Fld := ⟨0x020, 15, 2, .ro, 0⟩
def Reg.ERR_CAPTURE0_READ : Fld := ⟨0x020, 17, 1, .ro, 0⟩
def Reg.ERR_CAPTURE1_DATA : Fld := ⟨0x024, 0, 32, .ro, 0⟩
def Reg.ERR_CAPTURE2_VF : Fld := ⟨0x028, 0, 9, .ro, 511⟩
def Reg.ERR_CAPTURE2_IDENTITY : Fld := ⟨0x028, 16, 16, .ro, 0⟩
def Reg.ERR_CAPTURE3_GEN : Fld := ⟨0x02C, 0, 16, .ro, 0⟩
def Reg.ERR_CAPTURE3_CAUSE : Fld := ⟨0x02C, 16, 4, .ro, 0⟩
def Reg.ERR_CAPTURE3_VALID : Fld := ⟨0x02C, 31, 1, .w1c, 0⟩
def Reg.ERR_COUNT_COUNT : Fld := ⟨0x030, 0, 8, .ro, 0⟩

/-! R512 (09_memory_path.md). -/
def Reg.MERR_CAPTURE0_ADDR_LO : Fld := ⟨0x020, 0, 32, .ro, 0⟩
def Reg.MERR_CAPTURE1_ADDR_HI : Fld := ⟨0x024, 0, 16, .ro, 0⟩
def Reg.MERR_CAPTURE1_MASTER : Fld := ⟨0x024, 16, 5, .ro, 0⟩
def Reg.MERR_CAPTURE1_WORLD : Fld := ⟨0x024, 21, 1, .ro, 0⟩
def Reg.MERR_CAPTURE1_MMODE : Fld := ⟨0x024, 22, 1, .ro, 0⟩
def Reg.MERR_CAPTURE1_KIND : Fld := ⟨0x024, 23, 3, .ro, 0⟩
def Reg.MERR_CAPTURE2_VF : Fld := ⟨0x028, 0, 9, .ro, 511⟩
def Reg.MERR_CAPTURE2_IDENTITY : Fld := ⟨0x028, 16, 16, .ro, 0⟩
def Reg.MERR_CAPTURE3_GEN : Fld := ⟨0x02C, 0, 16, .ro, 0⟩
def Reg.MERR_CAPTURE3_CAUSE : Fld := ⟨0x02C, 16, 4, .ro, 0⟩
def Reg.MERR_CAPTURE3_VALID : Fld := ⟨0x02C, 31, 1, .w1c, 0⟩
def Reg.MERR_COUNT_COUNT : Fld := ⟨0x030, 0, 8, .ro, 0⟩

/-! R250 (04_cipher_engines.md). -/
def Reg.PAGE_LOCK_OWNER : Fld := ⟨0x00C, 0, 16, .rw, 0⟩
def Reg.PAGE_LOCK_HOLDER : Fld := ⟨0x00C, 16, 2, .ro, 0⟩
def Reg.PAGE_LOCK_RESERVED_BY : Fld := ⟨0x00C, 18, 2, .ro, 0⟩
def Reg.PAGE_LOCK_SCRUBBING : Fld := ⟨0x00C, 20, 1, .ro, 0⟩

/-! R707 (14_startup_and_lifecycle.md). -/
def Reg.BOOT_ADDR_LO_ADDR : Fld := ⟨0x040, 0, 32, .rw, 0⟩
def Reg.BOOT_ADDR_HI_ADDR : Fld := ⟨0x044, 0, 32, .rw, 0⟩
def Reg.BOOT_LEN_LEN : Fld := ⟨0x048, 0, 21, .rw, 0⟩
def Reg.BOOT_CTRL_GO : Fld := ⟨0x04C, 0, 1, .wo, 0⟩
def Reg.BOOT_CTRL_RESTART : Fld := ⟨0x04C, 1, 1, .wo, 0⟩
def Reg.BOOT_STATUS_STATE : Fld := ⟨0x050, 0, 2, .ro, 0⟩
def Reg.BOOT_STATUS_CODE : Fld := ⟨0x050, 16, 16, .ro, 0⟩
def Reg.BOOT_SVN_FLUE : Fld := ⟨0x054, 0, 8, .ro, 0⟩
def Reg.HEARTH_STATE_STATE (i : Nat) : Fld := ⟨0x060 + i * 4, 0, 3, .ro, 1⟩
def Reg.HEARTH_STATE_SVN_INNER (i : Nat) : Fld := ⟨0x060 + i * 4, 8, 8, .ro, 0⟩
def Reg.HEARTH_STATE_SVN_OUTER (i : Nat) : Fld := ⟨0x060 + i * 4, 16, 8, .ro, 0⟩
def Reg.HEARTH_STATE_OUTER (i : Nat) : Fld := ⟨0x060 + i * 4, 24, 1, .ro, 0⟩

/-! R731 (15_register_pages.md). -/
def Reg.LINK_STATUS_RATE : Fld := ⟨0x040, 0, 2, .ro, 0⟩
def Reg.LINK_STATUS_WIDTH : Fld := ⟨0x040, 2, 2, .ro, 0⟩
def Reg.LINK_STATUS_FLIT : Fld := ⟨0x040, 4, 1, .ro, 0⟩
def Reg.LINK_STATUS_UNSUPPORTED : Fld := ⟨0x040, 5, 1, .ro, 0⟩
def Reg.LINK_STATUS_UP : Fld := ⟨0x040, 6, 1, .ro, 0⟩
def Reg.LINK_STATUS_ASPM : Fld := ⟨0x040, 7, 2, .ro, 0⟩

/-! R52 (02_flue_and_functions.md). -/
def Reg.FT_HEARTH (i : Nat) : Fld := ⟨0x040 + i * 16, 0, 4, .ro, 0⟩
def Reg.FT_BOUND (i : Nat) : Fld := ⟨0x040 + i * 16, 4, 1, .ro, 0⟩
def Reg.FT_DAMPER (i : Nat) : Fld := ⟨0x040 + i * 16, 5, 3, .ro, 3⟩
def Reg.FT_TDI_LOCKED (i : Nat) : Fld := ⟨0x040 + i * 16, 8, 1, .ro, 0⟩
def Reg.FT_OWNER_ID (i : Nat) : Fld := ⟨0x040 + i * 16, 16, 16, .ro, 0⟩
def Reg.FT_QP_GRANT (i : Nat) : Fld := ⟨0x044 + i * 16, 0, 4, .ro, 0⟩
def Reg.FT_INFLIGHT_MAX (i : Nat) : Fld := ⟨0x044 + i * 16, 16, 11, .ro, 0⟩
def Reg.FT_DRAUGHT_WEIGHT (i : Nat) : Fld := ⟨0x048 + i * 16, 0, 10, .ro, 0⟩
def Reg.FT_DRAUGHT_RATE (i : Nat) : Fld := ⟨0x048 + i * 16, 10, 10, .ro, 0⟩
def Reg.FT_DRAUGHT_BURST (i : Nat) : Fld := ⟨0x048 + i * 16, 20, 12, .ro, 0⟩
def Reg.FT_SHARE_CIPHER (i : Nat) : Fld := ⟨0x04C + i * 16, 0, 4, .ro, 0⟩
def Reg.FT_SHARE_HASH (i : Nat) : Fld := ⟨0x04C + i * 16, 4, 3, .ro, 0⟩
def Reg.FT_SHARE_BIGNUM (i : Nat) : Fld := ⟨0x04C + i * 16, 8, 3, .ro, 0⟩
def Reg.FT_SHARE_BURNER (i : Nat) : Fld := ⟨0x04C + i * 16, 12, 3, .ro, 0⟩
def Reg.FT_RESET_ABORTED (i : Nat) : Fld := ⟨0x04C + i * 16, 16, 16, .ro, 0⟩

/-! R428 (07_atomic_groups.md). -/
def Reg.GANG_CTRL_PREPARE_TIMEOUT : Fld := ⟨0x040, 0, 14, .rw, 100⟩
def Reg.GANG_STATUS_OPEN : Fld := ⟨0x044, 0, 7, .ro, 0⟩
def Reg.GANG_STATUS_RECORDS : Fld := ⟨0x044, 7, 5, .ro, 0⟩
def Reg.GANG_STATUS_APPLY : Fld := ⟨0x044, 12, 6, .ro, 0⟩
def Reg.GANG_STATUS_RECOVERING : Fld := ⟨0x044, 18, 1, .ro, 0⟩
def Reg.GANG_ABORTS_COUNT : Fld := ⟨0x048, 0, 32, .ro, 0⟩

/-! R635 (12_clocks_and_counters.md). -/
def Reg.SNAP_CTRL_GO : Fld := ⟨0x040, 0, 1, .wo, 0⟩
def Reg.SNAP_CTRL_PERIOD : Fld := ⟨0x040, 16, 16, .rw, 0⟩
def Reg.SNAP_STATUS_EPOCH : Fld := ⟨0x044, 0, 16, .ro, 0⟩
def Reg.SNAP_STATUS_BUSY : Fld := ⟨0x044, 16, 1, .ro, 0⟩
def Reg.SNAP_DELIVERED_HEARTHS : Fld := ⟨0x048, 0, 16, .ro, 0⟩
def Reg.SNAP_SKIPPED_HEARTHS : Fld := ⟨0x04C, 0, 16, .ro, 0⟩
def Reg.CTR_EPOCH_EPOCH : Fld := ⟨0x050, 0, 16, .ro, 0⟩
def Reg.CTR_XOVF_XOVF : Fld := ⟨0x054, 0, 4, .w1c, 0⟩
def Reg.CTR_WRAP_WRAP (i : Nat) : Fld := ⟨0x060 + i * 4, 0, 32, .w1c, 0⟩
def Reg.CTR_SAT_SAT (i : Nat) : Fld := ⟨0x070 + i * 4, 0, 32, .w1c, 0⟩
def Reg.CTR_ENTRY (i : Nat) : Fld := ⟨0x400 + i * 8, 0, 64, .ro, 0⟩

/-! R644 (13_events_and_dumps.md). -/
def Reg.RT_PF0_VECTOR (i : Nat) : Fld := ⟨0x040 + i * 4, 0, 11, .rw, 0⟩
def Reg.RT_PF0_EN (i : Nat) : Fld := ⟨0x040 + i * 4, 11, 1, .rw, 0⟩
def Reg.RT_PF1_VECTOR (i : Nat) : Fld := ⟨0x040 + i * 4, 12, 4, .rw, 0⟩
def Reg.RT_PF1_EN (i : Nat) : Fld := ⟨0x040 + i * 4, 16, 1, .rw, 0⟩

/-! R541 (10_worlds_debug_power.md). -/
def Reg.DBG_CTRL_NEW_CHALLENGE : Fld := ⟨0x040, 0, 1, .wo, 0⟩
def Reg.DBG_CTRL_SUBMIT : Fld := ⟨0x040, 1, 1, .wo, 0⟩
def Reg.DBG_CTRL_REVOKE : Fld := ⟨0x040, 8, 4, .wo, 0⟩
def Reg.DBG_CTRL_REVOKE_HEARTH : Fld := ⟨0x040, 12, 4, .wo, 0⟩
def Reg.DBG_STATUS_BUSY : Fld := ⟨0x044, 0, 1, .ro, 0⟩
def Reg.DBG_STATUS_CHALLENGE_OPEN : Fld := ⟨0x044, 1, 1, .ro, 0⟩
def Reg.DBG_STATUS_CODE : Fld := ⟨0x044, 16, 16, .ro, 0⟩
def Reg.DBG_CHALLENGE_DATA (i : Nat) : Fld := ⟨0x048 + i * 4, 0, 32, .ro, 0⟩
def Reg.DBG_HEARTH_ENABLES (i : Nat) : Fld := ⟨0x080 + i * 8, 0, 4, .ro, 0⟩
def Reg.DBG_HEARTH_II_PENDING (i : Nat) : Fld := ⟨0x080 + i * 8, 4, 1, .ro, 0⟩
def Reg.DBG_EXPIRY_TIME (i : Nat) : Fld := ⟨0x084 + i * 8, 0, 32, .ro, 0⟩
def Reg.DBG_TOKEN_DATA (i : Nat) : Fld := ⟨0x100 + i * 4, 0, 32, .rw, 0⟩

/-! R603 (11_chimney_tamper.md). -/
def Reg.TMP_CTRL_RELEASE : Fld := ⟨0x040, 0, 1, .wo, 0⟩
def Reg.TMP_CTRL_LOCK : Fld := ⟨0x040, 1, 1, .w1s, 0⟩
def Reg.TMP_CTRL_TRIGGER : Fld := ⟨0x040, 2, 1, .wo, 0⟩
def Reg.TMP_CTRL_FW_TRIGGER : Fld := ⟨0x040, 3, 1, .wo, 0⟩
def Reg.TMP_STATUS_LEVEL : Fld := ⟨0x044, 0, 2, .ro, 0⟩
def Reg.TMP_STATUS_LOCKED : Fld := ⟨0x044, 2, 1, .ro, 0⟩
def Reg.TMP_STATUS_QUENCHED : Fld := ⟨0x044, 3, 1, .ro, 0⟩
def Reg.TMP_STATUS_UNAUTH : Fld := ⟨0x044, 4, 1, .ro, 0⟩
def Reg.TMP_ACTIVE_ACTIVE : Fld := ⟨0x048, 0, 30, .ro, 0⟩
def Reg.TMP_STICKY_STICKY : Fld := ⟨0x04C, 0, 30, .w1c, 0⟩
def Reg.TMP_DISABLED_DISABLED : Fld := ⟨0x050, 0, 30, .ro, 0⟩
def Reg.TMP_RESP_LO_RESP : Fld := ⟨0x054, 0, 32, .rw, 0⟩
def Reg.TMP_RESP_HI_RESP : Fld := ⟨0x058, 0, 28, .rw, 0⟩
def Reg.TMP_MIN_LO_MIN : Fld := ⟨0x05C, 0, 32, .ro, 0⟩
def Reg.TMP_MIN_HI_MIN : Fld := ⟨0x060, 0, 28, .ro, 0⟩
def Reg.TMP_LOG_STATUS_ENTRIES : Fld := ⟨0x064, 0, 8, .ro, 0⟩
def Reg.TMP_LOG_STATUS_NEXT : Fld := ⟨0x064, 8, 8, .ro, 0⟩
def Reg.TMP_LOG_STATUS_DROPPED : Fld := ⟨0x064, 16, 8, .ro, 0⟩
def Reg.TMP_TEMP_TEMP : Fld := ⟨0x068, 0, 12, .ro, 0⟩

/-! R150 (03_key_custody.md). -/
def Reg.BANK_CTRL_PERIOD : Fld := ⟨0x040, 0, 6, .rwl, 8⟩
def Reg.BANK_STATUS_POLARITY : Fld := ⟨0x044, 0, 1, .ro, 0⟩
def Reg.BANK_STATUS_DEFERRED : Fld := ⟨0x044, 1, 1, .ro, 0⟩
def Reg.BANK_LAST_TIME : Fld := ⟨0x048, 0, 32, .ro, 0⟩
/-! R604 (11_chimney_tamper.md). -/
def Reg.VLT_STATUS_EMBERS_VALID : Fld := ⟨0x04C, 0, 1, .ro, 0⟩
def Reg.VLT_STATUS_LOST : Fld := ⟨0x04C, 1, 1, .ro, 0⟩
def Reg.OP_TIME_LO_MS : Fld := ⟨0x050, 0, 32, .ro, 0⟩
def Reg.OP_TIME_HI_MS : Fld := ⟨0x054, 0, 12, .ro, 0⟩
def Reg.POWER_CYCLES_COUNT : Fld := ⟨0x058, 0, 20, .ro, 0⟩
def Reg.POWER_CYCLES_STUCK : Fld := ⟨0x058, 20, 1, .ro, 0⟩

/-! R708 (14_startup_and_lifecycle.md). -/
def Reg.LC_STATE_FUSE_STATE : Fld := ⟨0x040, 0, 3, .ro, 0⟩
def Reg.LC_STATE_EFFECTIVE : Fld := ⟨0x040, 3, 3, .ro, 0⟩
def Reg.LC_STATE_PARTIAL : Fld := ⟨0x040, 6, 1, .ro, 0⟩
def Reg.ARB_FLUE_COUNT : Fld := ⟨0x044, 0, 8, .ro, 0⟩
def Reg.ARB_FLUE_AT_END : Fld := ⟨0x044, 8, 1, .ro, 0⟩
def Reg.ARB_INNER_COUNT : Fld := ⟨0x048, 0, 8, .ro, 0⟩
def Reg.ARB_INNER_AT_END : Fld := ⟨0x048, 8, 1, .ro, 0⟩
def Reg.ARB_OUTER_COUNT : Fld := ⟨0x04C, 0, 8, .ro, 0⟩
def Reg.ARB_OUTER_AT_END : Fld := ⟨0x04C, 8, 1, .ro, 0⟩
def Reg.SERIAL_SERIAL (i : Nat) : Fld := ⟨0x050 + i * 4, 0, 32, .ro, 0⟩
def Reg.IDFP_FP (i : Nat) : Fld := ⟨0x060 + i * 4, 0, 32, .ro, 0⟩
def Reg.SKU_HEARTHS : Fld := ⟨0x080, 0, 16, .ro, 0⟩
def Reg.SKU_HOB : Fld := ⟨0x080, 16, 1, .ro, 0⟩
def Reg.COMPAT_DEFAULT_HEARTHS : Fld := ⟨0x084, 0, 16, .ro, 0⟩

/-! R60 (02_flue_and_functions.md). -/
def Reg.VF_INFO_SHAIM_VERSION : Fld := ⟨0x040, 0, 4, .ro, 3⟩
def Reg.VF_INFO_QP_GRANT : Fld := ⟨0x040, 4, 4, .ro, 0⟩
def Reg.VF_INFO_VECTORS : Fld := ⟨0x040, 8, 5, .ro, 16⟩
def Reg.VF_INFO_DAMPER : Fld := ⟨0x040, 13, 3, .ro, 3⟩
def Reg.VF_INFO_HEARTH : Fld := ⟨0x040, 16, 4, .ro, 0⟩
def Reg.SQ_BASE_LO_ADDR (i : Nat) : Fld := ⟨0x080 + i * 32, 12, 20, .rw, 0⟩
def Reg.SQ_BASE_HI_ADDR (i : Nat) : Fld := ⟨0x084 + i * 32, 0, 32, .rw, 0⟩
def Reg.CQ_BASE_LO_ADDR (i : Nat) : Fld := ⟨0x088 + i * 32, 12, 20, .rw, 0⟩
def Reg.CQ_BASE_HI_ADDR (i : Nat) : Fld := ⟨0x08C + i * 32, 0, 32, .rw, 0⟩
def Reg.QP_CFG_SQ_LOG2 (i : Nat) : Fld := ⟨0x090 + i * 32, 0, 5, .rw, 0⟩
def Reg.QP_CFG_CQ_LOG2 (i : Nat) : Fld := ⟨0x090 + i * 32, 8, 5, .rw, 0⟩
def Reg.QP_CFG_VECTOR (i : Nat) : Fld := ⟨0x090 + i * 32, 16, 4, .rw, 0⟩
def Reg.QP_COAL_COUNT (i : Nat) : Fld := ⟨0x094 + i * 32, 0, 8, .rw, 0⟩
def Reg.QP_COAL_TIME (i : Nat) : Fld := ⟨0x094 + i * 32, 8, 8, .rw, 0⟩
def Reg.QP_CTRL_ENABLE (i : Nat) : Fld := ⟨0x098 + i * 32, 0, 1, .rw, 0⟩
def Reg.QP_STATUS_ACTIVE (i : Nat) : Fld := ⟨0x09C + i * 32, 0, 1, .ro, 0⟩
def Reg.QP_STATUS_ERROR (i : Nat) : Fld := ⟨0x09C + i * 32, 1, 1, .ro, 0⟩
def Reg.QP_STATUS_ERR_CODE (i : Nat) : Fld := ⟨0x09C + i * 32, 2, 3, .ro, 0⟩
def Reg.QP_STATUS_DROPPED_WRITES (i : Nat) : Fld := ⟨0x09C + i * 32, 8, 8, .ro, 0⟩

/-! R30 (01_hearth.md). -/
def Reg.STK_CTRL_MODE : Fld := ⟨0x040, 0, 2, .rw, 0⟩
def Reg.STK_AGE_AGE_LIMIT : Fld := ⟨0x044, 0, 16, .rw, 1000⟩
def Reg.STK_STATUS_JOBS_INUSE : Fld := ⟨0x048, 0, 12, .ro, 0⟩
def Reg.STK_STATUS_HIGH_WATER : Fld := ⟨0x048, 12, 12, .ro, 0⟩
def Reg.STK_STATUS_FULL : Fld := ⟨0x048, 24, 1, .ro, 0⟩
def Reg.STK_STATUS_CLASS_BLOCKED : Fld := ⟨0x048, 25, 1, .ro, 0⟩
def Reg.STK_RESV_INNER_RESERVED : Fld := ⟨0x04C, 0, 6, .ro, 32⟩

/-! R216 (03_key_custody.md). -/
def Reg.KC_STATUS_IN_USE : Fld := ⟨0x040, 0, 14, .ro, 0⟩
def Reg.KC_STATUS_TRANSIENT : Fld := ⟨0x040, 14, 10, .ro, 0⟩
def Reg.KC_STATUS_ROOT : Fld := ⟨0x040, 24, 1, .ro, 0⟩
def Reg.KC_STATUS_BANK_DEFERRED : Fld := ⟨0x040, 25, 1, .ro, 0⟩
def Reg.KC_STATUS_SHADOW_VALID : Fld := ⟨0x040, 26, 1, .ro, 0⟩
def Reg.KC_BANK_LAST_PASS : Fld := ⟨0x044, 0, 32, .ro, 0⟩
def Reg.KC_CTRL_FLUSH : Fld := ⟨0x048, 0, 1, .wo, 0⟩
def Reg.KC_RESV_RESERVE : Fld := ⟨0x04C, 0, 10, .ro, 512⟩

/-! R177 (03_key_custody.md). -/
def Reg.KP_KEYSRC (i : Nat) : Fld := ⟨0x040 + i * 8, 0, 8, .rw, 0⟩
def Reg.KP_CLASS_ALLOW (i : Nat) : Fld := ⟨0x040 + i * 8, 8, 7, .rw, 127⟩
def Reg.KP_VALID (i : Nat) : Fld := ⟨0x040 + i * 8, 15, 1, .ro, 0⟩
def Reg.KP_OWNER_ID (i : Nat) : Fld := ⟨0x040 + i * 8, 16, 16, .ro, 0⟩
def Reg.KP_KC_QUOTA (i : Nat) : Fld := ⟨0x044 + i * 8, 0, 13, .rw, 120⟩
def Reg.KP_VF_INDEX (i : Nat) : Fld := ⟨0x044 + i * 8, 16, 9, .ro, 0⟩

/-! R260 (04_cipher_engines.md). -/
def Reg.CE_CTRL_START : Fld := ⟨0x040, 0, 1, .wo, 0⟩
def Reg.CE_CTRL_KAT_REQ : Fld := ⟨0x040, 1, 1, .w1s, 0⟩
def Reg.CE_MODE_ALG : Fld := ⟨0x044, 0, 8, .rw, 0⟩
def Reg.CE_MODE_MODE : Fld := ⟨0x044, 8, 4, .rw, 0⟩
def Reg.CE_MODE_DIR : Fld := ⟨0x044, 12, 1, .rw, 0⟩
def Reg.CE_MODE_NONCE_SRC : Fld := ⟨0x044, 13, 2, .rw, 0⟩
def Reg.CE_MODE_TAG_LEN : Fld := ⟨0x044, 15, 7, .rw, 0⟩
def Reg.CE_MODE_NONCE_LEN : Fld := ⟨0x044, 22, 5, .rw, 0⟩
def Reg.CE_KEY0_INDEX : Fld := ⟨0x048, 0, 13, .rw, 0⟩
def Reg.CE_KEY1_INDEX : Fld := ⟨0x04C, 0, 13, .rw, 0⟩
def Reg.CE_KEY1_USE : Fld := ⟨0x04C, 13, 1, .rw, 0⟩
def Reg.CE_IV_IV (i : Nat) : Fld := ⟨0x050 + i * 4, 0, 32, .rw, 0⟩
def Reg.CE_SRC_LO_ADDR : Fld := ⟨0x060, 0, 32, .rw, 0⟩
def Reg.CE_SRC_HI_ADDR : Fld := ⟨0x064, 0, 32, .rw, 0⟩
def Reg.CE_DST_LO_ADDR : Fld := ⟨0x068, 0, 32, .rw, 0⟩
def Reg.CE_DST_HI_ADDR : Fld := ⟨0x06C, 0, 32, .rw, 0⟩
def Reg.CE_LEN_LEN : Fld := ⟨0x070, 0, 24, .rw, 0⟩
def Reg.CE_AAD_LEN_LEN : Fld := ⟨0x074, 0, 24, .rw, 0⟩
def Reg.CE_DU_LEN_LEN : Fld := ⟨0x078, 0, 24, .rw, 0⟩
def Reg.CE_OUT_LEN_LENGTH : Fld := ⟨0x07C, 0, 24, .ro, 0⟩
def Reg.CE_STATUS_BUSY : Fld := ⟨0x080, 0, 1, .ro, 0⟩
def Reg.CE_STATUS_DONE : Fld := ⟨0x080, 1, 1, .w1c, 0⟩
def Reg.CE_STATUS_OFFLINE : Fld := ⟨0x080, 2, 1, .ro, 0⟩
def Reg.CE_STATUS_KAT_RUNNING : Fld := ⟨0x080, 3, 1, .ro, 0⟩
def Reg.CE_STATUS_KAT_PENDING : Fld := ⟨0x080, 4, 1, .ro, 0⟩
def Reg.CE_STATUS_CODE : Fld := ⟨0x080, 16, 16, .ro, 0⟩
def Reg.CE_ORDER_ORDER2 : Fld := ⟨0x084, 0, 2, .rw, 0⟩
def Reg.MG_STATUS_SEEDED : Fld := ⟨0x088, 0, 1, .ro, 0⟩
def Reg.MG_STATUS_PREFETCHED : Fld := ⟨0x088, 1, 1, .ro, 0⟩
def Reg.MG_STATUS_STALLED : Fld := ⟨0x088, 2, 1, .ro, 0⟩
def Reg.MG_STATUS_GRACE : Fld := ⟨0x088, 3, 5, .ro, 0⟩
def Reg.KAT_CTRL_PERIOD : Fld := ⟨0x08C, 0, 16, .rw, 0⟩
def Reg.CE_TAG_TAG (i : Nat) : Fld := ⟨0x0A0 + i * 4, 0, 32, .rw, 0⟩

/-! R387 (06_bignum_engine.md). -/
def Reg.BN_CTRL_START : Fld := ⟨0x040, 0, 1, .wo, 0⟩
def Reg.BN_CTRL_KAT_REQ : Fld := ⟨0x040, 1, 1, .w1s, 0⟩
def Reg.BN_CTRL_CLEAR : Fld := ⟨0x040, 2, 1, .wo, 0⟩
def Reg.BN_OP_OP : Fld := ⟨0x044, 0, 8, .rw, 0⟩
def Reg.BN_OP_ALG : Fld := ⟨0x044, 8, 8, .rw, 0⟩
def Reg.BN_OP_PARAM : Fld := ⟨0x044, 16, 16, .rw, 0⟩
def Reg.BN_LEN_BITS : Fld := ⟨0x048, 0, 14, .rw, 0⟩
def Reg.BN_LEN_EXP_BITS : Fld := ⟨0x048, 16, 14, .rw, 0⟩
def Reg.BN_KEY_INDEX : Fld := ⟨0x04C, 0, 13, .rw, 0⟩
def Reg.BN_KEY_USE : Fld := ⟨0x04C, 13, 1, .rw, 0⟩
def Reg.BN_SPAN_BASE : Fld := ⟨0x050, 0, 4, .rw, 0⟩
def Reg.BN_SPAN_COUNT : Fld := ⟨0x050, 4, 5, .rw, 0⟩
def Reg.BN_IN_LEN_LEN : Fld := ⟨0x054, 0, 17, .rw, 0⟩
def Reg.BN_OUT_OFF_LINE : Fld := ⟨0x058, 6, 11, .rw, 0⟩
def Reg.BN_OUT_LEN_LENGTH : Fld := ⟨0x05C, 0, 17, .ro, 0⟩
def Reg.BN_STATUS_BUSY : Fld := ⟨0x060, 0, 1, .ro, 0⟩
def Reg.BN_STATUS_DONE : Fld := ⟨0x060, 1, 1, .w1c, 0⟩
def Reg.BN_STATUS_OFFLINE : Fld := ⟨0x060, 2, 1, .ro, 0⟩
def Reg.BN_STATUS_KAT_RUNNING : Fld := ⟨0x060, 3, 1, .ro, 0⟩
def Reg.BN_STATUS_KAT_PENDING : Fld := ⟨0x060, 4, 1, .ro, 0⟩
def Reg.BN_STATUS_CLEARING : Fld := ⟨0x060, 5, 1, .ro, 0⟩
def Reg.BN_STATUS_YIELD_REQ : Fld := ⟨0x060, 6, 1, .ro, 0⟩
def Reg.BN_STATUS_SAVING : Fld := ⟨0x060, 7, 1, .ro, 0⟩
def Reg.BN_STATUS_PREEMPT_OFF : Fld := ⟨0x060, 8, 1, .ro, 0⟩
def Reg.BN_STATUS_CODE : Fld := ⟨0x060, 16, 16, .ro, 0⟩
def Reg.BN_CYCLES_COUNT : Fld := ⟨0x064, 0, 32, .ro, 0⟩
def Reg.BN_ATTEMPTS_COUNT : Fld := ⟨0x068, 0, 16, .ro, 0⟩
def Reg.BN_LIMIT_ATTEMPTS : Fld := ⟨0x06C, 0, 16, .rw, 1000⟩
def Reg.BN_ORDER_ORDER2 : Fld := ⟨0x070, 3, 5, .rw, 0⟩
def Reg.BN_YIELD_PASSED : Fld := ⟨0x074, 0, 16, .ro, 0⟩
def Reg.BN_YIELD_SLOT : Fld := ⟨0x074, 16, 2, .ro, 0⟩
def Reg.BN_CLEAR_REGIONS : Fld := ⟨0x078, 0, 16, .rw, 0⟩
def Reg.BN_WIN_ADDR_WORD : Fld := ⟨0x07C, 3, 14, .rw, 0⟩
def Reg.BN_WIN_LO_DATA : Fld := ⟨0x080, 0, 32, .rw, 0⟩
def Reg.BN_WIN_HI_DATA : Fld := ⟨0x084, 0, 32, .rw, 0⟩
def Reg.BN_LAST_LAST_OWNER : Fld := ⟨0x090, 0, 16, .ro, 0⟩

/-! R340 (05_payment_hob.md). -/
def Reg.HOB_CTRL_MODE : Fld := ⟨0x040, 0, 2, .rw, 0⟩
def Reg.HOB_CTRL_KAT_REQ : Fld := ⟨0x040, 4, 4, .w1s, 0⟩
def Reg.HOB_CTRL_PINFAIL_CLR : Fld := ⟨0x040, 8, 1, .wo, 0⟩
def Reg.HOB_BATCH_COUNT : Fld := ⟨0x044, 0, 5, .rw, 8⟩
def Reg.HOB_BATCH_WAIT : Fld := ⟨0x044, 16, 10, .rw, 20⟩
def Reg.HOB_ORDER_ORDER2 : Fld := ⟨0x048, 0, 2, .rw, 0⟩
def Reg.HOB_PINPOL_MIN_LEN : Fld := ⟨0x04C, 0, 4, .rw, 4⟩
def Reg.HOB_PINPOL_MAX_LEN : Fld := ⟨0x04C, 4, 4, .rw, 12⟩
def Reg.HOB_PINPOL_DOWNGRADE : Fld := ⟨0x04C, 8, 1, .rw, 0⟩
def Reg.HOB_STATUS_BUSY : Fld := ⟨0x050, 0, 4, .ro, 0⟩
def Reg.HOB_STATUS_TURNOVER : Fld := ⟨0x050, 4, 4, .ro, 0⟩
def Reg.HOB_STATUS_GATED : Fld := ⟨0x050, 8, 4, .ro, 0⟩
def Reg.HOB_STATUS_OFFLINE : Fld := ⟨0x050, 12, 4, .ro, 0⟩
def Reg.HOB_STATUS_KAT_PENDING : Fld := ⟨0x050, 16, 4, .ro, 0⟩
def Reg.HOB_STATUS_KAT_RUNNING : Fld := ⟨0x050, 20, 4, .ro, 0⟩
def Reg.HOB_STATUS_HELD : Fld := ⟨0x050, 24, 5, .ro, 0⟩
def Reg.HOB_PINFAIL_COUNT : Fld := ⟨0x054, 0, 32, .ro, 0⟩
def Reg.HOB_PINFAIL_THR_THRESHOLD : Fld := ⟨0x058, 0, 32, .rw, 0⟩
def Reg.HOB_KAT_PERIOD : Fld := ⟨0x05C, 0, 16, .rw, 0⟩
def Reg.BURNER_LOCK_OWNER (i : Nat) : Fld := ⟨0x060 + i * 4, 0, 16, .ro, 0⟩
def Reg.BURNER_LOCK_HOLDER (i : Nat) : Fld := ⟨0x060 + i * 4, 16, 2, .ro, 0⟩
def Reg.BURNER_LOCK_SCRUBBING (i : Nat) : Fld := ⟨0x060 + i * 4, 20, 1, .ro, 0⟩
def Reg.HOB_MG_STATUS_SEEDED (i : Nat) : Fld := ⟨0x070 + i * 4, 0, 1, .ro, 0⟩
def Reg.HOB_MG_STATUS_PREFETCHED (i : Nat) : Fld := ⟨0x070 + i * 4, 1, 1, .ro, 0⟩
def Reg.HOB_MG_STATUS_STALLED (i : Nat) : Fld := ⟨0x070 + i * 4, 2, 1, .ro, 0⟩
def Reg.HOB_MG_STATUS_GRACE (i : Nat) : Fld := ⟨0x070 + i * 4, 3, 5, .ro, 0⟩
def Reg.DT_LO_ENTRIES_LO (i : Nat) : Fld := ⟨0x080 + i * 16, 0, 32, .rw, 0⟩
def Reg.DT_HI_ENTRIES_HI (i : Nat) : Fld := ⟨0x084 + i * 16, 0, 32, .rw, 0⟩
def Reg.DT_CTRL_VALID (i : Nat) : Fld := ⟨0x088 + i * 16, 0, 1, .rw, 0⟩

/-! R427 (07_atomic_groups.md). -/
def Reg.GRP_CTRL_IDLE_LIMIT : Fld := ⟨0x040, 0, 16, .rw, 1000⟩
def Reg.GRP_STATUS_OPEN : Fld := ⟨0x044, 0, 6, .ro, 0⟩
def Reg.GRP_STATUS_JOURNAL : Fld := ⟨0x044, 6, 11, .ro, 0⟩
def Reg.GRP_STATUS_HELD_KIB : Fld := ⟨0x044, 17, 15, .ro, 0⟩
def Reg.GRP_ROLLBACKS_COUNT : Fld := ⟨0x048, 0, 32, .ro, 0⟩

/-! R461 (08_entropy.md). -/
def Reg.ENT_CTRL_POLICY : Fld := ⟨0x040, 0, 1, .rw, 0⟩
def Reg.ENT_CTRL_RESTART : Fld := ⟨0x040, 1, 1, .wo, 0⟩
def Reg.ENT_CTRL_RETEST : Fld := ⟨0x040, 2, 1, .wo, 0⟩
def Reg.ENT_STATUS_SOURCE : Fld := ⟨0x044, 0, 2, .ro, 0⟩
def Reg.ENT_STATUS_DRBG : Fld := ⟨0x044, 2, 2, .ro, 0⟩
def Reg.ENT_STATUS_PAIRS_OK : Fld := ⟨0x044, 4, 7, .ro, 0⟩
def Reg.ENT_STATUS_VALID_IN : Fld := ⟨0x044, 11, 1, .ro, 0⟩
def Reg.ENT_STATUS_VALID_OUT : Fld := ⟨0x044, 12, 1, .ro, 0⟩
def Reg.ENT_STATUS_EMPTY_IN : Fld := ⟨0x044, 13, 1, .w1c, 0⟩
def Reg.ENT_STATUS_EMPTY_OUT : Fld := ⟨0x044, 14, 1, .w1c, 0⟩
def Reg.ENT_DATA_IN_DATA : Fld := ⟨0x048, 0, 32, .ro, 0⟩
def Reg.ENT_DATA_OUT_DATA : Fld := ⟨0x04C, 0, 32, .ro, 0⟩
def Reg.ENT_PAIR_LO_REMOVED : Fld := ⟨0x050, 0, 32, .ro, 0⟩
def Reg.ENT_PAIR_HI_REMOVED : Fld := ⟨0x054, 0, 32, .ro, 0⟩
def Reg.ENT_RESEED_PERIOD : Fld := ⟨0x058, 0, 24, .rw, 4096⟩
def Reg.ENT_COUNT_REQUESTS : Fld := ⟨0x05C, 0, 25, .ro, 0⟩
def Reg.ENT_COUNT_STUCK : Fld := ⟨0x05C, 25, 1, .ro, 0⟩
def Reg.ENT_HEALTH_FAILS_COUNT : Fld := ⟨0x060, 0, 32, .ro, 0⟩
def Reg.ENT_LAST_RESEED_TIME : Fld := ⟨0x064, 0, 32, .ro, 0⟩
def Reg.ENT_RAW_SEL_PAIR : Fld := ⟨0x068, 0, 6, .rw, 0⟩
def Reg.ENT_RAW_BITS : Fld := ⟨0x06C, 0, 32, .ro, 0⟩

/-! R516 (09_memory_path.md). -/
def Reg.MEM_CFG_RATE : Fld := ⟨0x040, 0, 2, .rwl, 0⟩
def Reg.MEM_CFG_WIDTH : Fld := ⟨0x040, 2, 1, .rwl, 0⟩
def Reg.MEM_CFG_RANKS : Fld := ⟨0x040, 3, 1, .rwl, 0⟩
def Reg.MEM_CFG_DENSITY : Fld := ⟨0x040, 4, 2, .rwl, 0⟩
def Reg.MEM_CFG_CAP_GIB : Fld := ⟨0x040, 8, 6, .ro, 0⟩
def Reg.MEM_CTRL_INIT : Fld := ⟨0x044, 0, 1, .wo, 0⟩
def Reg.MEM_CTRL_SCRUB_EN : Fld := ⟨0x044, 1, 1, .rw, 1⟩
def Reg.MEM_STATUS_STATE : Fld := ⟨0x048, 0, 2, .ro, 0⟩
def Reg.MEM_STATUS_SELF_REFRESH : Fld := ⟨0x048, 2, 1, .ro, 0⟩
def Reg.MEM_SCRUB_HOURS : Fld := ⟨0x04C, 0, 8, .rw, 24⟩
def Reg.MEM_CE_COUNT_COUNT : Fld := ⟨0x050, 0, 32, .ro, 0⟩
def Reg.MEM_UE_COUNT_COUNT : Fld := ⟨0x054, 0, 32, .ro, 0⟩
def Reg.MEM_POISON_LO_OFFSET : Fld := ⟨0x058, 0, 32, .ro, 0⟩
def Reg.MEM_POISON_HI_OFFSET : Fld := ⟨0x05C, 0, 3, .ro, 0⟩
def Reg.MEM_POISON_HI_VALID : Fld := ⟨0x05C, 31, 1, .w1c, 0⟩
def Reg.MEM_REENC_QUEUED : Fld := ⟨0x060, 0, 3, .ro, 0⟩
def Reg.MEM_REENC_BUSY : Fld := ⟨0x060, 3, 1, .ro, 0⟩
def Reg.REENC_COUNT_LO_COUNT : Fld := ⟨0x064, 0, 32, .ro, 0⟩
def Reg.REENC_COUNT_HI_COUNT : Fld := ⟨0x068, 0, 32, .ro, 0⟩
def Reg.OWN_PAGE_PAGE : Fld := ⟨0x070, 0, 23, .rw, 0⟩
def Reg.OWN_COUNT_COUNT : Fld := ⟨0x074, 0, 23, .rw, 1⟩
def Reg.OWN_ENTRY_ENTRY : Fld := ⟨0x078, 0, 32, .rw, 0⟩
def Reg.OWN_EXPECT_OWNER : Fld := ⟨0x07C, 0, 16, .rw, 0⟩
def Reg.OWN_EXPECT_CHECK : Fld := ⟨0x07C, 16, 1, .rw, 0⟩
def Reg.OWN_CTRL_GO : Fld := ⟨0x080, 0, 1, .wo, 0⟩
def Reg.OWN_CTRL_SYNC : Fld := ⟨0x080, 1, 1, .wo, 0⟩
def Reg.OWN_STATUS_PENDING : Fld := ⟨0x084, 0, 7, .ro, 0⟩
def Reg.OWN_STATUS_SYNC_BUSY : Fld := ⟨0x084, 7, 1, .ro, 0⟩
def Reg.OWN_STATUS_CMD_ERR : Fld := ⟨0x084, 8, 1, .w1c, 0⟩
def Reg.OWN_STATUS_ERR_CODE : Fld := ⟨0x084, 9, 3, .ro, 0⟩
def Reg.OWN_STATUS_GEN : Fld := ⟨0x084, 16, 16, .ro, 0⟩
/-! R517 (09_memory_path.md). -/
def Reg.RNG_BASE_BASE (i : Nat) : Fld := ⟨0x100 + i * 32, 0, 14, .rw, 0⟩
def Reg.RNG_SIZE_SIZE (i : Nat) : Fld := ⟨0x104 + i * 32, 0, 15, .rw, 0⟩
def Reg.RNG_META_META (i : Nat) : Fld := ⟨0x108 + i * 32, 0, 23, .rw, 0⟩
def Reg.RNG_GEN_GEN (i : Nat) : Fld := ⟨0x10C + i * 32, 0, 32, .rw, 0⟩
def Reg.RNG_CTRL_MODE (i : Nat) : Fld := ⟨0x110 + i * 32, 0, 2, .rw, 0⟩
def Reg.RNG_CTRL_INIT (i : Nat) : Fld := ⟨0x110 + i * 32, 2, 1, .wo, 0⟩
def Reg.RNG_STATUS_STATE (i : Nat) : Fld := ⟨0x114 + i * 32, 0, 2, .ro, 0⟩
def Reg.RNG_STATUS_CAUSE (i : Nat) : Fld := ⟨0x114 + i * 32, 2, 4, .ro, 0⟩
def Reg.RNG_STATUS_STUCK (i : Nat) : Fld := ⟨0x114 + i * 32, 6, 1, .ro, 0⟩
def Reg.RNG_STATUS_CFG_ERR (i : Nat) : Fld := ⟨0x114 + i * 32, 7, 1, .w1c, 0⟩
def Reg.RNG_STATUS_CFG_CODE (i : Nat) : Fld := ⟨0x114 + i * 32, 8, 3, .ro, 0⟩
def Reg.RNG_VAULT_GEN_GEN (i : Nat) : Fld := ⟨0x118 + i * 32, 0, 32, .ro, 0⟩

/-! R518 (09_memory_path.md). -/
def Reg.MPU_INFO_MASTER : Fld := ⟨0x040, 0, 5, .ro, 0⟩
def Reg.MPU_INFO_FIXED : Fld := ⟨0x040, 5, 1, .ro, 0⟩
def Reg.MPU_CTRL_SYNC : Fld := ⟨0x044, 0, 1, .wo, 0⟩
def Reg.MPU_STATUS_SYNC_BUSY : Fld := ⟨0x048, 0, 1, .ro, 0⟩
def Reg.MPU_STATUS_DIRTY : Fld := ⟨0x048, 1, 1, .ro, 0⟩
def Reg.MPU_STATUS_CFG_ERR : Fld := ⟨0x048, 2, 1, .w1c, 0⟩
def Reg.MPU_STATUS_CFG_REGION : Fld := ⟨0x048, 3, 4, .ro, 0⟩
def Reg.MPU_STATUS_IGNORED : Fld := ⟨0x048, 16, 8, .ro, 0⟩
def Reg.MPU_BASE_LO_BASE (i : Nat) : Fld := ⟨0x100 + i * 16, 12, 20, .rw, 0⟩
def Reg.MPU_BASE_HI_BASE (i : Nat) : Fld := ⟨0x104 + i * 16, 0, 16, .rw, 0⟩
def Reg.MPU_ATTR_SIZE_LOG2 (i : Nat) : Fld := ⟨0x108 + i * 16, 0, 6, .rw, 0⟩
def Reg.MPU_ATTR_READ (i : Nat) : Fld := ⟨0x108 + i * 16, 6, 1, .rw, 0⟩
def Reg.MPU_ATTR_WRITE (i : Nat) : Fld := ⟨0x108 + i * 16, 7, 1, .rw, 0⟩
def Reg.MPU_ATTR_EXEC (i : Nat) : Fld := ⟨0x108 + i * 16, 8, 1, .rw, 0⟩
def Reg.MPU_ATTR_U (i : Nat) : Fld := ⟨0x108 + i * 16, 9, 1, .rw, 0⟩
def Reg.MPU_ATTR_M (i : Nat) : Fld := ⟨0x108 + i * 16, 10, 1, .rw, 0⟩
def Reg.MPU_ATTR_CACHE (i : Nat) : Fld := ⟨0x108 + i * 16, 11, 2, .rw, 0⟩
def Reg.MPU_ATTR_ORDER (i : Nat) : Fld := ⟨0x108 + i * 16, 13, 1, .rw, 0⟩
def Reg.MPU_ATTR_ENABLE (i : Nat) : Fld := ⟨0x108 + i * 16, 14, 1, .rw, 0⟩

/-! R531 (10_worlds_debug_power.md). -/
def Reg.GATE_CTRL_OP (i : Nat) : Fld := ⟨0x040 + i * 32, 0, 3, .wo, 0⟩
def Reg.GATE_CTRL_SERVICE (i : Nat) : Fld := ⟨0x040 + i * 32, 8, 8, .wo, 0⟩
def Reg.GATE_STATUS_WORLD (i : Nat) : Fld := ⟨0x044 + i * 32, 0, 1, .ro, 0⟩
def Reg.GATE_STATUS_RELEASED (i : Nat) : Fld := ⟨0x044 + i * 32, 1, 1, .ro, 0⟩
def Reg.GATE_STATUS_CALL_OPEN (i : Nat) : Fld := ⟨0x044 + i * 32, 2, 1, .ro, 0⟩
def Reg.GATE_STATUS_BANKED (i : Nat) : Fld := ⟨0x044 + i * 32, 3, 1, .ro, 0⟩
def Reg.GATE_STATUS_HALTED (i : Nat) : Fld := ⟨0x044 + i * 32, 4, 1, .ro, 0⟩
def Reg.GATE_STATUS_ENTRY (i : Nat) : Fld := ⟨0x044 + i * 32, 5, 3, .ro, 0⟩
def Reg.GATE_STATUS_SERVICE (i : Nat) : Fld := ⟨0x044 + i * 32, 8, 8, .ro, 0⟩
def Reg.OUTER_VEC_LO_ADDR (i : Nat) : Fld := ⟨0x048 + i * 32, 1, 31, .rw, 0⟩
def Reg.OUTER_VEC_HI_ADDR (i : Nat) : Fld := ⟨0x04C + i * 32, 0, 32, .rw, 0⟩
def Reg.CORE_CTRL_RELEASE (i : Nat) : Fld := ⟨0x050 + i * 32, 0, 1, .w1s, 0⟩
def Reg.GATE_IRQ_CORE : Fld := ⟨0x0C0, 0, 2, .rw, 0⟩
def Reg.INNER_VEC_LO_ADDR : Fld := ⟨0x0C4, 1, 31, .rwl, 0⟩
def Reg.INNER_VEC_HI_ADDR : Fld := ⟨0x0C8, 0, 32, .rwl, 0⟩
def Reg.DBG_VIEW_ENABLES : Fld := ⟨0x0CC, 0, 4, .ro, 0⟩
def Reg.DBG_VIEW_II_PENDING : Fld := ⟨0x0CC, 4, 1, .ro, 0⟩

/-! R560 (10_worlds_debug_power.md). -/
def Reg.PWR_CTRL_TARGET : Fld := ⟨0x040, 0, 2, .rw, 1⟩
def Reg.PWR_CTRL_PROFILE : Fld := ⟨0x040, 2, 2, .rw, 0⟩
def Reg.PWR_CTRL_FLATTEN : Fld := ⟨0x040, 4, 1, .rw, 0⟩
def Reg.PWR_CTRL_AUTO_WAKE : Fld := ⟨0x040, 5, 1, .rw, 0⟩
def Reg.PWR_CTRL_OUTER_REQ : Fld := ⟨0x040, 6, 1, .rw, 0⟩
def Reg.PWR_STATUS_STATE : Fld := ⟨0x044, 0, 2, .ro, 0⟩
def Reg.PWR_STATUS_PROFILE : Fld := ⟨0x044, 2, 2, .ro, 0⟩
def Reg.PWR_STATUS_TRANSITION : Fld := ⟨0x044, 4, 1, .ro, 0⟩
def Reg.PWR_STATUS_FLAT_ACTIVE : Fld := ⟨0x044, 5, 1, .ro, 0⟩
def Reg.PWR_STATUS_STRAP : Fld := ⟨0x044, 6, 2, .ro, 0⟩
def Reg.PWR_STATUS_HELD : Fld := ⟨0x044, 8, 1, .ro, 0⟩
def Reg.PWR_STATUS_BLOCKER : Fld := ⟨0x044, 9, 3, .ro, 0⟩
def Reg.PWR_IDLE_IDLE_US : Fld := ⟨0x048, 0, 16, .rw, 10⟩
def Reg.PWR_BLK_REQ_LO_REQ : Fld := ⟨0x04C, 0, 32, .rw, 0⟩
def Reg.PWR_BLK_REQ_HI_REQ : Fld := ⟨0x050, 0, 8, .rw, 0⟩
def Reg.PWR_BLK_STATE_LO_STATE : Fld := ⟨0x054, 0, 32, .ro, 0⟩
def Reg.PWR_BLK_STATE_HI_STATE : Fld := ⟨0x058, 0, 8, .ro, 0⟩
def Reg.PWR_HOLD_HOLD : Fld := ⟨0x05C, 0, 21, .rw, 0⟩
def Reg.PWR_HELD_HELD : Fld := ⟨0x060, 0, 21, .ro, 0⟩

/-! R634 (12_clocks_and_counters.md). -/
def Reg.H_CTR_EPOCH_EPOCH : Fld := ⟨0x040, 0, 16, .ro, 0⟩
def Reg.H_CTR_XOVF_XOVF : Fld := ⟨0x044, 0, 3, .w1c, 0⟩
def Reg.H_CTR_WRAP_WRAP (i : Nat) : Fld := ⟨0x060 + i * 4, 0, 32, .w1c, 0⟩
def Reg.H_CTR_SAT_SAT (i : Nat) : Fld := ⟨0x080 + i * 4, 0, 32, .w1c, 0⟩
def Reg.H_CTR_ENTRY (i : Nat) : Fld := ⟨0x800 + i * 8, 0, 64, .ro, 0⟩

/-! R661 (13_events_and_dumps.md). -/
def Reg.EVR_CTRL_MIN_SEVERITY : Fld := ⟨0x040, 0, 3, .rw, 0⟩
def Reg.EVR_CTRL_FREEZE : Fld := ⟨0x040, 3, 1, .wo, 0⟩
def Reg.EVR_CTRL_UNFREEZE : Fld := ⟨0x040, 4, 1, .wo, 0⟩
def Reg.EVR_STATUS_FROZEN : Fld := ⟨0x044, 0, 1, .ro, 0⟩
def Reg.EVR_STATUS_FREEZER : Fld := ⟨0x044, 1, 2, .ro, 0⟩
def Reg.EVR_STATUS_FREEZE_BROKEN : Fld := ⟨0x044, 3, 1, .w1c, 0⟩
def Reg.EVR_STATUS_RESERVED_USED : Fld := ⟨0x044, 4, 9, .ro, 0⟩
def Reg.EVR_STATUS_HOLD_USED : Fld := ⟨0x044, 13, 7, .ro, 0⟩
def Reg.EVR_SEQ_NEXT : Fld := ⟨0x048, 0, 32, .ro, 0⟩
def Reg.EVR_ACK_SEQUENCE : Fld := ⟨0x04C, 0, 32, .wo, 0⟩
def Reg.EVR_DROPPED_COUNT : Fld := ⟨0x050, 0, 32, .ro, 0⟩
def Reg.EVR_HOLD_DROPPED_COUNT : Fld := ⟨0x054, 0, 32, .ro, 0⟩
def Reg.EVS_INNER_PENDING (i : Nat) : Fld := ⟨0x060 + i * 4, 0, 32, .ro, 0⟩
def Reg.EVS_OUTER_PENDING (i : Nat) : Fld := ⟨0x070 + i * 4, 0, 32, .ro, 0⟩

/-- A row of a page's field list: the field (for an array, its entry 0), the number of entries and their stride. -/
structure FldRow where
  fld    : Fld
  count  : Nat := 1
  stride : Nat := 0
  deriving DecidableEq, Repr

def headerFields : List FldRow :=
  [⟨Reg.PAGE_ID_REVISION, 1, 0⟩, ⟨Reg.PAGE_ID_LEVEL, 1, 0⟩, ⟨Reg.PAGE_ID_INSTANCE, 1, 0⟩,
   ⟨Reg.PAGE_ID_TYPE, 1, 0⟩, ⟨Reg.PAGE_CAPS_UNIT, 1, 0⟩, ⟨Reg.PAGE_CAPS_LOCKABLE, 1, 0⟩,
   ⟨Reg.PAGE_CAPS_ENGINE_LOCK, 1, 0⟩, ⟨Reg.PAGE_CAPS_SOFT_RESET, 1, 0⟩, ⟨Reg.PAGE_CAPS_EVENTS, 1, 0⟩,
   ⟨Reg.PAGE_CTRL_ENABLE, 1, 0⟩, ⟨Reg.PAGE_CTRL_SOFT_RESET, 1, 0⟩, ⟨Reg.PAGE_CTRL_LOCK, 1, 0⟩,
   ⟨Reg.EVT_STATUS_STATUS, 1, 0⟩, ⟨Reg.EVT_ENABLE_ENABLE, 1, 0⟩, ⟨Reg.EVT_INJECT_INJECT, 1, 0⟩,
   ⟨Reg.PAGE_GEN_GEN, 1, 0⟩]

def captureFields : List FldRow :=
  [⟨Reg.ERR_CAPTURE0_OFFSET, 1, 0⟩, ⟨Reg.ERR_CAPTURE0_REQUESTER, 1, 0⟩, ⟨Reg.ERR_CAPTURE0_CORE, 1, 0⟩,
   ⟨Reg.ERR_CAPTURE0_READ, 1, 0⟩, ⟨Reg.ERR_CAPTURE1_DATA, 1, 0⟩, ⟨Reg.ERR_CAPTURE2_VF, 1, 0⟩,
   ⟨Reg.ERR_CAPTURE2_IDENTITY, 1, 0⟩, ⟨Reg.ERR_CAPTURE3_GEN, 1, 0⟩, ⟨Reg.ERR_CAPTURE3_CAUSE, 1, 0⟩,
   ⟨Reg.ERR_CAPTURE3_VALID, 1, 0⟩, ⟨Reg.ERR_COUNT_COUNT, 1, 0⟩]

def mpuCaptureFields : List FldRow :=
  [⟨Reg.MERR_CAPTURE0_ADDR_LO, 1, 0⟩, ⟨Reg.MERR_CAPTURE1_ADDR_HI, 1, 0⟩, ⟨Reg.MERR_CAPTURE1_MASTER, 1, 0⟩,
   ⟨Reg.MERR_CAPTURE1_WORLD, 1, 0⟩, ⟨Reg.MERR_CAPTURE1_MMODE, 1, 0⟩, ⟨Reg.MERR_CAPTURE1_KIND, 1, 0⟩,
   ⟨Reg.MERR_CAPTURE2_VF, 1, 0⟩, ⟨Reg.MERR_CAPTURE2_IDENTITY, 1, 0⟩, ⟨Reg.MERR_CAPTURE3_GEN, 1, 0⟩,
   ⟨Reg.MERR_CAPTURE3_CAUSE, 1, 0⟩, ⟨Reg.MERR_CAPTURE3_VALID, 1, 0⟩, ⟨Reg.MERR_COUNT_COUNT, 1, 0⟩]

def lockFields : List FldRow :=
  [⟨Reg.PAGE_LOCK_OWNER, 1, 0⟩, ⟨Reg.PAGE_LOCK_HOLDER, 1, 0⟩, ⟨Reg.PAGE_LOCK_RESERVED_BY, 1, 0⟩,
   ⟨Reg.PAGE_LOCK_SCRUBBING, 1, 0⟩]

def flueBootFields : List FldRow :=
  [⟨Reg.BOOT_ADDR_LO_ADDR, 1, 0⟩, ⟨Reg.BOOT_ADDR_HI_ADDR, 1, 0⟩, ⟨Reg.BOOT_LEN_LEN, 1, 0⟩,
   ⟨Reg.BOOT_CTRL_GO, 1, 0⟩, ⟨Reg.BOOT_CTRL_RESTART, 1, 0⟩, ⟨Reg.BOOT_STATUS_STATE, 1, 0⟩,
   ⟨Reg.BOOT_STATUS_CODE, 1, 0⟩, ⟨Reg.BOOT_SVN_FLUE, 1, 0⟩, ⟨Reg.HEARTH_STATE_STATE 0, 16, 4⟩,
   ⟨Reg.HEARTH_STATE_SVN_INNER 0, 16, 4⟩, ⟨Reg.HEARTH_STATE_SVN_OUTER 0, 16, 4⟩, ⟨Reg.HEARTH_STATE_OUTER 0, 16, 4⟩]

def linkFields : List FldRow :=
  [⟨Reg.LINK_STATUS_RATE, 1, 0⟩, ⟨Reg.LINK_STATUS_WIDTH, 1, 0⟩, ⟨Reg.LINK_STATUS_FLIT, 1, 0⟩,
   ⟨Reg.LINK_STATUS_UNSUPPORTED, 1, 0⟩, ⟨Reg.LINK_STATUS_UP, 1, 0⟩, ⟨Reg.LINK_STATUS_ASPM, 1, 0⟩]

def functabFields : List FldRow :=
  [⟨Reg.FT_HEARTH 0, 128, 16⟩, ⟨Reg.FT_BOUND 0, 128, 16⟩, ⟨Reg.FT_DAMPER 0, 128, 16⟩,
   ⟨Reg.FT_TDI_LOCKED 0, 128, 16⟩, ⟨Reg.FT_OWNER_ID 0, 128, 16⟩, ⟨Reg.FT_QP_GRANT 0, 128, 16⟩,
   ⟨Reg.FT_INFLIGHT_MAX 0, 128, 16⟩, ⟨Reg.FT_DRAUGHT_WEIGHT 0, 128, 16⟩, ⟨Reg.FT_DRAUGHT_RATE 0, 128, 16⟩,
   ⟨Reg.FT_DRAUGHT_BURST 0, 128, 16⟩, ⟨Reg.FT_SHARE_CIPHER 0, 128, 16⟩, ⟨Reg.FT_SHARE_HASH 0, 128, 16⟩,
   ⟨Reg.FT_SHARE_BIGNUM 0, 128, 16⟩, ⟨Reg.FT_SHARE_BURNER 0, 128, 16⟩, ⟨Reg.FT_RESET_ABORTED 0, 128, 16⟩]

def gangFields : List FldRow :=
  [⟨Reg.GANG_CTRL_PREPARE_TIMEOUT, 1, 0⟩, ⟨Reg.GANG_STATUS_OPEN, 1, 0⟩, ⟨Reg.GANG_STATUS_RECORDS, 1, 0⟩,
   ⟨Reg.GANG_STATUS_APPLY, 1, 0⟩, ⟨Reg.GANG_STATUS_RECOVERING, 1, 0⟩, ⟨Reg.GANG_ABORTS_COUNT, 1, 0⟩]

def flueCountersFields : List FldRow :=
  [⟨Reg.SNAP_CTRL_GO, 1, 0⟩, ⟨Reg.SNAP_CTRL_PERIOD, 1, 0⟩, ⟨Reg.SNAP_STATUS_EPOCH, 1, 0⟩,
   ⟨Reg.SNAP_STATUS_BUSY, 1, 0⟩, ⟨Reg.SNAP_DELIVERED_HEARTHS, 1, 0⟩, ⟨Reg.SNAP_SKIPPED_HEARTHS, 1, 0⟩,
   ⟨Reg.CTR_EPOCH_EPOCH, 1, 0⟩, ⟨Reg.CTR_XOVF_XOVF, 1, 0⟩, ⟨Reg.CTR_WRAP_WRAP 0, 4, 4⟩,
   ⟨Reg.CTR_SAT_SAT 0, 4, 4⟩, ⟨Reg.CTR_ENTRY 0, 128, 8⟩]

def evtrouteFields : List FldRow :=
  [⟨Reg.RT_PF0_VECTOR 0, 1008, 4⟩, ⟨Reg.RT_PF0_EN 0, 1008, 4⟩, ⟨Reg.RT_PF1_VECTOR 0, 1008, 4⟩,
   ⟨Reg.RT_PF1_EN 0, 1008, 4⟩]

def debugFields : List FldRow :=
  [⟨Reg.DBG_CTRL_NEW_CHALLENGE, 1, 0⟩, ⟨Reg.DBG_CTRL_SUBMIT, 1, 0⟩, ⟨Reg.DBG_CTRL_REVOKE, 1, 0⟩,
   ⟨Reg.DBG_CTRL_REVOKE_HEARTH, 1, 0⟩, ⟨Reg.DBG_STATUS_BUSY, 1, 0⟩, ⟨Reg.DBG_STATUS_CHALLENGE_OPEN, 1, 0⟩,
   ⟨Reg.DBG_STATUS_CODE, 1, 0⟩, ⟨Reg.DBG_CHALLENGE_DATA 0, 8, 4⟩, ⟨Reg.DBG_HEARTH_ENABLES 0, 16, 8⟩,
   ⟨Reg.DBG_HEARTH_II_PENDING 0, 16, 8⟩, ⟨Reg.DBG_EXPIRY_TIME 0, 16, 8⟩, ⟨Reg.DBG_TOKEN_DATA 0, 536, 4⟩]

def tamperFields : List FldRow :=
  [⟨Reg.TMP_CTRL_RELEASE, 1, 0⟩, ⟨Reg.TMP_CTRL_LOCK, 1, 0⟩, ⟨Reg.TMP_CTRL_TRIGGER, 1, 0⟩,
   ⟨Reg.TMP_CTRL_FW_TRIGGER, 1, 0⟩, ⟨Reg.TMP_STATUS_LEVEL, 1, 0⟩, ⟨Reg.TMP_STATUS_LOCKED, 1, 0⟩,
   ⟨Reg.TMP_STATUS_QUENCHED, 1, 0⟩, ⟨Reg.TMP_STATUS_UNAUTH, 1, 0⟩, ⟨Reg.TMP_ACTIVE_ACTIVE, 1, 0⟩,
   ⟨Reg.TMP_STICKY_STICKY, 1, 0⟩, ⟨Reg.TMP_DISABLED_DISABLED, 1, 0⟩, ⟨Reg.TMP_RESP_LO_RESP, 1, 0⟩,
   ⟨Reg.TMP_RESP_HI_RESP, 1, 0⟩, ⟨Reg.TMP_MIN_LO_MIN, 1, 0⟩, ⟨Reg.TMP_MIN_HI_MIN, 1, 0⟩,
   ⟨Reg.TMP_LOG_STATUS_ENTRIES, 1, 0⟩, ⟨Reg.TMP_LOG_STATUS_NEXT, 1, 0⟩, ⟨Reg.TMP_LOG_STATUS_DROPPED, 1, 0⟩,
   ⟨Reg.TMP_TEMP_TEMP, 1, 0⟩]

def vaultFields : List FldRow :=
  [⟨Reg.BANK_CTRL_PERIOD, 1, 0⟩, ⟨Reg.BANK_STATUS_POLARITY, 1, 0⟩, ⟨Reg.BANK_STATUS_DEFERRED, 1, 0⟩,
   ⟨Reg.BANK_LAST_TIME, 1, 0⟩, ⟨Reg.VLT_STATUS_EMBERS_VALID, 1, 0⟩, ⟨Reg.VLT_STATUS_LOST, 1, 0⟩,
   ⟨Reg.OP_TIME_LO_MS, 1, 0⟩, ⟨Reg.OP_TIME_HI_MS, 1, 0⟩, ⟨Reg.POWER_CYCLES_COUNT, 1, 0⟩,
   ⟨Reg.POWER_CYCLES_STUCK, 1, 0⟩]

def fuseFields : List FldRow :=
  [⟨Reg.LC_STATE_FUSE_STATE, 1, 0⟩, ⟨Reg.LC_STATE_EFFECTIVE, 1, 0⟩, ⟨Reg.LC_STATE_PARTIAL, 1, 0⟩,
   ⟨Reg.ARB_FLUE_COUNT, 1, 0⟩, ⟨Reg.ARB_FLUE_AT_END, 1, 0⟩, ⟨Reg.ARB_INNER_COUNT, 1, 0⟩,
   ⟨Reg.ARB_INNER_AT_END, 1, 0⟩, ⟨Reg.ARB_OUTER_COUNT, 1, 0⟩, ⟨Reg.ARB_OUTER_AT_END, 1, 0⟩,
   ⟨Reg.SERIAL_SERIAL 0, 4, 4⟩, ⟨Reg.IDFP_FP 0, 8, 4⟩, ⟨Reg.SKU_HEARTHS, 1, 0⟩,
   ⟨Reg.SKU_HOB, 1, 0⟩, ⟨Reg.COMPAT_DEFAULT_HEARTHS, 1, 0⟩]

def vfQueueFields : List FldRow :=
  [⟨Reg.VF_INFO_SHAIM_VERSION, 1, 0⟩, ⟨Reg.VF_INFO_QP_GRANT, 1, 0⟩, ⟨Reg.VF_INFO_VECTORS, 1, 0⟩,
   ⟨Reg.VF_INFO_DAMPER, 1, 0⟩, ⟨Reg.VF_INFO_HEARTH, 1, 0⟩, ⟨Reg.SQ_BASE_LO_ADDR 0, 8, 32⟩,
   ⟨Reg.SQ_BASE_HI_ADDR 0, 8, 32⟩, ⟨Reg.CQ_BASE_LO_ADDR 0, 8, 32⟩, ⟨Reg.CQ_BASE_HI_ADDR 0, 8, 32⟩,
   ⟨Reg.QP_CFG_SQ_LOG2 0, 8, 32⟩, ⟨Reg.QP_CFG_CQ_LOG2 0, 8, 32⟩, ⟨Reg.QP_CFG_VECTOR 0, 8, 32⟩,
   ⟨Reg.QP_COAL_COUNT 0, 8, 32⟩, ⟨Reg.QP_COAL_TIME 0, 8, 32⟩, ⟨Reg.QP_CTRL_ENABLE 0, 8, 32⟩,
   ⟨Reg.QP_STATUS_ACTIVE 0, 8, 32⟩, ⟨Reg.QP_STATUS_ERROR 0, 8, 32⟩, ⟨Reg.QP_STATUS_ERR_CODE 0, 8, 32⟩,
   ⟨Reg.QP_STATUS_DROPPED_WRITES 0, 8, 32⟩]

def stokerFields : List FldRow :=
  [⟨Reg.STK_CTRL_MODE, 1, 0⟩, ⟨Reg.STK_AGE_AGE_LIMIT, 1, 0⟩, ⟨Reg.STK_STATUS_JOBS_INUSE, 1, 0⟩,
   ⟨Reg.STK_STATUS_HIGH_WATER, 1, 0⟩, ⟨Reg.STK_STATUS_FULL, 1, 0⟩, ⟨Reg.STK_STATUS_CLASS_BLOCKED, 1, 0⟩,
   ⟨Reg.STK_RESV_INNER_RESERVED, 1, 0⟩]

def keycacheFields : List FldRow :=
  [⟨Reg.KC_STATUS_IN_USE, 1, 0⟩, ⟨Reg.KC_STATUS_TRANSIENT, 1, 0⟩, ⟨Reg.KC_STATUS_ROOT, 1, 0⟩,
   ⟨Reg.KC_STATUS_BANK_DEFERRED, 1, 0⟩, ⟨Reg.KC_STATUS_SHADOW_VALID, 1, 0⟩, ⟨Reg.KC_BANK_LAST_PASS, 1, 0⟩,
   ⟨Reg.KC_CTRL_FLUSH, 1, 0⟩, ⟨Reg.KC_RESV_RESERVE, 1, 0⟩]

def keypolicyFields : List FldRow :=
  [⟨Reg.KP_KEYSRC 0, 64, 8⟩, ⟨Reg.KP_CLASS_ALLOW 0, 64, 8⟩, ⟨Reg.KP_VALID 0, 64, 8⟩,
   ⟨Reg.KP_OWNER_ID 0, 64, 8⟩, ⟨Reg.KP_KC_QUOTA 0, 64, 8⟩, ⟨Reg.KP_VF_INDEX 0, 64, 8⟩]

def cipherFields : List FldRow :=
  [⟨Reg.CE_CTRL_START, 1, 0⟩, ⟨Reg.CE_CTRL_KAT_REQ, 1, 0⟩, ⟨Reg.CE_MODE_ALG, 1, 0⟩,
   ⟨Reg.CE_MODE_MODE, 1, 0⟩, ⟨Reg.CE_MODE_DIR, 1, 0⟩, ⟨Reg.CE_MODE_NONCE_SRC, 1, 0⟩,
   ⟨Reg.CE_MODE_TAG_LEN, 1, 0⟩, ⟨Reg.CE_MODE_NONCE_LEN, 1, 0⟩, ⟨Reg.CE_KEY0_INDEX, 1, 0⟩,
   ⟨Reg.CE_KEY1_INDEX, 1, 0⟩, ⟨Reg.CE_KEY1_USE, 1, 0⟩, ⟨Reg.CE_IV_IV 0, 4, 4⟩,
   ⟨Reg.CE_SRC_LO_ADDR, 1, 0⟩, ⟨Reg.CE_SRC_HI_ADDR, 1, 0⟩, ⟨Reg.CE_DST_LO_ADDR, 1, 0⟩,
   ⟨Reg.CE_DST_HI_ADDR, 1, 0⟩, ⟨Reg.CE_LEN_LEN, 1, 0⟩, ⟨Reg.CE_AAD_LEN_LEN, 1, 0⟩,
   ⟨Reg.CE_DU_LEN_LEN, 1, 0⟩, ⟨Reg.CE_OUT_LEN_LENGTH, 1, 0⟩] ++
  [⟨Reg.CE_STATUS_BUSY, 1, 0⟩, ⟨Reg.CE_STATUS_DONE, 1, 0⟩, ⟨Reg.CE_STATUS_OFFLINE, 1, 0⟩,
   ⟨Reg.CE_STATUS_KAT_RUNNING, 1, 0⟩, ⟨Reg.CE_STATUS_KAT_PENDING, 1, 0⟩, ⟨Reg.CE_STATUS_CODE, 1, 0⟩,
   ⟨Reg.CE_ORDER_ORDER2, 1, 0⟩, ⟨Reg.MG_STATUS_SEEDED, 1, 0⟩, ⟨Reg.MG_STATUS_PREFETCHED, 1, 0⟩,
   ⟨Reg.MG_STATUS_STALLED, 1, 0⟩, ⟨Reg.MG_STATUS_GRACE, 1, 0⟩, ⟨Reg.KAT_CTRL_PERIOD, 1, 0⟩,
   ⟨Reg.CE_TAG_TAG 0, 4, 4⟩]

def bignumFields : List FldRow :=
  [⟨Reg.BN_CTRL_START, 1, 0⟩, ⟨Reg.BN_CTRL_KAT_REQ, 1, 0⟩, ⟨Reg.BN_CTRL_CLEAR, 1, 0⟩,
   ⟨Reg.BN_OP_OP, 1, 0⟩, ⟨Reg.BN_OP_ALG, 1, 0⟩, ⟨Reg.BN_OP_PARAM, 1, 0⟩,
   ⟨Reg.BN_LEN_BITS, 1, 0⟩, ⟨Reg.BN_LEN_EXP_BITS, 1, 0⟩, ⟨Reg.BN_KEY_INDEX, 1, 0⟩,
   ⟨Reg.BN_KEY_USE, 1, 0⟩, ⟨Reg.BN_SPAN_BASE, 1, 0⟩, ⟨Reg.BN_SPAN_COUNT, 1, 0⟩,
   ⟨Reg.BN_IN_LEN_LEN, 1, 0⟩, ⟨Reg.BN_OUT_OFF_LINE, 1, 0⟩, ⟨Reg.BN_OUT_LEN_LENGTH, 1, 0⟩,
   ⟨Reg.BN_STATUS_BUSY, 1, 0⟩, ⟨Reg.BN_STATUS_DONE, 1, 0⟩, ⟨Reg.BN_STATUS_OFFLINE, 1, 0⟩,
   ⟨Reg.BN_STATUS_KAT_RUNNING, 1, 0⟩, ⟨Reg.BN_STATUS_KAT_PENDING, 1, 0⟩] ++
  [⟨Reg.BN_STATUS_CLEARING, 1, 0⟩, ⟨Reg.BN_STATUS_YIELD_REQ, 1, 0⟩, ⟨Reg.BN_STATUS_SAVING, 1, 0⟩,
   ⟨Reg.BN_STATUS_PREEMPT_OFF, 1, 0⟩, ⟨Reg.BN_STATUS_CODE, 1, 0⟩, ⟨Reg.BN_CYCLES_COUNT, 1, 0⟩,
   ⟨Reg.BN_ATTEMPTS_COUNT, 1, 0⟩, ⟨Reg.BN_LIMIT_ATTEMPTS, 1, 0⟩, ⟨Reg.BN_ORDER_ORDER2, 1, 0⟩,
   ⟨Reg.BN_YIELD_PASSED, 1, 0⟩, ⟨Reg.BN_YIELD_SLOT, 1, 0⟩, ⟨Reg.BN_CLEAR_REGIONS, 1, 0⟩,
   ⟨Reg.BN_WIN_ADDR_WORD, 1, 0⟩, ⟨Reg.BN_WIN_LO_DATA, 1, 0⟩, ⟨Reg.BN_WIN_HI_DATA, 1, 0⟩,
   ⟨Reg.MG_STATUS_SEEDED, 1, 0⟩, ⟨Reg.MG_STATUS_PREFETCHED, 1, 0⟩, ⟨Reg.MG_STATUS_STALLED, 1, 0⟩,
   ⟨Reg.MG_STATUS_GRACE, 1, 0⟩, ⟨Reg.KAT_CTRL_PERIOD, 1, 0⟩] ++
  [⟨Reg.BN_LAST_LAST_OWNER, 1, 0⟩]

def hobFields : List FldRow :=
  [⟨Reg.HOB_CTRL_MODE, 1, 0⟩, ⟨Reg.HOB_CTRL_KAT_REQ, 1, 0⟩, ⟨Reg.HOB_CTRL_PINFAIL_CLR, 1, 0⟩,
   ⟨Reg.HOB_BATCH_COUNT, 1, 0⟩, ⟨Reg.HOB_BATCH_WAIT, 1, 0⟩, ⟨Reg.HOB_ORDER_ORDER2, 1, 0⟩,
   ⟨Reg.HOB_PINPOL_MIN_LEN, 1, 0⟩, ⟨Reg.HOB_PINPOL_MAX_LEN, 1, 0⟩, ⟨Reg.HOB_PINPOL_DOWNGRADE, 1, 0⟩,
   ⟨Reg.HOB_STATUS_BUSY, 1, 0⟩, ⟨Reg.HOB_STATUS_TURNOVER, 1, 0⟩, ⟨Reg.HOB_STATUS_GATED, 1, 0⟩,
   ⟨Reg.HOB_STATUS_OFFLINE, 1, 0⟩, ⟨Reg.HOB_STATUS_KAT_PENDING, 1, 0⟩, ⟨Reg.HOB_STATUS_KAT_RUNNING, 1, 0⟩,
   ⟨Reg.HOB_STATUS_HELD, 1, 0⟩, ⟨Reg.HOB_PINFAIL_COUNT, 1, 0⟩, ⟨Reg.HOB_PINFAIL_THR_THRESHOLD, 1, 0⟩,
   ⟨Reg.HOB_KAT_PERIOD, 1, 0⟩, ⟨Reg.BURNER_LOCK_OWNER 0, 4, 4⟩] ++
  [⟨Reg.BURNER_LOCK_HOLDER 0, 4, 4⟩, ⟨Reg.BURNER_LOCK_SCRUBBING 0, 4, 4⟩, ⟨Reg.HOB_MG_STATUS_SEEDED 0, 4, 4⟩,
   ⟨Reg.HOB_MG_STATUS_PREFETCHED 0, 4, 4⟩, ⟨Reg.HOB_MG_STATUS_STALLED 0, 4, 4⟩, ⟨Reg.HOB_MG_STATUS_GRACE 0, 4, 4⟩,
   ⟨Reg.DT_LO_ENTRIES_LO 0, 4, 16⟩, ⟨Reg.DT_HI_ENTRIES_HI 0, 4, 16⟩, ⟨Reg.DT_CTRL_VALID 0, 4, 16⟩]

def groupFields : List FldRow :=
  [⟨Reg.GRP_CTRL_IDLE_LIMIT, 1, 0⟩, ⟨Reg.GRP_STATUS_OPEN, 1, 0⟩, ⟨Reg.GRP_STATUS_JOURNAL, 1, 0⟩,
   ⟨Reg.GRP_STATUS_HELD_KIB, 1, 0⟩, ⟨Reg.GRP_ROLLBACKS_COUNT, 1, 0⟩]

def entropyFields : List FldRow :=
  [⟨Reg.ENT_CTRL_POLICY, 1, 0⟩, ⟨Reg.ENT_CTRL_RESTART, 1, 0⟩, ⟨Reg.ENT_CTRL_RETEST, 1, 0⟩,
   ⟨Reg.ENT_STATUS_SOURCE, 1, 0⟩, ⟨Reg.ENT_STATUS_DRBG, 1, 0⟩, ⟨Reg.ENT_STATUS_PAIRS_OK, 1, 0⟩,
   ⟨Reg.ENT_STATUS_VALID_IN, 1, 0⟩, ⟨Reg.ENT_STATUS_VALID_OUT, 1, 0⟩, ⟨Reg.ENT_STATUS_EMPTY_IN, 1, 0⟩,
   ⟨Reg.ENT_STATUS_EMPTY_OUT, 1, 0⟩, ⟨Reg.ENT_DATA_IN_DATA, 1, 0⟩, ⟨Reg.ENT_DATA_OUT_DATA, 1, 0⟩,
   ⟨Reg.ENT_PAIR_LO_REMOVED, 1, 0⟩, ⟨Reg.ENT_PAIR_HI_REMOVED, 1, 0⟩, ⟨Reg.ENT_RESEED_PERIOD, 1, 0⟩,
   ⟨Reg.ENT_COUNT_REQUESTS, 1, 0⟩, ⟨Reg.ENT_COUNT_STUCK, 1, 0⟩, ⟨Reg.ENT_HEALTH_FAILS_COUNT, 1, 0⟩,
   ⟨Reg.ENT_LAST_RESEED_TIME, 1, 0⟩, ⟨Reg.ENT_RAW_SEL_PAIR, 1, 0⟩] ++
  [⟨Reg.ENT_RAW_BITS, 1, 0⟩]

def mempathFields : List FldRow :=
  [⟨Reg.MEM_CFG_RATE, 1, 0⟩, ⟨Reg.MEM_CFG_WIDTH, 1, 0⟩, ⟨Reg.MEM_CFG_RANKS, 1, 0⟩,
   ⟨Reg.MEM_CFG_DENSITY, 1, 0⟩, ⟨Reg.MEM_CFG_CAP_GIB, 1, 0⟩, ⟨Reg.MEM_CTRL_INIT, 1, 0⟩,
   ⟨Reg.MEM_CTRL_SCRUB_EN, 1, 0⟩, ⟨Reg.MEM_STATUS_STATE, 1, 0⟩, ⟨Reg.MEM_STATUS_SELF_REFRESH, 1, 0⟩,
   ⟨Reg.MEM_SCRUB_HOURS, 1, 0⟩, ⟨Reg.MEM_CE_COUNT_COUNT, 1, 0⟩, ⟨Reg.MEM_UE_COUNT_COUNT, 1, 0⟩,
   ⟨Reg.MEM_POISON_LO_OFFSET, 1, 0⟩, ⟨Reg.MEM_POISON_HI_OFFSET, 1, 0⟩, ⟨Reg.MEM_POISON_HI_VALID, 1, 0⟩,
   ⟨Reg.MEM_REENC_QUEUED, 1, 0⟩, ⟨Reg.MEM_REENC_BUSY, 1, 0⟩, ⟨Reg.REENC_COUNT_LO_COUNT, 1, 0⟩,
   ⟨Reg.REENC_COUNT_HI_COUNT, 1, 0⟩, ⟨Reg.OWN_PAGE_PAGE, 1, 0⟩] ++
  [⟨Reg.OWN_COUNT_COUNT, 1, 0⟩, ⟨Reg.OWN_ENTRY_ENTRY, 1, 0⟩, ⟨Reg.OWN_EXPECT_OWNER, 1, 0⟩,
   ⟨Reg.OWN_EXPECT_CHECK, 1, 0⟩, ⟨Reg.OWN_CTRL_GO, 1, 0⟩, ⟨Reg.OWN_CTRL_SYNC, 1, 0⟩,
   ⟨Reg.OWN_STATUS_PENDING, 1, 0⟩, ⟨Reg.OWN_STATUS_SYNC_BUSY, 1, 0⟩, ⟨Reg.OWN_STATUS_CMD_ERR, 1, 0⟩,
   ⟨Reg.OWN_STATUS_ERR_CODE, 1, 0⟩, ⟨Reg.OWN_STATUS_GEN, 1, 0⟩, ⟨Reg.RNG_BASE_BASE 0, 8, 32⟩,
   ⟨Reg.RNG_SIZE_SIZE 0, 8, 32⟩, ⟨Reg.RNG_META_META 0, 8, 32⟩, ⟨Reg.RNG_GEN_GEN 0, 8, 32⟩,
   ⟨Reg.RNG_CTRL_MODE 0, 8, 32⟩, ⟨Reg.RNG_CTRL_INIT 0, 8, 32⟩, ⟨Reg.RNG_STATUS_STATE 0, 8, 32⟩,
   ⟨Reg.RNG_STATUS_CAUSE 0, 8, 32⟩, ⟨Reg.RNG_STATUS_STUCK 0, 8, 32⟩] ++
  [⟨Reg.RNG_STATUS_CFG_ERR 0, 8, 32⟩, ⟨Reg.RNG_STATUS_CFG_CODE 0, 8, 32⟩, ⟨Reg.RNG_VAULT_GEN_GEN 0, 8, 32⟩]

def mpuFields : List FldRow :=
  [⟨Reg.MPU_INFO_MASTER, 1, 0⟩, ⟨Reg.MPU_INFO_FIXED, 1, 0⟩, ⟨Reg.MPU_CTRL_SYNC, 1, 0⟩,
   ⟨Reg.MPU_STATUS_SYNC_BUSY, 1, 0⟩, ⟨Reg.MPU_STATUS_DIRTY, 1, 0⟩, ⟨Reg.MPU_STATUS_CFG_ERR, 1, 0⟩,
   ⟨Reg.MPU_STATUS_CFG_REGION, 1, 0⟩, ⟨Reg.MPU_STATUS_IGNORED, 1, 0⟩, ⟨Reg.MPU_BASE_LO_BASE 0, 16, 16⟩,
   ⟨Reg.MPU_BASE_HI_BASE 0, 16, 16⟩, ⟨Reg.MPU_ATTR_SIZE_LOG2 0, 16, 16⟩, ⟨Reg.MPU_ATTR_READ 0, 16, 16⟩,
   ⟨Reg.MPU_ATTR_WRITE 0, 16, 16⟩, ⟨Reg.MPU_ATTR_EXEC 0, 16, 16⟩, ⟨Reg.MPU_ATTR_U 0, 16, 16⟩,
   ⟨Reg.MPU_ATTR_M 0, 16, 16⟩, ⟨Reg.MPU_ATTR_CACHE 0, 16, 16⟩, ⟨Reg.MPU_ATTR_ORDER 0, 16, 16⟩,
   ⟨Reg.MPU_ATTR_ENABLE 0, 16, 16⟩]

def gateFields : List FldRow :=
  [⟨Reg.GATE_CTRL_OP 0, 4, 32⟩, ⟨Reg.GATE_CTRL_SERVICE 0, 4, 32⟩, ⟨Reg.GATE_STATUS_WORLD 0, 4, 32⟩,
   ⟨Reg.GATE_STATUS_RELEASED 0, 4, 32⟩, ⟨Reg.GATE_STATUS_CALL_OPEN 0, 4, 32⟩, ⟨Reg.GATE_STATUS_BANKED 0, 4, 32⟩,
   ⟨Reg.GATE_STATUS_HALTED 0, 4, 32⟩, ⟨Reg.GATE_STATUS_ENTRY 0, 4, 32⟩, ⟨Reg.GATE_STATUS_SERVICE 0, 4, 32⟩,
   ⟨Reg.OUTER_VEC_LO_ADDR 0, 4, 32⟩, ⟨Reg.OUTER_VEC_HI_ADDR 0, 4, 32⟩, ⟨Reg.CORE_CTRL_RELEASE 0, 4, 32⟩,
   ⟨Reg.GATE_IRQ_CORE, 1, 0⟩, ⟨Reg.INNER_VEC_LO_ADDR, 1, 0⟩, ⟨Reg.INNER_VEC_HI_ADDR, 1, 0⟩,
   ⟨Reg.DBG_VIEW_ENABLES, 1, 0⟩, ⟨Reg.DBG_VIEW_II_PENDING, 1, 0⟩]

def powerFields : List FldRow :=
  [⟨Reg.PWR_CTRL_TARGET, 1, 0⟩, ⟨Reg.PWR_CTRL_PROFILE, 1, 0⟩, ⟨Reg.PWR_CTRL_FLATTEN, 1, 0⟩,
   ⟨Reg.PWR_CTRL_AUTO_WAKE, 1, 0⟩, ⟨Reg.PWR_CTRL_OUTER_REQ, 1, 0⟩, ⟨Reg.PWR_STATUS_STATE, 1, 0⟩,
   ⟨Reg.PWR_STATUS_PROFILE, 1, 0⟩, ⟨Reg.PWR_STATUS_TRANSITION, 1, 0⟩, ⟨Reg.PWR_STATUS_FLAT_ACTIVE, 1, 0⟩,
   ⟨Reg.PWR_STATUS_STRAP, 1, 0⟩, ⟨Reg.PWR_STATUS_HELD, 1, 0⟩, ⟨Reg.PWR_STATUS_BLOCKER, 1, 0⟩,
   ⟨Reg.PWR_IDLE_IDLE_US, 1, 0⟩, ⟨Reg.PWR_BLK_REQ_LO_REQ, 1, 0⟩, ⟨Reg.PWR_BLK_REQ_HI_REQ, 1, 0⟩,
   ⟨Reg.PWR_BLK_STATE_LO_STATE, 1, 0⟩, ⟨Reg.PWR_BLK_STATE_HI_STATE, 1, 0⟩, ⟨Reg.PWR_HOLD_HOLD, 1, 0⟩,
   ⟨Reg.PWR_HELD_HELD, 1, 0⟩]

def countersFields : List FldRow :=
  [⟨Reg.H_CTR_EPOCH_EPOCH, 1, 0⟩, ⟨Reg.H_CTR_XOVF_XOVF, 1, 0⟩, ⟨Reg.H_CTR_WRAP_WRAP 0, 8, 4⟩,
   ⟨Reg.H_CTR_SAT_SAT 0, 8, 4⟩, ⟨Reg.H_CTR_ENTRY 0, 256, 8⟩]

def eventsFields : List FldRow :=
  [⟨Reg.EVR_CTRL_MIN_SEVERITY, 1, 0⟩, ⟨Reg.EVR_CTRL_FREEZE, 1, 0⟩, ⟨Reg.EVR_CTRL_UNFREEZE, 1, 0⟩,
   ⟨Reg.EVR_STATUS_FROZEN, 1, 0⟩, ⟨Reg.EVR_STATUS_FREEZER, 1, 0⟩, ⟨Reg.EVR_STATUS_FREEZE_BROKEN, 1, 0⟩,
   ⟨Reg.EVR_STATUS_RESERVED_USED, 1, 0⟩, ⟨Reg.EVR_STATUS_HOLD_USED, 1, 0⟩, ⟨Reg.EVR_SEQ_NEXT, 1, 0⟩,
   ⟨Reg.EVR_ACK_SEQUENCE, 1, 0⟩, ⟨Reg.EVR_DROPPED_COUNT, 1, 0⟩, ⟨Reg.EVR_HOLD_DROPPED_COUNT, 1, 0⟩,
   ⟨Reg.EVS_INNER_PENDING 0, 3, 4⟩, ⟨Reg.EVS_OUTER_PENDING 0, 3, 4⟩]

end Sys2Proof.Machine
end

