-- ==== Sys2Proof/Machine/Ops.lean ====
section
/-! DEFINITION. The named operations over the state: pages and registers, hearths, engines, VFs and queue pairs, time, free
values and outputs. Every read and every write of a register goes through `State.rd` and `State.wr`. -/

namespace Sys2Proof.Machine

abbrev Result := Host.Outcome State Fault Refusal

/-! ### Pages -/

/-- The register-file number of a page. -/
def pageKey (p : Page) : Nat := (p.kind.ctorIdx * 512 + p.unit.val) * 32 + p.inst.val

/-- The register-file key of a field of a page: one page is 4 KiB (R709), 32,768 bits. -/
def regKey (p : Page) (f : Fld) : Nat := 32768 * pageKey p + (f.off * 8 + f.lo) % 32768

/-- A page of the flue or the chimney. -/
def pgF (k : PageKind) (i : Nat := 0) : Page := ⟨k, 0, Fin.ofNat 32 i⟩

/-- A page of a hearth. -/
def pgH (k : PageKind) (h : Nat) (i : Nat := 0) : Page := ⟨k, Fin.ofNat 512 h, Fin.ofNat 32 i⟩

/-- The VF.QUEUE page of a VF. -/
def pgVf (v : Nat) : Page := ⟨.vfQueue, Fin.ofNat 512 v, 0⟩

/-- The page of a unit in the order of R666: cipher, hash, big-number engines; burners share the HOB page. -/
def pgU (h u : Nat) : Page :=
  if u < 8 then pgH .cipher h u else if u < 12 then pgH .hash h (u - 8)
  else if u < 16 then pgH .bignum h (u - 12) else pgH .hob h

/-! ### Registers -/

/-- The value of a register field. -/
def State.rd (s : State) (p : Page) (f : Fld) : Nat := (s.regs.find? (regKey p f)).getD f.reset

/-- The state with a register field set; a value equal to the reset value leaves no entry. -/
def State.wr (s : State) (p : Page) (f : Fld) (v : Nat) : State :=
  { s with regs := if v % 2 ^ f.w = f.reset then s.regs.del (regKey p f) else s.regs.put (regKey p f) (v % 2 ^ f.w) }

/-- A one-bit field as a Boolean. -/
def State.flag (s : State) (p : Page) (f : Fld) : Bool := decide (s.rd p f ≠ 0)

/-- A field with one of its bits set. -/
def State.orBit (s : State) (p : Page) (f : Fld) (i : Nat) : State := s.wr p f (setBit (s.rd p f) i true)

/-- An error counter of the register file: it saturates (R621). -/
def State.bump (s : State) (p : Page) (f : Fld) : State := s.wr p f (satAdd f.w (s.rd p f) 1)

/-- The register file without the entries of a page from byte offset `lo` up to byte offset `hi`, so that every field there
has its reset value. -/
def resetPageRegs (p : Page) (lo hi : Nat) (r : Tab Nat) : Tab Nat :=
  r.filter (fun e => e.1 < 32768 * pageKey p + lo * 8 || 32768 * pageKey p + hi * 8 ≤ e.1)

/-- A page returned to its reset values (R722). -/
def State.resetPage (s : State) (p : Page) : State := { s with regs := resetPageRegs p 0 4096 s.regs }

/-- The register file without the pages for which a test on the page's number holds. -/
def State.resetPages (s : State) (t : Nat → Bool) : State :=
  { s with regs := s.regs.filter (fun e => !(t (e.1 / 32768))) }

/-- The kind, unit and instance parts of a page number. -/
def keyKind (k : Nat) : Nat := k / 16384
def keyUnit (k : Nat) : Nat := k / 32 % 512

/-! ### Hearths, engines -/

def State.H (s : State) (h : Nat) : Hearth := s.hearths.getD h {}

def State.modH (s : State) (h : Nat) (f : Hearth → Hearth) : State :=
  { s with hearths := s.hearths.put h (f (s.H h)) }

def State.modFlue (s : State) (f : Flue → Flue) : State := { s with flue := f s.flue }

def State.modChim (s : State) (f : Chimney → Chimney) : State := { s with chim := f s.chim }

def State.modVault (s : State) (f : Vault → Vault) : State :=
  s.modChim (fun c => { c with vault := f c.vault })

def Hearth.eng (x : Hearth) (u : Nat) : Engine := x.engines.getD u {}

def State.eng (s : State) (h u : Nat) : Engine := (s.H h).eng u

def State.modEng (s : State) (h u : Nat) (f : Engine → Engine) : State :=
  s.modH h (fun x => { x with engines := x.engines.put u (f (x.eng u)) })

def State.job? (s : State) (h j : Nat) : Option Job := (s.H h).jobs.find? j

def State.modJob (s : State) (h j : Nat) (f : Job → Job) : State :=
  s.modH h (fun x => { x with jobs := x.jobs.upd j f })

def State.core (s : State) (h c : Nat) : Core := (s.H h).cores.getD c {}

def State.modCore (s : State) (h c : Nat) (f : Core → Core) : State :=
  s.modH h (fun x => { x with cores := x.cores.put c (f (x.cores.getD c {})) })

/-- The number of hearths the variant enables (R2, R3). -/
def State.enabled (s : State) (h : Nat) : Bool := decide (h < s.variant.hearths)

/-- The enabled hearths in rising order. -/
def State.hearthList (s : State) : List Nat := List.range s.variant.hearths

/-- HEARTH_STATEh of FLUE.BOOT (R689): 0 ABSENT, 1 RESET, 2 STARTING, 3 STARTED, 4 FATAL, 5 FAILED, 6 OFF. -/
def State.hState (s : State) (h : Nat) : Nat :=
  if s.enabled h then s.rd (pgF .flueBoot) (Reg.HEARTH_STATE_STATE h) else 0

def State.setHState (s : State) (h v : Nat) : State := s.wr (pgF .flueBoot) (Reg.HEARTH_STATE_STATE h) v

def hsReset : Nat := 1
def hsStarting : Nat := 2
def hsStarted : Nat := 3
def hsFatal : Nat := 4
def hsFailed : Nat := 5
def hsOff : Nat := 6

/-- The hearth is started and not fatal. -/
def State.live (s : State) (h : Nat) : Bool := s.hState h == hsStarted

/-- The hearth's clocks run: STARTING, STARTED or FATAL, in H0 or H1, and no profile change has stopped
hc (R555, R606, R732). -/
def State.up (s : State) (h : Nat) : Bool :=
  (s.hState h == hsStarting || s.hState h == hsStarted || s.hState h == hsFatal) && decide ((s.H h).power < 2) && !(s.H h).transition

/-- The hearth is started and its clocks run: its stoker, engines and cores work. -/
def State.works (s : State) (h : Nat) : Bool := s.live h && s.up h

/-- The exit from H2 (R442, R459, R542, R544): the PLL runs, the entropy source starts again, a banking pass is due. -/
def exitH2 (x : Hearth) : Hearth := { x with power := 0, ent := { testing := 1, removed := x.ent.removed }, bankWait := true }

/-- The hearth answers register accesses (R732). -/
def State.answers (s : State) (h : Nat) : Bool :=
  (s.hState h == hsStarting || s.hState h == hsStarted || s.hState h == hsFatal) && decide ((s.H h).power < 3)

/-! ### Units -/

def isCipher (u : Nat) : Bool := u < 8
def isHash (u : Nat) : Bool := 8 ≤ u && u < 12
def isBn (u : Nat) : Bool := 12 ≤ u && u < 16
def isBurner (u : Nat) : Bool := 16 ≤ u && u < 20

/-- The class of a unit: 0 cipher, 1 hash, 2 big-number, 3 burner (R22). -/
def unitClass (u : Nat) : Nat := if u < 8 then 0 else if u < 12 then 1 else if u < 16 then 2 else 3

/-- The units of a class in rising order. -/
def classUnits (c : Nat) : List Nat :=
  if c = 0 then List.range 8 else if c = 1 then [8, 9, 10, 11]
  else if c = 2 then [12, 13, 14, 15] else [16, 17, 18, 19]

/-! ### VFs and queue pairs -/

/-- A VF's function-table page, and its entry there (R52). -/
def ftPage (v : Nat) : Page := pgF .functab (v / 128)

def State.ft (s : State) (v : Nat) (f : Nat → Fld) : Nat := s.rd (ftPage v) (f (v % 128))

def State.setFt (s : State) (v : Nat) (f : Nat → Fld) (x : Nat) : State := s.wr (ftPage v) (f (v % 128)) x

def State.bound (s : State) (v : Nat) : Bool := s.ft v Reg.FT_BOUND != 0

def State.vf (s : State) (v : Nat) : Vf := s.flue.vfs.getD v {}

def State.modVf (s : State) (v : Nat) (f : Vf → Vf) : State :=
  s.modFlue (fun x => { x with vfs := x.vfs.put v (f (x.vfs.getD v {})) })

/-- The VFs bound to a hearth, in rising order. -/
def State.boundVfs (s : State) (h : Nat) : List Nat :=
  (List.range 512).filter (fun v => s.bound v && s.ft v Reg.FT_HEARTH == h)

/-- The damper states of R96. -/
def dampOpen : Nat := 0
def dampThrottled : Nat := 1
def dampClosing : Nat := 2
def dampDrained : Nat := 3
def dampResetting : Nat := 4

def State.damper (s : State) (v : Nat) : Nat := s.ft v Reg.FT_DAMPER
def State.setDamper (s : State) (v x : Nat) : State := s.setFt v Reg.FT_DAMPER x

/-- The page and block number of a queue pair's registers (R60, R730). -/
def qPage : Queue → Page
  | .vf v _ => pgVf v.val
  | .admin _ => pgF .adminq

def qIdx : Queue → Nat
  | .vf _ q => q.val
  | .admin q => q.val

def State.qrd (s : State) (t : Queue) (f : Nat → Fld) : Nat := s.rd (qPage t) (f (qIdx t))
def State.qwr (s : State) (t : Queue) (f : Nat → Fld) (v : Nat) : State := s.wr (qPage t) (f (qIdx t)) v

def State.qp (s : State) : Queue → Qp
  | .vf v q => s.flue.qps.getD (v.val * 8 + q.val) {}
  | .admin q => s.flue.adminQps.getD q.val {}

def State.modQp (s : State) (t : Queue) (f : Qp → Qp) : State :=
  match t with
  | .vf v q => s.modFlue (fun x => { x with qps := x.qps.put (v.val * 8 + q.val) (f (x.qps.getD (v.val * 8 + q.val) {})) })
  | .admin q => s.modFlue (fun x => { x with adminQps := x.adminQps.put q.val (f (x.adminQps.getD q.val {})) })

def State.sqDepth (s : State) (t : Queue) : Nat := 2 ^ s.qrd t Reg.QP_CFG_SQ_LOG2
def State.cqDepth (s : State) (t : Queue) : Nat := 2 ^ s.qrd t Reg.QP_CFG_CQ_LOG2

/-- The queue pair of a job. -/
def jobQueue (j : Job) : Queue := .vf (Fin.ofNat 512 j.vf) (Fin.ofNat 8 j.qp)

/-! ### Time, outputs, free values -/

/-- Operating time in milliseconds (R613). -/
def State.now (s : State) : Nat := s.chim.vault.opTime

/-- The timestamp of records and entries: the power-cycle count above the operating time (R590, R613, R623). -/
def State.stamp (s : State) : Nat := min s.chim.vault.powerCycles 0xFFFFF * 2 ^ 44 + s.now

/-- An output leaves the part; flue counter 35 counts MSI-X messages (R625). -/
def State.emit (s : State) (o : Output) : State :=
  let s := { s with out := s.out ++ [o] }
  match o with
  | .msix _ _ _ _ => s.modFlue (fun x => { x with ctrs := x.ctrs.put 35 ((x.ctrs.getD 35 0 + 1) % 2 ^ 64) })
  | _ => s

/-- The page of a vector's MSI-X table entry (R55, R724, R725). -/
def msixPage (fn : Func) (vector : Nat) : Page :=
  match fn with
  | .pf0 => pgF .msixPf (vector / 256)
  | .pf1 => pgF .msixPf 8
  | .vf v => ⟨.msixVf, Fin.ofNat 512 v, 0⟩

/-- The pending-bit array of a function. -/
def pbaPage : Func → Page
  | .pf0 => pgF .pbaPf 0
  | .pf1 => pgF .pbaPf 1
  | .vf v => ⟨.pbaVf, Fin.ofNat 512 v, 0⟩

/-- The configuration space of a function, as far as the model holds it. -/
def cfgPage : Func → Page
  | .pf0 => pgF .cfgPf 0
  | .pf1 => pgF .cfgPf 1
  | .vf v => ⟨.cfgVf, Fin.ofNat 512 v, 0⟩

/-- The function's Device Control enables Relaxed Ordering (R85). -/
def State.relaxed (s : State) (fn : Func) : Bool := s.flag (cfgPage fn) Reg.DEVCTL_RELAXED

/-- A vector raised: its message leaves, or, where its table entry is masked, its pending bit sets (R55; log 131). -/
def sendMsix (fn : Func) (vector : Nat) (s : State) : State :=
  let p := msixPage fn vector
  let i := vector % 256
  if s.flag p (Reg.MSIX_MASK i) then s.orBit (pbaPage fn) (Reg.MSIX_PENDING (vector / 32)) (vector % 32)
  else s.emit (.msix fn vector (s.rd p (Reg.MSIX_ADDR_HI i) * 2 ^ 32 + s.rd p (Reg.MSIX_ADDR_LO i) * 4) (s.rd p (Reg.MSIX_DATA i)))

/-- A table entry that is no longer masked sends the message that pends (R55; log 131). -/
def unmaskMsix (fn : Func) (vector : Nat) (s : State) : State :=
  let f := Reg.MSIX_PENDING (vector / 32)
  if !s.flag (msixPage fn vector) (Reg.MSIX_MASK (vector % 256)) && (s.rd (pbaPage fn) f).testBit (vector % 32) then
    sendMsix fn vector (s.wr (pbaPage fn) f (setBit (s.rd (pbaPage fn) f) (vector % 32) false))
  else s

/-- `n` free bytes, and the state past them. -/
def State.free (s : State) (n : Nat) : Bytes × State :=
  ((List.range n).map (fun i => Config.freeByte (s.freeCtr + i)), { s with freeCtr := s.freeCtr + n })

/-- The flue runs its firmware (BOOT_STATUS.STATE RUNNING, R678). -/
def flueRunning : Nat := 2
def State.flueUp (s : State) : Bool := s.rd (pgF .flueBoot) Reg.BOOT_STATUS_STATE == flueRunning

/-- The flue runs and the host can be reached: PF0 is not in D3hot (R552). -/
def State.hostUp (s : State) : Bool := s.flueUp && !s.flue.d3hot

/-- Key isolation is in force: TMP_STATUS.LEVEL is ISOLATE or QUENCH (R576). -/
def isolating (s : State) : Bool := decide (2 ≤ s.chim.vault.level)

/-! ### Completion statuses (R88) -/

def stOK : Nat := 0x0000
def stBadDescriptor : Nat := 0x1001
def stUnsupported : Nat := 0x1002
def stBadLength : Nat := 0x1003
def stOpcodeDenied : Nat := 0x1004
def stOutputTooSmall : Nat := 0x1005
def stKeyNotFound : Nat := 0x2001
def stKeyUsage : Nat := 0x2002
def stKeyExpired : Nat := 0x2003
def stUsageLimit : Nat := 0x2004
def stSlotFrozen : Nat := 0x2005
def stKeyOwner : Nat := 0x2006
def stNotExportable : Nat := 0x2007
def stNonceExhausted : Nat := 0x2008
def stCacheFull : Nat := 0x2009
def stBlobVersion : Nat := 0x200A
def stSlotCounter : Nat := 0x200B
def stTagMismatch : Nat := 0x3001
def stSigInvalid : Nat := 0x3002
def stVerifyFailed : Nat := 0x3003
def stBinding : Nat := 0x3004
def stRollback : Nat := 0x3005
def stInvariant : Nat := 0x4001
def stOffline : Nat := 0x4002
def stRetryLimit : Nat := 0x4003
def stInputInvalid : Nat := 0x4100
def stGroupRolledBack : Nat := 0x5001
def stGroupPeer : Nat := 0x5002
def stGroupLimit : Nat := 0x5003
def stGroupConflict : Nat := 0x5004
def stGroupUnknown : Nat := 0x5005
def stNotQuiesced : Nat := 0x6001
def stVfReset : Nat := 0x6002
def stDamperClosed : Nat := 0x6003
def stQpDisabled : Nat := 0x6004
def stLimit : Nat := 0x6005
def stNotBound : Nat := 0x6006
def stState : Nat := 0x6007
def stCompatLocked : Nat := 0x6008
def stTdiLocked : Nat := 0x6009
def stPoison : Nat := 0x7001
def stRangeBroken : Nat := 0x7002
def stOwnership : Nat := 0x7003
def stHostDma : Nat := 0x7004
def stEntropy : Nat := 0x8001
def stFatal : Nat := 0xF001
def stQuenched : Nat := 0xF002

end Sys2Proof.Machine
end

