-- ==== Sys2Proof/Machine/Events.lean ====
section
/-! DEFINITION. Events, records and messages (R637 to R660), the capture of refused register accesses (R711, R714), and the
interrupt lines of the worlds (R641). -/

namespace Sys2Proof.Machine

/-- An event source: its number within its group (R637), the kinds of its home pages, its bit there, its severity. -/
structure Ev where
  n     : Nat
  homes : List PageKind
  bit   : Nat
  sev   : Nat
  deriving DecidableEq, Repr

/-! The hearth events of R639. -/
def evClassBlocked : Ev := ⟨0, [.stoker], 0, 3⟩
def evVfResetAbort : Ev := ⟨1, [.stoker], 1, 5⟩
def evBankDeferred : Ev := ⟨8, [.keycache], 0, 4⟩
def evSlotStale : Ev := ⟨9, [.keycache], 1, 5⟩
def evRootChange : Ev := ⟨10, [.keycache], 2, 6⟩
def evCeDone : Ev := ⟨16, [.cipher], 0, 0⟩
def evHeDone : Ev := ⟨17, [.hash], 0, 0⟩
def evBnDone : Ev := ⟨18, [.bignum], 0, 0⟩
def evKatFail : Ev := ⟨19, [.cipher, .hash, .bignum], 1, 6⟩
def evMgGrace : Ev := ⟨20, [.cipher, .hash, .bignum, .hob], 2, 4⟩
def evMgStall : Ev := ⟨21, [.cipher, .hash, .bignum, .hob], 3, 5⟩
def evBnInvariant : Ev := ⟨22, [.bignum], 4, 6⟩
def evBnSaveFail : Ev := ⟨23, [.bignum], 5, 4⟩
def evPinFails : Ev := ⟨24, [.hob], 0, 5⟩
def evHobKatFail : Ev := ⟨25, [.hob], 1, 6⟩
def evGrpRollback : Ev := ⟨28, [.group], 0, 2⟩
def evGrpIdle : Ev := ⟨29, [.group], 1, 3⟩
def evGrpAudit : Ev := ⟨30, [.group], 2, 5⟩
def evGroupRecovered : Ev := ⟨31, [.group], 3, 5⟩
def evPairFail : Ev := ⟨32, [.entropy], 0, 4⟩
def evSourceFail : Ev := ⟨33, [.entropy], 1, 6⟩
def evEntRecovered : Ev := ⟨34, [.entropy], 2, 5⟩
def evRangeReady : Ev := ⟨40, [.mempath], 0, 1⟩
def evRangeBroken : Ev := ⟨41, [.mempath], 1, 6⟩
def evMemPoison : Ev := ⟨42, [.mempath], 2, 4⟩
def evMemIntegrity : Ev := ⟨43, [.mempath], 3, 6⟩
def evOwnViolation : Ev := ⟨44, [.mempath], 4, 5⟩
def evOwnSyncDone : Ev := ⟨45, [.mempath], 5, 1⟩
def evMpuViolation : Ev := ⟨46, [.mpu], 0, 5⟩
def evGateFault : Ev := ⟨48, [.gate], 0, 4⟩
def evPwrHeld : Ev := ⟨49, [.power], 0, 2⟩
def evProfileDone : Ev := ⟨50, [.power], 1, 1⟩
def evCtrWrap : Ev := ⟨56, [.counters], 0, 1⟩
def evCtrSaturate : Ev := ⟨57, [.counters], 1, 3⟩
def evEvrDrop : Ev := ⟨58, [.events], 0, 3⟩
def evHoldDrop : Ev := ⟨59, [.events], 1, 4⟩
def evFreezeBroken : Ev := ⟨60, [.events], 2, 5⟩
def evFatalEntry : Ev := ⟨64, [.events], 3, 7⟩

/-! The flue and chimney events of R640, with their global numbers. -/
def evLinkDegraded : Ev := ⟨1152, [.link], 0, 3⟩
def evUnboundAccess : Ev := ⟨1153, [.functab], 0, 4⟩
def evDamperDrained : Ev := ⟨1154, [.damper], 0, 1⟩
def evGangTimeout : Ev := ⟨1155, [.gang], 0, 3⟩
def evGangAborted : Ev := ⟨1156, [.gang], 1, 2⟩
def evGangRecovered : Ev := ⟨1157, [.gang], 2, 5⟩
def evFlCtrWrap : Ev := ⟨1158, [.flueCounters], 0, 1⟩
def evFlCtrSaturate : Ev := ⟨1159, [.flueCounters], 1, 3⟩
def evHearthFatal : Ev := ⟨1160, [.flueEvents], 0, 7⟩
def evDumpReady : Ev := ⟨1161, [.flueEvents], 1, 5⟩
def evDumpFailed : Ev := ⟨1162, [.flueEvents], 2, 6⟩
def evDbgGranted : Ev := ⟨1163, [.debug], 0, 6⟩
def evDbgRevoked : Ev := ⟨1164, [.debug], 1, 5⟩
def evFlDrop : Ev := ⟨1165, [.flueEvents], 3, 3⟩
def evFlHoldDrop : Ev := ⟨1166, [.flueEvents], 4, 4⟩
def evFlFreezeBroken : Ev := ⟨1167, [.flueEvents], 5, 5⟩
def evAuditHold : Ev := ⟨1168, [.flueEvents], 6, 7⟩
def evTdiError : Ev := ⟨1169, [.functab], 1, 5⟩
def evImageAccepted : Ev := ⟨1184, [.flueEvents], 8, 5⟩
def evImageRejected : Ev := ⟨1185, [.flueEvents], 9, 6⟩
def evLifecycle : Ev := ⟨1186, [.flueEvents], 10, 6⟩
def evHearthStarted : Ev := ⟨1187, [.flueEvents], 11, 2⟩
def evVltBankDeferred : Ev := ⟨1254, [.vault], 0, 4⟩
def evCyclesStuck : Ev := ⟨1255, [.vault], 1, 4⟩
def evFuseProgrammed : Ev := ⟨1256, [.fuse], 0, 6⟩

/-- The chimney events 0 to 5 of R602, all on CHIMNEY.TAMPER. -/
def evTamper (n : Nat) : Ev := ⟨1248 + n, [.tamper], n, [6, 7, 7, 6, 5, 7].getD n 7⟩

/-- The hearth events with their names' order, for an injected raise: bits of each hearth page kind. -/
def hearthEvents : List Ev :=
  [evClassBlocked, evVfResetAbort, evBankDeferred, evSlotStale, evRootChange, evCeDone, evHeDone, evBnDone, evKatFail,
   evMgGrace, evMgStall, evBnInvariant, evBnSaveFail, evPinFails, evHobKatFail, evGrpRollback, evGrpIdle, evGrpAudit,
   evGroupRecovered, evPairFail] ++
  [evSourceFail, evEntRecovered, evRangeReady, evRangeBroken, evMemPoison, evMemIntegrity, evOwnViolation,
   evOwnSyncDone, evMpuViolation, evGateFault, evPwrHeld, evProfileDone, evCtrWrap, evCtrSaturate, evEvrDrop,
   evHoldDrop, evFreezeBroken, evFatalEntry]

def flueEvents : List Ev :=
  [evLinkDegraded, evUnboundAccess, evDamperDrained, evGangTimeout, evGangAborted, evGangRecovered, evFlCtrWrap,
   evFlCtrSaturate, evHearthFatal, evDumpReady, evDumpFailed, evDbgGranted, evDbgRevoked, evFlDrop, evFlHoldDrop] ++
  [evFlFreezeBroken, evAuditHold, evTdiError, evImageAccepted, evImageRejected, evLifecycle, evHearthStarted,
   evTamper 0, evTamper 1, evTamper 2, evTamper 3, evTamper 4, evTamper 5, evVltBankDeferred, evCyclesStuck,
   evFuseProgrammed]

/-- What a record names besides the event (R646). -/
structure Info where
  inst    : Nat := 0xFF
  owner   : Nat := 0
  vf      : Nat := 0x1FF
  payload : Bytes := []
  plen    : Nat := 0
  count   : Nat := 1
  overflow : Bool := false
  deriving DecidableEq, Repr

/-! ### Messages -/

/-- Page EVTROUTE and entry of a global event (R644). -/
def routePage (g : Nat) : Page := pgF .evtroute (if g < 1008 then 0 else 1)
def routeIdx (g : Nat) : Nat := if g < 1008 then g else g - 1008

/-- The messages a routed event sends (R642, R643). -/
def sendMessages (g : Nat) (s : State) : State :=
  let p := routePage g
  let i := routeIdx g
  let s1 := if s.flag p (Reg.RT_PF0_EN i) then sendMsix .pf0 (s.rd p (Reg.RT_PF0_VECTOR i)) s else s
  if s.flag p (Reg.RT_PF1_EN i) then sendMsix .pf1 (s.rd p (Reg.RT_PF1_VECTOR i)) s1 else s1

/-- An event is pending while its bit is set on any of its home pages (R638). -/
def evPending (e : Ev) (unit : Nat) (s : State) : Bool :=
  e.homes.any (fun k => (List.range 32).any (fun i => (s.rd (pgH k unit i) Reg.EVT_STATUS_STATUS).testBit e.bit))

/-- The status bit and the messages of a raise (R638, R643); `unit` is the hearth, or 0 for flue and chimney. -/
def raiseBit (e : Ev) (unit : Nat) (g : Nat) (p : Page) (s : State) : State :=
  let was := evPending e unit s
  let s1 := s.orBit p Reg.EVT_STATUS_STATUS e.bit
  if was then s1 else sendMessages g s1

/-! ### Recorders -/

/-- The zones of a recorder (R645): slots of the general zone, first and last slot bound of the reserved zone. -/
structure Zones where
  general  : Nat
  reserved : Nat
  deriving DecidableEq, Repr

def hearthZones : Zones := ⟨3840, 4096⟩
def flueZones : Zones := ⟨1792, 2048⟩

/-- Slots a record needs (R648). -/
def recSlots (r : Rec) : Nat := if 40 < r.plen then 2 else 1

def usedSlots (z : List Slotted) : List Nat := z.flatMap (fun e => e.slots)

/-- The lowest `k` free slots from `lo`, searching below `lo + fuel`. -/
def freeSlots (used : List Nat) : Nat → Nat → Nat → List Nat
  | 0, _, _ => []
  | _ + 1, _, 0 => []
  | f + 1, lo, k + 1 => if lo ∈ used then freeSlots used f (lo + 1) (k + 1) else lo :: freeSlots used f (lo + 1) k

/-- Removal of the oldest record that `ok` admits. -/
def dropOldest (ok : Rec → Bool) : List Slotted → Option (List Slotted)
  | [] => none
  | e :: r => if ok e.entry then some r else (dropOldest ok r).map (fun t => e :: t)

/-- A record placed in the general zone (R652): a free slot, else over the oldest record of equal or lower severity; while
frozen, audit records in the ring stay (R656). -/
def placeGeneral (cap : Nat) (frozen : Bool) : Nat → List Slotted → Rec → Option (List Slotted)
  | 0, _, _ => none
  | fuel + 1, z, r =>
    let used := usedSlots z
    if used.length + recSlots r ≤ cap then some (z ++ [⟨freeSlots used cap 0 (recSlots r), r⟩])
    else
      match dropOldest (fun x => decide (x.sev ≤ r.sev) && !(frozen && decide (5 ≤ x.sev))) z with
      | some z' => placeGeneral cap frozen fuel z' r
      | none => none

/-- A record placed in the reserved zone (R653): a free slot or none. -/
def placeReserved (zn : Zones) (z : List Slotted) (r : Rec) : Option (List Slotted) :=
  let used := usedSlots z
  if used.length < zn.reserved - zn.general then
    some (z ++ [⟨freeSlots used (zn.reserved - zn.general) zn.general 1, r⟩])
  else none

/-- What became of a record. -/
inductive Placed where
  | kept | dropped | holdDropped | reservedFull
  deriving DecidableEq, Repr

/-- A record into a ring that is not frozen, or an operational record. -/
def placeRing (zn : Zones) (frozen : Bool) (x : Recorder) (r : Rec) : Recorder × Placed :=
  if 6 ≤ r.sev then
    match placeReserved zn x.reserved r with
    | some z => ({ x with reserved := z }, .kept)
    | none => (x, .reservedFull)
  else
    match placeGeneral zn.general frozen 3 x.general r with
    | some z => ({ x with general := z }, .kept)
    | none => (x, .dropped)

/-- The next SEQUENCE (R646): 0xFFFF_FFFE is followed by 0. -/
def nextSeq (n : Nat) : Nat := (n + 1) % 0xFFFFFFFF

/-- Registers of a recorder: HEARTH.EVENTS of a hearth, or FLUE.EVENTS. -/
def recPage (unit : Option Nat) : Page :=
  match unit with
  | some h => pgH .events h
  | none => pgF .flueEvents

def State.recorder (s : State) (unit : Option Nat) : Recorder :=
  match unit with
  | some h => (s.H h).recorder
  | none => s.flue.recorder

def State.setRecorder (s : State) (unit : Option Nat) (r : Recorder) : State :=
  match unit with
  | some h => s.modH h (fun x => { x with recorder := r })
  | none => s.modFlue (fun x => { x with recorder := r })

def recZones (unit : Option Nat) : Zones := if unit.isSome then hearthZones else flueZones

/-- The record of a raise: time, sequence, event word and what the raise names. -/
def mkRec (s : State) (unit : Option Nat) (g : Nat) (e : Ev) (i : Info) : Rec :=
  { time := s.stamp, seq := s.rd (recPage unit) Reg.EVR_SEQ_NEXT, event := g, sev := e.sev, count := i.count,
    overflow := i.overflow, plen := i.plen, owner := i.owner, vf := i.vf, inst := i.inst, payload := i.payload }

/-- One record per held record, drained into the ring in order; the worst outcome is told. -/
def drainHold (zn : Zones) : List Rec → Recorder → Nat → Recorder × Nat × Bool
  | [], x, d => (x, d, false)
  | r :: t, x, d =>
    match placeRing zn false x r with
    | (x', .kept) => drainHold zn t x' d
    | (x', .dropped) => drainHold zn t x' (d + 1)
    | (x', _) => ({ x' with hold := r :: t }, d, true)

/-- A record written to a recorder, with the freeze, hold and drop rules of R651 to R657. The Boolean tells that a
severity 6 or 7 record found no room. -/
def record (unit : Option Nat) (r : Rec) (s : State) : State × Bool × List Ev :=
  let p := recPage unit
  let zn := recZones unit
  let x := s.recorder unit
  let minSev := min (s.rd p Reg.EVR_CTRL_MIN_SEVERITY) 5
  if x.stopped || decide (r.sev < minSev) then (s, false, [])
  else
    let s := s.wr p Reg.EVR_SEQ_NEXT ((List.range (recSlots r)).foldl (fun a _ => nextSeq a) r.seq)
    let frozen := s.flag p Reg.EVR_STATUS_FROZEN
    if frozen && decide (5 ≤ r.sev) then
      if (x.hold.map recSlots).sum + recSlots r ≤ 64 then
        (s.setRecorder unit { x with hold := x.hold ++ [r] }, false, [])
      else if r.sev = 5 then
        (s.bump p Reg.EVR_HOLD_DROPPED_COUNT, false, [if unit.isSome then evHoldDrop else evFlHoldDrop])
      else
        let s := ((s.wr p Reg.EVR_STATUS_FROZEN 0).wr p Reg.EVR_STATUS_FREEZER 0).wr p Reg.EVR_STATUS_FREEZE_BROKEN 1
        let (x1, d, full1) := drainHold zn x.hold { x with hold := [] } 0
        let (x2, res) := placeRing zn false x1 r
        let s := s.wr p Reg.EVR_DROPPED_COUNT (satAdd 32 (s.rd p Reg.EVR_DROPPED_COUNT) d)
        (s.setRecorder unit x2, full1 || res == .reservedFull,
          (if d = 0 then [] else [if unit.isSome then evEvrDrop else evFlDrop]) ++ [if unit.isSome then evFreezeBroken else evFlFreezeBroken])
    else
      match placeRing zn frozen x r with
      | (x', .kept) => (s.setRecorder unit x', false, [])
      | (_, .dropped) => (s.bump p Reg.EVR_DROPPED_COUNT, false, [if unit.isSome then evEvrDrop else evFlDrop])
      | (_, _) => (s, true, [])

/-- A raise's own follow-up event: its status bit, messages, and its record if it finds room (R652). -/
def raiseQuiet (unit : Option Nat) (e : Ev) (s : State) : State :=
  let g := match unit with | some h => h * 72 + e.n | none => e.n
  let p := recPage unit
  let s1 := raiseBit e (unit.getD 0) g p s
  if e = evAuditHold then s1 else (record unit (mkRec s1 unit g e {}) s1).1

/-- The events that a record's own placing raises. A record of theirs that is dropped raises EVR_DROP in turn, whose record is dropped
silently (R652). -/
def raiseFollow (unit : Option Nat) (s : State) (e : Ev) : State :=
  let g := match unit with | some h => h * 72 + e.n | none => e.n
  let s1 := raiseBit e (unit.getD 0) g (recPage unit) s
  let (s2, _, follow) := record unit (mkRec s1 unit g e {}) s1
  if e = evEvrDrop ∨ e = evFlDrop then s2 else follow.foldl (fun a ev => raiseQuiet unit ev a) s2

/-- A flue or chimney event (R640) with the rules of the flue recorder (R654). -/
def raiseFlue (e : Ev) (p : Page) (i : Info) (s : State) : State :=
  let s := raiseBit e 0 e.n p s
  let r := mkRec s none e.n e i
  let (s1, full, follow) := record none r s
  let s2 := follow.foldl (raiseFollow none) s1
  if full then
    let x := s2.recorder none
    if (x.hold.map recSlots).sum + recSlots r ≤ 64 then
      let s3 := s2.setRecorder none { x with hold := x.hold ++ [r], waiting := true }
      if x.waiting then s3 else raiseBit evAuditHold 0 evAuditHold.n (pgF .flueEvents) s3
    else raiseQuiet none evFlHoldDrop (s2.bump (pgF .flueEvents) Reg.EVR_HOLD_DROPPED_COUNT)
  else s2

/-! ### Counters of the flue bank (R620, R621, R625) -/

def ctrPage : Page := pgF .flueCounters

/-- A counter's wrap or saturation bit set; its event is raised when the bit sets. -/
def flagCtr (f : Nat → Fld) (e : Ev) (i : Nat) (s : State) : State :=
  if (s.rd ctrPage (f (i / 32))).testBit (i % 32) then s
  else raiseFlue e ctrPage {} (s.orBit ctrPage (f (i / 32)) (i % 32))

/-- An activity counter of the flue bank. -/
def addFlue (i k : Nat) (s : State) : State :=
  let v := s.flue.ctrs.getD i 0 + k
  let s := s.modFlue (fun x => { x with ctrs := x.ctrs.put i (v % 2 ^ 64) })
  if 2 ^ 64 ≤ v then flagCtr Reg.CTR_WRAP_WRAP evFlCtrWrap i s else s

/-- An error counter of the flue bank. -/
def errFlue (i : Nat) (s : State) : State :=
  let v := satAdd 32 (s.flue.ctrs.getD i 0) 1
  let s := s.modFlue (fun x => { x with ctrs := x.ctrs.put i v })
  if v = 2 ^ 32 - 1 then flagCtr Reg.CTR_SAT_SAT evFlCtrSaturate i s else s

/-- An error counter of the flue bank that a register shows (R636). -/
def errFlueReg (p : Page) (f : Fld) (i : Nat) (s : State) : State :=
  let s := s.bump p f
  if s.rd p f = 2 ^ f.w - 1 then flagCtr Reg.CTR_SAT_SAT evFlCtrSaturate i s else s

/-! ### Captures of refused register accesses (R711, R714) -/

/-- The causes of R711. -/
def cRequester : Nat := 0x8
def cLocked : Nat := 0x9
def cState : Nat := 0xA
def cValue : Nat := 0xB
def cIdentity : Nat := 0xC
def cRead : Nat := 0xD
def cSize : Nat := 0xE

def reqCode : Requester → Nat
  | .pf0 => 0 | .pf1 => 1 | .inner _ => 2 | .outer _ => 3 | .debug => 4 | .vf _ => 5 | .fw => 6

def reqCore : Requester → Nat
  | .inner c => c.val | .outer c => c.val | _ => 0

def reqVf : Requester → Nat
  | .vf v => v.val | _ => 0x1FF

/-- The identity a requester presents (R251, R496). -/
def reqIdentity : Requester → Nat
  | .inner _ => 0xFFF1 | .outer _ => 0xFFF2 | _ => 0

def isInner : Requester → Bool
  | .inner _ => true | _ => false
def isOuter : Requester → Bool
  | .outer _ => true | _ => false

/-- PF0 or the inner world, the writers that many pages name. -/
def mgrOrInner (w : Requester) : Bool := decide (w = .pf0) || isInner w

/-- A refused access captured on its page: the first until VALID is cleared, later ones counted. -/
def capture (p : Page) (who : Requester) (off data ident : Nat) (read : Bool) (cause : Nat) (s : State) : State :=
  if p.kind = .mempath ∨ p.kind = .mpu then s
  else if s.flag p Reg.ERR_CAPTURE3_VALID then s.bump p Reg.ERR_COUNT_COUNT
  else
    let s := ((s.wr p Reg.ERR_CAPTURE0_OFFSET off).wr p Reg.ERR_CAPTURE0_REQUESTER (reqCode who)).wr p
      Reg.ERR_CAPTURE0_CORE (reqCore who)
    let s := ((s.wr p Reg.ERR_CAPTURE0_READ (b2n read)).wr p Reg.ERR_CAPTURE1_DATA data).wr p
      Reg.ERR_CAPTURE2_VF (reqVf who)
    let s := ((s.wr p Reg.ERR_CAPTURE2_IDENTITY ident).wr p Reg.ERR_CAPTURE3_GEN (s.rd p Reg.PAGE_GEN_GEN)).wr p
      Reg.ERR_CAPTURE3_CAUSE cause
    s.wr p Reg.ERR_CAPTURE3_VALID 1

/-- A refused write. -/
def refuse (p : Page) (who : Requester) (off data cause : Nat) (s : State) : State :=
  capture p who off data (reqIdentity who) false cause s

/-- PAGE_GEN after an accepted write that changed a field (R712); the pages of R509 keep their own generation. -/
def bumpGen (p : Page) (s : State) : State :=
  if p.kind = .mpu then s else s.wr p Reg.PAGE_GEN_GEN (s.rd p Reg.PAGE_GEN_GEN + 1)

/-- An accepted write of RW fields: the new values, and PAGE_GEN where one changed. -/
def setFields (p : Page) (fs : List (Fld × Nat)) (s : State) : State :=
  let s' := fs.foldl (fun a e => a.wr p e.1 e.2) s
  if s'.regs = s.regs then s else bumpGen p s'

end Sys2Proof.Machine
end

