-- ==== Sys2Proof/Machine/Groups.lean ====
section
/-! DEFINITION. Atomic groups: their limits, joins, held effects and undoing (R392 to R412), and the coordinator's gangs
(R417 to R420) as far as hearth fatality and resets need them. The opcodes and events of groups are in GroupCmds. -/

namespace Sys2Proof.Machine

/-! ### Hearth positions and the key cache's entries -/

/-- Entries charged to a hearth position (R175, R766). -/
def quotaUsed (x : Hearth) (p : Nat) : Nat :=
  ((x.cache.filter (fun e => e.2.charge == some p)).map (fun e => e.2.extent)).sum

/-- The position of a VF in its hearth (R169). -/
def State.posOf (s : State) (v : Nat) : Nat := (s.vf v).position

def kpPage (h : Nat) : Page := pgH .keypolicy h

/-- The VFs of a hearth as (position, VF) pairs (R177 VALID, VF_INDEX). -/
def State.positions (s : State) (h : Nat) : List (Nat × Nat) :=
  ((List.range 64).filter (fun p => s.flag (kpPage h) (Reg.KP_VALID p))).map
    (fun p => (p, s.rd (kpPage h) (Reg.KP_VF_INDEX p)))

def flagExportable (f : Nat) : Bool := f.testBit 0
def flagGroup (f : Nat) : Bool := f.testBit 1
def flagNonce (f : Nat) : Nat := bits f 2 2
def flagResident (f : Nat) : Bool := f.testBit 4
def flagAnyVf (f : Nat) : Bool := f.testBit 5

/-- The effective VF set of an entry (R170), as a mask of hearth positions. -/
def effSet (s : State) (h : Nat) (e : KeyEntry) : Nat :=
  if flagAnyVf e.attr.flags then
    (s.positions h).foldl (fun m p =>
      if s.rd (kpPage h) (Reg.KP_OWNER_ID p.1) = e.attr.owner then setBit m p.1 true else m) 0
  else e.vfSet

/-! ### Groups -/

def State.group? (s : State) (h g : Nat) : Option Group := (s.H h).groups.find? g

def State.modGroup (s : State) (h g : Nat) (f : Group → Group) : State :=
  s.modH h (fun x => { x with groups := x.groups.upd g f })

/-- The journal entries a group uses (R404). -/
def journalUse (g : Group) : Nat :=
  1 + (g.actions.map (fun a => 1 + (if a.slot.isSome then 2 else 0) + (if a.event.isSome then 1 else 0))).sum

def journalTotal (x : Hearth) : Nat := (x.groups.map (fun p => journalUse p.2)).sum

/-- Held output bytes of a group (R404). -/
def groupHeld (g : Group) : Nat := (g.actions.map (fun a => a.heldBytes)).sum

def heldTotal (x : Hearth) : Nat := (x.groups.map (fun p => groupHeld p.2)).sum

/-- An action has finished: HELD, or failed with its own status. -/
def Action.finished (a : Action) : Bool := a.held || a.failed.isSome

def Group.allDone (g : Group) : Bool := g.actions.all Action.finished

/-- The group has been resolved or is being resolved. -/
def Group.resolving (g : Group) : Bool := g.state == .committing || g.state == .rollingBack

/-- The action list with a change of one action. -/
def Group.modAction (g : Group) (r : ActionRef) (f : Action → Action) : Group :=
  { g with actions := g.actions.map (fun a => if a.ref = r then f a else a) }

/-- DOOMED, where the group still accepts work (R408). -/
def Group.doom (g : Group) : Group :=
  if g.state = .opened ∨ g.state = .sealed then { g with state := .doomed } else g

/-- What a join finds (R408, R404): joined, or refused with a status; dooming as the rules say. -/
inductive JoinResult where
  | joined | refused (status : Nat)
  deriving DecidableEq, Repr

/-- The join of an action to a group (R398, R404, R408); `extra` is the journal use beyond one entry, `slot` tells a
fixed-slot update. An action that completes at once is counted without a reference to a job. -/
def joinGroup (h g : Nat) (r : ActionRef) (vf : Option Nat) (extra : Nat) (slot : Bool) (s : State) : State × JoinResult :=
  match s.group? h g with
  | none => (s, .refused stGroupUnknown)
  | some x =>
    if x.vf ≠ vf then (s, .refused stGroupUnknown)
    else if x.state = .prepared ∨ x.state = .committing then (s, .refused stGroupConflict)
    else if x.state = .rollingBack then (s, .refused stGroupRolledBack)
    else
      let exceeds :=
        decide (64 ≤ x.actions.length) || decide (1024 < journalTotal (s.H h) + 1 + extra)
          || (slot && decide (8 ≤ (x.actions.filter (fun a => a.slot.isSome)).length))
      let beyond := match x.count with
        | some c => decide (x.state = GroupState.sealed ∧ c ≤ x.actions.length)
        | none => false
      if exceeds then (s.modGroup h g (fun x => x.doom), .refused stGroupLimit)
      else
        let a : Action := { ref := r }
        let gone : Action := { ref := .job 4096 }
        if beyond then
          (s.modGroup h g (fun x => { x.doom with actions := x.actions ++ [{ gone with failed := some stGroupConflict }], idleMs := 0 }),
            .refused stGroupConflict)
        else if x.state = GroupState.doomed then
          (s.modGroup h g (fun x =>
            { x with actions := x.actions ++ [{ gone with failed := some stGroupRolledBack }], idleMs := 0 }),
            .refused stGroupRolledBack)
        else (s.modGroup h g (fun x => { x with actions := x.actions ++ [a], idleMs := 0 }), .joined)

/-- An action whose descriptor or policy check fails: its completion waits for no group (R21), but it is one of the group's
actions, and the group is doomed (R392, R408). -/
def failAction (h g vf status : Nat) (s : State) : State :=
  match s.group? h g with
  | none => s
  | some x =>
    if x.vf ≠ some vf ∨ x.state = .prepared ∨ x.resolving then s
    else if 64 ≤ x.actions.length ∨ 1024 < journalTotal (s.H h) + 1 then s.modGroup h g (fun x => x.doom)
    else s.modGroup h g (fun x =>
      { x.doom with actions := x.actions ++ [{ ref := .job 4096, failed := some status }], idleMs := 0 })

/-- The group an action belongs to: a joined action's completion waits for it. -/
def groupHas (s : State) (h g : Nat) (r : ActionRef) : Bool :=
  match s.group? h g with
  | some x => x.actions.any (fun a => a.ref = r)
  | none => false

/-- The effects of one action undone (R392, R393): the insert freed, the mark removed, the use returned. NONCE_CTR stays. -/
def undoAction (x : Hearth) (a : Action) : Hearth :=
  let x := match a.insert with
    | some i => { x with cache := x.cache.del i }
    | none => x
  let x := match a.evict with
    | some i => { x with cache := x.cache.upd i (fun e => { e with marked := none }) }
    | none => x
  a.uses.foldl (fun x i => { x with cache := x.cache.upd i (fun e => { e with uses := e.uses - 1 }) }) x

/-! ### Jobs of the inner world -/

/-- First entry that only the inner world's jobs may take (R18). -/
def hostEntries : Nat := 2016

/-- The codes of R20. -/
def jobCode : JobState → Nat
  | .fetched => 1 | .keywait => 2 | .ready => 3 | .running => 4 | .yielded => 5 | .held => 6 | .completing => 7

/-- The state of an entry of the job table: 0 FREE. An inner-world job runs from its creation to its end. -/
def Hearth.entryState (x : Hearth) (j : Nat) : Nat :=
  match x.jobs.find? j, x.inner.find? j with
  | some jb, _ => jobCode jb.state
  | none, some _ => 4
  | none, none => 0

/-- STK_STATUS.JOBS_INUSE (R30). -/
def Hearth.jobsInUse (x : Hearth) : Nat := x.jobs.length + x.inner.length

/-- An inner-world job still has its purpose: its job waits for the unwrap, or its unit is under test. -/
def innerLives (x : Hearth) : InnerJob → Bool
  | .unwrap j r => match x.jobs.find? j with
    | some jb => jb.state == .keywait && jb.awaiting.contains r
    | none => false
  | .kat u => (x.eng u).katRunning

/-- The unwraps that the jobs in KEYWAIT still need, in the order of their fetches. -/
def wantedUnwraps (x : Hearth) : List InnerJob :=
  let waits := x.jobs.filter (fun p => p.2.state == .keywait)
  (waits.mergeSort (fun p q => decide (p.2.seq ≤ q.2.seq))).flatMap (fun p => p.2.awaiting.map (fun r => .unwrap p.1 r))

/-- An inner-world job in the lowest free entry of its own (R18), where one is free. -/
def addInner (x : Hearth) (i : InnerJob) : Hearth :=
  if x.inner.any (fun e => e.2 == i) then x
  else match x.inner.lowestFree hostEntries 2048 with
    | some k => { x with inner := x.inner.put k i }
    | none => x

/-- STK_STATUS.HIGH_WATER follows JOBS_INUSE (R30). -/
def noteJobs (h : Nat) (s : State) : State :=
  let f := Reg.STK_STATUS_HIGH_WATER
  s.wr (pgH .stoker h) f (max (s.H h).jobsInUse (s.rd (pgH .stoker h) f))

/-- The inner world's entries after a change: finished jobs leave, and the unwraps that jobs wait for take the free entries in
the order of their fetches (R18, R20). -/
def fillInner (h : Nat) (s : State) : State :=
  noteJobs h (s.modH h (fun x =>
    let x := { x with inner := x.inner.filter (fun e => innerLives x e.2) }
    (wantedUnwraps x).foldl addInner x))

/-! ### The end of a job -/

/-- The output a job would hold in its group: its data, and a blob that waits for the commit (R392, R395, R404). -/
def heldOutput (jb : Job) : Nat := jb.outData.length + ((jb.ddrOut.map (fun p => p.2.length)).getD 0)

/-- A job's end inside or outside a group (R17, R392): COMPLETING at once, or HELD until the group resolves. In a group that
is already rolling back, the effects are undone at once. -/
def endJob (h j status : Nat) (s : State) : State :=
  match s.job? h j with
  | none => s
  | some jb =>
    let r := ActionRef.job j
    if jb.group = 0 ∨ !jb.joined ∨ !groupHas s h jb.group r then
      s.modJob h j (fun x => { x with state := .completing, status := status, units := [] })
    else
      match s.group? h jb.group with
      | none => s
      | some g =>
        if g.state = .rollingBack then
          let s := match g.actions.find? (fun a => a.ref = r) with
            | some a => s.modH h (fun x => undoAction x a)
            | none => s
          let st := if status = stOK then g.cause else status
          let s := s.modGroup h jb.group (fun g => g.modAction r (fun a => { ref := a.ref, failed := some st }))
          s.modJob h j (fun x => { x with
            state := .completing, units := [], outData := [], result := if st = stVerifyFailed then x.result else [],
            hasResult := st == stVerifyFailed && x.hasResult, hasNonce := false, ddrOut := none, status := st })
        else
          let s := s.modJob h j (fun x => { x with state := .held, status := status, units := [] })
          let exceeds := decide (524288 < groupHeld g + heldOutput jb) || decide (16777216 < heldTotal (s.H h) + heldOutput jb)
          let status := if status = stOK ∧ exceeds then stGroupLimit else status
          if status = stOK then
            s.modGroup h jb.group (fun g => { (g.modAction r (fun a =>
              { a with held := true, heldBytes := heldOutput jb })) with idleMs := 0 })
          else
            (s.modJob h j (fun x => { x with status := status })).modGroup h jb.group (fun g =>
              { (g.modAction r (fun a => { a with failed := some status })).doom with idleMs := 0 })

/-- The end of a job, after which its unwraps leave the inner world's entries (R18). -/
def finishJob (h j status : Nat) (s : State) : State := fillInner h (endJob h j status s)

/-- The class 1, 2 or other refusal of a job before it runs: no engine is held. -/
def failJob (h j status : Nat) (s : State) : State := finishJob h j status s

/-- A job names an entry: by a CACHE reference of its descriptor (R73), or by a blob reference that was unwrapped into it. -/
def namesEntry (j : Job) (idx : Nat) : Bool :=
  [0x10, 0x20, 0x30].any (fun o => byteAt j.desc o == 1 && fieldLe j.desc (o + 2) 2 == idx)
    || j.unwrapped.any (fun p => p.2 == idx)

/-- An entry freed, and the jobs that wait for it (R172). -/
def freeEntry (h idx : Nat) (s : State) : State :=
  let s := s.modH h (fun x => { x with cache := x.cache.del idx })
  ((s.H h).jobs.filter (fun p => (p.2.state == .keywait || p.2.state == .ready) && namesEntry p.2 idx)).foldl
    (fun s p => failJob h p.1 stKeyNotFound s) s

/-! ### Gangs -/

def State.modGang (s : State) (stack tag : Nat) (f : Gang → Gang) : State :=
  s.modFlue (fun x => { x with gangs := x.gangs.map (fun g => if g.stack = stack ∧ g.tag = tag then f g else g) })

def State.gang? (s : State) (stack tag : Nat) : Option Gang :=
  s.flue.gangs.find? (fun g => g.stack = stack ∧ g.tag = tag)

/-- The coordinator takes a withdrawal, an abort vote or a hearth-down notice of hearth `h` (R418, R420): before DECIDING
the gang aborts; from DECIDING on nothing changes. -/
def gangAbort (r : GangRef) (h : Nat) (s : State) : State :=
  match s.gang? r.stack r.tag with
  | none => s
  | some g =>
    if g.state = .forming ∨ g.state = .preparing then
      let s := s.modGang r.stack r.tag (fun g => { g with state := .aborting, culprit := setBit g.culprit h true })
      let s := errFlueReg (pgF .gang) Reg.GANG_ABORTS_COUNT 100 s
      raiseFlue evGangAborted (pgF .gang) {} s
    else s

/-- A hearth's member has finished with its gang: aborted and rolled back, or applied (R417). -/
def gangMemberDone (r : GangRef) (h : Nat) (s : State) : State :=
  let s := s.modGang r.stack r.tag (fun g => { g with done := setBit g.done h true })
  s.modFlue (fun x => { x with gangs := x.gangs.filter (fun g =>
    !((g.state == .aborting && g.opened &&& g.done == g.opened)
      || (g.state == .committed && g.parts &&& g.done == g.parts))) })

/-- The decision record of a unit and tag; for a local group, one its hearth has not yet applied, since GROUP_IDs start
again with the hearth (R399, R413). -/
def State.decision? (s : State) (kind unit tag : Nat) : Option (Nat × Decision) :=
  List.find? (fun (p : Nat × Decision) =>
    p.2.kind == kind && p.2.unit == unit && p.2.tag == tag && (kind == 2 || p.2.applied == 0)) s.chim.vault.records

/-- The group's outcome is already recorded in the vault, or its gang has reached DECIDING (R98, R418). -/
def decided (s : State) (h gid : Nat) (g : Group) : Bool :=
  match g.gang with
  | some r =>
    match s.gang? r.stack r.tag with
    | some x => x.state == .deciding || x.state == .committed
    | none => (s.decision? 2 r.stack r.tag).isSome
  | none => g.state == .committing || (s.decision? 1 h gid).isSome

/-- A group asked to roll back from outside (damper, FLR, abort, idle limit): OPEN, SEALED and DOOMED go to ROLLING_BACK;
PREPARED sends its withdrawal (R408). -/
def startRollback (h gid : Nat) (s : State) : State :=
  match s.group? h gid with
  | none => s
  | some g =>
    if g.state = .opened ∨ g.state = .sealed ∨ g.state = .doomed then
      if decided s h gid g then s
      else
        let s := s.modGroup h gid (fun g => { g with
          state := .rollingBack, cause := stGroupRolledBack,
          commitStatus := stGroupRolledBack })
        match g.gang with
        | some r => gangAbort r h s
        | none => s
    else if g.state = .prepared then
      match g.gang with
      | some r => gangAbort r h s
      | none => s
    else s

/-- A joined action whose completion is not yet written. -/
def actionLeft (s : State) (h gid : Nat) (a : Action) : Bool :=
  match a.ref with
  | .job k =>
    match s.job? h k with
    | some j => j.joined && j.group == gid
    | none => false
  | .admin k => (s.flue.held.find? k).isSome

/-- A group control opcode whose completion is not yet written. -/
def controlLeft (s : State) (h gid : Nat) (c : Option CtlRef) : Bool :=
  match c with
  | some (.job k) =>
    match s.job? h k with
    | some j => fieldLe j.desc 0 2 / 256 == 7 && fieldLe j.desc 8 2 == gid
    | none => false
  | some (.admin _ k) => (s.flue.held.find? k).isSome
  | none => false

/-- The open groups of a VF in a hearth. -/
def groupsOf (s : State) (h : Nat) (vf : Option Nat) : List Nat :=
  ((s.H h).groups.filter (fun p => p.2.vf == vf)).map (fun p => p.1)

end Sys2Proof.Machine
end

