-- ==== Sys2Proof/Machine/Complete.lean ====
section
/-! DEFINITION. Completion entries and interrupts (R76 to R86), the completions of administration requests, the damper's
drain (R96 to R100), the TDI's ERROR state (R122), entry to fatal state (R39, R662) and the raise of hearth events. -/

namespace Sys2Proof.Machine

/-! ### Completion entries -/

/-- The Shaim 2 status of a Shaim 3 status (R132). -/
def status8 (st : Nat) : Nat :=
  if st = stOK then 0x00
  else if st = stUnsupported then 0x02
  else if st = stKeyNotFound then 0x10
  else if st = stKeyUsage ∨ st = stKeyOwner ∨ st = stNotExportable ∨ st = stCacheFull ∨ st = stBlobVersion then 0x11
  else if st = stKeyExpired then 0x12
  else if st = stUsageLimit ∨ st = stNonceExhausted then 0x13
  else if st = stSlotFrozen ∨ st = stSlotCounter then 0x14
  else if st / 0x1000 = 1 then 0x01
  else if st / 0x1000 = 3 then 0x20
  else if st / 0x1000 = 4 then 0x30
  else if st / 0x1000 = 6 then 0x40
  else if st / 0x1000 = 7 then 0x50
  else if st / 0x1000 = 8 then 0x60
  else 0xFF

/-- What a completion entry says (R76). -/
structure Entry where
  tag    : Nat := 0
  status : Nat := 0
  len    : Nat := 0
  nonce  : Bool := false
  hasRes : Bool := false
  group  : Bool := false
  result : Bytes := []
  compat : Bool := false
  deriving DecidableEq, Repr

/-- The 32 bytes of a completion entry (R76, R127). -/
def entryBytes (e : Entry) (sqHead seq : Nat) (phase : Bool) : Bytes :=
  let fl := b2n phase + (if e.compat then 0 else 2 * b2n e.nonce) + 4 * b2n e.hasRes
    + (if e.compat then 0 else 8 * b2n e.group)
  toLe 4 e.tag ++ toLe 2 (if e.compat then status8 e.status else e.status) ++ toLe 2 sqHead ++ toLe 3 e.len
    ++ [byte fl] ++ toLe 4 seq ++ slice e.result 0 16

/-- The function whose memory a queue pair lies in. -/
def qFunc : Queue → Func
  | .vf v _ => .vf v.val
  | .admin _ => .pf0

/-- Base of the completion queue. -/
def State.cqBase (s : State) (t : Queue) : Nat :=
  2 ^ 32 * s.qrd t Reg.CQ_BASE_HI_ADDR + 4096 * s.qrd t Reg.CQ_BASE_LO_ADDR

/-- Base of the submission queue. -/
def State.sqBase (s : State) (t : Queue) : Nat :=
  2 ^ 32 * s.qrd t Reg.SQ_BASE_HI_ADDR + 4096 * s.qrd t Reg.SQ_BASE_LO_ADDR

/-- The interrupt of a queue pair (R86). -/
def raiseVector (t : Queue) (s : State) : State :=
  sendMsix (qFunc t) (s.qrd t Reg.QP_CFG_VECTOR) (s.modQp t (fun q => { q with unsignalled := 0 }))

/-- One completion entry written, and the interrupt that coalescing allows (R76, R78, R84, R86). -/
def postCompletion (t : Queue) (e : Entry) (suppress : Bool) (s : State) : State :=
  let q := s.qp t
  let s1 := s.emit (.hostWrite (qFunc t) false (s.cqBase t + 32 * q.cqTail) (entryBytes e q.sqHead q.seq q.phase))
  let wrap := decide (s.cqDepth t ≤ q.cqTail + 1)
  let s2 := s1.modQp t (fun q =>
    { q with cqTail := if wrap then 0 else q.cqTail + 1, phase := q.phase != wrap, seq := (q.seq + 1) % 2 ^ 32, occ := q.occ + 1 })
  if suppress then s2
  else
    let n := q.unsignalled + 1
    if n < s.qrd t Reg.QP_COAL_COUNT then s2.modQp t (fun q => { q with unsignalled := n }) else raiseVector t s2

/-- The writes of output data to a buffer or along a scatter list (R84), in list order; `relaxed` is the attribute they carry
(R85). -/
def scatter (fn : Func) (relaxed : Bool) : List SgEntry → Bytes → List Output
  | [], _ => []
  | e :: r, d => if d.isEmpty then [] else .hostWrite fn relaxed e.addr (d.take e.len) :: scatter fn relaxed r (d.drop e.len)

/-! ### Administration requests that complete later -/

/-- An administration completion with its output, in the order of R84. -/
def postAdmin (q : Nat) (tag status : Nat) (group : Bool) (result out : Bytes) (dst : List SgEntry) (suppress : Bool)
    (s : State) : State :=
  let s := { s with out := s.out ++ scatter .pf0 (s.relaxed .pf0) dst out }
  postCompletion (.admin (Fin.ofNat 4 q))
    { tag := tag, status := status, len := out.length, hasRes := !result.isEmpty, group := group, result := result }
    suppress s

/-- Work of a queue pair is under way: a job in the table, or a request of an administration queue that is held. -/
def State.queueBusy (s : State) : Queue → Bool
  | .vf v q => (s.H (s.ft v Reg.FT_HEARTH)).jobs.any (fun p => p.2.vf == v.val && p.2.qp == q.val)
  | .admin q => s.flue.held.any (fun p => p.2.queue == q.val)

/-- ACTIVE clears where the queue pair is disabled and nothing of it is under way (R60, R65). -/
def restQueue (t : Queue) (s : State) : State :=
  if s.queueBusy t ∨ (s.qp t).reading ∨ s.qrd t Reg.QP_CTRL_ENABLE = 1 then s else s.qwr t Reg.QP_STATUS_ACTIVE 0

/-- A waiting administration request completed and forgotten; `outcome` is the RESULT of one that failed. -/
def closeAdmin (key status : Nat) (group : Bool) (outcome : Bytes) (s : State) : State :=
  match s.flue.held.find? key with
  | none => s
  | some a =>
    let s := s.modFlue (fun x => { x with held := x.held.del key })
    let ok := status = stOK
    let s := postAdmin a.queue a.hostTag status group (if ok then a.result else outcome) (if ok then a.out else []) a.outAddr
      (a.flags.testBit 4) s
    restQueue (.admin (Fin.ofNat 4 a.queue)) s

def finishAdmin (key status : Nat) (group : Bool) (s : State) : State := closeAdmin key status group [] s

/-- The CLOSE_WAITs that wait for a VF, completed (R110). -/
def finishWaits (v status : Nat) (s : State) : State :=
  ((s.flue.held.filter (fun p => p.2.isWait && p.2.vf == v)).map (fun p => p.1)).foldl
    (fun s k => finishAdmin k status false s) s

/-! ### The damper -/

/-- Jobs of a VF in the job table of its hearth. -/
def State.vfJobs (s : State) (v : Nat) : List Nat :=
  ((s.H (s.ft v Reg.FT_HEARTH)).jobs.filter (fun p => p.2.vf == v)).map (fun p => p.1)

/-- DAMPER_DRAINED_PEND (R100): word i of 32 bits. -/
def Reg.DAMPER_DRAINED_PEND (i : Nat) : Fld := ⟨0x040 + 4 * i, 0, 32, .w1c, 0⟩

/-- Entry to DRAINED (R97, R100, R110). -/
def enterDrained (v : Nat) (s : State) : State :=
  let s := s.setDamper v dampDrained
  let s := raiseFlue evDamperDrained (pgF .damper) { vf := v, owner := s.ft v Reg.FT_OWNER_ID } s
  let s := s.orBit (pgF .damper) (Reg.DAMPER_DRAINED_PEND (v / 32)) (v % 32)
  finishWaits v stOK s

/-- Descriptor reads of a VF that are issued and have not returned (R98). -/
def State.readsOf (s : State) (v : Nat) : Nat := (s.flue.qps.filter (fun p => p.1 / 8 == v && p.2.reading)).length

/-- A closing damper drains when the VF's last job has left the table (R97), no descriptor read of the VF being on its way (R98). -/
def checkDrain (v : Nat) (s : State) : State :=
  if s.damper v = dampClosing ∧ (s.vfJobs v).isEmpty ∧ s.readsOf v = 0 then enterDrained v s else s

/-- Entry to CLOSING (R98): open groups roll back. -/
def enterClosing (v : Nat) (s : State) : State :=
  let h := s.ft v Reg.FT_HEARTH
  let s := s.setDamper v dampClosing
  let s := (groupsOf s h (some v)).foldl (fun s g => startRollback h g s) s
  checkDrain v s

/-- A locked TDI enters ERROR (R122). -/
def tdiError (v : Nat) (s : State) : State :=
  if (s.vf v).tdi = .locked ∨ (s.vf v).tdi = .run then
    let s := (s.modVf v (fun x => { x with tdi := .error })).setFt v Reg.FT_TDI_LOCKED 0
    let s := raiseFlue evTdiError (ftPage v) { vf := v, owner := s.ft v Reg.FT_OWNER_ID } s
    if s.damper v = dampOpen ∨ s.damper v = dampThrottled then enterClosing v s else s
  else s

/-! ### Fatal state -/

/-- Group outcome that a fatal hearth or a reset tells in RESULT bytes 0 and 1 (R424): 0x0001 committed, 0x0002 rolled back. -/
def groupOutcome (s : State) (h gid : Nat) (g : Group) : Nat := if decided s h gid g then 1 else 2

/-- The group whose action or waiting control opcode a job is. -/
def groupOfJob (x : Hearth) (j : Nat) (jb : Job) : Option (Nat × Group) :=
  List.find? (fun (p : Nat × Group) => (jb.joined && p.1 == jb.group)
    || (p.2.commit == some (CtlRef.job j) || p.2.abort == some (CtlRef.job j)) && fieldLe jb.desc 8 2 == p.1) x.groups

/-- The outcome that a job's completion carries, 0 outside a group. -/
def fatalOutcome (s : State) (h j : Nat) (jb : Job) : Nat :=
  match groupOfJob (s.H h) j jb with
  | some (gid, g) => groupOutcome s h gid g
  | none => 0

/-- Every job of the hearth completes with a status (R39, R424); engines, held keys and outputs are dropped. -/
def failAllJobs (h status : Nat) (s : State) : State :=
  fillInner h (s.modH h (fun x => { x with jobs := x.jobs.mapVals (fun k j =>
    let o := fatalOutcome s h k j
    { j with
      state := .completing, status := status, units := [], outData := [], ddrOut := none, hasNonce := false,
      hasResult := decide (o ≠ 0), result := if o = 0 then [] else toLe 2 o, joined := false
      lostGroup := j.joined && decide (o ≠ 0) }) }))

/-- The groups of a hearth end (R424): gangs before DECIDING are withdrawn, administration members complete with the
status. -/
def endGroups (h status : Nat) (s : State) : State :=
  let gs := (s.H h).groups
  let s := gs.foldl (fun s p =>
    match p.2.gang with
    | some r => if decided s h p.1 p.2 then s else gangAbort r h s
    | none => s) s
  let s := gs.foldl (fun s p =>
    let o := toLe 2 (groupOutcome s h p.1 p.2)
    let keys := p.2.actions.filterMap (fun a => match a.ref with | .admin k => some k | .job _ => none)
    let ctl := [p.2.commit, p.2.abort].filterMap (fun c => match c with | some (.admin _ k) => some k | _ => none)
    ctl.foldl (fun s k => closeAdmin k status false o s) (keys.foldl (fun s k => closeAdmin k status true o s) s)) s
  let s := gs.foldl (fun s p =>
    match p.2.gang with
    | some r => gangMemberDone r h s
    | none => s) s
  s.modH h (fun x =>
    { (gs.foldl (fun x p => if p.2.state = .committing then x else p.2.actions.foldl undoAction x) x) with groups := [] })

/-- Engine state after the jobs of a hearth are gone: the stoker holds nothing. -/
def dropEngines (x : Hearth) : Hearth :=
  { x with
    engines := x.engines.mapVals (fun _ e =>
      if e.holder = 1 then
        { e with job := none, holder := 0, owner := 0, keysLoaded := false, paused := false, saving := false,
                 restoring := false, yieldReq := false }
      else { e with job := none }) }

/-- The fatal causes of R662. -/
def fatReservedFull : Nat := 1
def fatRange0Broken : Nat := 2
def fatRange0Stuck : Nat := 3
def fatFirmware : Nat := 4
def fatLockup : Nat := 5

/-- The event HEARTH_FATAL_ENTRY, recorded if the recorder has room, without further consequence. -/
def raiseFatalEntry (h cause : Nat) (s : State) : State :=
  let s := raiseBit evFatalEntry h (h * 72 + evFatalEntry.n) (pgH .events h) s
  (record (some h) (mkRec s (some h) (h * 72 + evFatalEntry.n) evFatalEntry { inst := h, payload := [byte h, byte cause] }) s).1

/-- Entry of a hearth to fatal state (R39, R122, R424, R662): core 0 enters the handler through an INTERRUPT from the outer world, at
INNER_VEC otherwise. -/
def enterFatal (h cause : Nat) (s : State) : State :=
  if (s.H h).fatal.isSome ∨ !s.enabled h then s
  else
    let ip := pgH .gate h
    let vec := 2 ^ 32 * s.rd ip Reg.INNER_VEC_HI_ADDR + 2 * s.rd ip Reg.INNER_VEC_LO_ADDR
    let s := s.setHState h hsFatal
    let s := raiseFatalEntry h cause s
    let s := s.modH h (fun x =>
      { x with
        fatal := some cause
        recorder := { x.recorder with stopped := true }
        dump := { x.dump with handler := true, time := s.stamp, lastSeq := s.rd (pgH .events h) Reg.EVR_SEQ_NEXT } })
    let s := failAllJobs h stFatal s
    let s := endGroups h stFatal s
    let s := s.modH h dropEngines
    let s := [1, 2, 3].foldl (fun s c => s.modCore h c (fun x => { x with halted := true })) s
    let s := s.modCore h 0 (fun x =>
      let y := { x with halted := false, haltAgain := false, transit := none, world := .inner, machine := true, wfi := false
                        pc := BitVec.ofNat 64 vec }
      if x.world = .outer then
        { y with bank := (List.range 31).map (x.regs.getD · 0) ++ [x.pc], bankMachine := x.machine, banked := true, entry := 3
                 regs := List.replicate 31 0 }
      else y)
    let s := raiseFlue evHearthFatal (pgF .flueEvents) { inst := h, payload := [byte h, byte cause] } s
    (s.boundVfs h).foldl (fun s v => tdiError v s) s

/-- A hearth event (R638, R643, R653): status bit, messages, record; a full reserved zone is fatal. -/
def raiseH (h : Nat) (e : Ev) (p : Page) (i : Info) (s : State) : State :=
  let g := h * 72 + e.n
  let s := raiseBit e h g p s
  let r := mkRec s (some h) g e i
  let (s1, full, follow) := record (some h) r s
  let s2 := follow.foldl (raiseFollow (some h)) s1
  if full then
    enterFatal h fatReservedFull (s2.modH h (fun x => { x with recorder := { x.recorder with lost := some r } }))
  else s2

/-! ### Counters of a hearth's bank (R620, R621, R624) -/

def hCtrPage (h : Nat) : Page := pgH .counters h

def flagHCtr (h : Nat) (f : Nat → Fld) (e : Ev) (i : Nat) (s : State) : State :=
  if (s.rd (hCtrPage h) (f (i / 32))).testBit (i % 32) then s
  else raiseH h e (hCtrPage h) {} (s.orBit (hCtrPage h) (f (i / 32)) (i % 32))

/-- An activity counter. -/
def addCtr (h i k : Nat) (s : State) : State :=
  let v := (s.H h).ctrs.getD i 0 + k
  let s := s.modH h (fun x => { x with ctrs := x.ctrs.put i (v % 2 ^ 64) })
  if 2 ^ 64 ≤ v then flagHCtr h Reg.H_CTR_WRAP_WRAP evCtrWrap i s else s

/-- Derivations of the hearth's derivation unit (R138, R624). -/
def derived (h k : Nat) (s : State) : State := addCtr h 152 k s

/-- An error counter. -/
def errCtr (h i : Nat) (s : State) : State :=
  let v := satAdd 32 ((s.H h).ctrs.getD i 0) 1
  let s := s.modH h (fun x => { x with ctrs := x.ctrs.put i v })
  if v = 2 ^ 32 - 1 then flagHCtr h Reg.H_CTR_SAT_SAT evCtrSaturate i s else s

/-- An error counter that a register shows (R636). -/
def errReg (h : Nat) (p : Page) (f : Fld) (i : Nat) (s : State) : State :=
  let s := s.bump p f
  if s.rd p f = 2 ^ f.w - 1 then flagHCtr h Reg.H_CTR_SAT_SAT evCtrSaturate i s else s

/-! ### Pulses towards a hearth and its wake (R614 to R619)

The flue's clock runs whenever pulses reach it, so the crossings towards it never overflow (R615, R619). -/

/-- The crossings that carry pulses towards a hearth whose clock is stopped, by their bits in CTR_XOVF (R616). -/
def xDoorbells : Nat := 0
def xBankings : Nat := 2

/-- A delivered count at its destination (R615, R616, R624): doorbells add to counter 149; a banking makes the key cache's pass due and
starts a reload of the shadow (R137, R147). -/
def feedPulse (h b k : Nat) (s : State) : State :=
  if b = xDoorbells then addCtr h 149 k s
  else s.modH h (fun x => { x with bankWait := true, reloading := x.shadow.isSome })

/-- A pulse towards a hearth: delivered while hc runs, held on its source's side while hc is stopped (R614, R617), not started
towards a hearth without power or in reset (R619). -/
def sendPulse (h b : Nat) (s : State) : State :=
  if s.up h then feedPulse h b 1 s
  else if s.answers h then s.modH h (fun x => { x with cross := x.cross.put b (x.cross.getD b {}).pulse })
  else s

/-- A crossing's transfers after hc has started again: the one in flight, then the pending count, with OVERFLOW (R614, R615). -/
def deliverCrossing (h b : Nat) (c : Crossing) (s : State) : State :=
  let s := if c.inFlight = 0 then s else feedPulse h b c.inFlight s
  let s := if c.pending = 0 then s else feedPulse h b c.pending s
  if c.overflow then errCtr h 209 (s.orBit (hCtrPage h) Reg.H_CTR_XOVF_XOVF b) else s

def deliverPulses (h : Nat) (s : State) : State :=
  if !s.up h then s
  else (s.H h).cross.foldl (fun s p => deliverCrossing h p.1 p.2 s) (s.modH h (fun x => { x with cross := [] }))

/-- A crossing or an access wakes a hearth in H1 or H2 (R542, R617, R732). -/
def wakeHearth (h : Nat) (s : State) : State :=
  if (s.H h).power = 1 then s.modH h (fun x => { x with power := 0 })
  else if (s.H h).power = 2 then deliverPulses h (s.modH h exitH2)
  else s

/-- A register access to a hearth's page: none where the hearth cannot answer, else after the wake. -/
def onHearth (h : Nat) (f : State → State) (s : State) : State := if s.answers h then f (wakeHearth h s) else s

/-- The bytes of ERR_CAPTURE0 to ERR_CAPTURE3 and ERR_COUNT of a page (R647). -/
def captureBytes (p : Page) (s : State) : Bytes :=
  let w := fun (off : Nat) => ((captureFields ++ mpuCaptureFields).filter (fun r =>
      decide (r.fld.off = off) && ((mpuCaptureFields.contains r) == (decide (p.kind = .mpu) || decide (p.kind = .mempath))))).foldl
    (fun a r => a + s.rd p r.fld * 2 ^ r.fld.lo) 0
  toLe 4 (w 0x20) ++ toLe 4 (w 0x24) ++ toLe 4 (w 0x28) ++ toLe 4 (w 0x2C) ++ [byte (s.rd p Reg.ERR_COUNT_COUNT)]

/-! ### The end of a job's stay in the table -/

/-- A host job removed from the table: its transient keys freed (R174), its save slot and fence released, its queue pair
possibly no longer ACTIVE (R65). -/
def removeJob (h j : Nat) (s : State) : State :=
  match s.job? h j with
  | none => s
  | some jb =>
    let s := s.modH h (fun x =>
      { x with
        jobs := x.jobs.del j
        cache := jb.unwrapped.foldl (fun c t => if 7680 ≤ t.2 then c.del t.2 else c) x.cache
        saves := x.saves.mapVals (fun _ sl => if sl.job = some j then {} else sl) })
    let s := fillInner h s
    let t := jobQueue jb
    let s := if s.queueBusy t then s else s.modQp t (fun q => { q with fence := none })
    restQueue t s

end Sys2Proof.Machine
end

