-- ==== Sys2Proof/Machine/Life.lean ====
section
/-! DEFINITION. The lifecycle (R694 to R702): the fuse state that the lifecycle words spell, the effective state, and the
image kinds and host service each state allows. -/

namespace Sys2Proof.Machine

/-! The codes of LC_STATE (R695). -/
def lcBlank : Nat := 0
def lcVendorTest : Nat := 1
def lcProvisioned : Nat := 2
def lcOwned : Nat := 3
def lcOperational : Nat := 4
def lcDecommissioned : Nat := 5
def lcQuenched : Nat := 6

/-- A lifecycle word reads blown where at least 24 of its 32 fuses are (R702). -/
def wordBlown (f : Fuses) (w : Nat) : Bool := decide (24 ≤ f.lcWords.getD w 0)

/-- The last blown word, in order; none is BLANK. -/
def lastWord (f : Fuses) : Nat → Nat
  | 0 => 0
  | w + 1 => if wordBlown f (w + 1) then w + 1 else lastWord f w

/-- The fuse state (R702, R706): a destroyed identity seed reads as DECOMMISSIONED, whatever the words show. -/
def fuseState (s : State) : Nat :=
  if s.chim.fuses.seed.isNone then lcDecommissioned else lastWord s.chim.fuses 5

/-- LC_STATE.PARTIAL: the word after the state's holds 1 to 23 blown fuses (R702). -/
def lcPartial (s : State) : Bool :=
  let n := s.chim.fuses.lcWords.getD (fuseState s + 1) 0
  decide (1 ≤ n ∧ n < 24)

/-- The effective state (R695, R570). -/
def lcState (s : State) : Nat :=
  let f := fuseState s
  if (f = lcOwned ∨ f = lcOperational) ∧ !s.chim.vault.valid then lcQuenched else f

def inVendorTest (s : State) : Bool := lcState s == lcVendorTest

/-! ### Regimes and pins (R567, R599, R600) -/

/-- The regimes of R567. -/
inductive Regime where
  | main | standby | battery | dead
  deriving DecidableEq, Repr

def regimeOf (c : Chimney) : Regime :=
  if c.main then .main
  else match c.supply with
    | .vaon => .standby
    | .vbat => .battery
    | .none => if c.holding then .battery else .dead

def movePin (name : String) (was now : Bool) (s : State) : State := if was == now then s else s.emit (.pin name now)

/-- ALARM_N and TAMPER_OUT as LEVEL, the sticky flags, the lifecycle and the supply make them. -/
def refreshPins (s : State) : State :=
  let a := decide (s.chim.vault.level = 0) || regimeOf s.chim == .dead
  let o := s.chim.supply == .vaon && (s.chim.vault.sticky != 0 || lcState s == lcQuenched)
  let s' := s.modChim (fun c => { c with alarmN := a, tamperOut := o })
  movePin "TAMPER_OUT" s.chim.tamperOut o (movePin "ALARM_N" s.chim.alarmN a s')

/-! ### Enables -/

/-- Debug enables dropped as by REVOKE (R539, R540): II_PENDING with II; a core halted in a world that no invasive enable
covers any more runs again (DEDUCED). -/
def dropEnables (h mask : Nat) (s : State) : State :=
  let x := s.H h
  let gone := x.enables &&& mask
  let pend := x.iiPending && mask.testBit 3
  if gone = 0 ∧ !pend then s
  else
    let en := x.enables ^^^ gone
    let left := x.iiPending && !mask.testBit 3
    let s := s.modH h (fun x => { x with
      enables := en, iiPending := left
      dbgExpiry := if en = 0 ∧ !left then 0 else x.dbgExpiry
      cores := if x.fatal.isSome then x.cores else x.cores.mapVals (fun _ c =>
        { c with halted := c.halted && en.testBit (if c.world = .outer then 1 else 3) }) })
    raiseFlue evDbgRevoked (pgF .debug) { inst := h } s

/-- Every enable of every hearth dropped (R540). -/
def dropAllEnables (s : State) : State := s.hearthList.foldl (fun s h => dropEnables h 15 s) s

/-- A move of the fuse state: enables drop and LIFECYCLE_CHANGE is raised (R540, R696). -/
def lifecycleMoved (s : State) : State := raiseFlue evLifecycle (pgF .flueEvents) {} (dropAllEnables s)

end Sys2Proof.Machine
end

