-- ==== Sys2Proof/Machine/Queues.lean ====
section
/-! DEFINITION. Doorbells and the set-up of queue pairs (R46 to R66), accesses to unbound VFs (R48), and the interrupt time
limit (R86). -/

namespace Sys2Proof.Machine

def errDoorbell : Nat := 1
def errCqHead : Nat := 2
def errFetch : Nat := 3
def errConfig : Nat := 4

/-- The queue pair enters error with a code (R58, R59, R66). -/
def qpError (t : Queue) (code : Nat) (s : State) : State :=
  (s.qwr t Reg.QP_STATUS_ERROR 1).qwr t Reg.QP_STATUS_ERR_CODE code

/-- The VF exists: VF Enable is set and its index is below NumVFs (R46). -/
def State.vfExists (s : State) (v : Nat) : Bool := s.flue.vfEnable && decide (v < s.flue.numVfs)

/-- An access to the doorbells or queue registers of an unbound VF (R48): dropped, counted, and an event. -/
def unboundAccess (v : Nat) (s : State) : State :=
  let s := s.modFlue (fun x => { x with unbound := satAdd 32 x.unbound 1 })
  raiseFlue evUnboundAccess (ftPage v) { vf := v } (errFlue 96 s)

/-- Whether the flue passes an access to a queue pair on: the flue runs, and a VF exists and is bound (R46 to R48, R677). -/
inductive Reach where
  | ok | unbound (v : Nat) | none
  deriving DecidableEq, Repr

def reach (t : Queue) (s : State) : Reach :=
  if !s.flueUp then .none
  else match t with
    | .admin _ => .ok
    | .vf v _ => if !s.vfExists v then .none else if s.bound v then .ok else .unbound v

/-- The hearth that a queue pair's VF is bound to. -/
def qHearth (t : Queue) (s : State) : Option Nat :=
  match t with
  | .vf v _ => some (s.ft v Reg.FT_HEARTH)
  | .admin _ => none

/-- A doorbell wakes a hearth in H2 whose AUTO_WAKE is set (R544). -/
def autoWake (h : Nat) (s : State) : State :=
  if (s.H h).power = 2 ∧ s.flag (pgH .power h) Reg.PWR_CTRL_AUTO_WAKE then
    (s.wr (pgH .power h) Reg.PWR_CTRL_TARGET 0).modH h (fun x => { x with pwrTarget := 0 })
  else s

/-- The doorbell at an offset of the BAR0 of PF0 or of a VF (R56, R724): its queue pair, and whether it is the one of the
completion-queue head. The other offsets are reserved; PF0 has four queues. -/
def doorbellAt (fn : Option (Fin 512)) (off : Nat) : Option (Queue × Bool) :=
  let q := off / 0x100
  if off % 0x100 ≠ 0 ∧ off % 0x100 ≠ 8 then none
  else match fn with
    | some v => if q < 8 then some (.vf v (Fin.ofNat 8 q), off % 0x100 == 8) else none
    | none => if q < 4 then some (.admin (Fin.ofNat 4 q), off % 0x100 == 8) else none

/-- The queue pair of a number, of PF0 or of a VF: PF0 has four. -/
def pairAt (fn : Option (Fin 512)) (q : Fin 8) : Option Queue := (doorbellAt fn (0x100 * q.val)).map (·.1)

/-- A read of a reserved offset or of an unbound VF's doorbell returns zero (R48, R717). -/
def readZero (acc : DoorAccess) (s : State) : State :=
  match acc with
  | .read => s.emit (.readData (zeros 4))
  | .write _ _ => s

/-- An access to a doorbell (R48, R57): a read returns the index last accepted; a write passes the checks on its size, four bytes,
and on its upper half, zero. -/
def doorbell (t : Queue) (acc : DoorAccess) (last : Nat) (f : Nat → State → State) (s : State) : State :=
  match reach t s with
  | .none => s
  | .unbound v => readZero acc (unboundAccess v s)
  | .ok =>
    match acc with
    | .read => s.emit (.readData (toLe 4 last))
    | .write size data =>
      if size.val ≠ 4 ∨ 0x10000 ≤ data.toNat then
        errFlue 97 (s.qwr t Reg.QP_STATUS_DROPPED_WRITES (satAdd 8 (s.qrd t Reg.QP_STATUS_DROPPED_WRITES) 1))
      else f data.toNat s

/-- An accepted tail (R57, R58, R99). -/
def acceptTail (t : Queue) (n : Nat) (s : State) : State :=
  if s.sqDepth t ≤ n then qpError t errDoorbell s
  else
    let s := s.modQp t (fun q => { q with sqTail := n })
    match qHearth t s with
    | some h => autoWake h (addFlue (16 + h) 1 (sendPulse h xDoorbells s))
    | none => s

/-- An accepted completion head (R58): it may not pass the last entry written. -/
def acceptHead (t : Queue) (n : Nat) (s : State) : State :=
  let q := s.qp t
  let d := s.cqDepth t
  let k := (n + d - q.cqHead % d) % d
  if d ≤ n ∨ q.occ < k then qpError t errCqHead s
  else s.modQp t (fun q => { q with cqHead := n, occ := q.occ - k })

def doSqTail (t : Queue) (acc : DoorAccess) (s : State) : State := doorbell t acc (s.qp t).sqTail (acceptTail t) s

def doCqHead (t : Queue) (acc : DoorAccess) (s : State) : State := doorbell t acc (s.qp t).cqHead (acceptHead t) s

/-- An access to a reserved doorbell offset reads zero and writes nothing (R56, R717). -/
def reservedDoor (fn : Option (Fin 512)) (acc : DoorAccess) (s : State) : State :=
  let there := match fn with
    | some v => s.flueUp && s.vfExists v
    | none => s.flueUp
  if there then readZero acc s else s

/-- An access to a submission-queue tail doorbell; at the offset of a head doorbell it is CQ_HEAD_DOORBELL's. -/
def execSqTailDoorbell (fn : Option (Fin 512)) (off : BitVec 12) (acc : DoorAccess) (s : State) : Result :=
  .next (match doorbellAt fn off.toNat with
    | some (t, false) => doSqTail t acc s
    | some (_, true) => s
    | none => reservedDoor fn acc s)

/-- An access to a completion-queue head doorbell; at the offset of a tail doorbell it is SQ_TAIL_DOORBELL's. -/
def execCqHeadDoorbell (fn : Option (Fin 512)) (off : BitVec 12) (acc : DoorAccess) (s : State) : Result :=
  .next (match doorbellAt fn off.toNat with
    | some (t, true) => doCqHead t acc s
    | some (_, false) => s
    | none => reservedDoor fn acc s)

/-- R48: an access to the doorbells or queue registers of a VF that exists and is unbound reads zero and is counted. -/
def execUnboundVfAccess (v : VfAccess) (s : State) : Result :=
  .next (if s.flueUp && s.vfExists v.vf && !s.bound v.vf then
    let s := unboundAccess v.vf s
    if v.read then s.emit (.readData (zeros 4)) else s
  else s)

/-- A grant and configuration that R62 accepts. -/
def cfgValid (t : Queue) (s : State) : Bool :=
  let sq := s.qrd t Reg.QP_CFG_SQ_LOG2
  let cq := s.qrd t Reg.QP_CFG_CQ_LOG2
  (match t with
    | .vf v q => decide (q.val < s.ft v Reg.FT_QP_GRANT)
    | .admin _ => true)
  && decide (4 ≤ sq ∧ sq ≤ 16) && decide (4 ≤ cq ∧ cq ≤ 16)

/-- Setting QP_CTRL.ENABLE (R62, R63, R99, R126). -/
def enableQp (t : Queue) (s : State) : State :=
  if s.qrd t Reg.QP_CTRL_ENABLE = 1 then s
  else if cfgValid t s then
    let s := (s.qwr t Reg.QP_CTRL_ENABLE 1).qwr t Reg.QP_STATUS_ACTIVE 1
    let s := (s.qwr t Reg.QP_STATUS_ERROR 0).qwr t Reg.QP_STATUS_ERR_CODE 0
    let s := s.modQp t (fun _ => {})
    match qHearth t s with
    | some h => s.modH h (fun x => { x with compatLock := true })
    | none => s
  else qpError t errConfig s

/-- Clearing QP_CTRL.ENABLE (R65): ACTIVE clears at once where no job of the queue pair is in a table and no read of it is on its
way. -/
def disableQp (t : Queue) (s : State) : State := restQueue t (s.qwr t Reg.QP_CTRL_ENABLE 0)

def onQueue (t : Queue) (f : State → State) (s : State) : State :=
  match reach t s with
  | .ok => f s
  | .unbound v => unboundAccess v s
  | .none => s

def execQpEnable (t : Queue) (s : State) : Result := .next (onQueue t (enableQp t) s)

def execQpDisable (t : Queue) (s : State) : Result := .next (onQueue t (disableQp t) s)

/-- The time limit after the first unsignalled completion (R86). -/
def coalTimeout (t : Queue) (s : State) : State :=
  if 0 < (s.qp t).unsignalled ∧ 0 < s.qrd t Reg.QP_COAL_TIME then raiseVector t s else s

def execQpCoalTimeout (fn : Option (Fin 512)) (q : Fin 8) (s : State) : Result :=
  .next (match pairAt fn q with
    | some t => coalTimeout t s
    | none => s)

end Sys2Proof.Machine
end

