-- ==== Sys2Proof/Machine/Hash.lean ====
section
/-! DEFINITION. The hash functions SHA-2 (FIPS 180-4), SHA-1, SHA-3 and SHAKE (FIPS 202), and HMAC (FIPS 198-1), which the
spec uses by name. Their constants are computed from their definitions. -/

namespace Sys2Proof.Machine

/-- The largest `r` below `2 ^ n` with `f r ≤ x`, for a rising `f`. -/
def rootAux (f : Nat → Nat) (x : Nat) : Nat → Nat → Nat
  | 0, r => r
  | n + 1, r => rootAux f x n (if f (r + 2 ^ n) ≤ x then r + 2 ^ n else r)

def isqrt (n x : Nat) : Nat := rootAux (fun r => r * r) x n 0
def icbrt (n x : Nat) : Nat := rootAux (fun r => r * r * r) x n 0

def firstPrimes (n : Nat) : List Nat :=
  ((List.range 420).filter (fun p => 2 ≤ p ∧ (List.range 21).all (fun d => d < 2 ∨ p ≤ d ∨ p % d ≠ 0))).take n

def rotr (w x n : Nat) : Nat := (x / 2 ^ n) ||| (x * 2 ^ (w - n) % 2 ^ w)
def rotl (w x n : Nat) : Nat := (x * 2 ^ n % 2 ^ w) ||| (x / 2 ^ (w - n))
def notW (w x : Nat) : Nat := 2 ^ w - 1 - x

/-- The parameters of one width of SHA-2: word bits, the constants of the rounds and the rotation amounts. -/
structure Sha2 where
  w : Nat
  k : List Nat
  s0 : Nat × Nat × Nat
  s1 : Nat × Nat × Nat
  b0 : Nat × Nat × Nat
  b1 : Nat × Nat × Nat

def sha2w32 : Sha2 :=
  { w := 32, k := (firstPrimes 64).map (fun p => icbrt 40 (p * 2 ^ 96) % 2 ^ 32)
    s0 := (7, 18, 3), s1 := (17, 19, 10), b0 := (2, 13, 22), b1 := (6, 11, 25) }

def sha2w64 : Sha2 :=
  { w := 64, k := (firstPrimes 80).map (fun p => icbrt 72 (p * 2 ^ 192) % 2 ^ 64)
    s0 := (1, 8, 7), s1 := (19, 61, 6), b0 := (28, 34, 39), b1 := (14, 18, 41) }

/-- A small sigma of the message schedule: two rotations and a shift. -/
def sha2Sigma (w x : Nat) (r : Nat × Nat × Nat) : Nat := rotr w x r.1 ^^^ rotr w x r.2.1 ^^^ (x / 2 ^ r.2.2)

/-- A large sigma of the rounds: three rotations. -/
def sha2Sum (w x : Nat) (r : Nat × Nat × Nat) : Nat := rotr w x r.1 ^^^ rotr w x r.2.1 ^^^ rotr w x r.2.2

/-- One round: the working variables, and the next sixteen words of the message schedule. -/
def sha2Round (P : Sha2) (x : List Nat × List Nat) (k : Nat) : List Nat × List Nat :=
  let m := 2 ^ P.w
  match x with
  | ([a, b, c, d, e, f, g, h], w :: ws) =>
    let t1 := (h + sha2Sum P.w e P.b1 + ((e &&& f) ^^^ (notW P.w e &&& g)) + k + w) % m
    let t2 := sha2Sum P.w a P.b0 + ((a &&& b) ^^^ (a &&& c) ^^^ (b &&& c))
    ([(t1 + t2) % m, a, b, c, (d + t1) % m, e, f, g],
      ws ++ [(w + sha2Sigma P.w (ws.getD 0 0) P.s0 + ws.getD 8 0 + sha2Sigma P.w (ws.getD 13 0) P.s1) % m])
  | x => x

def sha2Block (P : Sha2) (h : List Nat) (blk : Bytes) : List Nat :=
  List.zipWith (fun a b => (a + b) % 2 ^ P.w) h (P.k.foldl (sha2Round P) (h, (chunks (P.w / 8) blk).map beNat)).1

/-- Merkle-Damgård padding: one bit, zeros, the bit length big-endian. -/
def mdPad (blk len : Nat) (msg : Bytes) : Bytes :=
  let z := (blk - (msg.length + 1 + len) % blk) % blk
  msg ++ [0x80] ++ zeros z ++ toBe len (8 * msg.length)

def sha2 (P : Sha2) (iv : List Nat) (out : Nat) (msg : Bytes) : Bytes :=
  let bl := 2 * P.w
  let h := (chunks bl (mdPad bl (P.w / 4) msg)).foldl (sha2Block P) iv
  (h.flatMap (toBe (P.w / 8))).take out

def sha256 (m : Bytes) : Bytes :=
  sha2 sha2w32 ((firstPrimes 8).map (fun p => isqrt 40 (p * 2 ^ 64) % 2 ^ 32)) 32 m
def sha224 (m : Bytes) : Bytes :=
  sha2 sha2w32 (((firstPrimes 16).drop 8).map (fun p => isqrt 72 (p * 2 ^ 128) % 2 ^ 32)) 28 m
def sha512 (m : Bytes) : Bytes :=
  sha2 sha2w64 ((firstPrimes 8).map (fun p => isqrt 72 (p * 2 ^ 128) % 2 ^ 64)) 64 m
def sha384 (m : Bytes) : Bytes :=
  sha2 sha2w64 (((firstPrimes 16).drop 8).map (fun p => isqrt 72 (p * 2 ^ 128) % 2 ^ 64)) 48 m

/-- The initial value of SHA-512/t (FIPS 180-4, 5.3.6). -/
def sha512tIv (name : Bytes) : List Nat :=
  let iv := (firstPrimes 8).map (fun p => (isqrt 72 (p * 2 ^ 128) % 2 ^ 64) ^^^ 0xa5a5a5a5a5a5a5a5)
  (chunks 8 (sha2 sha2w64 iv 64 name)).map beNat
def sha512_256 (m : Bytes) : Bytes := sha2 sha2w64 (sha512tIv (ascii "SHA-512/256")) 32 m
def sha512_224 (m : Bytes) : Bytes := sha2 sha2w64 (sha512tIv (ascii "SHA-512/224")) 28 m

def sha1Block (h : List Nat) (blk : Bytes) : List Nat :=
  let m := 2 ^ 32
  let w0 := (chunks 4 blk).map beNat
  let ws := (List.range 64).foldl (fun (a : Array Nat) i =>
    let t := i + 16
    a.push (rotl 32 (a[t - 3]! ^^^ a[t - 8]! ^^^ a[t - 14]! ^^^ a[t - 16]!) 1)) w0.toArray
  let r := (List.range 80).foldl (fun (v : List Nat) t =>
    match v with
    | [a, b, c, d, e] =>
      let (f, k) :=
        if t < 20 then ((b &&& c) ^^^ (notW 32 b &&& d), 0x5a827999)
        else if t < 40 then (b ^^^ c ^^^ d, 0x6ed9eba1)
        else if t < 60 then ((b &&& c) ^^^ (b &&& d) ^^^ (c &&& d), 0x8f1bbcdc)
        else (b ^^^ c ^^^ d, 0xca62c1d6)
      [(rotl 32 a 5 + f + e + k + ws[t]!) % m, a, rotl 32 b 30, c, d]
    | v => v) h
  List.zipWith (fun a b => (a + b) % m) h r

def sha1 (m : Bytes) : Bytes :=
  ((chunks 64 (mdPad 64 8 m)).foldl sha1Block
    [0x67452301, 0xefcdab89, 0x98badcfe, 0x10325476, 0xc3d2e1f0]).flatMap (toBe 4)

/-! Keccak. -/

/-- One step of the round-constant register. -/
def keccakLfsr (r : Nat) : Nat := if r < 128 then 2 * r else (2 * r) ^^^ 0x171

def keccakRC : Array Nat :=
  ((List.range 24).foldl (fun (p : List Nat × Nat) _ =>
    let q := (List.range 7).foldl (fun (q : Nat × Nat) j =>
      (if q.2 % 2 = 1 then q.1 + 2 ^ (2 ^ j - 1) else q.1, keccakLfsr q.2)) (0, p.2)
    (p.1 ++ [q.1], q.2)) ([], 1)).1.toArray

/-- The rotation of lane (x, y), held at x + 5 y. -/
def keccakRot : Array Nat :=
  ((List.range 24).foldl (fun (p : Array Nat × Nat × Nat) t =>
    let (a, x, y) := p
    (a.set! (x + 5 * y) ((t + 1) * (t + 2) / 2 % 64), y, (2 * x + 3 * y) % 5))
    (Array.replicate 25 0, 1, 0)).1

def keccakRound (a : Array Nat) (i : Nat) : Array Nat :=
  let c := (List.range 5).map (fun x => a[x]! ^^^ a[x + 5]! ^^^ a[x + 10]! ^^^ a[x + 15]! ^^^ a[x + 20]!)
  let d := (List.range 5).map (fun x => c.getD ((x + 4) % 5) 0 ^^^ rotl 64 (c.getD ((x + 1) % 5) 0) 1)
  let b := (List.range 25).foldl (fun (b : Array Nat) k =>
    let x := k % 5
    let y := k / 5
    b.set! (y + 5 * ((2 * x + 3 * y) % 5)) (rotl 64 (a[k]! ^^^ d.getD x 0) (keccakRot[k]!))) (Array.replicate 25 0)
  let e := (List.range 25).map (fun k =>
    let x := k % 5
    let y := k / 5 * 5
    b[k]! ^^^ (notW 64 (b[(x + 1) % 5 + y]!) &&& b[(x + 2) % 5 + y]!))
  match e with
  | h :: t => ((h ^^^ keccakRC[i]!) :: t).toArray
  | [] => #[]

def keccakF (a : Array Nat) : Array Nat := (List.range 24).foldl keccakRound a

def keccakXor (a : Array Nat) (blk : Bytes) : Array Nat :=
  ((chunks 8 blk).zipIdx).foldl (fun a p => a.set! p.2 (a[p.2]! ^^^ leNat p.1)) a

def keccakSqueeze (rate : Nat) : Nat → Array Nat → Bytes
  | 0, _ => []
  | n + 1, a => (a.toList.flatMap (toLe 8)).take rate ++ keccakSqueeze rate n (keccakF a)

/-- The sponge: rate in bytes, domain byte, output length. -/
def keccak (rate dom out : Nat) (msg : Bytes) : Bytes :=
  let z := (rate - (msg.length + 1) % rate) % rate
  let p := msg ++ (if z = 0 then [byte (dom + 128)] else [byte dom] ++ zeros (z - 1) ++ [0x80])
  let a := (chunks rate p).foldl (fun a b => keccakF (keccakXor a b)) (Array.replicate 25 0)
  (keccakSqueeze rate (out / rate + 1) a).take out

def sha3_224 (m : Bytes) : Bytes := keccak 144 6 28 m
def sha3_256 (m : Bytes) : Bytes := keccak 136 6 32 m
def sha3_384 (m : Bytes) : Bytes := keccak 104 6 48 m
def sha3_512 (m : Bytes) : Bytes := keccak 72 6 64 m
def shake128 (out : Nat) (m : Bytes) : Bytes := keccak 168 31 out m
def shake256 (out : Nat) (m : Bytes) : Bytes := keccak 136 31 out m

/-- HMAC over a hash with a block of `blk` bytes. -/
def hmac (h : Bytes → Bytes) (blk : Nat) (key msg : Bytes) : Bytes :=
  let k := padTo blk (if blk < key.length then h key else key)
  h (k.map (· ^^^ 0x5c) ++ h (k.map (· ^^^ 0x36) ++ msg))

end Sys2Proof.Machine
end

