-- ==== Sys2Proof/Machine/Lattice.lean ====
section
/-! DEFINITION. ML-KEM (FIPS 203) and ML-DSA (FIPS 204), which the spec names (R189, R347, R353). Polynomials are arrays of
256 coefficients. A rejection sampler reads a fixed long stretch of its XOF output; the chance that it is too short is
negligible and the missing coefficients would be 0. -/

namespace Sys2Proof.Machine

abbrev Poly := Array Nat

def polyZero : Poly := Array.replicate 256 0

def polyZip (f : Nat → Nat → Nat) (a b : Poly) : Poly := Array.zipWith f a b

/-- The lowest `n` bits of a number in reverse order. -/
def bitRev (n v : Nat) : Nat := (List.range n).foldl (fun a i => 2 * a + b2n (v.testBit i)) 0

/-- `d`-bit coefficients packed little-endian. -/
def polyPack (d : Nat) (a : Poly) : Bytes :=
  toLe (32 * d) (a.foldr (fun c acc => acc * 2 ^ d + c % 2 ^ d) 0)

def polyUnpack (d : Nat) (b : Bytes) : Poly :=
  let v := leNat b
  ((List.range 256).map (fun i => v / 2 ^ (d * i) % 2 ^ d)).toArray

/-! ML-KEM. -/

def kq : Nat := 3329

structure KemParams where
  k : Nat
  eta1 : Nat
  eta2 : Nat
  du : Nat
  dv : Nat
  deriving DecidableEq, Repr

def kemParams (set : Nat) : KemParams :=
  if set = 512 then ⟨2, 3, 2, 10, 4⟩ else if set = 768 then ⟨3, 2, 2, 10, 4⟩ else ⟨4, 2, 2, 11, 5⟩

/-- One layer-by-layer butterfly pass: `len` halves from 128 to 2; `z` gives the root of block `i`. -/
def nttPass (q : Nat) (zeta : Nat → Nat) (lens : List Nat) (a : Poly) : Poly :=
  (lens.foldl (fun (p : Poly × Nat) len =>
    let blocks := 128 / len
    ((List.range blocks).foldl (fun (f : Poly) b =>
      let z := zeta (p.2 + b)
      let s := 2 * len * b
      (List.range len).foldl (fun (f : Poly) j =>
        let t := z * f[s + j + len]! % q
        let u := f[s + j]!
        (f.set! (s + j + len) ((u + q - t) % q)).set! (s + j) ((u + t) % q)) f) p.1, p.2 + blocks)) (a, 1)).1

def nttInvPass (q ninv : Nat) (zeta : Nat → Nat) (lens : List Nat) (top : Nat) (a : Poly) : Poly :=
  let r := (lens.foldl (fun (p : Poly × Nat) len =>
    let blocks := 128 / len
    ((List.range blocks).foldl (fun (f : Poly) b =>
      let z := zeta (p.2 - b)
      let s := 2 * len * b
      (List.range len).foldl (fun (f : Poly) j =>
        let t := f[s + j]!
        let u := f[s + j + len]!
        (f.set! (s + j) ((t + u) % q)).set! (s + j + len) (z * ((u + q - t) % q) % q)) f) p.1, p.2 - blocks)) (a, top)).1
  r.map (fun c => c * ninv % q)

def powModN (b e m : Nat) : Nat := (List.range e).foldl (fun r _ => r * b % m) 1

def kemZetas : Array Nat := ((List.range 128).map (fun i => powModN 17 (bitRev 7 i) kq)).toArray
def kemGammas : Array Nat := ((List.range 128).map (fun i => powModN 17 (2 * bitRev 7 i + 1) kq)).toArray

def kemNtt (a : Poly) : Poly := nttPass kq (fun i => kemZetas[i]!) [128, 64, 32, 16, 8, 4, 2] a
def kemNttInv (a : Poly) : Poly := nttInvPass kq 3303 (fun i => kemZetas[i]!) [2, 4, 8, 16, 32, 64, 128] 127 a

def kemMul (a b : Poly) : Poly :=
  ((List.range 128).flatMap (fun i =>
    let a0 := a[2 * i]!
    let a1 := a[2 * i + 1]!
    let b0 := b[2 * i]!
    let b1 := b[2 * i + 1]!
    [(a0 * b0 + a1 * b1 % kq * kemGammas[i]!) % kq, (a0 * b1 + a1 * b0) % kq])).toArray

def kemAdd : Poly → Poly → Poly := polyZip (fun x y => (x + y) % kq)
def kemSub : Poly → Poly → Poly := polyZip (fun x y => (x + kq - y) % kq)

def kemSampleNtt (seed : Bytes) : Poly :=
  let s := shake128 2016 seed
  let cs := (chunks 3 s).flatMap (fun t =>
    let d1 := byteAt t 0 + 256 * (byteAt t 1 % 16)
    let d2 := byteAt t 1 / 16 + 16 * byteAt t 2
    [d1, d2])
  padPoly ((cs.filter (· < kq)).take 256)
where padPoly (l : List Nat) : Poly := (l ++ List.replicate (256 - l.length) 0).toArray

def kemCbd (eta : Nat) (b : Bytes) : Poly :=
  let v := leNat b
  ((List.range 256).map (fun i =>
    let x := popCount eta (v / 2 ^ (2 * eta * i))
    let y := popCount eta (v / 2 ^ (2 * eta * i + eta))
    (x + kq - y) % kq)).toArray

def kemPrf (eta : Nat) (s : Bytes) (n : Nat) : Bytes := shake256 (64 * eta) (s ++ [byte n])

def kemMatrix (P : KemParams) (rho : Bytes) (i j : Nat) : Poly :=
  let _ := P
  kemSampleNtt (rho ++ [byte j, byte i])

def kemDot (k : Nat) (f g : Nat → Poly) : Poly :=
  (List.range k).foldl (fun a j => kemAdd a (kemMul (f j) (g j))) polyZero

def compressTo (d x : Nat) : Nat := (x * 2 ^ d + (kq - 1) / 2) / kq % 2 ^ d
def decompressFrom (d y : Nat) : Nat := (y * kq + 2 ^ (d - 1)) / 2 ^ d

/-- K-PKE key generation: the encapsulation key and the encoded secret vector. -/
def kpkeKeyGen (P : KemParams) (d : Bytes) : Bytes × Bytes :=
  let g := sha3_512 (d ++ [byte P.k])
  let rho := g.take 32
  let sg := g.drop 32
  let s := ((List.range P.k).map (fun i => kemNtt (kemCbd P.eta1 (kemPrf P.eta1 sg i)))).toArray
  let e := ((List.range P.k).map (fun i => kemNtt (kemCbd P.eta1 (kemPrf P.eta1 sg (P.k + i))))).toArray
  let t := (List.range P.k).map (fun i => kemAdd (kemDot P.k (kemMatrix P rho i) (fun j => s[j]!)) (e[i]!))
  (t.flatMap (polyPack 12) ++ rho, s.toList.flatMap (polyPack 12))

def kpkeEnc (P : KemParams) (ek m r : Bytes) : Bytes :=
  let t := (List.range P.k).map (fun i => (polyUnpack 12 (slice ek (384 * i) 384)).map (· % kq)) |>.toArray
  let rho := ek.drop (384 * P.k)
  let y := ((List.range P.k).map (fun i => kemNtt (kemCbd P.eta1 (kemPrf P.eta1 r i)))).toArray
  let e1 := fun i => kemCbd P.eta2 (kemPrf P.eta2 r (P.k + i))
  let e2 := kemCbd P.eta2 (kemPrf P.eta2 r (2 * P.k))
  let u := (List.range P.k).map (fun i =>
    kemAdd (kemNttInv (kemDot P.k (fun j => kemMatrix P rho j i) (fun j => y[j]!))) (e1 i))
  let mu := (polyUnpack 1 m).map (decompressFrom 1)
  let v := kemAdd (kemAdd (kemNttInv (kemDot P.k (fun j => t[j]!) (fun j => y[j]!))) e2) mu
  u.flatMap (fun p => polyPack P.du (p.map (compressTo P.du))) ++ polyPack P.dv (v.map (compressTo P.dv))

def kpkeDec (P : KemParams) (dk c : Bytes) : Bytes :=
  let u := ((List.range P.k).map (fun i =>
    kemNtt ((polyUnpack P.du (slice c (32 * P.du * i) (32 * P.du))).map (decompressFrom P.du)))).toArray
  let v := (polyUnpack P.dv (c.drop (32 * P.du * P.k))).map (decompressFrom P.dv)
  let s := fun i => polyUnpack 12 (slice dk (384 * i) 384)
  let w := kemSub v (kemNttInv (kemDot P.k s (fun j => u[j]!)))
  polyPack 1 (w.map (compressTo 1))

/-- The encapsulation key of the seed d‖z. -/
def kemEk (P : KemParams) (dz : Bytes) : Bytes := (kpkeKeyGen P (dz.take 32)).1

/-- Encapsulation with the random message m: the shared secret and the ciphertext. -/
def kemEncaps (P : KemParams) (ek m : Bytes) : Bytes × Bytes :=
  let g := sha3_512 (m ++ sha3_256 ek)
  (g.take 32, kpkeEnc P ek m (g.drop 32))

/-- Decapsulation, with implicit rejection. -/
def kemDecaps (P : KemParams) (dz c : Bytes) : Bytes :=
  let (ek, dk) := kpkeKeyGen P (dz.take 32)
  let m := kpkeDec P dk c
  let g := sha3_512 (m ++ sha3_256 ek)
  if kpkeEnc P ek m (g.drop 32) = c then g.take 32 else shake256 32 (dz.drop 32 ++ c)

/-- The modulus check of FIPS 203 on an encapsulation key. -/
def kemEkValid (P : KemParams) (ek : Bytes) : Bool :=
  (List.range P.k).all (fun i => (polyUnpack 12 (slice ek (384 * i) 384)).all (· < kq))

def kemCtLen (P : KemParams) : Nat := 32 * (P.du * P.k + P.dv)
def kemEkLen (P : KemParams) : Nat := 384 * P.k + 32

/-! ML-DSA. -/

def dq : Nat := 8380417

structure DsaParams where
  k : Nat
  l : Nat
  eta : Nat
  tau : Nat
  lam : Nat
  g1 : Nat
  g2 : Nat
  beta : Nat
  omega : Nat
  deriving DecidableEq, Repr

def dsaParams (set : Nat) : DsaParams :=
  if set = 44 then ⟨4, 4, 2, 39, 128, 2 ^ 17, (dq - 1) / 88, 78, 80⟩
  else if set = 65 then ⟨6, 5, 4, 49, 192, 2 ^ 19, (dq - 1) / 32, 196, 55⟩
  else ⟨8, 7, 2, 60, 256, 2 ^ 19, (dq - 1) / 32, 120, 75⟩

def dsaZetas : Array Nat := ((List.range 256).map (fun i => powModN 1753 (bitRev 8 i) dq)).toArray
def dsaNtt (a : Poly) : Poly := nttPass dq (fun i => dsaZetas[i]!) [128, 64, 32, 16, 8, 4, 2, 1] a
def dsaNttInv (a : Poly) : Poly :=
  nttInvPass dq 8347681 (fun i => dsaZetas[i]!) [1, 2, 4, 8, 16, 32, 64, 128] 255 a
def dsaAdd : Poly → Poly → Poly := polyZip (fun x y => (x + y) % dq)
def dsaSub : Poly → Poly → Poly := polyZip (fun x y => (x + dq - y) % dq)
def dsaMul : Poly → Poly → Poly := polyZip (fun x y => x * y % dq)

/-- The distance of a coefficient from 0 modulo q. -/
def dsaAbs (c : Nat) : Nat := if c ≤ (dq - 1) / 2 then c else dq - c
def dsaNorm (a : Poly) : Nat := a.foldl (fun m c => max m (dsaAbs c)) 0

def dsaRejNtt (seed : Bytes) : Poly :=
  let s := shake128 1680 seed
  let cs := (chunks 3 s).map (fun t => byteAt t 0 + 256 * byteAt t 1 + 65536 * (byteAt t 2 % 128))
  kemSampleNtt.padPoly ((cs.filter (· < dq)).take 256)

def dsaRejBounded (eta : Nat) (seed : Bytes) : Poly :=
  let s := shake256 1088 seed
  let cs := s.flatMap (fun b => [b.toNat % 16, b.toNat / 16])
  let f := fun (z : Nat) =>
    if eta = 2 ∧ z < 15 then some ((dq + 2 - z % 5) % dq)
    else if eta = 4 ∧ z < 9 then some ((dq + 4 - z) % dq) else none
  kemSampleNtt.padPoly ((cs.filterMap f).take 256)

def dsaMatrix (rho : Bytes) (r s : Nat) : Poly := dsaRejNtt (rho ++ [byte s, byte r])

def dsaMatVec (P : DsaParams) (rho : Bytes) (v : Array Poly) : Array Poly :=
  ((List.range P.k).map (fun r =>
    dsaNttInv ((List.range P.l).foldl (fun a s => dsaAdd a (dsaMul (dsaMatrix rho r s) (v[s]!))) polyZero))).toArray

structure DsaKey where
  rho : Bytes
  kk : Bytes
  s1 : Array Poly
  s2 : Array Poly
  t0 : Array Poly
  pk : Bytes

def power2Round (r : Nat) : Nat × Nat :=
  let r0 := r % 2 ^ 13
  if r0 ≤ 2 ^ 12 then ((r - r0) / 2 ^ 13, r0) else ((r + 2 ^ 13 - r0) / 2 ^ 13, (dq + r0 - 2 ^ 13) % dq)

/-- The key pair of the seed ξ. -/
def dsaKeyGen (P : DsaParams) (xi : Bytes) : DsaKey :=
  let h := shake256 128 (xi ++ [byte P.k, byte P.l])
  let rho := h.take 32
  let rhop := slice h 32 64
  let s1 := ((List.range P.l).map (fun i => dsaRejBounded P.eta (rhop ++ toLe 2 i))).toArray
  let s2 := ((List.range P.k).map (fun i => dsaRejBounded P.eta (rhop ++ toLe 2 (P.l + i)))).toArray
  let t := Array.zipWith dsaAdd (dsaMatVec P rho (s1.map dsaNtt)) s2
  let t1 := t.map (fun p => p.map (fun c => (power2Round c).1))
  { rho, kk := h.drop 96, s1, s2, t0 := t.map (fun p => p.map (fun c => (power2Round c).2))
    pk := rho ++ t1.toList.flatMap (polyPack 10) }

/-- HighBits and LowBits of a coefficient. -/
def dsaDecompose (P : DsaParams) (r : Nat) : Nat × Nat :=
  let m := 2 * P.g2
  let r0 := r % m
  let (r0, hi) := if r0 ≤ P.g2 then (r0, r - r0) else (dq + r0 - m, r + m - r0)
  if hi = dq - 1 then (0, (r0 + dq - 1) % dq) else (hi / m, r0 % dq)

def dsaW1Bits (P : DsaParams) : Nat := if P.g2 = (dq - 1) / 88 then 6 else 4

def dsaInBall (P : DsaParams) (seed : Bytes) : Poly :=
  let s := shake256 1096 seed
  let signs := leNat (s.take 8)
  ((s.drop 8).foldl (fun (st : Poly × Nat) b =>
    let (y, i) := st
    if 256 ≤ i then st
    else if b.toNat ≤ i then
      let j := b.toNat
      let y := y.set! i (y[j]!)
      (y.set! j (if signs.testBit (i + P.tau - 256) then dq - 1 else 1), i + 1)
    else st) (polyZero, 256 - P.tau)).1

def dsaMask (P : DsaParams) (rho : Bytes) (mu : Nat) : Array Poly :=
  let c := if P.g1 = 2 ^ 17 then 18 else 20
  ((List.range P.l).map (fun r =>
    (polyUnpack c (shake256 (32 * c) (rho ++ toLe 2 (mu + r)))).map (fun v => (dq + P.g1 - v) % dq))).toArray

def dsaMakeHint (P : DsaParams) (z r : Nat) : Nat :=
  if (dsaDecompose P r).1 = (dsaDecompose P ((r + z) % dq)).1 then 0 else 1

def dsaHintPack (P : DsaParams) (h : Array Poly) : Bytes :=
  let idx := h.toList.map (fun p => (List.range 256).filter (fun j => p[j]! = 1))
  let body := idx.flatten.map byte
  let ends := ((List.range P.k).map (fun i => byte ((idx.take (i + 1)).flatten.length)))
  padTo P.omega body ++ ends

def dsaHintUnpack (P : DsaParams) (b : Bytes) : Option (Array Poly) :=
  let ends := (List.range P.k).map (fun i => byteAt b (P.omega + i))
  let starts := 0 :: ends
  let parts := (List.range P.k).map (fun i =>
    (slice b (starts.getD i 0) (ends.getD i 0 - starts.getD i 0)).map BitVec.toNat)
  let ok := (List.range P.k).all (fun i => starts.getD i 0 ≤ ends.getD i 0 ∧ ends.getD i 0 ≤ P.omega)
    && parts.all (fun l => (l.zip (l.drop 1)).all (fun p => p.1 < p.2))
    && isZero ((b.take P.omega).drop (ends.getLast?.getD 0))
  if ok then some ((parts.map (fun l => l.foldl (fun p j => p.set! j 1) polyZero)).toArray) else none

/-- One attempt of the signing loop at counter value `kappa`. -/
def dsaAttempt (P : DsaParams) (K : DsaKey) (mu rhopp : Bytes) (kappa : Nat) : Option Bytes :=
  let y := dsaMask P rhopp kappa
  let w := dsaMatVec P K.rho (y.map dsaNtt)
  let w1 := w.map (fun p => p.map (fun c => (dsaDecompose P c).1))
  let ct := shake256 (P.lam / 4) (mu ++ w1.toList.flatMap (polyPack (dsaW1Bits P)))
  let c := dsaNtt (dsaInBall P ct)
  let mulc := fun (p : Poly) => dsaNttInv (dsaMul c (dsaNtt p))
  let z := Array.zipWith dsaAdd y (K.s1.map mulc)
  let wcs := Array.zipWith dsaSub w (K.s2.map mulc)
  let r0 := wcs.map (fun p => p.map (fun v => (dsaDecompose P v).2))
  let ct0 := K.t0.map mulc
  if z.any (fun p => P.g1 - P.beta ≤ dsaNorm p) ∨ r0.any (fun p => P.g2 - P.beta ≤ dsaNorm p) then none
  else
    let h := Array.zipWith (fun a b => polyZip (fun t v => dsaMakeHint P ((dq - t) % dq) ((v + t) % dq)) a b) ct0 wcs
    let ones := h.foldl (fun n p => n + p.foldl (· + ·) 0) 0
    if ct0.any (fun p => P.g2 ≤ dsaNorm p) ∨ P.omega < ones then none
    else
      let zb := if P.g1 = 2 ^ 17 then 18 else 20
      some (ct ++ z.toList.flatMap (fun p => polyPack zb (p.map (fun v => (dq + P.g1 - v) % dq))) ++ dsaHintPack P h)

def dsaSignLoop (P : DsaParams) (K : DsaKey) (mu rhopp : Bytes) : Nat → Nat → Nat → Option (Bytes × Nat)
  | 0, _, _ => none
  | f + 1, kappa, n =>
    match dsaAttempt P K mu rhopp kappa with
    | some s => some (s, n + 1)
    | none => dsaSignLoop P K mu rhopp f (kappa + P.l) (n + 1)

/-- Signing of a message representative: the signature and the number of attempts, none past the limit. -/
def dsaSign (P : DsaParams) (xi msg rnd : Bytes) (limit : Nat) : Option (Bytes × Nat) :=
  let K := dsaKeyGen P xi
  let mu := shake256 64 (shake256 64 K.pk ++ msg)
  dsaSignLoop P K mu (shake256 64 (K.kk ++ rnd ++ mu)) limit 0 0

def dsaPkLen (P : DsaParams) : Nat := 32 + 320 * P.k
def dsaSigLen (P : DsaParams) : Nat := P.lam / 4 + P.l * (if P.g1 = 2 ^ 17 then 576 else 640) + P.omega + P.k

def dsaUseHint (P : DsaParams) (h r : Nat) : Nat :=
  let m := (dq - 1) / (2 * P.g2)
  let (r1, r0) := dsaDecompose P r
  if h = 0 then r1 else if 0 < r0 ∧ r0 ≤ (dq - 1) / 2 then (r1 + 1) % m else (r1 + m - 1) % m

def dsaVerify (P : DsaParams) (pk msg sig : Bytes) : Bool :=
  let zb := if P.g1 = 2 ^ 17 then 18 else 20
  let cl := P.lam / 4
  let ct := sig.take cl
  let z := ((List.range P.l).map (fun i =>
    (polyUnpack zb (slice sig (cl + 32 * zb * i) (32 * zb))).map (fun v => (dq + P.g1 - v) % dq))).toArray
  let t1 := ((List.range P.k).map (fun i => polyUnpack 10 (slice pk (32 + 320 * i) 320))).toArray
  match dsaHintUnpack P (sig.drop (cl + 32 * zb * P.l)) with
  | none => false
  | some h =>
    let mu := shake256 64 (shake256 64 pk ++ msg)
    let c := dsaNtt (dsaInBall P ct)
    let zn := z.map dsaNtt
    let w := ((List.range P.k).map (fun r =>
      let az := (List.range P.l).foldl (fun a s => dsaAdd a (dsaMul (dsaMatrix (pk.take 32) r s) (zn[s]!))) polyZero
      dsaNttInv (dsaSub az (dsaMul c (dsaNtt ((t1[r]!).map (fun v => v * 2 ^ 13 % dq))))))).toArray
    let w1 := Array.zipWith (fun a b => polyZip (dsaUseHint P) a b) h w
    decide (sig.length = dsaSigLen P) && z.all (fun p => dsaNorm p < P.g1 - P.beta)
      && decide (ct = shake256 cl (mu ++ w1.toList.flatMap (polyPack (dsaW1Bits P))))

end Sys2Proof.Machine
end

