-- ==== Sys2Proof/Machine/Aes.lean ====
section
/-! DEFINITION. The block ciphers AES (FIPS 197) and DES/TDES (FIPS 46-3, SP 800-67), which the spec uses by name (R189,
R218). Their inner steps are those of the standards. -/

namespace Sys2Proof.Machine

/-- Multiplication by x in the AES field. -/
def gfX (a : Nat) : Nat := if a < 128 then 2 * a else (2 * a) ^^^ 0x11B

/-- Multiplication in the AES field. -/
def gfMul (a b : Nat) : Nat :=
  ((List.range 8).foldl (fun (p : Nat × Nat) i =>
    (if b.testBit i then p.1 ^^^ p.2 else p.1, gfX p.2)) (0, a)).1

/-- The multiplicative inverse in the AES field (a to the power 254; 0 for 0). -/
def gfInv (a : Nat) : Nat := (List.range 253).foldl (fun r _ => gfMul r a) a

def rotl8 (x n : Nat) : Nat := (x * 2 ^ n % 256) ||| (x / 2 ^ (8 - n))

/-- The AES S-box. -/
def aesSboxCalc (a : Nat) : Nat :=
  let b := gfInv a
  b ^^^ rotl8 b 1 ^^^ rotl8 b 2 ^^^ rotl8 b 3 ^^^ rotl8 b 4 ^^^ 0x63

def aesSbox : Array Nat := ((List.range 256).map aesSboxCalc).toArray
def aesInvSbox : Array Nat :=
  (List.range 256).foldl (fun t i => t.set! (aesSbox[i]!) i) (Array.replicate 256 0)

/-- The next word of the key expansion (FIPS 197): words newest last. -/
def aesExpandStep (nk i : Nat) (w : Array (List Nat)) : Array (List Nat) :=
  let t := w[i - 1]!
  let sub := fun (l : List Nat) => l.map (fun x => aesSbox[x]!)
  let t' :=
    if i % nk = 0 then
      let r := sub (t.drop 1 ++ t.take 1)
      let rc := (List.range (i / nk - 1)).foldl (fun c _ => gfX c) 1
      match r with
      | a :: rest => (a ^^^ rc) :: rest
      | [] => []
    else if nk > 6 ∧ i % nk = 4 then sub t
    else t
  w.push (List.zipWith (· ^^^ ·) (w[i - nk]!) t')

/-- The round keys, 16 numbers each. -/
def aesRoundKeys (key : Bytes) : List (List Nat) :=
  let k := key.map BitVec.toNat
  let nk := k.length / 4
  let w0 : Array (List Nat) := ((List.range nk).map (fun i => (k.drop (4 * i)).take 4)).toArray
  let w := (List.range (4 * (nk + 7) - nk)).foldl (fun w i => aesExpandStep nk (nk + i) w) w0
  (List.range (nk + 7)).map (fun r =>
    w[4 * r]! ++ w[4 * r + 1]! ++ w[4 * r + 2]! ++ w[4 * r + 3]!)

def aesShiftRows (s : List Nat) : List Nat :=
  (List.range 16).map (fun i => s.getD ((i + 4 * (i % 4)) % 16) 0)

def aesInvShiftRows (s : List Nat) : List Nat :=
  (List.range 16).map (fun i => s.getD ((i + 16 - 4 * (i % 4)) % 16) 0)

/-- A column matrix applied to every column of the state. -/
def aesMix (m : List Nat) (s : List Nat) : List Nat :=
  (List.range 16).map (fun i =>
    let c := i / 4 * 4
    let r := i % 4
    (List.range 4).foldl (fun a j => a ^^^ gfMul (m.getD ((j + 4 - r) % 4) 0) (s.getD (c + j) 0)) 0)

def xorNats (a b : List Nat) : List Nat := List.zipWith (· ^^^ ·) a b

/-- AES encryption of one 16-byte block. -/
def aesEnc (key : Bytes) (blk : Bytes) : Bytes :=
  let rk := aesRoundKeys key
  let nr := rk.length - 1
  let s0 := xorNats (blk.map BitVec.toNat) (rk.getD 0 [])
  let s := (List.range nr).foldl (fun s i =>
    let t := aesShiftRows (s.map (fun x => aesSbox[x]!))
    let t := if i + 1 = nr then t else aesMix [2, 3, 1, 1] t
    xorNats t (rk.getD (i + 1) [])) s0
  s.map byte

/-- AES decryption of one 16-byte block. -/
def aesDec (key : Bytes) (blk : Bytes) : Bytes :=
  let rk := aesRoundKeys key
  let nr := rk.length - 1
  let s0 := xorNats (blk.map BitVec.toNat) (rk.getD nr [])
  let s := (List.range nr).foldl (fun s i =>
    let t := (aesInvShiftRows s).map (fun x => aesInvSbox[x]!)
    let t := xorNats t (rk.getD (nr - 1 - i) [])
    if i + 1 = nr then t else aesMix [14, 11, 13, 9] t) s0
  s.map byte

/-! DES: bit tables of FIPS 46-3, bit 1 the most significant. -/

/-- A bit permutation: `n` input bits, the table's entries numbered from 1 at the most significant bit. -/
def desPerm (n : Nat) (t : List Nat) (x : Nat) : Nat :=
  t.foldl (fun a p => 2 * a + b2n (x.testBit (n - p))) 0

def desIP : List Nat :=
  [58, 50, 42, 34, 26, 18, 10, 2, 60, 52, 44, 36, 28, 20, 12, 4, 62, 54, 46, 38, 30, 22, 14, 6, 64, 56, 48, 40, 32, 24, 16, 8,
   57, 49, 41, 33, 25, 17, 9, 1, 59, 51, 43, 35, 27, 19, 11, 3, 61, 53, 45, 37, 29, 21, 13, 5, 63, 55, 47, 39, 31, 23, 15, 7]

/-- The inverse initial permutation. -/
def desFP : List Nat :=
  (List.range 64).map (fun i => (desIP.findIdx (· == i + 1)) + 1)

def desE : List Nat :=
  (List.range 48).map (fun i => (i / 6 * 4 + i % 6 + 31) % 32 + 1)

def desP : List Nat :=
  [16, 7, 20, 21, 29, 12, 28, 17, 1, 15, 23, 26, 5, 18, 31, 10, 2, 8, 24, 14, 32, 27, 3, 9, 19, 13, 30, 6, 22, 11, 4, 25]

def desPC1 : List Nat :=
  [57, 49, 41, 33, 25, 17, 9, 1, 58, 50, 42, 34, 26, 18, 10, 2, 59, 51, 43, 35, 27, 19, 11, 3, 60, 52, 44, 36,
   63, 55, 47, 39, 31, 23, 15, 7, 62, 54, 46, 38, 30, 22, 14, 6, 61, 53, 45, 37, 29, 21, 13, 5, 28, 20, 12, 4]

def desPC2 : List Nat :=
  [14, 17, 11, 24, 1, 5, 3, 28, 15, 6, 21, 10, 23, 19, 12, 4, 26, 8, 16, 7, 27, 20, 13, 2,
   41, 52, 31, 37, 47, 55, 30, 40, 51, 45, 33, 48, 44, 49, 39, 56, 34, 53, 46, 42, 50, 36, 29, 32]

def desS1 : List Nat :=
  [14, 4, 13, 1, 2, 15, 11, 8, 3, 10, 6, 12, 5, 9, 0, 7, 0, 15, 7, 4, 14, 2, 13, 1, 10, 6, 12, 11, 9, 5, 3, 8,
   4, 1, 14, 8, 13, 6, 2, 11, 15, 12, 9, 7, 3, 10, 5, 0, 15, 12, 8, 2, 4, 9, 1, 7, 5, 11, 3, 14, 10, 0, 6, 13]
def desS2 : List Nat :=
  [15, 1, 8, 14, 6, 11, 3, 4, 9, 7, 2, 13, 12, 0, 5, 10, 3, 13, 4, 7, 15, 2, 8, 14, 12, 0, 1, 10, 6, 9, 11, 5,
   0, 14, 7, 11, 10, 4, 13, 1, 5, 8, 12, 6, 9, 3, 2, 15, 13, 8, 10, 1, 3, 15, 4, 2, 11, 6, 7, 12, 0, 5, 14, 9]
def desS3 : List Nat :=
  [10, 0, 9, 14, 6, 3, 15, 5, 1, 13, 12, 7, 11, 4, 2, 8, 13, 7, 0, 9, 3, 4, 6, 10, 2, 8, 5, 14, 12, 11, 15, 1,
   13, 6, 4, 9, 8, 15, 3, 0, 11, 1, 2, 12, 5, 10, 14, 7, 1, 10, 13, 0, 6, 9, 8, 7, 4, 15, 14, 3, 11, 5, 2, 12]
def desS4 : List Nat :=
  [7, 13, 14, 3, 0, 6, 9, 10, 1, 2, 8, 5, 11, 12, 4, 15, 13, 8, 11, 5, 6, 15, 0, 3, 4, 7, 2, 12, 1, 10, 14, 9,
   10, 6, 9, 0, 12, 11, 7, 13, 15, 1, 3, 14, 5, 2, 8, 4, 3, 15, 0, 6, 10, 1, 13, 8, 9, 4, 5, 11, 12, 7, 2, 14]
def desS5 : List Nat :=
  [2, 12, 4, 1, 7, 10, 11, 6, 8, 5, 3, 15, 13, 0, 14, 9, 14, 11, 2, 12, 4, 7, 13, 1, 5, 0, 15, 10, 3, 9, 8, 6,
   4, 2, 1, 11, 10, 13, 7, 8, 15, 9, 12, 5, 6, 3, 0, 14, 11, 8, 12, 7, 1, 14, 2, 13, 6, 15, 0, 9, 10, 4, 5, 3]
def desS6 : List Nat :=
  [12, 1, 10, 15, 9, 2, 6, 8, 0, 13, 3, 4, 14, 7, 5, 11, 10, 15, 4, 2, 7, 12, 9, 5, 6, 1, 13, 14, 0, 11, 3, 8,
   9, 14, 15, 5, 2, 8, 12, 3, 7, 0, 4, 10, 1, 13, 11, 6, 4, 3, 2, 12, 9, 5, 15, 10, 11, 14, 1, 7, 6, 0, 8, 13]
def desS7 : List Nat :=
  [4, 11, 2, 14, 15, 0, 8, 13, 3, 12, 9, 7, 5, 10, 6, 1, 13, 0, 11, 7, 4, 9, 1, 10, 14, 3, 5, 12, 2, 15, 8, 6,
   1, 4, 11, 13, 12, 3, 7, 14, 10, 15, 6, 8, 0, 5, 9, 2, 6, 11, 13, 8, 1, 4, 10, 7, 9, 5, 0, 15, 14, 2, 3, 12]
def desS8 : List Nat :=
  [13, 2, 8, 4, 6, 15, 11, 1, 10, 9, 3, 14, 5, 0, 12, 7, 1, 15, 13, 8, 10, 3, 7, 4, 12, 5, 6, 11, 0, 14, 9, 2,
   7, 11, 4, 1, 9, 12, 14, 2, 0, 6, 10, 13, 15, 3, 5, 8, 2, 1, 14, 7, 4, 10, 8, 13, 15, 12, 9, 0, 3, 5, 6, 11]

/-- The eight substitution boxes applied to 48 bits. -/
def desSub (x : Nat) : Nat :=
  ([desS1, desS2, desS3, desS4, desS5, desS6, desS7, desS8].zipIdx).foldl (fun a p =>
    let v := bits x (42 - 6 * p.2) 6
    let row := 2 * (v / 32) + v % 2
    16 * a + p.1.getD (16 * row + bits v 1 4) 0) 0

def rotl28 (x n : Nat) : Nat := x * 2 ^ n % 2 ^ 28 + x / 2 ^ (28 - n)

/-- The sixteen round keys. -/
def desKeys (k : Nat) : List Nat :=
  let cd := desPerm 64 desPC1 k
  let shifts := [1, 2, 4, 6, 8, 10, 12, 14, 15, 17, 19, 21, 23, 25, 27, 28]
  shifts.map (fun n =>
    desPerm 56 desPC2 (rotl28 (cd / 2 ^ 28) n * 2 ^ 28 + rotl28 (cd % 2 ^ 28) n))

def desCore (keys : List Nat) (blk : Nat) : Nat :=
  let x := desPerm 64 desIP blk
  let lr := keys.foldl (fun (p : Nat × Nat) k =>
    (p.2, p.1 ^^^ desPerm 32 desP (desSub (desPerm 32 desE p.2 ^^^ k)))) (x / 2 ^ 32, x % 2 ^ 32)
  desPerm 64 desFP (lr.2 * 2 ^ 32 + lr.1)

def desEnc (key blk : Bytes) : Bytes := toBe 8 (desCore (desKeys (beNat key)) (beNat blk))
def desDec (key blk : Bytes) : Bytes := toBe 8 (desCore (desKeys (beNat key)).reverse (beNat blk))

/-- The three single keys of a TDES key of two or three keys. -/
def tdesKeys (key : Bytes) : Bytes × Bytes × Bytes :=
  (slice key 0 8, slice key 8 8, if key.length < 24 then slice key 0 8 else slice key 16 8)

def tdesEnc (key blk : Bytes) : Bytes :=
  let (a, b, c) := tdesKeys key
  desEnc c (desDec b (desEnc a blk))

def tdesDec (key blk : Bytes) : Bytes :=
  let (a, b, c) := tdesKeys key
  desDec a (desEnc b (desDec c blk))

/-- A block cipher: its block length and its two directions under a key. -/
inductive Cipher where
  | aes | tdes
  deriving DecidableEq, Repr

def Cipher.block : Cipher → Nat
  | .aes => 16
  | .tdes => 8

def Cipher.enc : Cipher → Bytes → Bytes → Bytes
  | .aes => aesEnc
  | .tdes => tdesEnc

def Cipher.dec : Cipher → Bytes → Bytes → Bytes
  | .aes => aesDec
  | .tdes => tdesDec

end Sys2Proof.Machine
end

