-- ==== Sys2Proof/Machine/Modes.lean ====
section
/-! DEFINITION. The block-cipher modes the spec names (SP 800-38A, B, C, D, E, F, RFC 5297), over any of the two block
ciphers where the standard allows it. -/

namespace Sys2Proof.Machine

/-- ECB over whole blocks. -/
def ecbEnc (c : Cipher) (k m : Bytes) : Bytes := (chunks c.block m).flatMap (c.enc k)
def ecbDec (c : Cipher) (k m : Bytes) : Bytes := (chunks c.block m).flatMap (c.dec k)

/-- CBC over whole blocks. -/
def cbcEnc (c : Cipher) (k iv m : Bytes) : Bytes :=
  ((chunks c.block m).foldl (fun (p : Bytes × Bytes) b =>
    let x := c.enc k (xorBytes b p.2)
    (p.1 ++ x, x)) ([], iv)).1

def cbcDec (c : Cipher) (k iv m : Bytes) : Bytes :=
  ((chunks c.block m).foldl (fun (p : Bytes × Bytes) b =>
    (p.1 ++ xorBytes (c.dec k b) p.2, b)) ([], iv)).1

/-- CTR: the counter block is incremented in its lowest `w` bits. -/
def ctrMode (c : Cipher) (k : Bytes) (w : Nat) (ctr : Bytes) (m : Bytes) : Bytes :=
  let v := beNat ctr
  ((chunks c.block m).zipIdx).flatMap (fun p =>
    let x := v / 2 ^ w * 2 ^ w + (v % 2 ^ w + p.2) % 2 ^ w
    xorBytes p.1 (c.enc k (toBe c.block x)))

/-- CBC-MAC of whole blocks with a zero start. -/
def cbcMac (c : Cipher) (k m : Bytes) : Bytes :=
  (chunks c.block m).foldl (fun x b => c.enc k (xorBytes x b)) (zeros c.block)

/-- Doubling in the field of the block length. -/
def dblBlock (b : Bytes) : Bytes :=
  let n := b.length
  let v := 2 * beNat b
  if v < 2 ^ (8 * n) then toBe n v
  else toBe n ((v - 2 ^ (8 * n)) ^^^ (if n = 16 then 0x87 else 0x1B))

/-- CMAC (SP 800-38B). -/
def cmac (c : Cipher) (k m : Bytes) : Bytes :=
  let n := c.block
  let l := c.enc k (zeros n)
  let full := decide (0 < m.length ∧ m.length % n = 0)
  let headLen := if m.length = 0 then 0 else (m.length - 1) / n * n
  let last := m.drop headLen
  let last' :=
    if full then xorBytes last (dblBlock l)
    else xorBytes (padTo n (last ++ [0x80])) (dblBlock (dblBlock l))
  let x := cbcMac c k (m.take headLen)
  let x0 := if headLen = 0 then zeros n else x
  c.enc k (xorBytes x0 last')

/-! GCM (SP 800-38D). -/

def gcmMul (x y : Nat) : Nat :=
  ((List.range 128).foldl (fun (p : Nat × Nat) i =>
    (if x.testBit (127 - i) then p.1 ^^^ p.2 else p.1,
     if p.2 % 2 = 1 then (p.2 / 2) ^^^ 0xE1000000000000000000000000000000 else p.2 / 2)) (0, y)).1

def pad16 (b : Bytes) : Bytes := b ++ zeros ((16 - b.length % 16) % 16)

def ghash (h : Nat) (m : Bytes) : Nat :=
  (chunks 16 m).foldl (fun y b => gcmMul (y ^^^ beNat b) h) 0

def gcmJ0 (h : Nat) (iv : Bytes) : Nat :=
  if iv.length = 12 then beNat iv * 2 ^ 32 + 1
  else ghash h (pad16 iv ++ zeros 8 ++ toBe 8 (8 * iv.length))

/-- The 16-byte tag of a ciphertext. -/
def gcmTag (k iv aad ct : Bytes) : Bytes :=
  let h := beNat (aesEnc k (zeros 16))
  let j := gcmJ0 h iv
  let s := ghash h (pad16 aad ++ pad16 ct ++ toBe 8 (8 * aad.length) ++ toBe 8 (8 * ct.length))
  xorBytes (toBe 16 s) (aesEnc k (toBe 16 j))

/-- The keystream direction of GCM, the same for both directions. -/
def gcmCrypt (k iv m : Bytes) : Bytes :=
  let h := beNat (aesEnc k (zeros 16))
  let j := gcmJ0 h iv
  ctrMode .aes k 32 (toBe 16 (j / 2 ^ 32 * 2 ^ 32 + (j % 2 ^ 32 + 1) % 2 ^ 32)) m

/-! CCM (SP 800-38C). -/

def ccmB0 (nonce : Bytes) (tagLen aadLen msgLen : Nat) : Bytes :=
  let q := 15 - nonce.length
  [byte ((if aadLen = 0 then 0 else 64) + (tagLen - 2) / 2 * 8 + (q - 1))] ++ nonce ++ toBe q msgLen

def ccmAad (aad : Bytes) : Bytes :=
  if aad.isEmpty then []
  else pad16 ((if aad.length < 0xFF00 then toBe 2 aad.length else [0xFF, 0xFE] ++ toBe 4 aad.length) ++ aad)

def ccmCtr (nonce : Bytes) : Bytes := [byte (14 - nonce.length)] ++ nonce ++ zeros (15 - nonce.length)

def ccmTag (k nonce aad msg : Bytes) (tagLen : Nat) : Bytes :=
  let t := cbcMac .aes k (ccmB0 nonce tagLen aad.length msg.length ++ ccmAad aad ++ pad16 msg)
  (xorBytes t (aesEnc k (ccmCtr nonce))).take tagLen

def ccmCrypt (k nonce m : Bytes) : Bytes :=
  ctrMode .aes k (8 * (15 - nonce.length)) (toBe 16 (beNat (ccmCtr nonce) + 1)) m

/-! SIV (RFC 5297). -/

def s2v (k : Bytes) (ads : List Bytes) (m : Bytes) : Bytes :=
  let d := ads.foldl (fun d a => xorBytes (dblBlock d) (cmac .aes k a)) (cmac .aes k (zeros 16))
  let t :=
    if 16 ≤ m.length then m.take (m.length - 16) ++ xorBytes (m.drop (m.length - 16)) d
    else xorBytes (dblBlock d) (padTo 16 (m ++ [0x80]))
  cmac .aes k t

def sivCrypt (key v m : Bytes) : Bytes :=
  let q := beNat v
  let q' := setBit (setBit q 63 false) 31 false
  ctrMode .aes (key.drop (key.length / 2)) 128 (toBe 16 q') m

/-- SIV encryption: the ciphertext and the synthetic IV. -/
def sivEnc (key : Bytes) (ads : List Bytes) (m : Bytes) : Bytes × Bytes :=
  let v := s2v (key.take (key.length / 2)) ads m
  (sivCrypt key v m, v)

/-- SIV decryption: the plaintext, if the synthetic IV verifies. -/
def sivDec (key : Bytes) (ads : List Bytes) (ct v : Bytes) : Option Bytes :=
  let m := sivCrypt key v ct
  if s2v (key.take (key.length / 2)) ads m = v then some m else none

/-! XTS (SP 800-38E, IEEE 1619). -/

def xtsDouble (t : Nat) : Nat :=
  let v := 2 * t
  if v < 2 ^ 128 then v else (v - 2 ^ 128) ^^^ 0x87

def xtsBlock (f : Bytes → Bytes) (t : Nat) (b : Bytes) : Bytes :=
  xorBytes (f (xorBytes b (toLe 16 t))) (toLe 16 t)

/-- One data unit of at least one block, with ciphertext stealing. -/
def xtsUnit (enc : Bool) (k1 k2 tweak m : Bytes) : Bytes :=
  let f := if enc then aesEnc k1 else aesDec k1
  let t0 := leNat (aesEnc k2 tweak)
  let n := m.length / 16
  let r := m.length % 16
  let tw := fun i => (List.range i).foldl (fun t _ => xtsDouble t) t0
  let blk := fun i => slice m (16 * i) 16
  if r = 0 then ((List.range n).flatMap (fun i => xtsBlock f (tw i) (blk i)))
  else
    let head := (List.range (n - 1)).flatMap (fun i => xtsBlock f (tw i) (blk i))
    let (ta, tb) := if enc then (tw (n - 1), tw n) else (tw n, tw (n - 1))
    let c := xtsBlock f ta (blk (n - 1))
    let tail := slice m (16 * n) r
    let last := xtsBlock f tb (tail ++ c.drop r)
    head ++ last ++ c.take r

/-! Key wrap (SP 800-38F). -/

/-- The wrapping function W over the register halves. -/
def kwCore (k : Bytes) (a : Bytes) (rs : List Bytes) : Bytes × List Bytes :=
  let n := rs.length
  (List.range (6 * n)).foldl (fun (p : Bytes × List Bytes) t =>
    let i := t % n
    let b := aesEnc k (p.1 ++ p.2.getD i [])
    (toBe 8 (beNat (b.take 8) ^^^ (t + 1)), p.2.set i (b.drop 8))) (a, rs)

def kwCoreInv (k : Bytes) (a : Bytes) (rs : List Bytes) : Bytes × List Bytes :=
  let n := rs.length
  (List.range (6 * n)).foldl (fun (p : Bytes × List Bytes) t =>
    let u := 6 * n - t
    let i := (u - 1) % n
    let b := aesDec k (toBe 8 (beNat p.1 ^^^ u) ++ p.2.getD i [])
    (b.take 8, p.2.set i (b.drop 8))) (a, rs)

/-- AES-KW. -/
def kwWrap (k m : Bytes) : Bytes :=
  let (a, rs) := kwCore k (zeros 8 |>.map (fun _ => 0xA6)) (chunks 8 m)
  a ++ rs.flatten

def kwUnwrap (k c : Bytes) : Option Bytes :=
  let (a, rs) := kwCoreInv k (c.take 8) (chunks 8 (c.drop 8))
  if a = (zeros 8 |>.map (fun _ => 0xA6)) then some rs.flatten else none

/-- AES-KWP. -/
def kwpWrap (k m : Bytes) : Bytes :=
  let a := [0xA6, 0x59, 0x59, 0xA6] ++ toBe 4 m.length
  let p := m ++ zeros ((8 - m.length % 8) % 8)
  if p.length = 8 then aesEnc k (a ++ p)
  else
    let (a', rs) := kwCore k a (chunks 8 p)
    a' ++ rs.flatten

/-- AES-KWP unwrapping: the message, if every check of the standard holds. -/
def kwpUnwrap (k c : Bytes) : Option Bytes :=
  let ap :=
    if c.length = 16 then let b := aesDec k c; (b.take 8, b.drop 8)
    else let q := kwCoreInv k (c.take 8) (chunks 8 (c.drop 8)); (q.1, q.2.flatten)
  let len := fieldBe ap.1 4 4
  if ap.1.take 4 = [0xA6, 0x59, 0x59, 0xA6] ∧ len ≤ ap.2.length ∧ ap.2.length < len + 8
      ∧ isZero (ap.2.drop len) then some (ap.2.take len) else none

/-! The SP 800-108 KDF in counter mode over a pseudo-random function of `n` output bytes; `fixed i` is the input of
block `i`. -/

def kdfCtr (prf : Bytes → Bytes) (n : Nat) (fixed : Nat → Bytes) (bytes : Nat) : Bytes :=
  ((List.range ((bytes + n - 1) / n)).flatMap (fun i => prf (fixed (i + 1)))).take bytes

end Sys2Proof.Machine
end

