-- ==== Sys2Proof/Machine/Num.lean ====
section
/-! DEFINITION. Modular arithmetic, RSA (RFC 8017), Weierstrass curves with ECDSA and ECDH (FIPS 186-5, SP 800-186,
RFC 5639), the Edwards and Montgomery curves (RFC 8032, RFC 7748), all of which the spec names. -/

namespace Sys2Proof.Machine

/-- b to the power e modulo m. -/
def powModAux (m : Nat) : Nat → Nat → Nat → Nat → Nat
  | 0, _, _, r => r
  | f + 1, b, e, r => powModAux m f (b * b % m) (e / 2) (if e % 2 = 1 then r * b % m else r)

def powMod (b e m : Nat) : Nat := powModAux m (Nat.log2 e + 1) (b % m) e (1 % m)

/-- The inverse of a modulo m by Euclid's algorithm, 0 where there is none. -/
def invModAux (m : Int) : Nat → Int → Int → Int → Int → Nat
  | 0, _, _, _, _ => 0
  | f + 1, r0, r1, s0, s1 =>
    if r1 = 0 then (if r0 = 1 then (s0 % m).toNat else 0)
    else invModAux m f r1 (r0 - r0 / r1 * r1) s1 (s0 - r0 / r1 * s1)

def invMod (a m : Nat) : Nat := invModAux m (2 * Nat.log2 m + 4) (a % m) m 1 0

def subMod (a b m : Nat) : Nat := (a % m + (m - b % m)) % m

/-! RSA. -/

/-- MGF1 over a hash of `hl` bytes. -/
def mgf1 (h : Bytes → Bytes) (hl : Nat) (seed : Bytes) (len : Nat) : Bytes :=
  ((List.range ((len + hl - 1) / hl)).flatMap (fun i => h (seed ++ toBe 4 i))).take len

/-- EMSA-PSS encoding of a digest into `emBits` bits. -/
def pssEncode (h : Bytes → Bytes) (hl : Nat) (digest salt : Bytes) (emBits : Nat) : Bytes :=
  let emLen := (emBits + 7) / 8
  let hh := h (zeros 8 ++ digest ++ salt)
  let db := zeros (emLen - salt.length - hl - 2) ++ [0x01] ++ salt
  let m := xorBytes db (mgf1 h hl hh (emLen - hl - 1))
  let m := toBe m.length (beNat m % 2 ^ (emBits - 8 * (hl + 1)))
  m ++ hh ++ [0xBC]

def pssVerify (h : Bytes → Bytes) (hl sLen : Nat) (digest em : Bytes) (emBits : Nat) : Bool :=
  let emLen := (emBits + 7) / 8
  let em := slice em (em.length - emLen) emLen
  let m := em.take (emLen - hl - 1)
  let hh := slice em (emLen - hl - 1) hl
  let db := xorBytes m (mgf1 h hl hh (emLen - hl - 1))
  let db := toBe db.length (beNat db % 2 ^ (emBits - 8 * (hl + 1)))
  let salt := db.drop (db.length - sLen)
  decide (hl + sLen + 2 ≤ emLen) && decide (em.getLast? = some 0xBC)
    && decide (beNat m < 2 ^ (emBits - 8 * (hl + 1)))
    && decide (db.take (db.length - sLen) = zeros (emLen - sLen - hl - 2) ++ [0x01])
    && decide (h (zeros 8 ++ digest ++ salt) = hh)

/-- EMSA-PKCS1-v1_5 with the DER digest information given. -/
def pkcs1Encode (info digest : Bytes) (k : Nat) : Bytes :=
  let t := info ++ digest
  [0x00, 0x01] ++ List.replicate (k - t.length - 3) 0xFF ++ [0x00] ++ t

/-- EME-OAEP decoding of an encoded message, empty label. -/
def oaepDecode (h : Bytes → Bytes) (hl : Nat) (em : Bytes) : Option Bytes :=
  let k := em.length
  let seed := xorBytes (slice em 1 hl) (mgf1 h hl (em.drop (1 + hl)) hl)
  let db := xorBytes (em.drop (1 + hl)) (mgf1 h hl seed (k - hl - 1))
  let rest := (db.drop hl).dropWhile (· == 0)
  if em.head? = some 0 ∧ db.take hl = h [] ∧ rest.head? = some 1 then some (rest.drop 1) else none

/-- The RSA private operation in CRT form. -/
def rsaCrt (p q dp dq qinv c : Nat) : Nat :=
  let m1 := powMod c dp p
  let m2 := powMod c dq q
  m2 + q * (qinv * subMod m1 m2 p % p)

/-! Weierstrass curves y² = x³ + a x + b over a prime field. -/

structure Curve where
  p : Nat
  a : Nat
  b : Nat
  gx : Nat
  gy : Nat
  n : Nat
  /-- bytes of a coordinate, and of the scalar -/
  len : Nat
  deriving DecidableEq, Repr

/-- An affine point; none is the point at infinity. -/
abbrev Pt := Option (Nat × Nat)

def Curve.on (c : Curve) : Pt → Bool
  | none => true
  | some (x, y) => decide (x < c.p) && decide (y < c.p) && decide (y * y % c.p = (x * x * x + c.a * x + c.b) % c.p)

def Curve.add (c : Curve) : Pt → Pt → Pt
  | none, q => q
  | p, none => p
  | some (x1, y1), some (x2, y2) =>
    let l? : Option Nat :=
      if x1 = x2 then
        if (y1 + y2) % c.p = 0 then none
        else some ((3 * x1 * x1 + c.a) * invMod (2 * y1) c.p % c.p)
      else some (subMod y2 y1 c.p * invMod (subMod x2 x1 c.p) c.p % c.p)
    match l? with
    | none => none
    | some l =>
      let x3 := subMod (l * l) (x1 + x2) c.p
      some (x3, subMod (l * subMod x1 x3 c.p) y1 c.p)

def Curve.mulAux (c : Curve) : Nat → Nat → Pt → Pt → Pt
  | 0, _, _, r => r
  | f + 1, k, p, r => Curve.mulAux c f (k / 2) (c.add p p) (if k % 2 = 1 then c.add r p else r)

def Curve.mul (c : Curve) (k : Nat) (p : Pt) : Pt := c.mulAux (Nat.log2 k + 1) k p none

def Curve.g (c : Curve) : Pt := some (c.gx, c.gy)

def p256 : Curve :=
  { p := 2 ^ 256 - 2 ^ 224 + 2 ^ 192 + 2 ^ 96 - 1, a := 2 ^ 256 - 2 ^ 224 + 2 ^ 192 + 2 ^ 96 - 4
    b := 0x5ac635d8aa3a93e7b3ebbd55769886bc651d06b0cc53b0f63bce3c3e27d2604b
    gx := 0x6b17d1f2e12c4247f8bce6e563a440f277037d812deb33a0f4a13945d898c296
    gy := 0x4fe342e2fe1a7f9b8ee7eb4a7c0f9e162bce33576b315ececbb6406837bf51f5
    n := 0xffffffff00000000ffffffffffffffffbce6faada7179e84f3b9cac2fc632551, len := 32 }

def p384 : Curve :=
  { p := 2 ^ 384 - 2 ^ 128 - 2 ^ 96 + 2 ^ 32 - 1, a := 2 ^ 384 - 2 ^ 128 - 2 ^ 96 + 2 ^ 32 - 4
    b := 0xb3312fa7e23ee7e4988e056be3f82d19181d9c6efe8141120314088f5013875ac656398d8a2ed19d2a85c8edd3ec2aef
    gx := 0xaa87ca22be8b05378eb1c71ef320ad746e1d3b628ba79b9859f741e082542a385502f25dbf55296c3a545e3872760ab7
    gy := 0x3617de4a96262c6f5d9e98bf9292dc29f8f41dbd289a147ce9da3113b5f0b8c00a60b1ce1d7e819d7a431d7c90ea0e5f
    n := 0xffffffffffffffffffffffffffffffffffffffffffffffffc7634d81f4372ddf581a0db248b0a77aecec196accc52973
    len := 48 }

def p521 : Curve :=
  { p := 2 ^ 521 - 1, a := 2 ^ 521 - 4
    b := 0x0051953eb9618e1c9a1f929a21a0b68540eea2da725b99b315f3b8b489918ef109e156193951ec7e937b1652c0bd3bb1bf073573df883d2c34f1ef451fd46b503f00
    gx := 0x00c6858e06b70404e9cd9e3ecb662395b4429c648139053fb521f828af606b4d3dbaa14b5e77efe75928fe1dc127a2ffa8de3348b3c1856a429bf97e7e31c2e5bd66
    gy := 0x011839296a789a3bc0045c8a5fb42c7d1bd998f54449579b446817afbd17273e662c97ee72995ef42640c550b9013fad0761353c7086a272c24088be94769fd16650
    n := 2 ^ 521 - 2 ^ 264 + 0xfa51868783bf2f966b7fcc0148f709a5d03bb5c9b8899c47aebb6fb71e91386409
    len := 66 }

def bp256 : Curve :=
  { p := 0xA9FB57DBA1EEA9BC3E660A909D838D726E3BF623D52620282013481D1F6E5377
    a := 0x7D5A0975FC2C3057EEF67530417AFFE7FB8055C126DC5C6CE94A4B44F330B5D9
    b := 0x26DC5C6CE94A4B44F330B5D9BBD77CBF958416295CF7E1CE6BCCDC18FF8C07B6
    gx := 0x8BD2AEB9CB7E57CB2C4B482FFC81B7AFB9DE27E1E3BD23C23A4453BD9ACE3262
    gy := 0x547EF835C3DAC4FD97F8461A14611DC9C27745132DED8E545C1D54C72F046997
    n := 0xA9FB57DBA1EEA9BC3E660A909D838D718C397AA3B561A6F7901E0E82974856A7, len := 32 }

def bp384 : Curve :=
  { p := 0x8CB91E82A3386D280F5D6F7E50E641DF152F7109ED5456B412B1DA197FB71123ACD3A729901D1A71874700133107EC53
    a := 0x7BC382C63D8C150C3C72080ACE05AFA0C2BEA28E4FB22787139165EFBA91F90F8AA5814A503AD4EB04A8C7DD22CE2826
    b := 0x04A8C7DD22CE28268B39B55416F0447C2FB77DE107DCD2A62E880EA53EEB62D57CB4390295DBC9943AB78696FA504C11
    gx := 0x1D1C64F068CF45FFA2A63A81B7C13F6B8847A3E77EF14FE3DB7FCAFE0CBD10E8E826E03436D646AAEF87B2E247D4AF1E
    gy := 0x8ABE1D7520F9C2A45CB1EB8E95CFD55262B70B29FEEC5864E19C054FF99129280E4646217791811142820341263C5315
    n := 0x8CB91E82A3386D280F5D6F7E50E641DF152F7109ED5456B31F166E6CAC0425A7CF3AB6AF6B7FC3103B883202E9046565
    len := 48 }

/-- The leftmost bits of a digest as an integer (FIPS 186-5). -/
def hashToInt (n : Nat) (digest : Bytes) : Nat :=
  let nb := Nat.log2 n + 1
  beNat digest / 2 ^ (8 * digest.length - nb)

/-- An ECDSA signature under a nonce k; none where k gives a zero component. -/
def ecdsaSign (c : Curve) (d k : Nat) (digest : Bytes) : Option (Nat × Nat) :=
  match c.mul k c.g with
  | none => none
  | some (x, _) =>
    let r := x % c.n
    let s := invMod k c.n * (hashToInt c.n digest + r * d) % c.n
    if r = 0 ∨ s = 0 then none else some (r, s)

def ecdsaVerify (c : Curve) (q : Pt) (r s : Nat) (digest : Bytes) : Bool :=
  if r = 0 ∨ c.n ≤ r ∨ s = 0 ∨ c.n ≤ s then false
  else
    let w := invMod s c.n
    match c.add (c.mul (hashToInt c.n digest * w % c.n) c.g) (c.mul (r * w % c.n) q) with
    | none => false
    | some (x, _) => decide (x % c.n = r)

/-! Twisted Edwards curves in affine form: a x² + y² = 1 + d x² y². -/

structure Edwards where
  p : Nat
  a : Nat
  d : Nat
  gx : Nat
  gy : Nat
  l : Nat
  deriving DecidableEq, Repr

def Edwards.add (c : Edwards) (p q : Nat × Nat) : Nat × Nat :=
  let (x1, y1) := p
  let (x2, y2) := q
  let k := c.d * x1 % c.p * x2 % c.p * y1 % c.p * y2 % c.p
  (((x1 * y2 + x2 * y1) % c.p) * invMod (1 + k) c.p % c.p,
   (subMod (y1 * y2) (c.a * x1 % c.p * x2) c.p) * invMod (subMod 1 k c.p) c.p % c.p)

def Edwards.mulAux (c : Edwards) : Nat → Nat → Nat × Nat → Nat × Nat → Nat × Nat
  | 0, _, _, r => r
  | f + 1, k, p, r => Edwards.mulAux c f (k / 2) (c.add p p) (if k % 2 = 1 then c.add r p else r)

def Edwards.mul (c : Edwards) (k : Nat) (p : Nat × Nat) : Nat × Nat := c.mulAux (Nat.log2 k + 1) k p (0, 1)

def ed25519 : Edwards :=
  { p := 2 ^ 255 - 19, a := 2 ^ 255 - 20
    d := 37095705934669439343138083508754565189542113879843219016388785533085940283555
    gx := 15112221349535400772501151409588531511454012693041857206046113283949847762202
    gy := 46316835694926478169428394003475163141307993866256225615783033603165251855960
    l := 2 ^ 252 + 27742317777372353535851937790883648493 }

def ed448 : Edwards :=
  { p := 2 ^ 448 - 2 ^ 224 - 1, a := 1, d := 2 ^ 448 - 2 ^ 224 - 1 - 39081
    gx := 224580040295924300187604334099896036246789641632564134246125461686950415467406032909029192869357953282578032075146446173674602635247710
    gy := 298819210078481492676017930443930673437544040154080242095928241372331506189835876003536878655418784733982303233503462500531545062832660
    l := 2 ^ 446 - 13818066809895115352007386748515426880336692474882178609894547503885 }

/-- A square root modulo p where p is 5 mod 8 or 3 mod 4; none where there is none. -/
def sqrtMod (p a : Nat) : Option Nat :=
  let a := a % p
  let r :=
    if p % 4 = 3 then powMod a ((p + 1) / 4) p
    else
      let x := powMod a ((p + 3) / 8) p
      if x * x % p = a then x else x * powMod 2 ((p - 1) / 4) p % p
  if r * r % p = a then some r else none

/-- Encoding of a point in `n` bytes: y little-endian, the lowest bit of x in the top bit of the last byte. -/
def Edwards.encode (n : Nat) (q : Nat × Nat) : Bytes :=
  toLe n (q.2 + (if q.1 % 2 = 1 then 2 ^ (8 * n - 1) else 0))

def Edwards.decode (c : Edwards) (n : Nat) (b : Bytes) : Option (Nat × Nat) :=
  let v := leNat b
  let y := v % 2 ^ (8 * n - 1)
  let sign := v / 2 ^ (8 * n - 1)
  if b.length ≠ n ∨ c.p ≤ y then none
  else
    match sqrtMod c.p (subMod (y * y) 1 c.p * invMod (subMod (c.d * (y * y % c.p)) c.a c.p) c.p) with
    | none => none
    | some x => if x = 0 ∧ sign = 1 then none else some (if x % 2 = sign then x else c.p - x, y)

/-- The two EdDSA schemes of RFC 8032 (Ed25519 without a context, Ed448 with one): curve, key bytes, hash and cofactor. -/
structure EdScheme where
  c : Edwards
  n : Nat
  h : Bytes → Bytes
  cof : Nat

def edScheme (is448 : Bool) (ctx : Bytes := []) : EdScheme :=
  if is448 then
    { c := ed448, n := 57, h := fun m => shake256 114 (ascii "SigEd448" ++ [0, byte ctx.length] ++ ctx ++ m), cof := 2 }
  else { c := ed25519, n := 32, h := sha512, cof := 3 }

/-- The scalar and the hash seed of a private key. -/
def edSecret (is448 : Bool) (sk : Bytes) : Nat × Bytes :=
  if is448 then
    let h := shake256 114 sk
    let v := leNat (h.take 56)
    (setBit (v / 4 * 4) 447 true, h.drop 57)
  else
    let h := sha512 sk
    let v := leNat (h.take 32)
    (setBit (v / 8 * 8 % 2 ^ 255) 254 true, h.drop 32)

def edPublic (is448 : Bool) (sk : Bytes) : Bytes :=
  let S := edScheme is448
  Edwards.encode S.n (S.c.mul (edSecret is448 sk).1 (S.c.gx, S.c.gy))

def edSign (is448 : Bool) (sk msg : Bytes) (ctx : Bytes := []) : Bytes :=
  let S := edScheme is448 ctx
  let (a, seed) := edSecret is448 sk
  let A := edPublic is448 sk
  let r := leNat (S.h (seed ++ msg)) % S.c.l
  let R := Edwards.encode S.n (S.c.mul r (S.c.gx, S.c.gy))
  let k := leNat (S.h (R ++ A ++ msg)) % S.c.l
  R ++ toLe S.n ((r + k * a) % S.c.l)

def edVerify (is448 : Bool) (pk sig msg : Bytes) (ctx : Bytes := []) : Bool :=
  let S := edScheme is448 ctx
  let s := leNat (sig.drop S.n)
  match S.c.decode S.n pk, S.c.decode S.n (sig.take S.n) with
  | some A, some R =>
    let k := leNat (S.h (sig.take S.n ++ pk ++ msg)) % S.c.l
    decide (sig.length = 2 * S.n) && decide (s < S.c.l)
      && decide (S.c.mul (2 ^ S.cof * s) (S.c.gx, S.c.gy)
          = S.c.add (S.c.mul (2 ^ S.cof) R) (S.c.mul (2 ^ S.cof * k) A))
  | _, _ => false

/-- X25519 (RFC 7748). -/
def x25519 (k u : Bytes) : Bytes :=
  let p := 2 ^ 255 - 19
  let kv := leNat k
  let kv := setBit (kv / 8 * 8 % 2 ^ 255) 254 true
  let x1 := leNat u % 2 ^ 255 % p
  let (x2, z2, x3, z3, sw) := (List.range 255).foldl (fun (st : Nat × Nat × Nat × Nat × Bool) i =>
    let (x2, z2, x3, z3, sw) := st
    let kt := kv.testBit (254 - i)
    let (x2, x3, z2, z3) := if sw != kt then (x3, x2, z3, z2) else (x2, x3, z2, z3)
    let a := (x2 + z2) % p
    let aa := a * a % p
    let b := subMod x2 z2 p
    let bb := b * b % p
    let e := subMod aa bb p
    let c := (x3 + z3) % p
    let d := subMod x3 z3 p
    let da := d * a % p
    let cb := c * b % p
    let s := (da + cb) % p
    let t := subMod da cb p
    (aa * bb % p, e * ((aa + 121665 * e) % p) % p, s * s % p, x1 * (t * t % p) % p, kt)) (1, 0, x1, 1, false)
  let (x2, z2) := if sw then (x3, z3) else (x2, z2)
  toLe 32 (x2 * invMod z2 p % p)

end Sys2Proof.Machine
end

