-- ==== Sys2Proof/Machine/KeyAlg.lean ====
section
/-! DEFINITION. Algorithms of keys: material lengths (R189), key classes (R176), usages (R180, R190), attributes (R181, R768),
fingerprints (R168), and the SP 800-108 derivation of R138. -/

namespace Sys2Proof.Machine

/-- The material bytes of an algorithm code and KEY_BITS; none where R189 lists no such pair. -/
def matLen (alg bits : Nat) : Option Nat :=
  if alg = 0x01 then (if bits = 128 then some 16 else none)
  else if alg = 0x02 then (if bits = 192 then some 24 else none)
  else if alg = 0x03 then (if bits = 256 then some 32 else none)
  else if alg = 0x04 then (if bits = 128 then some 16 else none)
  else if alg = 0x05 then (if bits = 192 then some 24 else none)
  else if alg = 0x06 then (if 128 ≤ bits ∧ bits ≤ 1024 ∧ bits % 8 = 0 then some (bits / 8) else none)
  else if alg = 0x10 then (if bits ∈ [2048, 3072, 4096, 6144, 8192] then some (5 * bits / 16) else none)
  else if alg = 0x20 ∨ alg = 0x23 then (if bits = 256 then some 32 else none)
  else if alg = 0x21 ∨ alg = 0x24 then (if bits = 384 then some 48 else none)
  else if alg = 0x22 then (if bits = 521 then some 66 else none)
  else if alg = 0x28 ∨ alg = 0x2A then (if bits = 255 then some 32 else none)
  else if alg = 0x29 then (if bits = 448 then some 57 else none)
  else if alg = 0x30 then (if bits = 512 then some 64 else none)
  else if alg = 0x31 then (if bits = 768 then some 64 else none)
  else if alg = 0x32 then (if bits = 1024 then some 64 else none)
  else if alg = 0x38 then (if bits = 44 then some 32 else none)
  else if alg = 0x39 then (if bits = 65 then some 32 else none)
  else if alg = 0x3A then (if bits = 87 then some 32 else none)
  else none

/-- The algorithm codes of R189. -/
def algCodes : List Nat :=
  [0x01, 0x02, 0x03, 0x04, 0x05, 0x06, 0x10, 0x20, 0x21, 0x22, 0x23, 0x24, 0x28, 0x29, 0x2A, 0x30, 0x31, 0x32, 0x38, 0x39, 0x3A]

/-- The key class of an algorithm code (R176): 0 AES to 7 ML-DSA. -/
def keyClass (alg : Nat) : Nat :=
  if alg ≤ 0x03 then 0 else if alg ≤ 0x05 then 1 else if alg = 0x06 then 2 else if alg = 0x10 then 3
  else if alg ≤ 0x24 then 4 else if alg ≤ 0x2A then 5 else if alg ≤ 0x32 then 6 else 7

/-- Entries a key of that many material bytes takes (R167, R189). -/
def keyEntries (n : Nat) : Nat := max 1 ((n + 31) / 32)

def isAes (alg : Nat) : Bool := 1 ≤ alg && alg ≤ 3
def isTdes (alg : Nat) : Bool := alg == 4 || alg == 5
def isWeier (alg : Nat) : Bool := 0x20 ≤ alg && alg ≤ 0x24

/-! The usages of R180. -/
def uEncrypt : Nat := 0x01
def uDecrypt : Nat := 0x02
def uWrap : Nat := 0x03
def uUnwrap : Nat := 0x04
def uDerive : Nat := 0x05
def uMacGen : Nat := 0x06
def uMacVer : Nat := 0x07
def uSign : Nat := 0x08
def uVerify : Nat := 0x09
def uPinEnc : Nat := 0x0A
def uPinTran : Nat := 0x0B
def uPinVer : Nat := 0x0C
def uCard : Nat := 0x0D
def uEmv : Nat := 0x0E

/-- A usage fits an algorithm (R190). -/
def usageFits (alg u : Nat) : Bool :=
  let sym := isAes alg || isTdes alg
  if u = uEncrypt ∨ u = uDecrypt ∨ u = uWrap ∨ u = uPinEnc ∨ u = uPinTran ∨ u = uEmv then sym
  else if u = uUnwrap then sym || alg == 0x10
  else if u = uDerive then sym || alg == 0x06 || isWeier alg || alg == 0x2A || (0x30 ≤ alg && alg ≤ 0x32)
  else if u = uMacGen ∨ u = uMacVer then sym || alg == 0x06
  else if u = uSign ∨ u = uVerify then
    alg == 0x10 || isWeier alg || alg == 0x28 || alg == 0x29 || (0x38 ≤ alg && alg ≤ 0x3A)
  else if u = uPinVer ∨ u = uCard then isTdes alg
  else false

/-- The fingerprint of a key (R168). -/
def fingerprint (alg bits : Nat) (mat : Bytes) : Bytes := (sha256 (byte alg :: toBe 2 bits ++ mat)).take 8

/-- Whether an expected fingerprint of eight bytes admits a key's (R73). -/
def fpMatches (want have_ : Bytes) : Bool := isZero want || want == have_

/-! ### Derivation (R138, R770) -/

/-- The 82-byte fixed input of R138. -/
def fixedInput (i : Nat) (low label : Bytes) (domain owner hearth slot gen lbits : Nat) : Bytes :=
  toBe 4 i ++ padTo 32 low ++ padTo 32 label ++ [0x00, byte domain] ++ toBe 2 owner ++ [byte hearth, byte slot]
    ++ toBe 4 gen ++ toBe 4 lbits

/-- The counter-mode KDF with AES-CMAC under a key as the PRF. -/
def kdfCmac (key low label : Bytes) (domain owner hearth slot gen bytes : Nat) : Bytes :=
  kdfCtr (cmac .aes key) 16 (fun i => fixedInput i low label domain owner hearth slot gen (8 * bytes)) bytes

/-- The same KDF with HMAC-SHA-256 (R770). -/
def kdfHmac (key low label : Bytes) (domain owner hearth slot gen bytes : Nat) : Bytes :=
  kdfCtr (hmac sha256 64 key) 32 (fun i => fixedInput i low label domain owner hearth slot gen (8 * bytes)) bytes

/-- Derivation from a 512-bit root: ember or test root. -/
def deriveRoot (root label : Bytes) (domain owner hearth slot gen bytes : Nat) : Bytes :=
  kdfCmac (root.take 32) (root.drop 32) label domain owner hearth slot gen bytes

/-- The test root (R212). -/
def testRootBytes : Bytes := (List.range 64).map (fun i => byte (0x5A ^^^ i))

/-- The value that two shares encode (R142). -/
def Shared.value (x : Shared) : Bytes := xorBytes x.s x.m

/-- The root a hearth's derivation unit uses: the test root, or the ember shadow once loaded (R137, R212). -/
def hearthRoot (x : Hearth) : Option Bytes := if x.testRoot then some testRootBytes else x.shadow.map Shared.value

/-- An internal hearth key (R140). -/
def internalKey (root : Bytes) (label : String) (h slot gen bytes : Nat) : Bytes :=
  deriveRoot root (ascii label) 0x01 0 h slot gen bytes

/-! ### Recipes and slot records (R151 to R155) -/

/-- The attributes of a recipe. -/
structure Recipe where
  label  : Bytes
  gen    : Nat
  alg    : Nat
  usage  : Nat
  flags  : Nat
  state  : Nat
  bits   : Nat
  owner  : Nat
  vfA    : Nat
  vfB    : Nat
  expiry : Nat
  resv   : Bytes
  deriving DecidableEq, Repr

def parseRecipe (b : Bytes) : Recipe :=
  { label := slice b 0 32, gen := fieldLe b 0x20 4, alg := byteAt b 0x24, usage := byteAt b 0x25, flags := byteAt b 0x26,
    state := byteAt b 0x27, bits := fieldLe b 0x28 2, owner := fieldLe b 0x2A 2, vfA := fieldLe b 0x2C 2,
    vfB := fieldLe b 0x2E 2, expiry := fieldLe b 0x30 8, resv := slice b 0x38 8 }

/-- A wrapping slot (R153). -/
def Recipe.wrapping (r : Recipe) : Bool := r.alg == 0x03 && r.usage == uWrap

/-- A recipe R152, R153 and R160 step 11 accept for a slot 0 to 253. -/
def Recipe.valid (r : Recipe) : Bool :=
  r.state == 1 && decide (r.alg ≤ 0x06 ∧ 1 ≤ r.alg) && (matLen r.alg r.bits).isSome && usageFits r.alg r.usage
    && flagNonce r.flags == 0 && decide (r.flags < 64) && !flagResident r.flags && isZero r.resv
    && (decide (r.vfA < 512) || r.vfA == 0xFFFF) && (decide (r.vfB < 512) || r.vfB == 0xFFFF)

/-- The material of a fixed slot: 512 bits for a wrapping slot, KEY_BITS otherwise (R153). -/
def slotMaterial (root : Bytes) (h slot : Nat) (r : Recipe) : Bytes :=
  let n := if r.wrapping then 64 else (matLen r.alg r.bits).getD 0
  deriveRoot root r.label 0x02 r.owner h slot r.gen n

/-- A slot record (R155) without its MAC. -/
def slotRecordBody (recipe fp : Bytes) (slot h counter : Nat) : Bytes :=
  padTo 64 (recipe.take 64) ++ padTo 8 (fp.take 8) ++ [byte slot, byte h, 0, 0] ++ toLe 4 counter

def slotRecordMac (root : Bytes) (h : Nat) (body : Bytes) : Bytes := cmac .aes (internalKey root "slot record" h 0 0 32) body

def slotRecord (root recipe fp : Bytes) (slot h counter : Nat) : Bytes :=
  slotRecordBody recipe fp slot h counter ++ slotRecordMac root h (slotRecordBody recipe fp slot h counter)

/-! ### Attribute operands (R195, R768) -/

/-- Attributes in the order of KEY_GENERATE's operands. -/
structure AttrOp where
  alg   : Nat
  usage : Nat
  flags : Nat
  bits  : Nat
  vfA   : Nat
  vfB   : Nat
  limit : Nat
  expiry : Nat
  label : Bytes
  clean : Bool
  deriving DecidableEq, Repr

/-- 40 bytes of attributes. -/
def parseAttrs (b : Bytes) : AttrOp :=
  { alg := byteAt b 0, usage := byteAt b 1, flags := byteAt b 2, bits := fieldLe b 4 2, vfA := fieldLe b 6 2,
    vfB := fieldLe b 8 2, limit := fieldLe b 0x0C 4, expiry := fieldLe b 0x10 8, label := slice b 0x18 16,
    clean := byteAt b 3 == 0 && fieldLe b 0x0A 2 == 0 }

/-- Malformed attribute values: BAD_DESCRIPTOR (R768). -/
def AttrOp.malformed (a : AttrOp) : Bool :=
  !a.clean || !(algCodes.contains a.alg) || decide (a.usage = 0 ∨ 0x0E < a.usage) || flagNonce a.flags == 3
    || decide (64 ≤ a.flags) || flagResident a.flags || decide (512 ≤ a.vfA ∧ a.vfA ≠ 0xFFFF)
    || decide (512 ≤ a.vfB ∧ a.vfB ≠ 0xFFFF) || (a.vfA == 0xFFFF) != flagAnyVf a.flags

/-- Values the part does not permit: KEY_USAGE_DENIED (R768, R182, R183, R190). -/
def AttrOp.denied (a : AttrOp) (nonceAllowed : Bool) : Bool :=
  (matLen a.alg a.bits).isNone || !usageFits a.alg a.usage || (flagNonce a.flags != 0 && !nonceAllowed)
    || (flagNonce a.flags == 2 && a.limit == 0)

/-- The mask of the hearth positions that VF_A and VF_B hold. -/
def vfMask (s : State) (h vfA vfB : Nat) : Nat :=
  (s.positions h).foldl (fun m p => if p.2 = vfA ∨ p.2 = vfB then setBit m p.1 true else m) 0

/-! ### Curves, hashes and sets by code -/

def curveOf (alg : Nat) : Curve :=
  if alg = 0x20 then p256 else if alg = 0x21 then p384 else if alg = 0x22 then p521 else if alg = 0x23 then bp256 else bp384

/-- The hash of PARAM.HASH in 0x04xx (R348): function, output length, block length, PKCS #1 prefix of its DigestInfo. -/
def pkHash (c : Nat) : (Bytes → Bytes) × Nat :=
  if c = 1 then (sha256, 32) else if c = 2 then (sha384, 48) else (sha512, 64)

/-- DER prefix of DigestInfo for SHA-256, SHA-384 and SHA-512. -/
def digestInfo (c : Nat) : Bytes :=
  let n := (pkHash c).2
  [0x30, byte (17 + n), 0x30, 0x0D, 0x06, 0x09, 0x60, 0x86, 0x48, 0x01, 0x65, 0x03, 0x04, 0x02, byte c, 0x05, 0x00, 0x04, byte n]

/-- The hash functions of R227: function, output bytes, block or rate bytes. -/
def hashFn (f : Nat) : (Bytes → Bytes) × Nat × Nat :=
  if f = 1 then (sha256, 32, 64) else if f = 2 then (sha384, 48, 128) else if f = 3 then (sha512, 64, 128)
  else if f = 4 then (sha3_256, 32, 136) else if f = 5 then (sha3_384, 48, 104) else (sha3_512, 64, 72)

/-- The RSA parts of a stored key (R189): p, q, dp, dq, qinv. -/
structure RsaKey where
  p : Nat
  q : Nat
  dp : Nat
  dq : Nat
  qinv : Nat
  deriving DecidableEq, Repr

def rsaKey (mat : Bytes) : RsaKey :=
  let n := mat.length / 5
  ⟨fieldBe mat 0 n, fieldBe mat n n, fieldBe mat (2 * n) n, fieldBe mat (3 * n) n, fieldBe mat (4 * n) n⟩

/-- The public key of an asymmetric key's material in the encodings of R347. -/
def publicKey (alg bits : Nat) (mat : Bytes) : Bytes :=
  if alg = 0x10 then toBe (bits / 8) ((rsaKey mat).p * (rsaKey mat).q)
  else if isWeier alg then
    let c := curveOf alg
    match c.mul (beNat mat) c.g with
    | some (x, y) => toBe c.len x ++ toBe c.len y
    | none => zeros (2 * c.len)
  else if alg = 0x28 then edPublic false mat
  else if alg = 0x29 then edPublic true mat
  else if alg = 0x2A then x25519 mat (toLe 32 9)
  else if alg ≤ 0x32 then kemEk (kemParams bits) mat
  else (dsaKeyGen (dsaParams bits) mat).pk

/-- The length of a public key (R347, R349). -/
def publicKeyLen (alg bits : Nat) : Nat :=
  if alg = 0x10 then bits / 8
  else if isWeier alg then 2 * (curveOf alg).len
  else if alg = 0x28 ∨ alg = 0x2A then 32
  else if alg = 0x29 then 57
  else if alg ≤ 0x32 then kemEkLen (kemParams bits)
  else dsaPkLen (dsaParams bits)

/-- The length of a signature. -/
def signatureLen (alg bits : Nat) : Nat :=
  if alg = 0x10 then bits / 8
  else if isWeier alg then 2 * (curveOf alg).len
  else if alg = 0x28 then 64
  else if alg = 0x29 then 114
  else dsaSigLen (dsaParams bits)

end Sys2Proof.Machine
end

