-- ==== Sys2Proof/Machine/MemPath.lean ====
section
/-! DEFINITION. The memory path (R464 to R515): the address map of hearth DDR, ranges and their state, poison, the ownership
checker, the counters of integrity ranges, captures of violations, and the stages an access passes. -/

namespace Sys2Proof.Machine

def memPage (h : Nat) : Page := pgH .mempath h
def mpuPage (h m : Nat) : Page := pgH .mpu h m

/-! ### Layout (R466, R467, R471, R472) -/

/-- The capacity in GiB of a MEM_CFG; 0 for one that R466 does not list. -/
def capGib (rate width ranks density : Nat) : Nat :=
  if 3 ≤ rate then 0
  else if width = 1 then
    (if density = 0 then 8 else if density = 1 then 12 else if density = 2 then 16 else 0) * (1 + ranks)
  else if density = 0 then 16 * (1 + ranks)
  else if density = 1 then (if ranks = 0 then 24 else 0)
  else if density = 2 then 32 * (1 - ranks)
  else 0

def mib : Nat := 2 ^ 20

def State.memState (s : State) (h : Nat) : Nat := s.rd (memPage h) Reg.MEM_STATUS_STATE
def State.memReady (s : State) (h : Nat) : Bool := s.memState h == 2

/-- The installed capacity in bytes. -/
def State.memCap (s : State) (h : Nat) : Nat := 2 ^ 30 * s.rd (memPage h) Reg.MEM_CFG_CAP_GIB

/-- The DDR offset of the internal region, the last 64 MiB of the capacity: the end of the owner area. -/
def State.memInner (s : State) (h : Nat) : Nat := 64 * mib * (16 * s.rd (memPage h) Reg.MEM_CFG_CAP_GIB - 1)

/-- The areas of the internal region. -/
inductive InnerArea where
  | ownTable | heldOut | saveArea | working | metadata | dump | reserved
  deriving DecidableEq, Repr

/-- The area of an offset from the start of the internal region (R472). -/
def innerArea (o : Nat) : InnerArea :=
  if o < 32 * mib then .ownTable
  else if o < 48 * mib then .heldOut
  else if o < 48 * mib + 512 * 1024 then .saveArea
  else if o < 54 * mib then .working
  else if o < 63288 * 1024 then .metadata
  else if o < 64312 * 1024 then .dump
  else .reserved

def heldOutBase : Nat := 32 * mib
def saveBase : Nat := 48 * mib
def dumpBase : Nat := 63288 * 1024

/-! ### Ranges (R474 to R489) -/

def rsOff : Nat := 0
def rsInit : Nat := 1
def rsActive : Nat := 2
def rsBroken : Nat := 3

def causeUe : Nat := 1
def causeMac : Nat := 2
def causeMajor : Nat := 3
def causeRootLost : Nat := 4
def causeRootChange : Nat := 5

def State.rangeState (s : State) (h r : Nat) : Nat := s.rd (memPage h) (Reg.RNG_STATUS_STATE r)
def State.range (s : State) (h r : Nat) : MemRange := (s.H h).mem.ranges.getD r {}

def State.modMem (s : State) (h : Nat) (f : MemPath → MemPath) : State := s.modH h (fun x => { x with mem := f x.mem })

/-- The metadata bytes of a data size (R484). -/
def metaSize (n : Nat) : Nat := n * 37 / 256

def spanHas (base size off : Nat) : Bool := decide (base ≤ off ∧ off < base + size)
def spansMeet (b1 n1 b2 n2 : Nat) : Bool := decide (b1 < b2 + n2 ∧ b2 < b1 + n1)

/-- The range whose data holds a DDR offset, unless it is OFF. -/
def State.rangeAt (s : State) (h off : Nat) : Option Nat :=
  (List.range 8).find? (fun r =>
    s.rangeState h r != rsOff && spanHas (s.range h r).base (s.range h r).size off)

/-- An event of HEARTH.MEMPATH or HEARTH.MPUmm, which carries the page's capture (R647). -/
def raiseMem (h : Nat) (e : Ev) (p : Page) (inst : Nat) (s : State) : State :=
  raiseH h e p { inst := inst, payload := captureBytes p s } s

/-- Entry of a range to BROKEN (R479); in a running hearth it is fatal for range 0 (R492). -/
def breakRange (h r cause : Nat) (running : Bool) (s : State) : State :=
  if s.rangeState h r = rsBroken then s
  else
    let s := (s.wr (memPage h) (Reg.RNG_STATUS_STATE r) rsBroken).wr (memPage h) (Reg.RNG_STATUS_CAUSE r) cause
    let s := raiseMem h evRangeBroken (memPage h) r s
    if running ∧ r = 0 then enterFatal h fatRange0Broken s else s

/-! ### The metadata of an integrity range (R484 to R487) -/

/-- The page and the counters of a line of a range. -/
def MemRange.pageOf (g : MemRange) (off : Nat) : Nat := (off - g.base) / 4096
def MemRange.ctrOf (g : MemRange) (page : Nat) : PageCtr := g.ctrs.getD page {}

/-- Pages, and the nodes of a level of the tree: an eighth of the level below, rounded up (R486). -/
def MemRange.pages (g : MemRange) : Nat := g.size / 4096
def MemRange.nodesAt (g : MemRange) (l : Nat) : Nat := (g.pages + 8 ^ l - 1) / 8 ^ l

/-- The stored levels: the first with eight nodes or fewer is the top one. -/
def MemRange.topLevel (g : MemRange) : Nat := (((List.range 12).map (· + 1)).find? (fun l => decide (g.nodesAt l ≤ 8))).getD 12

/-- Where a level's nodes begin in the metadata area: level 1 first, from 9S/64 (R484). -/
def MemRange.levelAt (g : MemRange) (l : Nat) : Nat :=
  g.metaAt + g.size * 9 / 64 + 64 * (((List.range (l - 1)).map (fun k => g.nodesAt (k + 1))).sum)

/-- The DDR lines of the MAC line and of the counter block of a data line (R484). -/
def MemRange.macLineOf (g : MemRange) (off : Nat) : Nat :=
  (g.metaAt + g.size / 64) / 64 + g.pageOf off * 8 + (off - g.base) / 512 % 8

def MemRange.blockLineOf (g : MemRange) (off : Nat) : Nat := g.metaAt / 64 + g.pageOf off

/-- From a data line's counter block up to its node of the top stored level (R486). -/
def MemRange.pathOf (g : MemRange) (off : Nat) : List Nat :=
  g.blockLineOf off :: (List.range g.topLevel).map (fun l => g.levelAt (l + 1) / 64 + g.pageOf off / 8 ^ (l + 1))

/-- What an access to a data line reads from DDR beside it (R487): its MAC line unless that is cached, and its path up to the first
cached ancestor or the root. -/
def nodesRead (cached : List Nat) (g : MemRange) (off : Nat) : List Nat :=
  (if cached.contains (g.macLineOf off) then [] else [g.macLineOf off]) ++ (g.pathOf off).takeWhile (fun l => !cached.contains l)

/-- The 256 KiB of the node cache in lines; a full cache gives up a line of its choice (R487; log 93). -/
def nodeLinesMax : Nat := 4096

def cacheNode (h l : Nat) (s : State) : State :=
  let ns := (s.H h).mem.nodes
  if ns.length < nodeLinesMax then s.modMem h (fun m => { m with nodes := m.nodes ++ [l] })
  else
    let (b, s) := s.free 2
    s.modMem h (fun m => { m with nodes := m.nodes.set (leNat b % nodeLinesMax) l })

/-- The nodes of an access to a data line of an integrity range are read into the node cache (R487, R624). -/
def readNodes (h off : Nat) (s : State) : State :=
  match s.rangeAt h off with
  | none => s
  | some r =>
    let g := s.range h r
    if g.mode ≠ 2 ∨ s.rangeState h r ≠ rsActive then s
    else
      let ls := nodesRead (s.H h).mem.nodes g off
      ls.foldl (fun s l => cacheNode h l s) (addCtr h 162 ls.length s)

/-- The finding lies in a line that the access reads from DDR. -/
def findingRead (s : State) (h off : Nat) (c : LineCheck) : Bool :=
  let ns := (s.H h).mem.nodes
  match s.rangeAt h off with
  | none => true
  | some r =>
    let g := s.range h r
    match c with
    | .macLine => !ns.contains (g.macLineOf off)
    | .counter _ => !ns.contains (g.blockLineOf off)
    | .node l _ => ((g.pathOf off).take (l + 1)).all (fun n => !ns.contains n)
    | _ => true

/-! ### Poison (R492, R493) -/

def State.poisoned (s : State) (h off : Nat) : Bool := (s.H h).mem.poison.contains (off / 64)

def markPoison (ln : Nat) (p : List Nat) : List Nat := if p.contains ln then p else p ++ [ln]

/-- Lines marked poisoned. MEM_POISON_LO and HI keep the first until VALID is cleared. -/
def poisonLines (h : Nat) (ls : List Nat) (s : State) : State :=
  let s := s.modMem h (fun m => { m with poison := ls.foldl (fun p l => markPoison l p) m.poison })
  match ls with
  | [] => s
  | l :: _ =>
    if s.flag (memPage h) Reg.MEM_POISON_HI_VALID then s
    else ((s.wr (memPage h) Reg.MEM_POISON_LO_OFFSET (l * 64)).wr (memPage h) Reg.MEM_POISON_HI_OFFSET
      (l * 64 / 2 ^ 32)).wr (memPage h) Reg.MEM_POISON_HI_VALID 1

def clearPoison (h off : Nat) (s : State) : State :=
  s.modMem h (fun m => { m with poison := m.poison.filter (fun l => l != off / 64) })

/-- The first data line of a group of eight that share a MAC line. -/
def lineGroup (off : Nat) : List Nat := (List.range 8).map (fun i => off / 512 * 8 + i)

/-- The lines of the pages below a node of level `l` (0: a counter block) that cover a page of a range. -/
def nodeLines (g : MemRange) (l off : Nat) : List Nat :=
  let n := 8 ^ l
  let page := (off - g.base) / 4096 / n * n
  (List.range (min n (g.size / 4096 - page) * 64)).map (fun i => g.base / 64 + page * 64 + i)

/-- MEM_UE_COUNT (R492, R516). -/
def ueCount (h : Nat) (s : State) : State := errReg h (memPage h) Reg.MEM_UE_COUNT_COUNT 193 s
def ceCount (h : Nat) (s : State) : State := errReg h (memPage h) Reg.MEM_CE_COUNT_COUNT 192 s

/-- The outcome of what a line's read finds (R468, R492). A finding that its range cannot have leaves the state as it is. -/
def lineFinding (h off : Nat) (c : LineCheck) (s : State) : State :=
  let r := s.rangeAt h off
  let integ := match r with
    | some r => (s.range h r).mode == 2
    | none => false
  match c with
  | .clean => s
  | .corrected => ceCount h s
  | .uncorrectable => raiseMem h evMemPoison (memPage h) 0xFF (poisonLines h [off / 64] (ueCount h s))
  | .integrity =>
    if integ then raiseMem h evMemIntegrity (memPage h) (r.getD 0) (poisonLines h [off / 64] (ueCount h s)) else s
  | .macLine => if integ then poisonLines h (lineGroup off) (ueCount h s) else s
  | .counter ecc =>
    if integ then
      breakRange h (r.getD 0) (if ecc then causeUe else causeMac) true
        (poisonLines h (nodeLines (s.range h (r.getD 0)) 0 off) (ueCount h s))
    else s
  | .node l ecc =>
    if integ then
      breakRange h (r.getD 0) (if ecc then causeUe else causeMac) true
        (poisonLines h (nodeLines (s.range h (r.getD 0)) l off) (ueCount h s))
    else s
  | .ownTable => breakRange h 0 causeUe true (ueCount h s)

/-! ### Stored bytes -/

/-- What a byte that nothing has written reads as. DESIGN CHOICE: zero. -/
def unwritten : Byte := 0

def memFind : List Host.Cell → Nat → Option Byte
  | [], _ => none
  | (a, b) :: r, n => if a = n then some b else memFind r n

/-- The byte at an address. -/
def memGet (m : List Host.Cell) (a : Nat) : Byte := (memFind m a).getD unwritten

def memDel : List Host.Cell → Nat → List Host.Cell
  | [], _ => []
  | (a, b) :: r, n => if a = n then r else (a, b) :: memDel r n

def memIns : List Host.Cell → Nat → Byte → List Host.Cell
  | [], n, x => [(n, x)]
  | (a, b) :: r, n, x =>
    if n < a then (n, x) :: (a, b) :: r else if n = a then (n, x) :: r else (a, b) :: memIns r n x

/-- A byte written, in the canonical form. -/
def memSet (m : List Host.Cell) (a : Nat) (x : Byte) : List Host.Cell :=
  if x = unwritten then memDel m a else memIns m a x

/-- Bytes written from an address on. -/
def memPut : List Host.Cell → Nat → Bytes → List Host.Cell
  | m, _, [] => m
  | m, a, x :: r => memPut (memSet m a x) (a + 1) r

def memBytes (m : List Host.Cell) (a n : Nat) : Bytes := (List.range n).map (fun i => memGet m (a + i))

/-- The canonical form: addresses strictly rise and no entry holds what an unlisted address reads as. -/
def Memory.wf : List Host.Cell → Bool
  | [] => true
  | [(_, b)] => b != unwritten
  | (a, b) :: (a', b') :: r => b != unwritten && decide (a < a') && Memory.wf ((a', b') :: r)

/-- Memory without the bytes of a span. -/
def memClear (m : List Host.Cell) (a n : Nat) : List Host.Cell := m.filter (fun c => c.1 < a || a + n ≤ c.1)

/-! ### Minor and major counters (R488, R489) -/

def majorEnd : Nat := 2 ^ 56 - 1

/-- A page given to the re-encryption unit: it rewrites one page and queues four; a further page waits for the first. -/
def queueReenc (h r page : Nat) (s : State) : State :=
  let s := addCtr h 161 1 s
  let s := s.modMem h (fun m =>
    { m with reenc := (if 5 ≤ m.reenc.length then m.reenc.drop 1 else m.reenc) ++ [(r, page)] })
  let n := (s.H h).mem.reenc.length
  (s.wr (memPage h) Reg.MEM_REENC_BUSY 1).wr (memPage h) Reg.MEM_REENC_QUEUED (n - 1)

/-- The counters of a line's write in an integrity range. The Boolean tells that the major counter is at its end, so that the
write is refused. -/
def countWrite (h off : Nat) (s : State) : State × Bool :=
  match s.rangeAt h off with
  | none => (s, false)
  | some r =>
    let g := s.range h r
    if g.mode ≠ 2 then (s, false)
    else
      let page := (off - g.base) / 4096
      let line := (off - g.base) / 64 % 64
      let c := g.ctrs.getD page {}
      let put := fun (c : PageCtr) (s : State) => s.modMem h (fun m =>
        { m with ranges := m.ranges.upd r (fun g => { g with ctrs := g.ctrs.put page c }) })
      if c.minors.getD line 0 < 127 then
        (put { c with minors := c.minors.put line (c.minors.getD line 0 + 1) } s, false)
      else if majorEnd ≤ c.major then (breakRange h r causeMajor true s, true)
      else (queueReenc h r page (put { major := c.major + 1 } s), false)

/-- A write of up to 64 bytes within a line that stages 1 to 4 have passed: counters, poison, stored bytes. The Boolean tells
that the counters refused it. -/
def lineWrite (h off : Nat) (d : Bytes) (s : State) : State × Bool :=
  let (s, refused) := countWrite h off s
  if refused then (s, true)
  else
    let s := if d.length = 64 ∧ off % 64 = 0 then clearPoison h off s else s
    (addCtr h 160 1 (s.modMem h (fun m => { m with ddr := memPut m.ddr off d })), false)

/-- The pieces of an access that lie in one line each. -/
def linePieces : Nat → Nat → Nat → List (Nat × Nat)
  | 0, _, _ => []
  | f + 1, off, n =>
    if n = 0 then [] else
      let k := min n (64 - off % 64)
      (off, k) :: linePieces f (off + k) (n - k)

/-- Bytes written through their ranges, line by line. -/
def ddrWrite (h off : Nat) (d : Bytes) (s : State) : State × Bool :=
  (linePieces (d.length / 64 + 2) off d.length).foldl (fun a p =>
    if a.2 then a else lineWrite h p.1 (slice d (p.1 - off) p.2) a.1) (s, false)

/-- A span filled with zeros through its range (R499): every line written, every poison mark of the span cleared. -/
def ddrZero (h off n : Nat) (s : State) : State :=
  let s := (linePieces (n / 64 + 2) off n).foldl (fun s p => (countWrite h p.1 s).1) s
  s.modMem h (fun m =>
    { m with
      ddr := memClear m.ddr off n
      poison := m.poison.filter (fun l => l * 64 < off || off + n ≤ l * 64) })

/-! ### The ownership table (R495 to R500) -/

def idInner : Nat := 0xFFF1
def idOuter : Nat := 0xFFF2
def idDbgInner : Nat := 0xFFF4
def idDbgOuter : Nat := 0xFFF5

def ownValid (e : Nat) : Bool := e.testBit 16
def ownWrite (e : Nat) : Bool := e.testBit 17
def ownExec (e : Nat) : Bool := e.testBit 18
def ownDbg (e : Nat) : Bool := e.testBit 19

/-- An entry R495 allows. -/
def ownEntryOk (e : Nat) : Bool :=
  decide (e < 2 ^ 20) && (ownValid e || e % 2 ^ 16 == 0)
    && (!ownExec e || e % 2 ^ 16 == idInner || e % 2 ^ 16 == idOuter)

def State.ownEntry (s : State) (h page : Nat) : Nat := (s.H h).mem.owners.getD page 0

/-- R497. -/
def ownAllows (e ident : Nat) (write fetch : Bool) : Bool :=
  let o := e % 2 ^ 16
  ownValid e
    && (o == ident || (ident == idDbgInner && (o == idInner || o == idOuter) && ownDbg e)
      || (ident == idDbgOuter && o == idOuter && ownDbg e))
    && (!write || ownWrite e) && (!fetch || ownExec e)

/-! ### Violations (R512) -/

def vNoRegion : Nat := 1
def vPermission : Nat := 2
def vUnmapped : Nat := 3
def vInternal : Nat := 4
def vRangeState : Nat := 5
def vOwnership : Nat := 6
def vTransition : Nat := 7

/-- Who makes a data-fabric access and how. -/
structure Req where
  master : Nat
  outer  : Bool := false
  mmode  : Bool := true
  /-- 0 read, 1 write, 2 fetch, 3 atomic -/
  kind   : Nat := 0
  ident  : Nat := 0
  vf     : Nat := 0x1FF
  deriving DecidableEq, Repr

def Req.writes (q : Req) : Bool := q.kind == 1 || q.kind == 3
def Req.fetches (q : Req) : Bool := q.kind == 2

/-- A violation recorded in the page of its master or of the memory path. -/
def violate (h : Nat) (q : Req) (addr cause : Nat) (s : State) : State :=
  let own := decide (vInternal ≤ cause)
  let p := if own then memPage h else mpuPage h q.master
  let s := errCtr h (if own then 206 else 205) s
  if s.flag p Reg.MERR_CAPTURE3_VALID then s.bump p Reg.MERR_COUNT_COUNT
  else
    let gen := if own then s.rd p Reg.OWN_STATUS_GEN else s.rd p Reg.PAGE_GEN_GEN
    let s := ((s.wr p Reg.MERR_CAPTURE0_ADDR_LO addr).wr p Reg.MERR_CAPTURE1_ADDR_HI (addr / 2 ^ 32)).wr p
      Reg.MERR_CAPTURE1_MASTER q.master
    let s := ((s.wr p Reg.MERR_CAPTURE1_WORLD (b2n q.outer)).wr p Reg.MERR_CAPTURE1_MMODE (b2n q.mmode)).wr p
      Reg.MERR_CAPTURE1_KIND (if q.master = 22 then 4 + q.kind % 2 else q.kind)
    let s := ((s.wr p Reg.MERR_CAPTURE2_VF q.vf).wr p Reg.MERR_CAPTURE2_IDENTITY q.ident).wr p Reg.MERR_CAPTURE3_GEN gen
    let s := (s.wr p Reg.MERR_CAPTURE3_CAUSE cause).wr p Reg.MERR_CAPTURE3_VALID 1
    if own then raiseMem h evOwnViolation p 0xFF s else raiseMem h evMpuViolation p q.master s

/-! ### Stages 2 to 6 for an access to hearth DDR -/

/-- Masters that pass stages 1 to 4 for every address (R507). -/
def passesAll (m : Nat) : Bool := m == 5 || m == 23 || m == 24

/-- Stage 2 (R473): the master may touch the area. A big-number engine's save and restore and the stoker's held outputs are
ordered by the stoker, inside the commands that make them. -/
def innerAllows (a : InnerArea) (q : Req) : Bool :=
  if passesAll q.master then true
  else match a with
    | .working => (decide (q.master < 4) && !q.outer) || (q.master == 22 && !q.outer && !q.fetches)
    | .dump => (decide (q.master < 4) && !q.outer && !q.fetches) || (q.master == 25 && !q.writes)
    | .heldOut => q.master == 4
    | _ => false

/-- What the memory path answers. -/
inductive Answer where
  | refused (cause : Nat)
  | poison
  | ok (data : Bytes)
  deriving DecidableEq, Repr

/-- Stages 2 to 4 for an access at a DDR offset: the refusal or the poison that ends it, or none. -/
def ddrCheck (h : Nat) (q : Req) (off : Nat) (c : LineCheck) (s : State) : State × Option Answer :=
  let addr := 2 ^ 35 + off
  let inner := decide (s.memInner h ≤ off)
  let page := off / 4096
  let free := passesAll q.master
  if inner ∧ !innerAllows (innerArea (off - s.memInner h)) q then (violate h q addr vInternal s, some (.refused vInternal))
  else
    let r := s.rangeAt h off
    let rs := match r with
      | some r => s.rangeState h r
      | none => rsOff
    if (rs = rsInit ∨ rs = rsBroken) ∧ !free then
      let s := violate h q addr vRangeState s
      (s, some (if q.writes then .refused vRangeState else .poison))
    else
      let tableLine := s.memInner h + page * 4
      let s := if !inner ∧ (c = .ownTable ∨ s.poisoned h tableLine) then lineFinding h tableLine .ownTable s else s
      if !inner ∧ !free ∧ (s.H h).mem.transit.any (fun o => o.page ≤ page && page < o.page + o.count) then
        (violate h q addr vTransition s, some (.refused vTransition))
      else if !inner ∧ !free ∧ !ownAllows (s.ownEntry h page) q.ident q.writes q.fetches then
        (violate h q addr vOwnership s, some (.refused vOwnership))
      else (s, none)

/-- A finding in the metadata of a line, not in the line itself. -/
def inNodes : LineCheck → Bool
  | .macLine => true
  | .counter _ => true
  | .node _ _ => true
  | _ => false

/-- Stages 5 and 6 for at most one line at a DDR offset; `c` is what the reads of the line and of its metadata find. A write of part of
a line reads the line, one of a whole line its metadata alone (R487, R488). -/
def ddrData (h : Nat) (q : Req) (off n : Nat) (d : Bytes) (c : LineCheck) (s : State) : State × Answer :=
  let whole := q.kind = 1 ∧ n = 64 ∧ off % 64 = 0
  let found := c != .ownTable && (inNodes c || !decide whole) && findingRead s h off c
  let s := if inNodes c then s else readNodes h off s
  let s := if found then lineFinding h off c s else s
  let s := if whole then s else addCtr h 159 1 s
  let rs' := match s.rangeAt h off with
    | some r => s.rangeState h r
    | none => rsOff
  if !whole ∧ (s.poisoned h off ∨ rs' = rsBroken) then (s, .poison)
  else if whole ∧ rs' = rsBroken ∧ found = true then (violate h q (2 ^ 35 + off) vRangeState s, .refused vRangeState)
  else
    let old := memBytes (s.H h).mem.ddr off n
    if q.writes then
      let (s, bad) := lineWrite h off (slice d 0 n) s
      if bad then (violate h q (2 ^ 35 + off) vRangeState s, .refused vRangeState) else (s, .ok old)
    else (s, .ok old)

/-- Stages 2 to 6 for at most one line at a DDR offset. -/
def ddrAccess (h : Nat) (q : Req) (off n : Nat) (d : Bytes) (c : LineCheck) (s : State) : State × Answer :=
  match ddrCheck h q off c s with
  | (s, some a) => (s, a)
  | (s, none) => ddrData h q off n d c s

/-- What a line's answer adds to the bytes read so far, or the status that ends the DMA. -/
def stokerTake (acc : Bytes) : State × Answer → State × Except Nat Bytes
  | (s, .ok b) => (s, .ok (acc ++ b))
  | (s, .poison) => (s, .error stPoison)
  | (s, .refused c) => (s, .error (if c = vRangeState then stRangeBroken else stOwnership))

/-- One line of the stoker's DMA: nothing after a line that was refused or poisoned. -/
def stokerLine (h : Nat) (q : Req) (wr : Option Bytes) (off : Nat) (a : State × Except Nat Bytes) (p : Nat × Nat) :
    State × Except Nat Bytes :=
  match a.2 with
  | .error e => (a.1, .error e)
  | .ok acc => stokerTake acc (ddrAccess h q p.1 p.2 (slice (wr.getD []) (p.1 - off) p.2) .clean a.1)

/-- The stoker's DMA for a queued job (R496, R497, R514): the accesses under the identity of the job's VF, line by line, each
line found clean; the status the job ends with, or the bytes read. -/
def stokerDma (h v off n : Nat) (wr : Option Bytes) (s : State) : State × Except Nat Bytes :=
  let q : Req := { master := 4, kind := if wr.isSome then 1 else 0, ident := s.ft v Reg.FT_OWNER_ID, vf := v }
  if !s.memReady h ∨ s.memInner h < off + n then
    let cause := if !s.memReady h ∨ s.memCap h ≤ off then vUnmapped else vNoRegion
    (violate h q (2 ^ 35 + off) cause s, .error stOwnership)
  else (linePieces (n / 64 + 2) off n).foldl (stokerLine h q wr off) (s, .ok [])

end Sys2Proof.Machine
end

