-- ==== Sys2Proof/Machine/OpTable.lean ====
section
/-! DEFINITION. The submission descriptor (R67 to R75), the definition of each opcode (R772, R773: form, key references, bits
and bytes it uses), the checks of an opcode's own descriptor, and the engine classes it needs. -/

namespace Sys2Proof.Machine

/-! ### Fields of a descriptor (R67, R68, R69) -/

def dOp (d : Bytes) : Nat := fieldLe d 0 2
def dFlags (d : Bytes) : Nat := fieldLe d 2 2
def dTag (d : Bytes) : Nat := fieldLe d 4 4
def dGroup (d : Bytes) : Nat := fieldLe d 8 2
def dParam (d : Bytes) : Nat := fieldLe d 0x0A 2
def dInline (d : Bytes) : Nat := fieldLe d 0x0C 2
def dRef (d : Bytes) (i : Nat) : Bytes := slice d (0x10 + 0x10 * i) 16
def dInAddr (d : Bytes) : Nat := fieldLe d 0x40 8
def dOutAddr (d : Bytes) : Nat := fieldLe d 0x48 8
def dInLen (d : Bytes) : Nat := fieldLe d 0x50 4
def dOutLen (d : Bytes) : Nat := fieldLe d 0x54 4
def dParams (d : Bytes) : Bytes := slice d 0x58 40
def dOperands (d : Bytes) : Bytes := slice d 0x40 64
def dPtr (d : Bytes) : Bool := (dFlags d).testBit 0
def dSglIn (d : Bytes) : Bool := (dFlags d).testBit 1
def dSglOut (d : Bytes) : Bool := (dFlags d).testBit 2
def dFence (d : Bytes) : Bool := (dFlags d).testBit 3
def dQuiet (d : Bytes) : Bool := (dFlags d).testBit 4
def dNonceSrc (d : Bytes) : Nat := bits (dFlags d) 5 2

/-! Fields of a key reference (R73). -/
def rKind (r : Bytes) : Nat := byteAt r 0
def rFlags (r : Bytes) : Nat := byteAt r 1
def rIndex (r : Bytes) : Nat := fieldLe r 2 2
def rHandle (r : Bytes) : Bytes := slice r 8 8
def rAddr (r : Bytes) : Nat := fieldLe r 8 8

def kNone : Nat := 0
def kCache : Nat := 1
def kFixed : Nat := 2
def kDdr : Nat := 3
def kHost : Nat := 4
def anyKind : List Nat := [1, 2, 3, 4]

/-- R73, R75: a key reference that is malformed whatever the opcode. -/
def refMalformed (r : Bytes) : Bool :=
  decide (4 < rKind r) || decide (1 < rFlags r) || fieldLe r 4 4 != 0
    || (rKind r == kNone && !isZero r)
    || (rKind r == kCache && decide (8192 ≤ rIndex r))
    || (rKind r == kFixed && decide (256 ≤ rIndex r))
    || ((rKind r == kDdr || rKind r == kHost) && rIndex r != 0)

/-- What an opcode's definition demands of a key reference (R772): the kinds it may have, NONE among them where it may be
absent, and the usages that permit its use; no usage listed means any. -/
structure RefDef where
  kinds  : List Nat := [0]
  usages : List Nat := []
  deriving DecidableEq, Repr

/-- The definition of an opcode (R772, R773). -/
structure OpDef where
  op      : Nat
  /-- inline form: the INLINE_LEN values it requires, none where the opcode has no inline form -/
  inl     : Option (List Nat) := none
  /-- pointer form -/
  ptr     : Bool := false
  /-- operand bytes used in inline form: offset from 0x40 and length -/
  inlUsed : List (Nat × Nat) := []
  /-- PARAMS bytes used in pointer form: offset from 0x58 and length -/
  parUsed : List (Nat × Nat) := []
  /-- PARAM bits that the encoding defines -/
  param   : Nat := 0
  useIn   : Bool := false
  useOut  : Bool := false
  r0      : RefDef := {}
  r1      : RefDef := {}
  deriving DecidableEq, Repr

def allLens : List Nat := List.range 65

def opDefs : List OpDef :=
  [{ op := 0x0101, inl := some [0], r0 := { kinds := [3, 4] } },
   { op := 0x0102, ptr := true, useOut := true, parUsed := [(0, 16)], r0 := { kinds := [1] },
     r1 := { kinds := [2], usages := [uWrap] } },
   { op := 0x0103, inl := some allLens, inlUsed := [(0, 3), (4, 6), (0xC, 36)], r1 := { kinds := [0, 2], usages := [uWrap] } },
   { op := 0x0104, inl := some [0], r0 := { kinds := [1] } },
   { op := 0x0105, ptr := true, useOut := true, r0 := { kinds := [1, 2] } },
   { op := 0x0106, ptr := true, useIn := true, parUsed := [(0, 40)], r0 := { kinds := anyKind, usages := [uDerive] } },
   { op := 0x0107, ptr := true, useOut := true, r0 := { kinds := anyKind }, r1 := { kinds := anyKind, usages := [uWrap] } },
   { op := 0x0108, ptr := true, useIn := true, parUsed := [(0, 40)], r0 := { kinds := anyKind, usages := [uUnwrap] } },
   { op := 0x0110, ptr := true, useOut := true },
   { op := 0x0111, ptr := true, useIn := true, useOut := true, r0 := { kinds := [1] } },
   { op := 0x0112, ptr := true, useIn := true },
   { op := 0x0120, ptr := true, useIn := true, param := 0x01FF, r0 := { kinds := anyKind, usages := [uUnwrap] } },
   { op := 0x0121, ptr := true, useOut := true, param := 0x0003, r0 := { kinds := [1] },
     r1 := { kinds := anyKind, usages := [uWrap] } }] ++
  [{ op := 0x0201, inl := some [8, 16], ptr := true, inlUsed := [(0, 64)], parUsed := [(0, 24)], param := 0x3FFF,
     useIn := true, useOut := true, r0 := { kinds := anyKind, usages := [uEncrypt] }, r1 := { kinds := 0 :: anyKind, usages := [uEncrypt] } },
   { op := 0x0202, inl := some [8, 16], ptr := true, inlUsed := [(0, 64)], parUsed := [(0, 40)], param := 0x3FFF,
     useIn := true, useOut := true, r0 := { kinds := anyKind, usages := [uDecrypt] }, r1 := { kinds := 0 :: anyKind, usages := [uDecrypt] } },
   { op := 0x0301, ptr := true, param := 0x000F, useIn := true, useOut := true },
   { op := 0x0302, ptr := true, param := 0x000F, useIn := true, useOut := true },
   { op := 0x0303, inl := some allLens, ptr := true, inlUsed := [(0, 64)], parUsed := [(0, 20)], param := 0x7FFF,
     useIn := true, useOut := true, r0 := { kinds := anyKind, usages := [uMacGen] } },
   { op := 0x0304, inl := some allLens, ptr := true, inlUsed := [(0, 64)], parUsed := [(0, 20), (24, 16)], param := 0x7FFF,
     useIn := true, r0 := { kinds := anyKind, usages := [uMacVer] } }] ++
  [{ op := 0x0401, ptr := true, param := 0xFF7F, useIn := true, useOut := true, r0 := { kinds := anyKind, usages := [uSign] } },
   { op := 0x0402, ptr := true, param := 0xFF7F, useIn := true, parUsed := [(0, 1), (4, 2)],
     r0 := { kinds := 0 :: anyKind, usages := [uVerify] } },
   { op := 0x0403, ptr := true, useOut := true, r0 := { kinds := anyKind } },
   { op := 0x0404, ptr := true, param := 0xFF7F, useIn := true, parUsed := [(0, 40)], r0 := { kinds := anyKind, usages := [uDerive] } },
   { op := 0x0405, ptr := true, param := 0xFF7F, useIn := true, useOut := true, parUsed := [(0, 40)] },
   { op := 0x0406, ptr := true, param := 0xFF7F, useIn := true, parUsed := [(0, 40)], r0 := { kinds := anyKind, usages := [uDerive] } },
   { op := 0x0407, ptr := true, param := 0xFF7F, useIn := true, parUsed := [(0, 40)], r0 := { kinds := anyKind, usages := [uUnwrap] } },
   { op := 0x04F0, inl := some [0] }] ++
  [{ op := 0x0501, inl := some [64], inlUsed := [(0, 39)], param := 0x07FF, r0 := { kinds := anyKind, usages := [uPinTran, uDerive] },
     r1 := { kinds := anyKind, usages := [uPinEnc] } },
   { op := 0x0502, inl := some [64], inlUsed := [(0, 58)], param := 0x0FC7, r0 := { kinds := anyKind, usages := [uPinTran, uDerive] },
     r1 := { kinds := anyKind, usages := [uPinVer] } },
   { op := 0x0503, inl := some [64], inlUsed := [(0, 56)], param := 0x0FC7, r0 := { kinds := anyKind, usages := [uPinTran, uDerive] },
     r1 := { kinds := anyKind, usages := [uPinVer] } },
   { op := 0x0510, inl := some [17], inlUsed := [(0, 15)], r0 := { kinds := anyKind, usages := [uCard] } },
   { op := 0x0511, inl := some [17], inlUsed := [(0, 17)], r0 := { kinds := anyKind, usages := [uCard] } },
   { op := 0x0520, ptr := true, param := 0x3FFF, useIn := true, parUsed := [(0, 12)],
     r0 := { kinds := anyKind, usages := [uMacGen, uDerive] } },
   { op := 0x0521, ptr := true, param := 0x3FFF, useIn := true, parUsed := [(0, 12), (16, 16)],
     r0 := { kinds := anyKind, usages := [uMacVer, uDerive] } },
   { op := 0x0530, ptr := true, param := 0x0007, useIn := true, parUsed := [(0, 14), (16, 13), (32, 8)],
     r0 := { kinds := anyKind, usages := [uEmv] } },
   { op := 0x0601, inl := some [0], ptr := true, param := 0x011F, useOut := true },
   { op := 0x0602, inl := some [0] },
   { op := 0x0701, inl := some [12], inlUsed := [(0, 3), (4, 2), (8, 4)] },
   { op := 0x0702, inl := some [4], inlUsed := [(0, 3)] },
   { op := 0x0703, inl := some [4], inlUsed := [(2, 1)] },
   { op := 0x0704, inl := some [4], inlUsed := [(2, 1)] },
   { op := 0x0705, inl := some ((List.range 48).map (· + 1)), inlUsed := [(0, 64)] }]

def opDef? (op : Nat) : Option OpDef := opDefs.find? (fun e => e.op == op)

/-- Every byte outside the listed ranges is zero. -/
def onlyUsed (b : Bytes) (used : List (Nat × Nat)) : Bool :=
  (List.range b.length).all (fun i => used.any (fun u => decide (u.1 ≤ i ∧ i < u.1 + u.2)) || byteAt b i == 0)

/-- A key reference against an opcode's definition (R772). -/
def refFits (r : Bytes) (d : RefDef) : Bool := d.kinds.contains (rKind r)

/-! ### Per-opcode descriptor checks -/

/-- PARAM of the cipher opcodes (R229). -/
def pMode (p : Nat) : Nat := p % 16
def pTagLen (p : Nat) : Nat := bits p 4 5
def pNonceLen (p : Nat) : Nat := bits p 9 5

def mECB : Nat := 0
def mCBC : Nat := 1
def mCTR : Nat := 2
def mGCM : Nat := 3
def mCCM : Nat := 4
def mXTS : Nat := 5
def mSIV : Nat := 6
def mKW : Nat := 7
def mKWP : Nat := 8

/-- A cipher mode that takes a hardware nonce (R218). -/
def modeNonce (m : Nat) : Bool := m == mCTR || m == mGCM || m == mCCM || m == mSIV

/-- The tag length of a cipher job: 0 means 16. -/
def cTag (p : Nat) : Nat := if pTagLen p = 0 then 16 else pTagLen p

/-- The nonce length of a CCM or SIV job: with a hardware nonce, 12 (R249). -/
def cNonceLen (p src : Nat) : Nat := if src ≠ 0 then 12 else pNonceLen p

/-- PARAM combinations that R229 refuses. -/
def cipherParamBad (p src : Nat) : Bool :=
  let m := pMode p
  let t := pTagLen p
  let n := pNonceLen p
  let tag :=
    if m = mGCM then t ≠ 0 ∧ ¬(12 ≤ t ∧ t ≤ 16)
    else if m = mCCM then t ≠ 0 ∧ ¬(4 ≤ t ∧ t ≤ 16 ∧ t % 2 = 0)
    else if m = mSIV then t ≠ 0 ∧ t ≠ 16
    else t ≠ 0
  let nonce :=
    if src ≠ 0 then n ≠ 0 ∧ (n ≠ 12 ∨ ¬(m = mCCM ∨ m = mSIV))
    else if m = mCCM then ¬(7 ≤ n ∧ n ≤ 13)
    else if m = mSIV then 16 < n
    else n ≠ 0
  decide (8 < m) || decide tag || decide nonce

/-- The IV field's used bytes for a mode (R230): the rest of the 16 bytes is zero. -/
def ivBytes (p src : Nat) : Nat :=
  let m := pMode p
  if src ≠ 0 then 0
  else if m = mCBC ∨ m = mCTR ∨ m = mXTS then 16
  else if m = mGCM then 12
  else if m = mCCM ∨ m = mSIV then pNonceLen p
  else 0

/-- PARAMS fields of R230. -/
def qIv (d : Bytes) : Bytes := slice d 0x58 16
def qAad (d : Bytes) : Nat := fieldLe d 0x68 4
def qDu (d : Bytes) : Nat := fieldLe d 0x6C 4
def qTag (d : Bytes) : Bytes := slice d 0x70 16

/-- Modes with associated data (R223). -/
def modeAad (m : Nat) : Bool := m == mGCM || m == mCCM || m == mSIV

/-- Descriptor checks of ENCRYPT and DECRYPT (R218 to R224, R229 to R231, R246, R249), with the status of the first failure. -/
def cipherCheck (d : Bytes) (dec : Bool) : Option Nat :=
  let p := dParam d
  let m := pMode p
  let src := dNonceSrc d
  let n := if dPtr d then dInLen d else dInline d
  if cipherParamBad p src || decide (src = 3) || (src != 0 && (dec || !modeNonce m)) then some stBadDescriptor
  else if (rKind (dRef d 1) != kNone) != (m == mXTS || m == mSIV) then some stBadDescriptor
  else if !dPtr d then (if m = mECB then none else some stBadDescriptor)
  else if !isZero ((qIv d).drop (ivBytes p src)) then some stBadDescriptor
  else if (qAad d != 0 && !modeAad m) || (qDu d != 0 && m != mXTS) || decide (2 ^ 24 ≤ qAad d ∨ 2 ^ 24 ≤ qDu d) then
    some stBadDescriptor
  else if dec && !isZero ((qTag d).drop (if m = mGCM ∨ m = mCCM then cTag p else 0)) then some stBadDescriptor
  else
    let bad :=
      if m = mECB ∨ m = mCBC then decide (n = 0)
      else if m = mCTR then
        decide (n = 0) || decide (2 ^ 32 < (if src = 0 then fieldBe d 0x64 4 else 1) + (n + 15) / 16)
      else if m = mXTS then
        let du := if qDu d = 0 ∨ n ≤ qDu d then n else qDu d
        decide (n < 16) || decide (1 ≤ qDu d ∧ qDu d ≤ 15) || decide (1 ≤ n % du ∧ n % du ≤ 15)
      else if m = mKW then
        if dec then decide (n < 24 ∨ 65544 < n ∨ n % 8 ≠ 0) else decide (n < 16 ∨ 65536 < n ∨ n % 8 ≠ 0)
      else if m = mKWP then
        if dec then decide (n < 16 ∨ 65536 < n ∨ n % 8 ≠ 0) else decide (n = 0 ∨ 65528 < n)
      else decide (n < qAad d) || (m == mSIV && dec && decide (n < qAad d + 16))
        || (m == mCCM && decide (2 ^ (8 * (15 - cNonceLen p src)) - 1 < n - qAad d))
    if bad then some stBadLength else none

/-- MAC fields (R229). -/
def pMac (p : Nat) : Nat := p % 16
def pFunc (p : Nat) : Nat := bits p 4 4
def pMacLen (p : Nat) : Nat := bits p 8 7

/-- The tag length of a MAC job; for CMAC the key's block decides the full length. -/
def macTagLen (p : Nat) (tdes : Bool) : Nat :=
  if pMacLen p ≠ 0 then pMacLen p
  else if pMac p = 2 then (hashFn (pFunc p)).2.1 else if pMac p = 0 ∧ tdes then 8 else 16

/-- PARAM of MAC jobs that R218, R227 and R229 refuse before the key is known. -/
def macParamBad (p : Nat) : Bool :=
  let t := pMacLen p
  if pMac p = 0 then decide (pFunc p ≠ 0) || decide (t ≠ 0 ∧ ¬(4 ≤ t ∧ t ≤ 16))
  else if pMac p = 1 then decide (pFunc p ≠ 0) || decide (t ≠ 0 ∧ ¬(12 ≤ t ∧ t ≤ 16))
  else if pMac p = 2 then
    decide (¬(1 ≤ pFunc p ∧ pFunc p ≤ 6))
      || decide (t ≠ 0 ∧ ¬((hashFn (pFunc p)).2.1 / 2 ≤ t ∧ t ≤ (hashFn (pFunc p)).2.1))
  else true

/-- Bytes of the expected HMAC tag that stand at the head of the input (R230). -/
def macHead (d : Bytes) : Nat :=
  if dOp d = 0x0304 ∧ dPtr d ∧ pMac (dParam d) = 2 then macTagLen (dParam d) false - 16 else 0

/-- Descriptor checks of MAC_GENERATE and MAC_VERIFY. -/
def macCheck (d : Bytes) (ver : Bool) : Option Nat :=
  let p := dParam d
  let src := dNonceSrc d
  let t := macTagLen p false
  if macParamBad p || decide (src = 3) || (src != 0 && (ver || pMac p != 1)) then some stBadDescriptor
  else if !dPtr d then
    if pMac p = 1 ∨ (16 < t ∧ pMac p = 2) then some stBadDescriptor
    else if ver ∧ dInline d < (if pMacLen p = 0 ∧ pMac p = 0 then 8 else t) then some stBadLength else none
  else if !isZero ((qIv d).drop (if pMac p = 1 ∧ src = 0 then 12 else 0)) then some stBadDescriptor
  else if (qAad d ≠ 0 ∧ pMac p ≠ 1) ∨ 2 ^ 24 ≤ qAad d then some stBadDescriptor
  else if ver && !isZero ((qTag d).drop (min 16 t)) then some stBadDescriptor
  else if pMac p = 1 ∧ qAad d ≠ dInLen d then some stBadLength
  else if dInLen d < macHead d then some stBadLength
  else none

/-- SCHEME, HASH and CTX_LEN of the 0x04xx opcodes (R348). -/
def pScheme (p : Nat) : Nat := p % 16
def pHash (p : Nat) : Nat := bits p 4 3
def pCtx (p : Nat) : Nat := p / 256

/-- R348: PARAM values no opcode accepts, and schemes the opcode never performs. -/
def pkParamBad (op p : Nat) : Bool :=
  let sc := pScheme p
  let hashed := sc == 0 || sc == 1 || sc == 2 || sc == 5
  decide (7 < sc) || (hashed && !(decide (1 ≤ pHash p ∧ pHash p ≤ 3))) || (!hashed && pHash p != 0)
    || (pCtx p != 0 && sc != 3 && sc != 4)
    || (if op = 0x0401 ∨ op = 0x0402 then decide (4 < sc) else if op = 0x0404 then sc != 6
        else if op = 0x0405 ∨ op = 0x0406 then sc != 7 else sc != 5)

/-- Descriptor checks of the 0x04xx opcodes that take a PARAM (R348, R350, R768). -/
def pkCheck (d : Bytes) : Option Nat :=
  let op := dOp d
  let a := parseAttrs (dParams d)
  if op = 0x0403 ∨ op = 0x04F0 then none
  else if pkParamBad op (dParam d) then some stBadDescriptor
  else if op = 0x0402 then
    if rKind (dRef d 0) = kNone then (if algCodes.contains a.alg then none else some stBadDescriptor)
    else if isZero (dParams d) then none else some stBadDescriptor
  else if op = 0x0401 then none
  else if a.malformed then some stBadDescriptor else none

/-- PARAM of the PIN opcodes (R298). -/
def pSrcFmt (p : Nat) : Nat := bits p 0 3
def pDstFmt (p : Nat) : Nat := bits p 3 3
def pSrcKey (p : Nat) : Nat := bits p 6 2
def pBase (p : Nat) : Bool := p.testBit 8
def pWkAlg (p : Nat) : Nat := bits p 9 2
def pMethod (p : Nat) : Bool := p.testBit 11

def fmtOk (f : Nat) : Bool := f == 0 || f == 1 || f == 3 || f == 4

/-- Whether a PIN job uses the PAN: formats 0, 3 and 4, and the verification-value method. -/
def usesPan (op p : Nat) : Bool :=
  let f := fun (x : Nat) => x == 0 || x == 3 || x == 4
  f (pSrcFmt p) || (op == 0x0501 && f (pDstFmt p)) || (op != 0x0501 && pMethod p)

/-- Descriptor checks of the PIN opcodes (R297 to R299, R314). -/
def pinCheck (d : Bytes) : Option Nat :=
  let op := dOp d
  let p := dParam d
  let b := dOperands d
  let sf := pSrcFmt p
  let df := pDstFmt p
  let sk := pSrcKey p
  let zero := fun (off len : Nat) => isZero (slice b off len)
  let used := usesPan op p
  let bad :=
    !fmtOk sf || (op == 0x0501 && !fmtOk df) || sk == 3 || (pBase p && sk == 0) || pWkAlg p == 3
      || (pWkAlg p != 0 && sk != 2) || (sk == 2 && sf != 4) || (sk == 1 && sf == 4)
      || (op == 0x0501 && sf != 1 && df == 1)
      || (sf != 4 && !zero 8 8) || (sk == 0 && !zero 0x10 12) || (sk == 1 && !zero 0x1A 2)
      || (!used && !zero 0x1C 11)
      || (op != 0x0501 && pMethod p && (!zero 0x27 9 || !zero 0x30 7))
      || (op != 0x0501 && !pMethod p && (!zero 0x37 3 || decide (3 < byteAt b 0x27)))
      || (op == 0x0503 && (!zero 0x30 7 || !zero 0x38 2))
  if bad then some stBadDescriptor else none

/-- PARAM of the payment MACs (R317). -/
def pmAlg (p : Nat) : Nat := bits p 0 2
def pmPad (p : Nat) : Bool := p.testBit 2
def pmLen (p : Nat) : Nat := bits p 3 5
def pmKey (p : Nat) : Nat := bits p 8 2
def pmDir (p : Nat) : Bool := p.testBit 10
def pmBase (p : Nat) : Bool := p.testBit 11
def pmWk (p : Nat) : Nat := bits p 12 2

/-- Descriptor checks of the payment MACs (R317, R318). -/
def payMacCheck (d : Bytes) : Option Nat :=
  let p := dParam d
  let k := pmKey p
  let aesKey := k == 2
  let par := dParams d
  let bad :=
    pmAlg p == 3 || (pmAlg p == 2 && pmPad p) || k == 3 || (aesKey && pmAlg p != 2) || pmWk p == 3 || (pmWk p != 0 && k != 2)
      || ((pmDir p || pmBase p) && k == 0) || decide (pmLen p < 4) || decide ((if pmAlg p = 2 ∧ k ≠ 1 then 16 else 8) < pmLen p)
      || (k == 0 && !isZero (slice par 0 12)) || (k == 1 && !isZero (slice par 10 2))
      || (dOp d == 0x0521 && !isZero (slice par (16 + pmLen p) (16 - pmLen p)))
  if bad then some stBadDescriptor
  else if dInLen d = 0 ∨ 4096 < dInLen d then some stBadLength
  else none

/-- Descriptor checks of EMV_CRYPTOGRAM (R321). -/
def emvCheck (d : Bytes) : Option Nat :=
  let p := dParam d
  let par := dParams d
  let arpc := p.testBit 0
  let m2 := p.testBit 1
  let z := fun (off len : Nat) => isZero (slice par off len)
  let n := byteAt par 0x1C
  let bad :=
    (!arpc && (m2 || !z 0x18 4 || !z 0x1C 1 || !z 0x20 8))
      || (arpc && !m2 && (!z 0x1A 2 || !z 0x1C 1 || !z 0x20 8))
      || (arpc && m2 && (decide (8 < n) || !z (0x20 + n) (8 - n)))
  if bad then some stBadDescriptor
  else if dInLen d = 0 ∨ 256 < dInLen d then some stBadLength
  else none

/-- Descriptor checks that belong to an opcode's own definition, beyond those every opcode shares. -/
def opCheck (d : Bytes) : Option Nat :=
  let op := dOp d
  if op = 0x0103 then
    let a := parseAttrs ((dOperands d).take 40)
    if a.malformed ∨ (rKind (dRef d 1) = kNone ∧ !isZero (slice (dOperands d) 0x28 8)) then some stBadDescriptor else none
  else if op = 0x0106 then
    if (parseAttrs (dParams d)).malformed then some stBadDescriptor else if dInLen d ≠ 32 then some stBadLength else none
  else if op = 0x0108 then
    let a := parseAttrs (dParams d)
    if a.malformed then some stBadDescriptor
    else match matLen a.alg a.bits with
      | some n => if dInLen d = 8 + (n + 7) / 8 * 8 then none else some stBadLength
      | none => none
  else if op = 0x0111 then (if dInLen d = 1984 then none else some stBadLength)
  else if op = 0x0112 then (if dInLen d < 1776 then some stBadLength else none)
  else if op = 0x0120 then
    let n := dParam d % 256
    if 0x0E < n then some stBadDescriptor else none
  else if op = 0x0201 then cipherCheck d false
  else if op = 0x0202 then cipherCheck d true
  else if op = 0x0301 then (if 1 ≤ dParam d ∧ dParam d ≤ 6 then none else some stBadDescriptor)
  else if op = 0x0302 then
    if dParam d = 7 ∨ dParam d = 8 then (if dOutLen d = 0 then some stBadLength else none) else some stBadDescriptor
  else if op = 0x0303 then macCheck d false
  else if op = 0x0304 then macCheck d true
  else if op / 256 = 4 then pkCheck d
  else if op = 0x0501 ∨ op = 0x0502 ∨ op = 0x0503 then pinCheck d
  else if op = 0x0520 ∨ op = 0x0521 then payMacCheck d
  else if op = 0x0530 then emvCheck d
  else if op = 0x0601 then
    let n := dParam d % 32
    if dPtr d then
      if n ≠ 0 then some stBadDescriptor else if dOutLen d = 0 ∨ dInLen d ≠ 0 then some stBadLength else none
    else if n = 0 ∨ 16 < n then some stBadLength else none
  else if op = 0x0701 then
    let o := dOperands d
    let member := byteAt o 2 != 0 || fieldLe o 4 2 != 0
    let bad := dGroup d != 0 || decide (1 < byteAt o 0) || (byteAt o 0 == 0 && (member || fieldLe o 8 4 != 0))
      || (byteAt o 0 == 1 && (fieldLe o 8 4 == 0 || decide (32 ≤ byteAt o 2)))
    if bad then some stBadDescriptor else none
  else if op = 0x0702 then
    let n := fieldLe (dOperands d) 0 2
    if 1 ≤ n ∧ n ≤ 64 then none else some stBadDescriptor
  else none

/-- The checks every descriptor of a defined opcode passes (R70, R75, R772, R773), then the opcode's own. -/
def descriptorStatus (d : Bytes) (e : OpDef) (sglOk compat : Bool) : Option Nat :=
  let ptr := dPtr d
  let fl := dFlags d
  let refs := [dRef d 0, dRef d 1, dRef d 2]
  let inlLen := dInline d
  let formBad := if ptr then !e.ptr else e.inl.isNone
  let lenBad := match e.inl with
    | some l => !ptr && !(l.contains inlLen)
    | none => false
  let bad :=
    decide (128 ≤ fl) || fieldLe d 0x0E 2 != 0 || decide (64 < inlLen) || (ptr && inlLen != 0)
      || (!ptr && (dSglIn d || dSglOut d))
      || (ptr && (decide (0x800000 < dInLen d) || decide (0x800000 < dOutLen d))) || !sglOk
      || refs.any refMalformed || !refFits (dRef d 0) e.r0 || !refFits (dRef d 1) e.r1 || rKind (dRef d 2) != kNone
      || formBad || lenBad
      || dParam d &&& e.param != dParam d
      || (!ptr && (!onlyUsed (dOperands d) e.inlUsed || !isZero ((dOperands d).drop inlLen)))
      || (ptr && !onlyUsed (dParams d) e.parUsed)
      || (ptr && !e.useOut && !compat && (dOutAddr d != 0 || dOutLen d != 0))
      || (ptr && !e.useIn && ((!compat && dInAddr d != 0) || (dInLen d != 0 && e.op != 0x0601)))
      || (dNonceSrc d != 0 && e.op != 0x0201 && e.op != 0x0303)
  if bad then some stBadDescriptor else opCheck d

/-! ### Engine classes an opcode needs (R22, R351, R770) -/

def needCipher : Nat := 0
def needHash : Nat := 1
def needBn : Nat := 2
def needBurner : Nat := 3

/-- The classes a job needs, in the order of R22. The algorithm of the KEYREF0 key matters to KEY_DERIVE only. -/
def opNeeds (d : Bytes) (alg0 : Nat) : List Nat :=
  let op := dOp d
  if op = 0x0102 then [0]
  else if op = 0x0103 then
    (if rKind (dRef d 1) = kFixed then [0] else []) ++ [1] ++ (if 3 ≤ keyClass (byteAt (dOperands d) 0) then [2] else [])
  else if op = 0x0106 then if alg0 = 0x06 then [1] else [0, 1]
  else if op = 0x0107 then [0]
  else if op = 0x0108 then [0, 1]
  else if op = 0x0110 then [1, 2]
  else if op = 0x0111 ∨ op = 0x0112 then [0, 1, 2]
  else if op = 0x0120 then [1, 3]
  else if op = 0x0121 then [3]
  else if op / 256 = 2 then [0]
  else if op = 0x0301 ∨ op = 0x0302 then [1]
  else if op / 256 = 3 then if pMac (dParam d) = 2 then [1] else [0]
  else if op = 0x04F0 then []
  else if op / 256 = 4 then
    (if pScheme (dParam d) = 0 ∧ (op = 0x0401 ∨ op = 0x0402) ∨ pScheme (dParam d) = 3
        ∨ (0x0404 ≤ op ∧ op ≤ 0x0407) then [1] else []) ++ [2]
  else if op / 256 = 5 then [3]
  else []

/-- The opcode is served by the hob (R290). -/
def isHob (op : Nat) : Bool := op / 256 == 5 || op == 0x0120 || op == 0x0121

/-- The unit in whose rows a job's data stands in shares: every job on an engine runs masked but HASH, XOF, PK_VERIFY and
CLEAR_OPERANDS (R232, R235, R286, R358). -/
def maskUnit (jb : Job) : Option Nat :=
  let op := dOp jb.desc
  if op = 0x0301 ∨ op = 0x0302 ∨ op = 0x0402 ∨ op = 0x04F0 then none else jb.units.head?

/-- The Shaim 3 inline operands exceed the 16 bytes of Shaim 2 inline form (R131), so the record is the whole input list. -/
def compatRecord (op : Nat) : Bool :=
  op == 0x0103 || op == 0x0501 || op == 0x0502 || op == 0x0503 || op == 0x0510 || op == 0x0511

end Sys2Proof.Machine
end

