-- ==== Sys2Proof/Machine/KeyStore.lean ====
section
/-! DEFINITION. The key cache (R166 to R175), fixed slots as key references name them, blobs (R191 to R194), key references at
dispatch and the key checks of R185. -/

namespace Sys2Proof.Machine

/-! ### The cache -/

/-- The material an entry's shares encode. -/
def KeyEntry.mat (e : KeyEntry) : Bytes := xorBytes e.shareA e.shareB

/-- The value that shares encode. -/
def unshare : List Bytes → Bytes
  | [] => []
  | a :: r => r.foldl xorBytes a

/-- The material of a held key: no register of the part holds it unmasked. -/
def KeyHold.mat (k : KeyHold) : Bytes := unshare k.parts

/-- `n` bytes of a mask generator's stream. -/
def MaskGen.draw (g : MaskGen) (n : Nat) : Bytes × MaskGen :=
  ((List.range n).map (fun i => Config.maskByte g.key g.start (g.given + i)), { g with given := g.given + n })

/-- A generator with a new key and starting value (R239). -/
def MaskGen.seed (g : MaskGen) (b : Bytes) : MaskGen := { g with key := b.take 32, start := slice b 32 16, given := 0, seeded := true }

/-- A value as fresh shares: two at masking order 1, three at order 2 (R232). -/
def MaskGen.split (g : MaskGen) (order2 : Bool) (v : Bytes) : List Bytes × MaskGen :=
  let (r, g) := g.draw v.length
  if order2 then
    let (q, g) := g.draw v.length
    ([xorBytes (xorBytes v r) q, r, q], g)
  else ([xorBytes v r, r], g)

/-- Shares with a fresh third one, from two (R233). -/
def MaskGen.third (g : MaskGen) (l : List Bytes) : List Bytes × MaskGen :=
  match l with
  | [a, b] =>
    let (r, g) := g.draw a.length
    ([xorBytes a r, b, r], g)
  | _ => (l, g)

/-- First entry of the transient reserve (R166). -/
def reserveBase : Nat := 7680

/-- A cache index that some extent covers. -/
def entryUsed (c : Tab KeyEntry) (i : Nat) : Bool := c.any (fun e => decide (e.1 ≤ i ∧ i < e.1 + e.2.extent))

/-- No extent meets the `n` entries from `i`. -/
def extentFree (c : Tab KeyEntry) (i n : Nat) : Bool :=
  c.all (fun e => decide (e.1 + e.2.extent ≤ i ∨ i + n ≤ e.1))

/-- The lowest free extent of `n` entries in a part of the cache (R167). -/
def findExtent (c : Tab KeyEntry) (lo hi n : Nat) : Option Nat :=
  ((List.range (hi - lo)).map (· + lo)).find? (fun i => decide (i + n ≤ hi) && extentFree c i n)

/-- A key placed in the transient reserve, or in entries 0 to 7,679 with its charge against a position's quota (R174, R175);
its shares are fresh. -/
def insertKey (h : Nat) (e : KeyEntry) (mat : Bytes) (s : State) : Option (Nat × State) :=
  let x := s.H h
  let n := keyEntries mat.length
  let trans := e.state == .transient
  let room := match e.charge with
    | some p => trans || decide (quotaUsed x p + n ≤ s.rd (kpPage h) (Reg.KP_KC_QUOTA p))
    | none => true
  if !room then none
  else
    match findExtent x.cache (if trans then reserveBase else 0) (if trans then 8192 else reserveBase) n with
    | none => none
    | some i =>
      let (b, s) := s.free mat.length
      some (i, s.modH h (fun x =>
        { x with cache := x.cache.put i { e with extent := n, shareA := xorBytes mat b, shareB := b } }))

/-- The positions an attribute's VF_A and VF_B name. -/
def attrVfSet (s : State) (h : Nat) (flags vfA vfB : Nat) : Nat := if flagAnyVf flags then 0 else vfMask s h vfA vfB

/-- The state code of an entry (R168). -/
def entryCode (e : KeyEntry) : Nat :=
  match e.state with
  | .valid => 1 | .pending => 2 | .transient => 4

/-- Bytes 0x40 to 0x7F of a head entry (R168). -/
def infoBytes (e : KeyEntry) (idx : Nat) : Bytes :=
  [byte (entryCode e), byte e.attr.alg] ++ toLe 2 e.attr.bits ++ [byte e.attr.usage, byte e.attr.flags]
    ++ toLe 2 e.attr.owner ++ toLe 8 e.vfSet ++ toLe 4 e.uses ++ toLe 4 e.attr.limit ++ toLe 8 e.attr.expiry
    ++ padTo 8 e.fp ++ toLe 8 e.nonceCtr ++ toLe 2 e.extent ++ toLe 2 idx ++ zeros 12

/-! ### Fixed slots -/

/-- The accepted record of a slot that can name a key: not 254 or 255, and a root to derive from (R157, R767). -/
def State.slot? (s : State) (h i : Nat) : Option SlotRec :=
  if 254 ≤ i ∨ (hearthRoot (s.H h)).isNone then none else (s.H h).slots.find? i

/-- Positions of a slot's effective VF set (R769). -/
def slotVfSet (s : State) (h : Nat) (r : Recipe) : Nat :=
  (s.positions h).foldl (fun m p =>
    if (r.vfA = 0xFFFF ∧ s.rd (kpPage h) (Reg.KP_OWNER_ID p.1) = r.owner) ∨ (r.vfA ≠ 0xFFFF ∧ (p.2 = r.vfA ∨ p.2 = r.vfB))
    then setBit m p.1 true else m) 0

/-- The key of a slot as the derivation unit gives it; it reaches an engine in shares (`shareSlots`). -/
def slotKey (s : State) (h i : Nat) (r : SlotRec) : KeyHold :=
  let q := parseRecipe r.recipe
  { use := .fixed i
    attr := { alg := q.alg, bits := q.bits, usage := q.usage,
              flags := if q.vfA = 0xFFFF then q.flags ||| 32 else q.flags, owner := q.owner, limit := 0, expiry := q.expiry }
    fp := r.fp
    parts := [slotMaterial ((hearthRoot (s.H h)).getD []) h i q]
    slot := some r }

/-- KEY_INFO of a slot (R769). -/
def slotInfo (s : State) (h i : Nat) (r : SlotRec) : Bytes :=
  let k := slotKey s h i r
  [0x01, byte k.attr.alg] ++ toLe 2 k.attr.bits ++ [byte k.attr.usage, byte k.attr.flags] ++ toLe 2 k.attr.owner
    ++ toLe 8 (slotVfSet s h (parseRecipe r.recipe)) ++ toLe 4 0 ++ toLe 4 0 ++ toLe 8 k.attr.expiry ++ padTo 8 r.fp
    ++ toLe 8 0 ++ toLe 2 0 ++ toLe 2 i ++ zeros 12

/-! ### Blobs -/

def blobMagic : Bytes := ascii "VXKB"

/-- What a blob's header says (R191). -/
structure Blob where
  ver  : Nat
  attr : KeyAttr
  vfA  : Nat := 0xFFFF
  vfB  : Nat := 0xFFFF
  gen  : Nat := 0
  slot : Nat := 0
  hearth : Nat := 0
  mat  : Nat := 0
  fp   : Bytes := []
  hdr  : Bytes := []
  ct   : Bytes := []
  siv  : Bytes := []
  deriving DecidableEq, Repr

/-- The length of a blob as its header gives it; 0 where the header gives none. -/
def blobLen (b : Bytes) : Nat :=
  if byteAt b 4 = 3 then 80 + fieldLe b 0x16 2
  else match matLen (byteAt b 5) (fieldLe b 6 2) with
    | some n => 48 + n
    | none => 0

/-- Steps 1 and 2 of R192. -/
def parseBlob (b : Bytes) (compat : Bool) : Except Nat Blob :=
  let ver := byteAt b 4
  if slice b 0 4 ≠ blobMagic ∨ ¬(ver = 3 ∨ (ver = 2 ∧ compat)) then .error stBlobVersion
  else if ver = 2 ∧ 0x2A < byteAt b 5 then .error stBlobVersion
  else if ver = 3 ∧ b.length ≠ blobLen b then .error stBadLength
  else
    let alg := byteAt b 5
    let kb := fieldLe b 6 2
    let usage := byteAt b 8
    let fl := byteAt b 9
    if ver = 3 then
      let n := fieldLe b 0x16 2
      let vfA := fieldLe b 0xC 2
      let vfB := fieldLe b 0xE 2
      let bad := decide (matLen alg kb ≠ some n) || decide (usage = 0 ∨ 0x0E < usage)
        || (fl &&& 0xDC != 0) || decide (512 ≤ vfA ∧ vfA ≠ 0xFFFF) || decide (512 ≤ vfB ∧ vfB ≠ 0xFFFF)
        || (vfA == 0xFFFF) != flagAnyVf fl || decide (253 < byteAt b 0x14) || fieldLe b 0x1C 4 != 0
      if bad then .error stBadDescriptor
      else .ok
        { ver := 3
          attr := { alg := alg, bits := kb, usage := usage, flags := fl, owner := fieldLe b 0xA 2,
                    limit := fieldLe b 0x18 4, expiry := fieldLe b 0x20 8 }
          vfA := vfA
          vfB := vfB
          gen := fieldLe b 0x10 4
          slot := byteAt b 0x14
          hearth := byteAt b 0x15
          mat := n
          fp := slice b 0x38 8
          hdr := b.take 64
          ct := slice b 64 n
          siv := slice b (64 + n) 16 }
    else
      match matLen alg kb with
      | none => .error stBadDescriptor
      | some n =>
        if b.length ≠ 48 + n then .error stBadLength
        else if usage = 0 ∨ 0x0E < usage ∨ 1 < fl ∨ 253 < byteAt b 0x10 ∨ !isZero (slice b 0x11 15) then
          .error stBadDescriptor
        else .ok
          { ver := 2
            attr := { alg := alg, bits := kb, usage := usage, flags := fl ||| 32, owner := fieldLe b 0xA 2 }
            gen := fieldLe b 0xC 4
            slot := byteAt b 0x10
            mat := n
            hdr := b.take 32
            ct := slice b 32 n
            siv := slice b (32 + n) 16 }

/-- Steps 1 to 7 of R192 for a VF: the header and the material. -/
def openBlob (s : State) (h v : Nat) (b : Bytes) : Except Nat (Blob × Bytes) :=
  match parseBlob b (s.H h).compat with
  | .error e => .error e
  | .ok q =>
    match s.slot? h q.slot with
    | none => .error stKeyNotFound
    | some r =>
      let rc := parseRecipe r.recipe
      if (q.ver = 3 ∧ q.hearth ≠ h) ∨ !rc.wrapping ∨ rc.gen ≠ q.gen then .error stKeyNotFound
      else
        match sivDec (slotKey s h q.slot r).mat [q.hdr] q.ct q.siv with
        | none => .error stTagMismatch
        | some mat =>
          if q.ver = 3 ∧ fingerprint q.attr.alg q.attr.bits mat ≠ q.fp then .error stTagMismatch
          else if s.ft v Reg.FT_OWNER_ID ≠ q.attr.owner ∨ !(flagAnyVf q.attr.flags || q.vfA == v || q.vfB == v) then
            .error stKeyOwner
          else if !usageFits q.attr.alg q.attr.usage then .error stKeyUsage
          else .ok (q, mat)

/-- The entry of an unwrapped blob. -/
def blobEntry (s : State) (h v : Nat) (q : Blob) (mat : Bytes) (keep pend : Bool) : KeyEntry :=
  { state := if !keep then .transient else if pend then .pending else .valid
    attr := q.attr
    vfSet := attrVfSet s h q.attr.flags q.vfA q.vfB
    fp := fingerprint q.attr.alg q.attr.bits mat
    charge := if keep then some (s.posOf v) else none }

/-- VF_A and VF_B of the blob of an entry: the VFs its set holds, lowest position first. -/
def setVfs (s : State) (h : Nat) (e : KeyEntry) : Nat × Nat :=
  let l := ((s.positions h).filter (fun p => e.vfSet.testBit p.1)).map (fun p => p.2)
  if flagAnyVf e.attr.flags then (0xFFFF, 0xFFFF) else (l.getD 0 0xFFFF, l.getD 1 0xFFFF)

/-- A key that version 2 can express (R194). -/
def v2Expressible (e : KeyEntry) : Bool :=
  decide (e.attr.alg ≤ 0x2A) && flagAnyVf e.attr.flags && (e.attr.flags &&& 0xDE == 0)
    && e.attr.limit == 0 && e.attr.expiry == 0

/-- A version 3 blob of a key under the key of a wrapping slot (R191, R188). -/
def makeBlob (h : Nat) (e : KeyEntry) (vfA vfB : Nat) (mat label kek : Bytes) (slot : Nat) (r : SlotRec) (limit : Nat) : Bytes :=
  let rc := parseRecipe r.recipe
  let hdr := blobMagic ++ [0x03, byte e.attr.alg] ++ toLe 2 e.attr.bits ++ [byte e.attr.usage, byte (e.attr.flags &&& 0x23)]
    ++ toLe 2 e.attr.owner ++ toLe 2 vfA ++ toLe 2 vfB ++ toLe 4 rc.gen ++ [byte slot, byte h] ++ toLe 2 mat.length
    ++ toLe 4 limit ++ zeros 4 ++ toLe 8 e.attr.expiry ++ padTo 16 label ++ padTo 8 e.fp
  let (v, ct) := sivEnc kek [hdr] mat
  hdr ++ ct ++ v

/-- A version 2 blob (R194). -/
def makeBlob2 (e : KeyEntry) (mat kek : Bytes) (slot : Nat) (r : SlotRec) : Bytes :=
  let hdr := blobMagic ++ [0x02, byte e.attr.alg] ++ toLe 2 e.attr.bits ++ [byte e.attr.usage, byte (e.attr.flags &&& 1)]
    ++ toLe 2 e.attr.owner ++ toLe 4 (parseRecipe r.recipe).gen ++ [byte slot] ++ zeros 15
  let (v, ct) := sivEnc kek [hdr] mat
  hdr ++ ct ++ v

/-! ### Key references at dispatch -/

/-- What a reference names: its key, the positions that may use it, and the counters of a cached entry. -/
structure KeyView where
  hold  : KeyHold
  set   : Nat := 0
  uses  : Nat := 0
  nonce : Nat := 0
  /-- a wrapping fixed slot (R153) -/
  wrapping : Bool := false
  deriving DecidableEq, Repr

def entryView (s : State) (h i : Nat) (e : KeyEntry) : KeyView :=
  { hold := { use := .cache i, attr := e.attr, fp := e.fp, parts := [e.shareA, e.shareB], set := e.vfSet, uses := e.uses }
    set := effSet s h e
    uses := e.uses
    nonce := e.nonceCtr }

/-- An entry in a state that a reference may name: a PENDING one for KEY_EVICT alone (R172, R198). -/
def namable (op : Nat) (e : KeyEntry) : Bool := e.state == .valid || (op == 0x0104 && e.state == .pending)

/-- Step 1 of R185 for reference `i` of a job: the entry or slot, with the expected fingerprint. -/
def refView (s : State) (h : Nat) (jb : Job) (i : Nat) : Option KeyView :=
  let r := dRef jb.desc i
  if rKind r = kCache then
    if reserveBase ≤ rIndex r then none
    else match (s.H h).cache.find? (rIndex r) with
      | some e => if namable (dOp jb.desc) e ∧ fpMatches (rHandle r) e.fp then some (entryView s h (rIndex r) e) else none
      | none => none
  else if rKind r = kFixed then
    match s.slot? h (rIndex r) with
    | some q =>
      if fpMatches (rHandle r) q.fp then
        some { hold := slotKey s h (rIndex r) q, set := slotVfSet s h (parseRecipe q.recipe),
               wrapping := (parseRecipe q.recipe).wrapping }
      else none
    | none => none
  else if rKind r = kDdr ∨ rKind r = kHost then
    match jb.unwrapped.find? (fun p => p.1 == i) with
    | some p => ((s.H h).cache.find? p.2).map (fun e => entryView s h p.2 e)
    | none => none
  else none

/-- The usages that permit an opcode's use of a reference: the definition's, narrowed by PARAM where it selects between a
direct key and a DUKPT base (R290, R320). -/
def refUsages (d : Bytes) (i : Nat) (e : OpDef) : List Nat :=
  let op := dOp d
  let p := dParam d
  if i = 1 then e.r1.usages
  else if op = 0x0501 ∨ op = 0x0502 ∨ op = 0x0503 then (if pSrcKey p = 0 then [uPinTran] else [uDerive])
  else if op = 0x0520 then (if pmKey p = 0 then [uMacGen] else [uDerive])
  else if op = 0x0521 then (if pmKey p = 0 then [uMacVer] else [uDerive])
  else e.r0.usages

/-- A reference exempt from KEYSRC (R176): the wrapping slot of blobs. -/
def srcExempt (op i : Nat) : Bool := i == 1 && (op == 0x0102 || op == 0x0103)

/-- The key source of the VF's policy admits the reference's KIND (R176). -/
def srcAllows (s : State) (h v : Nat) (kind alg : Nat) : Bool :=
  (s.rd (kpPage h) (Reg.KP_KEYSRC (s.posOf v))).testBit (keyClass alg) == (kind == kFixed)

/-- R247. -/
def nonceAllowed (flag src : Nat) (iv : Bytes) : Bool :=
  if src = 0 then flag != 2 && !(flag == 1 && byteAt iv 0 == 0xE7)
  else if src = 1 then flag == 1 else flag == 2

/-- Scheme and algorithm agree (R348). -/
def schemeFits (sc alg : Nat) : Bool :=
  if sc = 0 ∨ sc = 1 ∨ sc = 5 then alg == 0x10
  else if sc = 2 then isWeier alg
  else if sc = 3 then alg == 0x28 || alg == 0x29
  else if sc = 4 then decide (0x38 ≤ alg ∧ alg ≤ 0x3A)
  else if sc = 6 then isWeier alg || alg == 0x2A
  else decide (0x30 ≤ alg ∧ alg ≤ 0x32)

/-- The shared-secret bits of KEY_AGREE (R350). -/
def agreeBits (alg : Nat) : Nat := if alg = 0x21 ∨ alg = 0x24 then 384 else if alg = 0x22 then 528 else 256

/-- The attributes of the key an opcode creates, where it takes them as operands. -/
def newAttr (d : Bytes) : Option AttrOp :=
  let op := dOp d
  if op = 0x0103 then some (parseAttrs ((dOperands d).take 40))
  else if op = 0x0106 ∨ op = 0x0108 ∨ (0x0404 ≤ op ∧ op ≤ 0x0407) then some (parseAttrs (dParams d))
  else none

/-- Attribute values the part does not permit (R182, R183, R190, R350, R768, R770). -/
def attrDenied (d : Bytes) (alg0 : Nat) : Bool :=
  let op := dOp d
  match newAttr d with
  | none => false
  | some a =>
    a.denied (op == 0x0103 || op == 0x0106)
      || (op == 0x0103 && rKind (dRef d 1) == kFixed && flagNonce a.flags != 0)
      || (op == 0x0106 && !(isAes a.alg || isTdes a.alg || a.alg == 0x06))
      || (op == 0x0404 && !(a.alg == 0x06 && a.usage == uDerive && a.bits == agreeBits alg0))
      || ((op == 0x0405 || op == 0x0406) && !(a.alg == 0x03 || (a.alg == 0x06 && a.bits == 256)))
      || (op == 0x0407 && !(isAes a.alg || isTdes a.alg || a.alg == 0x06))

/-- Key conditions of the payment functions (R300, R319, R322, R317). -/
def hobKeyDenied (s : State) (h : Nat) (d : Bytes) (i : Nat) (a : KeyAttr) : Bool :=
  let op := dOp d
  let p := dParam d
  let zone := fun (f : Nat) => if f = 4 then isAes a.alg else isTdes a.alg
  if op = 0x0501 ∨ op = 0x0502 ∨ op = 0x0503 then
    if i = 0 then
      (if pSrcKey p = 0 then !zone (pSrcFmt p)
        else if pSrcKey p = 1 then !(a.alg == 0x04 || (a.alg == 0x05 && pBase p))
        else !(isAes a.alg && decide (128 + 64 * pWkAlg p ≤ a.bits)))
        || (op == 0x0501 && pSrcFmt p == 4 && pDstFmt p != 4 && !s.flag (pgH .hob h) Reg.HOB_PINPOL_DOWNGRADE)
    else if op = 0x0501 then !zone (pDstFmt p)
    else a.alg != 0x04
  else if op = 0x0510 ∨ op = 0x0511 then a.alg != 0x04
  else if op = 0x0520 ∨ op = 0x0521 then
    if pmKey p = 1 then !(a.alg == 0x04 || (a.alg == 0x05 && pmBase p))
    else if pmKey p = 2 then !(isAes a.alg && decide (128 + 64 * pmWk p ≤ a.bits))
    else if pmAlg p = 0 then !isTdes a.alg
    else if pmAlg p = 1 then a.alg != 0x04
    else !(isAes a.alg || isTdes a.alg)
  else if op = 0x0530 then !(a.alg == 0x04 || a.alg == 0x01 || a.alg == 0x03)
  else false

/-- What step 3 of R185 refuses with KEY_USAGE_DENIED for an opcode beyond usage, key source and REQUIRES_GROUP. `first` is
the view of KEYREF0. -/
def opDenied (s : State) (h : Nat) (d : Bytes) (i : Nat) (first v : KeyView) : Bool :=
  let op := dOp d
  let a := v.hold.attr
  let resident := flagResident a.flags
  let attrs := i == 0 && attrDenied d a.alg
  attrs ||
  (if op = 0x0102 then if i = 0 then resident else !v.wrapping
  else if op = 0x0103 then !v.wrapping || attrDenied d 0
  else if op = 0x0106 then !(isAes a.alg || a.alg == 0x06)
  else if op = 0x0107 then if i = 0 then resident else v.wrapping || !isAes a.alg
  else if op = 0x0108 then v.wrapping || !isAes a.alg
  else if op = 0x0111 then resident || a.limit != 0 || !flagAnyVf a.flags
  else if op = 0x0120 then v.wrapping
  else if op = 0x0121 then if i = 0 then resident else v.wrapping
  else if op = 0x0201 ∨ op = 0x0202 then
    let m := pMode (dParam d)
    (op == 0x0201 && modeNonce m && i == 0 && !nonceAllowed (flagNonce a.flags) (dNonceSrc d) (if dPtr d then qIv d else []))
      || (i == 1 && (a.alg != first.hold.attr.alg || a.usage != first.hold.attr.usage
        || (m == mXTS && v.hold.fp == first.hold.fp)))
  else if op = 0x0303 then
    pMac (dParam d) == 1 && !nonceAllowed (flagNonce a.flags) (dNonceSrc d) (qIv d)
  else if op = 0x0401 ∨ op = 0x0402 ∨ op = 0x0404 ∨ op = 0x0406 ∨ op = 0x0407 then !schemeFits (pScheme (dParam d)) a.alg
  else if op = 0x0403 then keyClass a.alg < 3
  else hobKeyDenied s h d i a)

/-- R185 for reference `i`: the first failure, or none. KEY_EVICT of an entry inserted by another VF of the owner is permitted
(R198). -/
def refCheck (s : State) (h : Nat) (jb : Job) (e : OpDef) (i : Nat) (first v : KeyView) : Option Nat :=
  let d := jb.desc
  let op := dOp d
  let a := v.hold.attr
  let us := refUsages d i e
  if (op ≠ 0x0104 ∧ !v.set.testBit (s.posOf jb.vf)) ∨ a.owner ≠ s.ft jb.vf Reg.FT_OWNER_ID then some stKeyOwner
  else if (!srcExempt op i && !srcAllows s h jb.vf (rKind (dRef d i)) a.alg)
      || (!us.isEmpty && !us.contains a.usage)
      || (flagGroup a.flags && (jb.group == 0 || !jb.joined))
      || opDenied s h d i first v then some stKeyUsage
  else if a.expiry ≠ 0 ∧ a.expiry ≤ s.now then some stKeyExpired
  else if a.limit ≠ 0 ∧ a.limit ≤ v.uses then some stUsageLimit
  else if i = 0 ∧ dNonceSrc d = 1 ∧ v.nonce = 2 ^ 64 - 1 then some stNonceExhausted
  else none

/-- The status with which the unwrap of a reference failed. -/
def unwrapFault (jb : Job) (i : Nat) : Option Nat := (jb.unwrapErr.find? (fun p => p.1 == i)).map (·.2)

/-- The references of a job in turn: the views, or the first failure (R89, R185). The failure of an unwrap is a key check where its
status is of class 2; of another class, it stands behind the key checks of every reference. -/
def refsCheck (s : State) (h : Nat) (jb : Job) (e : OpDef) : List Nat → List KeyView → Option Nat → Except Nat (List KeyView)
  | [], acc, late => match late with
    | some st => .error st
    | none => .ok acc
  | i :: r, acc, late =>
    match unwrapFault jb i with
    | some st => if st / 0x1000 = 2 then .error st else refsCheck s h jb e r acc (late.or (some st))
    | none =>
      match refView s h jb i with
      | none => .error stKeyNotFound
      | some v =>
        match refCheck s h jb e i (acc.getD 0 v) v with
        | some st => .error st
        | none => refsCheck s h jb e r (acc ++ [v]) late

/-- KEY_EVICT of an entry in PENDING, or as a second action on an entry that a group is to remove (R198, R406). -/
def evictConflict (s : State) (h : Nat) (jb : Job) : Bool :=
  dOp jb.desc == 0x0104 && (match (s.H h).cache.find? (rIndex (dRef jb.desc 0)) with
    | some x => x.state == .pending || (jb.joined && jb.group != 0 && x.marked.isSome)
    | none => false)

/-- The key checks of a job (R185): the views, or the first failure. -/
def keyChecks (s : State) (h : Nat) (jb : Job) (e : OpDef) : Except Nat (List KeyView) :=
  let d := jb.desc
  let op := dOp d
  let named := [0, 1].filter (fun i => rKind (dRef d i) != kNone)
  if named.isEmpty then
    let a := parseAttrs (dParams d)
    let misfit := op == 0x0402 && ((matLen a.alg a.bits).isNone || !schemeFits (pScheme (dParam d)) a.alg)
    (if attrDenied d 0 || misfit then .error stKeyUsage else .ok [])
  else match refsCheck s h jb e named [] none with
    | .error st => .error st
    | .ok vs => if evictConflict s h jb then .error stGroupConflict else .ok vs

end Sys2Proof.Machine
end

