-- ==== Sys2Proof/Machine/SymFn.lean ====
section
/-! DEFINITION. The functions of the cipher and hash engines (R218 to R227), shared by queued jobs and direct use: the output
and the verdict as a function of mode, keys, lengths and input. -/

namespace Sys2Proof.Machine

/-- What an engine's function gives: a status, output bytes, and a tag kept apart from the output. -/
structure RunOut where
  status : Nat := stOK
  out    : Bytes := []
  tag    : Bytes := []
  deriving DecidableEq, Repr

def RunOut.fail (st : Nat) : RunOut := { status := st }

/-- The cipher of an algorithm code. -/
def cipherOf (alg : Nat) : Cipher := if isTdes alg then .tdes else .aes

/-- A cipher job's settings. -/
structure CipherJob where
  alg    : Nat
  mode   : Nat
  dec    : Bool
  k1     : Bytes
  k2     : Bytes := []
  /-- IV, counter block, tweak or nonce, sixteen bytes -/
  iv     : Bytes := []
  nonceLen : Nat := 0
  tagLen : Nat := 16
  aad    : Nat := 0
  du     : Nat := 0
  /-- the expected tag of a decryption -/
  tag    : Bytes := []
  deriving DecidableEq, Repr

/-- The tweak `i` data units after the first (R221). -/
def laterTweak (iv : Bytes) (i : Nat) : Bytes := toLe 16 ((leNat iv + i) % 2 ^ 128)

def xtsUnits (j : CipherJob) : Nat → List Bytes → Bytes
  | _, [] => []
  | i, u :: r => xtsUnit (!j.dec) j.k1 j.k2 (laterTweak j.iv i) u ++ xtsUnits j (i + 1) r

/-- A cipher job (R218 to R226): the output, or TAG_MISMATCH with nothing written. In GCM and CCM encryption the tag follows
the ciphertext (R224); SIV writes V before the ciphertext (R222). -/
def cipherRun (j : CipherJob) (inp : Bytes) : RunOut :=
  let c := cipherOf j.alg
  let aad := inp.take j.aad
  let m := inp.drop j.aad
  if j.mode = mECB then { out := if j.dec then ecbDec c j.k1 inp else ecbEnc c j.k1 inp }
  else if j.mode = mCBC then
    { out := if j.dec then cbcDec c j.k1 (slice j.iv 0 c.block) inp else cbcEnc c j.k1 (slice j.iv 0 c.block) inp }
  else if j.mode = mCTR then { out := ctrMode .aes j.k1 32 (slice j.iv 0 16) inp }
  else if j.mode = mGCM then
    let iv := slice j.iv 0 12
    if j.dec then
      if slice (gcmTag j.k1 iv aad m) 0 j.tagLen = slice j.tag 0 j.tagLen then { out := gcmCrypt j.k1 iv m }
      else .fail stTagMismatch
    else
      let ct := gcmCrypt j.k1 iv m
      let t := slice (gcmTag j.k1 iv aad ct) 0 j.tagLen
      { out := ct ++ t, tag := t }
  else if j.mode = mCCM then
    let iv := slice j.iv 0 j.nonceLen
    if j.dec then
      let pt := ccmCrypt j.k1 iv m
      if ccmTag j.k1 iv aad pt j.tagLen = slice j.tag 0 j.tagLen then { out := pt } else .fail stTagMismatch
    else
      let t := ccmTag j.k1 iv aad m j.tagLen
      { out := ccmCrypt j.k1 iv m ++ t, tag := t }
  else if j.mode = mXTS then { out := xtsUnits j 0 (chunks (if j.du = 0 then inp.length else j.du) inp) }
  else if j.mode = mSIV then
    let ads := aad :: (if j.nonceLen = 0 then [] else [slice j.iv 0 j.nonceLen])
    if j.dec then
      match sivDec (j.k1 ++ j.k2) ads (m.drop 16) (m.take 16) with
      | some pt => { out := pt }
      | none => .fail stTagMismatch
    else
      let (v, ct) := sivEnc (j.k1 ++ j.k2) ads m
      { out := v ++ ct, tag := v }
  else
    let f := if j.mode = mKW then kwUnwrap else kwpUnwrap
    if j.dec then
      match f j.k1 inp with
      | some pt => { out := pt }
      | none => .fail stTagMismatch
    else { out := if j.mode = mKW then kwWrap j.k1 inp else kwpWrap j.k1 inp }

/-- The MAC of a message: kind 0 CMAC, 1 GMAC, 2 HMAC (R229), truncated to `t` bytes. -/
def macRun (kind func alg : Nat) (k iv : Bytes) (t : Nat) (msg : Bytes) : Bytes :=
  let full :=
    if kind = 0 then cmac (cipherOf alg) k msg
    else if kind = 1 then gcmTag k (slice iv 0 12) msg []
    else hmac (hashFn func).1 (hashFn func).2.2 k msg
  slice full 0 t

/-- The full tag length of a MAC kind. -/
def macFull (kind func alg : Nat) : Nat :=
  if kind = 2 then (hashFn func).2.1 else if kind = 0 ∧ isTdes alg then 8 else 16

/-- HASH and XOF (R227). -/
def hashRun (func outLen : Nat) (inp : Bytes) : Bytes :=
  if func = 7 then shake128 outLen inp else if func = 8 then shake256 outLen inp else (hashFn func).1 inp

/-- The hardware counter nonce of R248. -/
def counterNonce (h kind n ctr : Nat) : Bytes := [0xE7, byte h, byte kind, byte n] ++ toBe 8 ctr

/-! ### Expected engine time (R25, R265 to R268)

The stoker orders jobs by the engine time it expects from opcode and lengths. DESIGN CHOICE: the twelve-cycle set-up of R268
and the cycles for each block that the rates of R265 and R266 give at 1.6 GHz. -/

/-- Cycles for each AES or TDES block of a cipher mode or MAC at order 1. -/
def blockCycles (alg mode : Nat) (dec : Bool) : Nat :=
  let r := if alg = 1 then 5 else if alg = 2 then 6 else if isAes alg then 7 else 24
  if mode = mGCM ∨ mode = 10 then 8
  else if mode = mSIV then 3 * r
  else if mode = mKW ∨ mode = mKWP then 12 * r
  else if (mode = mCBC ∧ !dec) ∨ mode = mCCM ∨ mode = 9 then 2 * r
  else r

def cipherCycles (alg mode : Nat) (dec : Bool) (len : Nat) (order2 : Bool) : Nat :=
  let b := if isTdes alg then 8 else if mode = mKW ∨ mode = mKWP then 8 else 16
  12 + (1 + b2n order2) * blockCycles alg mode dec * ((len + b - 1) / b)

/-- Cycles for each byte of a hash function, times 1000. -/
def hashMilli (func : Nat) : Nat :=
  if func = 1 then 1000 else if func = 2 ∨ func = 3 then 625 else if func = 4 ∨ func = 8 then 176
  else if func = 5 then 231 else if func = 6 then 333 else 143

def hashCycles (func len : Nat) (mac order2 : Bool) : Nat :=
  12 + hashMilli func * len * (if mac then (if order2 then 6 else 3) else 1) / 1000

/-- The lengths of a job's descriptor that set its count (R238): IN_LEN, AAD_LEN, DU_LEN, OUT_LEN, TAG_LEN and NONCE_LEN. -/
def symLens (d : Bytes) (tdes : Bool) : List Nat :=
  let p := dParam d
  let ciph := dOp d / 256 = 2
  let tag := if ciph then cTag p else macTagLen p tdes
  if dPtr d then [dInLen d, qAad d, qDu d, dOutLen d, tag, if ciph then cNonceLen p (dNonceSrc d) else 0]
  else [dInline d, 0, 0, 0, tag, 0]

/-- The rows of R268 for a cipher mode: order 1 and order 2. A row that names no direction serves both; "of a 32-byte key" is the
key wrapped or unwrapped. Only a job of the row's own shape has its count: one data unit, a 16-byte tag, no second component of
S2V. -/
def cipherRow (p : Nat) (alg : Nat) (dec : Bool) (lens : List Nat) : Option (Nat × Nat) :=
  let m := pMode p
  let n := lens.getD 0 0
  if m = mKW then (if alg = 3 ∧ n = (if dec then 40 else 32) then some (348, 684) else none)
  else if n ≠ 64 ∨ lens.getD 1 0 ≠ 0 then none
  else if alg = 3 then
    if m = mECB ∨ m = mCTR then some (47, 82)
    else if m = mXTS ∧ (lens.getD 2 0 = 0 ∨ 64 ≤ lens.getD 2 0) then some (61, 110)
    else if m = mCBC ∧ !dec then some (68, 124)
    else if m = mCCM ∧ lens.getD 4 0 = 16 then some (82, 152)
    else if m = mGCM ∧ lens.getD 4 0 = 16 then some (84, 156)
    else if m = mSIV ∧ lens.getD 5 0 = 0 then some (131, 250)
    else none
  else if isTdes alg then
    if m = mECB then some (228, 444) else if m = mCBC ∧ !dec then some (396, 780) else none
  else none

/-- The count that R268 gives a job, order 1 and order 2. A hash is never masked. By R238 the length of a MAC's key does not count. -/
def row268 (d : Bytes) (alg : Nat) : Option (Nat × Nat) :=
  let op := dOp d
  let p := dParam d
  let lens := symLens d (isTdes alg)
  if op / 256 = 2 then cipherRow p alg (op == 0x0202) lens
  else if lens.getD 0 0 ≠ 64 then none
  else if op = 0x0301 then (if p = 1 then some (136, 136) else none)
  else if op = 0x0303 ∨ (op = 0x0304 ∧ dPtr d ∧ macHead d = 0) then
    if pMac p = 0 ∧ alg = 3 then some (68, 124) else if pMac p = 2 ∧ pFunc p = 1 then some (968, 1924) else none
  else none

/-- What of PARAM is no length: the mode of a cipher, the MAC and the function of a hash. -/
def symMode (d : Bytes) : Nat := if dOp d = 0x0303 ∨ dOp d = 0x0304 then dParam d % 256 else dParam d % 16

/-- The engine-cycle count of a cipher or hash job (R238): R268's where it gives one, otherwise the free value of the job's opcode,
algorithm, mode, order and lengths. -/
def symCycles (d : Bytes) (alg : Nat) (order2 : Bool) : Nat :=
  match row268 d alg with
  | some r => if order2 then r.2 else r.1
  | none => Config.engineCycles ([dOp d, alg, symMode d, b2n order2] ++ symLens d (isTdes alg))

/-- The cycles of R226's zeroing: they depend on the verdict and the bytes written (R238). -/
def zeroCycles (d : Bytes) (st written : Nat) : Nat :=
  if dOp d = 0x0202 ∧ st = stTagMismatch ∧ written ≠ 0 then Config.engineCycles [0x0226, written] else 0

end Sys2Proof.Machine
end

