-- ==== Sys2Proof/Machine/PkFn.lean ====
section
/-! DEFINITION. The functions of the big-number engines (R341 to R368): cycle counts, spans, input domains and results, shared
by queued jobs and direct use. -/

namespace Sys2Proof.Machine

/-! ### Cycle counts (R356 to R358) -/

/-- The operations of the cycle tables. -/
inductive PkOp where
  | generate | priv | verify | pub | agree | encaps | decaps
  deriving DecidableEq, Repr

def PkOp.col : PkOp → Nat
  | .generate => 0 | .pub => 1 | .priv => 2 | .verify => 3 | .agree => 4 | .encaps => 1 | .decaps => 2

/-- RSA rows of R356 by KEY_BITS: private operation, PK_VERIFY, PK_PUBLIC, regions, save image in KiB; R357: fixed part and
per-candidate part. -/
def rsaRow (bits : Nat) : List Nat :=
  if bits = 2048 then [57344, 1536, 1024, 4, 24, 131072, 40960]
  else if bits = 3072 then [180224, 3200, 2048, 4, 24, 327680, 139264]
  else if bits = 4096 then [409600, 5120, 3072, 4, 24, 1048576, 262144]
  else if bits = 6144 then [1351680, 11264, 6144, 8, 48, 3145728, 860160]
  else [3178496, 19968, 10240, 8, 48, 6291456, 2048000]

/-- Curve rows of R356: KEY_GENERATE, PK_PUBLIC, PK_SIGN, PK_VERIFY, KEY_AGREE. -/
def curveRow (alg : Nat) : List Nat :=
  if alg = 0x20 then [22528, 20480, 24976, 30720, 21504]
  else if alg = 0x21 then [47104, 44032, 52224, 66560, 46080]
  else if alg = 0x22 then [98304, 92160, 110592, 139264, 96256]
  else if alg = 0x23 then [28672, 26624, 31744, 38912, 27648]
  else if alg = 0x24 then [61440, 57344, 67584, 84992, 59392]
  else if alg = 0x28 then [20480, 18432, 22528, 28672, 0]
  else if alg = 0x29 then [55296, 51200, 61440, 76800, 0]
  else [20480, 18432, 0, 0, 18432]

/-- Lattice rows of R356: KEY_GENERATE, KEM_ENCAPS, KEM_DECAPS or the fixed part of PK_SIGN, the part for each attempt,
PK_VERIFY, regions, save image in KiB. -/
def latRow (alg : Nat) : List Nat :=
  if alg = 0x30 then [16384, 18432, 24576, 0, 0, 2, 8]
  else if alg = 0x31 then [26624, 30720, 40960, 0, 0, 3, 12]
  else if alg = 0x32 then [40960, 45056, 59392, 0, 0, 4, 16]
  else if alg = 0x38 then [40000, 0, 30000, 20000, 36000, 6, 40]
  else if alg = 0x39 then [64000, 0, 47000, 30000, 56000, 8, 56]
  else [96000, 0, 72000, 46000, 88000, 12, 88]

def isEd (alg : Nat) : Bool := alg == 0x28 || alg == 0x29
def isKem (alg : Nat) : Bool := 0x30 ≤ alg && alg ≤ 0x32
def isDsa (alg : Nat) : Bool := 0x38 ≤ alg && alg ≤ 0x3A

/-- Message blocks after the first of EdDSA (R356). -/
def blocksAfter (n len : Nat) : Nat := (len + n - 1) / n - 1

/-- The regions of a job's span (R356). -/
def pkRegions (alg bits : Nat) : Nat :=
  if alg = 0x10 then (rsaRow bits).getD 3 0 else if alg ≤ 0x2A then 1 else (latRow alg).getD 5 0

/-- The save image in bytes (R356). -/
def pkImage (alg bits : Nat) : Nat :=
  1024 * (if alg = 0x10 then (rsaRow bits).getD 4 0 else if alg ≤ 0x2A then 2 else (latRow alg).getD 6 0)

/-- The count at order 1: `len` message and context bytes, `k` attempts or candidates. PK_PUBLIC of ML-KEM and ML-DSA, which
the tables do not list, takes its KEY_GENERATE count: DEDUCED, the key is expanded from the same seed. -/
def pkCount1 (op : PkOp) (alg bits len k : Nat) : Nat :=
  if alg = 0x10 then
    let r := rsaRow bits
    match op with
    | .generate => r.getD 5 0 + k * r.getD 6 0
    | .verify => r.getD 1 0
    | .pub => r.getD 2 0
    | _ => r.getD 0 0
  else if alg ≤ 0x2A then
    let m := if alg = 0x28 then 64 * blocksAfter 128 len else if alg = 0x29 then 96 * blocksAfter 136 len else 0
    (curveRow alg).getD op.col 0 + (if op = .priv ∨ op = .verify then m else 0)
  else
    let r := latRow alg
    let m := 26 * blocksAfter 136 len
    match op with
    | .generate => r.getD 0 0
    | .pub => r.getD 0 0
    | .encaps => r.getD 1 0
    | .decaps => r.getD 2 0
    | .verify => r.getD 4 0 + m
    | _ => r.getD 2 0 + k * r.getD 3 0 + m

/-- R358: order 2 multiplies every masked operation's count by 1.5 (RSA) or 2. -/
def pkCount (op : PkOp) (alg bits len k : Nat) (order2 : Bool) : Nat :=
  let n := pkCount1 op alg bits len k
  if !order2 ∨ op = .verify then n else if alg = 0x10 then n + n / 2 else 2 * n

/-- Raw operations in direct use (R383): one modular multiplication. -/
def mulCount (bits : Nat) : Nat := ((bits / 64) ^ 2 + 15) / 16 + 24
def expCount (bits ebits : Nat) : Nat := (ebits + (ebits + 3) / 4 + 18) * mulCount bits

/-- Yield points: the multiples of 16,384 below a count (R369). -/
def yieldPoints (count : Nat) : Nat := (count - 1) / 16384

/-! ### Domains (R366, R367) -/

def inputInvalid (sub : Nat) : Nat := 0x4100 + sub

/-- The lowest sub-code for a Weierstrass point. -/
def pointFault (c : Curve) (b : Bytes) : Option Nat :=
  let x := fieldBe b 0 c.len
  let y := fieldBe b c.len c.len
  if x = 0 ∧ y = 0 then some 5
  else if y * y % c.p ≠ (x * x * x + c.a * x + c.b) % c.p then some 4
  else if c.p ≤ x ∨ c.p ≤ y then some 7
  else none

def pointOf (c : Curve) (b : Bytes) : Pt := some (fieldBe b 0 c.len, fieldBe b c.len c.len)

/-- The y coordinate of an Edwards encoding. -/
def edY (is448 : Bool) (b : Bytes) : Nat := leNat b % 2 ^ (8 * (edScheme is448).n - 1)

/-- The lowest sub-code for an Edwards point; cases 6 and 8 are those of a supplied public key. -/
def edFault (is448 pubKey : Bool) (b : Bytes) : Option Nat :=
  let S := edScheme is448
  let y := edY is448 b
  let sign := leNat b / 2 ^ (8 * S.n - 1)
  let y' := y % S.c.p
  match sqrtMod S.c.p (subMod (y' * y') 1 S.c.p * invMod (subMod (S.c.d * (y' * y' % S.c.p)) S.c.a S.c.p) S.c.p) with
  | none => some 4
  | some x =>
    if pubKey ∧ S.c.mul (2 ^ S.cof) (x, y') = (0, 1) then some 6
    else if S.c.p ≤ y then some 7
    else if pubKey ∧ x = 0 ∧ sign = 1 then some 8 else none

/-- An X25519 u coordinate of p or more (R366 case 7); its top bit is no part of it. -/
def uRange (b : Bytes) : Bool := decide (2 ^ 255 - 19 ≤ leNat (slice b 0 32) % 2 ^ 255)

/-- The lowest sub-code for an RSA operand below a modulus. -/
def operandFault (c n : Nat) (zero : Bool) : Option Nat :=
  if zero ∧ c = 0 then some 1 else if c = n then some 2 else if n < c then some 3 else none

def modulusBad (n bits : Nat) : Bool := n % 2 == 0 || n < 2 ^ (bits - 1)

/-! ### Signatures -/

/-- A scalar from 1 to n − 1 from drawn bytes. -/
def scalarOf (n : Nat) (d : Bytes) : Nat := 1 + Config.drawScalar n d % (n - 1)

/-- ECDSA with retries, each under a new nonce (R363, R389): signature and attempts, or none at the limit. -/
def ecdsaLoop (c : Curve) (d : Nat) (digest rand : Bytes) : Nat → Nat → Option ((Nat × Nat) × Nat)
  | 0, _ => none
  | f + 1, i =>
    match ecdsaSign c d (scalarOf c.n (rand ++ toLe 4 i)) digest with
    | some sg => some (sg, i + 1)
    | none => ecdsaLoop c d digest rand f (i + 1)

/-- What a public-key function gives: a status, output, the material of a new key, attempts or candidates. -/
structure PkOut where
  status : Nat := stOK
  out    : Bytes := []
  mat    : Bytes := []
  tries  : Nat := 1
  deriving DecidableEq, Repr

/-- ML-DSA's message representative input (FIPS 204): 0, the context's length, the context, the message. -/
def dsaMessage (ctx msg : Bytes) : Bytes := [0, byte ctx.length] ++ ctx ++ msg

/-- PK_SIGN (R347 to R349): `inp` is the digest, or the context and the message. -/
def pkSign (alg bits : Nat) (mat : Bytes) (param : Nat) (rand : Bytes) (limit : Nat) (inp : Bytes) : PkOut :=
  let sc := pScheme param
  let ctx := inp.take (pCtx param)
  let msg := inp.drop (pCtx param)
  if alg = 0x10 then
    let k := rsaKey mat
    let n := bits / 8
    let em := if sc = 0 then pssEncode (pkHash (pHash param)).1 (pkHash (pHash param)).2 inp (rand.take (pkHash (pHash param)).2) (bits - 1)
      else pkcs1Encode (digestInfo (pHash param)) inp n
    { out := toBe n (rsaCrt k.p k.q k.dp k.dq k.qinv (beNat em)) }
  else if isWeier alg then
    let c := curveOf alg
    match ecdsaLoop c (beNat mat) inp (rand.take c.len) limit 0 with
    | some ((r, s), t) => { out := toBe c.len r ++ toBe c.len s, tries := t }
    | none => { status := stRetryLimit, tries := limit }
  else if isEd alg then { out := edSign (alg == 0x29) mat msg ctx }
  else
    match dsaSign (dsaParams bits) mat (dsaMessage ctx msg) (rand.take 32) limit with
    | some (sg, t) => { out := sg, tries := t }
    | none => { status := stRetryLimit, tries := limit }

/-- Whether a signature holds under a public key (R368). -/
def sigHolds (alg bits : Nat) (pub : Bytes) (param : Nat) (sig inp : Bytes) : Bool :=
  let ctx := inp.take (pCtx param)
  let msg := inp.drop (pCtx param)
  if alg = 0x10 then
    let n := beNat pub
    let s := beNat sig
    let em := toBe (bits / 8) (powMod s 65537 n)
    let hl := (pkHash (pHash param)).2
    if s = 0 ∨ n ≤ s then false
    else if pScheme param = 0 then pssVerify (pkHash (pHash param)).1 hl hl inp em (bits - 1)
    else em == pkcs1Encode (digestInfo (pHash param)) inp (bits / 8)
  else if isWeier alg then
    let c := curveOf alg
    ecdsaVerify c (pointOf c pub) (fieldBe sig 0 c.len) (fieldBe sig c.len c.len) inp
  else if isEd alg then edVerify (alg == 0x29) pub sig msg ctx
  else dsaVerify (dsaParams bits) pub (dsaMessage ctx msg) sig

/-- The lowest sub-code of R366 for a supplied public key. -/
def pubFault (alg bits : Nat) (pub : Bytes) : Option Nat :=
  if alg = 0x10 then (if modulusBad (beNat pub) bits then some 9 else none)
  else if isWeier alg then pointFault (curveOf alg) pub
  else if isEd alg then edFault (alg == 0x29) true pub
  else none

/-- PK_VERIFY of a signature under a key of the part, or under a supplied public key. -/
def pkVerify (alg bits : Nat) (supplied : Option Bytes) (mat : Bytes) (param : Nat) (sig inp : Bytes) : PkOut :=
  match supplied with
  | none => { status := if sigHolds alg bits (publicKey alg bits mat) param sig inp then stOK else stSigInvalid }
  | some pub =>
    match pubFault alg bits pub with
    | some e => { status := inputInvalid e }
    | none => { status := if sigHolds alg bits pub param sig inp then stOK else stSigInvalid }

/-- KEY_AGREE: the shared secret. -/
def pkAgree (alg : Nat) (mat peer : Bytes) : PkOut :=
  if alg = 0x2A then
    let z := x25519 mat peer
    if isZero z then { status := inputInvalid 6 } else if uRange peer then { status := inputInvalid 7 } else { mat := z }
  else
    let c := curveOf alg
    match pointFault c peer with
    | some e => { status := inputInvalid e }
    | none =>
      match c.mul (beNat mat) (pointOf c peer) with
      | some (x, _) => { mat := toBe c.len x }
      | none => { status := inputInvalid 5 }

/-- KEM_ENCAPS: ciphertext and shared secret. -/
def pkEncaps (bits : Nat) (ek m : Bytes) : PkOut :=
  let P := kemParams bits
  if !kemEkValid P ek then { status := inputInvalid 8 }
  else
    let (k, ct) := kemEncaps P ek m
    { out := ct, mat := k }

def pkDecaps (bits : Nat) (mat ct : Bytes) : PkOut := { mat := kemDecaps (kemParams bits) mat ct }

/-- RSA_OAEP_IMPORT (R354): a plaintext of exactly `want` bytes, else TAG_MISMATCH. -/
def pkOaep (bits hash : Nat) (mat ct : Bytes) (want : Nat) : PkOut :=
  let k := rsaKey mat
  match operandFault (beNat ct) (k.p * k.q) true with
  | some e => { status := inputInvalid e }
  | none =>
    match oaepDecode (pkHash hash).1 (pkHash hash).2 (toBe (bits / 8) (rsaCrt k.p k.q k.dp k.dq k.qinv (beNat ct))) with
    | some pt => if pt.length = want then { mat := pt } else { status := stTagMismatch }
    | none => { status := stTagMismatch }

/-! ### Key generation (R196, R352, R357) -/

/-- The RSA material of two primes: p, q, dp, dq, qinv, each of KEY_BITS / 16 bytes. -/
def rsaMaterial (bits p q : Nat) : Bytes :=
  let n := bits / 16
  let d := invMod 65537 ((p - 1) * (q - 1) / Nat.gcd (p - 1) (q - 1))
  toBe n p ++ toBe n q ++ toBe n (d % (p - 1)) ++ toBe n (d % (q - 1)) ++ toBe n (invMod q p)

/-- The material of a new asymmetric key from drawn bytes, and the candidates examined. -/
def pkGenerate (alg bits : Nat) (rand : Bytes) : PkOut :=
  if alg = 0x10 then
    let (p, q) := Config.rsaPair bits rand
    { mat := rsaMaterial bits p q, tries := Config.rsaCandidates bits rand }
  else if isWeier alg then
    let c := curveOf alg
    { mat := toBe c.len (scalarOf c.n rand) }
  else { mat := slice rand 0 ((matLen alg bits).getD 0) }

/-- The bytes drawn for a new key: its material, or the seed of its generation. DESIGN CHOICE for RSA and Weierstrass keys:
one request of the material's length. -/
def generateDraw (alg bits : Nat) : Nat := (matLen alg bits).getD 0

end Sys2Proof.Machine
end

