-- ==== Sys2Proof/Machine/Checks.lean ====
section
/-! DEFINITION. The length and capacity checks of a descriptor: those that need no key (step 1 of R89) and those that need the
algorithm or length of a key (step 4). -/

namespace Sys2Proof.Machine

def roundUp (n k : Nat) : Nat := (n + k - 1) / k * k

/-- The output bytes of ENCRYPT and DECRYPT (R218 to R224). -/
def cipherOut (d : Bytes) (dec : Bool) : Nat :=
  let p := dParam d
  let m := pMode p
  let n := dInLen d
  let a := qAad d
  if m = mGCM ∨ m = mCCM then n - a + (if dec then 0 else cTag p)
  else if m = mSIV then (if dec then n - a - 16 else n - a + 16)
  else if m = mKW then (if dec then n - 8 else n + 8)
  else if m = mKWP then (if dec then n - 8 else roundUp n 8 + 8)
  else n

/-- The ML-KEM set whose encapsulation key has a length (R349): DEDUCED, KEM_ENCAPS names no set. -/
def kemSetOf (len : Nat) : Option Nat := [512, 768, 1024].find? (fun b => kemEkLen (kemParams b) == len)

/-- The output size of an opcode that no key sets. -/
def outSize (d : Bytes) : Option Nat :=
  let op := dOp d
  if !dPtr d then none
  else if op = 0x0105 then some 64
  else if op = 0x0110 then some 1984
  else if op = 0x0201 then some (cipherOut d false)
  else if op = 0x0202 then some (cipherOut d true)
  else if op = 0x0301 then some (hashFn (dParam d)).2.1
  else if op = 0x0405 then (kemSetOf (dInLen d)).map (fun b => kemCtLen (kemParams b))
  else none

/-- Bytes that follow the public key and the signature of a PK_SIGN or PK_VERIFY input (R347, R349). -/
def bodyFits (d : Bytes) (n : Nat) : Bool :=
  let p := dParam d
  if pScheme p ≤ 2 then n == (pkHash (pHash p)).2 else decide (pCtx p ≤ n ∧ n ≤ pCtx p + 65536)

/-- Length rules of the public-key opcodes that no key of the part sets (R349, R366). -/
def earlyLen (d : Bytes) : Option Nat :=
  let op := dOp d
  let n := dInLen d
  if op = 0x0401 then (if bodyFits d n then none else some stBadLength)
  else if op = 0x0402 ∧ rKind (dRef d 0) = kNone then
    let a := parseAttrs (dParams d)
    let head := publicKeyLen a.alg a.bits + signatureLen a.alg a.bits
    if (matLen a.alg a.bits).isNone ∨ !schemeFits (pScheme (dParam d)) a.alg then none
    else if n < head ∨ !bodyFits d (n - head) ∨ (a.alg = 0x28 ∧ pCtx (dParam d) ≠ 0) then some stBadLength else none
  else if op = 0x0405 then (if (kemSetOf n).isNone then some stBadLength else none)
  else none

/-- Step 1 of R89 for a descriptor whose opcode is defined. -/
def stepOne (d : Bytes) (e : OpDef) (sglOk compat : Bool) : Option Nat :=
  match descriptorStatus d e sglOk compat with
  | some st => some st
  | none =>
    match earlyLen d with
    | some st => some st
    | none =>
      match outSize d with
      | some n => if dOutLen d < n then some stOutputTooSmall else none
      | none => none

/-! ### Key blocks (R325 to R329) -/

/-- The version of a key block under a protection key: D for AES, B for TDES. -/
def blockVersion (protAlg : Nat) : Nat := if isAes protAlg then 0x44 else 0x42

/-- The ASCII length of a key block without optional blocks: header 16, encrypted length and key and padding, MAC. -/
def keyBlockLen (protAlg mat : Nat) : Nat :=
  let b := if isAes protAlg then 16 else 8
  16 + 2 * roundUp (mat + 2) b + 2 * b

/-! ### Step 4 -/

/-- A mode or MAC that does not take the key's algorithm (R218, R227, R229): BAD_DESCRIPTOR. -/
def modeMisfit (d : Bytes) (alg : Nat) : Bool :=
  let op := dOp d
  let p := dParam d
  if op = 0x0201 ∨ op = 0x0202 then
    let m := pMode p
    if m = mECB ∨ m = mCBC then !(isAes alg || isTdes alg)
    else if m = mXTS ∨ m = mSIV then !(alg == 1 || alg == 3) else !isAes alg
  else if pMac p = 0 then !(isAes alg || isTdes alg) || (isTdes alg && decide (8 < pMacLen p))
  else if pMac p = 1 then !isAes alg
  else alg != 0x06

/-- Step 4 of R89: class 1 checks that need a key's algorithm or length. `k0` and `k1` are the attributes of the two keys. -/
def lateCheck (compat : Bool) (d : Bytes) (k0 k1 : KeyAttr) (v2 : Bool) : Option Nat :=
  let op := dOp d
  let p := dParam d
  let n := if dPtr d then dInLen d else dInline d
  let out := dOutLen d
  let mat := (matLen k0.alg k0.bits).getD 0
  let cap := fun (want : Nat) => if out < want then some stOutputTooSmall else none
  let blk := (cipherOf k0.alg).block
  if op = 0x0102 then cap (if compat ∧ v2 then 48 + mat else 80 + mat)
  else if op = 0x0107 then cap (roundUp mat 8 + 8)
  else if op = 0x0111 then cap (1776 + mat)
  else if op = 0x0121 then cap (keyBlockLen k1.alg mat)
  else if op = 0x0201 ∨ op = 0x0202 then
    if modeMisfit d k0.alg then some stBadDescriptor
    else if dPtr d ∧ pMode p = mCBC ∧ !isZero ((qIv d).drop blk) then some stBadDescriptor
    else if !dPtr d then (if n = blk then none else some stBadDescriptor)
    else if (pMode p = mECB ∨ pMode p = mCBC) ∧ n % blk ≠ 0 then some stBadLength
    else none
  else if op = 0x0303 ∨ op = 0x0304 then
    if modeMisfit d k0.alg then some stBadDescriptor
    else
      let t := macTagLen p (isTdes k0.alg)
      if op = 0x0304 ∧ !dPtr d ∧ n < t then some stBadLength
      else if op = 0x0304 ∧ dPtr d ∧ !isZero ((qTag d).drop (min 16 t)) then some stBadDescriptor
      else if op = 0x0303 ∧ dPtr d then cap t
      else none
  else if op = 0x0520 ∨ op = 0x0521 then
    if pmAlg p = 2 ∧ pmKey p = 0 ∧ isTdes k0.alg ∧ 8 < pmLen p then some stBadDescriptor else none
  else if op = 0x0401 then
    if k0.alg = 0x28 ∧ pCtx p ≠ 0 then some stBadLength else cap (signatureLen k0.alg k0.bits)
  else if op = 0x0402 then
    if rKind (dRef d 0) = kNone then none
    else
      let head := signatureLen k0.alg k0.bits
      if n < head ∨ !bodyFits d (n - head) ∨ (k0.alg = 0x28 ∧ pCtx p ≠ 0) then some stBadLength else none
  else if op = 0x0403 then cap (publicKeyLen k0.alg k0.bits)
  else if op = 0x0404 then (if n = publicKeyLen k0.alg k0.bits then none else some stBadLength)
  else if op = 0x0406 then (if n = kemCtLen (kemParams k0.bits) then none else some stBadLength)
  else if op = 0x0407 then (if n = k0.bits / 8 then none else some stBadLength)
  else none

end Sys2Proof.Machine
end

