-- ==== Sys2Proof/Machine/Drbg.lean ====
section
/-! DEFINITION. The hearth's DRBG (R443 to R447): CTR_DRBG of SP 800-90A with AES-256 and derivation function, its reseed
from the pool, and one generate request. -/

namespace Sys2Proof.Machine

/-! ### CTR_DRBG -/

/-- The CBC-MAC of 16-byte blocks under AES-256. -/
def bcc (key data : Bytes) : Bytes := (chunks 16 data).foldl (fun c b => aesEnc key (xorBytes c b)) (zeros 16)

/-- The derivation function to 48 bytes. -/
def drbgDf (input : Bytes) : Bytes :=
  let s := toBe 4 input.length ++ toBe 4 48 ++ input ++ [0x80]
  let s := s ++ zeros ((16 - s.length % 16) % 16)
  let k := (List.range 32).map byte
  let t := (List.range 3).flatMap (fun i => bcc k (toBe 4 i ++ zeros 12 ++ s))
  let b1 := aesEnc (t.take 32) (slice t 32 16)
  let b2 := aesEnc (t.take 32) b1
  b1 ++ b2 ++ aesEnc (t.take 32) b2

/-- The block of counter `V + i`. -/
def drbgBlock (key v : Bytes) (i : Nat) : Bytes := aesEnc key (toBe 16 ((beNat v + i) % 2 ^ 128))

/-- The update of key and V with 48 bytes of provided data. -/
def drbgUpdate (key v data : Bytes) : Bytes × Bytes :=
  let t := xorBytes (drbgBlock key v 1 ++ drbgBlock key v 2 ++ drbgBlock key v 3) data
  (t.take 32, t.drop 32)

/-- `n` output bytes and the next key and V. -/
def drbgGen (key v : Bytes) (n : Nat) : Bytes × Bytes × Bytes :=
  let k := (n + 15) / 16
  let out := ((List.range k).flatMap (fun i => drbgBlock key v (i + 1))).take n
  let v' := toBe 16 ((beNat v + k) % 2 ^ 128)
  let (key2, v2) := drbgUpdate key v' (zeros 48)
  (out, key2, v2)

/-! ### The hearth's DRBG -/

def entPage (h : Nat) : Page := pgH .entropy h

def reqLimit : Nat := 2 ^ 24

/-- ENT_RESEED.PERIOD: 0 acts as 1 (R461). -/
def State.reseedPeriod (s : State) (h : Nat) : Nat := max 1 (s.rd (entPage h) Reg.ENT_RESEED_PERIOD)

/-- A reseed from four pool blocks: 384 bits of entropy and 128 for the core's mask key (R443, R444, R447). -/
def drbgReseed (h : Nat) (s : State) : State :=
  let e := (s.H h).ent
  let (k, v) := drbgUpdate e.key e.v (drbgDf ((e.pool.take 3).flatten))
  let s := s.modH h (fun x => { x with ent := { e with
    key := k, v := v, core := e.pool.getD 3 [], pool := e.pool.drop 4, requests := 0, drbg := .running } })
  s.wr (entPage h) Reg.ENT_LAST_RESEED_TIME s.now

/-- The DRBG can reseed: a healthy source and 512 bits in the pool. -/
def canReseed (e : Entropy) : Bool := e.source == .healthy && decide (4 ≤ e.pool.length)

/-- One generate request of up to 64 KiB (R443 to R447, R451): none where it must wait. A due reseed precedes it; with
prediction resistance it always reseeds first. Counters 153 and 154 count it (R624). -/
def drbgRequest (h n : Nat) (pr : Bool) (s : State) : Option (Bytes × State) :=
  let e := (s.H h).ent
  let due := pr || (e.source == .healthy && decide (s.reseedPeriod h ≤ e.requests)) || decide (reqLimit ≤ e.requests)
  if e.drbg = .uninstantiated ∨ e.drbg = .stopped then none
  else if due ∧ !canReseed e then none
  else
    let s := if due then drbgReseed h s else s
    let e := (s.H h).ent
    let (out, k, v) := drbgGen e.key e.v n
    let r := e.requests + 1
    some (out, addCtr h 154 n (addCtr h 153 1 (s.modH h (fun x => { x with ent := { e with
      key := k, v := v, requests := r,
      drbg := if e.drbg = .holdover ∧ reqLimit ≤ r then .stopped else e.drbg } }))))

/-- A mask generator waits for a seed or a prefetch: a request of class 1 (R448). -/
def seedWaits (x : Hearth) : Bool := x.engines.any (fun p => p.2.mg.stalled || (p.2.mg.requested && !p.2.mg.prefetched))

/-- A request of the classes 2 to 5, served after those of class 1 (R448). Among themselves they are served in the order of their
commands (log 146). -/
def drbgLower (h n : Nat) (pr : Bool) (s : State) : Option (Bytes × State) :=
  if seedWaits (s.H h) then none else drbgRequest h n pr s

/-- The DRBG has validated output for a request of the stoker now. -/
def drbgServes (h : Nat) (s : State) : Bool := (drbgRequest h 1 false s).isSome

end Sys2Proof.Machine
end

