-- ==== Sys2Proof/Machine/Fabric.lean ====
section
/-! DEFINITION. The data fabric: memory protection units (R502 to R508), the map of the hearth-local space (R471, R727), and
an access of any master within one line (R464). -/

namespace Sys2Proof.Machine

/-! ### Areas -/

/-- The areas of the fabric's map. -/
inductive Area where
  | bootRom | tcmIn | tcmOut | pages | recWindow | chimney | ddr | unmapped
  deriving DecidableEq, Repr

def areaOf (s : State) (h a : Nat) : Area :=
  if a < 0x20000 then .bootRom
  else if 0x100000 ≤ a ∧ a < 0x100000 + 512 * 1024 then .tcmIn
  else if 0x200000 ≤ a ∧ a < 0x200000 + 384 * 1024 then .tcmOut
  else if 0x1000000 ≤ a ∧ a < 0x1000000 + 212 * 1024 then .pages
  else if 0x1100000 ≤ a ∧ a < 0x1100000 + 260 * 1024 then .recWindow
  else if 0x1200000 ≤ a ∧ a < 0x1202000 then .chimney
  else if 2 ^ 35 ≤ a ∧ a < 2 ^ 35 + s.memCap h ∧ s.memReady h then .ddr
  else .unmapped

/-- Whether the default map, and for the memories of the hearth-local space the map as a whole, lets a world make an access
(R506, R727). -/
def areaAllows (t : Area) (outer write fetch : Bool) : Bool :=
  match t with
  | .bootRom => !outer && !write
  | .tcmIn => !outer
  | .tcmOut => !(fetch && !outer)
  | .pages => !fetch
  | .recWindow => !fetch
  | .chimney => !fetch
  | .ddr => !fetch
  | .unmapped => true

/-! ### Regions (R503 to R505) -/

/-- MPU_ATTR's fields. -/
def attrSize (a : Nat) : Nat := a % 64
def attrRead (a : Nat) : Bool := a.testBit 6
def attrWrite (a : Nat) : Bool := a.testBit 7
def attrExec (a : Nat) : Bool := a.testBit 8
def attrU (a : Nat) : Bool := a.testBit 9
def attrM (a : Nat) : Bool := a.testBit 10
def attrEnable (a : Nat) : Bool := a.testBit 14

/-- A region that R503 lets into force. -/
def regionOk (g : MpuRegion) : Bool :=
  decide (12 ≤ attrSize g.attr ∧ attrSize g.attr ≤ 47) && g.base % 2 ^ attrSize g.attr == 0

/-- The region of the world in force that decides an address (R505). -/
def deciding (s : State) (h m : Nat) (outer : Bool) (a : Nat) : Option MpuRegion :=
  let g := ((s.H h).mem.mpus.getD m {}).regions
  (((List.range 8).map (fun i => g.getD (if outer then 8 + i else i) {})).find? (fun r =>
    attrEnable r.attr && spanHas r.base (2 ^ attrSize r.attr) a))

/-- The permission a deciding region gives. -/
def regionAllows (g : MpuRegion) (q : Req) : Bool :=
  (if q.mmode then attrM g.attr else attrU g.attr)
    && (if q.kind = 0 then attrRead g.attr else if q.kind = 1 then attrWrite g.attr
      else if q.kind = 2 then attrExec g.attr else attrRead g.attr && attrWrite g.attr)

def isCoreMaster (m : Nat) : Bool := m < 4
def isEngineMaster (m : Nat) : Bool := 6 ≤ m && m < 22

/-- Stage 1 (R502 to R508): the cause of a refusal. -/
def stage1 (s : State) (h : Nat) (q : Req) (a : Nat) : Option Nat :=
  let t := areaOf s h a
  let inMap := if t = .unmapped then some vUnmapped else none
  if passesAll q.master then inMap
  else if q.master = 4 then
    if t = .unmapped then some vUnmapped
    else if t = .ddr ∧ (a - 2 ^ 35 < s.memInner h ∨ innerArea (a - 2 ^ 35 - s.memInner h) = .heldOut) then none
    else some vNoRegion
  else if q.master = 25 then
    if t = .unmapped then some vUnmapped
    else if t = .ddr ∧ s.memInner h ≤ a - 2 ^ 35 ∧ innerArea (a - 2 ^ 35 - s.memInner h) = .dump then
      (if q.writes then some vPermission else none)
    else some vNoRegion
  else if q.master = 22 then
    if t = .unmapped then some vUnmapped
    else if areaAllows t q.outer q.writes q.fetches ∧ !q.fetches then none else some vPermission
  else
    match deciding s h q.master q.outer a with
    | some g =>
      if !regionAllows g q then some vPermission
      else if t = .unmapped then some vUnmapped
      else if (t = .bootRom ∨ t = .tcmIn ∨ t = .tcmOut) ∧ !areaAllows t q.outer q.writes q.fetches then some vPermission
      else none
    | none =>
      if isEngineMaster q.master ∨ !q.mmode then some vNoRegion
      else if t = .unmapped then some vUnmapped
      else if areaAllows t q.outer q.writes q.fetches then none else some vPermission

/-! ### One access -/

def tcmBase (t : Area) : Nat := if t = .tcmIn then 0x100000 else 0x200000

/-- An access of at most one line (R464). `c` is what the read of a DDR line finds; `pages` answers reads of the hearth's
pages and windows, whose writes are commands of their own. -/
def fabric (h : Nat) (q : Req) (a n : Nat) (d : Bytes) (c : LineCheck) (pages : Bytes) (s : State) : State × Answer :=
  match stage1 s h q a with
  | some cause => (violate h q a cause s, .refused cause)
  | none =>
    let x := s.H h
    match areaOf s h a with
    | .ddr => ddrAccess h q (a - 2 ^ 35) n d c s
    | .bootRom => (s, .ok ((List.range n).map (fun i => Config.bootRom (a + i))))
    | .tcmIn =>
      let old := memBytes x.tcmIn (a - 0x100000) n
      (if q.writes then s.modH h (fun x => { x with tcmIn := memPut x.tcmIn (a - 0x100000) (slice d 0 n) }) else s, .ok old)
    | .tcmOut =>
      let old := memBytes x.tcmOut (a - 0x200000) n
      (if q.writes then s.modH h (fun x => { x with tcmOut := memPut x.tcmOut (a - 0x200000) (slice d 0 n) }) else s, .ok old)
    | .pages => (s, .ok (slice pages 0 n))
    | .recWindow => (s, .ok (slice pages 0 n))
    | .chimney => (s, .ok (slice pages 0 n))
    | .unmapped => (s, .refused vUnmapped)

/-- An access of any length, line by line; the first refusal ends it. -/
def fabricSpan (h : Nat) (q : Req) (a n : Nat) (d : Bytes) (c : LineCheck) (pages : Bytes) (s : State) : State × Answer :=
  (linePieces (n / 64 + 2) a n).foldl (fun r p =>
    match r.2 with
    | .ok acc =>
      match fabric h q p.1 p.2 (slice d (p.1 - a) p.2) c (slice pages (p.1 - a) p.2) r.1 with
      | (s, .ok b) => (s, .ok (acc ++ b))
      | (s, e) => (s, e)
    | e => (r.1, e)) (s, .ok [])

/-- The MPU master of an engine (R502): cipher 6 to 13, hash 14 to 17, big-number 18 to 21. -/
def engineMaster (u : Nat) : Nat := 6 + u

/-- An access of an engine in direct use, under its lock holder's world: bytes read, or the status the job stops with
(R504, R514). -/
def engineDma (h u a n : Nat) (wr : Option Bytes) (s : State) : State × Except Nat Bytes :=
  let outer := (s.eng h u).holder == 3
  let q : Req := { master := engineMaster u, outer := outer, kind := if wr.isSome then 1 else 0,
                   ident := if outer then idOuter else idInner }
  match fabricSpan h q a n (wr.getD []) .clean [] s with
  | (s, .ok b) => (s, .ok b)
  | (s, .poison) => (s, .error stPoison)
  | (s, .refused c) => (s, .error (if c = vRangeState then stRangeBroken else stOwnership))

end Sys2Proof.Machine
end

