-- ==== Sys2Proof/Machine/Engines.lean ====
section
/-! DEFINITION. Engine locks (R250 to R259, R380), known-answer tests (R270 to R278, R336 to R338, R390), mask generators
(R239 to R245), soft operations on big-number operand memory, and the power requests that touch a lock. -/

namespace Sys2Proof.Machine

/-! ### Names -/

/-- The identity of the known-answer test (R251). -/
def idKat : Nat := 0xFFF0

/-- A unit's number within its class. -/
def unitNo (u : Nat) : Nat := if u < 8 then u else if u < 12 then u - 8 else if u < 16 then u - 12 else u - 16

/-- PWR_BLK_STATE of a unit (R546): 0 RUN, 1 PARKED, 2 OFF, 3 DRAINING, 4 on the way from OFF to RUN. -/
def State.blockState (s : State) (h u : Nat) : Nat := (s.H h).blocks.getD u 0
def State.blockRun (s : State) (h u : Nat) : Bool := s.blockState h u == 0

/-- The generator can mask a job (R241, R243). -/
def mgReady (e : Engine) : Bool := e.mg.seeded && !e.mg.stalled

/-- The world code of a holder (R250). -/
def worldCode (w : Requester) : Nat := if isInner w then 2 else if isOuter w then 3 else 0

/-- The identity of a world code. -/
def worldIdent (c : Nat) : Nat := if c = 2 then idInner else idOuter

/-- Fields of the hash engines' pages that differ from R260 (R261). -/
def Reg.HE_MODE_MAC : Fld := ⟨0x044, 26, 1, .rw, 0⟩
def Reg.HE_ORDER_ORDER2 : Fld := ⟨0x084, 2, 1, .rw, 0⟩

/-- A direct-use job that draws no masks: a plain hash, or VERIFY (R235, R358). -/
def unmasked (s : State) (h u : Nat) : Bool :=
  if isHash u then !s.flag (pgU h u) Reg.HE_MODE_MAC else isBn u && s.rd (pgU h u) Reg.BN_OP_OP == 2

/-- The byte offset of the register with START, KAT_REQ and CLEAR. -/
def ctrlOff : Nat := 0x040

/-! ### Locks -/

/-- A lock taken (R252, R257, R380): where the identity is not the last holder's, the engine scrubs first. A burner runs no
such scrub (R283). -/
def takeLock (h u holder ident : Nat) (s : State) : State :=
  s.modEng h u (fun e =>
    { e with owner := ident, holder := holder, lastOwner := if isBurner u then e.lastOwner else ident,
             scrubbing := !isBurner u && e.lastOwner != ident, clearing := false })

/-- A free lock handed to the reservation it holds (R253), unless a test waits (R272) or the unit leaves rotation (R547). -/
def handOver (h u : Nat) (s : State) : State :=
  let e := s.eng h u
  if e.katPending ∨ e.reservedBy = 0 ∨ !s.blockRun h u ∨ (e.offline ∧ e.reservedBy = 3) then s
  else takeLock h u e.reservedBy (worldIdent e.reservedBy) (s.modEng h u (fun e => { e with reservedBy := 0 }))

/-- A lock released; key registers are clear from the end of the job on (R253, R258). -/
def releaseLock (h u : Nat) (s : State) : State :=
  handOver h u (s.modEng h u (fun e =>
    { e with owner := 0, holder := 0, relPending := false, keysLoaded := false, job := none }))

/-- The stoker may take the engine for a job (R253, R264, R272, R275, R281, R288, R547). -/
def unitFree (s : State) (h u : Nat) : Bool :=
  let e := s.eng h u
  e.holder == 0 && e.reservedBy == 0 && !e.offline && !e.katPending && !e.katRunning && s.blockRun h u
    && (!isBurner u || (!e.turnover && mgReady e))

/-- The OWNER part of a lock write (R251 to R256, R272, R275, R547). -/
def writeLock (h u : Nat) (who : Requester) (data : Nat) (s : State) : State :=
  let p := pgU h u
  let e := s.eng h u
  let w := worldCode who
  let id := data % 2 ^ 16
  let no := fun (cause : Nat) => capture p who 0x00C data id false cause s
  if w = 0 then no cRequester
  else if id ≠ 0 ∧ id ≠ worldIdent w then no cIdentity
  else if e.scrubbing then no cState
  else if id = 0 then
    if e.holder = w ∨ (w = 2 ∧ e.holder = 3) then
      if e.busy then s.modEng h u (fun e => { e with relPending := true }) else releaseLock h u s
    else if e.reservedBy = w then s.modEng h u (fun e => { e with reservedBy := 0 })
    else no cState
  else if !s.blockRun h u ∨ e.katPending ∨ e.katRunning then no cState
  else if e.holder = 0 then
    if e.offline ∧ w = 3 then no cRequester else takeLock h u w id s
  else if e.reservedBy = 0 ∨ (w = 2 ∧ e.reservedBy = 3) then s.modEng h u (fun e => { e with reservedBy := w })
  else if e.reservedBy = w then s
  else no cState

def execPageLockWrite (h : Fin 16) (u : Fin 16) (who : Requester) (data : Word) (s : State) : Result :=
  .next (onHearth h.val (writeLock h.val u.val who data.toNat) s)

/-- The IV and tag registers cleared by a scrub (R257). -/
def clearIvTag (h u : Nat) (s : State) : State :=
  if isBn u then s
  else
    let p := pgU h u
    let s := (List.range (if isHash u then 16 else 4)).foldl (fun s i => s.wr p (Reg.CE_TAG_TAG i) 0) s
    if isHash u then s else (List.range 4).foldl (fun s i => s.wr p (Reg.CE_IV_IV i) 0) s

/-- The register scrub ends (R257); a big-number engine's clear of operand memory follows (R380). -/
def scrubDone (h u : Nat) (s : State) : State :=
  if !(s.eng h u).scrubbing ∨ isBurner u then s
  else if isBn u then s.modEng h u (fun e => { e with keysLoaded := false, clearing := true })
  else clearIvTag h u (s.modEng h u (fun e => { e with keysLoaded := false, scrubbing := false }))

def execLockScrubDone (h : Fin 16) (u : Fin 20) (s : State) : Result := .next (scrubDone h.val u.val s)

/-! ### Operand memory (R343 to R346): region r is lines 128 r to 128 r + 127 of its engine -/

def opKey (n line : Nat) : Nat := 2048 * n + line

/-- Lines of an engine cleared, with their tags. -/
def clearLines (h n lo k : Nat) (s : State) : State :=
  let s := s.modH h (fun x =>
    { x with opmem := x.opmem.filter (fun e => !(decide (opKey n lo ≤ e.1 ∧ e.1 < opKey n (lo + k)))) })
  if (s.eng h (12 + n)).left.isEmpty then s
  else s.modEng h (12 + n) (fun e =>
    { e with left := e.left.filter (fun p => !(decide (lo ≤ 128 * p.1 ∧ 128 * (p.1 + 1) ≤ lo + k))) })

/-- The regions that a VF's jobs left, cleared (R113, R379). -/
def clearLeft (h n v : Nat) (s : State) : State :=
  ((s.eng h (12 + n)).left.filter (fun p => p.2 == v)).foldl (fun s p => clearLines h n (128 * p.1) 128 s) s

def opLine (s : State) (h n line : Nat) : OpLine := (s.H h).opmem.getD (opKey n line) {}

/-- A line written; an untagged line of zeros has no entry. -/
def putLine (h n line : Nat) (l : OpLine) (s : State) : State :=
  s.modH h (fun x =>
    { x with opmem := if isZero l.data ∧ !l.secret then x.opmem.del (opKey n line)
                      else x.opmem.put (opKey n line) { l with data := slice l.data 0 64 } })

/-- Bytes that the engine writes from a line on, outside a masked part: no tag changes (R345). -/
def putLines (h n line : Nat) (d : Bytes) (s : State) : State :=
  ((chunks 64 d).zipIdx).foldl (fun s p =>
    if line + p.2 < 2048 then putLine h n (line + p.2) { data := p.1, secret := (opLine s h n (line + p.2)).secret } s else s) s

/-- The working memory of a job (R344): `k` lines from `line` on. Which of them it writes, and what it leaves there, the spec does not
say. A line written in a masked part or that took key shares becomes SECRET, and no tag is cleared (R345). The lines of a public result,
from `lo` to below `hi`, are none of it. -/
def workLines (h n line lo hi : Nat) (masked keyed : Bool) : Nat → State → State
  | 0, s => s
  | k + 1, s =>
    let (b, s) := s.free 66
    let secret := (opLine s h n line).secret || masked || (keyed && bit (byteAt b 65) 0)
    workLines h n (line + 1) lo hi masked keyed k
      (if bit (byteAt b 64) 0 ∧ ¬(lo ≤ line ∧ line < hi) then putLine h n line { data := slice b 0 64, secret := secret } s else s)

/-- Bytes read from a line on. -/
def getLines (s : State) (h n line len : Nat) : Bytes :=
  slice ((List.range ((len + 63) / 64)).flatMap (fun i => slice (opLine s h n (line + i)).data 0 64)) 0 len

/-- The end of an owner-change clear (R380) or of a CLEAR (R387). -/
def clearDone (h n : Nat) (s : State) : State :=
  let u := 12 + n
  let e := s.eng h u
  if !e.clearing then s
  else
    let s := if e.scrubbing then clearLines h n 0 2048 s else s
    s.modEng h u (fun e => { e with clearing := false, scrubbing := false })

def execOperandClearDone (h : Fin 16) (n : Fin 4) (s : State) : Result := .next (clearDone h.val n.val s)

/-- Whether a world's access finds the engine its own and quiet. -/
def holds (s : State) (h u : Nat) (who : Requester) : Bool := worldCode who != 0 && (s.eng h u).holder == worldCode who

/-- The cause that refuses a holder's access to an engine page, if any (R257, R260, R386, R711). -/
def holderFault (s : State) (h u : Nat) (who : Requester) : Option Nat :=
  let e := s.eng h u
  if worldCode who = 0 then some cRequester
  else if !holds s h u who then some cState
  else if e.scrubbing then some cState
  else none

/-- BN_CTRL.CLEAR (R387): the regions of BN_CLEAR. -/
def doBnClear (h n : Nat) (who : Requester) (s : State) : State :=
  let u := 12 + n
  let p := pgU h u
  match holderFault s h u who with
  | some c => refuse p who ctrlOff 4 c s
  | none =>
    if (s.eng h u).busy ∨ (s.eng h u).clearing then refuse p who ctrlOff 4 cState s
    else
      let m := s.rd p Reg.BN_CLEAR_REGIONS
      let s := (List.range 16).foldl (fun s r => if m.testBit r then clearLines h n (128 * r) 128 s else s) s
      s.modEng h u (fun e => { e with clearing := true })

def execBnClear (h : Fin 16) (n : Fin 4) (who : Requester) (s : State) : Result :=
  .next (onHearth h.val (doBnClear h.val n.val who) s)

/-- A write of one half of a 64-bit word of a line (R346): a secret line is zeroed and loses its tag first. -/
def putHalf (h n word : Nat) (hi : Bool) (v : Nat) (s : State) : State :=
  let line := word / 8
  let l := opLine s h n line
  let old := if l.secret then zeros 64 else slice l.data 0 64
  let off := word % 8 * 8 + (if hi then 4 else 0)
  putLine h n line { data := old.take off ++ toLe 4 v ++ old.drop (off + 4), secret := false } s

/-- The word of operand memory that BN_WIN_ADDR names advances past an access of BN_WIN_HI. -/
def advanceWord (p : Page) (hi : Bool) (s : State) : State :=
  if hi then s.wr p Reg.BN_WIN_ADDR_WORD (s.rd p Reg.BN_WIN_ADDR_WORD + 1) else s

/-- A window access (R346, R386, R387). BN_WIN_LO holds the lower half; the answer of a read is an output. -/
def bnWindow (h n : Nat) (who : Requester) (hi : Bool) (wr : Option Nat) (s : State) : State :=
  let u := 12 + n
  let p := pgU h u
  let off := if hi then 0x084 else 0x080
  let stop := match holderFault s h u who with
    | some c => some c
    | none => if (s.eng h u).busy ∨ (s.eng h u).clearing then some cState else none
  match stop with
  | some c =>
    let s := capture p who off (wr.getD 0) (reqIdentity who) wr.isNone (if wr.isNone then cRead else c) s
    if wr.isNone then s.emit (.readData (zeros 4)) else s
  | none =>
    let w := s.rd p Reg.BN_WIN_ADDR_WORD
    match wr with
    | some v => advanceWord p hi (putHalf h n w hi v s)
    | none =>
      let l := opLine s h n (w / 8)
      if l.secret then
        advanceWord p hi ((capture p who off 0 (reqIdentity who) true cRead s).emit (.readData (zeros 4)))
      else
        advanceWord p hi (s.emit (.readData (slice l.data (w % 8 * 8 + (if hi then 4 else 0)) 4)))

def execBnWindowAccess (h : Fin 16) (n : Fin 4) (who : Requester) (hi : Bool) (wr : Option Word) (s : State) : Result :=
  .next (onHearth h.val (bnWindow h.val n.val who hi (wr.map (·.toNat))) s)

/-! ### Known-answer tests -/

/-- A test request reaches a unit (R271, R272, R274); `back` tells that it comes from KAT_REQ (R276). -/
def requestKat (h u : Nat) (back : Bool) (s : State) : State :=
  let e := s.eng h u
  if e.katRunning ∨ s.blockState h u = 2 then s
  else s.modEng h u (fun e =>
    { e with katPending := true, katReturns := e.katReturns || back, reservedBy := if e.reservedBy = 3 then 0 else e.reservedBy })

/-- A KAT_REQ bit written as 1 (R257, R260, R271, R339, R386). -/
def doKatReq (h u : Nat) (who : Requester) (s : State) : State :=
  if (s.eng h u).scrubbing then refuse (pgU h u) who ctrlOff (if isBurner u then 2 ^ (4 + unitNo u) else 2) cState s
  else if mgrOrInner who then requestKat h u true s
  else refuse (pgU h u) who ctrlOff (if isBurner u then 2 ^ (4 + unitNo u) else 2) cRequester s

def execKatReq (h : Fin 16) (u : Fin 20) (who : Requester) (s : State) : Result :=
  .next (onHearth h.val (doKatReq h.val u.val who) s)

/-- The test period of a unit in seconds: KAT_CTRL, or HOB_KAT. -/
def katPeriod (s : State) (h u : Nat) : Nat :=
  if isBurner u then s.rd (pgH .hob h) Reg.HOB_KAT_PERIOD else s.rd (pgU h u) Reg.KAT_CTRL_PERIOD

def execKatPeriodExpiry (h : Fin 16) (u : Fin 20) (s : State) : Result :=
  .next (if s.up h.val ∧ katPeriod s h.val u.val ≠ 0 then requestKat h.val u.val false s else s)

/-- The stoker starts a pending test (R271, R273, R337): the unit is free, its generator seeded, an entry for the inner world's job
free (R18), and of the burners none other is under test. A unit that drains runs its test first (R551). -/
def doKatStart (h u : Nat) (s : State) : State :=
  let e := s.eng h u
  let other := isBurner u && [16, 17, 18, 19].any (fun v => (s.eng h v).katRunning)
  if !s.up h ∨ !e.katPending ∨ e.holder ≠ 0 ∨ e.busy ∨ e.turnover ∨ !mgReady e ∨ other
      ∨ !(s.blockState h u = 0 ∨ s.blockState h u = 3) ∨ ((s.H h).inner.lowestFree hostEntries 2048).isNone then s
  else
    let s := (takeLock h u 1 idKat s).modEng h u (fun e => { e with katPending := false, katRunning := true, gated := false })
    noteJobs h (s.modH h (fun x => addInner x (.kat u)))

def execKatStart (h : Fin 16) (u : Fin 20) (s : State) : Result := .next (doKatStart h.val u.val s)

/-- A test ends (R275, R276, R336, R338): a failure takes the unit out of rotation; a pass returns one that is out only where the
test was asked for by KAT_REQ or at hearth reset. -/
def doKatDone (h u : Nat) (pass : Bool) (s : State) : State :=
  let e := s.eng h u
  if !e.katRunning ∨ e.scrubbing then s
  else
    let s := s.modEng h u (fun e => { e with katRunning := false, katReturns := false, offline := !pass || (e.offline && !e.katReturns),
                                              turnover := isBurner u })
    let s := fillInner h (releaseLock h u s)
    if pass then s
    else
      let s := errCtr h 208 s
      raiseH h (if isBurner u then evHobKatFail else evKatFail) (pgU h u) { inst := unitNo u, payload := captureBytes (pgU h u) s } s

def execKatDone (h : Fin 16) (u : Fin 20) (pass : Bool) (s : State) : Result := .next (doKatDone h.val u.val pass s)

/-! ### Mask generators -/

/-- A masked job is in progress on a unit: a queued one, or one of direct use. -/
def masksNow (s : State) (h u : Nat) : Bool :=
  match (s.eng h u).job with
  | some j => match s.job? h j with
    | some jb => jb.state == .running && (maskUnit jb).isSome
    | none => false
  | none => (s.eng h u).busy && !unmasked s h u

/-- A generator stops, and a masked job on its engine pauses (R242, R243, R288). -/
def mgStop (h u : Nat) (s : State) : State :=
  let p := pgU h u
  let held := masksNow s h u
  let i : Info := { inst := unitNo u, payload := captureBytes p s }
  raiseH h evMgStall p i (errCtr h 207 (s.modEng h u (fun e =>
    { e with mg := { e.mg with stalled := true }, paused := e.paused || held })))

/-- A generator rekeyed from its own next 384 output bits (R242). -/
def MaskGen.rekey (g : MaskGen) : MaskGen :=
  let (b, g) := g.draw 48
  { g.seed b with grace := g.grace + 1 }

/-- A generator switched to the seed in its shadow (R240). -/
def MaskGen.switch (g : MaskGen) : MaskGen :=
  { g.seed g.shadow with shadow := [], prefetched := false, grace := 0, requested := false }

/-- A reseed falls due (R239 to R242): the shadow seed, or the hearth's entropy policy. ENT_CTRL.POLICY is lenient
where it is 1. -/
def doMgReseed (h u : Nat) (s : State) : State :=
  let e := s.eng h u
  let lenient := s.flag (entPage h) Reg.ENT_CTRL_POLICY
  let p := pgU h u
  if !s.up h ∨ !e.mg.seeded ∨ e.mg.stalled then s
  else if e.mg.prefetched then s.modEng h u (fun e => { e with mg := e.mg.switch })
  else if lenient ∧ e.mg.grace < 16 then
    let i : Info := { inst := unitNo u, payload := captureBytes p s }
    let s := s.modEng h u (fun e => { e with mg := e.mg.rekey })
    if e.mg.grace = 0 then raiseH h evMgGrace p i s else s
  else mgStop h u s

def execMgReseedDue (h : Fin 16) (u : Fin 20) (s : State) : Result := .next (doMgReseed h.val u.val s)

/-- The generator asks for its next seed (R240). -/
def execMgPrefetch (h : Fin 16) (u : Fin 20) (s : State) : Result :=
  .next (if s.up h.val ∧ !(s.eng h.val u.val).mg.prefetched then
    s.modEng h.val u.val (fun e => { e with mg := { e.mg with requested := true } }) else s)

/-- A seed reaches a generator: it seeds an unseeded or stopped one, and is held in the shadow otherwise (R240, R241, R244). -/
def MaskGen.take (g : MaskGen) (b : Bytes) : MaskGen :=
  if !g.seeded ∨ g.stalled then { g.seed b with stalled := false, grace := 0 }
  else { g with shadow := b, prefetched := true, requested := false }

/-- The key cache's generator makes the first draw (R439 step 5). -/
def seedCache (h : Nat) (s : State) : Option State :=
  if (s.H h).cacheMg.seeded then some s
  else (drbgRequest h 48 false s).map (fun a => a.2.modH h (fun x => { x with cacheMg := x.cacheMg.seed a.1 }))

/-- A seed of 384 bits from the DRBG for a generator (R239 to R244). A paused job resumes where it stopped. -/
def doMgSeed (h u : Nat) (s : State) : State :=
  let e := s.eng h u
  let wants := !e.mg.seeded || e.mg.stalled || (e.mg.requested && !e.mg.prefetched)
  if !s.up h ∨ !wants ∨ s.blockState h u = 2 then s
  else
    match (seedCache h s).bind (drbgRequest h 48 false) with
    | none => s
    | some (b, s) => s.modEng h u (fun e =>
        { e with mg := e.mg.take b, paused := e.paused && mgReady e, streamed := e.streamed || (e.busy && !mgReady e) })

def execMgSeedArrival (h : Fin 16) (u : Fin 20) (s : State) : Result := .next (doMgSeed h.val u.val s)

end Sys2Proof.Machine
end

