-- ==== Sys2Proof/Machine/Fetch.lean ====
section
/-! DEFINITION. The fetch of a descriptor into the job table (R17 to R21, R66 to R75, R80 to R95, R127 to R131): the conditions
of R87, the scatter lists, the Shaim 2 layout, and the descriptor, policy and damper checks. -/

namespace Sys2Proof.Machine

/-! ### Scatter lists (R72) -/

/-- The data entries of a list as read along its chain; none where it is malformed: a zero or over-long LEN, a reserved CTRL
bit, LAST with CHAIN, a misaligned segment, entries after LAST, or no LAST. -/
def parseSgl : List Bytes → Option (List SgEntry)
  | [] => none
  | e :: r =>
    let addr := fieldLe e 0 8
    let len := fieldLe e 8 4
    let ctrl := fieldLe e 12 4
    if ctrl = 2 then (if addr % 16 = 0 then parseSgl r else none)
    else if len = 0 ∨ 2 ^ 24 ≤ len then none
    else if ctrl = 1 then (if r.isEmpty then some [⟨addr, len⟩] else none)
    else if ctrl = 0 then (parseSgl r).map (fun t => ⟨addr, len⟩ :: t)
    else none

def sglTotal (l : List SgEntry) : Nat := (l.map (·.len)).sum

/-- What the fetched lists give: whether they are well formed, and the input and output as buffers. -/
structure Lists where
  ok  : Bool := true
  inp : List SgEntry := []
  out : List SgEntry := []
  deriving DecidableEq, Repr

/-- The lists of a descriptor in pointer form; without a list, its one buffer. -/
def readLists (d sglIn sglOut : Bytes) : Lists :=
  if !dPtr d then {}
  else
    let one := fun (flag : Bool) (addr len : Nat) (b : Bytes) =>
      if flag then (if addr % 16 = 0 then parseSgl (chunks 16 b) else none)
      else some (if len = 0 then [] else [⟨addr, len⟩])
    match one (dSglIn d) (dInAddr d) (dInLen d) sglIn, one (dSglOut d) (dOutAddr d) (dOutLen d) sglOut with
    | some a, some b =>
      { ok := decide ((if dSglIn d then a.length else 0) + (if dSglOut d then b.length else 0) ≤ 256), inp := a, out := b }
    | _, _ => { ok := false }

/-- The lengths of R70: lists sum to IN_LEN and OUT_LEN. -/
def listsFit (d : Bytes) (l : Lists) : Bool :=
  l.ok && (!dSglIn d || sglTotal l.inp == dInLen d) && (!dSglOut d || sglTotal l.out == dOutLen d)

/-! ### Shaim 2 descriptors (R129 to R131) -/

/-- Opcodes that write to an output buffer (R130). -/
def writesOut (op : Nat) : Bool :=
  match opDef? op with
  | some e => e.useOut
  | none => false

/-- A Shaim 2 descriptor in the layout of R67, or the status that its own rules give it. An input list longer than the 64 bytes of
an opcode that takes them whole is malformed (log 133). -/
def fromShaim2 (b sglIn sglOut head : Bytes) : Except Nat Bytes :=
  let op := fieldLe b 0 2
  let fl := fieldLe b 2 2
  let inl := byteAt b 0x0A
  let front := fun (fl inl : Nat) => toLe 2 op ++ toLe 2 fl ++ slice b 4 4 ++ zeros 2 ++ slice b 8 2 ++ toLe 2 inl ++ zeros 2
    ++ slice b 0x10 32 ++ zeros 16
  if !isZero (slice b 0x0B 5) then .error stBadDescriptor
  else if !fl.testBit 0 then
    if 16 < inl then .error stBadDescriptor else .ok (front fl inl ++ slice b 0x30 16 ++ zeros 48)
  else
    let inA := fieldLe b 0x30 8
    let outA := fieldLe b 0x38 8
    let total := fun (x : Bytes) => ((parseSgl (chunks 16 x)).map sglTotal).getD 0
    let badOut := if writesOut op then !fl.testBit 2 else fl.testBit 2 || outA != 0
    if !fl.testBit 1 ∨ badOut ∨ inl ≠ 0 ∨ inA % 16 ≠ 0 then .error stBadDescriptor
    else if (parseSgl (chunks 16 sglIn)).isNone ∨ (fl.testBit 2 ∧ (parseSgl (chunks 16 sglOut)).isNone) then
      .error stBadDescriptor
    else if compatRecord op then
      if total sglIn < 64 then .error stBadLength
      else if total sglIn ≠ 64 ∨ 256 < sglIn.length / 16 then .error stBadDescriptor
      else
        let want := if op = 0x0510 ∨ op = 0x0511 then 17 else 64
        .ok (front (fl &&& 0xFFF8) want ++ slice head 0 64)
    else if total sglIn < 40 then .error stBadLength
    else
      .ok (front fl 0 ++ toLe 8 inA ++ toLe 8 outA ++ toLe 4 (total sglIn - 40)
        ++ toLe 4 (if fl.testBit 2 then total sglOut else 0) ++ slice head 0 40)

/-! ### The conditions of a fetch (R87) -/

def State.vfJobCount (s : State) (h v : Nat) : Nat := ((s.H h).jobs.filter (fun p => p.2.vf == v)).length

def State.qpJobCount (s : State) (h v q : Nat) : Nat :=
  ((s.H h).jobs.filter (fun p => p.2.vf == v && p.2.qp == q)).length

/-- Reads issued for the VFs of a hearth that have not returned: each keeps an entry of the job table for its job. -/
def State.readsIn (s : State) (h : Nat) : Nat := ((s.boundVfs h).map s.readsOf).sum

/-- Room for the job: a host entry, the VF's INFLIGHT_MAX and the completion queue. -/
def fetchRoom (s : State) (h v q : Nat) : Bool :=
  let t := Queue.vf (Fin.ofNat 512 v) (Fin.ofNat 8 q)
  ((s.H h).jobs.lowestFree 0 hostEntries).isSome
    && decide ((s.H h).jobs.length + s.readsIn h < hostEntries)
    && decide (s.vfJobCount h v + s.readsOf v < s.ft v Reg.FT_INFLIGHT_MAX)
    && decide (s.qpJobCount h v q + (s.qp t).occ < s.cqDepth t)

/-- The queue pair is enabled and has a descriptor that may be read now (R59, R65, R81). -/
def fetchQueue (s : State) (t : Queue) : Bool :=
  s.qrd t Reg.QP_CTRL_ENABLE == 1 && (s.qp t).sqHead != (s.qp t).sqTail && (s.qp t).fence.isNone
    && s.qrd t Reg.QP_STATUS_ERROR == 0 && !(s.qp t).reading

/-- The damper admits a fetch (R96). -/
def damperAdmits (s : State) (h v : Nat) : Bool :=
  s.damper v == dampOpen || (s.damper v == dampThrottled && decide (s.vfJobCount h v + s.readsOf v < (s.vf v).throttle))

def bucketHas (s : State) (v : Nat) : Bool := s.ft v Reg.FT_DRAUGHT_RATE == 0 || decide (0 < (s.vf v).tokens)

/-- The hearth takes descriptors: its stoker has a policy (R25, R29), or it is fatal, or the part is QUENCHED and answers each of
them (R39, R578). -/
def hearthTakes (s : State) (h : Nat) : Bool :=
  lcState s == lcQuenched || s.hState h == hsFatal || (s.works h && s.rd (pgH .stoker h) Reg.STK_CTRL_MODE != 0)

/-- A descriptor read may be issued (R65, R87, R96, R654). -/
def mayFetch (s : State) (v q : Nat) : Bool :=
  let t := Queue.vf (Fin.ofNat 512 v) (Fin.ofNat 8 q)
  let h := s.ft v Reg.FT_HEARTH
  s.hostUp && s.bound v && fetchQueue s t && fetchRoom s h v q && damperAdmits s h v && bucketHas s v && hearthTakes s h
    && !s.flue.recorder.waiting

/-- What a descriptor completes with unread by its opcode: on the queues of a part in QUENCHED and of a fatal hearth, every one
(R39, R578); of those whose read was issued earlier, the ones whose hearth has been reset, whose damper has closed and whose queue
pair has been disabled since (R65, R98, R692). -/
def fetchStop (s : State) (t : Queue) (v : Nat) (issued : Bool) : Option Nat :=
  let h := s.ft v Reg.FT_HEARTH
  if lcState s = lcQuenched then some stQuenched
  else if s.hState h = hsFatal ∨ (issued ∧ !s.live h) then some stFatal
  else if issued ∧ s.damper v = dampClosing then some stDamperClosed
  else if issued ∧ s.qrd t Reg.QP_CTRL_ENABLE = 0 then some stQpDisabled
  else none

/-! ### The checks of a fetched descriptor (R21, R89 steps 1 and 2) -/

/-- Faults of a descriptor that no opcode admits (R70, R75). -/
def formBad (d : Bytes) (lists : Bool) : Bool :=
  let ptr := dPtr d
  decide (128 ≤ dFlags d) || fieldLe d 0x0E 2 != 0 || decide (64 < dInline d) || (ptr && dInline d != 0)
    || (!ptr && (dSglIn d || dSglOut d)) || (ptr && (decide (0x800000 < dInLen d) || decide (0x800000 < dOutLen d)))
    || !lists || [dRef d 0, dRef d 1, dRef d 2].any refMalformed

/-- An opcode that the hearth's mode or the variant makes unavailable (R127, R292, R353). -/
def modeDenies (s : State) (h : Nat) (compat : Bool) (d : Bytes) : Bool :=
  let op := dOp d
  let sc := pScheme (dParam d)
  (compat && (op / 256 == 7 || decide (0x0110 ≤ op ∧ op ≤ 0x0112)
      || (op / 256 == 4 && (op == 0x0405 || op == 0x0406 || sc == 4 || sc == 7))))
    || (isHob op && (!s.variant.hob || s.rd (pgH .hob h) Reg.HOB_CTRL_MODE == 0))

/-- A share of 0 for a class the job needs (R94). The algorithm of a KEY_DERIVE base matters at dispatch only. -/
def shareOf (s : State) (v c : Nat) : Nat :=
  if c = 0 then s.ft v Reg.FT_SHARE_CIPHER else if c = 1 then s.ft v Reg.FT_SHARE_HASH
  else if c = 2 then s.ft v Reg.FT_SHARE_BIGNUM else s.ft v Reg.FT_SHARE_BURNER

/-- VF policy (R177, R94): CLASS_ALLOW and shares. CLEAR_OPERANDS needs a big-number share. -/
def policyDenies (s : State) (h v : Nat) (d : Bytes) (alg0 : Nat) : Bool :=
  let op := dOp d
  let needs := if op = 0x04F0 then [2] else opNeeds d alg0
  !(s.rd (kpPage h) (Reg.KP_CLASS_ALLOW (s.posOf v))).testBit (op / 256 - 1) || needs.any (fun c => shareOf s v c == 0)

/-- R89 steps 1 and 2 for a descriptor in the layout of R67. -/
def fetchCheck (s : State) (h v : Nat) (compat : Bool) (d : Bytes) (lists : Bool) : Option Nat :=
  let op := dOp d
  if op / 256 = 8 then (if formBad d lists then some stBadDescriptor else some stOpcodeDenied)
  else if modeDenies s h compat d then some stUnsupported
  else match opDef? op with
    | none => some stUnsupported
    | some e =>
      if compat ∧ dNonceSrc d ≠ 0 then some stBadDescriptor
      else match stepOne d e lists compat with
        | some st => some st
        | none =>
          let hearthByte := if op = 0x0701 then byteAt (dOperands d) 1
            else if 0x0702 ≤ op ∧ op ≤ 0x0704 then byteAt (dOperands d) 2 else 0
          if (op = 0x04F0 ∧ dGroup d ≠ 0) ∨ hearthByte ≠ 0 then some stBadDescriptor
          else if policyDenies s h v d 0x06 then some stOpcodeDenied
          else none

/-- An opcode whose GROUP_ID names a group without joining it, or opens one (R392). -/
def noJoin (op : Nat) : Bool := decide (0x0701 ≤ op ∧ op ≤ 0x0704)

/-- Key references that name a blob, to be unwrapped first (R20). -/
def blobRefs (d : Bytes) : List Nat := [0, 1, 2].filter (fun i => rKind (dRef d i) == kDdr || rKind (dRef d i) == kHost)

/-- A job that reads or writes the key cache, the key bus or the derivation unit (R576). -/
def usesKeys (d : Bytes) : Bool :=
  let op := dOp d
  op / 256 == 1 || [dRef d 0, dRef d 1, dRef d 2].any (fun r => rKind r != kNone) || decide (0x0404 ≤ op ∧ op ≤ 0x0407)

/-- The group of an action joins it, once its descriptor and policy checks have passed (R89, R392): the status of a refused
join. -/
def joinJob (h j : Nat) (jb : Job) (s : State) : State × Option Nat :=
  let d := jb.desc
  let g := dGroup d
  if g = 0 ∨ noJoin (dOp d) then (s, none)
  else match joinGroup h g (.job j) (some jb.vf) (if dOp d = 0x0705 then 1 else 0) false s with
    | (s, .joined) =>
      let s := s.modJob h j (fun x => { x with group := g, joined := true })
      (if dOp d = 0x0705 then
        s.modGroup h g (fun x => x.modAction (.job j) (fun a => { a with event := some ((dOperands d).take (dInline d)) }))
      else s, none)
    | (s, .refused st) => (s, some st)

/-! ### Hob jobs in BATCH mode (R331, R332) -/

/-- READY hob jobs (R331). -/
def hobReady (s : State) (h : Nat) : List Nat :=
  ((s.H h).jobs.filter (fun p => p.2.state == .ready && isHob (dOp p.2.desc))).map (·.1)

/-- The hearth's hob is in BATCH mode with no released job waiting: it holds. -/
def hobHolds (s : State) (h : Nat) : Bool :=
  s.rd (pgH .hob h) Reg.HOB_CTRL_MODE == 2 && (!(s.H h).batchOpen || (hobReady s h).isEmpty)

/-- A burner runs no job, test or turnover. -/
def burnerIdle (e : Engine) : Bool := e.holder == 0 && !e.turnover

/-- The idle burners gate their clocks where BATCH mode holds (R330, R332); otherwise every burner is clocked. -/
def gateBurners (h : Nat) (s : State) : State :=
  (classUnits 3).foldl (fun s u => s.modEng h u (fun e => { e with gated := hobHolds s h && burnerIdle e })) s

/-- Holding resumes when no hob job is READY (R331). -/
def closeBatch (h : Nat) (s : State) : State :=
  if (s.H h).batchOpen ∧ (hobReady s h).isEmpty then gateBurners h (s.modH h (fun x => { x with batchOpen := false })) else s

/-- A job becomes READY, after the end of a batch that it found empty. -/
def toReady (h j : Nat) (f : Job → Job) (s : State) : State :=
  (closeBatch h s).modJob h j (fun x => { f x with state := .ready, waitUs := 0, heldUs := 0 })

/-- A descriptor in its job-table entry goes on: refused at once with its own status (R21), refused by its group, waiting for
unwraps, or READY. -/
def admitJob (h j : Nat) (stop : Option Nat) (lists : Bool) (s : State) : State :=
  match s.job? h j with
  | none => s
  | some jb =>
    let d := jb.desc
    match stop with
    | some st => failJob h j st s
    | none =>
      match fetchCheck s h jb.vf jb.compat d lists with
      | some st => failJob h j st (if noJoin (dOp d) then s else failAction h (dGroup d) jb.vf st s)
      | none =>
        match joinJob h j jb s with
        | (s, some st) => failJob h j st s
        | (s, none) =>
          if isolating s ∧ usesKeys d then failJob h j stQuenched s
          else
          let w := blobRefs d
          if w.isEmpty then toReady h j id s else s.modJob h j (fun x => { x with state := .keywait, awaiting := w })

/-- The smallest virtual time among the hearth's VFs that have jobs (R92). -/
def minVtime (s : State) (h : Nat) : Option Nat :=
  (s.H h).jobs.foldl (fun m p =>
    let t := (s.vf p.2.vf).vtime
    some (match m with | some x => min x t | none => t)) none

/-- The token of a descriptor read, and the virtual time of a VF that submits again (R92, R93). -/
def takeToken (v : Nat) (s : State) : State :=
  let h := s.ft v Reg.FT_HEARTH
  let low := minVtime s h
  let s := if s.vfJobCount h v = 0 then s.modVf v (fun x => { x with vtime := max x.vtime (low.getD x.vtime) }) else s
  s.modVf v (fun x => { x with tokens := if s.ft v Reg.FT_DRAUGHT_RATE = 0 then x.tokens else x.tokens - 1 })

/-- The status of a Shaim 2 descriptor that its own layout refuses: an opcode that is unavailable in the hearth's mode is that
first (R4, R127; log 132). -/
def shaim2Stop (s : State) (h st : Nat) (d : Bytes) : Nat :=
  if dOp d / 256 ≠ 8 ∧ (modeDenies s h true d ∨ (opDef? (dOp d)).isNone) then stUnsupported else st

/-- A descriptor read into a new entry. -/
def fetchInto (h v q : Nat) (stop : Option Nat) (desc sglIn sglOut head : Bytes) (s : State) : State :=
  let t := Queue.vf (Fin.ofNat 512 v) (Fin.ofNat 8 q)
  match (s.H h).jobs.lowestFree 0 hostEntries with
  | none => s
  | some j =>
    let compat := (s.H h).compat
    let next := ((s.qp t).sqHead + 1) % s.sqDepth t
    let s := addCtr h 150 1 s
    let conv := if compat then fromShaim2 desc sglIn sglOut head else .ok desc
    let d := match conv with
      | .ok d => d
      | .error _ => slice desc 0 8 ++ zeros 2 ++ slice desc 8 2 ++ zeros 116
    let l := if compat ∧ compatRecord (dOp d) then {} else readLists d sglIn sglOut
    let fits := l.ok && (compat || listsFit d l)
    let jb : Job :=
      { vf := v, qp := q, desc := d, compat := compat, sglIn := l.inp, sglOut := l.out, seq := (s.H h).fetchSeq }
    let s := s.modH h (fun x => { x with jobs := x.jobs.put j jb, fetchSeq := x.fetchSeq + 1 })
    let s := s.modQp t (fun x => { x with sqHead := next, fence := if dFence d then some j else x.fence })
    let s := s.qwr t Reg.QP_STATUS_ACTIVE 1
    let s := noteJobs h s
    let stop := match stop, conv with
      | some st, _ => some st
      | none, .error st => some (shaim2Stop s h st d)
      | none, .ok _ => none
    fillInner h (admitJob h j stop fits s)

/-- A descriptor read that was issued in an earlier step returns (R65, R98). -/
def lateFetch (v q : Nat) (rd : FetchRead) (s : State) : State :=
  let t := Queue.vf (Fin.ofNat 512 v) (Fin.ofNat 8 q)
  let h := s.ft v Reg.FT_HEARTH
  if !s.hostUp ∨ !s.bound v ∨ !(s.qp t).reading then s
  else
    let s' := s.modQp t (fun x => { x with reading := false })
    match rd with
    | .pending => s
    | .error => checkDrain v (restQueue t (qpError t errFetch s'))
    | .ok desc sglIn sglOut head => fetchInto h v q (fetchStop s t v true) desc sglIn sglOut head s'

/-- A descriptor read: one that was issued earlier returns, or a new one is issued, which returns in the same step or stays on its
way (R87). -/
def doFetch (v q : Nat) (issued : Bool) (rd : FetchRead) (s : State) : State :=
  let t := Queue.vf (Fin.ofNat 512 v) (Fin.ofNat 8 q)
  let h := s.ft v Reg.FT_HEARTH
  if issued then lateFetch v q rd s
  else if !mayFetch s v q then s
  else
    let s' := takeToken v s
    match rd with
    | .pending => s'.modQp t (fun x => { x with reading := true })
    | .error => qpError t errFetch s'
    | .ok desc sglIn sglOut head => fetchInto h v q (fetchStop s t v false) desc sglIn sglOut head s'

/-- A descriptor is 128 bytes, in a hearth with SHAIM2_COMPAT 64 (R67, R127); a read of the other size is none that the part
makes. -/
def execDescriptorFetch (v : Fin 512) (q : Fin 8) (issued : Bool) (rd : FetchRead) (s : State) : Result :=
  let want := if (s.H (s.ft v.val Reg.FT_HEARTH)).compat then 64 else 128
  let fits := match rd with
    | .ok desc _ _ _ => desc.length == want
    | .error => true
    | .pending => true
  if !rd.wf then .fault .illFormed
  else .next (if fits then doFetch v.val q.val issued rd s else s)

end Sys2Proof.Machine
end

