-- ==== Sys2Proof/Machine/Hob.lean ====
section
/-! DEFINITION. The functions of the payment hob (R296 to R329): PIN blocks, DUKPT, verification values, card values, payment
MACs, EMV cryptograms and key blocks, and the checks that need no burner. -/

namespace Sys2Proof.Machine

/-! ### Digits -/

/-- The nibbles of a byte string, high nibble first. -/
def nibs (b : Bytes) : List Nat := b.flatMap (fun x => [x.toNat / 16, x.toNat % 16])

/-- Nibbles packed into bytes. -/
def packNibs : List Nat → Bytes
  | [] => []
  | [a] => [byte (16 * a)]
  | a :: b :: r => byte (16 * a + b) :: packNibs r

def isDigit (n : Nat) : Bool := n < 10

/-- The last `n` elements of a list, padded on the left. -/
def lastN (n : Nat) (l : List Nat) : List Nat := List.replicate (n - l.length) 0 ++ l.drop (l.length - n)

/-- Digits collected by the scan of R313: decimal digits first, then 0xA to 0xF less 10. -/
def decScan (n : Nat) (l : List Nat) : List Nat := (l.filter isDigit ++ (l.filter (fun d => !isDigit d)).map (· - 10)).take n

/-- A PAN field (R297): its digits, or none where it is invalid. -/
def panDigits (len : Nat) (b : Bytes) : Option (List Nat) :=
  let l := nibs (slice b 0 10)
  if 12 ≤ len ∧ len ≤ 19 ∧ (l.take len).all isDigit ∧ (l.drop len).all (· == 0xF) then some (l.take len) else none

/-! ### The latched policy of a job (R287) -/

/-- MIN_LEN, MAX_LEN and the named table's two words. -/
def hobLatch (s : State) (h : Nat) (d : Bytes) : List Nat :=
  let p := pgH .hob h
  let t := byteAt (dOperands d) 0x27 % 4
  [s.rd p Reg.HOB_PINPOL_MIN_LEN, s.rd p Reg.HOB_PINPOL_MAX_LEN, s.rd p (Reg.DT_LO_ENTRIES_LO t),
    s.rd p (Reg.DT_HI_ENTRIES_HI t)]

/-- Entry of the decimalisation table for a hexadecimal digit (R312). -/
def decDigit (latch : List Nat) (x : Nat) : Nat := bits (latch.getD 2 0 + latch.getD 3 0 * 2 ^ 32) (4 * x) 4

/-! ### PIN blocks (R301, R302) -/

/-- The PAN field of formats 0 and 3. -/
def panField (pan : List Nat) : Bytes := packNibs ([0, 0, 0, 0] ++ lastN 12 pan.dropLast)

/-- The PAN field of format 4. -/
def panField4 (pan : List Nat) : Bytes := slice (packNibs ((pan.length - 12) :: pan ++ List.replicate (31 - pan.length) 0)) 0 16

/-- The sixteen nibbles of a decrypted PIN field. -/
def pinField (fmt : Nat) (k blk : Bytes) (pan : List Nat) : List Nat :=
  if fmt = 4 then (nibs (aesDec k (xorBytes (aesDec k (slice blk 0 16)) (panField4 pan)))).take 16
  else
    let p := tdesDec k (slice blk 0 8)
    nibs (if fmt = 1 then p else xorBytes p (panField pan))

/-- The PIN digits of a field that passes R302. -/
def pinOf (fmt : Nat) (latch : List Nat) (f : List Nat) : Option (List Nat) :=
  let n := f.getD 1 0
  let fill := (f.drop (2 + n)).take (14 - n)
  let ok := f.getD 0 0 == fmt && decide (4 ≤ n ∧ n ≤ 12) && decide (latch.getD 0 0 ≤ n ∧ n ≤ latch.getD 1 0)
    && ((f.drop 2).take n).all isDigit
    && (if fmt = 0 then fill.all (· == 0xF) else if fmt = 3 then fill.all (fun x => decide (0xA ≤ x))
        else if fmt = 4 then fill.all (· == 0xA) else true)
  if ok then some ((f.drop 2).take n) else none

/-- Fill nibbles from drawn bytes: random in format 1, 0xA to 0xF in format 3. -/
def fillNibs (fmt : Nat) (rand : Bytes) : List Nat :=
  if fmt = 0 then List.replicate 14 0xF else if fmt = 4 then List.replicate 14 0xA
  else if fmt = 1 then nibs rand else rand.map (fun b => 10 + Config.fillDigit b % 6)

/-- A PIN block built and encrypted. -/
def pinBlock (fmt : Nat) (k : Bytes) (pin pan : List Nat) (rand : Bytes) : Bytes :=
  let f := slice (packNibs ((fmt :: pin.length :: pin ++ fillNibs fmt rand).take 16)) 0 8
  if fmt = 4 then aesEnc k (xorBytes (aesEnc k (f ++ slice rand 0 8)) (panField4 pan))
  else tdesEnc k (if fmt = 1 then f else xorBytes f (panField pan))

/-- Bytes drawn for a destination format (R289): up to ten fill digits of format 3, eight bytes for formats 1 and 4. -/
def fillDraw (fmt : Nat) : Nat := if fmt = 0 then 0 else if fmt = 3 then 10 else 8

/-! ### DUKPT (R306 to R309) -/

/-- Code and length in bits of an AES key by its length in bytes. -/
def aesCode (n : Nat) : Nat × Nat := if n = 16 then (2, 128) else if n = 24 then (3, 192) else (4, 256)

/-- One AES DUKPT derivation to a key of `n` bytes. -/
def dukptDerive (key : Bytes) (usage n : Nat) (tail : Bytes) : Bytes :=
  let (c, l) := aesCode n
  slice ([1, 2].flatMap (fun i => aesEnc key ([0x01, byte i] ++ toBe 2 usage ++ toBe 2 c ++ toBe 2 l ++ tail))) 0 n

/-- The intermediate steps of R306 over the counter's bits from 31 down. -/
def dukptSteps (ikId : Bytes) (ctr : Nat) : Nat → Nat → Bytes → Bytes
  | 0, _, key => key
  | b + 1, w, key =>
    if ctr.testBit b then
      dukptSteps ikId ctr b (w + 2 ^ b) (dukptDerive key 0x8000 key.length (slice ikId 4 4 ++ toBe 4 (w + 2 ^ b)))
    else dukptSteps ikId ctr b w key

def aesDukpt (base : Bool) (key ksn : Bytes) (usage wk : Nat) : Bytes :=
  let ik := slice ksn 0 8
  let ctr := fieldBe ksn 8 4
  let k := if base then dukptDerive key 0x8001 key.length ik else key
  dukptDerive (dukptSteps ik ctr 32 0 k) usage (16 + 8 * wk) (slice ik 4 4 ++ toBe 4 ctr)

/-- The mask 0xC0C0C0C0_00000000, twice. -/
def dukptMask : Bytes := [0xC0, 0xC0, 0xC0, 0xC0, 0, 0, 0, 0, 0xC0, 0xC0, 0xC0, 0xC0, 0, 0, 0, 0]

/-- The non-reversible key generation of R308. -/
def nrkg (key r : Bytes) : Bytes :=
  let half := fun (k : Bytes) => xorBytes (desEnc (slice k 0 8) (xorBytes r (slice k 8 8))) (slice k 8 8)
  half (xorBytes key dukptMask) ++ half key

def tdukptSteps (top ctr : Nat) : Nat → Nat → Bytes → Bytes
  | 0, _, key => key
  | b + 1, w, key =>
    if ctr.testBit b then tdukptSteps top ctr b (w + 2 ^ b) (nrkg key (toBe 8 ((top + w + 2 ^ b) % 2 ^ 64)))
    else tdukptSteps top ctr b w key

/-- The working key; `variant` is the byte from the right of each half that the variant's 0xFF meets: 0 PIN, 1 MAC request,
3 MAC response. -/
def tdesDukpt (base : Bool) (key ksn : Bytes) (variant : Nat) : Bytes :=
  let k10 := fieldBe ksn 0 10
  let ctr := k10 % 2 ^ 21
  let top := k10 - ctr
  let kin := slice (toBe 10 top) 0 8
  let ik := if base then tdesEnc key kin ++ tdesEnc (xorBytes (slice key 0 16) dukptMask ++ key.drop 16) kin else key
  let v := toBe 8 (0xFF * 256 ^ variant)
  xorBytes (tdukptSteps top ctr 21 0 ik) (v ++ v)

/-- R309: the counter is not zero and within its one-bit limit. -/
def ksnValid (aes : Bool) (ksn : Bytes) : Bool :=
  let c := if aes then fieldBe ksn 8 4 else fieldBe ksn 0 10 % 2 ^ 21
  c != 0 && decide (popCount 32 c ≤ (if aes then 16 else 10))

/-! ### What a hob job gives -/

structure HobOut where
  status : Nat := stOK
  /-- the hob result code of a VERIFY_FAILED (R295, R296) -/
  code   : Nat := 0
  result : Bytes := []
  out    : Bytes := []
  deriving DecidableEq, Repr

def HobOut.fail (code : Nat) : HobOut := { status := stVerifyFailed, code := code }

/-- The cipher key of a PIN source: the zone key, or the DUKPT working key. -/
def pinKey (p : Nat) (key ksn : Bytes) : Bytes :=
  if pSrcKey p = 0 then key else if pSrcKey p = 1 then tdesDukpt (pBase p) key ksn 0 else aesDukpt (pBase p) key ksn 0x1000 (pWkAlg p)

/-- The natural PIN of the offset method (R311). -/
def naturalPin (latch : List Nat) (pvk vdata : Bytes) : List Nat := (nibs (tdesEnc pvk vdata)).map (decDigit latch)

/-- The verification value of R313. -/
def verifyValue (pvk : Bytes) (pan pin : List Nat) (pvki : Nat) : List Nat :=
  decScan 4 (nibs (tdesEnc pvk (packNibs (lastN 11 pan.dropLast ++ [pvki] ++ pin.take 4))))

/-- The PIN opcodes (R297 to R314) on the record `b`. -/
def pinRun (op p : Nat) (b : Bytes) (latch : List Nat) (k0 k1 rand : Bytes) : HobOut :=
  let pan := (nibs (slice b 0x1D 10)).take (byteAt b 0x1C)
  let f := pinField (pSrcFmt p) (pinKey p k0 (slice b 0x10 12)) (slice b 0 16) pan
  let bad := HobOut.fail (if op = 0x0502 then 0x0202 else 0x0201)
  match pinOf (pSrcFmt p) latch f with
  | none => bad
  | some pin =>
    if op = 0x0501 then { result := pinBlock (pDstFmt p) k1 pin pan rand }
    else if pMethod p then
      let v := verifyValue k1 pan pin (byteAt b 0x37)
      if op = 0x0503 then { result := packNibs v }
      else if v = nibs (slice b 0x38 2) then {} else bad
    else
      let nat := naturalPin latch k1 (slice b 0x28 8)
      if op = 0x0503 then
        { result := slice (packNibs ((List.zipWith (fun a n => (a + 10 - n) % 10) pin nat ++ List.replicate 12 0xF).take 12)) 0 6 }
      else
        let n := byteAt b 0x36
        let cand := (List.zipWith (fun a o => (a + o) % 10) nat (nibs (slice b 0x30 6))).take n
        if n ≤ pin.length ∧ cand = pin.take n then {} else bad

/-! ### Card values (R315, R316) -/

def cardValue (k : Bytes) (b : Bytes) : Bytes :=
  let pan := (nibs (slice b 1 10)).take (byteAt b 0)
  let ds := (pan ++ nibs (slice b 0xB 2) ++ (nibs (slice b 0xD 2)).take 3)
  let blk := packNibs ((ds ++ List.replicate 32 0).take 32)
  let kl := slice k 0 8
  let x := xorBytes (desEnc kl (slice blk 0 8)) (slice blk 8 8)
  packNibs (decScan 3 (nibs (desEnc kl (desDec (slice k 8 8) (desEnc kl x)))) ++ [0xF])

def cardRun (op : Nat) (b k : Bytes) : HobOut :=
  let v := cardValue k b
  if op = 0x0510 then { result := v } else if v = slice b 0xF 2 then {} else HobOut.fail 0x0301

/-! ### Payment MACs (R317 to R320) -/

def payPad (m2 : Bool) (m : Bytes) : Bytes :=
  let m := if m2 then m ++ [0x80] else m
  m ++ zeros ((8 - m.length % 8) % 8)

/-- ISO/IEC 9797-1 algorithm 3. -/
def retailMac (k m : Bytes) : Bytes :=
  let kl := slice k 0 8
  let last := (chunks 8 m).foldl (fun c b => desEnc kl (xorBytes c b)) (zeros 8)
  desEnc kl (desDec (slice k 8 8) last)

/-- The full MAC of a payment MAC job: ALG, padding and a key of an algorithm code. -/
def payMac (alg : Nat) (m2 aes : Bool) (k m : Bytes) : Bytes :=
  if alg = 0 then cbcMac .tdes k (payPad m2 m) else if alg = 1 then retailMac k (payPad m2 m)
  else cmac (if aes then .aes else .tdes) k m

def payMacRun (op p : Nat) (par msg : Bytes) (a0 : KeyAttr) (k0 : Bytes) : HobOut :=
  let aes := pmKey p == 2 || (pmKey p == 0 && isAes a0.alg)
  let k :=
    if pmKey p = 0 then k0
    else if pmKey p = 1 then tdesDukpt (pmBase p) k0 (slice par 0 12) (if pmDir p then 3 else 1)
    else aesDukpt (pmBase p) k0 (slice par 0 12) (if pmDir p then 0x2001 else 0x2000) (pmWk p)
  let t := slice (payMac (pmAlg p) (pmPad p) aes k msg) 0 (pmLen p)
  if op = 0x0520 then { result := t } else if t = slice par 16 (pmLen p) then {} else { status := stTagMismatch }

/-! ### EMV cryptograms (R321 to R324) -/

/-- The card master key. -/
def emvMaster (alg : Nat) (imk : Bytes) (pan : List Nat) (psn : Nat) : Bytes :=
  let ds := pan ++ [psn / 16, psn % 16]
  let y := if pan.length ≤ 16 then packNibs (lastN 16 ds)
    else packNibs (decScan 16 (nibs (sha1 (packNibs (lastN (ds.length + ds.length % 2) ds)))))
  let y' := xorBytes y (List.replicate 8 0xFF)
  if isTdes alg then tdesEnc imk y ++ tdesEnc imk y'
  else aesEnc imk (y ++ y') ++ (if alg = 3 then aesEnc imk (y' ++ y) else [])

/-- The session key (R323). -/
def emvSession (alg : Nat) (mk atc : Bytes) : Bytes :=
  if isTdes alg then tdesEnc mk (atc ++ [0xF0] ++ zeros 5) ++ tdesEnc mk (atc ++ [0x0F] ++ zeros 5)
  else aesEnc mk (atc ++ [0xF0] ++ zeros 13) ++ (if alg = 3 then aesEnc mk (atc ++ [0x0F] ++ zeros 13) else [])

def emvRun (p : Nat) (par msg : Bytes) (a0 : KeyAttr) (imk : Bytes) : HobOut :=
  let alg := a0.alg
  let pan := (nibs (slice par 1 10)).take (byteAt par 0)
  let sk := emvSession alg (emvMaster alg imk pan (byteAt par 0x0B)) (slice par 0x0C 2)
  let mac := fun (m2 : Bool) (m : Bytes) => if isTdes alg then retailMac sk (payPad m2 m) else cmac .aes sk m
  let arqc := slice par 0x10 8
  if slice (mac (p.testBit 2) msg) 0 8 ≠ arqc then HobOut.fail 0x0401
  else if !p.testBit 0 then {}
  else if p.testBit 1 then { result := slice (mac true (arqc ++ slice par 0x18 4 ++ slice par 0x20 (byteAt par 0x1C))) 0 4 }
  else
    let x := xorBytes arqc (slice par 0x18 2 ++ zeros 6)
    { result := if isTdes alg then tdesEnc sk x else slice (aesEnc sk (x ++ zeros 8)) 0 8 }

/-! ### Key blocks (R325 to R329) -/

def hexChar (n : Nat) : Byte := byte (if n < 10 then 0x30 + n else 0x37 + n)

def hexText (b : Bytes) : Bytes := (nibs b).map hexChar

/-- The value of an upper-case hexadecimal character. -/
def hexVal (c : Byte) : Option Nat :=
  let n := c.toNat
  if 0x30 ≤ n ∧ n ≤ 0x39 then some (n - 0x30) else if 0x41 ≤ n ∧ n ≤ 0x46 then some (n - 0x37) else none

def isDecChar (c : Byte) : Bool := 0x30 ≤ c.toNat && c.toNat ≤ 0x39

/-- The bytes that upper-case hexadecimal text spells. -/
def hexBytes (t : Bytes) : Option Bytes :=
  let v := t.map hexVal
  if t.length % 2 = 0 ∧ v.all Option.isSome then some (packNibs (v.map (·.getD 0))) else none

/-- A number from hexadecimal characters. -/
def hexNum (t : Bytes) : Option Nat :=
  let v := t.map hexVal
  if v.all Option.isSome then some (v.foldl (fun a d => 16 * a + d.getD 0) 0) else none

def decNum (t : Bytes) : Option Nat :=
  if t.all isDecChar then some (t.foldl (fun a c => 10 * a + (c.toNat - 0x30)) 0) else none

/-- The keys for encryption (usage 0) and MAC (usage 1) that CMAC derives from a protection key (R325). -/
def blockKey (alg : Nat) (k : Bytes) (usage : Nat) : Bytes :=
  let c := cipherOf alg
  let ind := if k.length = 16 then (if isAes alg then 2 else 0) else if k.length = 24 then (if isAes alg then 3 else 1) else 4
  slice ([1, 2, 3, 4].flatMap (fun i => cmac c k ([byte i] ++ toBe 2 usage ++ [0] ++ toBe 2 ind ++ toBe 2 (8 * k.length)))) 0 k.length

/-- One optional block: the characters it takes, or none where it is malformed. A length of 00 is followed by the count of bytes, each
two characters, of the length that stands after it. -/
def optLen (t : Bytes) : Option Nat :=
  match hexNum (slice t 2 2) with
  | none => none
  | some 0 =>
    match hexNum (slice t 4 2) with
    | none => none
    | some w =>
      match hexNum (slice t 6 (2 * w)) with
      | some n => if 0 < w ∧ 6 + 2 * w ≤ n ∧ n ≤ t.length then some n else none
      | none => none
  | some n => if 4 ≤ n ∧ n ≤ t.length then some n else none

def optBlocks : Nat → Bytes → Option Nat
  | 0, _ => some 0
  | k + 1, t =>
    match optLen t with
    | none => none
    | some n => (optBlocks k (t.drop n)).map (· + n)

/-- The internal usages that a header's usage code, mode and algorithm permit (R326). Characters by code. -/
def blockUsages (u0 u1 mode alg : Nat) : List Nat :=
  let t := alg == 0x54
  let ta := t || alg == 0x41
  let pick := fun (e d : Nat) => if mode = 0x45 then [e] else if mode = 0x44 then [d] else if mode = 0x42 then [e, d] else []
  let macs := if mode = 0x47 then [uMacGen] else if mode = 0x56 then [uMacVer] else if mode = 0x43 then [uMacGen, uMacVer] else []
  if !ta then []
  else if u0 = 0x42 ∧ (u1 = 0x30 ∨ u1 = 0x31) then (if mode = 0x58 then [uDerive] else [])
  else if u0 = 0x50 ∧ u1 = 0x30 then pick uPinEnc uPinTran
  else if u0 = 0x56 ∧ (u1 = 0x31 ∨ u1 = 0x32) then (if mode = 0x43 ∧ t then [uPinVer] else [])
  else if u0 = 0x43 ∧ u1 = 0x30 then (if mode = 0x43 ∧ t then [uCard] else [])
  else if u0 = 0x45 ∧ u1 = 0x30 then (if mode = 0x58 then [uEmv] else [])
  else if u0 = 0x4D ∧ (u1 = 0x31 ∨ u1 = 0x33) then (if t then macs else [])
  else if u0 = 0x4D ∧ u1 = 0x36 then macs
  else if u0 = 0x44 ∧ u1 = 0x30 then pick uEncrypt uDecrypt
  else if u0 = 0x4B ∧ (u1 = 0x30 ∨ u1 = 0x31) then pick uWrap uUnwrap
  else []

/-- The usage code and mode an export writes; none where no code maps. -/
def blockCode (usage alg : Nat) (alt : Bool) : Option (Nat × Nat × Nat) :=
  let d := fun (x y : Nat) => if alt then y else x
  if !(isAes alg || isTdes alg) then none
  else if usage = uDerive then some (0x42, d 0x30 0x31, 0x58)
  else if usage = uPinEnc then some (0x50, 0x30, 0x45)
  else if usage = uPinTran then some (0x50, 0x30, 0x44)
  else if usage = uPinVer then (if isTdes alg then some (0x56, d 0x31 0x32, 0x43) else none)
  else if usage = uCard then (if isTdes alg then some (0x43, 0x30, 0x43) else none)
  else if usage = uEmv then some (0x45, 0x30, 0x58)
  else if usage = uMacGen ∨ usage = uMacVer then
    some (0x4D, if isAes alg then 0x36 else d 0x33 0x31, if usage = uMacGen then 0x47 else 0x56)
  else if usage = uEncrypt then some (0x44, 0x30, 0x45)
  else if usage = uDecrypt then some (0x44, 0x30, 0x44)
  else if usage = uWrap then some (0x4B, d 0x30 0x31, 0x45)
  else if usage = uUnwrap then some (0x4B, d 0x30 0x31, 0x44)
  else none

/-- The algorithm code of a key block's key by its algorithm letter and length. -/
def blockAlg (t : Bool) (n : Nat) : Option Nat :=
  if t then (if n = 16 then some 4 else if n = 24 then some 5 else none)
  else (if n = 16 then some 1 else if n = 24 then some 2 else if n = 32 then some 3 else none)

/-- The key of an imported block: algorithm, usage, exportability and material, or the status of R328's first failure. -/
def keyBlockImport (protAlg : Nat) (k : Bytes) (narrow : Nat) (b : Bytes) : Except Nat (Nat × Nat × Bool × Bytes) :=
  let ver := byteAt b 0
  let c := cipherOf protAlg
  let blk := c.block
  if ver ≠ blockVersion protAlg then .error stKeyUsage
  else
    let opts := match decNum (slice b 12 2) with
      | some n => optBlocks n (b.drop 16)
      | none => none
    match decNum (slice b 1 4), opts with
    | some total, some ol =>
      let body := b.drop (16 + ol)
      let ex := byteAt b 11
      let shape := total = b.length ∧ (slice b 9 2).all isDecChar ∧ slice b 14 2 = [0x30, 0x30] ∧ (16 + ol) % blk = 0
        ∧ (ex = 0x45 ∨ ex = 0x4E ∨ ex = 0x53) ∧ 4 * blk ≤ body.length ∧ body.length % (2 * blk) = 0
      match hexBytes body with
      | none => .error stBadDescriptor
      | some raw =>
        if !decide shape then .error stBadDescriptor
        else
          let ct := raw.take (raw.length - blk)
          let mac := raw.drop (raw.length - blk)
          let clear := cbcDec c (blockKey protAlg k 0) mac ct
          if slice (cmac c (blockKey protAlg k 1) (b.take (16 + ol) ++ clear)) 0 blk ≠ mac then .error stTagMismatch
          else
            let t := byteAt b 7 == 0x54
            let n := fieldBe clear 0 2
            let fits := n % 8 = 0 ∧ 2 + n / 8 ≤ clear.length ∧ (t = true ∨ byteAt b 7 = 0x41)
            match (if fits then blockAlg t (n / 8) else none) with
            | none => .error stKeyUsage
            | some alg =>
              if isAes alg ∧ (!isAes protAlg ∨ k.length < n / 8) then .error stKeyUsage
              else
                let us := blockUsages (byteAt b 5) (byteAt b 6) (byteAt b 8) (byteAt b 7)
                let u := if narrow = 0 then (match us with | [u] => some u | _ => none)
                  else us.find? (· == narrow)
                match u with
                | some u => if usageFits alg u then .ok (alg, u, ex == 0x45, slice clear 2 (n / 8)) else .error stKeyUsage
                | none => .error stKeyUsage
    | _, _ => .error stBadDescriptor

/-- An exported block; `rand` is its padding. -/
def keyBlockExport (protAlg : Nat) (k : Bytes) (a : KeyAttr) (mat : Bytes) (p : Nat) (rand : Bytes) : Bytes :=
  let c := cipherOf protAlg
  let (u0, u1, mode) := (blockCode a.usage a.alg (p.testBit 0)).getD (0, 0, 0)
  let total := keyBlockLen protAlg mat.length
  let hdr : Bytes := [byte (blockVersion protAlg)] ++ [1000, 100, 10, 1].map (fun d => byte (0x30 + total / d % 10))
    ++ [byte u0, byte u1, (if isAes a.alg then 0x41 else 0x54), byte mode, 0x30, 0x30, (if p.testBit 1 then 0x45 else 0x4E),
        0x30, 0x30, 0x30, 0x30]
  let n := roundUp (mat.length + 2) c.block
  let clear := toBe 2 (8 * mat.length) ++ mat ++ slice rand 0 (n - mat.length - 2)
  let mac := slice (cmac c (blockKey protAlg k 1) (hdr ++ clear)) 0 c.block
  hdr ++ hexText (cbcEnc c (blockKey protAlg k 0) mac clear) ++ hexText mac

/-- Refusals of an export beyond the key checks (R197, R329): `a` the key, `pr` the protection key. -/
def exportDenied (op : Nat) (d : Bytes) (a pr : KeyAttr) : Option Nat :=
  if (op = 0x0107 ∨ op = 0x0121) ∧ !flagExportable a.flags then some stNotExportable
  else if op = 0x0121 then
    if (blockCode a.usage a.alg ((dParam d).testBit 0)).isNone then some stKeyUsage
    else if isAes a.alg ∧ (!isAes pr.alg ∨ pr.bits < a.bits) then some stKeyUsage
    else if !(isAes pr.alg || isTdes pr.alg) then some stKeyUsage
    else none
  else if op = 0x0120 ∧ !(isAes a.alg || isTdes a.alg) then some stKeyUsage
  else none

/-! ### Checks that need no burner (R295, R296) -/

/-- The hob result code of the first check that fails, in the order of R296; 0 where none does. -/
def hobPrecheck (s : State) (h : Nat) (d : Bytes) : Nat :=
  let op := dOp d
  let p := dParam d
  let b := dOperands d
  let par := dParams d
  let dec := fun (l : List Nat) => l.all isDigit
  if op = 0x0501 ∨ op = 0x0502 ∨ op = 0x0503 then
    let off := op != 0x0501 && !pMethod p
    let n := byteAt b 0x36
    let o := nibs (slice b 0x30 6)
    if usesPan op p ∧ (panDigits (byteAt b 0x1C) (slice b 0x1D 10)).isNone then 0x0101
    else if pSrcKey p ≠ 0 ∧ !ksnValid (pSrcKey p == 2) (slice b 0x10 12) then 0x0102
    else if off ∧ s.rd (pgH .hob h) (Reg.DT_CTRL_VALID (byteAt b 0x27 % 4)) = 0 then 0x0103
    else if off ∧ op = 0x0502 ∧ (n < 4 ∨ 12 < n ∨ !dec (o.take n) ∨ !(o.drop n).all (· == 0xF)) then 0x0104
    else if op ≠ 0x0501 ∧ pMethod p ∧ (9 < byteAt b 0x37 ∨ (op = 0x0502 ∧ !dec (nibs (slice b 0x38 2)))) then 0x0105
    else 0
  else if op = 0x0510 ∨ op = 0x0511 then
    let sv := nibs (slice b 0xD 2)
    let vl := nibs (slice b 0xF 2)
    if (panDigits (byteAt b 0) (slice b 1 10)).isNone then 0x0101
    else if !dec (nibs (slice b 0xB 2)) ∨ !dec (sv.take 3) ∨ sv.getD 3 0 ≠ 0xF
        ∨ (op = 0x0511 ∧ (!dec (vl.take 3) ∨ vl.getD 3 0 ≠ 0xF)) then 0x0106
    else 0
  else if op = 0x0520 ∨ op = 0x0521 then
    if pmKey p ≠ 0 ∧ !ksnValid (pmKey p == 2) (slice par 0 12) then 0x0102 else 0
  else if op = 0x0530 then
    if (panDigits (byteAt par 0) (slice par 1 10)).isNone ∨ !dec (nibs [byte (byteAt par 0x0B)]) then 0x0101 else 0
  else 0

/-! ### Burner cycles (R334) -/

/-- The count of a key block at order 1 (R334). On import the length gives it: a cipher block of key data is two of text, and counts
twice one of the header. On export the header is 16 characters and the key data that of the key, every AES key as one of 256
bits (R285). DEDUCED (log 141). -/
def blockCycles334 (op len : Nat) (a0 a1 : KeyAttr) : Nat :=
  let imp := op == 0x0120
  let aes := if imp then isAes a0.alg else isAes a1.alg
  let blk := if aes then 16 else 8
  let base := if aes then 544 else 4608
  let unit := if aes then 68 else 1152
  let mat := if isAes a0.alg then 32 else (matLen a0.alg a0.bits).getD 0
  if !imp then base + unit * (16 / blk) + 2 * unit * (roundUp (2 + mat) blk / blk)
  else if len % blk = 0 ∧ 16 + 4 * blk ≤ len then base + unit * ((len - 2 * blk) / blk)
  else Config.engineCycles [op, b2n aes, len]

/-- Burner cycles by opcode, PARAM, key families and lengths (R285, R334); order 2 doubles them (R286). -/
def hobCycles (op p len : Nat) (a0 a1 : KeyAttr) (order2 : Bool) : Nat :=
  let aes := isAes a0.alg
  let src :=
    if pSrcKey p = 1 then 10960 else if pSrcKey p = 2 then 1288 else if pSrcFmt p = 4 then 200 else 1200
  let n :=
    if op = 0x0501 then src + (if pDstFmt p = 4 then 200 else 1200)
    else if op = 0x0502 ∨ op = 0x0503 then src + 1360
    else if op = 0x0510 ∨ op = 0x0511 then 1600
    else if op = 0x0530 then (if p.testBit 0 then 5760 else 5360)
    else if op = 0x0520 ∨ op = 0x0521 then
      let m2 := b2n (pmPad p)
      let aesK := pmKey p == 2 || (pmKey p == 0 && aes)
      let b := if pmAlg p = 2 then max 1 ((len + (if aesK then 15 else 7)) / (if aesK then 16 else 8)) else (len + m2 + 7) / 8
      (if pmAlg p = 0 then 512 + 1152 * b else if pmAlg p = 1 then 1280 + 384 * b else if aesK then 648 + 68 * b else 1664 + 1152 * b)
        + (if pmKey p = 1 then 9760 else if pmKey p = 2 then 1088 else 0)
    else blockCycles334 op len a0 a1
  if order2 then 2 * n else n

end Sys2Proof.Machine
end

