-- ==== Sys2Proof/Machine/Sched.lean ====
section
/-! DEFINITION. The stoker's dispatch (R22 to R29, R90 to R95, R185 to R187, R289, R331, R371 to R377, R389), the end of a job
on its engines, and the completion that the flue writes (R76 to R86, R411, R412). -/

namespace Sys2Proof.Machine

/-! ### Engines of a job -/

/-- Engines of a class that jobs of a VF hold (R94). -/
def vfUnits (s : State) (h v c : Nat) : Nat :=
  (((s.H h).jobs.filter (fun p => p.2.vf == v)).flatMap (fun p => p.2.units.filter (fun u => unitClass u == c))).length

/-- The lowest-numbered free engine of a class (R23: any engine; DESIGN CHOICE: the lowest). -/
def freeUnit (s : State) (h c : Nat) : Option Nat := (classUnits c).find? (fun u => unitFree s h u)

/-- Every engine of a class has failed its test (R264, R338). -/
def classOffline (s : State) (h c : Nat) : Bool := (classUnits c).all (fun u => (s.eng h u).offline)

/-- Every engine of a class is locked for direct use (R23). -/
def classDirect (s : State) (h c : Nat) : Bool := (classUnits c).all (fun u => decide (2 ≤ (s.eng h u).holder))

/-- The algorithm code a reference names now, 0 where it names none. -/
def refAlg (s : State) (h : Nat) (jb : Job) (i : Nat) : Nat := ((refView s h jb i).map (fun v => v.hold.attr.alg)).getD 0

/-- The classes a job needs in the order of R22. -/
def jobNeeds (s : State) (h : Nat) (jb : Job) : List Nat := opNeeds jb.desc (refAlg s h jb 0)

/-! ### Counts and expected times -/

/-- The big-number operation of an opcode. -/
def pkOpOf (op : Nat) : PkOp :=
  if op = 0x0401 then .priv else if op = 0x0402 then .verify else if op = 0x0403 then .pub else if op = 0x0404 then .agree
  else if op = 0x0405 then .encaps else if op = 0x0406 then .decaps else if op = 0x0407 then .priv else .generate

/-- Algorithm and length that set a big-number job's count: the key's, the supplied public key's, or the new key's. -/
def pkKind (d : Bytes) (a0 : KeyAttr) : Nat × Nat :=
  let op := dOp d
  if op = 0x0103 then (byteAt (dOperands d) 0, fieldLe (dOperands d) 4 2)
  else if op = 0x0402 ∧ rKind (dRef d 0) = kNone then ((parseAttrs (dParams d)).alg, (parseAttrs (dParams d)).bits)
  else if op = 0x0405 then
    let b := (kemSetOf (dInLen d)).getD 512
    (if b = 512 then 0x30 else if b = 768 then 0x31 else 0x32, b)
  else (a0.alg, a0.bits)

/-- The bytes of a signature job that set its count (R356): of EdDSA the message, of ML-DSA the context too. -/
def pkMsgLen (d : Bytes) (a0 : KeyAttr) : Nat :=
  let ctx := if pScheme (dParam d) = 3 then pCtx (dParam d) else 0
  if dOp d = 0x0401 then dInLen d - ctx
  else if dOp d = 0x0402 then
    let (alg, bits) := pkKind d a0
    dInLen d - signatureLen alg bits - (if rKind (dRef d 0) = kNone then publicKeyLen alg bits else 0)
      - ctx
  else 0

/-- The engine-cycle count of a job on one of its engines (R238, R334, R361), under keys of the attributes `a0` and `a1`. -/
def unitCycles (d : Bytes) (a0 a1 : KeyAttr) (attempts : Nat) (order2 : Bool) (u : Nat) : Nat :=
  let op := dOp d
  let n := if dPtr d then dInLen d else dInline d
  if isBn u then
    if op / 256 = 4 ∨ op = 0x0103 then
      let (alg, bits) := pkKind d a0
      pkCount (pkOpOf op) alg bits (pkMsgLen d a0) attempts order2
    else Config.engineCycles [op, dParam d, a0.alg, a0.bits, b2n order2, n]
  else if isBurner u then hobCycles op (dParam d) n a0 a1 order2
  else if op / 256 = 2 ∨ op / 256 = 3 then symCycles d a0.alg order2
  else Config.engineCycles [op, dParam d, a0.alg, a0.bits, b2n order2, n]

/-- The engine time the stoker expects, from opcode and lengths (R25). DESIGN CHOICE: cycles by the rates of R265 to R268, the
counts of R356 with one attempt, and R334. -/
def expected (s : State) (h : Nat) (jb : Job) : Nat :=
  let d := jb.desc
  let op := dOp d
  let n := if dPtr d then dInLen d else dInline d
  let alg := refAlg s h jb 0
  let ka := fun (i : Nat) => (((refView s h jb i).map (fun v => v.hold.attr)).getD {} : KeyAttr)
  if op / 256 = 2 then cipherCycles alg (pMode (dParam d)) (op == 0x0202) n false
  else if op = 0x0301 ∨ op = 0x0302 then hashCycles (dParam d) n false false
  else if op = 0x0303 ∨ op = 0x0304 then
    if pMac (dParam d) = 2 then hashCycles (pFunc (dParam d)) n true false else cipherCycles alg (9 + pMac (dParam d)) false n false
  else if op = 0x04F0 then 8192
  else if op / 256 = 4 ∨ (op = 0x0103 ∧ 3 ≤ keyClass (byteAt (dOperands d) 0)) then unitCycles d (ka 0) {} 1 false 12
  else if isHob op then hobCycles op (dParam d) n (ka 0) (ka 1) false
  else 12 + n

/-! ### Eligibility -/

/-- A fence descriptor waits for the earlier jobs of its queue pair (R81, R83). -/
def fenceHolds (s : State) (h j : Nat) (jb : Job) : Bool :=
  (s.qp (jobQueue jb)).fence == some j && (s.H h).jobs.any (fun p =>
    p.2.vf == jb.vf && p.2.qp == jb.qp && decide (p.2.seq < jb.seq))

/-- The job may be chosen now as far as its own state goes: READY or YIELDED, not a group control opcode, not a fence with
earlier jobs before it (R81, R83), not held by the hob's batch mode (R331). -/
def waitsForDispatch (s : State) (h j : Nat) (jb : Job) : Bool :=
  (jb.state == .ready || jb.state == .yielded) && dOp jb.desc / 256 != 7
    && !fenceHolds s h j jb
    && (!isHob (dOp jb.desc) || !hobHolds s h)

/-- A class whose share is 0 or whose engines all failed decides the job without an engine. -/
def classStops (s : State) (h : Nat) (jb : Job) (c : Nat) : Option Nat :=
  if shareOf s jb.vf c = 0 then some stOpcodeDenied else if classOffline s h c then some stOffline else none

/-- Engines for every class needed, in the order of R22, within the VF's shares; none where one is missing. -/
def takeable (s : State) (h : Nat) (jb : Job) : Option (List Nat) :=
  (jobNeeds s h jb).foldr (fun c r =>
    match r, freeUnit s h c with
    | some us, some u => if vfUnits s h jb.vf c < shareOf s jb.vf c then some (u :: us) else none
    | _, _ => none) (some [])

/-- The job can be decided now. DESIGN CHOICE (log 127): an aged job whose engines are not free holds no other job back. -/
def eligible (s : State) (h j : Nat) (jb : Job) : Bool :=
  waitsForDispatch s h j jb
    && ((jobNeeds s h jb).any (fun c => (classStops s h jb c).isSome) || (takeable s h jb).isSome)

/-- STK_AGE.AGE_LIMIT (R30). -/
def ageLimit (s : State) (h : Nat) : Nat := max 16 (s.rd (pgH .stoker h) Reg.STK_AGE_AGE_LIMIT)

/-- STK_CTRL.MODE (R25). -/
def stkMode (s : State) (h : Nat) : Nat := s.rd (pgH .stoker h) Reg.STK_CTRL_MODE

/-- The order of dispatch (R25, R26, R90): aged jobs first; then by the policy, ties in fetch order. DESIGN CHOICE (log 127): the
oldest of the aged jobs is the one fetched first. DESIGN CHOICE (log 128): jobs in the table of a hearth whose MODE is UNSET
again go in fetch order. -/
def jobRank (s : State) (h : Nat) (jb : Job) : Nat × Nat × Nat :=
  if ageLimit s h < jb.waitUs then (0, jb.seq, 0)
  else if stkMode s h = 2 then (1, (s.vf jb.vf).vtime, jb.seq)
  else if stkMode s h = 1 then (1, expected s h jb, jb.seq)
  else (1, jb.seq, 0)

def rankLt (a b : Nat × Nat × Nat) : Bool :=
  decide (a.1 < b.1) || (a.1 == b.1 && (decide (a.2.1 < b.2.1) || (a.2.1 == b.2.1 && decide (a.2.2 < b.2.2))))

/-- The first of a list in the order of dispatch. -/
def firstJob (s : State) (h : Nat) (l : Tab Job) : Option (Nat × Job) :=
  l.foldl (fun m p =>
    match m with
    | none => some p
    | some q => if rankLt (jobRank s h p.2) (jobRank s h q.2) then some p else some q) none

/-! ### Dispatch -/

/-- Key classes of a job: its keys', and the new or supplied key's. -/
def jobClasses (d : Bytes) (ks : List KeyHold) : List Nat :=
  (ks.filter (fun k => k.use != .none)).map (fun k => keyClass k.attr.alg)
    ++ (if dOp d = 0x0103 ∨ dOp d = 0x0405 ∨ dOp d = 0x0402 then [keyClass (pkKind d {}).1] else [])

/-- The masking order of a job on an engine (R236, R237, R286, R359). -/
def unitOrder2 (s : State) (h u : Nat) (cs : List Nat) : Bool :=
  let p := pgU h u
  if isCipher u then cs.any (fun c => decide (c < 2) && (s.rd p Reg.CE_ORDER_ORDER2).testBit c)
  else if isHash u then cs.contains 2 && s.flag p Reg.HE_ORDER_ORDER2
  else if isBn u then cs.any (fun c => decide (3 ≤ c) && (s.rd p Reg.BN_ORDER_ORDER2).testBit (c - 3))
  else cs.any (fun c => decide (c < 2) && (s.rd p Reg.HOB_ORDER_ORDER2).testBit c)

/-- The private operations on RSA keys and on curves, whose blinding and projective randomisation values the stoker draws
with the rest (R389). -/
def blinded (op alg : Nat) : Bool :=
  (op == 0x0401 && (alg == 0x10 || isWeier alg || isEd alg)) || (op == 0x0403 && (isWeier alg || isEd alg || alg == 0x2A))
    || op == 0x0404 || op == 0x0407

/-- Bytes of a job's own random values: nonce, seed, k, rnd, salt, message, fill (R187, R196, R289, R389). KEY_DERIVE draws as well
(R196), though R770 uses no random value: as many bytes as its key has (log 139). -/
def ownDraw (d : Bytes) (ks : List KeyHold) : Nat :=
  let op := dOp d
  let p := dParam d
  let a0 := (ks.getD 0 {}).attr
  if op = 0x0103 then generateDraw (byteAt (dOperands d) 0) (fieldLe (dOperands d) 4 2)
  else if dNonceSrc d = 2 then 12
  else if op = 0x0401 then
    if pScheme p = 0 then (pkHash (pHash p)).2 else if isWeier a0.alg then (curveOf a0.alg).len else if isDsa a0.alg then 32 else 0
  else if op = 0x0106 then (matLen (parseAttrs (dParams d)).alg (parseAttrs (dParams d)).bits).getD 0
  else if op = 0x0405 then 32
  else if op = 0x0110 then 48
  else if op = 0x0111 then 80
  else if op = 0x0501 then fillDraw (pDstFmt p)
  else if op = 0x0121 then
    let m := (matLen a0.alg a0.bits).getD 0
    roundUp (m + 2) (if isAes (ks.getD 1 {}).attr.alg then 16 else 8) - m - 2
  else 0

/-- Bytes drawn from the DRBG before dispatch: the job's own values, then the blinding values, whose sizes the spec leaves open
and which no result shows. -/
def drawBytes (d : Bytes) (ks : List KeyHold) : Nat :=
  let a0 := (ks.getD 0 {}).attr
  ownDraw d ks + (if blinded (dOp d) a0.alg then 1 + Config.blindingBytes a0.alg a0.bits else 0)

/-- The keys of a job by reference number. -/
def holdsOf (d : Bytes) (vs : List KeyView) : List KeyHold :=
  let named := [0, 1].filter (fun i => rKind (dRef d i) != kNone)
  [0, 1].map (fun i =>
    match (named.zip vs).find? (fun p => p.1 == i) with
    | some p => p.2.hold
    | none => {})

/-- USES of a cached key used by a job (R186), and the usage action of its group. -/
def countUse (h : Nat) (jb : Job) (j : Nat) (k : KeyHold) (s : State) : State :=
  match k.use with
  | .cache i =>
    let s := s.modH h (fun x => { x with cache := x.cache.upd i (fun e => { e with uses := satAdd 32 e.uses 1 }) })
    if jb.joined ∧ k.attr.limit ≠ 0 then
      s.modGroup h jb.group (fun g => g.modAction (.job j) (fun a => { a with uses := a.uses ++ [i] }))
    else s
  | _ => s

/-- References whose use counts (R186): every one but the key that KEY_WRAP wraps, whose remaining allowance goes into the blob
(R188; log 53). -/
def counts (op i : Nat) : Bool := !(i == 0 && op == 0x0102)

/-- The hardware nonce of a job (R187, R248). -/
def drawNonce (h : Nat) (d : Bytes) (k : KeyHold) (units : List Nat) (rand : Bytes) (s : State) : Bytes × State :=
  if dNonceSrc d = 1 then
    match k.use with
    | .cache i =>
      let ctr := (((s.H h).cache.find? i).map (·.nonceCtr)).getD 0
      (counterNonce h 1 (units.getD 0 0) ctr,
        s.modH h (fun x => { x with cache := x.cache.upd i (fun e => { e with nonceCtr := ctr + 1 }) }))
    | _ => ([], s)
  else if dNonceSrc d = 2 then (rand.take 12, s)
  else ([], s)

/-- A job that never reaches an engine: its status, and a hob result code. -/
def stopJob (h j status code : Nat) (s : State) : State :=
  let s := if status = stVerifyFailed then s.modJob h j (fun x => { x with result := toLe 2 code, hasResult := true }) else s
  failJob h j status s

/-- The version a wrap emits is 2 (R194). -/
def wrapsV2 (s : State) (h : Nat) (jb : Job) : Bool :=
  jb.compat && dOp jb.desc == 0x0102
    && (match (s.H h).cache.find? (rIndex (dRef jb.desc 0)) with
      | some e => v2Expressible e
      | none => false)

/-- A class that stops the job, in the order of R22. -/
def firstStop (s : State) (h : Nat) (jb : Job) : Option Nat :=
  ((jobNeeds s h jb).filterMap (classStops s h jb)).head?

/-- The checks of a chosen job before it takes engines (R89 steps 3 and 4, R185, R295): its keys, or status and hob code. The
policy's decision was made when it was fetched (R179). -/
def dispatchChecks (s : State) (h : Nat) (jb : Job) : Except (Nat × Nat) (List KeyHold) :=
  let d := jb.desc
  match opDef? (dOp d) with
  | none => .error (stUnsupported, 0)
  | some e =>
    match keyChecks s h jb e with
      | .error st => .error (st, 0)
      | .ok vs =>
        let ks := holdsOf d vs
        let a0 := (ks.getD 0 {}).attr
        let a1 := (ks.getD 1 {}).attr
        match exportDenied (dOp d) d a0 a1 with
        | some st => .error (st, 0)
        | none =>
          match lateCheck jb.compat d a0 a1 (wrapsV2 s h jb) with
          | some st => .error (st, 0)
          | none =>
            let c := hobPrecheck s h d
            if c ≠ 0 then .error (stVerifyFailed, c)
            else match firstStop s h jb with
              | some st => .error (st, 0)
              | none => .ok ks

/-- A job of the units' classes is dispatched: CLASS_BLOCKED stays while another class is blocked (R23, R30). -/
def unblock (h : Nat) (us : List Nat) (s : State) : State :=
  let left := (s.H h).blocked.filter (fun c => !(us.any (fun u => unitClass u == c)))
  (s.wr (pgH .stoker h) Reg.STK_STATUS_CLASS_BLOCKED (b2n (!left.isEmpty))).modH h (fun x => { x with blocked := left })

/-- Engines taken for a job (R22). -/
def takeUnits (h j v : Nat) (o2 : State → Nat → Bool) (us : List Nat) (s : State) : State :=
  us.foldl (fun s u =>
    let o := o2 s u
    (takeLock h u 1 (s.ft v Reg.FT_OWNER_ID) s).modEng h u (fun e =>
      { e with job := some j, order2 := o, keysLoaded := true, gated := false })) (unblock h us s)

/-- A key derived from a fixed slot leaves the derivation unit in two shares (R138, R171). -/
def shareSlot (k : KeyHold) (s : State) : KeyHold × State :=
  match k.parts with
  | [v] =>
    let (b, s) := s.free v.length
    ({ k with parts := [xorBytes v b, b] }, s)
  | _ => (k, s)

def shareSlots : List KeyHold → State → List KeyHold × State
  | [], s => ([], s)
  | k :: r, s =>
    let (k, s) := shareSlot k s
    let (r, s) := shareSlots r s
    (k :: r, s)

/-- The virtual time of a dispatched job (R90), in units of cycles times 2^20 over the weight. -/
def chargeTime (h : Nat) (jb : Job) (s : State) : State :=
  let w := max 1 (s.ft jb.vf Reg.FT_DRAUGHT_WEIGHT)
  let t := expected s h jb * 2 ^ 20 / w
  s.modVf jb.vf (fun x => { x with vtime := x.vtime + t })

/-- Derivations that an opcode itself asks for beside those of fixed-slot keys: KEY_DERIVE's (domain 0x03), the three keys of a
transport certificate and the two that open a transport package (R140, R199, R200, R770; log 147). -/
def opDerivations (op : Nat) : Nat := if op = 0x0106 then 1 else if op = 0x0110 then 3 else if op = 0x0112 then 2 else 0

/-- A READY job whose checks passed takes its engines and runs: its keys reach them in shares (R171, R233). -/
def startJob (h j : Nat) (jb : Job) (us : List Nat) (ks : List KeyHold) (rand : Bytes) (s : State) : State :=
  let d := jb.desc
  let cs := jobClasses d ks
  let s := chargeTime h jb s
  let o2 := us.any (fun u => unitOrder2 s h u cs)
  let s := takeUnits h j jb.vf (fun s u => unitOrder2 s h u cs) us s
  let (ks, s) := shareSlots ks s
  let s := ((ks.zipIdx).filter (fun p => counts (dOp d) p.2)).foldl (fun s p => countUse h jb j p.1 s) s
  let used := ks.filter (fun k => k.use != .none)
  let s := addCtr h 151 used.length s
  let s := derived h (opDerivations (dOp d) + (used.filter (fun k => match k.use with | .fixed _ => true | _ => false)).length) s
  let (nonce, s) := drawNonce h d (ks.getD 0 {}) us rand s
  s.modJob h j (fun x =>
    { x with
      state := .running, ran := false, units := us, keys := ks, nonce := nonce, hasNonce := !nonce.isEmpty, rand := rand,
      order2 := o2, latch := if isHob (dOp d) then hobLatch s h d else [] })

/-- A YIELDED job takes engines again, at the masking order latched when it started (R237); its image is restored first (R374). -/
def resumeJob (h j : Nat) (jb : Job) (us : List Nat) (s : State) : State :=
  let s := takeUnits h j jb.vf (fun _ u => jb.order2 && isBn u) us s
  let s := us.foldl (fun s u => if isBn u then s.modEng h u (fun e => { e with restoring := true }) else s) s
  s.modJob h j (fun x => { x with state := .running, units := us })

/-- One chosen job. -/
def dispatchOne (h j : Nat) (jb : Job) (s : State) : State :=
  if jb.state = .yielded then
    match firstStop s h jb, takeable s h jb with
    | some st, _ => stopJob h j st 0 s
    | none, some us => resumeJob h j jb us s
    | none, none => s
  else
    match dispatchChecks s h jb with
    | .error e => stopJob h j e.1 e.2 s
    | .ok ks =>
      match takeable s h jb with
      | none => s
      | some us =>
        let n := drawBytes jb.desc ks
        if n = 0 then startJob h j jb us ks [] s
        else match drbgLower h n false s with
          | some (r, s) => startJob h j jb us ks r s
          | none => s

/-! ### Preemption (R25, R371, R372) -/

/-- Engine cycles of a big-number job, and whether a yield point lies ahead of it. -/
def bnCount (jb : Job) : Nat := unitCycles jb.desc (jb.keys.getD 0 {}).attr (jb.keys.getD 1 {}).attr (max 1 jb.attempts) jb.order2 12
def canYield (jb : Job) : Bool := decide (jb.passed < yieldPoints (bnCount jb))

/-- The running job of a unit gives way to a waiting job under the policy (R25): under LATENCY_FIRST a longer one, under
FAIR_SHARE one of a VF that has used more of its draught. DESIGN CHOICE (log 129): a waiting job is shorter when its expected time
is below the cycles that the running job has left. An engine whose test is pending finishes its job (R271). -/
def givesWay (s : State) (h u : Nat) (w : Job) : Bool :=
  let e := s.eng h u
  match e.job with
  | none => false
  | some j =>
    match s.job? h j with
    | none => false
    | some jb =>
      jb.state == .running && dOp jb.desc != 0x04F0 && s.blockRun h u && !e.saving && !e.restoring && !e.katPending && canYield jb
        && (if stkMode s h = 2 then jb.vf != w.vf && decide ((s.vf w.vf).vtime < (s.vf jb.vf).vtime)
            else stkMode s h == 1 && decide (expected s h w < bnCount jb - 16384 * jb.passed))

/-- The engine a waiting job is to have: one already asked to yield, or else one to ask. `taken` are those of the jobs before it. -/
def yieldTarget (s : State) (h : Nat) (taken : List Nat) (w : Job) : Option Nat :=
  let us := (classUnits 2).filter (fun u => !taken.contains u && givesWay s h u w)
  (us.find? (fun u => (s.eng h u).yieldReq)).or us.head?

/-- A yield request with its save slot, while one is free (R371, R372). -/
def askYield (h u : Nat) (s : State) : State :=
  if (s.eng h u).yieldReq then s
  else match (List.range 4).find? (fun i => (((s.H h).saves.getD i {}).job).isNone) with
    | some i =>
      (s.modEng h u (fun e => { e with yieldReq := true })).modH h (fun x =>
        { x with saves := x.saves.put i { job := (x.eng u).job } })
    | none => s

/-- The waiting jobs that need a big-number engine and find none, in the order of dispatch. -/
def bnWaiters (s : State) (h : Nat) : List Job :=
  let wait := (s.H h).jobs.filter (fun p =>
    waitsForDispatch s h p.1 p.2 && (jobNeeds s h p.2).contains 2 && (freeUnit s h 2).isNone
      && decide (vfUnits s h p.2.vf 2 < shareOf s p.2.vf 2))
  (wait.mergeSort (fun p q => !rankLt (jobRank s h q.2) (jobRank s h p.2))).map (·.2)

/-- Yield requests for the waiting jobs, one engine each (R25, R371, R372). DESIGN CHOICE (log 129): no more running jobs are
preempted than jobs wait. -/
def requestYield (h : Nat) (s : State) : State :=
  if (s.H h).preemptOff then s
  else
    ((bnWaiters s h).foldl (fun (a : State × List Nat) w =>
      match yieldTarget a.1 h a.2 w with
      | some u => (askYield h u a.1, u :: a.2)
      | none => a) (s, [])).1

/-- A dispatch decision `us` µs after the last one. MODE UNSET stops fetching only (R25): jobs already in the table go on. -/
def doDispatch (h us : Nat) (s : State) : State :=
  if !s.works h then s
  else
    let s := s.modH h (fun x =>
      { x with jobs := x.jobs.mapVals (fun _ j =>
          if j.state = .ready ∨ j.state = .yielded then
            { j with waitUs := j.waitUs + us, heldUs := if hobHolds s h then j.heldUs + us else 0 }
          else j) })
    let s := match firstJob s h ((s.H h).jobs.filter (fun p => eligible s h p.1 p.2)) with
      | some (j, jb) => dispatchOne h j jb s
      | none => s
    requestYield h (closeBatch h s)

def execJobDispatch (h : Fin 16) (elapsedUs : Nat) (s : State) : Result := .next (doDispatch h.val elapsedUs s)

/-! ### The end of a job on its engines -/

/-- The save slots of a job freed. -/
def freeSaves (h j : Nat) (s : State) : State :=
  s.modH h (fun x => { x with saves := x.saves.mapVals (fun _ l => if l.job = some j then {} else l) })

/-- Engine locks of a job released; a burner rebuilds its tables first (R281, R282). -/
def releaseUnits (h : Nat) (us : List Nat) (s : State) : State :=
  us.foldl (fun s u =>
    let s := s.modEng h u (fun e => { e with yieldReq := false, saving := false, restoring := false, paused := false,
                                             turnover := isBurner u })
    releaseLock h u s) s

/-- Engine cycles counted when a job ends (R624: indexes 64 to 147), and what a big-number engine reports of it (R387). -/
def countCycles (h : Nat) (jb : Job) (s : State) : State :=
  jb.units.foldl (fun s u =>
    let n := unitCycles jb.desc (jb.keys.getD 0 {}).attr (jb.keys.getD 1 {}).attr (max 1 jb.attempts) (s.eng h u).order2 u
      + zeroCycles jb.desc jb.status jb.wipe
    let p := pgU h u
    let s := if isBn u then
        ((s.wr p Reg.BN_CYCLES_COUNT (min n (2 ^ 32 - 1))).wr p Reg.BN_ATTEMPTS_COUNT (min jb.attempts 0xFFFF)).wr p
          Reg.BN_YIELD_PASSED (min jb.passed 0xFFFF)
      else s
    let turn := if isBurner u then 19840 * (1 + b2n (s.eng h u).order2) else 0
    addCtr h (128 + u) (n + turn) (addCtr h (64 + s.posOf jb.vf) n s)) s

/-- The engines of a job have given their output, unmasked on its way out, and their registers hold nothing of it (R234, R258). -/
def Job.leave (x : Job) : Job :=
  { x with
    outData := if x.outShares.isEmpty then x.outData else unshare x.outShares
    result := if x.resShares.isEmpty then x.result else unshare x.resShares
    inShares := [], outShares := [], resShares := [], keys := [] }

/-- The blob of KEY_GENERATE reaches hearth DDR when its job ends: at once outside a group; in a group at commit (R395), after a
check of the page now. -/
def blobToDdr (h : Nat) (jb : Job) (s : State) : State × Nat :=
  match jb.ddrOut with
  | none => (s, stOK)
  | some (off, b) =>
    match stokerDma h jb.vf off b.length (some b) s with
    | (s', .ok _) => (if jb.joined then s else s', stOK)
    | (s', .error st) => (s', st)

/-- The key a job made goes into the cache; in a group it waits as PENDING (R175, R392). -/
def insertNew (h j : Nat) (jb : Job) (s : State) : State × Nat :=
  match jb.newKey with
  | none => (s, stOK)
  | some (e, mat) =>
    let e := { e with state := if jb.joined then EntryState.pending else e.state }
    match insertKey h e mat s with
    | none => (s, stCacheFull)
    | some (i, s) =>
      let s := s.modJob h j (fun x =>
        { x with newKey := none, result := toLe 2 i ++ zeros 6 ++ padTo 8 e.fp, hasResult := true })
      (if jb.joined then s.modGroup h jb.group (fun g => g.modAction (.job j) (fun a => { a with insert := some i })) else s, stOK)

/-- The outcome of a job whose function gave no error: its blob, then its key. A job that its VF's reset has caught leaves neither
(R102). -/
def settleOk (h j : Nat) (jb : Job) (s : State) : State × Nat :=
  if s.damper jb.vf = dampResetting then (s, stOK)
  else if (insertNew h j jb s).2 ≠ stOK then (s, (insertNew h j jb s).2)
  else match blobToDdr h jb s with
    | (s, st) =>
      if st ≠ stOK then (s, st)
      else insertNew h j jb (if jb.joined then s else s.modJob h j (fun x => { x with ddrOut := none }))

/-- The job's own outcome after its function has run: the blob, the insert, then COMPLETING or HELD. A failure withholds every result
but a hob result code. -/
def settleJob (h j : Nat) (s : State) : State :=
  let s := s.modJob h j Job.leave
  match s.job? h j with
  | none => s
  | some jb =>
    let (s, ins) := if jb.status = stOK then settleOk h j jb s else (s, jb.status)
    let s := if ins = stOK then s
      else s.modJob h j (fun x =>
        { x with outData := [], ddrOut := none, newKey := none, hasNonce := false,
                 hasResult := ins == stVerifyFailed && x.hasResult, result := if ins = stVerifyFailed then x.result else [] })
    finishJob h j ins s

/-- HOB_PINFAIL after a PIN failure (R305). -/
def countPinFail (h : Nat) (jb : Job) (s : State) : State :=
  if jb.status = stVerifyFailed ∧ (fieldLe jb.result 0 2 = 0x0201 ∨ fieldLe jb.result 0 2 = 0x0202) then
    let p := pgH .hob h
    let s := errReg h p Reg.HOB_PINFAIL_COUNT 196 s
    let thr := s.rd p Reg.HOB_PINFAIL_THR_THRESHOLD
    if thr ≠ 0 ∧ thr ≤ s.rd p Reg.HOB_PINFAIL_COUNT ∧ (s.H h).pinArmed then
      raiseH h evPinFails p { payload := captureBytes p s } (s.modH h (fun x => { x with pinArmed := false }))
    else s
  else s

/-! ### The span of a queued big-number job (R343 to R345, R374) -/

/-- The regions of a queued job's span. The transport opcodes take those of the ML-KEM-1024 and P-384 steps they are made of. -/
def jobRegions (jb : Job) : Nat :=
  let op := dOp jb.desc
  let (alg, bits) := pkKind jb.desc (jb.keys.getD 0 {}).attr
  if op = 0x0110 then pkRegions 0x21 384 else if op = 0x0111 ∨ op = 0x0112 then pkRegions 0x32 1024 else pkRegions alg bits

/-- The input bytes that stand at the head of the span. -/
def spanInput (jb : Job) : Bytes := if dOp jb.desc / 256 = 4 then unshare jb.inShares else []

/-- The bytes of a job's result (R347): its output, or the shared secret or key that it forms. -/
def resultLen (jb : Job) : Nat :=
  let op := dOp jb.desc
  let (alg, bits) := pkKind jb.desc (jb.keys.getD 0 {}).attr
  if op = 0x0401 then signatureLen alg bits
  else if op = 0x0402 then 0
  else if op = 0x0403 then publicKeyLen alg bits
  else if op = 0x0404 then (if alg = 0x2A then 32 else publicKeyLen alg bits / 2)
  else if op = 0x0405 then kemCtLen (kemParams bits)
  else if op = 0x0406 then 32
  else if op = 0x0407 then bits / 8
  else (matLen alg bits).getD 0

/-- The bytes of a result that is a public output (R345). -/
def publicLen (jb : Job) : Nat := if dOp jb.desc ∈ [0x0401, 0x0403, 0x0405] then resultLen jb else 0

/-- A job's big-number engine as it computes, or as a save image is restored to it: the input in the first lines of the span, working
values in the rest. -/
def fillSpan (h j : Nat) (s : State) : State :=
  match s.job? h j with
  | none => s
  | some jb =>
    match jb.units.find? isBn with
    | none => s
    | some u =>
      let inp := spanInput jb
      let used := (inp.length + 63) / 64
      let r := jobRegions jb
      let keep := (s.eng h u).left.filter (fun p => r ≤ p.1)
      let s := s.modEng h u (fun e => { e with left := (List.range r).map (fun i => (i, jb.vf)) ++ keep })
      workLines h (u - 12) used used (used + (publicLen jb + 63) / 64) (maskUnit jb).isSome (!jb.keys.isEmpty) (128 * r - used) (putLines h (u - 12) 0 inp s)

/-- The result lines of a job that ends, from the first line after its input: a public output; zeros after a failed invariant (R365) or an
edge input (R366). -/
def fillResult (h u : Nat) (jb : Job) (status : Nat) (s : State) : State :=
  if !isBn u then s
  else
    let zero := decide (status = stInvariant) || decide (0x4100 ≤ status ∧ status < 0x4200)
    let out := if status = stOK then (if dOp jb.desc / 256 = 4 then jb.leave.outData else [])
      else if zero then zeros (resultLen jb) else []
    putLines h (u - 12) (((spanInput jb).length + 63) / 64) out s

/-- The end of a job on its engines: a big-number engine found its invariant broken, or the job goes to its outcome. -/
def endQueued (h u j : Nat) (holdsInv : Bool) (s : State) : State :=
  match s.job? h j with
  | none => s
  | some jb =>
    if jb.state ≠ .running ∨ !jb.ran ∨ jb.units.any (fun u => (s.eng h u).saving || (s.eng h u).restoring || (s.eng h u).paused) then s
    else
      let bad := isBn u && !holdsInv
      let cut := isolating s && jb.newKey.isSome
      let s := if cut then s.modJob h j (fun x => { x with status := stQuenched, newKey := none }) else s
      let s := fillResult h u jb (if bad then stInvariant else jb.status) (countCycles h jb s)
      let s := releaseUnits h jb.units (s.modJob h j Job.leave)
      let s := freeSaves h j s
      let s := if bad then
          let s := s.modJob h j (fun x => { x with status := stInvariant, newKey := none })
          let s := raiseH h evBnInvariant (pgU h u) { inst := unitNo u, payload := captureBytes (pgU h u) s } s
          requestKat h u false s
        else s
      settleJob h j (countPinFail h jb.leave s)

/-! ### Completions -/

/-- CFLAGS.GROUP: the action of a resolved group (R411). -/
def ofGroup (jb : Job) : Bool := jb.joined && jb.group != 0 || jb.lostGroup

/-- Earlier actions of the job's group whose completions are not yet written (R411, R412). -/
def behindGroup (s : State) (h j : Nat) (jb : Job) : Bool :=
  if !jb.joined then false
  else match s.group? h jb.group with
    | none => false
    | some g => (g.actions.takeWhile (fun a => a.ref != .job j)).any (actionLeft s h jb.group)

/-- Group control completions wait for the group's actions (R411, R412). -/
def controlWaits (s : State) (h : Nat) (jb : Job) (j : Nat) : Bool :=
  (s.H h).groups.any (fun p =>
    (p.2.commit == some (.job j) || p.2.abort == some (.job j)) && p.2.resolving && dGroup jb.desc == p.1
      && (!p.2.released || p.2.actions.any (actionLeft s h p.1)))

/-- A group leaves the table when its last completion has been written (R407). -/
def dropGroups (h : Nat) (s : State) : State :=
  let gone := (s.H h).groups.filter (fun p =>
    p.2.resolving && p.2.released && !(p.2.actions.any (actionLeft s h p.1))
      && !controlLeft s h p.1 p.2.commit && !controlLeft s h p.1 p.2.abort)
  let s := s.modH h (fun x => { x with groups := x.groups.filter (fun p => !(gone.any (fun g => g.1 == p.1))) })
  gone.foldl (fun s p => match p.2.gang with | some r => gangMemberDone r h s | none => s) s

/-- A completion leaves for host memory: output data, entry, message (R84); the job's entry is freed (R17). -/
def writeCompletion (h j : Nat) (s : State) : State :=
  match s.job? h j with
  | none => s
  | some jb =>
    let t := jobQueue jb
    let ok := jb.status = stOK
    let out := if ok then jb.outData else []
    let s := { s with out := s.out ++ scatter (.vf jb.vf) (s.relaxed (.vf jb.vf)) jb.sglOut (if ok then out else zeros jb.wipe) }
    let s := postCompletion t
      { tag := dTag jb.desc, status := jb.status, len := out.length, nonce := ok ∧ jb.hasNonce, hasRes := jb.hasResult,
        group := ofGroup jb, result := if ok ∧ jb.hasNonce then jb.nonce else if jb.hasResult then jb.result else [],
        compat := jb.compat } (dQuiet jb.desc) s
    let s := addFlue h 1 (if s.up h then addCtr h (s.posOf jb.vf) 1 s else s)
    let c := jb.status / 0x1000
    let s := if 1 ≤ c ∧ c ≤ 8 ∧ s.up h then errCtr h (196 + c) s else s
    let s := dropGroups h (removeJob h j s)
    checkDrain jb.vf s

/-- COMPLETION_WRITTEN: the flue writes the entry of a COMPLETING job whose turn has come. -/
def doCompletion (h j : Nat) (s : State) : State :=
  match s.job? h j with
  | none => s
  | some jb =>
    if !s.hostUp ∨ jb.state ≠ .completing ∨ s.damper jb.vf = dampResetting ∨ behindGroup s h j jb ∨ controlWaits s h jb j then s
    else writeCompletion h j s

def execCompletionWritten (h : Fin 16) (j : Fin 2048) (s : State) : Result := .next (doCompletion h.val j.val s)

/-! ### Waiting and blocking -/

/-- A class has been locked for direct use for 100 µs while a job of it waits in READY (R23). -/
def doClassBlocked (h c : Nat) (s : State) : State :=
  let waits := (s.H h).jobs.any (fun p => p.2.state == .ready && (jobNeeds s h p.2).contains c)
  if !s.works h ∨ !classDirect s h c ∨ !waits then s
  else
    let p := pgH .stoker h
    let s := s.wr p Reg.STK_STATUS_CLASS_BLOCKED 1
    if (s.H h).blocked.contains c then s
    else raiseH h evClassBlocked p { inst := c, payload := captureBytes p s } (s.modH h (fun x => { x with blocked := x.blocked ++ [c] }))

def execStkClassBlocked (h : Fin 16) (c : Fin 4) (s : State) : Result := .next (doClassBlocked h.val c.val s)

/-- The state of a stopped direct-use job is delivered as a failure (R243, R263); the CODE register and DONE follow when the
job ends. -/
def directStatus (h u st : Nat) (s : State) : State :=
  s.modEng h u (fun e => { e with pendCode := st, paused := false, waitDraw := false })

/-- The output that a job paused on its engine may have written, which is overwritten with zero (R226, R243). -/
def pausedOut (jb : Job) : Nat := if jb.ran && dPtr jb.desc then (unshare jb.outShares).length else 0

/-- A job that has waited 1 ms for randomness completes with ENTROPY_UNAVAILABLE (R196, R243, R288, R289, R389): in READY while
the DRBG cannot serve it, or on an engine whose generator is stopped. -/
def doEntropyTimeout (h : Nat) (w : Waiter) (s : State) : State :=
  match w with
  | .job j =>
    match s.job? h j.val with
    | none => s
    | some jb =>
      let draws := match opDef? (dOp jb.desc) with
        | some e => match keyChecks s h jb e with
          | .ok vs => decide (0 < drawBytes jb.desc (holdsOf jb.desc vs))
          | .error _ => false
        | none => false
      let random := dOp jb.desc == 0x0601 && jb.state == .running && !jb.ran
      let served := (drbgRequest h 1 (random && (dParam jb.desc).testBit 8 && jb.rand.isEmpty) s).isSome
      if s.works h ∧ !served ∧ (jb.state = .ready ∧ draws = true ∨ random = true) then failJob h j.val stEntropy s else s
  | .unit u =>
    let e := s.eng h u.val
    if e.waitDraw ∧ !drbgServes h s then directStatus h u.val stEntropy s
    else if !s.works h ∨ mgReady e then s
    else match e.job with
      | some j =>
        match s.job? h j with
        | some jb =>
          if jb.state = .running ∧ (maskUnit jb).isSome then
            let s := releaseUnits h jb.units (countCycles h jb s)
            let s := s.modJob h j (fun x => { x with status := stEntropy, newKey := none, ran := true, wipe := pausedOut x })
            settleJob h j (freeSaves h j s)
          else s
        | none => s
      | none => if e.busy && e.paused then directStatus h u.val stEntropy s else s

def execEntropyWaitTimeout (h : Fin 16) (w : Waiter) (s : State) : Result := .next (doEntropyTimeout h.val w s)

/-! ### Saves and restores (R372 to R377) -/

/-- The engine reaches its yield point and its image is written, or the write is refused. -/
def doYield (h n : Nat) (written : Bool) (s : State) : State :=
  let u := 12 + n
  let e := s.eng h u
  match e.job with
  | none => s
  | some j =>
    match s.job? h j with
    | none => s
    | some jb =>
      if !s.works h ∨ !e.yieldReq ∨ jb.state ≠ .running ∨ !canYield jb ∨ e.paused ∨ e.scrubbing then s
      else
        let s := s.modJob h j (fun x => { x with passed := x.passed + 1 })
        let s := s.wr (pgU h u) Reg.BN_YIELD_PASSED (min (jb.passed + 1) 0xFFFF)
        if written then
          let slot := ((List.range 4).find? (fun i => ((s.H h).saves.getD i {}).job == some j))
          let s := s.wr (pgU h u) Reg.BN_YIELD_SLOT (slot.getD 0)
          let s := releaseUnits h jb.units s
          let s := s.modJob h j (fun x => { x with state := .yielded, units := [], waitUs := 0 })
          addCtr h 156 1 s
        else
          let s := freeSaves h j (s.modEng h u (fun e => { e with yieldReq := false, saving := false }))
          let s := s.modH h (fun x => { x with preemptOff := true })
          raiseH h evBnSaveFail (pgU h u) { inst := n, payload := captureBytes (pgU h u) s } s

def execYieldPointSaveDone (h : Fin 16) (n : Fin 4) (written : Bool) (s : State) : Result :=
  .next (doYield h.val n.val written s)

/-- The restore of a resumed job ends (R374, R377). -/
def doRestore (h n : Nat) (rd : RestoreRead) (s : State) : State :=
  let u := 12 + n
  let e := s.eng h u
  match e.job with
  | none => s
  | some j =>
    match s.job? h j with
    | none => s
    | some jb =>
      if !s.works h ∨ !e.restoring ∨ e.scrubbing then s
      else
        let s := freeSaves h j (s.modEng h u (fun e => { e with restoring := false }))
        match rd with
        | .ok => if jb.ran then fillSpan h j s else s
        | _ =>
          let s := releaseUnits h jb.units (countCycles h jb s)
          settleJob h j (s.modJob h j (fun x => { x with status := stPoison, newKey := none, ran := true }))

def execJobResumeRestoreDone (h : Fin 16) (n : Fin 4) (rd : RestoreRead) (s : State) : Result :=
  .next (doRestore h.val n.val rd s)

/-! ### The hob's batches and turnovers -/

/-- Every held job is released, and the burners wake (R331, R332). -/
def releaseHob (h : Nat) (s : State) : State :=
  gateBurners h (if (hobReady s h).isEmpty then s else s.modH h (fun x => { x with batchOpen := true }))

/-- Either condition of R331 holds: every held job is released. -/
def doBatchRelease (h : Nat) (s : State) : State :=
  let p := pgH .hob h
  let held := hobReady s h
  let n := clamp 1 16 (s.rd p Reg.HOB_BATCH_COUNT)
  let w := clamp 1 1000 (s.rd p Reg.HOB_BATCH_WAIT)
  let due := decide (n ≤ held.length) || held.any (fun j => decide (w ≤ ((s.job? h j).map (·.heldUs)).getD 0))
  if s.works h ∧ hobHolds s h ∧ due then releaseHob h s else s

def execHobBatchRelease (h : Fin 16) (s : State) : Result := .next (doBatchRelease h.val s)

/-- A burner's turnover ends (R281 to R283, R288, R332); it waits for masks. -/
def doTurnover (h b : Nat) (s : State) : State :=
  let u := 16 + b
  let e := s.eng h u
  if !s.up h ∨ !e.turnover ∨ !mgReady e then s
  else
    gateBurners h (s.modEng h u (fun e => { e with turnover := false }))

def execTurnoverEnd (h : Fin 16) (b : Fin 4) (s : State) : Result := .next (doTurnover h.val b.val s)

/-! ### Mode registers of the stoker and the hob -/

/-- STK_CTRL (R25, R27, R28): the reserved MODE leaves MODE unchanged. -/
def doStkMode (h : Nat) (who : Requester) (data : Nat) (s : State) : State :=
  let p := pgH .stoker h
  if !mgrOrInner who then refuse p who 0x040 data cRequester s
  else if data % 4 = 3 then refuse p who 0x040 data cValue s
  else setFields p [(Reg.STK_CTRL_MODE, data % 4)] s

def execStkModeWrite (h : Fin 16) (who : Requester) (data : Word) (s : State) : Result :=
  .next (onHearth h.val (doStkMode h.val who data.toNat) s)

/-- HOB_CTRL.MODE (R330, R331, R339). -/
def doHobMode (h : Nat) (who : Requester) (data : Nat) (s : State) : State :=
  let p := pgH .hob h
  let m := data % 4
  if !s.variant.hob then s
  else if !mgrOrInner who then refuse p who 0x040 data cRequester s
  else if m = 0 ∨ m = 3 then (if m = s.rd p Reg.HOB_CTRL_MODE then s else refuse p who 0x040 data cValue s)
  else
    let old := s.rd p Reg.HOB_CTRL_MODE
    let s := setFields p [(Reg.HOB_CTRL_MODE, m)] s
    if m = old then s else if m = 1 then releaseHob h s else gateBurners h s

def execHobModeWrite (h : Fin 16) (who : Requester) (data : Word) (s : State) : Result :=
  .next (onHearth h.val (doHobMode h.val who data.toNat) s)

/-- HOB_CTRL.PINFAIL_CLR (R305). -/
def doPinfailClr (h : Nat) (who : Requester) (s : State) : State :=
  let p := pgH .hob h
  if !s.variant.hob then s
  else if !mgrOrInner who then refuse p who 0x040 0x100 cRequester s
  else (s.wr p Reg.HOB_PINFAIL_COUNT 0).modH h (fun x => { x with pinArmed := true })

def execPinfailClr (h : Fin 16) (who : Requester) (s : State) : Result :=
  .next (onHearth h.val (doPinfailClr h.val who) s)

/-- DT_CTRL.VALID of a decimalisation table (R312). -/
def doDtValid (h n : Nat) (who : Requester) (data : Nat) (s : State) : State :=
  let p := pgH .hob h
  let es := (List.range 16).map (fun i =>
    bits (s.rd p (Reg.DT_LO_ENTRIES_LO n) + s.rd p (Reg.DT_HI_ENTRIES_HI n) * 2 ^ 32) (4 * i) 4)
  let good := es.all isDigit && (List.range 10).all (fun d => es.contains d)
  if !s.variant.hob then s
  else if !mgrOrInner who then refuse p who (0x088 + 16 * n) data cRequester s
  else if data % 2 = 1 ∧ !good then refuse p who (0x088 + 16 * n) data cValue s
  else setFields p [(Reg.DT_CTRL_VALID n, data % 2)] s

def execDtValidWrite (h : Fin 16) (n : Fin 4) (who : Requester) (data : Word) (s : State) : Result :=
  .next (onHearth h.val (doDtValid h.val n.val who data.toNat) s)

end Sys2Proof.Machine
end

