-- ==== Sys2Proof/Machine/AdminBase.lean ====
section
/-! DEFINITION. How the flue executes a descriptor of an administration queue (R80 to R89, R106 to R108, R394, R403, R706,
R772, R773): the definition of each administration opcode, the checks all of them share, and the completion. -/

namespace Sys2Proof.Machine

/-- The administration opcodes: form, INLINE_LEN, operand bytes and buffers (R108, R156, R160, R205 to R209, R592, R670,
R671, R687, R691, R700, R704). -/
def adminDefs : List OpDef :=
  [{ op := 0x0801, inl := some [12], inlUsed := [(0, 3), (4, 3), (8, 2)] },
   { op := 0x0802, inl := some [2], inlUsed := [(0, 2)] },
   { op := 0x0803, inl := some [4], inlUsed := [(0, 3)] },
   { op := 0x0804, inl := some [2], inlUsed := [(0, 2)] },
   { op := 0x0805, inl := some [4], inlUsed := [(0, 3)] },
   { op := 0x0806, inl := some [8], inlUsed := [(0, 8)] },
   { op := 0x0807, inl := some [6], inlUsed := [(0, 6)] },
   { op := 0x0808, inl := some [8], inlUsed := [(0, 3), (4, 2)] },
   { op := 0x0809, inl := some [2], inlUsed := [(0, 2)] },
   { op := 0x080A, inl := some [4], inlUsed := [(0, 4)] },
   { op := 0x080B, inl := some [8], inlUsed := [(0, 6)] }] ++
  [{ op := 0x0810, ptr := true, useIn := true, parUsed := [(0, 1)] },
   { op := 0x0811, ptr := true, useIn := true, parUsed := [(0, 1)] },
   { op := 0x0812, inl := some [1], inlUsed := [(0, 1)], param := 1 },
   { op := 0x0820, ptr := true, useIn := true, useOut := true },
   { op := 0x0821, ptr := true, useIn := true, useOut := true, parUsed := [(0, 1)] },
   { op := 0x0822, ptr := true, useIn := true, useOut := true },
   { op := 0x0823, ptr := true, useIn := true },
   { op := 0x0824, ptr := true, useOut := true },
   { op := 0x0830, ptr := true, useOut := true },
   { op := 0x0840, ptr := true, useOut := true, parUsed := [(0, 1)] },
   { op := 0x0841, inl := some [1], inlUsed := [(0, 1)] },
   { op := 0x0850, ptr := true, useIn := true },
   { op := 0x0851, inl := some [8], inlUsed := [(0, 8)] },
   { op := 0x0852, inl := some [2], inlUsed := [(0, 2)] }]

def adminDef? (op : Nat) : Option OpDef := (adminDefs ++ opDefs).find? (fun e => e.op == op && (e.op / 256 == 7 || e.op / 256 == 8))

/-- What a request gives an opcode's own meaning: its queue, its descriptor, its input, the buffer of its output, and the key
under which a request that completes later is kept. -/
structure AdminReq where
  q    : Nat
  desc : Bytes
  inp  : Bytes
  dst  : List SgEntry
  key  : Nat
  deriving DecidableEq, Repr

/-- What became of an administration opcode: complete now, or held until something else completes it (R106, R403). -/
inductive Adm where
  | done (status : Nat) (result out : Bytes)
  | hold (a : AdminHeld)
  deriving DecidableEq, Repr

def admOk : Adm := .done stOK [] []
def admErr (st : Nat) : Adm := .done st [] []

/-- A request kept for later. -/
def AdminReq.held (r : AdminReq) : AdminHeld :=
  { queue := r.q, hostTag := dTag r.desc, flags := dFlags r.desc, outAddr := r.dst }

def adminQ (q : Nat) : Queue := .admin (Fin.ofNat 4 q)

/-- The queue has a descriptor that the flue may execute now (R59, R87, R106): no CLOSE_WAIT, no HEARTH_START (R693) and no fence of
the queue waits, and the completion queue has room. -/
def adminReady (s : State) (q : Nat) : Bool :=
  let t := adminQ q
  let mine := s.flue.held.filter (fun p => p.2.queue == q)
  s.hostUp && s.qrd t Reg.QP_CTRL_ENABLE == 1 && s.qrd t Reg.QP_STATUS_ERROR == 0 && (s.qp t).sqHead != (s.qp t).sqTail
    && !(mine.any (fun p => p.2.isWait || p.2.isStart)) && ((s.qp t).fence.isNone || mine.isEmpty)
    && decide (mine.length + (s.qp t).occ < s.cqDepth t)

/-- Descriptor checks of an administration queue that every opcode shares (R394, R772, R773). -/
def adminCheck (d : Bytes) (lists : Bool) : Option Nat :=
  match adminDef? (dOp d) with
  | none => some stUnsupported
  | some e =>
    match descriptorStatus d e lists false with
    | some st => some st
    | none => if dGroup d ≠ 0 ∧ dOp d / 256 = 8 ∧ dOp d ≠ 0x0820 then some stBadDescriptor else none

/-- The class 1 checks in their order (R89): the shared ones, then those of the opcode's own operands and lengths; after them the
refusal of a decommissioned part (R706). -/
def adminStop (own : State → Bytes → Option Nat) (s : State) (d : Bytes) (lists : Bool) : Option Nat :=
  match adminCheck d lists with
  | some st => some st
  | none =>
    match own s d with
    | some st => some st
    | none => if lcState s = lcDecommissioned ∧ dOp d ≠ 0x0830 then some stState else none

/-- The descriptor consumed: the submission head moves, a fence is remembered. -/
def adminTake (q : Nat) (d : Bytes) (s : State) : State :=
  let t := adminQ q
  s.modQp t (fun x => { x with sqHead := (x.sqHead + 1) % s.sqDepth t, fence := if dFence d then some 0 else none })

/-- A request completed at once. -/
def adminPost (q : Nat) (d : Bytes) (dst : List SgEntry) (status : Nat) (result out : Bytes) (s : State) : State :=
  postAdmin q (dTag d) status false result out dst (dQuiet d) s

/-- One descriptor of an administration queue, or the error of its read (R66). `own` gives the class 1 checks of the opcode's own
operands and lengths; `body` its effect. -/
def adminGo (op q : Nat) (rd : AdminRead) (own : State → Bytes → Option Nat) (body : AdminReq → State → State × Adm) (s : State) :
    State :=
  let d := rd.desc
  if !adminReady s q then s
  else if rd.failed then qpError (adminQ q) errFetch s
  else if dOp d ≠ op then s
  else
    let l := readLists d rd.sglIn rd.sglOut
    let stop := adminStop own s d (listsFit d l)
    let s := adminTake q d s
    match stop with
    | some st => adminPost q d [] st [] [] s
    | none =>
      match if dPtr d ∧ dInLen d ≠ 0 then rd.inp else .ok [] with
      | .error => adminPost q d [] stHostDma [] [] s
      | .ok b =>
        let key := s.flue.nextTag
        match body { q := q, desc := d, inp := slice b 0 (dInLen d), dst := l.out, key := key } s with
        | (s, .done st r o) => adminPost q d l.out st r o s
        | (s, .hold a) => s.modFlue (fun x => { x with held := x.held.put key a, nextTag := key + 1 })

/-- A descriptor that is not 128 bytes long is no command of the part. -/
def adminRow (op : Nat) (q : Fin 4) (rd : AdminRead) (own : State → Bytes → Option Nat) (body : AdminReq → State → State × Adm)
    (s : State) : Result :=
  if rd.wf then .next (adminGo op q.val rd own body s) else .fault .illFormed

def noOwn (_ : State) (_ : Bytes) : Option Nat := none

/-- An exact input length. -/
def ownLen (n : Nat) (_ : State) (d : Bytes) : Option Nat := if dInLen d ≠ n then some stBadLength else none

/-- An operand outside its range is a malformed descriptor: R108 names the status for some, the model takes it for all of them
(log 134). -/
def ownRange (bad : State → Bytes → Bool) (s : State) (d : Bytes) : Option Nat :=
  if bad s d then some stBadDescriptor else none

/-! ### Operands -/

def oByte (r : AdminReq) (i : Nat) : Nat := byteAt (dOperands r.desc) i
def oHalf (r : AdminReq) (i : Nat) : Nat := fieldLe (dOperands r.desc) i 2

/-- The hearth that PARAMS byte 0x58 names (R691). -/
def pHearth (d : Bytes) : Nat := byteAt (dParams d) 0

end Sys2Proof.Machine
end

