-- ==== Sys2Proof/Machine/Admin.lean ====
section
/-! DEFINITION. The administration opcodes that change the function table, dampers and stacks (R46 to R54, R96 to R100, R108 to
R114, R121, R126, R169, R178, R561, R766). -/

namespace Sys2Proof.Machine

/-! ### Positions and keys -/

/-- The lowest hearth position that no bound VF holds (R169). -/
def freePosition (s : State) (h : Nat) : Option Nat :=
  (List.range 64).find? (fun p => !(s.boundVfs h).any (fun v => (s.vf v).position == p))

/-- The sum of KC_QUOTA over the hearth's 64 positions (R178). -/
def quotaSum (s : State) (h : Nat) : Nat := ((List.range 64).map (fun p => s.rd (kpPage h) (Reg.KP_KC_QUOTA p))).sum

/-- The entries that the other positions' quotas leave to one (R178). -/
def quotaLeft (s : State) (h p : Nat) : Nat := 7680 + s.rd (kpPage h) (Reg.KP_KC_QUOTA p) - quotaSum s h

/-- A position taken by a VF: the reset values of its entry, with the quota that remains (R177, R178). -/
def takePosition (h v owner p : Nat) (s : State) : State :=
  let q := min 120 (quotaLeft s h p)
  let k := kpPage h
  let s := (s.wr k (Reg.KP_KEYSRC p) 0).wr k (Reg.KP_CLASS_ALLOW p) 0x7F
  let s := (s.wr k (Reg.KP_VALID p) 1).wr k (Reg.KP_OWNER_ID p) owner
  let s := (s.wr k (Reg.KP_KC_QUOTA p) q).wr k (Reg.KP_VF_INDEX p) v
  s.modVf v (fun x => { x with position := p })

/-- A position given up (R169, R766). -/
def leavePosition (h p : Nat) (s : State) : State :=
  let k := kpPage h
  let s := (s.wr k (Reg.KP_VALID p) 0).wr k (Reg.KP_OWNER_ID p) 0
  (s.wr k (Reg.KP_KC_QUOTA p) 0).wr k (Reg.KP_VF_INDEX p) 0

/-- The lowest set bit of a position mask. -/
def lowestBit (m : Nat) : Option Nat := (List.range 64).find? (m.testBit ·)

/-- Quota passed with a charge of `n` entries (R766): what the losing position has of it, so that the sum over the hearth stays
(log 137). -/
def passQuota (h p q n : Nat) (s : State) : State :=
  let k := kpPage h
  let m := min n (s.rd k (Reg.KP_KC_QUOTA p))
  let s := s.wr k (Reg.KP_KC_QUOTA q) (s.rd k (Reg.KP_KC_QUOTA q) + m)
  s.wr k (Reg.KP_KC_QUOTA p) (s.rd k (Reg.KP_KC_QUOTA p) - m)

/-- One entry when position `p` leaves: freed where its effective set holds only `p`; else without `p`, its charge passed to the
lowest remaining position (R112, R766). `gone` tells that the VF leaves the hearth, so that it leaves ANY_VF sets as well, and
passes the charge of an entry whose set names other VFs alone. -/
def dropFromEntry (h p : Nat) (gone : Bool) (s : State) (i : Nat) (e : KeyEntry) : State :=
  let eff := effSet s h e
  let rest := setBit eff p false
  if eff.testBit p ∧ rest = 0 then freeEntry h i s
  else
    let leaves := gone || (eff.testBit p && !flagAnyVf e.attr.flags)
    let heir := if leaves && e.charge == some p then lowestBit rest else none
    let s := s.modH h (fun x => { x with cache := x.cache.upd i (fun e =>
      { e with vfSet := setBit e.vfSet p false, charge := if heir.isSome then heir else e.charge }) })
    match heir with
    | some q => passQuota h p q e.extent s
    | none => s

/-- The keys of a VF leave its hearth (R112). -/
def dropVfKeys (h v : Nat) (gone : Bool) (s : State) : State :=
  (s.H h).cache.foldl (fun a e => dropFromEntry h (s.posOf v) gone a e.1 e.2) s

/-! ### The function table -/

/-- The bound VFs of a hearth other than one, and their grants (R49). -/
def roomAt (s : State) (h v grant : Nat) : Bool :=
  let vs := (s.boundVfs h).filter (· != v)
  decide (grant ≤ 8) && decide (vs.length < 64) && decide (grant + (vs.map (fun w => s.ft w Reg.FT_QP_GRANT)).sum ≤ 128)

/-- A VF's queue pairs disabled, their indexes 0 (R102, R113). -/
def resetQueues (v : Nat) (s : State) : State :=
  (List.range 8).foldl (fun s q =>
    let t := Queue.vf (Fin.ofNat 512 v) (Fin.ofNat 8 q)
    ((s.qwr t Reg.QP_CTRL_ENABLE 0).qwr t Reg.QP_STATUS_ACTIVE 0).modQp t (fun _ => {})) s

/-- The SHAIM2_COMPAT lock lifts when no VF is bound to the hearth (R126). -/
def liftCompat (h : Nat) (s : State) : State :=
  if (s.boundVfs h).isEmpty then s.modH h (fun x => { x with compatLock := false }) else s

/-- Operands of a descriptor, by their offset from 0x40. -/
def dByte (d : Bytes) (i : Nat) : Nat := byteAt (dOperands d) i
def dHalf (d : Bytes) (i : Nat) : Nat := fieldLe (dOperands d) i 2

/-- Descriptor checks of VF administration: the VF exists (R46), and the opcode's other operands lie in their ranges. -/
def ownVf (bad : State → Bytes → Bool) : State → Bytes → Option Nat :=
  ownRange (fun s d => decide (s.flue.numVfs ≤ dHalf d 0) || decide (512 ≤ dHalf d 0) || bad s d)

def anyOperand (_ : State) (_ : Bytes) : Bool := false

/-- VF administration: the VF of the request. -/
def vfOp (f : Nat → AdminReq → State → State × Adm) (r : AdminReq) (s : State) : State × Adm := f (oHalf r 0) r s

/-- The same for an opcode that needs a bound VF. -/
def boundOp (f : Nat → AdminReq → State → State × Adm) : AdminReq → State → State × Adm :=
  vfOp (fun v r s => if s.bound v then f v r s else (s, admErr stNotBound))

/-- NOT_QUIESCED before TDI_LOCKED, the order in which R108 lists them (R114, R121; log 135). -/
def quiescedOp (f : Nat → AdminReq → State → State × Adm) : AdminReq → State → State × Adm :=
  boundOp (fun v r s =>
    if s.damper v ≠ dampDrained then (s, admErr stNotQuiesced)
    else if s.ft v Reg.FT_TDI_LOCKED = 1 then (s, admErr stTdiLocked)
    else f v r s)

/-- The values of R109, and the operands, in the function table. -/
def bindEntry (v h owner grant inflight : Nat) (s : State) : State :=
  let s := ((s.setFt v Reg.FT_HEARTH h).setFt v Reg.FT_BOUND 1).setFt v Reg.FT_DAMPER dampOpen
  let s := ((s.setFt v Reg.FT_OWNER_ID owner).setFt v Reg.FT_QP_GRANT grant).setFt v Reg.FT_INFLIGHT_MAX inflight
  let s := ((s.setFt v Reg.FT_DRAUGHT_WEIGHT 1).setFt v Reg.FT_DRAUGHT_RATE 0).setFt v Reg.FT_DRAUGHT_BURST 64
  let s := (s.setFt v Reg.FT_SHARE_CIPHER 8).setFt v Reg.FT_SHARE_HASH 4
  (s.setFt v Reg.FT_SHARE_BIGNUM 4).setFt v Reg.FT_SHARE_BURNER 4

/-- BIND_VF's operands: an enabled hearth, an owner identity that may be bound, an INFLIGHT_MAX in its range (R50, R52; log 134). -/
def badBind (s : State) (d : Bytes) : Bool :=
  !s.enabled (dByte d 2) || dHalf d 4 == 0 || decide (0xFF00 ≤ dHalf d 4) || dHalf d 8 == 0 || decide (2016 < dHalf d 8)

/-- BIND_VF (R50, R108, R109, R169, R178, R561). -/
def bindVf (v : Nat) (r : AdminReq) (s : State) : State × Adm :=
  let h := oByte r 2
  let owner := oHalf r 4
  let grant := oByte r 6
  let infl := oHalf r 8
  let lc := lcState s
  if s.bound v ∨ s.hState h = hsFatal ∨ (s.H h).needStart
      ∨ ¬(lc = lcVendorTest ∨ lc = lcOwned ∨ lc = lcOperational) then (s, admErr stState)
  else
    match freePosition s h with
    | some p =>
      if !roomAt s h v grant then (s, admErr stLimit)
      else
        let s := bindEntry v h owner grant infl s
        let s := s.modVf v (fun _ => { tokens := 64 })
        (takePosition h v owner p s, admOk)
    | none => (s, admErr stLimit)

def execBindVf (q : Fin 4) (rd : AdminRead) (s : State) : Result := adminRow 0x0801 q rd (ownVf badBind) (vfOp bindVf) s

/-- The function-table entry of a VF at its reset values. -/
def clearEntry (v : Nat) (s : State) : State :=
  let s := ((s.setFt v Reg.FT_HEARTH 0).setFt v Reg.FT_BOUND 0).setFt v Reg.FT_DAMPER dampDrained
  let s := ((s.setFt v Reg.FT_OWNER_ID 0).setFt v Reg.FT_QP_GRANT 0).setFt v Reg.FT_INFLIGHT_MAX 0
  let s := ((s.setFt v Reg.FT_DRAUGHT_WEIGHT 0).setFt v Reg.FT_DRAUGHT_RATE 0).setFt v Reg.FT_DRAUGHT_BURST 0
  let s := (s.setFt v Reg.FT_SHARE_CIPHER 0).setFt v Reg.FT_SHARE_HASH 0
  ((s.setFt v Reg.FT_SHARE_BIGNUM 0).setFt v Reg.FT_SHARE_BURNER 0).setFt v Reg.FT_RESET_ABORTED 0

/-- UNBIND_VF (R97, R108, R112, R126, R169). With the grant gone, no queue pair stays enabled (DEDUCED). -/
def unbindVf (v : Nat) (_ : AdminReq) (s : State) : State × Adm :=
  let h := s.ft v Reg.FT_HEARTH
  let p := s.posOf v
  let s := leavePosition h p (dropVfKeys h v true s)
  let s := (clearEntry v (resetQueues v s)).modVf v (fun _ => {})
  (liftCompat h s, admOk)

def execUnbindVf (q : Fin 4) (rd : AdminRead) (s : State) : Result := adminRow 0x0802 q rd (ownVf anyOperand) (quiescedOp unbindVf) s

def anyEnabled (s : State) (v : Nat) : Bool :=
  (List.range 8).any (fun q => s.qrd (.vf (Fin.ofNat 512 v) (Fin.ofNat 8 q)) Reg.QP_CTRL_ENABLE == 1)

/-- MOVE_VF's target is an enabled hearth (log 134). -/
def badMove (s : State) (d : Bytes) : Bool := !s.enabled (dByte d 2)

/-- MOVE_VF (R108, R111, R112, R126, R169, R178): a VF that arrives with an enabled queue pair locks the target's SHAIM2_COMPAT
(log 49). -/
def moveVf (v : Nat) (r : AdminReq) (s : State) : State × Adm :=
  let t := oByte r 2
  let h := s.ft v Reg.FT_HEARTH
  if !roomAt s t v (s.ft v Reg.FT_QP_GRANT) then (s, admErr stLimit)
  else if s.hState t = hsFatal ∨ t = h ∨ ((s.H t).compat ≠ (s.H h).compat ∧ anyEnabled s v) then (s, admErr stState)
  else
    match freePosition s t with
    | none => (s, admErr stLimit)
    | some p =>
      let s := leavePosition h (s.posOf v) (dropVfKeys h v true s)
      let s := takePosition t v (s.ft v Reg.FT_OWNER_ID) p (s.setFt v Reg.FT_HEARTH t)
      let s := if anyEnabled s v then s.modH t (fun x => { x with compatLock := true }) else s
      (liftCompat h s, admOk)

def execMoveVf (q : Fin 4) (rd : AdminRead) (s : State) : Result := adminRow 0x0803 q rd (ownVf badMove) (quiescedOp moveVf) s

/-- RESET_VF (R112, R113): the VF's keys, its VF.QUEUE page (R722), and the operand regions its jobs left. -/
def resetVf (v : Nat) (_ : AdminReq) (s : State) : State × Adm :=
  let h := s.ft v Reg.FT_HEARTH
  let s := (List.range 4).foldl (fun s n => clearLeft h n v s) (dropVfKeys h v false s)
  (resetQueues v (s.resetPage (pgVf v)), admOk)

def execResetVf (q : Fin 4) (rd : AdminRead) (s : State) : Result := adminRow 0x0804 q rd (ownVf anyOperand) (quiescedOp resetVf) s

/-- A grant is 0 to 8 (R49): beyond it, LIMIT_EXCEEDED answers, as R108 says. -/
def badGrant (_ : State) (_ : Bytes) : Bool := false

/-- SET_QP_GRANT (R49, R108, R121). -/
def setQpGrant (v : Nat) (r : AdminReq) (s : State) : State × Adm :=
  let n := oByte r 2
  let busy := ((List.range 8).filter (fun q => decide (n ≤ q))).any (fun q =>
    s.qrd (.vf (Fin.ofNat 512 v) (Fin.ofNat 8 q)) Reg.QP_STATUS_ACTIVE == 1)
  if busy then (s, admErr stNotQuiesced)
  else if !roomAt s (s.ft v Reg.FT_HEARTH) v n then (s, admErr stLimit)
  else if s.ft v Reg.FT_TDI_LOCKED = 1 then (s, admErr stTdiLocked)
  else (s.setFt v Reg.FT_QP_GRANT n, admOk)

def execSetQpGrant (q : Fin 4) (rd : AdminRead) (s : State) : Result := adminRow 0x0805 q rd (ownVf badGrant) (boundOp setQpGrant) s

/-- SET_DRAUGHT's values: weight and burst not 0, none beyond its field (R52, R108). -/
def badDraught (_ : State) (d : Bytes) : Bool :=
  dHalf d 2 == 0 || decide (1023 < dHalf d 2) || decide (1023 < dHalf d 4) || dHalf d 6 == 0 || decide (4095 < dHalf d 6)

/-- SET_DRAUGHT (R52, R93, R95). -/
def setDraught (v : Nat) (r : AdminReq) (s : State) : State × Adm :=
  let b := oHalf r 6
  let s := (s.setFt v Reg.FT_DRAUGHT_WEIGHT (oHalf r 2)).setFt v Reg.FT_DRAUGHT_RATE (oHalf r 4)
  ((s.setFt v Reg.FT_DRAUGHT_BURST b).modVf v (fun x => { x with tokens := min x.tokens b }), admOk)

def execSetDraught (q : Fin 4) (rd : AdminRead) (s : State) : Result := adminRow 0x0806 q rd (ownVf badDraught) (boundOp setDraught) s

/-- SET_ENGINE_SHARE's values: at most the engines of the class (R52, R108). -/
def badShare (_ : State) (d : Bytes) : Bool :=
  decide (8 < dByte d 2) || decide (4 < dByte d 3) || decide (4 < dByte d 4) || decide (4 < dByte d 5)

/-- SET_ENGINE_SHARE (R52, R94, R95). -/
def setEngineShare (v : Nat) (r : AdminReq) (s : State) : State × Adm :=
  let s := (s.setFt v Reg.FT_SHARE_CIPHER (oByte r 2)).setFt v Reg.FT_SHARE_HASH (oByte r 3)
  ((s.setFt v Reg.FT_SHARE_BIGNUM (oByte r 4)).setFt v Reg.FT_SHARE_BURNER (oByte r 5), admOk)

def execSetEngineShare (q : Fin 4) (rd : AdminRead) (s : State) : Result := adminRow 0x0807 q rd (ownVf badShare) (boundOp setEngineShare) s

/-! ### SET_DAMPER (R97, R98, R110) -/

/-- The action of a SET_DAMPER descriptor; a reserved action is answered with OPEN's row, as malformed (log 134). -/
def damperAction (d : Bytes) : Nat := dByte d 2

def badDamper (_ : State) (d : Bytes) : Bool := decide (3 < damperAction d)

def damperRow (a : Nat) (q : Fin 4) (rd : AdminRead) (f : Nat → AdminReq → State → State × Adm) (s : State) : Result :=
  if rd.wf ∧ !rd.failed ∧ damperAction rd.desc ≠ a ∧ ¬(a = 0 ∧ 3 < damperAction rd.desc) then .next s
  else adminRow 0x0808 q rd (ownVf badDamper) (boundOp f) s

/-- SET_DAMPER OPEN (R97). A VF whose TDI is in ERROR opens like any other: R122 forces the damper to CLOSING once (log 136). -/
def damperOpen (v : Nat) (_ : AdminReq) (s : State) : State × Adm :=
  if s.damper v = dampResetting then (s, admErr stState)
  else
    let closing := s.damper v = dampClosing
    let s := s.setDamper v dampOpen
    (if closing then finishWaits v stState s else s, admOk)

def execSetDamperOpen (q : Fin 4) (rd : AdminRead) (s : State) : Result := damperRow 0 q rd damperOpen s

/-- SET_DAMPER THROTTLE: a limit outside 1 to INFLIGHT_MAX is malformed (DEDUCED). -/
def damperThrottle (v : Nat) (r : AdminReq) (s : State) : State × Adm :=
  let n := oHalf r 4
  if n = 0 ∨ s.ft v Reg.FT_INFLIGHT_MAX < n then (s, admErr stBadDescriptor)
  else if s.damper v = dampOpen ∨ s.damper v = dampThrottled then
    ((s.setDamper v dampThrottled).modVf v (fun x => { x with throttle := n }), admOk)
  else (s, admErr stState)

def execSetDamperThrottle (q : Fin 4) (rd : AdminRead) (s : State) : Result := damperRow 1 q rd damperThrottle s

def damperClose (v : Nat) (_ : AdminReq) (s : State) : State × Adm :=
  if s.damper v = dampResetting then (s, admErr stState)
  else if s.damper v = dampOpen ∨ s.damper v = dampThrottled then (enterClosing v s, admOk)
  else (s, admOk)

def execSetDamperClose (q : Fin 4) (rd : AdminRead) (s : State) : Result := damperRow 2 q rd damperClose s

/-- SET_DAMPER CLOSE_WAIT: it completes when the VF is DRAINED. -/
def damperCloseWait (v : Nat) (r : AdminReq) (s : State) : State × Adm :=
  match damperClose v r s with
  | (s, .done st _ _) =>
    if st = stOK ∧ s.damper v ≠ dampDrained then (s, .hold { r.held with vf := v, isWait := true }) else (s, admErr st)
  | x => x

def execSetDamperCloseWait (q : Fin 4) (rd : AdminRead) (s : State) : Result := damperRow 3 q rd damperCloseWait s

/-! ### Compatibility, in-flight limit, stacks -/

/-- SET_COMPAT's operands: an enabled hearth, and 0 or 1 (log 134). -/
def badCompat (s : State) (d : Bytes) : Bool := !s.enabled (dByte d 0) || decide (1 < dByte d 1)

/-- SET_COMPAT (R121, R126). -/
def setCompat (r : AdminReq) (s : State) : State × Adm :=
  let h := oByte r 0
  if (s.H h).compatLock ∨ (s.boundVfs h).any (fun v => s.ft v Reg.FT_TDI_LOCKED == 1) then (s, admErr stCompatLocked)
  else (s.modH h (fun x => { x with compat := oByte r 1 == 1 }), admOk)

def execSetCompat (q : Fin 4) (rd : AdminRead) (s : State) : Result := adminRow 0x0809 q rd (ownRange badCompat) setCompat s

def badInflight (_ : State) (d : Bytes) : Bool := dHalf d 2 == 0 || decide (2016 < dHalf d 2)

/-- SET_INFLIGHT (R52, R87). -/
def setInflight (v : Nat) (r : AdminReq) (s : State) : State × Adm := (s.setFt v Reg.FT_INFLIGHT_MAX (oHalf r 2), admOk)

def execSetInflight (q : Fin 4) (rd : AdminRead) (s : State) : Result := adminRow 0x080A q rd (ownVf badInflight) (boundOp setInflight) s

/-- A ganged commit of the stack is open and not yet decided (R54). -/
def undecidedGang (s : State) (k : Nat) : Bool :=
  s.flue.gangs.any (fun g => g.stack == k && (g.state == .forming || g.state == .preparing || g.state == .deciding))

/-- STACK_DEFINE's stack number and action (log 134). -/
def badStack (_ : State) (d : Bytes) : Bool := decide (31 < dByte d 0) || decide (1 < dByte d 1)

/-- STACK_DEFINE (R53, R54). A delete looks at the stack number alone (DEDUCED). -/
def stackDefine (r : AdminReq) (s : State) : State × Adm :=
  let k := oByte r 0
  let owner := oHalf r 2
  let mask := oHalf r 4
  let hs := (List.range 16).filter (mask.testBit ·)
  if undecidedGang s k then (s, admErr stState)
  else if oByte r 1 = 0 then (s.modFlue (fun x => { x with stackTab := x.stackTab.del k }), admOk)
  else if hs.any (fun h => !((s.boundVfs h).any (fun v => s.ft v Reg.FT_OWNER_ID == owner))) then (s, admErr stState)
  else if hs.length < 2 ∨ hs.any (fun h => !s.enabled h) then (s, admErr stLimit)
  else (s.modFlue (fun x => { x with stackTab := x.stackTab.put k { owner := owner, mask := mask } }), admOk)

def execStackDefine (q : Fin 4) (rd : AdminRead) (s : State) : Result := adminRow 0x080B q rd (ownRange badStack) stackDefine s

end Sys2Proof.Machine
end

