-- ==== Sys2Proof/Machine/Caches.lean ====
section
/-! DEFINITION. The caches between the cores and the data fabric (R508, R522, R529, R530): which accesses they serve, the L2 ways of
each world, fills, write-backs and what the debug master finds. Every access passes stages 1 to 4 (R464), whether a cache holds its
line or not. What the spec leaves open is log entry 143. -/

namespace Sys2Proof.Machine

/-! ### Attributes (R506, R508) -/

/-- CACHE of the region that decides an access, or of the default map: 0 device, 1 uncached, 2 write-through, 3 write-back. Register
space is never cached. -/
def cacheAttr (s : State) (h : Nat) (q : Req) (a : Nat) : Nat :=
  match areaOf s h a with
  | .pages => 0
  | .recWindow => 0
  | .chimney => 0
  | .unmapped => 0
  | t =>
    match (if q.master = 22 then none else deciding s h q.master q.outer a) with
    | some g => bits g.attr 11 2
    | none => if t = .ddr then 3 else 1

/-- The access goes through the caches: a core's or the debug master's, to cacheable memory. -/
def cacheable (s : State) (h : Nat) (q : Req) (a : Nat) : Bool :=
  (isCoreMaster q.master || q.master == 22) && decide (2 ≤ cacheAttr s h q a)

/-! ### Lines -/

def State.modCaches (s : State) (h : Nat) (f : Caches → Caches) : State := s.modH h (fun x => { x with caches := f x.caches })

/-- The line in its world, among those of a cache. -/
def lineIn (ls : List CacheLine) (line : Nat) (outer : Bool) : Option CacheLine :=
  ls.find? (fun c => c.line == line && c.outer == outer)

/-- A line put in the place of its older copy. -/
def lineSet (ls : List CacheLine) (c : CacheLine) : List CacheLine :=
  ls.map (fun x => if x.line = c.line ∧ x.outer = c.outer then c else x)

def lineDrop (ls : List CacheLine) (line : Nat) (outer : Bool) : List CacheLine :=
  ls.filter (fun c => !(c.line == line && c.outer == outer))

/-- Bytes of a line replaced from an offset on. -/
def patch (b : Bytes) (o : Nat) (d : Bytes) : Bytes := b.take o ++ d ++ b.drop (o + d.length)

/-- A dirty line goes to memory as a write of the core that wrote it last, through stages 2 to 6 (R464). -/
def writeBack (h : Nat) (c : CacheLine) (s : State) : State :=
  let a := 64 * c.line
  if !c.dirty then s
  else match areaOf s h a with
    | .ddr =>
      let q : Req := { master := c.core, outer := c.outer, kind := 1, ident := if c.outer then idOuter else idInner }
      (ddrAccess h q (a - 2 ^ 35) 64 c.data .clean s).1
    | .tcmIn => s.modH h (fun x => { x with tcmIn := memPut x.tcmIn (a - 0x100000) c.data })
    | .tcmOut => s.modH h (fun x => { x with tcmOut := memPut x.tcmOut (a - 0x200000) c.data })
    | _ => s

/-! ### The L2 (R529): 512 sets of 16 ways, of which ways 0 to 3 serve the inner world and 4 to 15 the outer -/

def l2Ways (outer : Bool) : Nat := if outer then 12 else 4

/-- A set's group of ways for a world. -/
def l2Key (line : Nat) (outer : Bool) : Nat := line % 512 * 2 + b2n outer

def l2Group (s : State) (h line : Nat) (outer : Bool) : L2Group := (s.H h).caches.l2.getD (l2Key line outer) {}

def l2Find (s : State) (h line : Nat) (outer : Bool) : Option CacheLine := lineIn (l2Group s h line outer).lines line outer

def l2Store (h line : Nat) (outer : Bool) (g : L2Group) (s : State) : State :=
  s.modCaches h (fun x => { x with l2 := x.l2.put (l2Key line outer) g })

/-- A line of the L2 written, or brought in in place of a free way or of the group's own victim, which is written back. -/
def l2Put (h : Nat) (c : CacheLine) (s : State) : State :=
  let g := l2Group s h c.line c.outer
  match lineIn g.lines c.line c.outer with
  | some o => l2Store h c.line c.outer { lines := lineSet g.lines { c with dirty := c.dirty || o.dirty }, repl := g.repl + 1 } s
  | none =>
    if g.lines.length < l2Ways c.outer then l2Store h c.line c.outer { lines := g.lines ++ [c], repl := g.repl + 1 } s
    else
      let v := Config.l2Victim (l2Key c.line c.outer) g.repl % l2Ways c.outer
      l2Store h c.line c.outer { lines := g.lines.set v c, repl := g.repl + 1 } (writeBack h (g.lines.getD v {}) s)

/-- A hit of the L2 moves its group's replacement state. -/
def l2Touch (h line : Nat) (outer : Bool) (s : State) : State :=
  let g := l2Group s h line outer
  l2Store h line outer { g with repl := g.repl + 1 } s

/-! ### The L1 caches: 512 lines each -/

def l1Lines : Nat := 512

def l1Of (s : State) (h core : Nat) (fetch : Bool) : List CacheLine :=
  if fetch then (s.H h).caches.l1i.getD core [] else (s.H h).caches.l1d.getD core []

def l1Store (h core : Nat) (fetch : Bool) (ls : List CacheLine) (s : State) : State :=
  s.modCaches h (fun x => if fetch then { x with l1i := x.l1i.put core ls } else { x with l1d := x.l1d.put core ls })

/-- A line written in an L1, or brought in; a full cache gives up a line of its choice, a dirty one to the L2. -/
def l1Put (h core : Nat) (fetch : Bool) (c : CacheLine) (s : State) : State :=
  let ls := l1Of s h core fetch
  if (lineIn ls c.line c.outer).isSome then l1Store h core fetch (lineSet ls c) s
  else if ls.length < l1Lines then l1Store h core fetch (ls ++ [c]) s
  else
    let (b, s) := s.free 2
    let v := leNat b % l1Lines
    let old := ls.getD v {}
    l1Store h core fetch (ls.set v c) (if old.dirty then l2Put h old s else s)

/-- A dirty copy that any core's data cache holds of a line goes to the L2; the copy stays, clean. -/
def cleanPeers (h line : Nat) (outer : Bool) (s : State) : State :=
  (List.range 4).foldl (fun s k =>
    match lineIn (l1Of s h k false) line outer with
    | some c => if c.dirty then l1Store h k false (lineSet (l1Of s h k false) { c with dirty := false }) (l2Put h c s) else s
    | none => s) s

/-- Copies of a line leave the data caches of every core that a test admits. -/
def dropPeers (h line : Nat) (outer : Bool) (f : Nat → Bool) (s : State) : State :=
  ((List.range 4).filter (fun k => f k && (lineIn (l1Of s h k false) line outer).isSome)).foldl (fun s k =>
    l1Store h k false (lineDrop (l1Of s h k false) line outer) s) s

/-- A line read from memory. -/
def fillLine (h : Nat) (q : Req) (line : Nat) (c : LineCheck) (s : State) : State × Answer :=
  let a := 64 * line
  match areaOf s h a with
  | .ddr => ddrData h { q with kind := 0 } (a - 2 ^ 35) 64 [] c s
  | .tcmIn => (s, .ok (memBytes (s.H h).tcmIn (a - 0x100000) 64))
  | .tcmOut => (s, .ok (memBytes (s.H h).tcmOut (a - 0x200000) 64))
  | _ => (s, .ok ((List.range 64).map (fun i => Config.bootRom (a + i))))

/-- The line as a core's load, fetch or store finds it: in its L1, in its world's ways of the L2, or in memory. -/
def getLine (h : Nat) (q : Req) (line : Nat) (c : LineCheck) (s : State) : State × Answer :=
  match lineIn (l1Of s h q.master q.fetches) line q.outer with
  | some x => (s, .ok x.data)
  | none =>
    let s := cleanPeers h line q.outer s
    let l1 := fun (b : Bytes) (s : State) => l1Put h q.master q.fetches { line := line, outer := q.outer, data := b } s
    match l2Find s h line q.outer with
    | some x => (l1 x.data (l2Touch h line q.outer s), .ok x.data)
    | none =>
      match fillLine h q line c s with
      | (s, .ok b) => (l1 b (l2Put h { line := line, outer := q.outer, data := b } s), .ok b)
      | r => r

/-! ### Accesses -/

/-- Stages 1 to 4 of an access (R464, R514). -/
def checkAccess (h : Nat) (q : Req) (a : Nat) (c : LineCheck) (s : State) : State × Option Answer :=
  match stage1 s h q a with
  | some cause => (violate h q a cause s, some (.refused cause))
  | none => if areaOf s h a = .ddr then ddrCheck h q (a - 2 ^ 35) c s else (s, none)

/-- A store through a write-through region: memory at once, and the copies that the core and its L2 ways hold. -/
def writeThrough (h : Nat) (q : Req) (a n : Nat) (d : Bytes) (c : LineCheck) (s : State) : State × Answer :=
  let line := a / 64
  let put := fun (x : CacheLine) => { x with data := patch x.data (a % 64) (slice d 0 n) }
  match fabric h q a n d c [] (cleanPeers h line q.outer s) with
  | (s, .ok old) =>
    let s := dropPeers h line q.outer (fun k => k != q.master) s
    let s := match l2Find s h line q.outer with
      | some x => l2Put h (put x) s
      | none => s
    (match lineIn (l1Of s h q.master false) line q.outer with
      | some x => l1Put h q.master false (put x) s
      | none => s, .ok old)
  | r => r

/-- A core's access of at most one line to cacheable memory. -/
def coreCached (h : Nat) (q : Req) (a n : Nat) (d : Bytes) (c : LineCheck) (s : State) : State × Answer :=
  let line := a / 64
  if q.writes ∧ cacheAttr s h q a = 2 then writeThrough h q a n d c s
  else match checkAccess h q a c s with
    | (s, some e) => (s, e)
    | (s, none) =>
      match getLine h q line c s with
      | (s, .ok b) =>
        let s := if q.writes then
            dropPeers h line q.outer (fun k => k != q.master)
              (l1Put h q.master false
                { line := line, outer := q.outer, data := patch b (a % 64) (slice d 0 n), dirty := true, core := q.master } s)
          else s
        (s, .ok (slice b (a % 64) n))
      | r => r

/-- The debug master's access (R529): it looks up the debugged world's ways and allocates nothing. -/
def debugCached (h : Nat) (q : Req) (a n : Nat) (d : Bytes) (c : LineCheck) (s : State) : State × Answer :=
  let line := a / 64
  let s := cleanPeers h line q.outer s
  match l2Find s h line q.outer with
  | none => fabric h q a n d c [] s
  | some x =>
    match checkAccess h q a c s with
    | (s, some e) => (s, e)
    | (s, none) =>
      let s := if q.writes then
          dropPeers h line q.outer (fun _ => true) (l2Put h { x with data := patch x.data (a % 64) (slice d 0 n), dirty := true } s)
        else s
      (s, .ok (slice x.data (a % 64) n))

/-- An access of at most one line by any master. The L2 is not coherent with the engines and the stoker (R530): they reach memory. -/
def lineAccess (h : Nat) (q : Req) (a n : Nat) (d : Bytes) (c : LineCheck) (s : State) : State × Answer :=
  if !cacheable s h q a then fabric h q a n d c [] s
  else if q.master = 22 then debugCached h q a n d c s
  else coreCached h q a n d c s

/-- An access of any length, line by line; the first refusal ends it. -/
def spanAccess (h : Nat) (q : Req) (a n : Nat) (d : Bytes) (c : LineCheck) (s : State) : State × Answer :=
  (linePieces (n / 64 + 2) a n).foldl (fun r p =>
    match r.2 with
    | .ok acc =>
      match lineAccess h q p.1 p.2 (slice d (p.1 - a) p.2) c r.1 with
      | (s, .ok b) => (s, .ok (acc ++ b))
      | (s, e) => (s, e)
    | e => (r.1, e)) (s, .ok [])

/-! ### Transits (R522) -/

/-- The L1 data cache writes its dirty lines back to their world's ways and is invalidated; so is the L1 instruction cache. -/
def flushL1 (h core : Nat) (s : State) : State :=
  let s := ((l1Of s h core false).filter (fun c => c.dirty)).foldl (fun s c => l2Put h c s) s
  s.modCaches h (fun x => { x with l1d := x.l1d.del core, l1i := x.l1i.del core })

end Sys2Proof.Machine
end

