-- ==== Sys2Proof/Machine/GroupCmds.lean ====
section
/-! DEFINITION. Group control opcodes, the resolution of groups and gangs, and the vault's decision records (R397 to R429). -/

namespace Sys2Proof.Machine

/-! ### Where a control opcode comes from -/

/-- What a control opcode answers: complete now, or wait until the group resolves. -/
inductive GroupOut where
  | done (status : Nat) (result : Bytes)
  | wait
  deriving DecidableEq, Repr

/-- The meaning of a control opcode: hearth, function (none for PF0), descriptor, and what to name while it waits. -/
abbrev GroupOp := Nat → Option Nat → Bytes → CtlRef → State → State × GroupOut

/-- A control opcode of a VF's job. It holds no engine; a fence descriptor waits for its queue's earlier jobs. -/
def groupJob (op : Nat) (f : GroupOp) (h j : Nat) (s : State) : State :=
  match s.job? h j with
  | none => s
  | some jb =>
    if !s.works h ∨ jb.state ≠ .ready ∨ dOp jb.desc ≠ op ∨ fenceHolds s h j jb then s
    else
      match f h (some jb.vf) jb.desc (.job j) s with
      | (s, .done st r) =>
        finishJob h j st (s.modJob h j (fun x => { x with ran := true, result := r, hasResult := !r.isEmpty }))
      | (s, .wait) => s.modJob h j (fun x => { x with state := .running, ran := true })

/-- The hearth a control opcode of PF0 names; GROUP_EVENT names none, so its group is the one of PF0 with that GROUP_ID in
the lowest-numbered hearth (DEDUCED). -/
def adminGroupHearth (s : State) (d : Bytes) : Option Nat :=
  if dOp d = 0x0705 then
    s.hearthList.find? (fun h => match s.group? h (dGroup d) with | some g => g.vf.isNone | none => false)
  else some (byteAt (dOperands d) (if dOp d = 0x0701 then 1 else 2))

/-- A control opcode of an administration queue (R398, R403). -/
def groupAdmin (f : GroupOp) (r : AdminReq) (s : State) : State × Adm :=
  match adminGroupHearth s r.desc with
  | none => (s, admErr stGroupUnknown)
  | some h =>
    if !s.enabled h then (s, admErr stBadDescriptor)
    else if s.hState h = hsFatal then (s, admErr stFatal)
    else if !s.works h then (s, admErr stState)
    else
      match f h none r.desc (.admin r.q r.key) s with
      | (s, .done st res) => (s, .done st res [])
      | (s, .wait) => (s, .hold { r.held with group := dGroup r.desc, hearth := h })

def groupRow (op : Nat) (f : GroupOp) (src : GroupSrc) (s : State) : Result :=
  match src with
  | .job h j => .next (groupJob op f h.val j.val s)
  | .admin q rd => adminRow op q rd noOwn (groupAdmin f) s

/-! ### GROUP_OPEN (R399, R400, R404, R405) -/

/-- The next GROUP_ID: rising from the last, 0x0001 to 0xFFFF, skipping those that open groups hold (R399). -/
def nextGroupId (x : Hearth) : Nat → Nat → Nat
  | 0, n => n
  | f + 1, n => if (x.groups.find? n).isSome then nextGroupId x f (if 0xFFFF ≤ n then 1 else n + 1) else n

def addGroup (h : Nat) (vf : Option Nat) (gang : Option GangRef) (s : State) : State × GroupOut :=
  let id := nextGroupId (s.H h) 33 (s.H h).nextGroup
  (s.modH h (fun x =>
    { x with groups := x.groups.put id { vf := vf, gang := gang }, nextGroup := if 0xFFFF ≤ id then 1 else id + 1 }),
    .done stOK (toLe 2 id))

/-- A member's own conditions: the stack, its owner, PARTICIPANTS. -/
def memberFits (s : State) (h : Nat) (vf : Option Nat) (stack parts : Nat) : Bool :=
  match s.flue.stackTab.find? stack with
  | none => false
  | some k =>
    (match vf with
      | some v => s.ft v Reg.FT_OWNER_ID == k.owner
      | none => true)
    && decide (2 ≤ popCount 16 parts) && (parts &&& k.mask == parts) && parts.testBit h

def openGroup (h : Nat) (vf : Option Nat) (d : Bytes) (_ : CtlRef) (s : State) : State × GroupOut :=
  let o := dOperands d
  let stack := byteAt o 2
  let parts := fieldLe o 4 2
  let tag := fieldLe o 8 4
  if 32 ≤ (s.H h).groups.length ∨ 1024 ≤ journalTotal (s.H h) then (s, .done stGroupLimit [])
  else if byteAt o 0 = 0 then addGroup h vf none s
  else if !memberFits s h vf stack parts then (s, .done stState [])
  else
    match s.gang? stack tag with
    | some g =>
      let live := g.state == .forming || g.state == .preparing
      if g.parts ≠ parts ∨ g.opened.testBit h ∨ !live then (s, .done stState [])
      else addGroup h vf (some ⟨stack, tag, parts⟩) (s.modGang stack tag (fun g => { g with opened := setBit g.opened h true }))
    | none =>
      if (s.decision? 2 stack tag).isSome then (s, .done stState [])
      else if 64 ≤ s.flue.gangs.length then (s, .done stGroupLimit [])
      else addGroup h vf (some ⟨stack, tag, parts⟩) (s.modFlue (fun x =>
        { x with gangs := x.gangs ++ [{ stack := stack, tag := tag, parts := parts, opened := setBit 0 h true }] }))

def execGroupOpen (src : GroupSrc) (s : State) : Result := groupRow 0x0701 openGroup src s

/-! ### GROUP_COMMIT, GROUP_ABORT, GROUP_QUERY, GROUP_EVENT -/

/-- A control opcode on an open group of its own function (R398). -/
def onGroup (f : Group → GroupOp) : GroupOp := fun h vf d ref s =>
  match s.group? h (dGroup d) with
  | none => (s, .done stGroupUnknown [])
  | some g => if g.vf ≠ vf then (s, .done stGroupUnknown []) else f g h vf d ref s

/-- The first sealed member moves its gang to PREPARING (R417). -/
def gangSealed (r : GangRef) (s : State) : State :=
  s.modGang r.stack r.tag (fun g => if g.state = .forming then { g with state := .preparing } else g)

/-- GROUP_COMMIT (R408, R412). A rollback already under way answers it with the rollback's own status (DEDUCED). -/
def commitGroup (g : Group) : GroupOp := fun h _ d ref s =>
  let gid := dGroup d
  let n := fieldLe (dOperands d) 0 2
  if g.state = .sealed ∨ g.state = .prepared ∨ g.state = .committing ∨ g.commit.isSome then (s, .done stState [])
  else if g.state = .rollingBack then (s, .done g.commitStatus [])
  else if n < g.actions.length then
    let s := startRollback h gid s
    (s.modGroup h gid (fun g => { g with commit := some ref, count := some n, commitStatus := stState }), .wait)
  else
    let s := s.modGroup h gid (fun g =>
      { g with commit := some ref, count := some n, state := if g.state = .opened then .sealed else g.state })
    match g.state, g.gang with
    | .opened, some r => (gangSealed r s, .wait)
    | _, _ => (s, .wait)

def execGroupCommit (src : GroupSrc) (s : State) : Result := groupRow 0x0702 (onGroup commitGroup) src s

/-- GROUP_ABORT (R408, R412, R425). A second abort of one rollback answers OK at once (DEDUCED). -/
def abortGroup (g : Group) : GroupOp := fun h _ d ref s =>
  let gid := dGroup d
  if g.state = .committing ∨ decided s h gid g then (s, .done stState [])
  else if g.state = .rollingBack ∨ g.abort.isSome then (s, .done stOK [])
  else ((startRollback h gid s).modGroup h gid (fun g => { g with abort := some ref }), .wait)

def execGroupAbort (src : GroupSrc) (s : State) : Result := groupRow 0x0703 (onGroup abortGroup) src s

/-- The values of R407. -/
def GroupState.code : GroupState → Nat
  | .opened => 1 | .sealed => 2 | .prepared => 3 | .committing => 4 | .rollingBack => 5 | .doomed => 6

def queryGroup (g : Group) : GroupOp := fun _ _ _ _ s =>
  (s, .done stOK ([byte g.state.code, byte g.actions.length] ++ toLe 2 (journalUse g) ++ toLe 4 (groupHeld g)))

def execGroupQuery (src : GroupSrc) (s : State) : Result := groupRow 0x0704 (onGroup queryGroup) src s

/-- GROUP_EVENT of a VF's job (R402): joined when it was fetched, it is HELD at once. -/
def eventJob (h j : Nat) (s : State) : State :=
  groupJob 0x0705 (fun _ _ _ _ s =>
    match s.job? h j with
    | some jb => (s, .done (if jb.joined then stOK else stGroupUnknown) [])
    | none => (s, .wait)) h j s

/-- GROUP_EVENT of PF0: it joins, and is HELD (R403). -/
def eventAdmin (r : AdminReq) (s : State) : State × Adm :=
  match adminGroupHearth s r.desc with
  | none => (s, admErr stGroupUnknown)
  | some h =>
    let gid := dGroup r.desc
    match joinGroup h gid (.admin r.key) none 1 false s with
    | (s, .refused st) => (s, admErr st)
    | (s, .joined) =>
      (s.modGroup h gid (fun g => g.modAction (.admin r.key) (fun a =>
        { a with held := true, event := some ((dOperands r.desc).take (dInline r.desc)) })),
        .hold { r.held with group := gid, hearth := h })

def execGroupEvent (src : GroupSrc) (s : State) : Result :=
  match src with
  | .job h j => .next (eventJob h.val j.val s)
  | .admin q rd => adminRow 0x0705 q rd noOwn eventAdmin s

/-! ### Decision records (R413 to R416) -/

/-- The slots of a group's updates that increment a counter (R408, R416). -/
def countedSlots (g : Group) : List Nat :=
  g.actions.filterMap (fun a => match a.slot with | some (n, _, false) => some n | _ => none)

/-- The lowest run of `k` free apply entries. -/
def freeRun (t : Tab ApplyEntry) (k : Nat) : Option Nat :=
  (List.range (33 - k)).find? (fun i => (List.range k).all (fun j => (t.find? (i + j)).isNone))

def putApplies (r : Nat) : Nat → List (Nat × List Nat) → Tab ApplyEntry → Tab ApplyEntry
  | _, [], t => t
  | i, (h, ss) :: rest, t =>
    putApplies r (i + 1) rest (t.put i { hearth := h, record := r, reissue := 2 ^ ss.length - 1, slots := ss })

/-- A decision written to the vault (R413, R414 step 1), or none where no record or too few apply entries are free. -/
def recordDecision (kind unit tag parts owner : Nat) (members : List (Nat × List Nat)) (acts : Tab Nat)
    (s : State) : Option State :=
  let ms := members.filter (fun m => !m.2.isEmpty)
  match s.chim.vault.records.lowestFree 0 16, freeRun s.chim.vault.applies ms.length with
  | some r, some f =>
    some (s.modVault (fun v =>
      { v with
        records := v.records.put r
          { state := 1, kind := kind, unit := unit, tag := tag, parts := parts, applied := 0, owner := owner,
            first := if ms.isEmpty then 0xFF else f, count := ms.length, time := s.stamp, acts := acts }
        applies := putApplies r f ms v.applies }))
  | _, _ => none

/-- One counter moved on; it stays at its end (R154). -/
def incCounter (c : Tab Nat) (k : Nat) : Tab Nat := c.put k (satAdd 32 (c.getD k 0) 1)

/-- The counters of an apply entry from PROGRESS on (R414 step 2). -/
def countApply (e : ApplyEntry) (c : Tab Nat) : Tab Nat :=
  (e.slots.drop e.progress).foldl (fun c n => incCounter c (e.hearth * 256 + n)) c

/-- Steps 2 and 3 of R414 for one record: every counter incremented, in ascending apply-entry and slot order, then COUNTED. -/
def countRecord (r : Nat) (v : Vault) : Vault :=
  match v.records.find? r with
  | none => v
  | some d =>
    if d.state ≠ 1 then v
    else
      let mine := v.applies.filter (fun p => p.2.record == r)
      { v with
        counters := mine.foldl (fun c p => countApply p.2 c) v.counters
        applies := v.applies.mapVals (fun _ e => if e.record = r then { e with progress := e.slots.length } else e)
        records := v.records.put r { d with state := 2 } }

/-- Records that R415 makes FREE, with their apply entries. -/
def freeRecords (v : Vault) : Vault :=
  let gone := v.records.filter (fun p =>
    p.2.state == 2 && p.2.applied == p.2.parts && !(v.applies.any (fun a => a.2.record == p.1 && a.2.reissue != 0)))
  { v with
    records := v.records.filter (fun p => !(gone.any (fun g => g.1 == p.1)))
    applies := v.applies.filter (fun a => !(gone.any (fun g => g.1 == a.2.record))) }

/-- Whether the REISSUE bit of a hearth's slot is set (R416). -/
def reissueSet (v : Vault) (h slot : Nat) : Bool :=
  v.applies.any (fun a => a.2.hearth == h
    && (List.range a.2.slots.length).any (fun i => a.2.slots.getD i 256 == slot && a.2.reissue.testBit i))

/-- The REISSUE bit of a slot clears when the completion of its update is written (R415, R416). -/
def clearReissue (h slot : Nat) (v : Vault) : Vault :=
  freeRecords { v with applies := v.applies.mapVals (fun _ e =>
    if e.hearth = h then
      { e with reissue := (List.range e.slots.length).foldl (fun m i =>
          if e.slots.getD i 256 = slot then setBit m i false else m) e.reissue }
    else e) }

/-- A hearth's APPLIED bit set in a record (R413). -/
def setApplied (r h : Nat) (v : Vault) : Vault :=
  match v.records.find? r with
  | some d => freeRecords { v with records := v.records.put r { d with applied := setBit d.applied h true } }
  | none => v

/-! ### Release (R410 to R412) -/

/-- A control opcode that waited completes with a status. -/
def releaseControl (h gid : Nat) (c : Option CtlRef) (status : Nat) (s : State) : State :=
  if !controlLeft s h gid c then s
  else match c with
  | none => s
  | some (.job j) => s.modJob h j (fun x => { x with state := .completing, status := status })
  | some (.admin _ k) => finishAdmin k status false s

/-- The effects of an action that take place at the commit (R392, R410). -/
def applyAction (h : Nat) (a : Action) (s : State) : State :=
  let s := match a.insert with
    | some i => s.modH h (fun x => { x with cache := x.cache.upd i (fun e => if e.state = .pending then { e with state := .valid } else e) })
    | none => s
  let s := match a.evict with
    | some i => freeEntry h i s
    | none => s
  match a.slot with
  | some (n, r, _) => s.modH h (fun x => { x with slots := if isZero r.recipe then x.slots.del n else x.slots.put n r })
  | none => s

/-- An action released with OK: a job's held output in hearth DDR is written and its completion follows; an administration
action completes, and its slot's REISSUE bit clears (R395, R411, R415). -/
def releaseAction (h gid : Nat) (a : Action) (s : State) : State :=
  if !actionLeft s h gid a then s
  else match a.ref with
  | .job j =>
    match s.job? h j with
    | none => s
    | some jb =>
      let s := match jb.ddrOut with
        | some (off, b) => (stokerDma h jb.vf off b.length (some b) s).1
        | none => s
      s.modJob h j (fun x => { x with state := .completing, status := stOK, ddrOut := none })
  | .admin k =>
    let s := finishAdmin k stOK true s
    match a.slot with
    | some (n, _, _) => s.modVault (clearReissue h n)
    | none => s

/-- The owner identity of a group: of its VF, or 0xFFFF for PF0 (R413). -/
def groupOwner (s : State) (g : Group) : Nat :=
  match g.vf with
  | some v => s.ft v Reg.FT_OWNER_ID
  | none => 0xFFFF

/-- The audit records of a group, one batch with consecutive numbers (R402, R410, R646, R648): what a full ring or hold gives rise to
comes after them. -/
def writeAudits (h gid : Nat) (g : Group) (s : State) : State :=
  let owner := groupOwner s g
  let (s, follow) := (g.actions.filterMap (·.event)).foldl (fun (a : State × List Ev) b =>
    let i : Info := { owner := owner, vf := gid, payload := b, plen := b.length }
    let s := raiseBit evGrpAudit h (h * 72 + evGrpAudit.n) (pgH .group h) a.1
    let (s, _, f) := record (some h) (mkRec s (some h) (h * 72 + evGrpAudit.n) evGrpAudit i) s
    (s, a.2 ++ f)) (s, [])
  follow.foldl (fun s e => raiseQuiet (some h) e s) s

/-- The commit of a group in its hearth. -/
def applyGroup (h gid : Nat) (s : State) : State :=
  match s.group? h gid with
  | none => s
  | some g =>
    let rec? := match g.gang with
      | some r => s.decision? 2 r.stack r.tag
      | none => s.decision? 1 h gid
    let s := s.modGroup h gid (fun g => { g with state := .committing, released := true })
    let s := g.actions.foldl (fun s a => applyAction h a s) s
    let s := writeAudits h gid g (addCtr h 157 1 s)
    let s := match rec? with
      | some (r, _) => s.modVault (setApplied r h)
      | none => s
    let s := g.actions.foldl (fun s a => releaseAction h gid a s) s
    let s := releaseControl h gid g.commit stOK s
    dropGroups h (releaseControl h gid g.abort stState s)

/-- An action released at a rollback: one that ended carries its own error or the group's status; one not yet dispatched
completes now; one that runs completes when it ends. -/
def dropAction (h gid cause : Nat) (a : Action) (s : State) : State :=
  let st := a.failed.getD cause
  if !actionLeft s h gid a then s
  else match a.ref with
  | .admin k => finishAdmin k st true s
  | .job j => s.modJob h j (fun x =>
    if x.state = .running ∨ x.state = .yielded ∨ x.state = .completing then x
    else
      { x with
        state := .completing, status := st, outData := [], ddrOut := none, hasNonce := false
        result := if a.failed.isSome then x.result else [], hasResult := a.failed.isSome && x.hasResult })

/-- The rollback of a group: every effect undone in one cycle, then the completions (R412). -/
def rollbackGroup (h gid : Nat) (s : State) : State :=
  match s.group? h gid with
  | none => s
  | some g =>
    if g.state ≠ .rollingBack ∨ g.released then s
    else
      let s := (g.actions.filterMap (·.insert)).foldl (fun s i => freeEntry h i s) s
      let s := s.modH h (fun x => g.actions.foldl undoAction x)
      let s := s.modGroup h gid (fun g =>
        { g with released := true, actions := g.actions.map (fun a => { ref := a.ref, failed := a.failed, held := a.held }) })
      let s := g.actions.foldl (fun s a => dropAction h gid g.cause a s) s
      let s := releaseControl h gid g.commit g.commitStatus s
      let s := releaseControl h gid g.abort stOK s
      let s := errReg h (pgH .group h) Reg.GRP_ROLLBACKS_COUNT 195 s
      dropGroups h (raiseH h evGrpRollback (pgH .group h) { vf := gid, owner := groupOwner s g } s)

/-! ### The group's own events -/

/-- SEALED, every action joined and HELD (R408). -/
def Group.complete (g : Group) : Bool :=
  g.state == .sealed && g.count == some g.actions.length && g.actions.all (fun a => a.held && a.failed.isNone)

/-- GROUP_COMMIT_APPLY of a local group: where it holds an update that increments a counter, the decision record first. -/
def doCommitApply (h gid : Nat) (s : State) : State :=
  match s.group? h gid with
  | none => s
  | some g =>
    if !s.works h ∨ g.gang.isSome ∨ !g.complete then s
    else
      match countedSlots g, s.decision? 1 h gid with
      | [], _ => applyGroup h gid s
      | _, some (_, d) => if d.state = 2 then applyGroup h gid s else s
      | ns, none =>
        match recordDecision 1 h gid (2 ^ h) (groupOwner s g) [(h, ns)] [(h, g.actions.length)] s with
        | some s => s
        | none => s.modGroup h gid (fun g =>
          { g with state := .rollingBack, cause := stGroupRolledBack, commitStatus := stGroupLimit })

def execGroupCommitApply (h : Fin 16) (g : BitVec 16) (s : State) : Result := .next (doCommitApply h.val g.toNat s)

/-- GROUP_ROLLBACK: of a group already rolling back, or DOOMED with its GROUP_COMMIT received and every action ended. -/
def doRollback (h gid : Nat) (s : State) : State :=
  match s.group? h gid with
  | none => s
  | some g =>
    if !s.works h then s
    else
      rollbackGroup h gid (if g.state = .doomed ∧ g.commit.isSome ∧ g.allDone then startRollback h gid s else s)

def execGroupRollback (h : Fin 16) (g : BitVec 16) (s : State) : Result := .next (doRollback h.val g.toNat s)

/-- The idle limit (R409, R427, R429). -/
def doGroupIdle (h gid : Nat) (s : State) : State :=
  match s.group? h gid with
  | none => s
  | some g =>
    let limit := max 1 (s.rd (pgH .group h) Reg.GRP_CTRL_IDLE_LIMIT)
    let waits := g.state == .opened || g.state == .sealed || g.state == .doomed
    if !s.works h ∨ !waits ∨ g.idleMs < limit ∨ decided s h gid g then s
    else startRollback h gid (raiseH h evGrpIdle (pgH .group h) { vf := gid, owner := groupOwner s g } s)

def execGroupIdleTimeout (h : Fin 16) (g : BitVec 16) (s : State) : Result := .next (doGroupIdle h.val g.toNat s)

/-! ### Gangs (R417 to R421) -/

/-- The member of a gang in a hearth. -/
def memberOf (s : State) (h stack tag : Nat) : Option (Nat × Group) :=
  List.find? (fun (p : Nat × Group) => match p.2.gang with | some r => r.stack == stack && r.tag == tag | none => false)
    (s.H h).groups

/-- The coordinator holds every vote: DECIDING, and the record goes to the vault; without room for it the gang aborts. -/
def decideGang (r : GangRef) (owner : Nat) (s : State) : State :=
  match s.gang? r.stack r.tag with
  | none => s
  | some g =>
    if g.state ≠ .preparing ∨ g.votes &&& g.parts ≠ g.parts then s
    else
      let members := ((List.range 16).filter (g.parts.testBit ·)).map (fun h =>
        (h, match memberOf s h r.stack r.tag with | some (_, x) => countedSlots x | none => []))
      let acts := members.map (fun m => (m.1, match memberOf s m.1 r.stack r.tag with | some (_, x) => x.actions.length | none => 0))
      match recordDecision 2 r.stack r.tag g.parts owner members acts s with
      | some s => s.modGang r.stack r.tag (fun g => { g with state := .deciding })
      | none =>
        errFlueReg (pgF .gang) Reg.GANG_ABORTS_COUNT 100
          (s.modGang r.stack r.tag (fun g => { g with state := .aborting, limit := true }))

/-- GANG_VOTE: a complete member becomes PREPARED and votes; a doomed one votes abort (R408). -/
def doGangVote (h gid : Nat) (s : State) : State :=
  match s.group? h gid with
  | none => s
  | some g =>
    match g.gang with
    | none => s
    | some r =>
      if !s.flueUp ∨ !s.works h then s
      else if g.complete then
        let s := s.modGroup h gid (fun g => { g with state := .prepared })
        decideGang r (groupOwner s g) (s.modGang r.stack r.tag (fun x => { x with votes := setBit x.votes h true }))
      else if g.state = .doomed ∧ g.commit.isSome ∧ g.allDone then startRollback h gid s
      else s

def execGangVote (h : Fin 16) (g : BitVec 16) (s : State) : Result := .next (doGangVote h.val g.toNat s)

/-- The prepare timer expires (R419). -/
def doGangTimeout (stack tag : Nat) (s : State) : State :=
  match s.gang? stack tag with
  | none => s
  | some g =>
    if !s.flueUp ∨ g.state ≠ .preparing then s
    else
      let late := (List.range 16).foldl (fun m h => if g.parts.testBit h ∧ !g.votes.testBit h then setBit m h true else m) 0
      let s := s.modGang stack tag (fun g => { g with state := .aborting, late := late, timeout := true })
      raiseFlue evGangTimeout (pgF .gang) {} (errFlueReg (pgF .gang) Reg.GANG_ABORTS_COUNT 100 s)

def execGangTimeout (stack : Fin 32) (tag : Word) (s : State) : Result := .next (doGangTimeout stack.val tag.toNat s)

/-- The vault acknowledges a record (R414 steps 2 to 4): the gang is COMMITTED. -/
def doVaultStep (r : Nat) (s : State) : State :=
  match s.chim.vault.records.find? r with
  | none => s
  | some d =>
    if d.state ≠ 1 ∨ s.chim.por ∨ !s.chim.main then s
    else
      let s := s.modVault (fun v => freeRecords (countRecord r v))
      if d.kind = 2 then s.modGang d.unit d.tag (fun g => if g.state = .deciding then { g with state := .committed } else g) else s

def execVaultStepDone (record : Fin 16) (s : State) : Result := .next (doVaultStep record.val s)

/-- The coordinator's commit reaches a member (R408, R410). -/
def doGangCommit (h gid : Nat) (s : State) : State :=
  match s.group? h gid with
  | none => s
  | some g =>
    match g.gang with
    | none => s
    | some r =>
      let sent := match s.gang? r.stack r.tag with
        | some x => x.state == .committed
        | none => false
      if s.flueUp ∧ s.works h ∧ g.state = .prepared ∧ sent = true then applyGroup h gid s else s

def execGangCommitMsg (h : Fin 16) (g : BitVec 16) (s : State) : Result := .next (doGangCommit h.val g.toNat s)

/-- What a member rolls back with (R412, R414, R419, R420): the status of its actions and of its GROUP_COMMIT. -/
def abortCauses (x : Gang) (h : Nat) : Nat × Nat :=
  if x.limit then (stGroupRolledBack, stGroupLimit)
  else if x.timeout then
    let st := if x.late.testBit h then stGroupRolledBack else stGroupPeer
    (st, st)
  else if x.culprit.testBit h then (stGroupRolledBack, stGroupRolledBack)
  else (stGroupPeer, stGroupPeer)

/-- The coordinator's abort reaches a member: it is rolling back. -/
def abortMember (h gid : Nat) (causes : Nat × Nat) (s : State) : State :=
  s.modGroup h gid (fun g =>
    if g.state = .rollingBack ∨ g.state = .committing then g
    else { g with state := .rollingBack, cause := causes.1, commitStatus := causes.2 })

def doGangAbort (h gid : Nat) (s : State) : State :=
  match s.group? h gid with
  | none => s
  | some g =>
    match g.gang with
    | none => s
    | some r =>
      match s.gang? r.stack r.tag with
      | none => s
      | some x =>
        if s.flueUp ∧ s.works h ∧ x.state = .aborting then rollbackGroup h gid (abortMember h gid (abortCauses x h) s) else s

def execGangAbortMsg (h : Fin 16) (g : BitVec 16) (s : State) : Result := .next (doGangAbort h.val g.toNat s)

end Sys2Proof.Machine
end

