-- ==== Sys2Proof/Machine/KeyOps.lean ====
section
/-! DEFINITION. The run of a dispatched job's function, the unwrap of blobs a job waits for (R20, R74, R174, R192), and the
key-management opcodes (R195 to R203, R770, R771). -/

namespace Sys2Proof.Machine

/-! ### The run of a function -/

/-- A job whose function may run now: dispatched, not yet run, its engines past their scrubs and restores, and for a masked
job its generators seeded (R235, R243, R257, R380). -/
def runnable (s : State) (h j op : Nat) : Option Job :=
  match s.job? h j with
  | none => none
  | some jb =>
    let plain := op == 0x0301 || op == 0x0302
    let ready := jb.units.all (fun u =>
      let e := s.eng h u
      !e.scrubbing && !e.clearing && !e.saving && !e.restoring && !e.paused && (plain || mgReady e))
    if s.works h ∧ jb.state = .running ∧ !jb.ran ∧ dOp jb.desc = op ∧ ready then some jb else none

/-! ### Shares in an engine (R232 to R235, R286, R358) -/

/-- A draw from a unit's mask generator. -/
def withMg {α : Type} (h u : Nat) (f : MaskGen → α × MaskGen) (s : State) : α × State :=
  ((f (s.eng h u).mg).1, s.modEng h u (fun e => { e with mg := (f e.mg).2 }))

/-- The third shares of an engine's keys (R233). -/
def thirdShares : List KeyHold → MaskGen → List KeyHold × MaskGen
  | [], g => ([], g)
  | k :: r, g =>
    let (p, g) := g.third k.parts
    let (r, g) := thirdShares r g
    ({ k with parts := p } :: r, g)

/-- Before a job's function runs: at order 2 its keys get their third shares, and its input enters the rows in fresh shares. -/
def maskIn (h j : Nat) (inp : Bytes) (s : State) : State :=
  match s.job? h j with
  | none => s
  | some jb =>
    match maskUnit jb with
    | none => s.modJob h j (fun x => { x with inShares := [inp] })
    | some u =>
      let (ks, s) := withMg h u (fun g => if jb.order2 then thirdShares jb.keys g else (jb.keys, g)) s
      let (l, s) := withMg h u (fun g => g.split jb.order2 inp) s
      s.modJob h j (fun x => { x with keys := ks, inShares := l })

/-- The job as its function finds it, and its input. -/
def inRows (h j : Nat) (inp : Bytes) (s : State) : Option (Job × Bytes) :=
  ((maskIn h j inp s).job? h j).map (fun jb => (jb, unshare jb.inShares))

/-- What a masked job's function gives stays in shares until it leaves the engine (R234). -/
def maskOut (h j : Nat) (s : State) : State :=
  match s.job? h j with
  | none => s
  | some jb =>
    match maskUnit jb with
    | none => s
    | some u =>
      let (o, s) := withMg h u (fun g => g.split jb.order2 jb.outData) s
      let (r, s) := withMg h u (fun g => g.split jb.order2 jb.result) s
      s.modJob h j (fun x => { x with outData := [], result := [], outShares := o, resShares := r })

/-- The function has run: its outcome stands in the entry until the engines end; a job on no engine settles at once. A big-number
engine's span holds what it used. -/
def ran (h j : Nat) (f : Job → Job) (s : State) : State :=
  let s := fillSpan h j (maskOut h j (s.modJob h j (fun x => { f x with ran := true })))
  match s.job? h j with
  | some jb => if jb.units.isEmpty then settleJob h j s else s
  | none => s

/-- The input of a job: inline operands, or what the DMA read returned (R66, R88 HOST_DMA_ERROR). -/
def jobInput (d : Bytes) (inp : Dma) : Except Nat Bytes :=
  if !dPtr d then .ok ((dOperands d).take (dInline d))
  else if dInLen d = 0 then .ok []
  else match inp with
    | .ok b => .ok (slice b 0 (dInLen d))
    | .error => .error stHostDma

/-- What a function gives: status, output, RESULT bytes, a new key, blob for hearth DDR, attempts. -/
structure Ran where
  status : Nat := stOK
  out    : Bytes := []
  result : Option Bytes := none
  newKey : Option (KeyEntry × Bytes) := none
  ddrOut : Option (Nat × Bytes) := none
  attempts : Nat := 1
  deriving DecidableEq, Repr

def Ran.fail (st : Nat) : Ran := { status := st }

/-- The outcome of a function in the job's entry. -/
def Job.took (x : Job) (r : Ran) : Job :=
  { x with
    status := r.status, outData := r.out, result := r.result.getD [], hasResult := r.result.isSome, newKey := r.newKey
    ddrOut := r.ddrOut, attempts := r.attempts, outShares := [], resShares := [] }

/-- A function run on a job and its input. In D3hot no input can be read (R552). -/
def runWith (h j op : Nat) (inp : Dma) (f : State → Job → Bytes → Ran) (s : State) : State :=
  match runnable s h j op with
  | none => s
  | some jb =>
    if s.flue.d3hot ∧ dPtr jb.desc ∧ dInLen jb.desc ≠ 0 then s
    else
      match jobInput jb.desc inp with
      | .error st => ran h j (fun x => x.took (.fail st)) s
      | .ok b =>
        match inRows h j b s with
        | some (jb, b) => ran h j (fun x => x.took (f s jb b)) (maskIn h j b s)
        | none => s

/-- A function that needs no input. -/
def runPlain (h j op : Nat) (f : State → Job → Ran) (s : State) : State :=
  match runnable s h j op with
  | none => s
  | some _ =>
    match inRows h j [] s with
    | some (jb, _) => ran h j (fun x => x.took (f s jb)) (maskIn h j [] s)
    | none => s

def key0 (jb : Job) : KeyHold := jb.keys.getD 0 {}
def key1 (jb : Job) : KeyHold := jb.keys.getD 1 {}

/-! ### Unwrapping (R192) -/

/-- The bytes of a blob in hearth DDR: its header first, then the length the header gives. -/
def ddrBlob (h v off : Nat) (s : State) : State × Except Nat Bytes :=
  match stokerDma h v off 48 none s with
  | (s, .error e) => (s, .error e)
  | (s, .ok hd) => stokerDma h v off (max 48 (min 4096 (blobLen hd))) none s

/-- A reference of a job in KEYWAIT is no longer awaited; with the last one the job is READY (R20). -/
def unwrapEnds (h j i : Nat) (f : Job → Job) (s : State) : State :=
  let left := (((s.job? h j).map (·.awaiting)).getD []).filter (fun k => k != i)
  let f := fun (x : Job) => { f x with awaiting := left }
  if left.isEmpty then toReady h j f s else s.modJob h j f

/-- An unwrap that fails: its status counts among the job's key checks (R89, R192). -/
def unwrapFails (h j i st : Nat) (s : State) : State :=
  unwrapEnds h j i (fun x => { x with unwrapErr := x.unwrapErr ++ [(i, st)] }) s

/-- One unwrap of a job in KEYWAIT ends (R20, R174, R192): the key enters the cache, or the failure is noted. A full transient
reserve leaves the job waiting. -/
def unwrapRef (h j i : Nat) (b : Bytes) (jb : Job) (s : State) : State :=
  let r := dRef jb.desc i
  let keep := rFlags r == 1
  match openBlob s h jb.vf b with
  | .error st => unwrapFails h j i st s
  | .ok (q, mat) =>
    let s := derived h 1 s
    let pend := keep && jb.joined && dOp jb.desc == 0x0101
    match insertKey h (blobEntry s h jb.vf q mat keep pend) mat s with
    | none => if keep then unwrapFails h j i stCacheFull s else s
    | some (idx, s) =>
      let s := if pend then s.modGroup h jb.group (fun g => g.modAction (.job j) (fun a => { a with insert := some idx })) else s
      unwrapEnds h j i (fun x => { x with unwrapped := x.unwrapped ++ [(i, idx)] }) s

def doUnwrapDone (h j i : Nat) (blob : Dma) (s : State) : State :=
  match s.job? h j with
  | none => s
  | some jb =>
    if !s.works h ∨ !(s.H h).inner.any (fun e => e.2 == .unwrap j i) ∨ !innerLives (s.H h) (.unwrap j i) then s
    else
      let r := dRef jb.desc i
      if rKind r = kDdr then
        match ddrBlob h jb.vf (rAddr r) s with
        | (s, .error st) => unwrapFails h j i st s
        | (s, .ok b) => unwrapRef h j i b jb s
      else
        match blob with
        | .error => unwrapFails h j i stHostDma s
        | .ok b => unwrapRef h j i b jb s

def execKeywaitUnwrapDone (h : Fin 16) (j : Fin 2048) (ref : Fin 3) (blob : Dma) (s : State) : Result :=
  .next (fillInner h.val (doUnwrapDone h.val j.val ref.val blob s))

/-! ### Opcodes of class 0x01xx -/

/-- A cache index and a fingerprint in RESULT. -/
def idxResult (i : Nat) (fp : Bytes) : Bytes := toLe 2 i ++ zeros 6 ++ padTo 8 fp

/-- KEY_UNWRAP (R195): the unwrap has been made in KEYWAIT. -/
def runUnwrap (_ : State) (jb : Job) : Ran :=
  match (key0 jb).use with
  | .cache i => { result := some (idxResult i (key0 jb).fp) }
  | _ => .fail stKeyNotFound

def execKeyUnwrap (h : Fin 16) (j : Fin 2048) (s : State) : Result := .next (runPlain h.val j.val 0x0101 runUnwrap s)

/-- An entry with the attributes of a held key. -/
def heldEntry (k : KeyHold) : KeyEntry := { attr := k.attr, vfSet := k.set, fp := k.fp }

/-- KEY_WRAP (R188, R191, R194): a blob of the key under the wrapping slot as it stood at dispatch (R163). -/
def runWrap (h : Nat) (s : State) (jb : Job) : Ran :=
  let k := key0 jb
  match (key1 jb).use, (key1 jb).slot with
  | .fixed w, some r =>
    let e := heldEntry k
    let kek := (key1 jb).mat
    let (vfA, vfB) := setVfs s h e
    if jb.compat ∧ v2Expressible e then { out := makeBlob2 e k.mat kek w r }
    else { out := makeBlob h e vfA vfB k.mat ((dParams jb.desc).take 16) kek w r
                    (if k.attr.limit = 0 then 0 else k.attr.limit - k.uses) }
  | _, _ => .fail stKeyNotFound

def execKeyWrap (h : Fin 16) (j : Fin 2048) (s : State) : Result := .next (runPlain h.val j.val 0x0102 (runWrap h.val) s)

/-- The entry of a key that an opcode creates for a VF, with attributes from its operands. -/
def newEntry (s : State) (h v : Nat) (a : AttrOp) (resident : Bool) (mat : Bytes) : KeyEntry :=
  { attr := { alg := a.alg, bits := a.bits, usage := a.usage, flags := if resident then a.flags ||| 16 else a.flags,
              owner := s.ft v Reg.FT_OWNER_ID, limit := a.limit, expiry := a.expiry }
    vfSet := attrVfSet s h a.flags a.vfA a.vfB
    fp := fingerprint a.alg a.bits mat
    charge := some (s.posOf v) }

/-- KEY_GENERATE (R182, R195, R196): material from the drawn bytes; under a wrapping slot its blob goes to hearth DDR. -/
def runGenerate (h : Nat) (s : State) (jb : Job) : Ran :=
  let a := parseAttrs ((dOperands jb.desc).take 40)
  let g : PkOut := if 3 ≤ keyClass a.alg then pkGenerate a.alg a.bits jb.rand else { mat := jb.rand }
  let fixed := rKind (dRef jb.desc 1) == kFixed
  let e := newEntry s h jb.vf a (!fixed || flagNonce a.flags != 0) g.mat
  let blob := match (key1 jb).use, (key1 jb).slot with
    | .fixed w, some r =>
      some (fieldLe (dOperands jb.desc) 0x28 8, makeBlob h e a.vfA a.vfB g.mat a.label (key1 jb).mat w r a.limit)
    | _, _ => none
  { newKey := some (e, g.mat), ddrOut := blob, attempts := g.tries }

def execKeyGenerate (h : Fin 16) (j : Fin 2048) (s : State) : Result :=
  .next (runPlain h.val j.val 0x0103 (runGenerate h.val) s)

/-- KEY_EVICT (R172, R198, R392): outside a group the entry is freed; in a group it is marked until the commit. -/
def runEvict (h j : Nat) (s : State) : State :=
  match runnable s h j 0x0104 with
  | none => s
  | some jb =>
    let i := rIndex (dRef jb.desc 0)
    match (s.H h).cache.find? i with
    | none => ran h j (fun x => { x with status := stKeyNotFound }) s
    | some e =>
      if e.fp ≠ (key0 jb).fp then ran h j (fun x => { x with status := stKeyNotFound }) s
      else if jb.joined then
        let s := s.modH h (fun x => { x with cache := x.cache.upd i (fun e => { e with marked := some jb.group }) })
        let s := s.modGroup h jb.group (fun g => g.modAction (.job j) (fun a => { a with evict := some i }))
        ran h j (fun x => { x with status := stOK }) s
      else ran h j (fun x => { x with status := stOK }) (freeEntry h i s)

def execKeyEvict (h : Fin 16) (j : Fin 2048) (s : State) : Result := .next (runEvict h.val j.val s)

/-- KEY_INFO (R195, R769). -/
def runInfo (h : Nat) (s : State) (jb : Job) : Ran :=
  match (key0 jb).use with
  | .cache i => match (s.H h).cache.find? i with
    | some e => { out := infoBytes e i }
    | none => .fail stKeyNotFound
  | .fixed i => match (key0 jb).slot with
    | some r => { out := slotInfo s h i r }
    | none => .fail stKeyNotFound
  | .none => .fail stKeyNotFound

def execKeyInfo (h : Fin 16) (j : Fin 2048) (s : State) : Result := .next (runPlain h.val j.val 0x0105 (runInfo h.val) s)

/-- KEY_DERIVE (R770): the parent's KDF over the 32-byte label. -/
def runDerive (h : Nat) (s : State) (jb : Job) (inp : Bytes) : Ran :=
  let a := parseAttrs (dParams jb.desc)
  let k := key0 jb
  let n := (matLen a.alg a.bits).getD 0
  let f := if k.attr.alg = 0x06 then kdfHmac else kdfCmac
  let mat := f k.mat (zeros 32) inp 3 k.attr.owner 0xFF 0 0 n
  { newKey := some (newEntry s h jb.vf a (flagNonce a.flags != 0) mat, mat) }

def execKeyDerive (h : Fin 16) (j : Fin 2048) (inp : Dma) (s : State) : Result :=
  .next (runWith h.val j.val 0x0106 inp (runDerive h.val) s)

/-- KEY_EXPORT_KW (R195, R197): AES-KWP of the material. -/
def runExportKw (_ : State) (jb : Job) : Ran := { out := kwpWrap (key1 jb).mat (key0 jb).mat }

def execKeyExportKw (h : Fin 16) (j : Fin 2048) (s : State) : Result := .next (runPlain h.val j.val 0x0107 runExportKw s)

/-- A key made from material an opcode recovered, or TAG_MISMATCH. -/
def madeKey (h : Nat) (s : State) (jb : Job) (mat : Option Bytes) : Ran :=
  let a := parseAttrs (dParams jb.desc)
  match mat with
  | some m => if some m.length = matLen a.alg a.bits then { newKey := some (newEntry s h jb.vf a false m, m) } else .fail stTagMismatch
  | none => .fail stTagMismatch

/-- KEY_IMPORT_KW (R771). -/
def runImportKw (h : Nat) (s : State) (jb : Job) (inp : Bytes) : Ran := madeKey h s jb (kwpUnwrap (key0 jb).mat inp)

def execKeyImportKw (h : Fin 16) (j : Fin 2048) (inp : Dma) (s : State) : Result :=
  .next (runWith h.val j.val 0x0108 inp (runImportKw h.val) s)

/-! ### Transport (R199 to R203) -/

/-- A P-384 private scalar of a derived seed (R140). -/
def p384Scalar (seed : Bytes) : Nat := 1 + Config.seedToP384 seed % (p384.n - 1)

/-- A P-384 point as x‖y. -/
def p384Bytes (q : Pt) : Bytes :=
  match q with
  | some (x, y) => toBe 48 x ++ toBe 48 y
  | none => zeros 96

def p384Pub (d : Nat) : Bytes := p384Bytes (p384.mul d p384.g)

/-- An ECDSA P-384 signature with SHA-384; the nonce comes from drawn or free bytes. -/
def p384Sign (d : Nat) (k msg : Bytes) : Bytes :=
  match ecdsaLoop p384 d (sha384 msg) k 16 0 with
  | some ((r, s), _) => toBe 48 r ++ toBe 48 s
  | none => zeros 96

def p384Verify (pub sig msg : Bytes) : Bool :=
  p384.on (pointOf p384 pub) && ecdsaVerify p384 (pointOf p384 pub) (fieldBe sig 0 48) (fieldBe sig 48 48) (sha384 msg)

/-- The transport keys of a hearth (R140): KEM seed, ECDH scalar, attestation scalar. -/
def transportKem (root : Bytes) (h : Nat) : Bytes := internalKey root "transport kem" h 0 0 64
/-- The private scalar of the device identity P-384 pair (R133): the one key of slot 1, of the owner certificate and of SPDM. -/
def identityScalar (seed : Bytes) : Nat := p384Scalar (toBe 48 (Config.identityP384 seed))

def transportEcdh (root : Bytes) (h : Nat) : Nat := p384Scalar (internalKey root "transport ecdh" h 0 0 64)
def attestKey (root : Bytes) (h : Nat) : Nat := p384Scalar (internalKey root "attest" h 0 0 64)

/-- The serial in sixteen bytes. -/
def serial16 (s : State) : Bytes := slice s.chim.fuses.serial 0 16

/-- The part's own statement over a hearth's attestation key (R199). -/
def endorsementBody (s : State) (h : Nat) (pub : Bytes) : Bytes := [byte h] ++ serial16 s ++ pub

/-- TRANSPORT_CERT (R199). A hearth that has no root of its own has no transport keys: KEY_NOT_FOUND (R767). -/
def runCert (h : Nat) (s : State) (jb : Job) : Ran :=
  let x := s.H h
  match hearthRoot x with
  | none => .fail stKeyNotFound
  | some root =>
    let body := ascii "VXTC" ++ [1, byte h, 0, 0] ++ serial16 s ++ zeros 8 ++ kemEk (kemParams 1024) (transportKem root h)
      ++ p384Pub (transportEcdh root h) ++ padTo 96 x.attestPub ++ padTo 96 x.endorsement
    { out := body ++ p384Sign (attestKey root h) jb.rand body }

def execTransportCert (h : Fin 16) (j : Fin 2048) (s : State) : Result := .next (runPlain h.val j.val 0x0110 (runCert h.val) s)

/-- The lowest-numbered stack of an owner that holds two hearths (R53, R201). -/
def stackWith (s : State) (owner a b : Nat) : Option Nat :=
  ((s.flue.stackTab.filter (fun p => p.2.owner == owner && p.2.mask.testBit a && p.2.mask.testBit b)).map (·.1)).head?

/-- The owner attestation public key under which endorsements verify (R199). -/
def ownerAttest (s : State) : Option Nat :=
  if s.chim.vault.valid then
    some (p384Scalar (deriveRoot s.chim.vault.owner.value (ascii "owner attest") 0x01 0 0xFF 0 0 64))
  else none

/-- The SIV key of a package (R200). -/
def packageKey (kem ecdh : Bytes) (owner : Nat) : Bytes :=
  kdfCmac ((sha512 (kem ++ ecdh)).take 32) (zeros 32) (ascii "transport") 3 owner 0xFF 0 0 64

/-- KEY_EXPORT_TRANSPORT (R200, R201). `rand`: 32 bytes of KEM randomness, then the ephemeral scalar's. -/
def runExportTransport (h : Nat) (s : State) (jb : Job) (cert : Bytes) : Ran :=
  let owner := s.ft jb.vf Reg.FT_OWNER_ID
  let k := key0 jb
  let dst := byteAt cert 5
  let at_ := slice cert 0x6A0 96
  let good := slice cert 0 4 == ascii "VXTC" && byteAt cert 4 == 1
    && (match ownerAttest s with
      | some d => p384Verify (p384Pub d) (slice cert 0x700 96) ([byte dst] ++ slice cert 8 16 ++ at_)
      | none => false)
    && p384Verify at_ (slice cert 0x760 96) (cert.take 0x760)
  if !good then .fail stSigInvalid
  else if slice cert 8 16 ≠ serial16 s ∨ dst = h then .fail stBinding
  else
    match stackWith s owner h dst with
    | none => .fail stKeyUsage
    | some st =>
      let (kem, ct) := kemEncaps (kemParams 1024) (slice cert 0x20 1568) (jb.rand.take 32)
      let e := scalarOf p384.n (jb.rand.drop 32)
      let z := p384Bytes (p384.mul e (pointOf p384 (slice cert 0x640 96)))
      let ent := heldEntry k
      let hdr := blobMagic ++ [3, byte ent.attr.alg] ++ toLe 2 ent.attr.bits ++ [byte ent.attr.usage, byte (ent.attr.flags &&& 0x23)]
        ++ toLe 2 ent.attr.owner ++ toLe 2 0xFFFF ++ toLe 2 0xFFFF ++ toLe 4 0 ++ [0, byte h] ++ toLe 2 k.mat.length ++ toLe 4 0
        ++ zeros 4 ++ toLe 8 ent.attr.expiry ++ zeros 16 ++ padTo 8 k.fp
      let head := ascii "VXTP" ++ [1, byte h, byte dst, 0] ++ serial16 s ++ toLe 2 st ++ toLe 2 owner ++ zeros 4 ++ ct
        ++ p384Pub e ++ hdr
      let (v, c) := sivEnc (packageKey kem (z.take 48) owner) [head] k.mat
      { out := head ++ c ++ v }

def execKeyExportTransport (h : Fin 16) (j : Fin 2048) (inp : Dma) (s : State) : Result :=
  .next (runWith h.val j.val 0x0111 inp (runExportTransport h.val) s)

/-- KEY_IMPORT_TRANSPORT (R182, R190, R200, R202): MAGIC, VERSION and the length of the header are descriptor matters of the package. -/
def runImportTransport (h : Nat) (s : State) (jb : Job) (b : Bytes) : Ran :=
  let owner := s.ft jb.vf Reg.FT_OWNER_ID
  let src := byteAt b 5
  let hdr := slice b 0x6A0 64
  let n := b.length - 0x6F0
  let alg := byteAt hdr 5
  let kb := fieldLe hdr 6 2
  match hearthRoot (s.H h) with
  | none => .fail stKeyNotFound
  | some root =>
    if slice b 0 4 ≠ ascii "VXTP" ∨ byteAt b 4 ≠ 1 then .fail stBadDescriptor
    else if byteAt b 6 ≠ h ∨ slice b 8 16 ≠ serial16 s then .fail stBinding
    else if fieldLe b 0x1A 2 ≠ owner then .fail stKeyOwner
    else
      let st := s.flue.stackTab.find? (fieldLe b 0x18 2)
      let member := match st with
        | some x => x.owner == owner && x.mask.testBit h && x.mask.testBit src
        | none => false
      if !member then .fail stKeyUsage
      else
        let kem := kemDecaps (kemParams 1024) (transportKem root h) (slice b 0x20 1568)
        let z := p384Bytes (p384.mul (transportEcdh root h) (pointOf p384 (slice b 0x640 96)))
        match sivDec (packageKey kem (z.take 48) owner) [b.take 0x6E0] (slice b 0x6E0 n) (slice b (0x6E0 + n) 16) with
        | none => .fail stTagMismatch
        | some mat =>
          if fingerprint alg kb mat ≠ slice hdr 0x38 8 ∨ matLen alg kb ≠ some mat.length then .fail stTagMismatch
          else if !usageFits alg (byteAt hdr 8) ∨ flagNonce (byteAt hdr 9) ≠ 0 ∨ flagResident (byteAt hdr 9) then .fail stKeyUsage
          else
            let fl := byteAt hdr 9
            { newKey := some (
                { attr := { alg := alg, bits := kb, usage := byteAt hdr 8, flags := fl, owner := owner, limit := 0,
                            expiry := fieldLe hdr 0x20 8 }
                  vfSet := attrVfSet s h fl (fieldLe hdr 0xC 2) (fieldLe hdr 0xE 2)
                  fp := slice hdr 0x38 8
                  charge := some (s.posOf jb.vf) }, mat) }

def execKeyImportTransport (h : Fin 16) (j : Fin 2048) (inp : Dma) (s : State) : Result :=
  .next (runWith h.val j.val 0x0112 inp (runImportTransport h.val) s)

end Sys2Proof.Machine
end

