-- ==== Sys2Proof/Machine/Ownership.lean ====
section
/-! DEFINITION. Fixed-slot updates and the slot table (R154 to R163, R406, R416), the device identity (R133 to R135), and the
ownership ceremony (R204 to R211, R697 to R699). -/

namespace Sys2Proof.Machine

/-! ### The device identity and signatures -/

/-- The modulus of the identity RSA-4096 key, big-endian (R133). -/
def identityMod (s : State) : Bytes :=
  let (p, q) := Config.identityRsa (s.chim.fuses.seed.getD [])
  toBe 512 (p * q)

/-- The identity fingerprint (R135). -/
def identityFp (s : State) : Bytes := sha256 (identityMod s)

/-- RSASSA-PSS with SHA-512, MGF1 with SHA-512 and a 64-byte salt, RSA-4096 and e = 65537 (R159). -/
def pssOk (pub sig msg : Bytes) : Bool :=
  let n := beNat pub
  let c := beNat sig
  n % 2 == 1 && decide (1 < n) && decide (c < n) && pssVerify sha512 64 64 (sha512 msg) (toBe 512 (powMod c 65537 n)) 4095

/-- The eight entries of a roster (R159). -/
def rosterOf (b : Bytes) : List Bytes := (List.range 8).map (fun i => slice b (32 * i) 32)

/-! ### Slot updates -/

/-- The vault counter of a slot (R154). -/
def slotCounter (s : State) (h n : Nat) : Nat := s.chim.vault.counters.getD (h * 256 + n) 0

/-- A slot's record accepted or replaced; a cleared slot holds no recipe. -/
def placeSlot (n : Nat) (r : SlotRec) (x : Hearth) : Hearth :=
  { x with slots := if isZero r.recipe then x.slots.del n else x.slots.put n r }

/-- The officers' checks of an update or an owner-signed authorisation: authority, roster, officer (R160 steps 6 and 7). -/
def officersFit (x : Hearth) (authPub offPub roster : Bytes) : Bool :=
  let lab := fun (n : Nat) => (x.slots.find? n).map (fun r => slice r.recipe 0 32)
  let d := sha256 offPub
  lab 255 == some (sha256 authPub) && lab 254 == some (sha256 roster) && !isZero d && (rosterOf roster).contains d
    && d != sha256 authPub

/-- A recipe a set message may carry for a slot (R160 step 11). -/
def recipeFits (n : Nat) (recipe : Bytes) : Bool :=
  if 254 ≤ n then byteAt recipe 0x27 == 1 && isZero (slice recipe 0x20 7) && isZero (slice recipe 0x28 24)
  else (parseRecipe recipe).valid

/-- Steps 1 to 7 of R160, which need no big-number engine; OUT_LEN follows the other class 1 checks. -/
def updateEarly (s : State) (d m : Bytes) : Option Nat :=
  let h := byteAt m 5
  let x := s.H h
  if dInLen d ≠ 2432 then some stBadLength
  else if slice m 0 4 ≠ ascii "VXUM" ∨ byteAt m 4 ≠ 1 ∨ 1 < byteAt m 7 ∨ !isZero (slice m 0x3C 4) then some stBadDescriptor
  else if dOutLen d < 96 then some stOutputTooSmall
  else if !s.enabled h ∨ !s.works h ∨ x.testRoot ∨ x.shadow.isNone then some stKeyUsage
  else if slice m 8 16 ≠ serial16 s ∨ slice m 0x18 32 ≠ identityFp s then some stBinding
  else if slotCounter s h (byteAt m 6) = 0xFFFFFFFF ∧ !reissueSet s.chim.vault h (byteAt m 6) then some stSlotFrozen
  else if !officersFit x (slice m 0x80 512) (slice m 0x280 512) (slice m 0x480 256) then some stSigInvalid
  else none

/-- Steps 8 to 11 of R160. -/
def updateLate (s : State) (m : Bytes) : Option Nat :=
  let h := byteAt m 5
  let n := byteAt m 6
  let c := slotCounter s h n
  let recipe := slice m 0x40 64
  if !pssOk (slice m 0x80 512) (slice m 0x580 512) (slice m 0 0x580) then some stSigInvalid
  else if !pssOk (slice m 0x280 512) (slice m 0x780 512) (slice m 0 0x780) then some stSigInvalid
  else if fieldLe m 0x38 4 ≠ (if reissueSet s.chim.vault h n then c else c + 1) then some stSlotCounter
  else if byteAt m 7 = 1 then (if isZero recipe then none else some stBadDescriptor)
  else if recipeFits n recipe then none
  else some stBadDescriptor

/-- The checks of R160 in their order. The signatures need a big-number engine of the hearth (R277). -/
def checkUpdate (s : State) (d m : Bytes) : Option Nat :=
  match updateEarly s d m with
  | some st => some st
  | none => if classOffline s (byteAt m 5) 2 then some stOffline else updateLate s m

/-- The checks of an update wait for a big-number engine that the inner world can lock (R160). -/
def updateWaits (s : State) (rd : AdminRead) : Bool :=
  match rd.inp with
  | .ok b =>
    let m := slice b 0 (dInLen rd.desc)
    (updateEarly s rd.desc m).isNone && !classOffline s (byteAt m 5) 2 && (freeUnit s (byteAt m 5) 2).isNone
  | .error => false

/-- The lock of a big-number engine as the inner world takes and returns it for the checks of an update (R160, R251, R257, R380): the
engine's last holder is 0xFFF1 afterwards, and what another holder left in it is clear. -/
def updateEngine (s : State) (d m : Bytes) : State :=
  let h := byteAt m 5
  match updateEarly s d m, freeUnit s h 2 with
  | none, some u =>
    let s := if (s.eng h u).lastOwner = idInner then s else clearLines h (u - 12) 0 2048 s
    s.modEng h u (fun e => { e with lastOwner := idInner })
  | _, _ => s

/-- The record of an accepted update: its fingerprint is that of the derived key (R155). -/
def updateRecord (s : State) (m : Bytes) : SlotRec :=
  let h := byteAt m 5
  let n := byteAt m 6
  let recipe := slice m 0x40 64
  let q := parseRecipe recipe
  let root := (hearthRoot (s.H h)).getD []
  let fp := if 254 ≤ n ∨ isZero recipe then zeros 8 else fingerprint q.alg q.bits (slotMaterial root h n q)
  { recipe := recipe, fp := fp, counter := fieldLe m 0x38 4 }

def recordBytes (s : State) (h n : Nat) (r : SlotRec) : Bytes :=
  slotRecord ((hearthRoot (s.H h)).getD []) r.recipe r.fp n h r.counter

/-- An open group of the hearth holds an update of the slot (R406). -/
def slotHeld (s : State) (h n : Nat) : Bool :=
  (s.H h).groups.any (fun p => p.2.actions.any (fun a => match a.slot with | some (k, _, _) => k == n | none => false))

/-- SLOT_UPDATE outside a group (R160, R161, R416). -/
def slotUpdateAlone (r : AdminReq) (s : State) : State × Adm :=
  let m := r.inp
  let h := byteAt m 5
  let n := byteAt m 6
  match checkUpdate s r.desc m with
  | some st => (s, admErr st)
  | none =>
    if isolating s then (s, admErr stQuenched)
    else if slotHeld s h n then (s, admErr stGroupConflict)
    else
      let re := reissueSet s.chim.vault h n
      let rc := updateRecord s m
      let out := recordBytes s h n rc
      let s := if re then s.modVault (clearReissue h n)
        else s.modVault (fun v => { v with counters := incCounter v.counters (h * 256 + n) })
      (s.modH h (placeSlot n rc), .done stOK [] out)

/-- SLOT_UPDATE as an action of a group (R162, R392, R403, R406): it is checked, joins, and is held. Its own error stands before
the group's refusal (R89). -/
def slotUpdateJoined (r : AdminReq) (s : State) : State × Adm :=
  let m := r.inp
  let h := byteAt m 5
  let n := byteAt m 6
  let g := dGroup r.desc
  let ref := ActionRef.admin r.key
  let held := { r.held with group := g, hearth := h }
  let own := match checkUpdate s r.desc m with
    | some st => some st
    | none => if isolating s then some stQuenched else none
  match joinGroup h g ref none 2 true s with
  | (s, .refused st) => (s, admErr (own.getD st))
  | (s, .joined) =>
    let stop := match own with
      | some st => some st
      | none => if slotHeld s h n then some stGroupConflict else none
    match stop with
    | some st =>
      (s.modGroup h g (fun x => { (x.modAction ref (fun a => { a with failed := some st })).doom with idleMs := 0 }), .hold held)
    | none =>
      let rc := updateRecord s m
      let re := reissueSet s.chim.vault h n
      (s.modGroup h g (fun x => x.modAction ref (fun a => { a with held := true, slot := some (n, rc, re), heldBytes := 96 })),
        .hold { held with out := recordBytes s h n rc })

def slotUpdate (r : AdminReq) (s : State) : State × Adm :=
  let s := updateEngine s r.desc r.inp
  if dGroup r.desc = 0 then slotUpdateAlone r s
  else if dInLen r.desc < 6 then (s, admErr stBadLength)
  else slotUpdateJoined r s

/-- SLOT_UPDATE stays at the head of its queue while no big-number engine is free for its checks (R160). -/
def execSlotUpdate (q : Fin 4) (rd : AdminRead) (s : State) : Result :=
  if rd.wf ∧ updateWaits s rd then .next s else adminRow 0x0820 q rd noOwn slotUpdate s

/-- Whether a hearth accepts a slot record (R156, R215, R767). -/
def recordAccepted (s : State) (h : Nat) (b : Bytes) : Bool :=
  let x := s.H h
  match x.shadow with
  | none => false
  | some root =>
    let n := byteAt b 0x48
    let c := fieldLe b 0x4C 4
    !x.testRoot && byteAt b 0x49 == h && slice b 0x50 16 == slotRecordMac root.value h (slice b 0 0x50)
      && c == slotCounter s h n && c != 0

/-- SLOT_TABLE_LOAD (R156). -/
def slotTableLoad (r : AdminReq) (s : State) : State × Adm :=
  let h := pHearth r.desc
  if !s.works h then (s, admErr stState)
  else if isolating s then (s, admErr stQuenched)
  else
    let recs := chunks 96 r.inp
    let good := recs.filter (recordAccepted s h)
    let s := derived h 1 s
    let bitmap := good.foldl (fun m b => setBit m (byteAt b 0x48) true) 0
    let s := good.foldl (fun s b => s.modH h (placeSlot (byteAt b 0x48)
      { recipe := slice b 0 64, fp := slice b 0x40 8, counter := fieldLe b 0x4C 4 })) s
    let s := if good.length < recs.length then raiseH h evSlotStale (pgH .keycache h) {} s else s
    (s, .done stOK [] (toLe 32 bitmap))

def slotTableLen (s : State) (d : Bytes) : Option Nat :=
  if !s.enabled (pHearth d) then some stBadDescriptor
  else if dInLen d % 96 ≠ 0 ∨ 256 * 96 < dInLen d then some stBadLength else if dOutLen d < 32 then some stOutputTooSmall else none

def execSlotTableLoad (q : Fin 4) (rd : AdminRead) (s : State) : Result := adminRow 0x0821 q rd slotTableLen slotTableLoad s

/-! ### The ownership ceremony -/

/-- R697. -/
def ceremonyAllowed (s : State) : Bool :=
  lcState s == lcProvisioned || (lcState s == lcQuenched && s.chim.vault.sticky == 0 && s.chim.vault.level == 0)

/-- The roster of a request (R206 step 5). -/
def rosterFits (authPub roster : Bytes) : Bool :=
  let ds := (rosterOf roster).filter (fun d => !isZero d)
  decide (2 ≤ ds.length) && ds.all (fun d => decide ((ds.filter (· == d)).length = 1)) && !ds.contains (sha256 authPub)

/-- The checks of R206. -/
def checkRequest (s : State) (d m : Bytes) : Option Nat :=
  if dInLen d ≠ 792 then some stBadLength
  else if slice m 0 4 ≠ ascii "VXOR" ∨ byteAt m 4 ≠ 1 ∨ !isZero (slice m 5 3) then some stBadDescriptor
  else if dOutLen d < 80 then some stOutputTooSmall
  else if !ceremonyAllowed s then some stState
  else if slice m 8 16 ≠ serial16 s then some stBinding
  else if !rosterFits (slice m 0x18 512) (slice m 0x218 256) then some stBadDescriptor
  else none

/-- OWNERSHIP_BEGIN (R205, R206, R210): an earlier ceremony closes whatever becomes of the request. -/
def ownershipBegin (r : AdminReq) (s : State) : State × Adm :=
  let s := s.modFlue (fun x => { x with ceremony := none })
  match checkRequest s r.desc r.inp with
  | some st => (s, admErr st)
  | none =>
    match if s.works 0 then drbgRequest 0 32 false s else none with
    | none => (s, admErr stEntropy)
    | some (c, s) =>
      let cer : Ceremony := { request := r.inp, challenge := c, started := s.now }
      (s.modFlue (fun x => { x with ceremony := some cer }), .done stOK [] (c ++ serial16 s ++ identityFp s))

def execOwnershipBegin (q : Fin 4) (rd : AdminRead) (s : State) : Result := adminRow 0x0822 q rd noOwn ownershipBegin s

/-- The checks of R207 against the open ceremony. -/
def checkOfficer (s : State) (c : Ceremony) (m : Bytes) : Option Nat :=
  let pub := slice m 0x98 512
  let i := byteAt m 5
  let d := sha256 pub
  let roster := rosterOf (slice c.request 0x218 256)
  if slice m 0 4 ≠ ascii "VXOA" ∨ byteAt m 4 ≠ 1 ∨ fieldLe m 6 2 ≠ 0 then some stSigInvalid
  else if slice m 8 16 ≠ serial16 s ∨ slice m 0x18 32 ≠ identityFp s ∨ slice m 0x38 32 ≠ c.challenge
      ∨ slice m 0x58 64 ≠ sha512 c.request then some stBinding
  else if 7 < i ∨ isZero d ∨ roster.getD i [] ≠ d then some stSigInvalid
  else if !pssOk pub (slice m 0x298 512) (slice m 0 0x298) then some stSigInvalid
  else if c.accepted.any (fun a => a.1 == i || a.2 == d) then some stSigInvalid
  else none

/-- OWNERSHIP_AUTHORISE (R207). Without an open ceremony no binding matches (DEDUCED). -/
def ownershipAuthorise (r : AdminReq) (s : State) : State × Adm :=
  match s.flue.ceremony with
  | none => (s, admErr stBinding)
  | some c =>
    match checkOfficer s c r.inp with
    | some st => (s, admErr st)
    | none =>
      let c := { c with accepted := c.accepted ++ [(byteAt r.inp 5, sha256 (slice r.inp 0x98 512))] }
      (s.modFlue (fun x => { x with ceremony := some c }), admOk)

def execOwnershipAuthorise (q : Fin 4) (rd : AdminRead) (s : State) : Result :=
  adminRow 0x0823 q rd (ownLen 1176) ownershipAuthorise s

/-- One hearth's ember, after a reseed with prediction resistance, and its part of the owner ember (R208). -/
def drawEmbers : List Nat → State → Option (List (Nat × Bytes) × Bytes × State)
  | [], s => some ([], zeros 64, s)
  | h :: r, s =>
    if !s.works h then none
    else match drbgLower h 64 true s with
      | none => none
      | some (e, s) =>
        match drbgLower h 64 false s with
        | none => none
        | some (o, s) =>
          match drawEmbers r s with
          | none => none
          | some (es, own, s) => some ((h, e) :: es, xorBytes own o, s)

/-- A value in two shares under a fresh mask (R142). -/
def shareValue (v : Bytes) (s : State) : Shared × State :=
  let (m, s) := s.free v.length
  ({ s := xorBytes v m, m := m }, s)

/-- The record of slot 254 or 255 after a ceremony: a digest as its LABEL, counter 1 (R208). -/
def digestRecord (ember digest : Bytes) (n h : Nat) : Bytes :=
  slotRecord ember (padTo 32 digest ++ zeros 7 ++ [1] ++ zeros 24) (zeros 8) n h 1

/-- Counters after a ceremony: 0 for slots 0 to 253, 1 for 254 and 255 of every hearth whose ember was written (R208). -/
def ceremonyCounters (hs : List Nat) (c : Tab Nat) : Tab Nat :=
  hs.foldl (fun c h =>
    let kept : Tab Nat := List.filter (fun (e : Nat × Nat) => e.1 / 256 != h) c
    (kept.put (h * 256 + 254) 1).put (h * 256 + 255) 1) c

/-- The owner attestation certificate (R209). -/
def ownerCert (s : State) (owner request nonce : Bytes) : Bytes :=
  let d := p384Scalar (deriveRoot owner (ascii "owner attest") 0x01 0 0xFF 0 0 64)
  let body := ascii "VXOC" ++ [1, 0, 0, 0] ++ serial16 s ++ p384Pub d ++ sha512 request
  body ++ p384Sign (identityScalar (s.chim.fuses.seed.getD [])) nonce body

/-- A fuse word of the lifecycle blown whole, and its event (R702). -/
def blowWord (w : Nat) (s : State) : State :=
  raiseFlue evFuseProgrammed (pgF .fuse) {} (s.modChim (fun c =>
    { c with fuses := { c.fuses with lcWords := c.fuses.lcWords.put w 32 } }))

/-- OWNERSHIP_COMPLETE (R208, R210, R211, R696, R698, R699): the ceremony closes, but for want of randomness. -/
def ownershipComplete (_ : AdminReq) (s : State) : State × Adm :=
  match s.flue.ceremony with
  | none => (s, admErr stState)
  | some c =>
    if c.accepted.length < 2 ∨ !ceremonyAllowed s then (s.modFlue (fun x => { x with ceremony := none }), admErr stState)
    else
      match drawEmbers s.hearthList s with
      | none => (s, admErr stEntropy)
      | some (es, own, s) =>
        let (o, s) := shareValue own s
        let s := es.foldl (fun s p =>
          let (x, s) := shareValue p.2 s
          (s.modVault (fun v => { v with embers := v.embers.put p.1 x })).modH p.1 (fun x => { x with needStart := true })) s
        let first := lcState s == lcProvisioned
        let s := s.modVault (fun v =>
          { v with owner := o, valid := true, counters := ceremonyCounters (es.map (·.1)) v.counters })
        let s := if first then lifecycleMoved (blowWord 3 s) else s
        let (k, s) := s.free 48
        let auth := sha256 (slice c.request 0x18 512)
        let roster := sha256 (slice c.request 0x218 256)
        let recs := es.flatMap (fun p => digestRecord p.2 roster 254 p.1 ++ digestRecord p.2 auth 255 p.1)
        let s := refreshPins (s.modFlue (fun x => { x with ceremony := none }))
        (s, .done stOK [] (ownerCert s own c.request k ++ recs))

/-- The output of OWNERSHIP_COMPLETE depends on the number of hearths (R208). -/
def execOwnershipComplete (q : Fin 4) (rd : AdminRead) (s : State) : Result :=
  adminRow 0x0824 q rd (fun s d =>
    if dInLen d ≠ 0 then some stBadLength else if dOutLen d < 280 + s.variant.hearths * 192 then some stOutputTooSmall else none)
    ownershipComplete s

/-- A ceremony closes 600 s of operating time after its BEGIN (R210). -/
def doCeremonyExpiry (s : State) : State :=
  match s.flue.ceremony with
  | none => s
  | some c => if c.started + 600000 ≤ s.now then s.modFlue (fun x => { x with ceremony := none }) else s

def execCeremonyExpiry (s : State) : Result := .next (doCeremonyExpiry s)

end Sys2Proof.Machine
end

