-- ==== Sys2Proof/Machine/Cores.lean ====
section
/-! DEFINITION. The cores' worlds: gate transits, releases, fatal declarations (R15, R16, R519 to R531, R662), and debug: tokens,
enables, halts (R532 to R541). The instructions that a core executes are not commands of the model. -/

namespace Sys2Proof.Machine

def gatePage (h : Nat) : Page := pgH .gate h

/-! ### Transits -/

/-- The codes of GATE_CTRL.OP (R520). -/
def opOfCode (n : Nat) : Option WorldOp :=
  if n = 1 then some .call else if n = 2 then some .ret else if n = 3 then some .resume else if n = 4 then some .dispatch else none

/-- The transit is open to the core (R520, R521). -/
def transitOpen (c : Core) : WorldOp → Bool
  | .call => c.world == .outer
  | .ret => c.world == .inner && c.callOpen
  | .resume => c.world == .inner && c.banked
  | .dispatch => c.world == .inner && !c.callOpen && !c.banked
  | .interrupt => c.world == .outer

/-- The core executes now: released, not halted, no transit under way, its clock running. -/
def coreRuns (s : State) (h c : Nat) : Bool :=
  let x := s.core h c
  s.up h && (c == 0 || x.released) && !x.halted && x.transit.isNone

def innerVec (s : State) (h : Nat) : BitVec 64 :=
  BitVec.ofNat 64 (2 ^ 32 * s.rd (gatePage h) Reg.INNER_VEC_HI_ADDR + 2 * s.rd (gatePage h) Reg.INNER_VEC_LO_ADDR)

def outerVec (s : State) (h c : Nat) : BitVec 64 :=
  BitVec.ofNat 64 (2 ^ 32 * s.rd (gatePage h) (Reg.OUTER_VEC_HI_ADDR c) + 2 * s.rd (gatePage h) (Reg.OUTER_VEC_LO_ADDR c))

/-- Hearth-local address of a core's GATE_CTRL (R531, R728). -/
def gateAddr (c : Nat) : Nat := 0x01031040 + 0x20 * c

/-- An access fault of a core, taken in its own world (R514, R527): mcause, mtval the address, mepc free since no command says
which instruction made the access, and the pc at mtvec. -/
def accessFault (h c cause addr : Nat) (s : State) : State :=
  let (b, s) := s.free 8
  s.modCore h c (fun x =>
    let t := if x.world = .inner then x.csrInner else x.csrOuter
    let t := ((t.put 0x342 (BitVec.ofNat 64 cause)).put 0x343 (BitVec.ofNat 64 addr)).put 0x341 (BitVec.ofNat 64 (leNat b))
    let vec := t.getD 0x305 0 &&& ~~~(3 : BitVec 64)
    if x.world = .inner then { x with csrInner := t, pc := vec, machine := true, wfi := false }
    else { x with csrOuter := t, pc := vec, machine := true, wfi := false })

/-- A store access fault at GATE_CTRL. -/
def storeFault (h c : Nat) (s : State) : State := accessFault h c 7 (gateAddr c) s

/-- The identity a core presents now (R519). -/
def coreReq (s : State) (h c : Nat) : Requester :=
  if (s.core h c).world = .inner then .inner (Fin.ofNat 4 c) else .outer (Fin.ofNat 4 c)

/-- A GATE_CTRL store that names a transit not open (R521). -/
def gateRefused (h c data : Nat) (s : State) : State :=
  let p := gatePage h
  let s := refuse p (coreReq s h c) (0x040 + 0x20 * c) data cState s
  storeFault h c (raiseH h evGateFault p { inst := c, payload := captureBytes p s } s)

/-- The state of a core at the start of a transit: it stops issuing (R522). -/
def startTransit (h c : Nat) (op : WorldOp) (service : Nat) (s : State) : State :=
  s.modCore h c (fun x => { x with transit := some (op, service), wfi := false, haltAgain := x.haltAgain || (x.halted && op == .interrupt), halted := false })

/-- A store to GATE_CTRL by its core (R520, R521). -/
def gateStore (h c : Nat) (op : WorldOp) (code service : Nat) (s : State) : State :=
  if !coreRuns s h c then s
  else if transitOpen (s.core h c) op then startTransit h c op service s
  else gateRefused h c (code + 256 * service) s

def execGateCall (h : Fin 16) (c : Fin 4) (service : Byte) (s : State) : Result :=
  .next (gateStore h.val c.val .call 1 service.toNat s)

def execGateReturn (h : Fin 16) (c : Fin 4) (s : State) : Result := .next (gateStore h.val c.val .ret 2 0 s)

def execGateResume (h : Fin 16) (c : Fin 4) (s : State) : Result := .next (gateStore h.val c.val .resume 3 0 s)

def execGateDispatch (h : Fin 16) (c : Fin 4) (s : State) : Result := .next (gateStore h.val c.val .dispatch 4 0 s)

/-- An inner-world interrupt for the core that GATE_IRQ names, while it is in the outer world (R520, R528, R533). -/
def doGateInterrupt (h c : Nat) (s : State) : State :=
  let x := s.core h c
  if s.up h ∧ (c = 0 ∨ x.released) ∧ x.transit.isNone ∧ x.world = .outer ∧ s.rd (gatePage h) Reg.GATE_IRQ_CORE = c then
    startTransit h c .interrupt 0 s
  else s

def execGateInterrupt (h : Fin 16) (c : Fin 4) (s : State) : Result := .next (doGateInterrupt h.val c.val s)

/-- GATE_FAULT: the store named no transit that is open to the core. -/
def doGateFault (h c data : Nat) (s : State) : State :=
  let names := match opOfCode (data % 8) with
    | some op => transitOpen (s.core h c) op
    | none => false
  if !coreRuns s h c ∨ names = true then s else gateRefused h c data s

def execGateFault (h : Fin 16) (c : Fin 4) (data : Word) (s : State) : Result := .next (doGateFault h.val c.val data.toNat s)

/-- Integer registers x1 to x31 after a transit that passes those a test admits and clears the others (R524). -/
def keepRegs (keep : Nat → Bool) (r : List (BitVec 64)) : List (BitVec 64) :=
  (List.range 31).map (fun i => if keep (i + 1) then r.getD i 0 else 0)

/-- The registers of R524 and the world at the end of a transit. The pc of the model is that of the instruction after the
store. -/
def crossWorld (s : State) (h c : Nat) (op : WorldOp) (service : Nat) (x : Core) : Core :=
  let y := { x with transit := none }
  match op with
  | .call =>
    { y with regs := keepRegs (fun i => decide (10 ≤ i ∧ i ≤ 15)) x.regs, epc := x.pc, epcMachine := x.machine, pc := innerVec s h,
             machine := true, world := .inner, callOpen := true, entry := 1, service := service }
  | .ret =>
    { y with regs := keepRegs (fun i => i == 10 || i == 11) x.regs, pc := x.epc, machine := x.epcMachine, world := .outer,
             callOpen := false, service := 0 }
  | .interrupt =>
    { y with bank := keepRegs (fun _ => true) x.regs ++ [x.pc], bankMachine := x.machine, regs := keepRegs (fun _ => false) x.regs,
             banked := true, pc := innerVec s h, machine := true, world := .inner, entry := 3 }
  | .resume =>
    { y with regs := x.bank.take 31, pc := x.bank.getD 31 0, machine := x.bankMachine, bank := [], banked := false, world := .outer,
             halted := x.haltAgain, haltAgain := false }
  | .dispatch =>
    { y with regs := keepRegs (fun i => i == 10 || i == 11) x.regs, pc := outerVec s h c, machine := true, world := .outer }

/-- A transit ends: the L1 caches are clean, the world bit flips and the core fetches at its entry point (R522 to R525); counter
155. -/
def doTransitDone (h c : Nat) (s : State) : State :=
  let x := s.core h c
  if !s.up h then s
  else match x.transit with
    | none => s
    | some (op, service) => addCtr h 155 1 ((flushL1 h c s).modCore h c (crossWorld s h c op service))

def execGateTransitDone (h : Fin 16) (c : Fin 4) (s : State) : Result := .next (doTransitDone h.val c.val s)

/-- CORE_CTRL.RELEASE (R15, R531): cores 1 to 3 start in the inner world; core 0 runs already. -/
def doCoreRelease (h c : Nat) (who : Requester) (s : State) : State :=
  let p := gatePage h
  if !isInner who then refuse p who (0x050 + 0x20 * c) 1 cRequester s
  else
    let s := s.wr p (Reg.CORE_CTRL_RELEASE c) 1
    if c = 0 ∨ (s.core h c).released then s
    else s.modCore h c (fun x => { x with released := true, halted := false, world := .inner, machine := true, pc := innerVec s h })

def execCoreRelease (h : Fin 16) (c : Fin 4) (who : Requester) (s : State) : Result := .next (onHearth h.val (doCoreRelease h.val c.val who) s)

/-- The inner world declares its hearth fatal (R662). -/
def execFirmwareFatal (h : Fin 16) (s : State) : Result :=
  .next (if s.works h.val then enterFatal h.val fatFirmware s else s)

/-- A core double-faults in the inner world's trap handler (R662). -/
def execCoreLockup (h : Fin 16) (c : Fin 4) (s : State) : Result :=
  .next (if s.works h.val ∧ (s.core h.val c.val).world = .inner then enterFatal h.val fatLockup s else s)

/-! ### Debug tokens -/

def dbgPage : Page := pgF .debug

/-- A register of FLUE.DEBUG answers PF1 alone (R541). -/
def dbgRow (who : Requester) (data : Nat) (f : State → State) (s : State) : Result :=
  .next (if !s.flueUp then s else if who = .pf1 then f s else refuse dbgPage who 0x040 data cRequester s)

/-- The hearth whose DRBG serves the flue: the lowest-numbered in H0 (R144, R537). -/
def h0Hearth (s : State) : Option Nat := s.hearthList.find? (fun h => s.works h && (s.H h).power == 0)

def setChallenge (b : Bytes) (s : State) : State :=
  (List.range 8).foldl (fun s i => s.wr dbgPage (Reg.DBG_CHALLENGE_DATA i) (fieldLe b (4 * i) 4)) s

def challengeBytes (s : State) : Bytes := (List.range 8).flatMap (fun i => toLe 4 (s.rd dbgPage (Reg.DBG_CHALLENGE_DATA i)))

/-- DBG_CTRL.NEW_CHALLENGE (R537). -/
def newChallenge (s : State) : State :=
  let s := s.wr dbgPage Reg.DBG_STATUS_CHALLENGE_OPEN 0
  match h0Hearth s with
  | none => s
  | some h =>
    match drbgRequest h 32 false s with
    | none => s
    | some (b, s) => (setChallenge b s).wr dbgPage Reg.DBG_STATUS_CHALLENGE_OPEN 1

def execDbgNewChallenge (who : Requester) (s : State) : Result := dbgRow who 1 newChallenge s

def tokenBuffer (s : State) : Bytes := (List.range 536).flatMap (fun i => toLe 4 (s.rd dbgPage (Reg.DBG_TOKEN_DATA i)))

/-- DBG_CTRL.SUBMIT (R536, R537): the token in the buffer goes under check, and the challenge closes. One token is under check
at a time (DEDUCED). -/
def submitToken (s : State) : State :=
  if s.flag dbgPage Reg.DBG_STATUS_BUSY then s
  else
    let c := if s.flag dbgPage Reg.DBG_STATUS_CHALLENGE_OPEN then some (challengeBytes s) else none
    let b := tokenBuffer s
    ((s.modFlue (fun x => { x with token := b, tokenChal := c })).wr dbgPage Reg.DBG_STATUS_BUSY 1).wr dbgPage
      Reg.DBG_STATUS_CHALLENGE_OPEN 0

def execDbgSubmit (who : Requester) (s : State) : Result := dbgRow who 2 submitToken s

/-- The signatures a token needs in a lifecycle state: vendor, owner; none where the state refuses (R535). -/
def tokenNeeds (lc en : Nat) : Option (Bool × Bool) :=
  if lc = lcBlank ∨ lc = lcDecommissioned then none
  else if lc = lcOwned ∨ lc = lcOperational then some (4 ≤ en, true)
  else some (true, false)

/-- The checks of R536 in their order. -/
def checkToken (s : State) (t : Bytes) : Option Nat :=
  let h := byteAt t 5
  let en := byteAt t 6
  let need := tokenNeeds (lcState s) en
  let vendor := (need.map (·.1)).getD false
  let owner := (need.map (·.2)).getD false
  let unused := (!owner && !(isZero (slice t 0x60 512) && isZero (slice t 0x460 512)))
    || (!vendor && !(isZero (slice t 0x260 512) && isZero (slice t 0x660 512)))
  if slice t 0 4 ≠ ascii "VXDT" ∨ byteAt t 4 ≠ 1 ∨ en = 0 ∨ 15 < en ∨ byteAt t 7 ≠ 0 ∨ fieldLe t 0x5C 4 ≠ 0 ∨ unused then
    some stBadDescriptor
  else if !s.enabled h then some stBadDescriptor
  else if slice t 8 16 ≠ serial16 s ∨ slice t 0x18 32 ≠ identityFp s then some stBinding
  else if s.flue.tokenChal ≠ some (slice t 0x38 32) then some stBinding
  else if need.isNone then some stState
  else if vendor ∧ sha256 (slice t 0x260 512) ≠ s.chim.fuses.vendorDbg then some stSigInvalid
  else if owner ∧ ((s.H h).slots.find? 255).map (fun r => slice r.recipe 0 32) ≠ some (sha256 (slice t 0x60 512)) then some stSigInvalid
  else if owner ∧ !pssOk (slice t 0x60 512) (slice t 0x460 512) (slice t 0 0x460) then some stSigInvalid
  else if vendor ∧ !pssOk (slice t 0x260 512) (slice t 0x660 512) (slice t 0 0x660) then some stSigInvalid
  else none

/-- The enables of an accepted token (R538): II waits for the hearth's next reset. -/
def grantEnables (h en validMs : Nat) (s : State) : State :=
  let s := s.modH h (fun x => { x with
    enables := x.enables ||| (en % 8), iiPending := x.iiPending || en.testBit 3
    dbgExpiry := if validMs = 0 then 0 else s.now + validMs })
  raiseFlue evDbgGranted dbgPage { inst := h } s

/-- The check of a token ends (R536, R538). -/
def doTokenDone (s : State) : State :=
  if !s.flueUp ∨ !s.flag dbgPage Reg.DBG_STATUS_BUSY then s
  else
    let t := s.flue.token
    let st := checkToken s t
    let s := (s.wr dbgPage Reg.DBG_STATUS_BUSY 0).wr dbgPage Reg.DBG_STATUS_CODE (st.getD stOK)
    let s := s.modFlue (fun x => { x with token := [], tokenChal := none })
    if st.isNone then grantEnables (byteAt t 5) (byteAt t 6) (fieldLe t 0x58 4) s else s

def execDbgTokenCheckDone (s : State) : Result := .next (doTokenDone s)

/-- DBG_CTRL.REVOKE (R539). -/
def execDbgRevoke (who : Requester) (data : Word) (s : State) : Result :=
  dbgRow who data.toNat (dropEnables (bits data.toNat 12 4) (bits data.toNat 8 4)) s

/-- A hearth's DBG_EXPIRY passes (R540). -/
def execDbgExpiry (h : Fin 16) (s : State) : Result :=
  .next (if (s.H h.val).dbgExpiry ≠ 0 ∧ (s.H h.val).dbgExpiry ≤ s.now then dropEnables h.val 15 s else s)

/-! ### Halts (R532, R533) -/

/-- The invasive enable of the core's world is in force. -/
def invasive (s : State) (h c : Nat) : Bool := (s.H h).enables.testBit (if (s.core h c).world = .outer then 1 else 3)

def execDebugHalt (h : Fin 16) (c : Fin 4) (s : State) : Result :=
  .next (if s.flueUp ∧ coreRuns s h.val c.val ∧ invasive s h.val c.val then
    s.modCore h.val c.val (fun x => { x with halted := true }) else s)

/-- A halted core resumes, or steps; a step is a resume followed by a halt. -/
def execDebugResume (h : Fin 16) (c : Fin 4) (s : State) : Result :=
  .next (if s.flueUp ∧ s.up h.val ∧ (s.core h.val c.val).halted ∧ invasive s h.val c.val ∧ (s.H h.val).fatal.isNone then
    s.modCore h.val c.val (fun x => { x with halted := false }) else s)

end Sys2Proof.Machine
end

