-- ==== Sys2Proof/Machine/Entropy.lean ====
section
/-! DEFINITION. The entropy source and its DRBG (R430 to R463): raw samples and health tests, conditioner, instantiation,
requests, reseeds, policy, and the ports of the two worlds. -/

namespace Sys2Proof.Machine

def State.ent (s : State) (h : Nat) : Entropy := (s.H h).ent
def State.modEnt (s : State) (h : Nat) (f : Entropy → Entropy) : State := s.modH h (fun x => { x with ent := f x.ent })

/-- ENT_STATUS.PAIRS_OK: none counts before the start-up test has ended (R461). -/
def pairsOk (e : Entropy) : Nat := if e.source = .starting ∧ e.testing ≠ 2 then 0 else 64 - popCount 64 e.removed

/-! ### Health tests (R434) -/

/-- One raw bit through the repetition count and the adaptive proportion test: the tests' state, and a failure. -/
def pairTest (t : PairTest) (b : Nat) : PairTest × Bool :=
  let run := if b = t.last then t.run + 1 else 1
  let (first, count, pos) := if t.pos = 0 then (b, 1, 1) else (t.first, t.count + (if b = t.first then 1 else 0), t.pos + 1)
  ({ last := b, run := run, first := first, count := count, pos := if pos = 1024 then 0 else pos },
    decide (81 ≤ run) || decide (917 ≤ count))

/-- The source is declared failed (R437, R450, R451). -/
def sourceFail (h : Nat) (s : State) : State :=
  let lenient := s.flag (entPage h) Reg.ENT_CTRL_POLICY
  let s := s.modEnt h (fun e =>
    { e with
      source := .failed
      testing := if e.testing = 3 then 0 else e.testing
      drbg := if e.drbg = .uninstantiated ∨ e.drbg = .stopped then e.drbg
        else if lenient ∧ e.requests < reqLimit then .holdover else .stopped })
  raiseH h evSourceFail (entPage h) { payload := captureBytes (entPage h) s } s

/-- A pair fails (R436, R437). -/
def pairFail (h p : Nat) (s : State) : State :=
  let s := s.modEnt h (fun e => { e with removed := setBit e.removed p true, coll := 0, collN := 0, pool := [] })
  let s := errReg h (entPage h) Reg.ENT_HEALTH_FAILS_COUNT 194 s
  let s := raiseH h evPairFail (entPage h) { inst := p, payload := captureBytes (entPage h) s } s
  let e := s.ent h
  if e.source = .healthy ∧ pairsOk e < 48 then sourceFail h s else s

/-- One pair's raw bit: its tests, and what a failure brings. A pair under RETEST or RESTART only fails its test. -/
def samplePair (h p b : Nat) (ring : Bool) (s : State) : State :=
  let e := s.ent h
  let under := e.testing ≠ 0 ∧ (e.testing = 1 ∨ e.under.testBit p)
  if e.removed.testBit p ∧ !under then s
  else
    let (t, f) := pairTest (e.tests.getD p {}) b
    let s := s.modEnt h (fun e => { e with tests := e.tests.put p t })
    if !(f || ring) then s
    else if e.testing ≠ 0 ∧ e.testing ≠ 1 ∧ e.under.testBit p then
      s.modEnt h (fun e => { e with testFails := setBit e.testFails p true })
    else if e.removed.testBit p then s
    else pairFail h p s

/-- The bits of the healthy pairs, in rising pair order, with how many they are (R432). -/
def healthyBits (removed bits : Nat) : Nat × Nat :=
  (List.range 64).foldl (fun a p => if removed.testBit p then a else (a.1 + b2n (bits.testBit p) * 2 ^ a.2, a.2 + 1)) (0, 0)

/-- One strobe (R430, R432, R434): the tests of every pair, then the collection register. Sampling pauses in H1 (R442); it
stands still while no test runs and the source has not started. -/
def doRawSample (h bits rings : Nat) (s : State) : State :=
  let e := s.ent h
  if !s.up h ∨ (s.H h).power ≠ 0 ∨ (e.source = .starting ∧ e.testing = 0) then s
  else
    let s := (List.range 64).foldl (fun s p => samplePair h p (b2n (bits.testBit p)) (rings.testBit p) s) s
    let sel := s.rd (entPage h) Reg.ENT_RAW_SEL_PAIR
    s.modEnt h (fun e =>
      let (v, n) := healthyBits e.removed bits
      let take := e.source == .healthy && decide (e.pool.length < 5) && decide (e.collN < 768)
      { e with
        testPos := if e.testing = 0 then e.testPos else e.testPos + 1
        raw := if e.rawN < 32 then e.raw + b2n (bits.testBit sel) * 2 ^ e.rawN else e.raw
        rawN := min 32 (e.rawN + 1)
        coll := if take then e.coll + v * 2 ^ e.collN else e.coll
        collN := if take then e.collN + n else e.collN })

def execRawSample (h : Fin 16) (bits rings : BitVec 64) (s : State) : Result :=
  .next (doRawSample h.val bits.toNat rings.toNat s)

/-- The conditioner's block (R432): the AES-256 CBC-MAC of the collected 768 bits. -/
def doConditioner (h : Nat) (s : State) : State :=
  let e := s.ent h
  if !s.up h ∨ (s.H h).power ≠ 0 ∨ e.source ≠ .healthy ∨ e.collN < 768 ∨ 5 ≤ e.pool.length then s
  else
    let b := bcc (slice Config.conditionerKey 0 32) (toLe 96 (e.coll % 2 ^ 768))
    s.modEnt h (fun e => { e with pool := e.pool ++ [b], coll := e.coll / 2 ^ 768, collN := e.collN - 768 })

def execConditionerBlock (h : Fin 16) (s : State) : Result := .next (doConditioner h.val s)

/-! ### Start-up, RETEST, RESTART (R438 to R442, R455) -/

/-- The start-up test ends after 4,096 raw bits of each pair (R439, R440). -/
def doStartupDone (h : Nat) (s : State) : State :=
  let e := s.ent h
  if !s.up h ∨ e.testing ≠ 1 ∨ e.testPos < 4096 then s
  else
    let s := s.modEnt h (fun e => { e with testing := 0, source := .healthy, tests := [], coll := 0, collN := 0 })
    if 64 - popCount 64 e.removed < 48 then sourceFail h s else s

def execStartupTestDone (h : Fin 16) (s : State) : Result := .next (doStartupDone h.val s)

/-- The end of a RETEST or RESTART (R438, R455). -/
def doTestDone (h : Nat) (s : State) : State :=
  let e := s.ent h
  if !s.up h ∨ ¬(e.testing = 2 ∨ e.testing = 3) ∨ e.testPos < 4096 then s
  else if e.testing = 3 then
    s.modEnt h (fun e => { e with testing := 0, removed := e.removed &&& e.testFails, under := 0, testFails := 0 })
  else
    let fresh := (List.range 64).filter (fun p => e.testFails.testBit p && !e.removed.testBit p)
    let s := s.modEnt h (fun e =>
      { e with testing := 0, removed := e.removed &&& e.testFails, under := 0, testFails := 0, source := .failed,
               coll := 0, collN := 0, pool := [], tests := [] })
    let s := fresh.foldl (fun s p => pairFail h p s) s
    if 64 - popCount 64 (s.ent h).removed < 48 then sourceFail h s
    else
      let s := s.modEnt h (fun e => { e with source := .healthy })
      raiseH h evEntRecovered (entPage h) { payload := captureBytes (entPage h) s } s

def execEntTestDone (h : Fin 16) (s : State) : Result := .next (doTestDone h.val s)

/-- ENT_CTRL.RESTART and RETEST (R438, R461). -/
def doEntTest (h : Nat) (restart : Bool) (who : Requester) (s : State) : State :=
  let p := entPage h
  let d := if restart then 2 else 4
  let want := if restart then SourceState.failed else SourceState.healthy
  if !mgrOrInner who then refuse p who 0x040 d cRequester s
  else if (s.ent h).source ≠ want then refuse p who 0x040 d cState s
  else s.modEnt h (fun e =>
    { e with testing := if restart then 2 else 3, testPos := 0, testFails := 0,
             under := if restart then 2 ^ 64 - 1 else e.removed, source := if restart then .starting else e.source,
             tests := e.tests.filter (fun t => !(restart || e.removed.testBit t.1)) })

def execEntRestart (h : Fin 16) (who : Requester) (s : State) : Result := .next (onHearth h.val (doEntTest h.val true who) s)
def execEntRetest (h : Fin 16) (who : Requester) (s : State) : Result := .next (onHearth h.val (doEntTest h.val false who) s)

/-! ### The DRBG's own steps -/

/-- Instantiation (R439 step 4, R443): entropy, nonce and personalisation through the derivation function; the fifth block
keys the core's mask generator. -/
def doInstantiate (h : Nat) (s : State) : State :=
  let e := s.ent h
  if !s.up h ∨ e.drbg ≠ .uninstantiated ∨ e.source ≠ .healthy ∨ e.pool.length < 5 then s
  else
    let pers := padTo 16 s.chim.fuses.serial ++ [byte h] ++ zeros 15
    let (k, v) := drbgUpdate (zeros 32) (zeros 16) (drbgDf ((e.pool.take 4).flatten ++ pers))
    let s := s.modEnt h (fun e =>
      { e with key := k, v := v, core := e.pool.getD 4 [], pool := e.pool.drop 5, requests := 0, drbg := .running })
    s.wr (entPage h) Reg.ENT_LAST_RESEED_TIME s.now

def execDrbgInstantiate (h : Fin 16) (s : State) : Result := .next (doInstantiate h.val s)

/-- A reseed that is due (R446, R447, R455): by period, at the count's end, or after a recovery. -/
def doReseed (h : Nat) (s : State) : State :=
  let e := s.ent h
  let due := decide (s.reseedPeriod h ≤ e.requests) || e.drbg == .holdover || e.drbg == .stopped
  if s.up h && e.drbg != .uninstantiated && due && canReseed e then
    drbgReseed h s
  else s

def execDrbgReseed (h : Fin 16) (s : State) : Result := .next (doReseed h.val s)

/-- A class-5 request (R448, R459): it refills the port buffers that hold fewer than 32 bytes; output no buffer takes is
discarded. -/
def doGenerate (h n : Nat) (s : State) : State :=
  if !s.up h ∨ n = 0 ∨ 65536 < n then s
  else
    match drbgLower h n false s with
    | none => s
    | some (out, s) =>
      s.modEnt h (fun e =>
        if e.bufIn.length < 32 then { e with bufIn := e.bufIn ++ out.take (64 - e.bufIn.length) }
        else if e.bufOut.length < 32 then { e with bufOut := e.bufOut ++ out.take (64 - e.bufOut.length) }
        else e)

def execDrbgGenerate (h : Fin 16) (bytes : Nat) (s : State) : Result := .next (doGenerate h.val bytes s)

/-- ENT_CTRL.POLICY (R449, R454). -/
def doPolicy (h : Nat) (who : Requester) (d : Nat) (s : State) : State :=
  let p := entPage h
  if !mgrOrInner who then refuse p who 0x040 d cRequester s
  else
    let s := setFields p [(Reg.ENT_CTRL_POLICY, d % 2)] s
    s.modEnt h (fun e =>
      if d % 2 = 1 ∧ e.drbg = .stopped ∧ e.requests < reqLimit then { e with drbg := .holdover }
      else if d % 2 = 0 ∧ e.drbg = .holdover then { e with drbg := .stopped }
      else e)

def execEntPolicyWrite (h : Fin 16) (who : Requester) (data : Word) (s : State) : Result :=
  .next (onHearth h.val (doPolicy h.val who data.toNat) s)

/-! ### Ports (R458, R460) -/

/-- A read of ENT_DATA_IN or ENT_DATA_OUT. -/
def doDataRead (h : Nat) (who : Requester) (outer : Bool) (s : State) : State :=
  let p := entPage h
  let off := if outer then 0x04C else 0x048
  if !(if outer then isOuter who else isInner who) then
    (capture p who off 0 (reqIdentity who) true cRead s).emit (.readData (zeros 4))
  else
    let e := s.ent h
    let b := if outer then e.bufOut else e.bufIn
    if b.length < 4 then
      (s.wr p (if outer then Reg.ENT_STATUS_EMPTY_OUT else Reg.ENT_STATUS_EMPTY_IN) 1).emit (.readData (zeros 4))
    else
      (s.modEnt h (fun e => if outer then { e with bufOut := b.drop 4 } else { e with bufIn := b.drop 4 })).emit
        (.readData (b.take 4))

def execEntDataRead (h : Fin 16) (who : Requester) (outer : Bool) (s : State) : Result :=
  .next (if s.answers h.val then doDataRead h.val who outer (wakeHearth h.val s) else s.emit (.readData (zeros 4)))

/-- A read of ENT_RAW: the next 32 raw bits of the selected pair, bit 0 first; it waits until they have been sampled. -/
def doRawRead (h : Nat) (s : State) : State :=
  let e := s.ent h
  if !inVendorTest s then s.emit (.readData (zeros 4))
  else if e.rawN < 32 then s
  else (s.modEnt h (fun e => { e with raw := 0, rawN := 0 })).emit (.readData (toLe 4 e.raw))

def execEntRawRead (h : Fin 16) (who : Requester) (s : State) : Result :=
  .next (match who with
    | .vf _ => s
    | _ => if s.answers h.val then doRawRead h.val (wakeHearth h.val s) else s.emit (.readData (zeros 4)))

end Sys2Proof.Machine
end

