-- ==== Sys2Proof/Machine/JobOps.lean ====
section
/-! DEFINITION. The opcodes of classes 0x02xx to 0x06xx and the key-block opcodes as queued jobs: each runs its engine's
function on the job's keys, parameters and input. -/

namespace Sys2Proof.Machine

/-! ### Cipher jobs (R218 to R231, R246 to R249) -/

/-- The settings of a cipher job from its descriptor, keys and nonce. A hardware nonce of CTR is followed by the counter 1. -/
def cipherJobOf (jb : Job) (dec : Bool) : CipherJob :=
  let d := jb.desc
  let p := dParam d
  let hw := dNonceSrc d != 0
  { alg := (key0 jb).attr.alg
    mode := pMode p
    dec := dec
    k1 := (key0 jb).mat
    k2 := (key1 jb).mat
    iv := if hw then jb.nonce ++ toBe 4 1 else qIv d
    nonceLen := cNonceLen p (dNonceSrc d)
    tagLen := cTag p
    aad := qAad d
    du := qDu d
    tag := qTag d }

/-- ENCRYPT and DECRYPT: pointer form writes the output buffer, inline ECB answers in RESULT. -/
def runCipher (dec : Bool) (_ : State) (jb : Job) (inp : Bytes) : Ran :=
  if !dPtr jb.desc then
    let r := cipherRun { alg := (key0 jb).attr.alg, mode := mECB, dec := dec, k1 := (key0 jb).mat } inp
    { result := some (padTo 16 r.out) }
  else
    let r := cipherRun (cipherJobOf jb dec) inp
    { status := r.status, out := r.out }

/-- A failed decryption leaves zeros where its plaintext stood (R226). -/
def wipeFailed (h j n : Nat) (s : State) : State :=
  s.modJob h j (fun x => if x.status = stTagMismatch then { x with wipe := n } else x)

/-- The bytes that a failed DECRYPT had streamed. -/
def decLen (s : State) (h j : Nat) : Nat :=
  match s.job? h j with
  | some jb => if dPtr jb.desc then cipherOut jb.desc true else 0
  | none => 0

def execEncrypt (h : Fin 16) (j : Fin 2048) (inp : Dma) (s : State) : Result :=
  .next (runWith h.val j.val 0x0201 inp (runCipher false) s)

def execDecrypt (h : Fin 16) (j : Fin 2048) (inp : Dma) (s : State) : Result :=
  .next (match runnable s h.val j.val 0x0202 with
    | some _ => wipeFailed h.val j.val (decLen s h.val j.val) (runWith h.val j.val 0x0202 inp (runCipher true) s)
    | none => s)

/-! ### Hashes and MACs (R227 to R231) -/

def runHash (_ : State) (jb : Job) (inp : Bytes) : Ran := { out := hashRun (dParam jb.desc) 0 inp }

def execHash (h : Fin 16) (j : Fin 2048) (inp : Dma) (s : State) : Result :=
  .next (runWith h.val j.val 0x0301 inp runHash s)

def runXof (_ : State) (jb : Job) (inp : Bytes) : Ran := { out := hashRun (dParam jb.desc) (dOutLen jb.desc) inp }

def execXof (h : Fin 16) (j : Fin 2048) (inp : Dma) (s : State) : Result :=
  .next (runWith h.val j.val 0x0302 inp runXof s)

/-- The MAC of a job over a message. -/
def jobMac (jb : Job) (msg : Bytes) : Bytes :=
  let d := jb.desc
  let p := dParam d
  macRun (pMac p) (pFunc p) (key0 jb).attr.alg (key0 jb).mat (if dNonceSrc d ≠ 0 then jb.nonce else qIv d)
    (macTagLen p (isTdes (key0 jb).attr.alg)) msg

def runMacGen (_ : State) (jb : Job) (inp : Bytes) : Ran :=
  if dPtr jb.desc then { out := jobMac jb inp } else { result := some (padTo 16 (jobMac jb inp)) }

def execMacGenerate (h : Fin 16) (j : Fin 2048) (inp : Dma) (s : State) : Result :=
  .next (runWith h.val j.val 0x0303 inp runMacGen s)

/-- MAC_VERIFY: where the expected tag stands is R230 and R231. -/
def runMacVer (_ : State) (jb : Job) (inp : Bytes) : Ran :=
  let d := jb.desc
  let t := macTagLen (dParam d) (isTdes (key0 jb).attr.alg)
  let ok :=
    if dPtr d then
      let n := macHead d
      jobMac jb (inp.drop n) == slice (qTag d ++ inp.take n) 0 t
    else
      let n := inp.length - t
      jobMac jb (inp.take n) == slice (inp.drop n) 0 t
  if ok then {} else .fail stTagMismatch

def execMacVerify (h : Fin 16) (j : Fin 2048) (inp : Dma) (s : State) : Result :=
  .next (runWith h.val j.val 0x0304 inp runMacVer s)

/-! ### Public-key jobs (R347 to R355, R363, R367, R368) -/

/-- The attempt limit of the engine the job runs on (R363): values below 814 act as 814. -/
def attemptLimit (s : State) (h : Nat) (jb : Job) : Nat :=
  max 814 (s.rd (pgU h ((jb.units.filter isBn).getD 0 12)) Reg.BN_LIMIT_ATTEMPTS)

def ofPk (r : PkOut) : Ran := { status := r.status, out := r.out, attempts := r.tries }

def runSign (h : Nat) (s : State) (jb : Job) (inp : Bytes) : Ran :=
  let k := key0 jb
  ofPk (pkSign k.attr.alg k.attr.bits k.mat (dParam jb.desc) jb.rand (attemptLimit s h jb) inp)

def execPkSign (h : Fin 16) (j : Fin 2048) (inp : Dma) (s : State) : Result :=
  .next (runWith h.val j.val 0x0401 inp (runSign h.val) s)

def runVerify (_ : State) (jb : Job) (inp : Bytes) : Ran :=
  let d := jb.desc
  if rKind (dRef d 0) = kNone then
    let a := parseAttrs (dParams d)
    let n := publicKeyLen a.alg a.bits
    let sl := signatureLen a.alg a.bits
    ofPk (pkVerify a.alg a.bits (some (inp.take n)) [] (dParam d) (slice inp n sl) (inp.drop (n + sl)))
  else
    let k := key0 jb
    let sl := signatureLen k.attr.alg k.attr.bits
    ofPk (pkVerify k.attr.alg k.attr.bits none k.mat (dParam d) (inp.take sl) (inp.drop sl))

def execPkVerify (h : Fin 16) (j : Fin 2048) (inp : Dma) (s : State) : Result :=
  .next (runWith h.val j.val 0x0402 inp runVerify s)

def runPublic (_ : State) (jb : Job) : Ran := { out := publicKey (key0 jb).attr.alg (key0 jb).attr.bits (key0 jb).mat }

def execPkPublic (h : Fin 16) (j : Fin 2048) (s : State) : Result := .next (runPlain h.val j.val 0x0403 runPublic s)

/-- A public-key function's secret as a new key. -/
def pkKey (h : Nat) (s : State) (jb : Job) (r : PkOut) : Ran :=
  if r.status ≠ stOK then .fail r.status
  else
    let a := parseAttrs (dParams jb.desc)
    { out := r.out, newKey := some (newEntry s h jb.vf a false r.mat, r.mat) }

def runAgree (h : Nat) (s : State) (jb : Job) (inp : Bytes) : Ran := pkKey h s jb (pkAgree (key0 jb).attr.alg (key0 jb).mat inp)

def execKeyAgree (h : Fin 16) (j : Fin 2048) (inp : Dma) (s : State) : Result :=
  .next (runWith h.val j.val 0x0404 inp (runAgree h.val) s)

def runEncaps (h : Nat) (s : State) (jb : Job) (inp : Bytes) : Ran :=
  pkKey h s jb (pkEncaps ((kemSetOf inp.length).getD 512) inp jb.rand)

def execKemEncaps (h : Fin 16) (j : Fin 2048) (inp : Dma) (s : State) : Result :=
  .next (runWith h.val j.val 0x0405 inp (runEncaps h.val) s)

def runDecaps (h : Nat) (s : State) (jb : Job) (inp : Bytes) : Ran :=
  pkKey h s jb (pkDecaps (key0 jb).attr.bits (key0 jb).mat inp)

def execKemDecaps (h : Fin 16) (j : Fin 2048) (inp : Dma) (s : State) : Result :=
  .next (runWith h.val j.val 0x0406 inp (runDecaps h.val) s)

def runOaep (h : Nat) (s : State) (jb : Job) (inp : Bytes) : Ran :=
  let a := parseAttrs (dParams jb.desc)
  pkKey h s jb (pkOaep (key0 jb).attr.bits (pHash (dParam jb.desc)) (key0 jb).mat inp ((matLen a.alg a.bits).getD 0))

def execRsaOaepImport (h : Fin 16) (j : Fin 2048) (inp : Dma) (s : State) : Result :=
  .next (runWith h.val j.val 0x0407 inp (runOaep h.val) s)

/-- The next engine that CLEAR_OPERANDS clears: one in rotation whose last holder is the VF's owner (R381, R391). -/
def nextClear (s : State) (h : Nat) (jb : Job) : Option Nat :=
  (classUnits 2).find? (fun u =>
    decide (12 + jb.cleared ≤ u) && (s.eng h u).lastOwner == s.ft jb.vf Reg.FT_OWNER_ID && !(s.eng h u).offline)

/-- An engine under the lock of CLEAR_OPERANDS is clear, and released (R381). -/
def clearUnit (h j u : Nat) (jb : Job) (s : State) : State :=
  let s := addCtr h (128 + u) 8192 (addCtr h (64 + s.posOf jb.vf) 8192 (clearLines h (u - 12) 0 2048 s))
  releaseUnits h [u] (s.modJob h j (fun x => { x with units := [], cleared := u - 11 }))

/-- CLEAR_OPERANDS (R381): of the engines whose last holder is the VF's owner, the lock of the next one is taken once it is free, or the
one taken is cleared and released; after the last one the job ends. -/
def runClear (h j : Nat) (s : State) : State :=
  match runnable s h j 0x04F0 with
  | none => s
  | some jb =>
    let s := match jb.units.head? with
      | some u => clearUnit h j u jb s
      | none => s
    let jb := (s.job? h j).getD jb
    match nextClear s h jb with
    | none => ran h j (fun x => { x with status := stOK }) s
    | some u =>
      if unitFree s h u then (takeUnits h j jb.vf (fun _ _ => false) [u] s).modJob h j (fun x => { x with units := [u] })
      else s

def execClearOperands (h : Fin 16) (j : Fin 2048) (s : State) : Result := .next (runClear h.val j.val s)

/-! ### Payment jobs (R290 to R329) -/

/-- A hob function's outcome: RESULT left-aligned, or the hob result code of a VERIFY_FAILED (R291, R295). -/
def ofHob (r : HobOut) : Ran :=
  { status := r.status
    result := if r.status = stVerifyFailed then some (toLe 2 r.code)
      else if r.status = stOK ∧ !r.result.isEmpty then some (padTo 16 r.result) else none }

def runPin (op : Nat) (_ : State) (jb : Job) : Ran :=
  ofHob (pinRun op (dParam jb.desc) (dOperands jb.desc) jb.latch (key0 jb).mat (key1 jb).mat jb.rand)

def execPinTranslate (h : Fin 16) (j : Fin 2048) (s : State) : Result := .next (runPlain h.val j.val 0x0501 (runPin 0x0501) s)
def execPinVerify (h : Fin 16) (j : Fin 2048) (s : State) : Result := .next (runPlain h.val j.val 0x0502 (runPin 0x0502) s)
def execPinValueCalc (h : Fin 16) (j : Fin 2048) (s : State) : Result := .next (runPlain h.val j.val 0x0503 (runPin 0x0503) s)

def runCard (op : Nat) (_ : State) (jb : Job) : Ran := ofHob (cardRun op (dOperands jb.desc) (key0 jb).mat)

def execCardValueGenerate (h : Fin 16) (j : Fin 2048) (s : State) : Result :=
  .next (runPlain h.val j.val 0x0510 (runCard 0x0510) s)
def execCardValueVerify (h : Fin 16) (j : Fin 2048) (s : State) : Result :=
  .next (runPlain h.val j.val 0x0511 (runCard 0x0511) s)

def runPayMac (op : Nat) (_ : State) (jb : Job) (inp : Bytes) : Ran :=
  ofHob (payMacRun op (dParam jb.desc) (dParams jb.desc) inp (key0 jb).attr (key0 jb).mat)

def execPayMacGenerate (h : Fin 16) (j : Fin 2048) (inp : Dma) (s : State) : Result :=
  .next (runWith h.val j.val 0x0520 inp (runPayMac 0x0520) s)
def execPayMacVerify (h : Fin 16) (j : Fin 2048) (inp : Dma) (s : State) : Result :=
  .next (runWith h.val j.val 0x0521 inp (runPayMac 0x0521) s)

def runEmv (_ : State) (jb : Job) (inp : Bytes) : Ran :=
  ofHob (emvRun (dParam jb.desc) (dParams jb.desc) inp (key0 jb).attr (key0 jb).mat)

def execEmvCryptogram (h : Fin 16) (j : Fin 2048) (inp : Dma) (s : State) : Result :=
  .next (runWith h.val j.val 0x0530 inp runEmv s)

/-- KEYBLOCK_IMPORT (R327, R328). -/
def runBlockImport (h : Nat) (s : State) (jb : Job) (inp : Bytes) : Ran :=
  let p := dParam jb.desc
  let k := key0 jb
  match keyBlockImport k.attr.alg k.mat (p % 256) inp with
  | .error st => .fail st
  | .ok (alg, u, ex, mat) =>
    let any := p.testBit 8
    let a : AttrOp :=
      { alg := alg, usage := u, flags := b2n ex + (if any then 32 else 0), bits := 8 * mat.length,
        vfA := if any then 0xFFFF else jb.vf, vfB := 0xFFFF, limit := 0, expiry := 0, label := [], clean := true }
    { newKey := some (newEntry s h jb.vf a false mat, mat) }

def execKeyblockImport (h : Fin 16) (j : Fin 2048) (inp : Dma) (s : State) : Result :=
  .next (runWith h.val j.val 0x0120 inp (runBlockImport h.val) s)

/-- KEYBLOCK_EXPORT (R329). -/
def runBlockExport (_ : State) (jb : Job) : Ran :=
  { out := keyBlockExport (key1 jb).attr.alg (key1 jb).mat (key0 jb).attr (key0 jb).mat (dParam jb.desc) jb.rand }

def execKeyblockExport (h : Fin 16) (j : Fin 2048) (inp : Dma) (s : State) : Result :=
  .next (runWith h.val j.val 0x0121 inp (fun s jb _ => runBlockExport s jb) s)

/-! ### Random opcodes (R462, R463) -/

/-- The bytes a RANDOM_GENERATE asks for. -/
def randomLen (d : Bytes) : Nat := if dPtr d then dOutLen d else dParam d % 32

/-- The job's next request (R448, R463): at most 64 KiB, the first with a reseed under PR. -/
def randomRequest (h : Nat) (jb : Job) (s : State) : Option (Bytes × State) :=
  drbgLower h (min 65536 (randomLen jb.desc - jb.rand.length)) ((dParam jb.desc).testBit 8 && jb.rand.isEmpty) s

/-- RANDOM_GENERATE: one request of the job, between two of which a higher class is served; a job that the DRBG does not serve keeps
what it has drawn and waits (R448, R463). -/
def runRandom (h j : Nat) (s : State) : State :=
  match runnable s h j 0x0601 with
  | none => s
  | some jb =>
    match randomRequest h jb s with
    | none => s
    | some (r, s) =>
      let d := jb.desc
      let b := jb.rand ++ r
      if b.length < randomLen d then s.modJob h j (fun x => { x with rand := b })
      else ran h j (fun x =>
        { x with status := stOK, rand := [], outData := if dPtr d then b else [], result := if dPtr d then [] else padTo 16 b,
                 hasResult := !dPtr d }) s

def execRandomGenerate (h : Fin 16) (j : Fin 2048) (s : State) : Result := .next (runRandom h.val j.val s)

/-- The codes of ENT_STATUS (R461). -/
def SourceState.code : SourceState → Nat
  | .starting => 0 | .healthy => 1 | .failed => 2

def DrbgState.code : DrbgState → Nat
  | .uninstantiated => 0 | .running => 1 | .holdover => 2 | .stopped => 3

def runEntStatus (h : Nat) (s : State) (_ : Job) : Ran :=
  let e := (s.H h).ent
  { result := some ([byte e.source.code, byte e.drbg.code, byte (pairsOk e), byte (s.rd (entPage h) Reg.ENT_CTRL_POLICY)]
      ++ zeros 12) }

def execEntropyStatus (h : Fin 16) (j : Fin 2048) (s : State) : Result :=
  .next (runPlain h.val j.val 0x0602 (runEntStatus h.val) s)

end Sys2Proof.Machine
end

