-- ==== Sys2Proof/Machine/Start.lean ====
section
/-! DEFINITION. Firmware images (R681 to R685), the reset and the start of a hearth (R689 to R694, R562, R563, R422, R214),
and the anti-rollback and configuration fuses (R686 to R688, R704). -/

namespace Sys2Proof.Machine

/-! ### Images -/

def kindFlue : Nat := 1
def kindInner : Nat := 2
def kindOuter : Nat := 3

/-- The body limit of a kind (R682). -/
def bodyLimit (k : Nat) : Nat := if k = 1 then 2 ^ 20 else if k = 2 then 384 * 1024 else 320 * 1024

/-- R685. -/
def kindPermitted (s : State) (k : Nat) : Bool :=
  let l := lcState s
  if k = 1 then true
  else if k = 2 then l != lcBlank && l != lcDecommissioned
  else l == lcVendorTest || l == lcOwned || l == lcOperational

/-- The value of an anti-rollback counter: FLUE, INNER, OUTER (R686). -/
def arbValue (f : Fuses) (k : Nat) : Nat := if k = 1 then f.arbFlue else if k = 2 then f.arbInner else f.arbOuter

/-- An outer image of an owned part is countersigned by the update authority (R682). -/
def needsCounter (s : State) (k : Nat) : Bool := k == 3 && lcState s != lcVendorTest

/-- The digest of the update authority: the LABEL of slot 255's record in the hearth (R682). -/
def authorityDigest (x : Hearth) : Option Bytes := (x.slots.find? 255).map (fun r => slice r.recipe 0 32)

/-- The image checks in their order (R683): the status of the first that fails. -/
def checkImage (s : State) (k h : Nat) (m : Bytes) : Option Nat :=
  let body := fieldLe m 8 4
  let pub := slice m 0x80 512
  let cpub := slice m 0x280 512
  if m.length ≠ 2176 + body ∨ bodyLimit k < body then some stBadLength
  else if slice m 0 4 ≠ ascii "VXFW" ∨ byteAt m 4 ≠ 1 ∨ byteAt m 5 ≠ k ∨ 128 < byteAt m 6 ∨ byteAt m 7 ≠ 0
      ∨ !isZero (slice m 0x60 32) ∨ body ≤ fieldLe m 12 4 then some stBadDescriptor
  else if !kindPermitted s k then some stState
  else if !isZero (slice m 0x10 16) ∧ slice m 0x10 16 ≠ serial16 s then some stBinding
  else if !needsCounter s k ∧ sha256 pub ≠ s.chim.fuses.vendorFw then some stSigInvalid
  else if !pssOk pub (slice m 0x480 512) (slice m 0 0x480) then some stSigInvalid
  else if sha512 (m.drop 2176) ≠ slice m 0x20 64 then some stSigInvalid
  else if (if needsCounter s k then
        some (sha256 cpub) ≠ authorityDigest (s.H h) ∨ !pssOk cpub (slice m 0x680 512) (slice m 0 0x680)
      else !isZero cpub ∨ !isZero (slice m 0x680 512)) then some stSigInvalid
  else if byteAt m 6 < arbValue s.chim.fuses k then some stRollback
  else none

/-- The event of a check's outcome (R683). -/
def imageEvent (ok : Bool) (inst : Nat) (s : State) : State :=
  raiseFlue (if ok then evImageAccepted else evImageRejected) (pgF .flueEvents) { inst := inst } s

/-! ### Hearth reset -/

/-- The test root applies (R212): II in force, or VENDOR_TEST. -/
def rootIsTest (s : State) (h : Nat) : Bool := (s.H h).enables.testBit 3 || inVendorTest s

/-- The ember that the lifecycle lets a hearth load, in its two shares as they cross from the vault (R137, R142, R561). -/
def emberAtStart (s : State) (h : Nat) : Option Shared :=
  if lcState s = lcOwned ∨ lcState s = lcOperational then s.chim.vault.embers.find? h else none

/-- The root that R561 gives a hearth at its next start. -/
def rootAtStart (s : State) (h : Nat) : Option Bytes :=
  if rootIsTest s h then some testRootBytes else (emberAtStart s h).map Shared.value

/-- The key of a range (R476). -/
def rangeKey (root : Bytes) (h r gen : Nat) : Bytes := internalKey root "mem range" h r gen 64

/-- What a hearth reset or the loss of the hearth's power does to one range (R214, R479, R562): an integrity range and one that
initialises break; a confidential one keeps its contents where its key derives again. -/
def dropRange (h r : Nat) (change : Bool) (s : State) : State :=
  let g := s.range h r
  let st := s.rangeState h r
  let again := (rootAtStart s h).map (fun root => rangeKey root h r g.gen) == some g.key
  let lost := st == rsInit || (st == rsActive && (g.mode == 2 || (g.mode == 1 && (change || !again))))
  let s := s.modMem h (fun m => { m with ranges := m.ranges.upd r (fun g => { g with ctrs := [] }) })
  if !lost then s
  else breakRange h r (if change ∨ (g.mode = 1 ∧ st = rsActive) then causeRootChange else causeRootLost) false s

def dropRanges (h : Nat) (change : Bool) (s : State) : State :=
  (List.range 8).foldl (fun s r => dropRange h r change s) s

/-- The pages of a hearth at their reset values (R722, R694). The ranges keep the state R479 gives them. -/
def resetHearthPages (h : Nat) (s : State) : State :=
  let keep := (List.range 8).map (fun r => (s.rangeState h r, s.rd (memPage h) (Reg.RNG_STATUS_CAUSE r)))
  let s := s.resetPages (fun k => decide (PageKind.stoker.ctorIdx ≤ keyKind k) && keyUnit k == h)
  (keep.zipIdx).foldl (fun s e =>
    (s.wr (memPage h) (Reg.RNG_STATUS_STATE e.2) e.1.1).wr (memPage h) (Reg.RNG_STATUS_CAUSE e.2) e.1.2) s

/-- II_PENDING takes effect at a hearth reset (R538). -/
def takePending (x : Hearth) : Hearth :=
  if x.iiPending then { x with enables := setBit x.enables 3 true, iiPending := false } else x

/-- What of a hearth outlives a reset (R562, R660, R664, R699): its jobs' completions, the group numbers, the debug enables, the
contents of the DDR devices and of the tightly coupled RAM, and the strap. -/
def hearthRest (x : Hearth) (compat : Bool) : Hearth :=
  { jobs := x.jobs, fetchSeq := x.fetchSeq, nextGroup := x.nextGroup, needStart := x.needStart, compat := compat
    enables := x.enables, dbgExpiry := x.dbgExpiry, strap := x.strap, tcmIn := x.tcmIn, tcmOut := x.tcmOut
    mem := { ddr := x.mem.ddr, poison := x.mem.poison, ranges := x.mem.ranges }
    dump := { base := x.dump.base }, pwrTarget := Reg.PWR_CTRL_TARGET.reset, profile := x.strap }

/-- The HEARTH_START that waits for a hearth completes with a status. -/
def endStart (h status : Nat) (s : State) : State :=
  ((s.flue.held.filter (fun p => p.2.isStart && p.2.hearth == h)).map (fun p => p.1)).foldl
    (fun s k => finishAdmin k status false s) s

/-- A hearth without running images (R689, R707). -/
def clearImages (h : Nat) (s : State) : State :=
  let p := pgF .flueBoot
  ((s.wr p (Reg.HEARTH_STATE_SVN_INNER h) 0).wr p (Reg.HEARTH_STATE_SVN_OUTER h) 0).wr p (Reg.HEARTH_STATE_OUTER h) 0

/-- A hearth reset (R562, R692): its jobs complete with the status, its groups end, and it waits in RESET. -/
def hearthReset (h status : Nat) (s : State) : State :=
  let s := endStart h status s
  let s := endGroups h status (failAllJobs h status s)
  let s := s.modH h takePending
  let s := dropRanges h ((s.H h).testRoot != rootIsTest s h) s
  let s := s.modH h (fun x => { hearthRest x (s.chim.fuses.compat.testBit h) with testRoot := rootIsTest s h })
  let s := resetHearthPages h s
  let s := s.wr (pgH .power h) Reg.PWR_CTRL_PROFILE (s.H h).strap
  (clearImages h s).setHState h hsReset

/-! ### Hearth start -/

def hobUnits (s : State) : List Nat := if s.variant.hob then List.range 20 else List.range 16

/-- The first steps of R693: clocks on, pages at their reset values, core 0 at the boot ROM, the entropy source starting, a
known-answer test asked of every unit, the image in the inner world's RAM. Where the root changes, R214 applies. -/
def beginStart (h : Nat) (img : Bytes) (s : State) : State :=
  let s := s.modH h takePending
  let s := if (s.H h).testRoot != rootIsTest s h then dropRanges h true s else s
  let s := resetHearthPages h s
  let s := s.wr (pgH .power h) Reg.PWR_CTRL_PROFILE (s.H h).strap
  let ember := if isolating s then none else emberAtStart s h
  let s := s.modH h (fun x => { hearthRest x x.compat with
    needStart := false, testRoot := rootIsTest s h, shadow := ember, ent := { testing := 1 }, compatLock := x.compatLock
    engines := (hobUnits s).foldl (fun t u => t.put u { katPending := true, katReturns := true }) ([] : Tab Engine)
    imageInner := some (byteAt img 6, img), tcmIn := memPut x.tcmIn 0 (img.drop 2176) })
  (clearImages h s).setHState h hsStarting

/-- HEARTH_START (R691 to R693). -/
def hearthStart (r : AdminReq) (s : State) : State × Adm :=
  let h := pHearth r.desc
  let l := lcState s
  let st := s.hState h
  if !s.enabled h then (s, admErr stState)
  else if l = lcBlank ∨ l = lcDecommissioned ∨ ¬(st = hsReset ∨ st = hsFatal ∨ st = hsFailed ∨ st = hsOff) then (s, admErr stState)
  else
    let s := if st = hsFatal then hearthReset h stFatal s else s
    (beginStart h r.inp s, .hold { r.held with hearth := h, isStart := true })

def execHearthStart (q : Fin 4) (rd : AdminRead) (s : State) : Result := adminRow 0x0811 q rd noOwn hearthStart s

/-- A unit's boot test has ended. -/
def settled (s : State) (h u : Nat) : Bool := !(s.eng h u).katPending && !(s.eng h u).katRunning

/-- Every engine of a class failed its test; one passed. -/
def classDown (s : State) (h c : Nat) : Bool := (classUnits c).all (fun u => settled s h u && (s.eng h u).offline)
def classUp (s : State) (h c : Nat) : Bool := (classUnits c).any (fun u => settled s h u && !(s.eng h u).offline)

/-- A start that failed (R689, R693). -/
def startFails (h status : Nat) (s : State) : State :=
  let s := s.modH h (fun x => { x with imageInner := none })
  endStart h status (s.setHState h hsFailed)

/-- The decision records that a starting hearth finds unapplied (R422). -/
def recoverRecords (h : Nat) (s : State) : State :=
  s.chim.vault.records.foldl (fun s p =>
    let d := p.2
    if d.parts.testBit h && !d.applied.testBit h then
      raiseH h evGroupRecovered (pgH .group h)
        { owner := d.owner, payload := toLe 4 d.tag ++ [byte d.unit] ++ toLe 2 (d.acts.getD h 0) }
        (s.modVault (setApplied p.1 h))
    else s) s

/-- Range 0 initialised by hardware under a new key (R474, R477, R480, R767). A hearth with no root draws the key from its
DRBG. -/
def startRange0 (h : Nat) (s : State) : Option State :=
  let gen := s.chim.vault.rngGens.getD (h * 8) 0 + 1
  let place := fun (key : Bytes) (s : State) =>
    let base := s.memInner h
    let s := s.modVault (fun v => { v with rngGens := v.rngGens.put (h * 8) gen })
    let s := s.modMem h (fun m =>
      { m with
        ranges := m.ranges.put 0 { base := base, size := 54 * mib, metaAt := base + 54 * mib, gen := gen, mode := 2, key := key }
        owners := [], pending := [], transit := [], reenc := []
        ddr := memClear m.ddr base (54 * mib)
        poison := m.poison.filter (fun l => l * 64 < base || base + 54 * mib ≤ l * 64) })
    let p := memPage h
    let s := ((s.wr p (Reg.RNG_STATUS_STATE 0) rsActive).wr p (Reg.RNG_STATUS_CAUSE 0) 0).wr p (Reg.RNG_CTRL_MODE 0) 2
    let s := (s.wr p (Reg.RNG_BASE_BASE 0) (base / (2 * mib))).wr p (Reg.RNG_SIZE_SIZE 0) 27
    (s.wr p (Reg.RNG_META_META 0) ((base + 54 * mib) / 4096)).wr p (Reg.RNG_GEN_GEN 0) gen
  match hearthRoot (s.H h) with
  | some root => if isolating s then none else some (place (rangeKey root h 0 gen) (derived h 1 s))
  | none => if (rootAtStart s h).isSome then none else (drbgRequest h 64 false s).map (fun a => place a.1 a.2)

/-- The attestation key of the hearth, and the owner's endorsement of it (R199): none under the test root (R215) or without an
owner. -/
def attest (h : Nat) (s : State) : State :=
  match hearthRoot (s.H h) with
  | none => s
  | some root =>
    if isolating s then s
    else
      let pub := p384Pub (attestKey root h)
      let s := derived h 1 (s.modH h (fun x => { x with attestPub := pub }))
      match if (s.H h).testRoot then none else ownerAttest s with
      | none => s
      | some d =>
        let (k, s) := s.free 48
        s.modH h (fun x => { x with endorsement := p384Sign d k (endorsementBody s h pub) })

/-- The flue writes the KEYPOLICY positions of the bound VFs (R693 step 8, R694). -/
def writePositions (h : Nat) (s : State) : State :=
  (s.boundVfs h).foldl (fun s v =>
    let k := kpPage h
    let p := (s.vf v).position
    ((s.wr k (Reg.KP_VALID p) 1).wr k (Reg.KP_OWNER_ID p) (s.ft v Reg.FT_OWNER_ID)).wr k (Reg.KP_VF_INDEX p) v) s

/-- The last steps of R693: STARTED. -/
def finishStart (h : Nat) (img : Bytes) (s : State) : State :=
  let s := writePositions h (recoverRecords h (attest h s))
  let s := s.modCore h 0 (fun c => { c with pc := BitVec.ofNat 64 (0x100000 + fieldLe img 12 4) })
  let s := (s.wr (pgF .flueBoot) (Reg.HEARTH_STATE_SVN_INNER h) (byteAt img 6)).setHState h hsStarted
  endStart h stOK (raiseFlue evHearthStarted (pgF .flueEvents) { inst := h } s)

/-- The shadow of a hearth whose start began under isolation is loaded once isolation has ended (R137, R577). -/
def lateShadow (h : Nat) (s : State) : State :=
  if (s.H h).shadow.isSome ∨ isolating s then s
  else s.modH h (fun x => { x with shadow := emberAtStart s h })

/-- HEARTH_STARTED: the start sequence ends. Where what it waits for has not come about (tests, the sub-channel, the DRBG, the end
of an isolation that forbids the derivation of range 0's key), it does not end yet. -/
def doHearthStarted (h : Nat) (s : State) : State :=
  if s.hState h ≠ hsStarting ∨ !s.up h then s
  else if classDown s h 1 ∨ classDown s h 2 then startFails h stOffline s
  else if !classUp s h 1 ∨ !classUp s h 2 then s
  else
    let img := ((s.H h).imageInner.getD (0, [])).2
    match checkImage s kindInner h img with
    | some st => startFails h st (imageEvent false h s)
    | none =>
      if !(hobUnits s).all (settled s h) ∨ !s.memReady h ∨ (s.H h).ent.drbg = .uninstantiated then s
      else
        let s := lateShadow h s
        if s.chim.vault.rngGens.getD (h * 8) 0 = 0xFFFFFFFF then
          let s := imageEvent true h (s.wr (memPage h) (Reg.RNG_STATUS_STUCK 0) 1)
          endStart h stFatal (enterFatal h fatRange0Stuck s)
        else
          match startRange0 h s with
          | none => s
          | some s => finishStart h img (imageEvent true h s)

def execHearthStarted (h : Fin 16) (s : State) : Result := .next (doHearthStarted h.val s)

/-- HEARTH_RESET (R691, R692). -/
def hearthResetOp (r : AdminReq) (s : State) : State × Adm :=
  let h := oByte r 0
  let force := dParam r.desc % 2 = 1
  if !s.enabled h then (s, admErr stState)
  else if !force ∧ !(s.boundVfs h).all (fun v => s.damper v == dampDrained) then (s, admErr stNotQuiesced)
  else (hearthReset h stFatal s, admOk)

def execHearthReset (q : Fin 4) (rd : AdminRead) (s : State) : Result := adminRow 0x0812 q rd noOwn hearthResetOp s

/-- IMAGE_LOAD (R691): the inner world of the started hearth checks and loads the outer image. -/
def imageLoad (r : AdminReq) (s : State) : State × Adm :=
  let h := pHearth r.desc
  let p := pgF .flueBoot
  if !s.enabled h then (s, admErr stState)
  else if !s.live h ∨ s.flag p (Reg.HEARTH_STATE_OUTER h) then (s, admErr stState)
  else
    match checkImage s kindOuter h r.inp with
    | some st => (imageEvent false h s, admErr st)
    | none =>
      let s := s.modH h (fun x =>
        { x with imageOuter := some (byteAt r.inp 6, r.inp), tcmOut := memPut x.tcmOut 0 (r.inp.drop 2176) })
      let s := (s.wr p (Reg.HEARTH_STATE_SVN_OUTER h) (byteAt r.inp 6)).wr p (Reg.HEARTH_STATE_OUTER h) 1
      (imageEvent true h s, admOk)

def execImageLoad (q : Fin 4) (rd : AdminRead) (s : State) : Result := adminRow 0x0810 q rd noOwn imageLoad s

/-! ### Fuses -/

/-- The SVNs of the running images of a kind (R687). -/
def runningSvns (s : State) (k : Nat) : List Nat :=
  let p := pgF .flueBoot
  if k = 1 then (if s.flueUp then [s.rd p Reg.BOOT_SVN_FLUE] else [])
  else
    let hs := s.hearthList.filter (fun h => s.live h && (k == 2 || s.flag p (Reg.HEARTH_STATE_OUTER h)))
    hs.map (fun h => s.rd p (if k = 2 then Reg.HEARTH_STATE_SVN_INNER h else Reg.HEARTH_STATE_SVN_OUTER h))

def setArb (k v : Nat) (f : Fuses) : Fuses :=
  if k = 1 then { f with arbFlue := v } else if k = 2 then { f with arbInner := v } else { f with arbOuter := v }

/-- ROLLBACK_ADVANCE (R687, R688): each increment raises FUSE_PROGRAMMED. -/
def rollbackAdvance (r : AdminReq) (s : State) : State × Adm :=
  let k := oByte r 0 + 1
  let v := oByte r 1
  let now := arbValue s.chim.fuses k
  let svns := runningSvns s k
  if 3 < k ∨ v ≤ now ∨ 128 < v then (s, admErr stBadDescriptor)
  else if svns.isEmpty ∨ svns.any (fun x => decide (x < v)) then (s, admErr stState)
  else
    let s := s.modChim (fun c => { c with fuses := setArb k v c.fuses })
    ((List.range (v - now)).foldl (fun s _ => raiseFlue evFuseProgrammed (pgF .fuse) {} s) s, admOk)

def execRollbackAdvance (q : Fin 4) (rd : AdminRead) (s : State) : Result := adminRow 0x0852 q rd noOwn rollbackAdvance s

/-- The junction temperature in quarters of a degree, from TMP_TEMP. -/
def hotterThan (s : State) (q : Nat) : Bool :=
  let t := s.rd (pgF .tamper) Reg.TMP_TEMP_TEMP
  decide (t < 2048 ∧ q < t)

/-- FUSE_PROGRAM (R704): a word that the table does not name defines no bit, nor do the hearths the variant lacks (R3). -/
def fuseProgram (r : AdminReq) (s : State) : State × Adm :=
  let w := oByte r 0
  let v := fieldLe (dOperands r.desc) 4 4
  let l := lcState s
  let width := if w = 1 then 10 else if w = 2 then s.variant.hearths else 0
  if ¬(l = lcVendorTest ∨ l = lcProvisioned) ∨ hotterThan s 340 ∨ v / 2 ^ width ≠ 0 ∨ width = 0 then (s, admErr stState)
  else
    let s := s.modChim (fun c => { c with fuses :=
      if w = 1 then { c.fuses with tamperDis := c.fuses.tamperDis ||| v } else { c.fuses with compat := c.fuses.compat ||| v } })
    (raiseFlue evFuseProgrammed (pgF .fuse) {} s, admOk)

def execFuseProgram (q : Fin 4) (rd : AdminRead) (s : State) : Result := adminRow 0x0851 q rd noOwn fuseProgram s

end Sys2Proof.Machine
end

