-- ==== Sys2Proof/Machine/Vault.lean ====
section
/-! DEFINITION. Banking of the embers and of the key caches, shadow reloads, the identity keys, and operating time (R133, R134,
R137, R142 to R150, R216, R570, R613). -/

namespace Sys2Proof.Machine

/-! ### Ember banking -/

def vaultPage : Page := pgF .vault

/-- BANK_CTRL.PERIOD in seconds as it acts (R143). -/
def bankPeriod (s : State) : Nat := clamp 1 60 (s.rd vaultPage Reg.BANK_CTRL_PERIOD)

/-- One re-masking with a fresh r; without one the stored polarity alone changes (R142, R144). -/
def remask (x : Shared) (r : Option Bytes) : Shared :=
  match r with
  | some b => { s := xorBytes x.s b, m := xorBytes x.m b, inv := !x.inv }
  | none => { x with inv := !x.inv }

/-- r for one ember from a hearth's DRBG. -/
def bankDraw (h : Option Nat) (s : State) : Option Bytes × State :=
  match h with
  | none => (none, s)
  | some h =>
    if !s.up h then (none, s)
    else match drbgRequest h 64 false s with
      | some (b, s) => (some b, s)
      | none => (none, s)

/-- The lowest-numbered hearth in H0 (R144). -/
def lowestH0 (s : State) : Option Nat := s.hearthList.find? (fun h => s.up h && (s.H h).power == 0)

/-- The bankings of every stored ember, the owner ember last; the Boolean tells that one of them drew no r. -/
def bankEmbers (fresh : Bool) (s : State) : State × Bool :=
  let a := s.chim.vault.embers.foldl (fun (a : State × Bool) p =>
    let (r, s) := if fresh then bankDraw (some p.1) a.1 else (none, a.1)
    (s.modVault (fun v => { v with embers := v.embers.put p.1 (remask p.2 r) }), a.2 || r.isNone)) (s, false)
  if a.1.chim.vault.valid then
    let (r, s) := if fresh then bankDraw (lowestH0 a.1) a.1 else (none, a.1)
    (s.modVault (fun v => { v with owner := remask v.owner r }), a.2 || r.isNone)
  else a

/-- The first hearth's DRBG has been instantiated (R145). -/
def drbgThere (s : State) : Bool := s.chim.main && s.hearthList.any (fun h => s.up h && (s.H h).ent.drbg != .uninstantiated)

/-- A banking is due: the period has run out, or the first one with fresh randomness after the return of main power. -/
def bankDue (s : State) : Bool :=
  decide (bankPeriod s * 1000 ≤ s.chim.vault.sinceBank) || (s.chim.vault.freshOwed && drbgThere s)

/-- EMBER_BANKING (R142 to R147): on the cell the polarity alone changes. -/
def doBanking (s : State) : State :=
  if !bankDue s ∨ !s.chim.vault.intact then s
  else
    let main := s.chim.main
    let there := drbgThere s
    let (s, dry) := bankEmbers main s
    let s := s.modVault (fun v =>
      { v with sinceBank := 0, polarity := !v.polarity, deferred := dry || !main, freshOwed := v.freshOwed && !there })
    if !main then s
    else
      let s := s.wr vaultPage Reg.BANK_LAST_TIME s.now
      let s := s.hearthList.foldl (fun s h => sendPulse h xBankings s) s
      if dry then raiseFlue evVltBankDeferred vaultPage {} s else s

def execEmberBanking (s : State) : Result := .next (doBanking s)

/-- A write of BANK_CTRL.PERIOD (R143, R150): locked with its page. -/
def doBankPeriod (who : Requester) (d : Nat) (s : State) : State :=
  if who ≠ .pf0 then refuse vaultPage who 0x040 d cRequester s
  else if s.flag vaultPage Reg.PAGE_CTRL_LOCK then refuse vaultPage who 0x040 d cLocked s
  else setFields vaultPage [(Reg.BANK_CTRL_PERIOD, d)] s

def execBankPeriodWrite (who : Requester) (data : Word) (s : State) : Result :=
  .next (if s.flueUp then doBankPeriod who data.toNat s else s)

/-- A shadow reload ends (R137, R146). A hearth that awaits its restart after a ceremony keeps what it has (R699). -/
def doShadowReload (h : Nat) (s : State) : State :=
  let x := s.H h
  if !x.reloading ∨ isolating s then s
  else s.modH h (fun x => { x with reloading := false, shadow := if x.needStart then x.shadow else emberAtStart s h })

def execShadowReloadDone (h : Fin 16) (s : State) : Result := .next (doShadowReload h.val s)

/-! ### The key cache's banking pass -/

/-- Every entry that is not FREE re-shared with fresh bytes of the key cache's own mask generator (R147). -/
def reshare (h : Nat) (s : State) : State :=
  (s.H h).cache.foldl (fun s p =>
    let (r, g) := (s.H h).cacheMg.draw p.2.shareA.length
    s.modH h (fun x => { x with cacheMg := g, cache := x.cache.upd p.1 (fun e =>
      { e with shareA := xorBytes e.shareA r, shareB := xorBytes e.shareB r }) })) s

/-- The key cache's mask generator before a pass: reseeded by the hearth's DRBG where that serves; where it does not, a seeded one goes
on under lenient policy for up to 16 intervals, as an engine's does (R242; log 140). None where it cannot supply randomness. -/
def cacheMgReady (h : Nat) (s : State) : Option State :=
  match drbgRequest h 48 false s with
  | some (b, s) => some (s.modH h (fun x => { x with cacheMg := { x.cacheMg.seed b with grace := 0 } }))
  | none =>
    let g := (s.H h).cacheMg
    if g.seeded ∧ s.flag (entPage h) Reg.ENT_CTRL_POLICY ∧ g.grace < 16 then
      some (s.modH h (fun x => { x with cacheMg := x.cacheMg.rekey }))
    else none

/-- A pass that is due (R147, R149). -/
def bankPass (h : Nat) (s : State) : State :=
  if !s.up h ∨ !(s.H h).bankWait then s
  else match cacheMgReady h s with
    | some s =>
      let s := (reshare h s).modH h (fun x => { x with bankWait := false, bankDeferred := false })
      s.wr (pgH .keycache h) Reg.KC_BANK_LAST_PASS s.now
    | none =>
      if (s.H h).bankDeferred then s
      else raiseH h evBankDeferred (pgH .keycache h) {} (s.modH h (fun x => { x with bankDeferred := true }))

def execKcBankPass (h : Fin 16) (s : State) : Result := .next (bankPass h.val s)

/-- The retry of a deferred pass (R149). -/
def execKcBankRetry (h : Fin 16) (s : State) : Result :=
  .next (if (s.H h.val).bankDeferred then bankPass h.val s else s)

/-- KC_CTRL.FLUSH (R172, R216). -/
def doFlush (h : Nat) (who : Requester) (s : State) : State :=
  if !isInner who then refuse (pgH .keycache h) who 0x048 1 cRequester s
  else (s.H h).cache.foldl (fun s p => freeEntry h p.1 s) s

def execKcFlush (h : Fin 16) (who : Requester) (s : State) : Result :=
  .next (onHearth h.val (doFlush h.val who) s)

/-! ### Identity keys and time -/

/-- A pair of the device identity is derived after a flue boot (R133, R134). -/
def execIdentityKeyReady (rsa : Bool) (s : State) : Result :=
  .next (if !s.flueUp ∨ s.chim.fuses.seed.isNone then s
    else s.modFlue (fun x => { x with spdm :=
      if rsa then { x.spdm with rsaReady := true } else { x.spdm with p384Ready := true } }))

/-- The buckets of R93: RATE tokens a millisecond, up to BURST. -/
def refill (s : State) (v : Nat) (x : Vf) : Vf :=
  { x with tokens := max x.tokens (min (s.ft v Reg.FT_DRAUGHT_BURST) (x.tokens + min 1000 (s.ft v Reg.FT_DRAUGHT_RATE))) }

/-- One millisecond of operating time (R93, R409, R544, R570, R613, R623): it passes while the vault lives. -/
def doTick (s : State) : State :=
  if !s.chim.vault.intact then s
  else
    let s := s.modVault (fun v => { v with opTime := min (v.opTime + 1) (2 ^ 44 - 1), sinceBank := v.sinceBank + 1 })
    let s := s.modFlue (fun x => { x with vfs := x.vfs.mapVals (refill s) })
    { s with hearths := s.hearths.mapVals (fun h x =>
        if s.up h then { x with groups := x.groups.mapVals (fun _ g => { g with idleMs := g.idleMs + 1 }) } else x) }

def execOpTimeTick (s : State) : Result := .next (doTick s)

end Sys2Proof.Machine
end

