-- ==== Sys2Proof/Machine/Tamper.lean ====
section
/-! DEFINITION. The tamper supervisor (R566 to R605): regimes, sources and their responses, the tamper log, isolation, the
quench, RELEASE, the response table and its lock, and the lifecycle advance (R696, R700 to R703, R706). -/

namespace Sys2Proof.Machine

def tamperPage : Page := pgF .tamper

/-! ### Regimes and sources -/

/-- Minimum and default response of a source (R571). -/
def minResp (n : Nat) : Nat := [3, 3, 2, 0, 0, 0, 0, 0, 0, 0, 0, 0, 0, 0, 1, 1, 1, 1, 0, 1, 1, 1, 1, 1, 1, 2, 3, 0, 0, 0].getD n 0
def defResp (n : Nat) : Nat := [3, 3, 3, 3, 3, 3, 3, 3, 3, 3, 3, 3, 1, 1, 3, 3, 2, 2, 1, 2, 2, 2, 1, 3, 2, 3, 3, 1, 3, 3].getD n 0

def packResp (f : Nat → Nat) : Nat := (List.range 30).foldl (fun a n => a + f n * 4 ^ n) 0
def defaultTable : Nat := packResp defResp
def minTable : Nat := packResp minResp

def respAt (t n : Nat) : Nat := t / 4 ^ n % 4

/-- The disable fuse of a source (R573, R704): bits 0 to 7 are sources 3 to 10, bit 8 is source 11, bit 9 source 27. -/
def fusedOff (f : Fuses) (n : Nat) : Bool :=
  if 3 ≤ n ∧ n ≤ 11 then f.tamperDis.testBit (n - 3) else if n = 27 then f.tamperDis.testBit 9 else false

/-- A source is watched in a regime (R567, R571). -/
def watched (r : Regime) (n : Nat) : Bool :=
  match r with
  | .main => true
  | .standby => !([2, 16, 17, 19, 20, 23, 24, 25, 28, 29].contains n)
  | .battery => [0, 1, 3, 4, 5, 6, 7, 8, 9, 10, 12, 13, 14, 15].contains n
  | .dead => false

/-- A trip of the source can happen now (R573, R674). -/
def canTrip (s : State) (n : Nat) : Bool :=
  watched (regimeOf s.chim) n && !fusedOff s.chim.fuses n && !(s.chim.por && [16, 17, 19, 20].contains n)

/-- Detectors of sources that a new regime does not watch read 0 (R567). -/
def maskActive (c : Chimney) : Chimney :=
  { c with active := (List.range 30).foldl (fun a n => if watched (regimeOf c) n then a else setBit a n false) c.active }

/-! ### The tamper log (R590, R591) -/

def kTrip : Nat := 1
def kCleared : Nat := 2
def kRelease : Nat := 3
def kResponse : Nat := 4
def kLock : Nat := 5
def kLost : Nat := 6

/-- Events reach the flue while the main rails are up and the flue is out of reset (R619). -/
def flueListens (s : State) : Bool := s.chim.main && !s.chim.por

def raiseTamper (n : Nat) (entry : Bytes) (s : State) : State :=
  if flueListens s then raiseFlue (evTamper n) tamperPage { payload := entry } s else s

/-- An entry that is never overwritten: a TRIP with response ISOLATE or QUENCH. -/
def keptEntry (e : TamperEntry) : Bool := byteAt e.bytes 10 == kTrip && decide (2 ≤ byteAt e.bytes 12)

/-- The log without its oldest entry that may be overwritten, and that entry's index. -/
def dropEntry : List TamperEntry → Option (Nat × List TamperEntry)
  | [] => none
  | e :: r => if keptEntry e then (dropEntry r).map (fun p => (p.1, e :: p.2)) else some (e.slot, r)

def regimeBits (r : Regime) : Nat := match r with | .main => 0 | .standby => 1 | .battery => 2 | .dead => 2

/-- One log entry; its bytes are answered as well. -/
def logEntry (kind source resp flags : Nat) (s : State) : State × Bytes :=
  let v := s.chim.vault
  let b := toLe 8 s.stamp ++ toLe 2 v.logSeq
    ++ [byte kind, byte source, byte resp, byte (flags + 4 * regimeBits (regimeOf s.chim)), 0, 0]
  let put := fun (slot : Nat) (l : List TamperEntry) => s.modVault (fun v =>
    { v with log := l ++ [{ slot := slot, seq := v.logSeq, bytes := b }], logSeq := (v.logSeq + 1) % 2 ^ 16 })
  if v.log.length < 252 then (put v.log.length v.log, b)
  else
    match dropEntry v.log with
    | some (slot, l) => (put slot l, b)
    | none => (raiseTamper 4 b (s.modVault (fun v => { v with logDropped := satAdd 8 v.logDropped 1 })), b)

/-! ### Isolation and quench -/

/-- Isolation reaches the jobs of a hearth that have not had their shares yet (R576). -/
def isolateJobs (h : Nat) (s : State) : State :=
  ((s.H h).jobs.filter (fun p =>
      (p.2.state == .fetched || p.2.state == .keywait || p.2.state == .ready) && usesKeys p.2.desc)).foldl
    (fun s p => failJob h p.1 stQuenched s) s

/-- Steps 2 and 5 of R578: embers, their validity, decision records and apply entries. -/
def clearVaultKeys (s : State) : State :=
  s.modVault (fun v => { v with embers := [], owner := {}, valid := false, records := [], applies := [] })

/-- Steps 2 to 4 of R578 in the hearths. A hearth in H1 is woken. -/
def clearHearthKeys (x : Hearth) : Hearth :=
  { x with
    shadow := none, cache := [], opmem := [], saves := [], reloading := false
    power := if x.power = 1 then 0 else x.power
    engines := x.engines.mapVals (fun _ e => { e with keysLoaded := false }) }

/-- A quench (R578, R580): in the MAIN regime it goes on until QUENCH_DONE. -/
def quench (s : State) : State :=
  let s := dropAllEnables (clearVaultKeys s)
  if s.chim.main then
    { s with hearths := s.hearths.mapVals (fun _ x => clearHearthKeys x) }.modChim (fun c => { c with quenching := true })
  else s.modVault (fun v => { v with quenched := true })

/-- The last TRIP entry of the log that quenched. -/
def quenchEntry (s : State) : Bytes :=
  ((s.chim.vault.log.filter (fun e => byteAt e.bytes 10 == kTrip && byteAt e.bytes 12 == 3)).getLast?.map (·.bytes)).getD []

/-- QUENCH_DONE: steps 6 and 7 of R578. -/
def doQuenchDone (s : State) : State :=
  if !s.chim.quenching then s
  else
    let s := s.hearthList.foldl (fun s h => hearthReset h stQuenched s) (s.modChim (fun c => { c with quenching := false }))
    let s := (List.range 512).foldl (fun s v => if s.bound v then tdiError v s else s) s
    refreshPins (raiseTamper 2 (quenchEntry s) s)

def execQuenchDone (s : State) : Result := .next (doQuenchDone s)

/-! ### Trips (R575, R589, R595, R597) -/

/-- The response a source's own trip has, and whether R595 raised it. -/
def ownResp (s : State) (n : Nat) : Nat × Bool :=
  let r := respAt s.chim.vault.resp n
  if regimeOf s.chim = .battery then
    if n = 12 then (3, r == 2) else if 2 ≤ r then (3, r == 2) else (r, false)
  else (r, false)

/-- The entries of simultaneous trips, in ascending source number, and TMP_TRIP for each. -/
def logTrips (resp : Nat) (grouped : Bool) (ns : List Nat) (s : State) : State :=
  ns.foldl (fun s n =>
    let (s, b) := logEntry kTrip n resp (b2n (ownResp s n).2 + 2 * b2n grouped) s
    raiseTamper 0 b s) s

/-- Simultaneous trips of the sources `ns`, in ascending order. -/
def applyTrips (ns : List Nat) (s : State) : State :=
  if ns.isEmpty then s
  else
    let resp := ns.foldl (fun a n => max a (ownResp s n).1) 0
    let was := s.chim.vault.level
    let s := s.modVault (fun v =>
      { v with sticky := ns.foldl (fun a n => setBit a n true) v.sticky, level := max v.level resp })
    let s := s.modChim (fun c => { c with active := ns.foldl (fun a n => if n < 28 then setBit a n true else a) c.active })
    let s := if 2 ≤ resp ∧ was < 2 ∧ s.chim.main then s.hearthList.foldl (fun s h => isolateJobs h s) s else s
    let s := if resp = 3 ∧ !s.chim.quenching then quench s else s
    let s := logTrips resp (decide (1 < ns.length)) ns s
    let entry := (s.chim.vault.log.getLast?.map (·.bytes)).getD []
    refreshPins (if 2 ≤ resp ∧ was < 2 then raiseTamper 1 entry s else s)

/-- The junction temperature that a temperature source reports stands in TMP_TEMP on main power. -/
def noteTemp (trips : List (Nat × Nat)) (s : State) : State :=
  trips.foldl (fun s p => if (p.1 = 14 ∨ p.1 = 15) ∧ s.chim.main then s.wr tamperPage Reg.TMP_TEMP_TEMP p.2 else s) s

/-- A junction temperature as TMP_TEMP holds it: quarters of a degree, twelve bits in two's complement. -/
def tempOf (q : Nat) : Int := if q % 4096 < 2048 then (q % 4096 : Nat) else (q % 4096 : Nat) - 4096

/-- The upper and the lower trip point, in quarters of a degree (R572). -/
def tripPoints (v : Variant) : Int × Int := if v.industrial then (460, -200) else (440, -60)

/-- The reading meets the source's trip condition: of the temperatures, beyond their trip points (R571, R572). -/
def tripMet (v : Variant) (n q : Nat) : Bool :=
  if n = 14 then decide ((tripPoints v).1 < tempOf q) else if n = 15 then decide (tempOf q < (tripPoints v).2) else true

/-- The sources of a list that trip now, each once, in ascending order. -/
def tripSet (trips : List (Nat × Nat)) (s : State) : List Nat :=
  (List.range 30).filter (fun n => canTrip s n && trips.any (fun p => p.1 == n && tripMet s.variant n p.2))

/-- The readings of the sources that can trip now: a temperature is shown whether or not it trips. -/
def doTrips (trips : List (Nat × Nat)) (s : State) : State :=
  applyTrips (tripSet trips s) (noteTemp (trips.filter (fun p => canTrip s p.1)) s)

/-- TAMPER_TRIP: one source, or several in one sc cycle, outside the sampling of the BATTERY regime. Sources 28 and 29 trip by
their registers alone. -/
def execTamperTrip (trips : List (Fin 30 × BitVec 32)) (s : State) : Result :=
  .next (if s.chim.vault.intact then
    doTrips ((trips.map (fun p => (p.1.val, p.2.toNat))).filter (fun p =>
      p.1 < 28 && (regimeOf s.chim != .battery || p.1 == 12 || p.1 == 13))) s else s)

/-- BATTERY_SAMPLE (R596): the meshes, loops and temperature as one sample finds them. -/
def execBatterySample (trips : List (Fin 30 × BitVec 32)) (s : State) : Result :=
  .next (if s.chim.vault.intact ∧ regimeOf s.chim = .battery then
    doTrips ((trips.map (fun p => (p.1.val, p.2.toNat))).filter (fun p => p.1 < 28)) s else s)

/-! ### Registers of CHIMNEY.TAMPER -/

/-- The chimney's pages answer the flue's firmware (R677). -/
def fromPf0 (off : Nat) (who : Requester) (data : Nat) (f : State → State) (s : State) : State :=
  if !s.flueUp then s else if who ≠ .pf0 then refuse tamperPage who off data cRequester s else f s

def execTmpTrigger (who : Requester) (s : State) : Result := .next (fromPf0 0x040 who 4 (doTrips [(29, 0)]) s)

/-- TMP_CTRL.FW_TRIGGER: the inner world of the hearth (R603). -/
def doFwTrigger (h : Nat) (who : Requester) (s : State) : State :=
  if isInner who then (if s.up h then doTrips [(28, 0)] s else s)
  else if s.flueUp ∨ s.up h then refuse tamperPage who 0x040 8 cRequester s
  else s

def execTmpFwTrigger (h : Fin 16) (who : Requester) (s : State) : Result := .next (doFwTrigger h.val who s)

/-- TMP_CTRL.RELEASE (R588). A quench that still runs is a trip being handled. -/
def doRelease (who : Requester) (s : State) : State :=
  if s.chim.vault.sticky ≠ 0 ∨ s.chim.quenching then refuse tamperPage who 0x040 1 cState s
  else
    let (s, b) := logEntry kRelease 0xFF 0 0 (s.modVault (fun v => { v with level := 0 }))
    refreshPins (raiseTamper 3 b s)

def execTmpRelease (who : Requester) (s : State) : Result := .next (fromPf0 0x040 who 1 (doRelease who) s)

/-- TMP_CTRL.LOCK (R583). -/
def doLock (s : State) : State :=
  if s.chim.vault.locked then s else (logEntry kLock 0xFF 0 0 (s.modVault (fun v => { v with locked := true }))).1

def execTmpLock (who : Requester) (s : State) : Result := .next (fromPf0 0x040 who 2 doLock s)

/-- One field of the response table written (R573, R582, R585). The Boolean tells that LOCKED refused it. -/
def writeResp (n v : Nat) (a : State × Bool) : State × Bool :=
  let (s, bad) := a
  let old := respAt s.chim.vault.resp n
  let new := max v (minResp n)
  if fusedOff s.chim.fuses n ∨ new = old then a
  else if s.chim.vault.locked ∧ new < old then (s, true)
  else
    let s := s.modVault (fun x => { x with resp := x.resp - old * 4 ^ n + new * 4 ^ n })
    let s := (logEntry kResponse n new 0 s).1
    (if old < new ∧ s.chim.active.testBit n then applyTrips [n] s else s, bad)

/-- A write of TMP_RESP_LO (sources 0 to 15) or TMP_RESP_HI (16 to 29). -/
def doRespWrite (who : Requester) (hi : Bool) (d : Nat) (s : State) : State :=
  let base := if hi then 16 else 0
  let (s', bad) := (List.range (if hi then 14 else 16)).foldl (fun a i => writeResp (base + i) (respAt d i) a) (s, false)
  let s' := if s'.chim.vault.resp = s.chim.vault.resp then s' else bumpGen tamperPage s'
  if bad then refuse tamperPage who (if hi then 0x058 else 0x054) d cValue s' else s'

def execTmpRespWrite (who : Requester) (hi : Bool) (data : Word) (s : State) : Result :=
  .next (fromPf0 (if hi then 0x058 else 0x054) who data.toNat (doRespWrite who hi data.toNat) s)

/-- A W1C write of TMP_STICKY (R587). -/
def doStickyClear (who : Requester) (d : Nat) (s : State) : State :=
  let named := (List.range 30).filter (fun n => d.testBit n && s.chim.vault.sticky.testBit n)
  let stuck := (List.range 30).any (fun n => d.testBit n && s.chim.active.testBit n)
  let s := named.foldl (fun s n =>
    if s.chim.active.testBit n then s
    else (logEntry kCleared n 0 0 (s.modVault (fun v => { v with sticky := setBit v.sticky n false }))).1) s
  refreshPins (if stuck then refuse tamperPage who 0x04C d cState s else s)

def execTmpStickyClear (who : Requester) (data : Word) (s : State) : Result :=
  .next (fromPf0 0x04C who data.toNat (doStickyClear who data.toNat) s)

/-- A source's physical condition goes away (R587). -/
def execDetectorCleared (src : Fin 30) (s : State) : Result :=
  .next (s.modChim (fun c => { c with active := setBit c.active src.val false }))

/-! ### The log's transfer to PF0 (R592, R593) -/

/-- The "vault record" key of the owner ember (R140), where a derivation is possible (R593, R767). -/
def vaultRecordKey (s : State) : Option Bytes :=
  if s.chim.vault.valid ∧ !isolating s then
    some (deriveRoot (xorBytes s.chim.vault.owner.s s.chim.vault.owner.m) (ascii "vault record") 0x01 0 0xFF 0 0 32)
  else none

def tamperLogBody (s : State) : Bytes :=
  let v := s.chim.vault
  ascii "VXTL" ++ [1, byte v.log.length, byte v.logDropped, byte v.level] ++ serial16 s ++ toLe 8 s.stamp ++ toLe 4 v.sticky
    ++ toLe 2 v.logSeq ++ zeros 26 ++ v.log.flatMap (fun e => slice e.bytes 0 16)

/-- TAMPER_LOG_EXPORT. -/
def tamperLogOut (r : AdminReq) (s : State) : State × Adm :=
  let b := tamperLogBody s
  if dOutLen r.desc < b.length + 16 then (s, admErr stOutputTooSmall)
  else
    match vaultRecordKey s with
    | some k => (s, .done stOK [] (b ++ cmac .aes k b))
    | none => (s, .done stOK [] (b ++ zeros 16))

def execTamperLogExport (q : Fin 4) (rd : AdminRead) (s : State) : Result :=
  adminRow 0x0830 q rd (ownLen 0) tamperLogOut s

/-! ### Supplies and reset pins (R566 to R570, R580, R597, R674 to R677) -/

/-- The vault found lost at a flue start (R569). -/
def loseVault (s : State) : State :=
  let s := s.modVault (fun _ => { intact := true, lost := true, resp := defaultTable, sticky := 2 ^ 12, level := defResp 12 })
  let (s, b) := logEntry kLost 0xFF 0 0 s
  let (s, t) := logEntry kTrip 12 (defResp 12) 0 s
  refreshPins (raiseTamper 0 t (raiseTamper 5 b s))

/-- What the vault controller and the supervisor do when the flue starts (R414, R569, R580). -/
def vaultAtFlueStart (s : State) : State :=
  let s := if s.chim.vault.intact then s.modVault (fun v => { v with lost := false }) else loseVault s
  let s := s.modVault (fun v => freeRecords ((v.records.map (·.1)).foldl (fun v r => countRecord r v) v))
  if s.chim.vault.quenched then raiseTamper 2 (quenchEntry s) (s.modVault (fun v => { v with quenched := false })) else s

/-- Everything that POR_N holds in reset (R674, R675, R722): every hearth with its DDR contents, the flue with its function
table, and every register that neither the vault nor a fuse holds. -/
def porReset (s : State) : State :=
  { s with
    regs := []
    hearths := (s.hearths.map (fun p => (p.1, ({ strap := p.2.strap, compat := s.chim.fuses.compat.testBit p.1 } : Hearth))))
    flue := { numVfs := s.flue.numVfs }
    chim := { s.chim with por := true, quenching := false, vault := { s.chim.vault with deferred := false } } }

/-- A quench whose hearth resets the loss of main power overtakes is complete (R581). -/
def cutQuench (s : State) : State :=
  if s.chim.quenching then s.modVault (fun v => { v with quenched := true }) else s

def execPorNAssert (s : State) : Result :=
  .next (if s.chim.main ∧ !s.chim.por then refreshPins (porReset (cutQuench s)) else s)

/-- POR_N_DEASSERT: the flue's boot ROM runs; HOBSEL shows the variant (R677, R754). -/
def doPorRelease (s : State) : State :=
  if !s.chim.main ∨ !s.chim.por then s
  else
    let s := vaultAtFlueStart (s.modChim (fun c => { c with por := false }))
    refreshPins (s.emit (.pin "HOBSEL" s.variant.hob))

def execPorNDeassert (s : State) : Result := .next (doPorRelease s)

/-- The patterns of STATUS_LED (R755). -/
inductive Led where
  | released
  | off
  | on
  | blinks1Hz
  | blinks4Hz
  deriving DecidableEq, Repr

/-- What STATUS_LED shows: the first row of R755 whose condition holds. While POR_N is low the flue is held in reset (R674), so
that the rows on BOOT_STATUS do not hold. DEDUCED. -/
def statusLed (s : State) : Led :=
  if regimeOf s.chim != .main then .released
  else if 1 ≤ s.chim.vault.level ∨ s.hearthList.any (fun h => s.hState h == hsFatal) then .blinks4Hz
  else if s.chim.por then .off
  else if s.flueUp then .on
  else .blinks1Hz

/-- MAIN_POWER_LOSS (R540, R562, R567): the part is left with its battery island. -/
def doMainLoss (s : State) : State :=
  if !s.chim.main then s
  else
    let s := porReset (cutQuench s)
    refreshPins (s.modChim (fun c => maskActive { c with
      main := false, vault := { c.vault with freshOwed := true } }))

def execMainPowerLoss (s : State) : Result := .next (doMainLoss s)

/-- The main rails return; POR_N is low while they rise (R672, R673). -/
def execMainPowerReturn (s : State) : Result :=
  .next (if s.chim.main ∨ regimeOf s.chim = .dead then s
    else refreshPins (s.modChim (fun c => { c with main := true, por := true })))

/-- The island without any source (R597): the embers are cleared on the holding capacitor's charge. -/
def islandDrops (s : State) : State :=
  if s.chim.vault.intact then applyTrips [12] (s.modChim (fun c => maskActive { c with supply := .none, holding := true }))
  else s.modChim (fun c => { c with supply := .none })

/-- SUPPLY_SWITCH (R566). While main rails are up the island's own supply is VAON or the cell; the loss of both is the fall of
VBAT in the BATTERY regime. -/
def doSupply (target : Supply) (s : State) : State :=
  if s.chim.supply = target ∨ s.chim.holding then s
  else match target with
    | .none => refreshPins (if s.chim.main then s else islandDrops s)
    | t => refreshPins (s.modChim (fun c => maskActive { c with supply := t }))

def execSupplySwitch (target : Supply) (s : State) : Result := .next (doSupply target s)

/-- VBAT returns within tHOLD: the vault survives (R597). -/
def execVbatRestored (s : State) : Result :=
  .next (if s.chim.holding then
    refreshPins (s.modChim (fun c => { c with holding := false, supply := .vbat, active := setBit c.active 12 false })) else s)

/-- The holding capacitor runs out: the vault is lost, which the next flue start finds (R569, R597). -/
def execVaultHoldExpiry (s : State) : Result :=
  .next (if s.chim.holding then refreshPins (s.modChim (fun c => { c with holding := false, vault := {} })) else s)

/-! ### The lifecycle advance (R696, R700 to R703, R706) -/

/-- Who authorises a move, where LIFECYCLE_ADVANCE can make it (R696). -/
inductive Mover where
  | vendor | owner
  deriving DecidableEq, Repr

def mover (s : State) (target : Nat) : Option Mover :=
  let l := lcState s
  if (l = lcBlank ∧ target = lcVendorTest) ∨ (l = lcVendorTest ∧ target = lcProvisioned) then some .vendor
  else if l = lcOwned ∧ target = lcOperational then some .owner
  else if target = lcDecommissioned then
    (if l = lcProvisioned ∨ l = lcQuenched then some .vendor
     else if l = lcOwned ∨ l = lcOperational then some .owner else none)
  else none

/-- The hearth whose inner world checks an owner-signed authorisation (R701). -/
def checkingHearth (s : State) : Option Nat :=
  s.hearthList.find? (fun h => s.live h && ((s.H h).slots.find? 254).isSome && ((s.H h).slots.find? 255).isSome)

/-- The further condition of a move (R696). -/
def furtherHolds (s : State) (target : Nat) : Bool :=
  if target = lcProvisioned then s.hearthList.all (fun h => s.hState h == hsReset)
  else if target = lcOperational then
    s.chim.vault.locked && s.hearthList.all (fun h => !(s.H h).enables.testBit 3 && !(s.H h).iiPending)
  else true

/-- The checks of R701 in their order. -/
def checkAdvance (s : State) (m : Bytes) : Option Nat :=
  let target := byteAt m 5
  let pub := slice m 0x40 512
  let cpub := slice m 0x240 512
  let roster := slice m 0x440 256
  let fp := if lcState s = lcBlank then zeros 32 else identityFp s
  if slice m 0 4 ≠ ascii "VXLT" ∨ byteAt m 4 ≠ 1 ∨ !isZero (slice m 6 2) ∨ !isZero (slice m 0x38 8) then some stBadDescriptor
  else
    match mover s target with
    | none => some stState
    | some w =>
      let x := checkingHearth s
      if w = .owner ∧ x.isNone then some stState
      else if slice m 8 16 ≠ serial16 s ∨ slice m 0x18 32 ≠ fp then some stBinding
      else if (match w with
          | .vendor => sha256 pub != s.chim.fuses.vendorLc || !isZero cpub || !isZero roster || !isZero (slice m 0x740 512)
          | .owner => !officersFit (s.H (x.getD 0)) pub cpub roster) = true then some stSigInvalid
      else if !pssOk pub (slice m 0x540 512) (slice m 0 0x540) then some stSigInvalid
      else if w = .owner ∧ !pssOk cpub (slice m 0x740 512) (slice m 0 0x740) then some stSigInvalid
      else if !furtherHolds s target then some stState
      else none

/-- The end of the part's service (R706). -/
def decommission (s : State) : State :=
  let s := doQuenchDone (quench (s.hearthList.foldl (fun s h => isolateJobs h s) s))
  let s := s.modChim (fun c => { c with fuses := { c.fuses with seed := none } })
  let s := blowWord 5 s
  refreshPins (s.modVault (fun v => { v with locked := false }))

/-- LIFECYCLE_ADVANCE (R701 to R703). A quench in progress abandons it. Where `part` names a number of fuses, main power is lost
while the word is programmed: the word is left partial and the request waits for good. -/
def lifecycleAdvance (part : Option Nat) (r : AdminReq) (s : State) : State × Adm :=
  match checkAdvance s r.inp with
  | some st => (s, admErr st)
  | none =>
    let target := byteAt r.inp 5
    if s.chim.quenching then (s, admErr stQuenched)
    else
      match part with
      | some n =>
        let w := s.chim.fuses.lcWords.getD target 0
        (s.modChim (fun c => { c with fuses := { c.fuses with lcWords := c.fuses.lcWords.put target (clamp w 31 n) } }), .hold r.held)
      | none =>
        if target = lcDecommissioned then (lifecycleMoved (decommission s), admOk)
        else (refreshPins (lifecycleMoved (blowWord target s)), admOk)

/-- The row's step: with main power lost during the programming, the part goes down. -/
def lifecycleRow (q : Nat) (rd : AdminRead) (part : Option Nat) (s : State) : State :=
  let s' := adminGo 0x0850 q rd (ownLen 2368) (lifecycleAdvance part) s
  if part.isSome ∧ s'.flue.nextTag ≠ s.flue.nextTag then doMainLoss s' else s'

def execLifecycleAdvance (q : Fin 4) (rd : AdminRead) (part : Option Nat) (s : State) : Result :=
  if rd.wf then .next (lifecycleRow q.val rd part s) else .fault .illFormed

end Sys2Proof.Machine
end

