-- ==== Sys2Proof/Machine/Resets.lean ====
section
/-! DEFINITION. Function-level resets, the events of R104, the link (R41 to R44, R102 to R105, R731, R759), PF0's power state
(R552), and the boot and restart of the flue (R423, R677 to R680). -/

namespace Sys2Proof.Machine

/-! ### Aborting a VF's jobs (R102) -/

/-- An engine an aborted job leaves: a big-number engine's operand regions of the job are cleared at once (R102, R379); another engine
scrubs before it serves its next job. -/
def quitUnit (h u v : Nat) (s : State) : State :=
  if isBn u then clearLeft h (u - 12) v s else s.modEng h u (fun e => { e with lastOwner := 0 })

/-- A job stopped and forgotten: no output, no completion (R102, R103); of KEY_UNWRAP the output is the key. -/
def abortJob (h j : Nat) (s : State) : State :=
  match s.job? h j with
  | none => s
  | some jb =>
    let s := releaseUnits h jb.units (jb.units.foldl (fun s u => quitUnit h u jb.vf s) s)
    let s := if dOp jb.desc = 0x0101 then jb.unwrapped.foldl (fun s p => freeEntry h p.2 s) s else s
    dropGroups h (removeJob h j s)

/-- A job of a recorded group stays until its group has been applied (R98, R102). -/
def staysHeld (s : State) (h : Nat) (jb : Job) : Bool :=
  jb.state == .held && (match s.group? h jb.group with
    | some g => decided s h jb.group g || g.state == .committing
    | none => false)

/-- A job that runs on until FLR_ABORT_DONE: on a cipher engine, a hash engine or a burner. -/
def runsOn (jb : Job) : Bool := jb.state == .running && !jb.units.isEmpty && jb.units.all (fun u => !isBn u)

/-- VF_FLR (R102, R123): the damper, the groups, the jobs that stop at once, the count and its record. -/
def flrStart (v : Nat) (s : State) : State :=
  let h := s.ft v Reg.FT_HEARTH
  let s := (s.setDamper v dampResetting).modVf v (fun x => { x with tdi := .unlocked, tdiNonce := [], aborting := true })
  let s := s.setFt v Reg.FT_TDI_LOCKED 0
  let s := (groupsOf s h (some v)).foldl (fun s g => startRollback h g s) s
  let mine := (s.H h).jobs.filter (fun p => p.2.vf == v && !staysHeld s h p.2)
  let s := s.setFt v Reg.FT_RESET_ABORTED mine.length
  let s := (mine.filter (fun p => !runsOn p.2)).foldl (fun s p => abortJob h p.1 s) s
  if s.up h then
    raiseH h evVfResetAbort (pgH .stoker h)
      { vf := v, owner := s.ft v Reg.FT_OWNER_ID, payload := toLe 2 mine.length } s
  else s

/-- The MSI-X table, the pending bits and the configuration space of a function return to their reset values (log 131). -/
def resetFunction (fn : Func) (s : State) : State :=
  let s := if fn = .pf0 then (List.range 8).foldl (fun s i => s.resetPage (pgF .msixPf i)) s else s.resetPage (msixPage fn 0)
  (s.resetPage (pbaPage fn)).resetPage (cfgPage fn)

/-- The registers and indexes of a VF's queue pairs at reset (R102, R722), and its function's own memory. -/
def wipeQueues (v : Nat) (s : State) : State := resetQueues v (resetFunction (.vf v) (s.resetPage (pgVf v)))

/-- A VF's FLR; a VF without a binding has queue registers alone. -/
def vfReset (v : Nat) (s : State) : State :=
  if s.damper v = dampResetting then s
  else if s.bound v then flrStart v s
  else wipeQueues v s

def execVfFlr (v : Fin 512) (s : State) : Result := .next (if s.vfExists v.val then vfReset v.val s else s)

/-- FLR_ABORT_DONE (R102, R110): cipher and hash jobs have reached a block boundary, hob jobs their end. -/
def flrDone (v : Nat) (s : State) : State :=
  let h := s.ft v Reg.FT_HEARTH
  let mine := (s.H h).jobs.filter (fun p => p.2.vf == v)
  if s.damper v ≠ dampResetting ∨ mine.any (fun p => p.2.state == .held || (p.2.state == .running && p.2.units.any isBurner)) then s
  else
    let s := mine.foldl (fun s p => abortJob h p.1 s) s
    enterDrained v (wipeQueues v (s.modVf v (fun x => { x with aborting := false })))

def execFlrAbortDone (v : Fin 512) (s : State) : Result := .next (flrDone v.val s)

/-- R104: an FLR of every VF and of PF1. VF Enable is clear afterwards. -/
def allVfsReset (s : State) : State :=
  let s := (List.range 512).foldl (fun s v => if s.bound v then vfReset v s else s) s
  let s := s.resetPages (fun k => [PageKind.vfQueue, .msixVf, .pbaVf, .cfgVf].any (fun p => keyKind k == p.ctorIdx)
    && !s.bound (keyUnit k))
  (resetFunction .pf1 s).modFlue (fun x => { x with vfEnable := false, qps := x.qps.filter (fun p => s.bound (p.1 / 8)) })

def execPf0Flr (s : State) : Result := .next (if flueListens s then resetFunction .pf0 (allVfsReset s) else s)

def execVfEnableClear (s : State) : Result := .next (if flueListens s then allVfsReset s else s)

/-- The configuration spaces in reset take PF0 back to D0 and every IDE stream out of use. -/
def linkReset (s : State) : State :=
  (resetFunction .pf0 (allVfsReset s)).modFlue (fun x => { x with d3hot := false, ide := [] })

def execHotReset (s : State) : Result := .next (if flueListens s then linkReset s else s)

/-! ### The link -/

def linkPage : Page := pgF .link

def setLinkDown (s : State) : State := (s.wr linkPage Reg.LINK_STATUS_UP 0).wr linkPage Reg.LINK_STATUS_ASPM 0

def execLinkDown (s : State) : Result := .next (if flueListens s then setLinkDown (linkReset s) else s)

/-- LINK_TRAINED (R44, R731). The host's enumeration sets VF Enable again (DESIGN CHOICE). -/
def doTrained (rate width : Nat) (flit : Bool) (s : State) : State :=
  if !flueListens s ∨ s.chim.perst then s
  else
    let bad := rate == 3 || 2 ≤ width || (rate == 2 && !flit)
    let s := ((s.wr linkPage Reg.LINK_STATUS_RATE rate).wr linkPage Reg.LINK_STATUS_WIDTH width).wr linkPage
      Reg.LINK_STATUS_FLIT (b2n flit)
    let s := ((s.wr linkPage Reg.LINK_STATUS_UNSUPPORTED (b2n bad)).wr linkPage Reg.LINK_STATUS_UP 1).wr linkPage
      Reg.LINK_STATUS_ASPM 0
    let s := s.modFlue (fun x => { x with vfEnable := true })
    if bad then raiseFlue evLinkDegraded linkPage {} s else s

def execLinkTrained (rate width : Fin 4) (flit : Bool) (s : State) : Result := .next (doTrained rate.val width.val flit s)

/-- PERST_N falls (R676). -/
def execPerstNAssert (s : State) : Result :=
  .next (if s.chim.perst then s
    else (if flueListens s then setLinkDown (linkReset s) else s).modChim (fun c => { c with perst := true }))

/-- PERST_N rises (R673). -/
def execPerstNDeassert (s : State) : Result := .next (s.modChim (fun c => { c with perst := false }))

/-- PF0 moves between D0 and D3hot (R552). -/
def execPf0PowerState (d3hot : Bool) (s : State) : Result :=
  .next (if flueListens s then s.modFlue (fun x => { x with d3hot := d3hot }) else s)

/-- The link enters L1 or a substate (R41, R731). -/
def execAspmL1Entry (sub : Fin 3) (s : State) : Result :=
  .next (if s.flag linkPage Reg.LINK_STATUS_UP then s.wr linkPage Reg.LINK_STATUS_ASPM (1 + sub.val) else s)

/-- The link returns to L0 (R759). -/
def execL1Exit (s : State) : Result := .next (s.wr linkPage Reg.LINK_STATUS_ASPM 0)

/-! ### Flue boot and restart (R677 to R680) -/

def bootPage : Page := pgF .flueBoot

def stRomWait : Nat := 0
def stLoading : Nat := 1
def stRejected : Nat := 3

def State.bootState (s : State) : Nat := s.rd bootPage Reg.BOOT_STATUS_STATE

/-- BOOT_CTRL.GO (R678): in the boot ROM alone; the fetch reads BOOT_LEN bytes. -/
def doBootGo (who : Requester) (image : Dma) (s : State) : State :=
  if !flueListens s then s
  else if who ≠ .pf0 then (if s.flueUp then refuse bootPage who 0x04C 1 cRequester s else s)
  else if s.bootState ≠ stRomWait ∧ s.bootState ≠ stRejected then refuse bootPage who 0x04C 1 cState s
  else
    let s := s.wr bootPage Reg.BOOT_STATUS_STATE stLoading
    match image with
    | .ok b => s.modFlue (fun x => { x with bootImage := slice b 0 (s.rd bootPage Reg.BOOT_LEN_LEN), bootErr := false })
    | .error => s.modFlue (fun x => { x with bootImage := [], bootErr := true })

def execBootGo (who : Requester) (image : Dma) (s : State) : Result := .next (doBootGo who image s)

/-- The power-cycle counter moves on at RUNNING (R570, R622, R678). -/
def countCycle (s : State) : State :=
  if 0xFFFFF ≤ s.chim.vault.powerCycles then s
  else
    let s := s.modVault (fun v => { v with powerCycles := v.powerCycles + 1 })
    if s.chim.vault.powerCycles = 0xFFFFF then
      raiseFlue evCyclesStuck vaultPage {} (s.modVault (fun v => { v with cyclesStuck := true })) else s

/-- One gang's record at a flue restart: the commit goes to every participant that still holds its member (R423). -/
def resendCommit (r : Nat) (d : Decision) (s : State) : State :=
  let gone := (List.range 16).foldl (fun m h => setBit m h (d.applied.testBit h || (memberOf s h d.unit d.tag).isNone)) 0
  let g : Gang := { stack := d.unit, tag := d.tag, parts := d.parts, votes := d.parts, opened := d.parts, done := gone
                    record := some r, state := if d.state = 2 then .committed else .deciding }
  let s := s.modFlue (fun x => if d.parts &&& gone = d.parts then x else { x with gangs := x.gangs ++ [g] })
  raiseFlue evGangRecovered (pgF .gang) { owner := d.owner, payload := toLe 4 d.tag ++ [byte d.unit] ++ toLe 2 0 } s

/-- The coordinator recovers (R423, R425): records first, then the groups and members that no record covers. -/
def recoverGangs (s : State) : State :=
  let s := s.chim.vault.records.foldl (fun s p =>
    if p.2.kind = 2 ∧ p.2.applied ≠ p.2.parts then resendCommit p.1 p.2 s else s) s
  s.hearthList.foldl (fun s h =>
    (s.H h).groups.foldl (fun s p =>
      if decided s h p.1 p.2 then s else abortMember h p.1 (stGroupPeer, stGroupPeer) s) s) s

/-- FLUE_IMAGE_CHECK_DONE (R678, R683, R684). -/
def doFlueCheck (s : State) : State :=
  if !flueListens s ∨ s.bootState ≠ stLoading then s
  else
    let m := s.flue.bootImage
    match if s.flue.bootErr then some stHostDma else checkImage s kindFlue 0 m with
    | some st =>
      imageEvent false 0xFF ((s.wr bootPage Reg.BOOT_STATUS_STATE stRejected).wr bootPage Reg.BOOT_STATUS_CODE st)
    | none =>
      let s := (s.wr bootPage Reg.BOOT_STATUS_STATE flueRunning).wr bootPage Reg.BOOT_STATUS_CODE stOK
      let s := (s.wr bootPage Reg.BOOT_SVN_FLUE (byteAt m 6)).modFlue (fun x => { x with imageMeas := m, bootImage := [] })
      recoverGangs (countCycle (imageEvent true 0xFF s))

def execFlueImageCheckDone (s : State) : Result := .next (doFlueCheck s)

/-- The flue's pages at a restart (R722). HEARTH_STATE and LINK_STATUS go on showing the hearths and the link, which a restart
leaves alone (R679). -/
def resetFluePages (s : State) : State :=
  let gone := [PageKind.adminq, .gang, .flueCounters, .flueEvents, .debug].map (·.ctorIdx)
  let s := s.resetPages (fun k => gone.contains (keyKind k))
  { s with regs := resetPageRegs linkPage 0x008 0x040 (resetPageRegs bootPage 0x008 0x060 s.regs) }

/-- A flue restart (R679, R210, R540, R660): the effects of R104, the boot ROM, and nothing of the firmware's own left. -/
def flueRestart (s : State) : State :=
  let s := dropAllEnables (allVfsReset s)
  let s := resetFluePages s
  let s := s.modFlue (fun x =>
    { x with
      vfEnable := s.flue.vfEnable, adminQps := [], held := [], gangs := [], recovering := false, ceremony := none, ide := []
      spdm := {}, recorder := {}, ctrs := [], snapOwed := false, bootImage := [], bootErr := false
      imageMeas := [], token := [], tokenChal := none })
  vaultAtFlueStart s

/-- BOOT_CTRL.RESTART (R679): of a running flue alone. With `fusing` the write finds a LIFECYCLE_ADVANCE, FUSE_PROGRAM or
ROLLBACK_ADVANCE in progress, which is one command of the model, and is ignored (R680; log 145). -/
def doBootRestart (who : Requester) (fusing : Bool) (s : State) : State :=
  if !flueListens s then s
  else if who ≠ .pf0 then (if s.flueUp then refuse bootPage who 0x04C 2 cRequester s else s)
  else if !s.flueUp ∨ fusing then refuse bootPage who 0x04C 2 cState s
  else flueRestart s

def execBootRestart (w : RestartWrite) (s : State) : Result := .next (doBootRestart w.who w.fusing s)

/-- A fault of the flue firmware (R679). -/
def execFlueFault (s : State) : Result := .next (if s.flueUp ∧ flueListens s then flueRestart s else s)

end Sys2Proof.Machine
end

