-- ==== Sys2Proof/Machine/DirectUse.lean ====
section
/-! DEFINITION. Direct use of the engines by hearth firmware (R260 to R263, R341 to R346, R383 to R388), and the end of a job on
an engine, queued or direct. -/

namespace Sys2Proof.Machine

/-! ### What the registers describe, as a descriptor in the layout of R67 and R230 -/

/-- A reference to a cache entry. -/
def entryRef (idx : Nat) : Bytes := [1, 0] ++ toLe 2 idx ++ zeros 12

/-- A pointer-form descriptor with no group. -/
def directDesc (op src param : Nat) (ref0 ref1 : Bytes) (inLen outLen : Nat) (par : Bytes) : Bytes :=
  toLe 2 op ++ toLe 2 (1 + 32 * src) ++ zeros 6 ++ toLe 2 param ++ zeros 4 ++ padTo 16 ref0 ++ padTo 16 ref1 ++ zeros 16
    ++ zeros 16 ++ toLe 4 inLen ++ toLe 4 outLen ++ padTo 40 par

def regBytes (s : State) (p : Page) (f : Nat → Fld) (n : Nat) : Bytes := (List.range n).flatMap (fun i => toLe 4 (s.rd p (f i)))

/-- No length limit of an output buffer binds direct use. -/
def noCap : Nat := 2 ^ 24 - 1

/-- The opcode a cipher engine's registers describe: MODE 0x9 is CMAC and 0xA GMAC (R260). -/
def ceOp (s : State) (p : Page) : Nat :=
  let dir := s.rd p Reg.CE_MODE_DIR
  if 9 ≤ s.rd p Reg.CE_MODE_MODE then 0x0303 + dir else 0x0201 + dir

/-- The job of a cipher engine's registers. Of CE_IV, CE_TAG, CE_AAD_LEN and CE_DU_LEN only what the mode uses counts. -/
def ceDesc (s : State) (p : Page) : Bytes :=
  let m := s.rd p Reg.CE_MODE_MODE
  let src := s.rd p Reg.CE_MODE_NONCE_SRC
  let t := s.rd p Reg.CE_MODE_TAG_LEN
  let iv := regBytes s p Reg.CE_IV_IV 4
  let tag := regBytes s p Reg.CE_TAG_TAG 4
  let k0 := entryRef (s.rd p Reg.CE_KEY0_INDEX)
  let k1 := if s.flag p Reg.CE_KEY1_USE then entryRef (s.rd p Reg.CE_KEY1_INDEX) else []
  let tdes := isTdes (s.rd p Reg.CE_MODE_ALG)
  let op := ceOp s p
  if 9 ≤ m then
    let param := m - 9 + t % 128 * 256
    let gmac := m == 10
    let keep := if op = 0x0304 then min 16 (macTagLen param tdes) else 0
    directDesc op src param k0 [] (s.rd p Reg.CE_LEN_LEN) noCap
      (padTo 16 (iv.take (if gmac && src == 0 then 12 else 0)) ++ toLe 4 (if gmac then s.rd p Reg.CE_AAD_LEN_LEN else 0)
        ++ zeros 4 ++ padTo 16 (tag.take keep))
  else
    let param := m + t % 32 * 16 + s.rd p Reg.CE_MODE_NONCE_LEN * 512
    let keep := if op = 0x0202 ∧ (m = mGCM ∨ m = mCCM) then cTag param else 0
    let used := if m = mCBC ∧ tdes then 8 else ivBytes param src
    directDesc op src param k0 k1 (s.rd p Reg.CE_LEN_LEN) noCap
      (padTo 16 (iv.take used) ++ toLe 4 (if modeAad m then s.rd p Reg.CE_AAD_LEN_LEN else 0)
        ++ toLe 4 (if m = mXTS then s.rd p Reg.CE_DU_LEN_LEN else 0) ++ padTo 16 (tag.take keep))

/-- The job of a hash engine's registers (R261); an HMAC tag stands whole in HE_TAG. -/
def heDesc (s : State) (p : Page) : Bytes :=
  let f := s.rd p Reg.CE_MODE_MODE
  let n := s.rd p Reg.CE_LEN_LEN
  if s.flag p Reg.HE_MODE_MAC then
    directDesc 0x0303 0 (2 + f * 16 + s.rd p Reg.CE_MODE_TAG_LEN * 256) (entryRef (s.rd p Reg.CE_KEY0_INDEX)) [] n noCap []
  else if f = 7 ∨ f = 8 then directDesc 0x0302 0 f [] [] n (s.rd p Reg.CE_DU_LEN_LEN) []
  else directDesc 0x0301 0 f [] [] n noCap []

def symDesc (s : State) (h u : Nat) : Bytes := if isHash u then heDesc s (pgU h u) else ceDesc s (pgU h u)

/-- The longest input and output of a job (R218, R227). -/
def maxData : Nat := 0x800000

/-- A length of the registers beyond 8 MiB (R218, R227). -/
def tooLong (s : State) (h u : Nat) : Bool :=
  let p := pgU h u
  decide (maxData < s.rd p Reg.CE_LEN_LEN) || (isHash u && decide (maxData < dOutLen (symDesc s h u))
    && dOp (symDesc s h u) == 0x0302)

/-- What R218, R227 and R229 refuse of the registers, before any key is looked at. -/
def symCheck (s : State) (h u : Nat) : Option Nat :=
  let p := pgU h u
  let alg := s.rd p Reg.CE_MODE_ALG
  let d := symDesc s h u
  if isHash u then
    if s.flag p Reg.HE_MODE_MAC then (if alg ≠ 0x06 then some stBadDescriptor else macCheck d false)
    else if alg ≠ 0 then some stBadDescriptor
    else opCheck d
  else if !(isAes alg || isTdes alg) ∨ 10 < s.rd p Reg.CE_MODE_MODE then some stBadDescriptor
  else if dOp d = 0x0303 ∨ dOp d = 0x0304 then
    if s.flag p Reg.CE_KEY1_USE ∨ s.rd p Reg.CE_MODE_NONCE_LEN ≠ 0 then some stBadDescriptor else macCheck d (dOp d == 0x0304)
  else if 16 < s.rd p Reg.CE_MODE_TAG_LEN then some stBadDescriptor
  else cipherCheck d (dOp d == 0x0202)

/-! ### Keys at START (R262) -/

/-- R185 for one reference of a direct-use job: any entry for the inner world, for the outer world an entry of 0xFFF2. -/
def directKey (s : State) (h : Nat) (outer : Bool) (d : Bytes) (us : List Nat) (i : Nat) (first : Option KeyView) :
    Except Nat KeyView :=
  let idx := rIndex (dRef d i)
  match (s.H h).cache.find? idx with
  | none => .error stKeyNotFound
  | some e =>
    if e.state ≠ .valid then .error stKeyNotFound
    else
      let v := entryView s h idx e
      let a := v.hold.attr
      if outer ∧ a.owner ≠ idOuter then .error stKeyOwner
      else if (!us.isEmpty && !us.contains a.usage) || flagGroup a.flags || opDenied s h d i (first.getD v) v then .error stKeyUsage
      else if a.expiry ≠ 0 ∧ a.expiry ≤ s.now then .error stKeyExpired
      else if a.limit ≠ 0 ∧ a.limit ≤ v.uses then .error stUsageLimit
      else if i = 0 ∧ dNonceSrc d = 1 ∧ v.nonce = 2 ^ 64 - 1 then .error stNonceExhausted
      else .ok v

/-- The usages that permit an opcode in direct use. The tag of a verification is checked under MAC_VERIFY. -/
def directUsages (op : Nat) (verify : Bool) : List Nat :=
  if op = 0x0201 then [uEncrypt] else if op = 0x0202 then [uDecrypt]
  else if op = 0x0303 then (if verify then [uMacVer] else [uMacGen]) else if op = 0x0304 then [uMacVer]
  else if op = 0x0401 then [uSign] else if op = 0x0402 then [uVerify] else []

/-- The references of a direct-use job in turn. -/
def directKeys (s : State) (h : Nat) (outer : Bool) (d : Bytes) (us : List Nat) : Except Nat (List KeyView) :=
  if rKind (dRef d 0) = kNone then .ok []
  else match directKey s h outer d us 0 none with
    | .error e => .error e
    | .ok v0 =>
      if rKind (dRef d 1) = kNone then .ok [v0]
      else match directKey s h outer d us 1 (some v0) with
        | .error e => .error e
        | .ok v1 => .ok [v0, v1]

/-- The checks that need a key, after R185: the algorithm the registers name, and the lengths. -/
def directLate (d : Bytes) (alg : Nat) (vs : List KeyView) : Option Nat :=
  match vs with
  | [] => none
  | v :: r =>
    let a := v.hold.attr
    if a.alg ≠ alg then some stBadDescriptor else lateCheck false d a ((r.map (·.hold.attr)).getD 0 {}) false

/-- All of a symmetric engine's checks: the keys, or the failing status. -/
def symKeys (s : State) (h u : Nat) (outer : Bool) : Except Nat (List KeyView) :=
  match (symCheck s h u).or (if tooLong s h u then some stBadLength else none) with
  | some e => .error e
  | none =>
    let d := symDesc s h u
    let p := pgU h u
    match directKeys s h outer d (directUsages (dOp d) (s.flag p Reg.CE_MODE_DIR)) with
    | .error e => .error e
    | .ok vs =>
      match directLate d (s.rd p Reg.CE_MODE_ALG) vs with
      | some e => .error e
      | none => if !vs.isEmpty && isolating s then .error stQuenched else .ok vs

/-! ### Big-number operations (R383, R384) -/

def bnPage (h n : Nat) : Page := pgH .bignum h n

/-- KEY_BITS of an algorithm that has one length; RSA takes BN_LEN. -/
def algBits (alg rsa : Nat) : Nat :=
  if alg = 0x10 then rsa
  else ([256, 384, 521, 255, 448, 512, 768, 1024, 44, 65, 87].find? (fun b => (matLen alg b).isSome)).getD 0

/-- Regions of a raw modular operation. R356 lists none; DESIGN CHOICE: those of the RSA length that holds the modulus. -/
def rawRegions (bits : Nat) : Nat := if bits ≤ 4096 then 4 else 8

/-- BN_OP.OP of R383 as an opcode of class 0x04; raw operations keep their own number. -/
def bnOpcode (op : Nat) : Option Nat :=
  if op = 1 then some 0x0401 else if op = 2 then some 0x0402 else if op = 3 then some 0x0403
  else if op = 0x10 ∨ op = 0x11 ∨ op = 0x20 then some op else none

/-- The job of a big-number engine's registers; a supplied public key stands in PARAMS by algorithm and length. -/
def bnDesc (s : State) (h n : Nat) : Bytes :=
  let p := bnPage h n
  let op := (bnOpcode (s.rd p Reg.BN_OP_OP)).getD 0
  let alg := s.rd p Reg.BN_OP_ALG
  let key := s.flag p Reg.BN_KEY_USE && decide (0x0401 ≤ op)
  directDesc op 0 (s.rd p Reg.BN_OP_PARAM) (if key then entryRef (s.rd p Reg.BN_KEY_INDEX) else []) []
    (s.rd p Reg.BN_IN_LEN_LEN) (2 ^ 17)
    (if key then [] else [byte alg, 0, 0, 0] ++ toLe 2 (algBits alg (s.rd p Reg.BN_LEN_BITS)))

/-- A curve of POINT_MUL. -/
def isCurve (alg : Nat) : Bool := isWeier alg || isEd alg || alg == 0x2A

/-- Refusals of OP, PARAM, ALG and BN_LEN (R348, R383, R384). -/
def bnCheck (s : State) (h n : Nat) : Option Nat :=
  let p := bnPage h n
  let op := s.rd p Reg.BN_OP_OP
  let alg := s.rd p Reg.BN_OP_ALG
  let par := s.rd p Reg.BN_OP_PARAM
  let bits := s.rd p Reg.BN_LEN_BITS
  let eb := s.rd p Reg.BN_LEN_EXP_BITS
  let use := s.flag p Reg.BN_KEY_USE
  if op = 1 ∨ op = 2 then
    if pkParamBad 0x0401 par ∨ par.testBit 7 then some stBadDescriptor
    else if op = 1 ∧ !use then some stBadDescriptor
    else if !use ∧ !algCodes.contains alg then some stBadDescriptor
    else if !use ∧ ((matLen alg (algBits alg bits)).isNone ∨ !schemeFits (pScheme par) alg) then some stKeyUsage
    else none
  else if op = 3 then (if par ≠ 0 ∨ !use then some stBadDescriptor else none)
  else if op = 0x10 ∨ op = 0x11 then
    if par ≠ 0 ∨ alg ≠ 0 then some stBadDescriptor
    else if bits < 192 ∨ 8192 < bits ∨ bits % 64 ≠ 0 ∨ (op = 0x11 ∧ (eb = 0 ∨ 8192 < eb)) then some stBadLength else none
  else if op = 0x20 then (if par ≠ 0 ∨ !isCurve alg then some stBadDescriptor else none)
  else some stBadDescriptor

/-- Algorithm and length of a big-number job. -/
def bnKind (s : State) (h n : Nat) (vs : List KeyView) : Nat × Nat :=
  let p := bnPage h n
  match vs with
  | v :: _ => (v.hold.attr.alg, v.hold.attr.bits)
  | [] => (s.rd p Reg.BN_OP_ALG, algBits (s.rd p Reg.BN_OP_ALG) (s.rd p Reg.BN_LEN_BITS))

/-- The input bytes a job must have, where the operation fixes them. -/
def bnInLen (s : State) (h n : Nat) (alg bits : Nat) : Option Nat :=
  let p := bnPage h n
  let op := s.rd p Reg.BN_OP_OP
  let k := s.rd p Reg.BN_LEN_BITS / 8
  if op = 0x10 then some (3 * k) else if op = 0x11 then some (2 * k + (s.rd p Reg.BN_LEN_EXP_BITS + 7) / 8)
  else if op = 0x20 then some ((matLen alg bits).getD 0 + publicKeyLen alg bits) else none

/-- The result's bytes. -/
def bnOutLen (s : State) (h n : Nat) (alg bits : Nat) : Nat :=
  let op := s.rd (bnPage h n) Reg.BN_OP_OP
  if op = 1 then signatureLen alg bits else if op = 2 then 0
  else if op = 0x10 ∨ op = 0x11 then s.rd (bnPage h n) Reg.BN_LEN_BITS / 8 else publicKeyLen alg bits

/-- Span and lengths (R343, R344, R349): BAD_LENGTH. The result lies within the span: DEDUCED, the engine touches no line
outside it. -/
def bnLengths (s : State) (h n : Nat) (vs : List KeyView) : Option Nat :=
  let p := bnPage h n
  let (alg, bits) := bnKind s h n vs
  let op := s.rd p Reg.BN_OP_OP
  let need := if op = 0x10 ∨ op = 0x11 then rawRegions (s.rd p Reg.BN_LEN_BITS) else pkRegions alg bits
  let base := s.rd p Reg.BN_SPAN_BASE
  let cnt := s.rd p Reg.BN_SPAN_COUNT
  let len := s.rd p Reg.BN_IN_LEN_LEN
  let wrong := match bnInLen s h n alg bits with
    | some k => decide (len ≠ k)
    | none => false
  let d := bnDesc s h n
  if cnt < need ∨ 16 < base + cnt ∨ 8192 * cnt < len then some stBadLength
  else if 8192 * cnt < 64 * s.rd p Reg.BN_OUT_OFF_LINE + bnOutLen s h n alg bits then some stBadLength
  else if wrong then some stBadLength
  else if op = 1 ∨ (op = 2 ∧ vs.isEmpty) then
    match earlyLen d with
    | some e => some e
    | none => if op = 1 ∧ alg = 0x28 ∧ pCtx (dParam d) ≠ 0 then some stBadLength else none
  else none

/-- All of a big-number engine's checks. -/
def bnKeys (s : State) (h n : Nat) (outer : Bool) : Except Nat (List KeyView) :=
  match bnCheck s h n with
  | some e => .error e
  | none =>
    let d := bnDesc s h n
    match directKeys s h outer d (directUsages (dOp d) false) with
    | .error e => .error e
    | .ok vs =>
      match directLate d (s.rd (bnPage h n) Reg.BN_OP_ALG) vs with
      | some e => .error e
      | none =>
        match bnLengths s h n vs with
        | some e => .error e
        | none => if !vs.isEmpty && isolating s then .error stQuenched else .ok vs

/-! ### START -/

/-- The CODE and DONE fields of an engine. -/
def codeFld (u : Nat) : Fld := if isBn u then Reg.BN_STATUS_CODE else Reg.CE_STATUS_CODE
def doneFld (u : Nat) : Fld := if isBn u then Reg.BN_STATUS_DONE else Reg.CE_STATUS_DONE

/-- A failed check: DONE with the status in CODE, and nothing starts (R263, R385). -/
def failStart (h u st : Nat) (s : State) : State := (s.wr (pgU h u) (codeFld u) st).wr (pgU h u) (doneFld u) 1

/-- The classes that set the masking order: the key's, or of a raw operation RSA and its curve's (R384). -/
def directClasses (s : State) (h u : Nat) (vs : List KeyView) : List Nat :=
  let raw := if isBn u ∧ vs.isEmpty then
      let op := s.rd (pgU h u) Reg.BN_OP_OP
      if op = 0x10 ∨ op = 0x11 then [3] else [keyClass (s.rd (pgU h u) Reg.BN_OP_ALG)]
    else []
  vs.map (fun v => keyClass v.hold.attr.alg) ++ raw

/-- USES of each key, as at dispatch (R262). -/
def useKeys (h : Nat) (vs : List KeyView) (s : State) : State :=
  vs.foldl (fun s v =>
    match v.hold.use with
    | .cache i => s.modH h (fun x => { x with cache := x.cache.upd i (fun e => { e with uses := satAdd 32 e.uses 1 }) })
    | _ => s) (addCtr h 151 vs.length s)

/-- The random bytes of a waiting or starting job (R187, R389): drawn now, or the job waits. -/
def directDraw (h u : Nat) (d : Bytes) (s : State) : State :=
  let e := s.eng h u
  let n := drawBytes d e.keys
  if n = 0 then s
  else match drbgLower h n false s with
    | some (r, s) => s.modEng h u (fun e => { e with rand := r, waitDraw := false })
    | none => s.modEng h u (fun e => { e with waitDraw := true })

/-- A job whose checks passed starts; a masked job whose generator is stopped pauses at once (R243). -/
def startDirect (h u : Nat) (d : Bytes) (vs : List KeyView) (s : State) : State :=
  let s := useKeys h vs s
  let ks := vs.map (·.hold)
  let (nonce, s) := if dNonceSrc d = 1 then drawNonce h d (ks.getD 0 {}) [unitNo u] [] s else ([], s)
  let o2 := unitOrder2 s h u (directClasses s h u vs)
  let s := s.modEng h u (fun e =>
    { e with busy := true, paused := !unmasked s h u && !mgReady e, order2 := o2, keysLoaded := !vs.isEmpty, keys := ks,
             nonce := nonce, rand := [], pendCode := 0, streamed := unmasked s h u || mgReady e })
  directDraw h u d s

/-- A START bit written as 1 (R260, R262, R386). -/
def doStart (h u : Nat) (who : Requester) (d : Bytes) (ks : Except Nat (List KeyView)) (s : State) : State :=
  let p := pgU h u
  let e := s.eng h u
  match holderFault s h u who with
  | some c => refuse p who ctrlOff 1 c s
  | none =>
    if e.busy ∨ e.clearing then refuse p who ctrlOff 1 cState s
    else match ks with
      | .error st => failStart h u st s
      | .ok vs => startDirect h u d vs s

def ceStart (h u : Nat) (who : Requester) (s : State) : State :=
  doStart h u who (symDesc s h u) (symKeys s h u (isOuter who)) s

def bnStart (h n : Nat) (who : Requester) (s : State) : State :=
  doStart h (12 + n) who (bnDesc s h n) (bnKeys s h n (isOuter who)) s

def execCeStart (h : Fin 16) (n : Fin 8) (who : Requester) (s : State) : Result :=
  .next (onHearth h.val (ceStart h.val n.val who) s)

def execHeStart (h : Fin 16) (n : Fin 4) (who : Requester) (s : State) : Result :=
  .next (onHearth h.val (ceStart h.val (8 + n.val) who) s)

def execBnStart (h : Fin 16) (n : Fin 4) (who : Requester) (s : State) : Result :=
  .next (onHearth h.val (bnStart h.val n.val who) s)

/-! ### The function of a direct-use job -/

def srcAddr (s : State) (p : Page) : Nat := s.rd p Reg.CE_SRC_LO_ADDR + 2 ^ 32 * s.rd p Reg.CE_SRC_HI_ADDR
def dstAddr (s : State) (p : Page) : Nat := s.rd p Reg.CE_DST_LO_ADDR + 2 ^ 32 * s.rd p Reg.CE_DST_HI_ADDR

/-- Whether the tag registers take a result. -/
def makesTag (s : State) (h u : Nat) : Bool :=
  let p := pgU h u
  let d := symDesc s h u
  let dir := s.flag p Reg.CE_MODE_DIR
  if dOp d = 0x0303 then !(isHash u && dir)
  else dOp d == 0x0201 && modeAad (pMode (dParam d))

/-- A symmetric job on its input: status, output for the destination, tag. `d` is what its registers described. -/
def symRun (s : State) (h u : Nat) (inp d : Bytes) : RunOut :=
  let p := pgU h u
  let e := s.eng h u
  let op := dOp d
  let par := dParam d
  let k0 := e.keys.getD 0 {}
  if op = 0x0301 ∨ op = 0x0302 then { out := hashRun par (dOutLen d) inp }
  else if op = 0x0303 ∨ op = 0x0304 then
    let t := macTagLen par (isTdes k0.attr.alg)
    let hw := dNonceSrc d != 0
    let nonce := if dNonceSrc d = 1 then e.nonce else e.rand.take 12
    let m := macRun (pMac par) (pFunc par) k0.attr.alg k0.mat (if hw then nonce else qIv d) t inp
    let want := (regBytes s p Reg.CE_TAG_TAG (if isHash u then 16 else 4)).take t
    let ver := op == 0x0304 || (isHash u && s.flag p Reg.CE_MODE_DIR)
    if !ver then { tag := m } else if m = want then {} else .fail stTagMismatch
  else
    cipherRun (cipherJobOf { desc := d, keys := e.keys, nonce := if dNonceSrc d = 1 then e.nonce else e.rand.take 12 } (op == 0x0202)) inp

/-- The nonce registers after a hardware nonce (R249). -/
def putNonce (h u : Nat) (s : State) : State :=
  let d := symDesc s h u
  let e := s.eng h u
  let src := dNonceSrc d
  let b := if src = 1 then e.nonce else e.rand.take 12
  if isHash u ∨ src = 0 ∨ b.isEmpty then s
  else
    (List.range 4).foldl (fun s i => s.wr (pgU h u) (Reg.CE_IV_IV i) (fieldLe b (4 * i) 4)) s

/-- The tag registers after a job that made a tag. -/
def putTag (h u : Nat) (t : Bytes) (s : State) : State :=
  (List.range (if isHash u then 16 else 4)).foldl (fun s i => s.wr (pgU h u) (Reg.CE_TAG_TAG i) (fieldLe t (4 * i) 4)) s

/-- The masked engine's keys with their third shares at order 2, before first use (R233). -/
def directKeysIn (h u : Nat) (s : State) : State :=
  s.modEng h u (fun e =>
    if !e.order2 then e
    else { e with keys := (thirdShares e.keys e.mg).1, mg := (thirdShares e.keys e.mg).2 })

/-- Data through a masked engine's rows: it enters in fresh shares and is unmasked on its way out (R234). An unmasked job's data
passes as it is. -/
def throughRows (h u : Nat) (b : Bytes) (s : State) : Bytes × State :=
  if unmasked s h u then (b, s)
  else
    let (l, s) := withMg h u (fun g => g.split (s.eng h u).order2 b) s
    (unshare l, s)

/-- The output bytes of a symmetric job of direct use, as far as its registers set them. -/
def symOutLen (d : Bytes) : Nat :=
  if dOp d = 0x0201 then cipherOut d false else if dOp d = 0x0202 then cipherOut d true else 0

/-- Output that a failed job had written, overwritten with zero (R226, R243). -/
def wipeOut (h u n : Nat) (s : State) : State := (engineDma h u (dstAddr s (pgU h u)) n (some (zeros n)) s).1

/-- The outcome of a symmetric job: the status, and the bytes written. The nonce drawn at START stands in CE_IV whatever becomes of
the job (R249). -/
def symEnd (h u : Nat) (s : State) : State × Nat × Nat :=
  let p := pgU h u
  let d := symDesc s h u
  let e := s.eng h u
  let s := putNonce h u s
  if e.pendCode ≠ 0 then (if e.streamed then wipeOut h u (symOutLen d) s else s, e.pendCode, 0)
  else
    match engineDma h u (srcAddr s p) (s.rd p Reg.CE_LEN_LEN) none s with
    | (s, .error st) => (s, st, 0)
    | (s, .ok inp) =>
      let (inp, s) := throughRows h u inp (directKeysIn h u s)
      let r := symRun s h u inp d
      let made := makesTag s h u
      if r.status = stOK then
        let (out, s) := throughRows h u r.out s
        let s := if made then putTag h u r.tag s else s
        match engineDma h u (dstAddr s p) out.length (some out) s with
        | (s, .error st) => (s, st, 0)
        | (s, .ok _) => (s, stOK, out.length)
      else if dOp d = 0x0202 then (wipeOut h u (cipherOut d true) s, r.status, 0)
      else (s, r.status, 0)

/-- MODMUL and MODEXP (R366, R383): the result, or the lowest sub-code. -/
def rawRun (exp : Bool) (k bits : Nat) (inp : Bytes) : PkOut :=
  let a := fieldBe inp 0 k
  let b := if exp then beNat (inp.drop (2 * k)) else fieldBe inp k k
  let n := fieldBe inp (if exp then k else 2 * k) k
  let f := match operandFault a n exp, (if exp then none else operandFault b n false) with
    | some x, some y => some (min x y)
    | some x, none => some x
    | none, y => y
  match f with
  | some e => { status := inputInvalid e }
  | none =>
    if modulusBad n bits then { status := inputInvalid 9 }
    else { out := toBe k (if exp then powMod a b n else a * b % n) }

/-- POINT_MUL (R383): the scalar in the form of the curve's private key, the point in its public encoding; infinity is encoded
as zeros. Cases 6 and 8 of R366 are none of its own: an Edwards point with x = 0 counts whatever its sign bit. -/
def pointMul (alg bits : Nat) (inp : Bytes) : PkOut :=
  let n := (matLen alg bits).getD 0
  let k := inp.take n
  let q := inp.drop n
  if alg = 0x2A then (if uRange q then { status := inputInvalid 7 } else { out := x25519 k q })
  else if isEd alg then
    let S := edScheme (alg == 0x29)
    match edFault (alg == 0x29) false q with
    | some e => { status := inputInvalid e }
    | none => { out := Edwards.encode S.n (S.c.mul (leNat k) ((S.c.decode S.n q).getD (0, edY (alg == 0x29) q))) }
  else
    let c := curveOf alg
    match pointFault c q with
    | some e => { status := inputInvalid e }
    | none =>
      match c.mul (beNat k) (pointOf c q) with
      | some (x, y) => { out := toBe c.len x ++ toBe c.len y }
      | none => { out := zeros (2 * c.len) }

/-- A big-number job on its input. -/
def bnRun (s : State) (h n : Nat) (inp : Bytes) : PkOut :=
  let p := bnPage h n
  let e := s.eng h (12 + n)
  let op := s.rd p Reg.BN_OP_OP
  let par := s.rd p Reg.BN_OP_PARAM
  let k := e.keys.getD 0 {}
  let alg := if e.keys.isEmpty then s.rd p Reg.BN_OP_ALG else k.attr.alg
  let bits := if e.keys.isEmpty then algBits alg (s.rd p Reg.BN_LEN_BITS) else k.attr.bits
  if op = 1 then pkSign alg bits k.mat par e.rand (max 814 (s.rd p Reg.BN_LIMIT_ATTEMPTS)) inp
  else if op = 2 then
    let pl := if e.keys.isEmpty then publicKeyLen alg bits else 0
    let sl := signatureLen alg bits
    pkVerify alg bits (if e.keys.isEmpty then some (inp.take pl) else none) k.mat par (slice inp pl sl) (inp.drop (pl + sl))
  else if op = 3 then { out := publicKey alg bits k.mat }
  else if op = 0x20 then pointMul alg bits inp
  else rawRun (op == 0x11) (s.rd p Reg.BN_LEN_BITS / 8) (s.rd p Reg.BN_LEN_BITS) inp

/-- The engine-cycle count of a direct big-number job (R358, R383, R384). -/
def bnDirectCycles (s : State) (h n tries : Nat) : Nat :=
  let p := bnPage h n
  let e := s.eng h (12 + n)
  let op := s.rd p Reg.BN_OP_OP
  let bits := s.rd p Reg.BN_LEN_BITS
  let a := (e.keys.getD 0 {}).attr
  let raw := fun (c : Nat) => if e.order2 then c + c / 2 else c
  if op = 0x10 then raw (mulCount bits) else if op = 0x11 then raw (expCount bits (s.rd p Reg.BN_LEN_EXP_BITS))
  else if op = 0x20 then pkCount .pub (s.rd p Reg.BN_OP_ALG) 0 0 1 e.order2
  else unitCycles (bnDesc s h n) a {} tries e.order2 (12 + n)

/-- BN_CYCLES and BN_ATTEMPTS of a direct-use job (R362, R387). -/
def bnReport (h n tries : Nat) (s : State) : State :=
  let p := bnPage h n
  (s.wr p Reg.BN_CYCLES_COUNT (min (bnDirectCycles s h n tries) (2 ^ 32 - 1))).wr p Reg.BN_ATTEMPTS_COUNT
    (if s.rd p Reg.BN_OP_OP = 1 then min tries 0xFFFF else 1)

/-- The outcome of a big-number job; the rest of its span is working memory, the result lines are public. A failed invariant or an edge
input leaves zeros there (R365, R366). The raw operations have no invariant (R364). -/
def bnEnd (h n : Nat) (inv : Bool) (s : State) : State × Nat × Nat :=
  let p := bnPage h n
  let e := s.eng h (12 + n)
  if e.pendCode ≠ 0 then (bnReport h n 1 s, e.pendCode, 0)
  else
    let base := 128 * s.rd p Reg.BN_SPAN_BASE
    let r := bnRun s h n (getLines s h n base (s.rd p Reg.BN_IN_LEN_LEN))
    let op := s.rd p Reg.BN_OP_OP
    let kind := if e.keys.isEmpty then (s.rd p Reg.BN_OP_ALG, algBits (s.rd p Reg.BN_OP_ALG) (s.rd p Reg.BN_LEN_BITS))
      else ((e.keys.getD 0 {}).attr.alg, (e.keys.getD 0 {}).attr.bits)
    let len := bnOutLen s h n kind.1 kind.2
    let s := bnReport h n r.tries s
    let st := if inv || decide (0x10 ≤ op) then r.status else stInvariant
    let zero := decide (st = stInvariant) || decide (0x4100 ≤ st ∧ st < 0x4200)
    let out := if st = stOK then r.out else if zero then zeros len else []
    let used := (s.rd p Reg.BN_IN_LEN_LEN + 63) / 64
    let res := base + s.rd p Reg.BN_OUT_OFF_LINE
    let s := workLines h n (base + used) res (res + (len + 63) / 64) (decide (op ≠ 2)) (!e.keys.isEmpty) (128 * s.rd p Reg.BN_SPAN_COUNT - used) s
    (putLines h n res out s, st, if st = stOK then r.out.length else 0)

/-- The engine sets DONE and CODE and raises its event (R263, R385); a release written meanwhile takes effect (R254). -/
def finishDirect (h u code len cycles : Nat) (s : State) : State :=
  let p := pgU h u
  let s := (s.wr p (if isBn u then Reg.BN_OUT_LEN_LENGTH else Reg.CE_OUT_LEN_LENGTH) len).wr p (codeFld u) code
  let s := addCtr h (128 + u) cycles (s.wr p (doneFld u) 1)
  let rel := (s.eng h u).relPending
  let s := s.modEng h u (fun e =>
    { e with busy := false, paused := false, waitDraw := false, keysLoaded := false, keys := [], nonce := [], rand := [],
             pendCode := 0, streamed := false })
  let ev := if isBn u then evBnDone else if isHash u then evHeDone else evCeDone
  let s := raiseH h ev p { inst := unitNo u, payload := captureBytes p s } s
  if rel then releaseLock h u s else s

/-- The end of a direct-use job. -/
def endDirect (h u : Nat) (inv : Bool) (s : State) : State :=
  let s := if (s.eng h u).waitDraw then directDraw h u (if isBn u then bnDesc s h (u - 12) else symDesc s h u) s else s
  let e := s.eng h u
  if !e.busy ∨ e.paused ∨ e.waitDraw ∨ !s.up h then s
  else if isBn u then
    let (s, code, len) := bnEnd h (u - 12) inv s
    let s := finishDirect h u code len (s.rd (pgU h u) Reg.BN_CYCLES_COUNT) s
    if code = stInvariant then
      requestKat h u false (raiseH h evBnInvariant (pgU h u) { inst := unitNo u, payload := captureBytes (pgU h u) s } s)
    else s
  else
    let d := symDesc s h u
    let n := unitCycles d (e.keys.getD 0 {}).attr {} 1 e.order2 u
    let (s, code, len) := symEnd h u s
    finishDirect h u code len (n + zeroCycles d code (symOutLen d)) s

/-! ### ENGINE_JOB_END -/

/-- The job on an engine ends: a queued job settles, or is aborted where its VF is being reset (R102); a direct-use job sets
DONE. -/
def doJobEnd (h u : Nat) (inv : Bool) (s : State) : State :=
  match (s.eng h u).job with
  | none => endDirect h u inv s
  | some j =>
    match s.job? h j with
    | none => s
    | some jb =>
      if !s.works h then s
      else if s.damper jb.vf = dampResetting ∧ runsOn jb then abortJob h j s
      else endQueued h u j inv s

def execEngineJobEnd (h : Fin 16) (u : Fin 20) (invariantHolds : Bool) (s : State) : Result :=
  .next (doJobEnd h.val u.val invariantHolds s)

end Sys2Proof.Machine
end

