-- ==== Sys2Proof/Machine/MemCtl.lean ====
section
/-! DEFINITION. Control of the memory path: training (R466, R467), patrol scrub (R469), protected ranges (R474 to R481),
ownership commands (R498 to R501, R510), memory protection units (R503, R509) and re-encryption (R488). -/

namespace Sys2Proof.Machine

/-! ### The sub-channel -/

/-- A register refusal captured on HEARTH.MEMPATH in the format of R711: R467 asks for it, the one such capture there. The
words are those of R711; their fields stand where R512 has its own. -/
def captureMem (h : Nat) (who : Requester) (off data cause : Nat) (s : State) : State :=
  let p := memPage h
  if s.flag p Reg.MERR_CAPTURE3_VALID then s.bump p Reg.MERR_COUNT_COUNT
  else
    let s := (s.wr p Reg.MERR_CAPTURE0_ADDR_LO (off + reqCode who * 2 ^ 12 + reqCore who * 2 ^ 15)).wr p
      Reg.MERR_CAPTURE1_ADDR_HI data
    let s := ((s.wr p Reg.MERR_CAPTURE1_MASTER 0).wr p Reg.MERR_CAPTURE1_WORLD 0).wr p Reg.MERR_CAPTURE1_MMODE 0
    let s := (s.wr p Reg.MERR_CAPTURE1_KIND 0).wr p Reg.MERR_CAPTURE2_VF 0x1FF
    let s := (s.wr p Reg.MERR_CAPTURE2_IDENTITY (reqIdentity who)).wr p Reg.MERR_CAPTURE3_GEN (s.rd p Reg.PAGE_GEN_GEN)
    (s.wr p Reg.MERR_CAPTURE3_CAUSE cause).wr p Reg.MERR_CAPTURE3_VALID 1

/-- The capacity that MEM_CFG describes. -/
def cfgGib (s : State) (h : Nat) : Nat :=
  let p := memPage h
  capGib (s.rd p Reg.MEM_CFG_RATE) (s.rd p Reg.MEM_CFG_WIDTH) (s.rd p Reg.MEM_CFG_RANKS) (s.rd p Reg.MEM_CFG_DENSITY)

/-- MEM_CTRL.INIT (R466, R467). -/
def memInit (h : Nat) (who : Requester) (s : State) : State :=
  let p := memPage h
  if !mgrOrInner who then s
  else if s.memState h ≠ 0 then captureMem h who 0x044 1 cState s
  else
    let s := s.wr p Reg.PAGE_CTRL_LOCK 1
    s.wr p Reg.MEM_STATUS_STATE (if cfgGib s h = 0 then 3 else 1)

def execMemInit (h : Fin 16) (who : Requester) (s : State) : Result := .next (onHearth h.val (memInit h.val who) s)

/-- The training ends. The dump region has its place from then on. -/
def memTrained (h : Nat) (ok : Bool) (s : State) : State :=
  let p := memPage h
  if s.memState h ≠ 1 ∨ !s.up h then s
  else if ok then
    let s := (s.wr p Reg.MEM_STATUS_STATE 2).wr p Reg.MEM_CFG_CAP_GIB (cfgGib s h)
    s.modH h (fun x => { x with dump := { x.dump with base := some (s.memInner h + dumpBase) } })
  else s.wr p Reg.MEM_STATUS_STATE 3

def execMemTrainingDone (h : Fin 16) (ok : Bool) (s : State) : Result := .next (memTrained h.val ok s)

/-- What a raw read of the patrol can find: no tag and no CMAC is verified, and a line of the ownership table is poisoned as a
data line is (R469, R492). -/
def scrubView (c : LineCheck) : LineCheck :=
  match c with
  | .clean => .clean
  | .corrected => .corrected
  | .uncorrectable => .uncorrectable
  | .integrity => .clean
  | .macLine => .macLine
  | .counter ecc => if ecc then .counter true else .clean
  | .node l ecc => if ecc then .node l true else .clean
  | .ownTable => .uncorrectable

/-- One line of the patrol scrub, in H0 and H1. -/
def patrol (h off : Nat) (c : LineCheck) (s : State) : State :=
  if !s.up h ∨ !s.memReady h ∨ !s.flag (memPage h) Reg.MEM_CTRL_SCRUB_EN ∨ s.memCap h ≤ off then s
  else lineFinding h off (scrubView c) s

def execPatrolScrub (h : Fin 16) (off : BitVec 35) (line : LineCheck) (s : State) : Result :=
  .next (patrol h.val off.toNat line s)

/-! ### Ranges -/

/-- The range that the registers of a block describe. -/
def regRange (s : State) (h r : Nat) : MemRange :=
  let p := memPage h
  { base := 2 * mib * s.rd p (Reg.RNG_BASE_BASE r), size := 2 * mib * s.rd p (Reg.RNG_SIZE_SIZE r)
    metaAt := 4096 * s.rd p (Reg.RNG_META_META r), gen := s.rd p (Reg.RNG_GEN_GEN r)
    mode := s.rd p (Reg.RNG_CTRL_MODE r) }

/-- The metadata bytes of a range: only integrity mode has any. -/
def MemRange.metaLen (g : MemRange) : Nat := if g.mode = 2 then metaSize g.size else 0

/-- The other ranges' data and metadata that are not OFF. -/
def otherSpans (s : State) (h r : Nat) : List (Nat × Nat) :=
  ((List.range 8).filter (fun i => i != r && s.rangeState h i != rsOff)).flatMap (fun i =>
    let g := s.range h i
    [(g.base, g.size), (g.metaAt, g.metaLen)])

def hitsAny (l : List (Nat × Nat)) (b n : Nat) : Bool := n != 0 && l.any (fun p => p.2 != 0 && spansMeet p.1 p.2 b n)

/-- Every page of a span is FREE. -/
def spanFree (s : State) (h b n : Nat) : Bool :=
  (s.H h).mem.owners.all (fun p => !ownValid p.2 || !spansMeet (p.1 * 4096) 4096 b n || n == 0)

/-- The vault generation record of a range. -/
def vaultGen (s : State) (h r : Nat) : Nat := s.chim.vault.rngGens.getD (h * 8 + r) 0

/-- R475: the code that refuses an INIT. MODE off names no key, so that its generation is not looked at: DEDUCED from R477. -/
def initCode (s : State) (h r : Nat) : Option Nat :=
  let g := regRange s h r
  let top := s.memInner h
  let st := s.rangeState h r
  let other := otherSpans s h r
  if g.size < 2 * mib ∨ 2 ^ 35 < g.size ∨ top < g.base + g.size ∨ (g.mode = 2 ∧ top < g.metaAt + g.metaLen) then some 1
  else if (g.mode = 2 ∧ (hitsAny other g.metaAt g.metaLen ∨ spansMeet g.base g.size g.metaAt g.metaLen))
      ∨ hitsAny other g.base g.size then some 2
  else if (st = rsOff ∨ st = rsActive ∨ g.mode = 0)
      ∧ ¬(spanFree s h g.base g.size = true ∧ spanFree s h g.metaAt g.metaLen = true) then some 3
  else if g.mode ≠ 0 ∧ g.gen ≤ vaultGen s h r ∧ vaultGen s h r < 0xFFFFFFFF then some 4
  else if g.mode ≠ 0 ∧ vaultGen s h r = 0xFFFFFFFF then some 5
  else if st = rsInit ∨ g.mode = 3 then some 6
  else if g.mode ≠ 0 ∧ ((hearthRoot (s.H h)).isNone ∨ isolating s = true) then some 6
  else none

/-- RNG_CTRL.INIT of ranges 1 to 7 (R475 to R477, R479). -/
def rngInit (h r : Nat) (who : Requester) (s : State) : State :=
  let p := memPage h
  if r = 0 ∨ !mgrOrInner who then s
  else
    match initCode s h r with
    | some c => (s.wr p (Reg.RNG_STATUS_CFG_ERR r) 1).wr p (Reg.RNG_STATUS_CFG_CODE r) c
    | none =>
      let g := regRange s h r
      let s := (s.wr p (Reg.RNG_STATUS_CFG_ERR r) 0).wr p (Reg.RNG_STATUS_CFG_CODE r) 0
      let s := s.wr p (Reg.RNG_STATUS_CAUSE r) 0
      if g.mode = 0 then
        (s.wr p (Reg.RNG_STATUS_STATE r) rsOff).modMem h (fun m => { m with ranges := m.ranges.put r {} })
      else
        let s := s.modVault (fun v => { v with rngGens := v.rngGens.put (h * 8 + r) g.gen })
        let k := rangeKey ((hearthRoot (s.H h)).getD []) h r g.gen
        (derived h 1 (s.wr p (Reg.RNG_STATUS_STATE r) rsInit)).modMem h (fun m => { m with ranges := m.ranges.put r { g with key := k } })

def execRngInit (h : Fin 16) (r : Fin 8) (who : Requester) (s : State) : Result :=
  .next (onHearth h.val (rngInit h.val r.val who) s)

/-- Every data line and metadata line of a range has been written (R479). -/
def rangeReady (h r : Nat) (s : State) : State :=
  if !s.up h ∨ s.rangeState h r ≠ rsInit then s
  else
    let g := s.range h r
    let s := s.modMem h (fun m =>
      { m with
        ddr := memClear (memClear m.ddr g.base g.size) g.metaAt g.metaLen
        nodes := m.nodes.filter (fun l => !spanHas g.metaAt g.metaLen (64 * l))
        poison := m.poison.filter (fun l => l * 64 < g.base || g.base + g.size ≤ l * 64) })
    raiseMem h evRangeReady (memPage h) r (s.wr (memPage h) (Reg.RNG_STATUS_STATE r) rsActive)

def execMemRangeReady (h : Fin 16) (r : Fin 8) (s : State) : Result := .next (rangeReady h.val r.val s)

/-- The re-encryption unit has rewritten its page and goes on to the next (R488). -/
def reencDone (h : Nat) (s : State) : State :=
  if !s.up h ∨ (s.H h).mem.reenc.isEmpty then s
  else
    let s := s.modMem h (fun m => { m with reenc := m.reenc.drop 1 })
    let n := (s.H h).mem.reenc.length
    (s.wr (memPage h) Reg.MEM_REENC_BUSY (b2n (decide (0 < n)))).wr (memPage h) Reg.MEM_REENC_QUEUED (n - 1)

def execReencryptionDone (h : Fin 16) (s : State) : Result := .next (reencDone h.val s)

/-! ### Ownership commands -/

/-- The entry of a page after the pending commands. -/
def entryAfter (s : State) (h page : Nat) : Nat :=
  (s.H h).mem.pending.foldl (fun e c => if c.page ≤ page ∧ page < c.page + c.count then c.entry else e) (s.ownEntry h page)

/-- The pages of a command. -/
def regOwn (s : State) (h : Nat) : OwnCmd :=
  let p := memPage h
  { page := s.rd p Reg.OWN_PAGE_PAGE, count := max 1 (s.rd p Reg.OWN_COUNT_COUNT), entry := s.rd p Reg.OWN_ENTRY_ENTRY }

/-- R498: the code that refuses a GO. -/
def goCode (s : State) (h : Nat) : Option Nat :=
  let c := regOwn s h
  let p := memPage h
  let metas := ((List.range 8).filter (fun i => s.rangeState h i != rsOff)).map (fun i => ((s.range h i).metaAt, (s.range h i).metaLen))
  if s.memInner h < (c.page + c.count) * 4096 then some 1
  else if hitsAny metas (c.page * 4096) (c.count * 4096) then some 2
  else if s.flag p Reg.OWN_EXPECT_CHECK
      ∧ !(List.range c.count).all (fun i => entryAfter s h (c.page + i) % 2 ^ 16 == s.rd p Reg.OWN_EXPECT_OWNER) then some 3
  else if 64 ≤ (s.H h).mem.pending.length then some 4
  else if s.flag p Reg.OWN_STATUS_SYNC_BUSY then some 5
  else if !ownEntryOk c.entry then some 6
  else none

/-- OWN_CTRL.GO (R498, R501). -/
def ownGo (h : Nat) (who : Requester) (s : State) : State :=
  let p := memPage h
  if !mgrOrInner who then s
  else
    match goCode s h with
    | some c => (s.wr p Reg.OWN_STATUS_CMD_ERR 1).wr p Reg.OWN_STATUS_ERR_CODE c
    | none =>
      let s := s.modMem h (fun m => { m with pending := m.pending ++ [regOwn s h] })
      (s.wr p Reg.OWN_STATUS_CMD_ERR 0).wr p Reg.OWN_STATUS_ERR_CODE 0

def execOwnGo (h : Fin 16) (who : Requester) (s : State) : Result := .next (onHearth h.val (ownGo h.val who) s)

/-- OWN_CTRL.SYNC: the pages of the pending commands enter transition (R510). -/
def ownSync (h : Nat) (who : Requester) (s : State) : State :=
  let p := memPage h
  if !mgrOrInner who ∨ s.flag p Reg.OWN_STATUS_SYNC_BUSY then s
  else (s.wr p Reg.OWN_STATUS_SYNC_BUSY 1).modMem h (fun m => { m with transit := m.pending })

def execOwnershipSync (h : Fin 16) (who : Requester) (s : State) : Result := .next (onHearth h.val (ownSync h.val who) s)

/-- One page given its new entry (R499): a change of owner zero-fills it through its range first. A range that is not in force
takes no fill: its INIT writes zeros. -/
def setOwner (h page entry : Nat) (s : State) : State :=
  let old := s.ownEntry h page
  let moved := old % 2 ^ 17 != entry % 2 ^ 17
  let st := match s.rangeAt h (page * 4096) with
    | some r => s.rangeState h r
    | none => rsOff
  let s := if moved && (st == rsOff || st == rsActive) then ddrZero h (page * 4096) 4096 s else s
  s.modMem h (fun m => { m with owners := if entry = 0 then m.owners.del page else m.owners.put page entry })

/-- The commands applied in order; the transition ends (R510). -/
def ownSyncDone (h : Nat) (s : State) : State :=
  let p := memPage h
  if !s.up h ∨ !s.flag p Reg.OWN_STATUS_SYNC_BUSY then s
  else
    let s := (s.H h).mem.transit.foldl (fun s c =>
      (List.range c.count).foldl (fun s i => setOwner h (c.page + i) c.entry s) s) s
    let s := s.modMem h (fun m => { m with pending := [], transit := [] })
    let s := (s.wr p Reg.OWN_STATUS_SYNC_BUSY 0).wr p Reg.OWN_STATUS_GEN (s.rd p Reg.OWN_STATUS_GEN + 1)
    raiseMem h evOwnSyncDone p 0xFF s

def execOwnershipSyncDone (h : Fin 16) (s : State) : Result := .next (ownSyncDone h.val s)

/-! ### Memory protection units -/

/-- Region `i` of the shadow. -/
def shadowRegion (s : State) (h m i : Nat) : MpuRegion :=
  let p := mpuPage h m
  let f := fun (g : Nat → Fld) => s.rd p (g i) * 2 ^ (g i).lo
  { base := 2 ^ 32 * s.rd p (Reg.MPU_BASE_HI_BASE i) + 2 ^ 12 * s.rd p (Reg.MPU_BASE_LO_BASE i)
    attr := f Reg.MPU_ATTR_SIZE_LOG2 + f Reg.MPU_ATTR_READ + f Reg.MPU_ATTR_WRITE + f Reg.MPU_ATTR_EXEC + f Reg.MPU_ATTR_U
      + f Reg.MPU_ATTR_M + f Reg.MPU_ATTR_CACHE + f Reg.MPU_ATTR_ORDER + f Reg.MPU_ATTR_ENABLE }

/-- A region that R503 keeps disabled. -/
def regionBad (g : MpuRegion) : Bool := attrEnable g.attr && !regionOk g

/-- The regions that a SYNC puts into force; one that stays disabled has no entry. -/
def mpuImage (s : State) (h m : Nat) : Tab MpuRegion :=
  ((List.range 16).map (fun i => (i, shadowRegion s h m i))).filter (fun p => p.2 != {} && !regionBad p.2)

/-- Masters without writable regions (R507). -/
def fixedMaster (m : Nat) : Bool := m == 4 || m == 5 || (23 ≤ m && m ≤ 25)

/-- Who may act on a master's page: the inner world, and the outer world on those of masters 0 to 3 and 6 to 21 (R504). -/
def mpuWriter (m : Nat) (who : Requester) : Bool := isInner who || (isOuter who && (m < 4 || isEngineMaster m))

/-- MPU_CTRL.SYNC (R503, R509). -/
def mpuSync (h m : Nat) (who : Requester) (s : State) : State :=
  let p := mpuPage h m
  if !mpuWriter m who then s
  else
    let bad := (List.range 16).find? (fun i => regionBad (shadowRegion s h m i))
    let img := mpuImage s h m
    let s := s.modMem h (fun x => { x with mpus := x.mpus.put m { regions := img, syncing := true } })
    match bad with
    | some i => (s.wr p Reg.MPU_STATUS_CFG_ERR 1).wr p Reg.MPU_STATUS_CFG_REGION i
    | none => s

def execMpuSync (h : Fin 16) (m : Fin 26) (who : Requester) (s : State) : Result :=
  .next (onHearth h.val (mpuSync h.val m.val who) s)

/-- The last access checked under the old regions has completed (R509). DIRTY stays where the shadow was written meanwhile. -/
def mpuSyncDone (h m : Nat) (s : State) : State :=
  let p := mpuPage h m
  let u := (s.H h).mem.mpus.getD m {}
  if !s.up h ∨ !u.syncing then s
  else
    let s := s.modMem h (fun x => { x with mpus := x.mpus.put m { u with syncing := false } })
    (s.wr p Reg.PAGE_GEN_GEN (s.rd p Reg.PAGE_GEN_GEN + 1)).wr p Reg.MPU_STATUS_DIRTY (b2n (mpuImage s h m != u.regions))

def execMpuSyncDone (h : Fin 16) (m : Fin 26) (s : State) : Result := .next (mpuSyncDone h.val m.val s)

end Sys2Proof.Machine
end

