-- ==== Sys2Proof/Machine/Power.lean ====
section
/-! DEFINITION. Hearth power states, block requests and holds, power profiles and current flattening (R542 to R560, R562). -/

namespace Sys2Proof.Machine

def powerPage (h : Nat) : Page := pgH .power h

/-! ### Targets (R542 to R545, R550) -/

/-- A request deferred by a hold: its PWR_HELD bit, and the event once for each deferral (R550). -/
def deferReq (h bit inst : Nat) (s : State) : State :=
  if (s.rd (powerPage h) Reg.PWR_HELD_HELD).testBit bit then s
  else raiseH h evPwrHeld (powerPage h) { inst := inst } (s.orBit (powerPage h) Reg.PWR_HELD_HELD bit)

def undefer (h bit : Nat) (s : State) : State :=
  s.wr (powerPage h) Reg.PWR_HELD_HELD (setBit (s.rd (powerPage h) Reg.PWR_HELD_HELD) bit false)

def holds? (s : State) (h bit : Nat) : Bool := (s.rd (powerPage h) Reg.PWR_HOLD_HOLD).testBit bit

/-- PWR_CTRL.TARGET. -/
def setTarget (h : Nat) (who : Requester) (v : Nat) (s : State) : State :=
  let s := setFields (powerPage h) [(Reg.PWR_CTRL_TARGET, v)] s
  if 2 ≤ v ∧ !isInner who ∧ holds? s h 20 = true then deferReq h 20 h s
  else (undefer h 20 s).modH h (fun x => { x with pwrTarget := v })

/-- A write of PWR_CTRL by PF0 or the inner world (R545). -/
def onPwrCtrl (h : Nat) (who : Requester) (d : Nat) (f : State → State) (s : State) : State :=
  onHearth h (fun s => if mgrOrInner who then f s else refuse (powerPage h) who 0x040 d cRequester s) s

def execPwrTargetWrite (h : Fin 16) (who : Requester) (data : Word) (s : State) : Result :=
  .next (onPwrCtrl h.val who data.toNat (setTarget h.val who (bits data.toNat 0 2)) s)

/-- No job is RUNNING or COMPLETING. -/
def jobsQuiet (x : Hearth) : Bool := x.jobs.all (fun p => p.2.state != .running && p.2.state != .completing)

/-- No MPU_SYNC, OWNERSHIP_SYNC, range initialisation or re-encryption is in progress. -/
def memQuiet (s : State) (h : Nat) : Bool :=
  (s.H h).mem.mpus.all (fun p => !p.2.syncing) && (s.H h).mem.reenc.isEmpty
    && !s.flag (memPage h) Reg.OWN_STATUS_SYNC_BUSY && (List.range 8).all (fun r => s.rangeState h r != rsInit)

/-- Every core that is not halted waits for an interrupt: what an entry finds. -/
def coresWait (x : Hearth) : Hearth :=
  { x with cores := (List.range 4).foldl (fun c i =>
      if i = 0 ∨ (c.getD i {}).released then c.put i { (c.getD i {}) with wfi := true } else c) x.cores }

/-- H1_ENTRY: idle for PWR_IDLE µs (R542). -/
def doH1Entry (h : Nat) (s : State) : State :=
  let x := s.H h
  if !s.up h ∨ x.power ≠ 0 ∨ x.pwrTarget ≠ 1 ∨ !jobsQuiet x then s
  else s.modH h (fun x => { coresWait x with power := 1 })

def execH1Entry (h : Fin 16) (s : State) : Result := .next (doH1Entry h.val s)

def execH1Wake (h : Fin 16) (s : State) : Result :=
  .next (if (s.H h.val).power = 1 then wakeHearth h.val s else s)

/-- Randomness that H2 and H3 discard; a removed pair stays removed in H2 (R438, R442, R459, R562). -/
def dropRandom (x : Hearth) : Hearth :=
  { x with ent := { removed := x.ent.removed }, cacheMg := {}, engines := x.engines.mapVals (fun _ e => { e with mg := {} }) }

/-- H2_ENTRY (R542, R544). -/
def doH2Entry (h : Nat) (s : State) : State :=
  let x := s.H h
  if !s.up h ∨ x.pwrTarget ≠ 2 ∨ !jobsQuiet x ∨ !memQuiet s h then s
  else s.modH h (fun x => { coresWait (dropRandom x) with power := 2 })

def execH2Entry (h : Fin 16) (s : State) : Result := .next (doH2Entry h.val s)

/-- The exit of H2 that a target of H0 or H1 asks for (R542). -/
def execH2ExitDone (h : Fin 16) (s : State) : Result :=
  .next (if (s.H h.val).power = 2 ∧ (s.H h.val).pwrTarget ≤ 1 then wakeHearth h.val s else s)

/-- Bound VFs drained and no open group (R542, R543). -/
def quiesced (s : State) (h : Nat) : Bool :=
  (s.boundVfs h).all (fun v => s.damper v == dampDrained) && (s.H h).groups.isEmpty

/-- H3_ENTRY: the column H3 of R562, and the recorder of R660. -/
def doH3Entry (h : Nat) (s : State) : State :=
  let x := s.H h
  if !s.live h ∨ !s.up h ∨ x.pwrTarget ≠ 3 ∨ !jobsQuiet x ∨ !memQuiet s h ∨ !quiesced s h then s
  else
    let s := dropRanges h false s
    let p := pgH .events h
    let s := ((s.wr p Reg.EVR_SEQ_NEXT 0).wr p Reg.EVR_STATUS_FROZEN 0).wr p Reg.EVR_STATUS_FREEZER 0
    let s := s.modH h (fun x =>
      { hearthRest x x.compat with
        testRoot := x.testRoot, iiPending := x.iiPending, compatLock := x.compatLock, power := 3, pwrTarget := 3 })
    (clearImages h s).setHState h hsOff

def execH3Entry (h : Fin 16) (s : State) : Result := .next (doH3Entry h.val s)

/-! ### Profile and flattening (R554, R555, R557 to R559) -/

/-- PWR_CTRL.PROFILE: hc stops until the rail and the PLL have settled. -/
def setProfile (h : Nat) (who : Requester) (data v : Nat) (s : State) : State :=
  if v = 3 then refuse (powerPage h) who 0x040 data cValue s
  else
    let s := setFields (powerPage h) [(Reg.PWR_CTRL_PROFILE, v)] s
    if v = (s.H h).profile ∧ !(s.H h).transition then s else s.modH h (fun x => { x with transition := true })

def execProfileWrite (h : Fin 16) (who : Requester) (data : Word) (s : State) : Result :=
  .next (onPwrCtrl h.val who data.toNat (setProfile h.val who data.toNat (bits data.toNat 2 2)) s)

def doProfileDone (h : Nat) (s : State) : State :=
  if !(s.H h).transition then s
  else
    let s := s.modH h (fun x => { x with transition := false, profile := s.rd (powerPage h) Reg.PWR_CTRL_PROFILE })
    raiseH h evProfileDone (powerPage h) {} (deliverPulses h s)

def execPwrProfileDone (h : Fin 16) (s : State) : Result := .next (doProfileDone h.val s)

def setFlatten (h v : Nat) (s : State) : State := setFields (powerPage h) [(Reg.PWR_CTRL_FLATTEN, v)] s

def execFlattenWrite (h : Fin 16) (who : Requester) (data : Word) (s : State) : Result :=
  .next (onPwrCtrl h.val who data.toNat (setFlatten h.val (bits data.toNat 4 1)) s)

/-! ### Blocks (R546 to R551) -/

def blockReq (s : State) (h b : Nat) : Nat :=
  if b < 16 then bits (s.rd (powerPage h) Reg.PWR_BLK_REQ_LO_REQ) (2 * b) 2
  else bits (s.rd (powerPage h) Reg.PWR_BLK_REQ_HI_REQ) (2 * (b - 16)) 2

def setBlock (h b v : Nat) (s : State) : State := s.modH h (fun x => { x with blocks := x.blocks.put b v })

/-- A request for PARKED or OFF takes effect: the block drains (R547). -/
def drainBlock (h b v : Nat) (s : State) : State := if s.blockState h b = v then s else setBlock h b 3 s

/-- A block on its way back to RUN (R548): from OFF it takes 2 µs and a test. -/
def runBlock (h b : Nat) (s : State) : State :=
  if s.blockState h b = 2 then setBlock h b 4 s else if s.blockState h b = 4 then s else setBlock h b 0 s

/-- One block's request written. -/
def askBlock (h b : Nat) (who : Requester) (v : Nat) (s : State) : State :=
  if v = 0 then runBlock h b (undefer h b s)
  else if !isInner who ∧ holds? s h b = true then deferReq h b b s
  else drainBlock h b v (undefer h b s)

/-- The stored requests after a write: 0b11 leaves a field (R546). -/
def mergeReq (n old new : Nat) : Nat :=
  (List.range n).foldl (fun a i => a + (if bits new (2 * i) 2 = 3 then bits old (2 * i) 2 else bits new (2 * i) 2) * 4 ^ i) 0

/-- A write of PWR_BLK_REQ_LO or HI by PF0, the inner world or, with OUTER_REQ, the outer world (R549). Fields whose value does
not change ask nothing anew. -/
def writeBlkReq (h : Nat) (who : Requester) (hi : Bool) (d : Nat) (s : State) : State :=
  let p := powerPage h
  let ok := mgrOrInner who || (isOuter who && s.flag p Reg.PWR_CTRL_OUTER_REQ)
  if !ok then refuse p who (if hi then 0x050 else 0x04C) d cRequester s
  else
    let f := if hi then Reg.PWR_BLK_REQ_HI_REQ else Reg.PWR_BLK_REQ_LO_REQ
    let n := if hi then 4 else 16
    let base := if hi then 16 else 0
    let s' := setFields p [(f, mergeReq n (s.rd p f) d)] s
    let s' := if (List.range n).any (fun i => bits d (2 * i) 2 == 3) then refuse p who (if hi then 0x050 else 0x04C) d cValue s' else s'
    (List.range n).foldl (fun s i =>
      if bits d (2 * i) 2 = 3 then s else askBlock h (base + i) who (bits d (2 * i) 2) s) s'

def execPwrBlkReqWrite (h : Fin 16) (who : Requester) (hi : Bool) (data : Word) (s : State) : Result :=
  .next (onHearth h.val (writeBlkReq h.val who hi data.toNat) s)

/-- The block has nothing left to finish (R547, R551). -/
def blockIdle (e : Engine) : Bool :=
  e.holder == 0 && !e.busy && !e.scrubbing && !e.clearing && !e.turnover && !e.katPending && !e.katRunning

/-- The state of a block that is power gated (R548, R722). One that failed its test stays out of rotation (R276). -/
def killBlock (h b : Nat) (s : State) : State :=
  let s := s.modH h (fun x => { x with engines := x.engines.put b { offline := (x.eng b).offline } })
  let s := if isBn b then clearLines h (b - 12) 0 2048 s else s
  if isBurner b then s else { s with regs := resetPageRegs (pgU h b) 0x040 4096 s.regs }

/-- BLOCK_POWER_DONE: a draining block reaches what was asked; one coming from OFF asks for its test (R547, R548). -/
def doBlockDone (h b : Nat) (s : State) : State :=
  if !s.up h then s
  else if s.blockState h b = 3 ∧ blockIdle (s.eng h b) then
    let v := blockReq s h b
    let s := setBlock h b v s
    if v = 2 then killBlock h b s else s
  else if s.blockState h b = 4 then requestKat h b false (setBlock h b 0 s)
  else s

def execBlockPowerDone (h : Fin 16) (b : Fin 20) (s : State) : Result := .next (doBlockDone h.val b.val s)

/-- One hold bit changes (R550, R551). -/
def changeHold (h b : Nat) (on : Bool) (s : State) : State :=
  if b = 20 then
    if !on ∧ (s.rd (powerPage h) Reg.PWR_HELD_HELD).testBit 20 = true then
      (undefer h 20 s).modH h (fun x => { x with pwrTarget := s.rd (powerPage h) Reg.PWR_CTRL_TARGET })
    else s
  else if on then
    (if 1 ≤ s.blockState h b ∧ s.blockState h b ≤ 3 then deferReq h b b (runBlock h b s) else s)
  else if (s.rd (powerPage h) Reg.PWR_HELD_HELD).testBit b then drainBlock h b (blockReq s h b) (undefer h b s)
  else s

/-- PWR_HOLD: the inner world alone. -/
def writeHold (h : Nat) (who : Requester) (d : Nat) (s : State) : State :=
  let p := powerPage h
  if !isInner who then refuse p who 0x05C d cRequester s
  else
    let old := s.rd p Reg.PWR_HOLD_HOLD
    let s := setFields p [(Reg.PWR_HOLD_HOLD, d)] s
    (List.range 21).foldl (fun s b =>
      if old.testBit b == d.testBit b then s else changeHold h b (d.testBit b) s) s

def execPwrHoldWrite (h : Fin 16) (who : Requester) (data : Word) (s : State) : Result :=
  .next (onHearth h.val (writeHold h.val who data.toNat) s)

end Sys2Proof.Machine
end

