-- ==== Sys2Proof/Machine/Recorders.lean ====
section
/-! DEFINITION. Snapshots of the counter banks (R626 to R636), control of the recorders (R651 to R660), injected events (R713),
page locks and soft resets (R721). -/

namespace Sys2Proof.Machine

/-! ### Snapshots -/

/-- A hearth that receives a mark (R632). A change of profile delays it. -/
def takesMark (s : State) (h : Nat) : Bool :=
  (s.hState h == hsStarting || s.hState h == hsStarted || s.hState h == hsFatal) && decide ((s.H h).power < 2)

def hearthMask (s : State) (f : Nat → Bool) : Nat := s.hearthList.foldl (fun m h => if f h then setBit m h true else m) 0

/-- The epoch after an epoch (R627). -/
def nextEpoch (e : Nat) : Nat := if e = 0xFFFF then 1 else e + 1

/-- The flue's counters of the pc domain (R625). -/
def flueLink : List Nat := [33, 34, 98, 99, 101]

/-- The latched entry of a counter (R626): error counters carry SAT in bit 63. -/
def latched (error : Bool) (sat : Bool) (v : Nat) : Nat := if error then v + b2n sat * 2 ^ 63 else v

/-- Counters that only time or the link moves (R625): no row of the table says by how much, so a mark latches a free value. -/
def latchFlue (is : List Nat) (s : State) : State :=
  is.foldl (fun s i =>
    let (b, s) := s.free (if 96 ≤ i then 4 else 8)
    s.wr ctrPage (Reg.CTR_ENTRY i)
      (latched (decide (96 ≤ i)) ((s.rd ctrPage (Reg.CTR_SAT_SAT (i / 32))).testBit (i % 32)) (leNat b))) s

/-- Counters that a register of the part shows directly are copies of the same count (R636). -/
def flueCount (s : State) (i : Nat) : Nat :=
  if i = 96 then s.flue.unbound else if i = 100 then s.rd (pgF .gang) Reg.GANG_ABORTS_COUNT else s.flue.ctrs.getD i 0

def hearthCount (s : State) (h i : Nat) : Nat :=
  if i = 192 then s.rd (pgH .mempath h) Reg.MEM_CE_COUNT_COUNT else if i = 193 then s.rd (pgH .mempath h) Reg.MEM_UE_COUNT_COUNT
  else if i = 194 then s.rd (pgH .entropy h) Reg.ENT_HEALTH_FAILS_COUNT
  else if i = 195 then s.rd (pgH .group h) Reg.GRP_ROLLBACKS_COUNT else if i = 196 then s.rd (pgH .hob h) Reg.HOB_PINFAIL_COUNT
  else (s.H h).ctrs.getD i 0

/-- A mark leaves (R627 to R629): the flue's fc counters latch, the cycles since its reset as a free value. -/
def sendMark (s : State) : State :=
  let e := nextEpoch (s.rd ctrPage Reg.SNAP_STATUS_EPOCH)
  let s := addFlue 36 1 s
  let s := (s.wr ctrPage Reg.SNAP_STATUS_EPOCH e).wr ctrPage Reg.SNAP_STATUS_BUSY 1
  let s := (s.wr ctrPage Reg.SNAP_DELIVERED_HEARTHS (hearthMask s (takesMark s))).wr ctrPage Reg.SNAP_SKIPPED_HEARTHS
    (hearthMask s (fun h => !takesMark s h))
  let s := ((List.range 128).filter (fun i => !flueLink.contains i && i != 32)).foldl (fun s i =>
    s.wr ctrPage (Reg.CTR_ENTRY i) (latched (decide (96 ≤ i))
      ((s.rd ctrPage (Reg.CTR_SAT_SAT (i / 32))).testBit (i % 32)) (flueCount s i))) s
  latchFlue [32] s

/-- SNAP_CTRL.GO (R628, R635). -/
def snapGo (who : Requester) (data : Nat) (s : State) : State :=
  if who ≠ .pf0 then refuse ctrPage who 0x040 data cRequester s
  else if s.flag ctrPage Reg.SNAP_STATUS_BUSY then refuse ctrPage who 0x040 data cState s
  else sendMark s

def execSnapGo (who : Requester) (data : Word) (s : State) : Result :=
  .next (if s.flueUp ∧ data.toNat % 2 = 1 then snapGo who data.toNat s else s)

/-- SNAP_CTRL.PERIOD elapses. -/
def snapDue (s : State) : State :=
  if !s.flueUp ∨ s.rd ctrPage Reg.SNAP_CTRL_PERIOD = 0 then s
  else if s.flag ctrPage Reg.SNAP_STATUS_BUSY then s.modFlue (fun f => { f with snapOwed := true })
  else sendMark s

def execSnapPeriodExpiry (s : State) : Result := .next (snapDue s)

/-- The counters of a hearth that only time moves: the cycles of its clocks. -/
def latchTimed (p : Page) (s : State) : State :=
  [148, 158].foldl (fun s i => let (b, s) := s.free 8; s.wr p (Reg.H_CTR_ENTRY i) (leNat b)) s

/-- A hearth's bank latches and takes the tag (R629 to R631); a hearth in H1 is woken by the mark. -/
def latchHearth (h e : Nat) (s : State) : State :=
  let s := wakeHearth h s
  let p := hCtrPage h
  let s := (List.range 256).foldl (fun s i =>
    s.wr p (Reg.H_CTR_ENTRY i) (latched (decide (192 ≤ i)) ((s.rd p (Reg.H_CTR_SAT_SAT (i / 32))).testBit (i % 32))
      (hearthCount s h i))) s
  (latchTimed p s).wr p Reg.H_CTR_EPOCH_EPOCH e

/-- Every bank of the mark latches and tags, and BUSY clears; a periodic mark that fell due meanwhile is sent. The latches of one
mark lie within 12 ns of one another (R631) and are one step of the model. -/
def snapLatch (s : State) : State :=
  if !s.flueUp ∨ !s.flag ctrPage Reg.SNAP_STATUS_BUSY then s
  else
    let e := s.rd ctrPage Reg.SNAP_STATUS_EPOCH
    let m := s.rd ctrPage Reg.SNAP_DELIVERED_HEARTHS
    let s := ((s.hearthList.filter (fun h => m.testBit h && takesMark s h)).foldl (fun s h => latchHearth h e s) s)
    let s := latchFlue flueLink s
    let s := (s.wr ctrPage Reg.CTR_EPOCH_EPOCH e).wr ctrPage Reg.SNAP_STATUS_BUSY 0
    if s.flue.snapOwed then sendMark (s.modFlue (fun f => { f with snapOwed := false })) else s

def execSnapshotLatch (s : State) : Result := .next (snapLatch s)

/-! ### Recorder control -/

/-- A write to a recorder's page: the flue's answers while the flue runs, a hearth's as R732 says. -/
def onRecorder (unit : Option Nat) (f : State → State) (s : State) : State :=
  match unit with
  | some h => onHearth h f s
  | none => if s.flueUp then f s else s

/-- The freezer's code (R661). -/
def freezerCode (who : Requester) : Nat := match who with
  | .pf1 => 1
  | .inner _ => 2
  | .pf0 => 3
  | _ => 0

/-- EVR_CTRL.FREEZE (R656). The inner world of a hearth reaches its own recorder alone. -/
def freeze (unit : Option Nat) (who : Requester) (s : State) : State :=
  let p := recPage unit
  let c := freezerCode who
  if c = 0 ∨ (unit.isNone ∧ c = 2) then refuse p who 0x040 8 cRequester s
  else if s.flag p Reg.EVR_STATUS_FROZEN then refuse p who 0x040 8 cState s
  else (s.wr p Reg.EVR_STATUS_FROZEN 1).wr p Reg.EVR_STATUS_FREEZER c

def execEvrFreeze (unit : Option (Fin 16)) (who : Requester) (s : State) : Result :=
  .next (onRecorder (unit.map (·.val)) (freeze (unit.map (·.val)) who) s)

/-- The holding buffer drains into the ring under R652 and R653. A held record of severity 6 or 7 that finds no room is fatal for a
hearth, and stays waiting in the flue (R654). -/
def drain (unit : Option Nat) (s : State) : State :=
  let p := recPage unit
  let x := s.recorder unit
  let (x', d, full) := drainHold (recZones unit) x.hold { x with hold := [] } 0
  let s := s.setRecorder unit x'
  let s := if d = 0 then s
    else raiseQuiet unit (if unit.isSome then evEvrDrop else evFlDrop)
      (s.wr p Reg.EVR_DROPPED_COUNT (satAdd 32 (s.rd p Reg.EVR_DROPPED_COUNT) d))
  match unit with
  | some h =>
    if full then enterFatal h fatReservedFull (s.modH h (fun y => { y with recorder := { y.recorder with lost := x'.hold.head? } }))
    else s
  | none =>
    if full && !x.waiting then raiseBit evAuditHold 0 evAuditHold.n (pgF .flueEvents) (s.setRecorder none { x' with waiting := true })
    else s.setRecorder none { s.flue.recorder with waiting := full }

/-- EVR_CTRL.UNFREEZE (R658): accepted from the freezer and the inner world. -/
def unfreeze (unit : Option Nat) (who : Requester) (s : State) : State :=
  let p := recPage unit
  let c := freezerCode who
  if !s.flag p Reg.EVR_STATUS_FROZEN then refuse p who 0x040 16 cState s
  else if c = 0 ∨ (unit.isNone ∧ c = 2) ∨ (c ≠ 2 ∧ c ≠ s.rd p Reg.EVR_STATUS_FREEZER) then refuse p who 0x040 16 cRequester s
  else drain unit ((s.wr p Reg.EVR_STATUS_FROZEN 0).wr p Reg.EVR_STATUS_FREEZER 0)

def execEvrUnfreeze (unit : Option (Fin 16)) (who : Requester) (s : State) : Result :=
  .next (onRecorder (unit.map (·.val)) (unfreeze (unit.map (·.val)) who) s)

/-- The reserved zone's records after the one with a sequence number; none where no record has it. -/
def ackZone (seq : Nat) : List Slotted → Option (List Slotted)
  | [] => none
  | e :: r => if e.entry.seq = seq then some r else ackZone seq r

/-- EVR_ACK (R659). Room in the flue's zone lets its waiting records in (R654). -/
def ack (unit : Option Nat) (who : Requester) (seq : Nat) (s : State) : State :=
  let p := recPage unit
  let x := s.recorder unit
  let may := decide (who = .pf1) || (isInner who && unit.isSome)
  if !may then refuse p who 0x04C seq cRequester s
  else
    match ackZone seq x.reserved with
    | none => refuse p who 0x04C seq cValue s
    | some z =>
      let s := s.setRecorder unit { x with reserved := z }
      if unit.isNone && x.waiting && !s.flag p Reg.EVR_STATUS_FROZEN then drain unit s
      else if unit.isNone then s.setRecorder none { s.flue.recorder with waiting := false } else s

def execEvrAck (unit : Option (Fin 16)) (who : Requester) (seq : Word) (s : State) : Result :=
  .next (onRecorder (unit.map (·.val)) (ack (unit.map (·.val)) who seq.toNat) s)

/-! ### Injected events -/

/-- A page of a hearth. -/
def isHearthPage (p : Page) : Bool := decide (PageKind.stoker.ctorIdx ≤ p.kind.ctorIdx)

/-- Page kinds with more than one page in a unit, whose records name the page's instance (R646). -/
def manyPages (k : PageKind) : Bool := k == .cipher || k == .hash || k == .bignum || k == .mpu

/-- EVT_INJECT (R601, R713): the debug master with OI on a hearth's pages, PF0 in VENDOR_TEST elsewhere. -/
def inject (p : Page) (who : Requester) (data : Nat) (s : State) : State :=
  let h := p.unit.val
  let i : Info := { inst := if manyPages p.kind then p.inst.val else 0xFF, owner := 0xFFF5, payload := captureBytes p s }
  let pick := fun (l : List Ev) => l.filter (fun e => e.homes.contains p.kind && data.testBit e.bit)
  if isHearthPage p then
    if who = .debug ∧ (s.H h).enables.testBit 1 then (pick hearthEvents).foldl (fun s e => raiseH h e p i s) s
    else refuse p who 0x018 data cRequester s
  else if p.kind ≠ .vfQueue ∧ who = .pf0 ∧ inVendorTest s = true then (pick flueEvents).foldl (fun s e => raiseFlue e p i s) s
  else refuse p who 0x018 data cRequester s

/-- A page answers accesses: a hearth's as R732 says, the flue's and the chimney's while the flue runs. FLUE.BOOT alone
answers from the boot ROM on (R677, R724). -/
def onPage (p : Page) (f : State → State) (s : State) : State :=
  if isHearthPage p then (if s.enabled p.unit.val then onHearth p.unit.val f s else s)
  else if s.flueUp || (p.kind == .flueBoot && flueListens s) then f s
  else s

def execEvtInject (p : Page) (who : Requester) (data : Word) (s : State) : Result :=
  if p.regWf then .next (onPage p.home (inject p.home who data.toNat) s) else .fault .illFormed

/-! ### PAGE_CTRL (R721) -/

/-- PAGE_CTRL.SOFT_RESET of an engine page. -/
def softReset (h u : Nat) (who : Requester) (s : State) : State :=
  let p := pgU h u
  let e := s.eng h u
  if !isInner who then refuse p who 0x008 2 cRequester s
  else if e.holder ≠ 0 ∨ e.busy ∨ e.scrubbing then refuse p who 0x008 2 cState s
  else
    let kat := s.rd p Reg.KAT_CTRL_PERIOD
    let lim := s.rd p Reg.BN_LIMIT_ATTEMPTS
    let ord := if isBn u then Reg.BN_ORDER_ORDER2 else if isHash u then Reg.HE_ORDER_ORDER2 else Reg.CE_ORDER_ORDER2
    let o := s.rd p ord
    let regs := resetPageRegs p 0x010 0x014 (resetPageRegs p 0x020 0x034 (resetPageRegs p 0x040 0x1000 s.regs))
    let s := (({ s with regs := regs }).wr p Reg.KAT_CTRL_PERIOD kat).wr p ord o
    let s := if isBn u then s.wr p Reg.BN_LIMIT_ATTEMPTS lim else s
    s.modEng h u (fun e => { e with scrubbing := true })

def execSoftReset (h : Fin 16) (u : Fin 16) (who : Requester) (s : State) : Result :=
  .next (onHearth h.val (softReset h.val u.val who) s)

/-- The pages with LOCKABLE set (R715). -/
def lockable (k : PageKind) : Bool := k == .gate || k == .mempath || k == .vault

/-- PAGE_CTRL.LOCK: set by the page's writers, the outer world apart. -/
def setLock (p : Page) (who : Requester) (s : State) : State :=
  let may := if p.kind = .gate then isInner who else if p.kind = .vault then decide (who = .pf0) else mgrOrInner who
  if !lockable p.kind then s
  else if may then s.wr p Reg.PAGE_CTRL_LOCK 1
  else refuse p who 0x008 4 cRequester s

def execPageLockSet (p : Page) (who : Requester) (s : State) : Result :=
  if p.regWf then .next (onPage p.home (setLock p.home who) s) else .fault .illFormed

end Sys2Proof.Machine
end

