-- ==== Sys2Proof/Machine/Views.lean ====
section
/-! DEFINITION. What a register page reads as (R709 to R717, and the register table of each page): fields the register file
holds, and fields that show a machine's state held elsewhere; the pages of the hearth-local space (R727, R728) and the
recorder window (R646, R725). -/

namespace Sys2Proof.Machine

/-! ### Fields of a page -/

/-- The fields of a hash engine's page that R260 does not have or has differently (R261). -/
def hashFields : List FldRow :=
  cipherFields.filter (fun r =>
    !([Reg.CE_MODE_TAG_LEN, Reg.CE_MODE_NONCE_LEN, Reg.CE_KEY1_INDEX, Reg.CE_KEY1_USE, Reg.CE_IV_IV 0, Reg.CE_AAD_LEN_LEN,
        Reg.CE_ORDER_ORDER2, Reg.CE_TAG_TAG 0].contains r.fld))
    ++ [⟨Reg.CE_MODE_TAG_LEN, 1, 0⟩, ⟨Reg.HE_MODE_MAC, 1, 0⟩, ⟨Reg.HE_ORDER_ORDER2, 1, 0⟩, ⟨Reg.CE_TAG_TAG 0, 16, 4⟩]

/-- The fields of so many MSI-X table entries. -/
def msixFields (n : Nat) : List FldRow :=
  [⟨Reg.MSIX_ADDR_LO 0, n, 16⟩, ⟨Reg.MSIX_ADDR_HI 0, n, 16⟩, ⟨Reg.MSIX_DATA 0, n, 16⟩, ⟨Reg.MSIX_MASK 0, n, 16⟩]

def devctlFields : List FldRow := [⟨Reg.DEVCTL_RELAXED, 1, 0⟩, ⟨Reg.DEVCTL_MAX_PAYLOAD, 1, 0⟩, ⟨Reg.DEVCTL_MAX_READ, 1, 0⟩]

/-- The registers at 0x040 and above of a page. -/
def ownFields (p : Page) : List FldRow :=
  match p.kind with
  | .flueBoot => flueBootFields
  | .adminq => vfQueueFields.filter (fun r => decide (0x080 ≤ r.fld.off)) |>.map (fun r => { r with count := 4 })
  | .link => linkFields
  | .functab => functabFields
  | .damper => [⟨⟨0x040, 0, 32, .w1c, 0⟩, 16, 4⟩]
  | .gang => gangFields
  | .flueCounters => flueCountersFields
  | .flueEvents => eventsFields
  | .evtroute => evtrouteFields
  | .debug => debugFields
  | .tamper => tamperFields
  | .vault => vaultFields
  | .fuse => fuseFields
  | .vfQueue => vfQueueFields
  | .msixVf => msixFields 16
  | .msixPf => msixFields (if p.inst.val < 8 then 256 else 16)
  | .pbaVf => [⟨Reg.MSIX_PENDING 0, 1, 0⟩]
  | .pbaPf => [⟨Reg.MSIX_PENDING 0, if p.inst.val = 0 then 64 else 1, 4⟩]
  | .cfgVf => devctlFields
  | .cfgPf => devctlFields
  | .stoker => stokerFields
  | .keycache => keycacheFields
  | .keypolicy => keypolicyFields
  | .cipher => cipherFields ++ lockFields
  | .hash => hashFields ++ lockFields
  | .bignum => bignumFields ++ lockFields
  | .hob => hobFields
  | .group => groupFields
  | .entropy => entropyFields
  | .mempath => mempathFields
  | .mpu => mpuFields
  | .gate => gateFields
  | .power => powerFields
  | .counters => countersFields
  | .events => eventsFields

/-- Every field of a page: header, captures, its own. -/
def pageFields (p : Page) : List FldRow :=
  if p.kind.bare then ownFields p
  else headerFields ++ (if p.kind = .mempath ∨ p.kind = .mpu then mpuCaptureFields else captureFields) ++ ownFields p

/-! ### The header (R710, R715) -/

/-- PAGE_ID.TYPE. -/
def pageType (k : PageKind) : Nat :=
  match k with
  | .flueBoot => 0x0001 | .adminq => 0x0002 | .link => 0x0003 | .functab => 0x0004 | .damper => 0x0005 | .gang => 0x0006
  | .flueCounters => 0x0007 | .flueEvents => 0x0008 | .evtroute => 0x0009 | .debug => 0x000A | .tamper => 0x0010
  | .vault => 0x0011 | .fuse => 0x0012 | .vfQueue => 0x0020 | .stoker => 0x0100 | .keycache => 0x0101
  | .keypolicy => 0x0102 | .cipher => 0x0103 | .hash => 0x0104 | .bignum => 0x0105 | .hob => 0x0106 | .group => 0x0107
  | .entropy => 0x0108 | .mempath => 0x0109 | .mpu => 0x010A | .gate => 0x010B | .power => 0x010C | .counters => 0x010D
  | .events => 0x010E
  | .msixVf => 0 | .msixPf => 0 | .pbaVf => 0 | .pbaPf => 0 | .cfgVf => 0 | .cfgPf => 0

/-- PAGE_ID.LEVEL. -/
def pageLevel (k : PageKind) : Nat :=
  if k = .gang then 4 else if k.ctorIdx < PageKind.vfQueue.ctorIdx then 5
  else if k = .cipher ∨ k = .hash ∨ k = .bignum ∨ k = .hob then 2 else 3

def enginePage (k : PageKind) : Bool := k == .cipher || k == .hash || k == .bignum

/-- PAGE_CAPS.EVENTS: the highest EVT_STATUS bit defined, plus 1. -/
def pageEvents (k : PageKind) : Nat :=
  ((hearthEvents ++ flueEvents).filter (fun e => e.homes.contains k)).foldl (fun a e => max a (e.bit + 1)) 0

/-- The unit of an engine's page in the order of R666. -/
def pageUnit (p : Page) : Nat :=
  if p.kind = .hash then 8 + p.inst.val else if p.kind = .bignum then 12 + p.inst.val else p.inst.val

/-- PAGE_LOCK (R250): the lock's fields as they lie in the word. -/
def lockWord (e : Engine) : Nat := e.owner + e.holder * 2 ^ 16 + e.reservedBy * 2 ^ 18 + b2n e.scrubbing * 2 ^ 20

/-- The header fields that no register holds: offset and lowest bit; none for the others. -/
def headerView (s : State) (p : Page) (off lo : Nat) : Option Nat :=
  match off, lo with
  | 0x000, 4 => some (pageLevel p.kind)
  | 0x000, 8 => some (if p.kind = .vfQueue then 0 else p.inst.val)
  | 0x000, 16 => some (pageType p.kind)
  | 0x004, 0 => some (if isHearthPage p then p.unit.val else 0x1F)
  | 0x004, 5 => some (b2n (lockable p.kind))
  | 0x004, 6 => some (b2n (enginePage p.kind))
  | 0x004, 7 => some (b2n (enginePage p.kind))
  | 0x004, 8 => some (pageEvents p.kind)
  | 0x008, 0 => some (b2n (!(enginePage p.kind && (s.blockState p.unit.val (pageUnit p) == 2 || s.blockState p.unit.val (pageUnit p) == 4))))
  | 0x00C, 0 => some (lockWord (s.eng p.unit.val (pageUnit p)) % 2 ^ 16)
  | 0x00C, 16 => some (s.eng p.unit.val (pageUnit p)).holder
  | 0x00C, 18 => some (s.eng p.unit.val (pageUnit p)).reservedBy
  | 0x00C, 20 => some (b2n (s.eng p.unit.val (pageUnit p)).scrubbing)
  | _, _ => none

/-! ### Fields that show the machine's state -/

/-- MG_STATUS of a generator (R240, R260). -/
def mgView (e : Engine) (lo : Nat) : Option Nat :=
  if lo = 0 then some (b2n e.mg.seeded) else if lo = 1 then some (b2n e.mg.prefetched) else if lo = 2 then some (b2n e.mg.stalled)
  else if lo = 3 then some e.mg.grace else none

/-- The status bits of an engine in direct use or under test (R260, R387). -/
def statusView (x : Hearth) (e : Engine) (lo : Nat) : Option Nat :=
  match lo with
  | 0 => some (b2n (e.busy || e.job.isSome))
  | 2 => some (b2n e.offline)
  | 3 => some (b2n e.katRunning)
  | 4 => some (b2n e.katPending)
  | 5 => some (b2n e.clearing)
  | 6 => some (b2n e.yieldReq)
  | 7 => some (b2n (e.saving || e.restoring))
  | 8 => some (b2n x.preemptOff)
  | _ => none

/-- One bit for each burner. -/
def burnerBits (x : Hearth) (f : Engine → Bool) : Nat := packBits ((List.range 4).map (fun n => f (x.eng (16 + n))))

def hobView (s : State) (h off lo : Nat) : Option Nat :=
  let x := s.H h
  if off = 0x050 then
    match lo with
    | 0 => some (burnerBits x (fun e => e.job.isSome))
    | 4 => some (burnerBits x (·.turnover))
    | 8 => some (burnerBits x (·.gated))
    | 12 => some (burnerBits x (·.offline))
    | 16 => some (burnerBits x (·.katPending))
    | 20 => some (burnerBits x (·.katRunning))
    | _ => some (if hobHolds s h then min 16 (hobReady s h).length else 0)
  else if 0x060 ≤ off ∧ off < 0x070 then
    let e := x.eng (16 + (off - 0x060) / 4)
    if lo = 0 then some e.owner else if lo = 16 then some e.holder else some (b2n e.turnover)
  else if 0x070 ≤ off ∧ off < 0x080 then mgView (x.eng (16 + (off - 0x070) / 4)) lo
  else none

/-- The states of the job table's entries that the inner world sees in HEARTH.STOKER (R20). The page's table (R30) gives them no
offset, so that no register read answers them: log 130. -/
def stokerEntries (s : State) (h : Nat) (who : Requester) : List Nat :=
  if isInner who then (List.range 2048).map (s.H h).entryState else []

def stokerView (s : State) (h off lo : Nat) : Option Nat :=
  if off = 0x048 ∧ lo = 0 then some (s.H h).jobsInUse
  else if off = 0x048 ∧ lo = 24 then some (b2n ((s.H h).jobs.lowestFree 0 hostEntries).isNone)
  else if off = 0x04C then some 32
  else none

def keycacheView (s : State) (h off lo : Nat) : Option Nat :=
  let x := s.H h
  let used := fun (lo : Nat) => ((x.cache.filter (fun e => decide (lo ≤ e.1))).map (fun e => e.2.extent)).sum
  if off = 0x040 then
    match lo with
    | 0 => some (used 0)
    | 14 => some (used reserveBase)
    | 24 => some (b2n x.testRoot)
    | 25 => some (b2n x.bankDeferred)
    | _ => some (b2n x.shadow.isSome)
  else if off = 0x04C then some 512
  else none

def groupView (s : State) (h off lo : Nat) : Option Nat :=
  let x := s.H h
  if off = 0x044 then
    some (if lo = 0 then x.groups.length else if lo = 6 then journalTotal x else (heldTotal x + 1023) / 1024)
  else none

def sourceCode : SourceState → Nat
  | .starting => 0 | .healthy => 1 | .failed => 2

def drbgCode : DrbgState → Nat
  | .uninstantiated => 0 | .running => 1 | .holdover => 2 | .stopped => 3

/-- HEARTH.ENTROPY. The two ports and ENT_RAW read through rows of their own and show zero here (R667). -/
def entropyView (s : State) (h off lo : Nat) : Option Nat :=
  let e := s.ent h
  match off, lo with
  | 0x044, 0 => some (sourceCode e.source)
  | 0x044, 2 => some (drbgCode e.drbg)
  | 0x044, 4 => some (pairsOk e)
  | 0x044, 11 => some (b2n (decide (4 ≤ e.bufIn.length)))
  | 0x044, 12 => some (b2n (decide (4 ≤ e.bufOut.length)))
  | 0x048, _ => some 0
  | 0x04C, _ => some 0
  | 0x050, _ => some (e.removed % 2 ^ 32)
  | 0x054, _ => some (e.removed / 2 ^ 32)
  | 0x05C, 0 => some e.requests
  | 0x05C, 25 => some (b2n (decide (reqLimit ≤ e.requests)))
  | 0x06C, _ => some 0
  | _, _ => none

def memView (s : State) (h off lo : Nat) : Option Nat :=
  if off = 0x048 ∧ lo = 2 then some (b2n (decide (2 ≤ (s.H h).power) || s.hState h == hsReset || s.hState h == hsOff))
  else if off = 0x064 then some (s.rd (hCtrPage h) (Reg.H_CTR_ENTRY 161) % 2 ^ 32)
  else if off = 0x068 then some (s.rd (hCtrPage h) (Reg.H_CTR_ENTRY 161) / 2 ^ 32)
  else if off = 0x084 ∧ lo = 0 then some (s.H h).mem.pending.length
  else if 0x100 ≤ off ∧ off < 0x200 ∧ off % 32 = 0x14 ∧ lo = 6 then some (b2n (vaultGen s h ((off - 0x100) / 32) == 0xFFFFFFFF))
  else if 0x100 ≤ off ∧ off < 0x200 ∧ off % 32 = 0x18 then some (vaultGen s h ((off - 0x100) / 32))
  else none

def mpuView (s : State) (h m off lo : Nat) : Option Nat :=
  if off = 0x040 then some (if lo = 0 then m else b2n (fixedMaster m))
  else if off = 0x048 ∧ lo = 0 then some (b2n ((s.H h).mem.mpus.getD m {}).syncing)
  else none

def gateView (s : State) (h off lo : Nat) : Option Nat :=
  if 0x040 ≤ off ∧ off < 0x0C0 ∧ off % 32 = 4 then
    let c := (off - 0x040) / 32
    let x := s.core h c
    match lo with
    | 0 => some (b2n (x.world == .outer))
    | 1 => some (b2n (c == 0 || x.released))
    | 2 => some (b2n x.callOpen)
    | 3 => some (b2n x.banked)
    | 4 => some (b2n x.halted)
    | 5 => some x.entry
    | _ => some x.service
  else if off = 0x0CC then some (if lo = 0 then (s.H h).enables else b2n (s.H h).iiPending)
  else none

/-- PWR_STATUS.BLOCKER (R543): the first condition of the target's entry that does not hold. What a core executes is not a
command of the model, so that code 1, a core not in WFI, is never read: the entry commands bring that condition. -/
def pwrBlocker (s : State) (h : Nat) : Nat :=
  let x := s.H h
  if x.pwrTarget < 2 ∨ 2 ≤ x.power then 0
  else if !jobsQuiet x then 2
  else if x.pwrTarget = 3 ∧ !quiesced s h then 3
  else if !memQuiet s h then 4
  else 0

/-- PWR_BLK_STATE of one block; on its way from OFF it still reads OFF. -/
def blkCode (s : State) (h b : Nat) : Nat := if s.blockState h b = 4 then 2 else s.blockState h b

def powerView (s : State) (h off lo : Nat) : Option Nat :=
  let x := s.H h
  if off = 0x044 then
    match lo with
    | 0 => some x.power
    | 2 => some x.profile
    | 4 => some (b2n x.transition)
    | 5 => some (b2n (s.flag (powerPage h) Reg.PWR_CTRL_FLATTEN && decide (x.power < 2)))
    | 6 => some x.strap
    | 8 => some (b2n ((s.rd (powerPage h) Reg.PWR_HELD_HELD).testBit 20))
    | _ => some (pwrBlocker s h)
  else if off = 0x054 then some ((List.range 16).foldl (fun a b => a + blkCode s h b * 4 ^ b) 0)
  else if off = 0x058 then some ((List.range 4).foldl (fun a b => a + blkCode s h (16 + b) * 4 ^ b) 0)
  else none

/-- The Cores column of R639: an event of an engine's direct use goes to the world that holds the engine's lock, an MPU
violation also to the outer world where the capture names it and the master is a core. -/
def evFor (e : Ev) (h : Nat) (outer : Bool) (s : State) : Bool :=
  let at' := fun (k : PageKind) (i : Nat) => (s.rd (pgH k h i) Reg.EVT_STATUS_STATUS).testBit e.bit
  e.homes.any (fun k => (List.range 26).any (fun i =>
    at' k i &&
      (if e.sev = 0 then (s.eng h (pageUnit (pgH k h i))).holder == (if outer then 3 else 2)
       else if outer then k == .mpu && decide (i < 4) && s.flag (pgH k h i) Reg.MERR_CAPTURE1_WORLD
       else true)))

/-- A word of EVS_INNER or EVS_OUTER of a hearth. -/
def evsWord (s : State) (h w : Nat) (outer : Bool) : Nat :=
  (hearthEvents.filter (fun e => e.n / 32 == w && evFor e h outer s)).foldl (fun a e => setBit a (e.n % 32) true) 0

/-- A word of EVS_INNER of FLUE.EVENTS, by flue event number. -/
def evsFlueWord (s : State) (w : Nat) : Nat :=
  (flueEvents.filter (fun e => decide (1152 ≤ e.n) && decide (e.n < 1248) && (e.n - 1152) / 32 == w && evPending e 0 s)).foldl
    (fun a e => setBit a ((e.n - 1152) % 32) true) 0

def eventsView (s : State) (unit : Option Nat) (off lo : Nat) : Option Nat :=
  let x := s.recorder unit
  if off = 0x044 ∧ lo = 4 then some (usedSlots x.reserved).length
  else if off = 0x044 ∧ lo = 13 then some (x.hold.map recSlots).sum
  else if 0x060 ≤ off ∧ off < 0x06C then
    some (match unit with | some h => evsWord s h ((off - 0x060) / 4) false | none => evsFlueWord s ((off - 0x060) / 4))
  else if 0x070 ≤ off ∧ off < 0x07C then
    some (match unit with | some h => evsWord s h ((off - 0x070) / 4) true | none => 0)
  else none

def tamperView (s : State) (off lo : Nat) : Option Nat :=
  let v := s.chim.vault
  match off, lo with
  | 0x040, 1 => some (b2n v.locked)
  | 0x044, 0 => some v.level
  | 0x044, 2 => some (b2n v.locked)
  | 0x044, 3 => some (b2n (lcState s == lcQuenched))
  | 0x044, 4 => some (b2n (vaultRecordKey s).isNone)
  | 0x048, _ => some s.chim.active
  | 0x04C, _ => some v.sticky
  | 0x050, _ => some (packBits ((List.range 30).map (fusedOff s.chim.fuses)))
  | 0x054, _ => some (v.resp % 2 ^ 32)
  | 0x058, _ => some (v.resp / 2 ^ 32)
  | 0x05C, _ => some (minTable % 2 ^ 32)
  | 0x060, _ => some (minTable / 2 ^ 32)
  | 0x064, 0 => some v.log.length
  | 0x064, 8 => some (if v.log.length < 252 then v.log.length else ((dropEntry v.log).map (·.1)).getD 0xFF)
  | 0x064, 16 => some v.logDropped
  | _, _ => none

def vaultView (s : State) (off lo : Nat) : Option Nat :=
  let v := s.chim.vault
  match off, lo with
  | 0x044, 0 => some (b2n v.polarity)
  | 0x044, 1 => some (b2n v.deferred)
  | 0x04C, 0 => some (b2n v.valid)
  | 0x04C, 1 => some (b2n v.lost)
  | 0x050, _ => some (v.opTime % 2 ^ 32)
  | 0x054, _ => some (v.opTime / 2 ^ 32)
  | 0x058, 0 => some (min v.powerCycles 0xFFFFF)
  | 0x058, 20 => some (b2n v.cyclesStuck)
  | _, _ => none

def arbView (n lo : Nat) : Nat := if lo = 0 then n else b2n (decide (128 ≤ n))

def fuseView (s : State) (off lo : Nat) : Option Nat :=
  let f := s.chim.fuses
  if off = 0x040 then some (if lo = 0 then fuseState s else if lo = 3 then lcState s else b2n (lcPartial s))
  else if off = 0x044 then some (arbView f.arbFlue lo)
  else if off = 0x048 then some (arbView f.arbInner lo)
  else if off = 0x04C then some (arbView f.arbOuter lo)
  else if 0x050 ≤ off ∧ off < 0x060 then some (fieldLe f.serial (off - 0x050) 4)
  else if 0x060 ≤ off ∧ off < 0x080 then some (if s.flue.spdm.rsaReady then fieldLe (identityFp s) (off - 0x060) 4 else 0)
  else if off = 0x080 then some (if lo = 0 then 2 ^ s.variant.hearths - 1 else b2n s.variant.hob)
  else if off = 0x084 then some (f.compat % 2 ^ s.variant.hearths)
  else none

def vfInfoView (s : State) (v off lo : Nat) : Option Nat :=
  if off = 0x040 then
    match lo with
    | 0 => some (if s.bound v && (s.H (s.ft v Reg.FT_HEARTH)).compat then 2 else 3)
    | 4 => some (s.ft v Reg.FT_QP_GRANT)
    | 13 => some (s.damper v)
    | 16 => some (s.ft v Reg.FT_HEARTH)
    | _ => none
  else none

def gangView (s : State) (off lo : Nat) : Option Nat :=
  if off = 0x044 then
    some (if lo = 0 then s.flue.gangs.length else if lo = 7 then s.chim.vault.records.length
      else if lo = 12 then s.chim.vault.applies.length else b2n s.flue.recovering)
  else none

def debugView (s : State) (off lo : Nat) : Option Nat :=
  if 0x080 ≤ off ∧ off < 0x100 then
    let x := s.H ((off - 0x080) / 8)
    some (if off % 8 = 4 then x.dbgExpiry else if lo = 0 then x.enables else b2n x.iiPending)
  else none

/-- What a field of a page at 0x040 or above reads as where no register holds it. -/
def ownView (s : State) (p : Page) (off lo : Nat) : Option Nat :=
  let h := p.unit.val
  match p.kind with
  | .flueBoot => if 0x060 ≤ off ∧ off < 0x0A0 ∧ !s.enabled ((off - 0x060) / 4) then some 0 else none
  | .gang => gangView s off lo
  | .debug => debugView s off lo
  | .tamper => tamperView s off lo
  | .vault => vaultView s off lo
  | .fuse => fuseView s off lo
  | .vfQueue => vfInfoView s h off lo
  | .stoker => stokerView s h off lo
  | .keycache => keycacheView s h off lo
  | .cipher => if off = 0x080 then statusView {} (s.eng h (pageUnit p)) lo else if off = 0x088 then mgView (s.eng h (pageUnit p)) lo else none
  | .hash => if off = 0x080 then statusView {} (s.eng h (pageUnit p)) lo else if off = 0x088 then mgView (s.eng h (pageUnit p)) lo else none
  | .bignum =>
    if off = 0x060 then statusView (s.H h) (s.eng h (pageUnit p)) lo
    else if off = 0x080 ∨ off = 0x084 then some 0
    else if off = 0x088 then mgView (s.eng h (pageUnit p)) lo
    else if off = 0x090 then some (s.eng h (pageUnit p)).lastOwner
    else none
  | .hob => hobView s h off lo
  | .group => groupView s h off lo
  | .entropy => entropyView s h off lo
  | .mempath => memView s h off lo
  | .mpu => mpuView s h p.inst.val off lo
  | .gate => gateView s h off lo
  | .power => powerView s h off lo
  | .events => eventsView s (some h) off lo
  | .flueEvents => eventsView s none off lo
  | _ => none

/-- The value a field reads as: a write-only field reads zero (R10). -/
def fieldView (s : State) (p : Page) (f : Fld) : Nat :=
  if f.acc = .wo then 0
  else ((if f.off < 0x040 ∧ !p.kind.bare then headerView s p f.off f.lo else ownView s p f.off f.lo).getD (s.rd p f)) % 2 ^ f.w

/-! ### Words -/

/-- The entry of a row whose register lies at a byte offset. -/
def rowAt (r : FldRow) (off : Nat) : Option Fld :=
  if r.count = 1 then (if r.fld.off = off then some r.fld else none)
  else if r.fld.off ≤ off ∧ (off - r.fld.off) % r.stride = 0 ∧ (off - r.fld.off) / r.stride < r.count then
    some { r.fld with off := off }
  else none

/-- The fields of a page's word at an offset. -/
def fieldsAt (p : Page) (off : Nat) : List Fld := (pageFields p).filterMap (fun r => rowAt r off)

/-- The word that a page reads at a word offset; reserved bits and offsets read zero (R717). The upper half of a 64-bit entry
stands at the next word (R716). -/
def viewWord (s : State) (p : Page) (off : Nat) : Nat :=
  let low := (fieldsAt p off).foldl (fun a f => a + fieldView s p f * 2 ^ f.lo % 2 ^ 32) 0
  let high := if 4 ≤ off then
    ((fieldsAt p (off - 4)).filter (fun f => decide (f.w = 64))).foldl (fun a f => a + fieldView s p f / 2 ^ 32) 0 else 0
  low + high

/-- The 4 KiB of a page. -/
def pageBytes (s : State) (p : Page) : Bytes := (List.range 1024).flatMap (fun i => toLe 4 (viewWord s p (4 * i)))

/-! ### Pages of a hearth by offset (R728) -/

/-- The page of number `k` in the directory's order. -/
def dirPage (h k : Nat) : Page :=
  if k = 0 then pgH .stoker h else if k = 1 then pgH .keycache h else if k = 2 then pgH .keypolicy h
  else if k < 11 then pgH .cipher h (k - 3) else if k < 15 then pgH .hash h (k - 11)
  else if k < 19 then pgH .bignum h (k - 15) else if k = 19 then pgH .hob h else if k = 20 then pgH .group h
  else if k = 21 then pgH .entropy h else if k = 22 then pgH .mempath h else if k < 49 then pgH .mpu h (k - 23)
  else if k = 49 then pgH .gate h else if k = 50 then pgH .power h else if k = 51 then pgH .counters h
  else pgH .events h

/-! ### Records (R646, R648, R725) -/

/-- The 64 bytes of a record's first slot, or of its second. -/
def recBytes (r : Rec) (second : Bool) : Bytes :=
  let seq := if second then nextSeq r.seq else r.seq
  toLe 8 r.time ++ toLe 4 seq ++ toLe 2 (r.event + r.sev * 2 ^ 11)
    ++ [byte r.count, byte (b2n second + 2 * b2n r.overflow + 4 * r.plen)] ++ toLe 2 r.owner ++ toLe 2 r.vf ++ [byte r.inst, 0, 0, 0]
    ++ (if second then slice r.payload 40 40 else slice r.payload 0 40)

/-- A slot that holds no record (R646): SEQUENCE marks it, its other bytes are open. -/
def emptySlot (i : Nat) : Bytes :=
  (List.range 8).map (Config.emptySlotByte i) ++ [0xFF, 0xFF, 0xFF, 0xFF] ++ (List.range 52).map (fun k => Config.emptySlotByte i (12 + k))

def slotIn (l : List Slotted) (i : Nat) : Option Bytes :=
  l.findSome? (fun e =>
    if e.slots.head? = some i then some (recBytes e.entry false)
    else if e.slots.contains i then some (recBytes e.entry true) else none)

/-- The holding slots in order. -/
def holdSlots (l : List Rec) : List Bytes :=
  l.flatMap (fun r => recBytes r false :: (if recSlots r = 2 then [recBytes r true] else []))

/-- Slot `i` of a recorder whose ring has `ring` slots; the holding slots follow. -/
def slotBytes (x : Recorder) (ring i : Nat) : Bytes :=
  if i < ring then (slotIn (x.general ++ x.reserved) i).getD (emptySlot i)
  else (holdSlots x.hold).getD (i - ring) (emptySlot i)

/-- Bytes of a hearth's recorder window. -/
def windowBytes (s : State) (h off n : Nat) : Bytes :=
  slice (slotBytes (s.H h).recorder 4096 (off / 64) ++ slotBytes (s.H h).recorder 4096 (off / 64 + 1)) (off % 64) n

end Sys2Proof.Machine
end

