-- ==== Sys2Proof/Machine/Dumps.lean ====
section
/-! DEFINITION. Fatal dumps (R663 to R671): what the handler writes, DUMP_OPEN and DUMP_CLEAR. -/

namespace Sys2Proof.Machine

def bodyLen : Nat := 0xB7000

/-! ### The body (R666, R667) -/

/-- Bytes at their offsets; gaps are zero. -/
def layOut : Nat → List (Nat × Bytes) → Bytes
  | _, [] => []
  | at', (off, b) :: r => zeros (off - at') ++ b ++ layOut (off + b.length) r

/-- One core's 32 bytes of the fatal detail. A core 0 that an INTERRUPT brought to the handler ran in the outer world, and its
bank holds its pc. -/
def coreDetail (c : Core) : Bytes :=
  let outer := c.world == .outer || c.banked
  let csr := if outer then c.csrOuter else c.csrInner
  let pc := if c.banked then c.bank.getD 31 0 else c.pc
  [byte (b2n outer), byte (b2n c.halted)] ++ zeros 6 ++ toLe 8 pc.toNat ++ toLe 8 (csr.getD 0x342 0).toNat
    ++ toLe 8 (csr.getD 0x343 0).toNat

def fatalDetail (s : State) (h : Nat) : Bytes :=
  slice (match (s.H h).recorder.lost with | some r => recBytes r false | none => []) 0 64
    ++ (List.range 4).flatMap (fun c => coreDetail (s.core h c))

def dumpCaptures (s : State) (h : Nat) : Bytes :=
  ((List.range 26).map (mpuPage h) ++ [memPage h]).flatMap (fun p => slice (captureBytes p s) 0 16)

/-- 32 bytes of a unit's status. -/
def unitStatus (s : State) (h u : Nat) : Bytes :=
  let e := s.eng h u
  let p := pgU h u
  let lock := if isBurner u then viewWord s p (0x060 + 4 * unitNo u) else lockWord e
  let st := if isBn u then 0x060 else if isBurner u then 0x050 else 0x080
  toLe 4 lock ++ [byte (blkCode s h u), byte (b2n e.offline)] ++ toLe 2 (e.job.getD 0xFFFF) ++ toLe 4 (viewWord s p st)
    ++ toLe 4 (if isBn u then s.rd p Reg.BN_CYCLES_COUNT else 0) ++ zeros 16

/-- A key reference of a job: KIND, INDEX, FINGERPRINT. -/
def dumpRef (jb : Job) (i : Nat) : Bytes :=
  let r := dRef jb.desc i
  [byte (byteAt r 0), 0] ++ slice r 2 2 ++ zeros 4 ++ slice ((jb.keys.getD i {}).fp) 0 8

/-- The entry of an inner-world job (R18, R667): RUNNING, its unit, the VF of the job it serves. DESIGN CHOICE (log 130): the other
fields are zero. -/
def dumpInner (s : State) (h : Nat) : InnerJob → Bytes
  | .kat u => [4, byte u] ++ zeros 62
  | .unwrap j _ => [4, 0xFF] ++ toLe 2 (((s.job? h j).map (·.vf)).getD 0) ++ zeros 60

def dumpJob (s : State) (h j : Nat) : Bytes :=
  match s.job? h j, (s.H h).inner.find? j with
  | none, none => zeros 64
  | none, some i => dumpInner s h i
  | some jb, _ =>
    [byte (jobCode jb.state), byte (jb.units.headD 0xFF)] ++ toLe 2 jb.vf ++ toLe 2 (dOp jb.desc) ++ toLe 2 (dGroup jb.desc)
      ++ toLe 4 (dTag jb.desc) ++ [byte jb.qp, 0] ++ toLe 2 jb.status ++ (List.range 3).flatMap (dumpRef jb)

/-- A key-cache entry of the directory: a head entry, a continuation of one, or FREE. -/
def dumpKey (c : Tab KeyEntry) (i : Nat) : Bytes :=
  match List.find? (fun (e : Nat × KeyEntry) => decide (e.1 ≤ i ∧ i < e.1 + e.2.extent)) c with
  | none => zeros 16
  | some (k, e) =>
    let head := k == i
    [byte (if head then entryCode e else 3), byte e.attr.alg, byte e.attr.usage, byte e.attr.flags] ++ toLe 2 e.attr.owner
      ++ toLe 2 e.extent ++ (if head then slice e.fp 0 8 else zeros 8)

/-- The sections: type, number of items, offset. -/
def sections : List (Nat × Nat × Nat) :=
  [(1, 1, 0x80), (2, 27, 0x180), (3, 20, 0x400), (4, 53, 0x1000), (5, 2048, 0x36000), (6, 8192, 0x56000), (7, 4160, 0x76000)]

def directory : Bytes := padTo 128 (sections.flatMap (fun e => [byte e.1, 0] ++ toLe 2 e.2.1 ++ toLe 4 e.2.2))

def dumpBody (s : State) (h : Nat) : Bytes :=
  slice (layOut 0
    [(0, directory), (0x80, fatalDetail s h), (0x180, dumpCaptures s h), (0x400, (List.range 20).flatMap (unitStatus s h)),
     (0x1000, (List.range 53).flatMap (fun k => pageBytes s (dirPage h k))),
     (0x36000, (List.range 2048).flatMap (dumpJob s h)),
     (0x56000, (List.range 8192).flatMap (dumpKey (s.H h).cache)),
     (0x76000, (List.range 4160).flatMap (slotBytes (s.H h).recorder 4096))]) 0 bodyLen

/-! ### The header (R665) -/

/-- The bytes 0x00 to 0x3F with STATE COMPLETE. -/
def dumpHead (s : State) (h : Nat) : Bytes :=
  let x := s.H h
  ascii "VXFD" ++ [1, byte h, byte (x.fatal.getD 0), 1] ++ serial16 s ++ toLe 8 x.dump.time ++ toLe 4 x.dump.lastSeq
    ++ [byte (b2n x.testRoot), 0, 0, 0] ++ toLe 4 bodyLen ++ zeros 4 ++ toBe 4 (vaultGen s h 0) ++ toLe 8 x.dump.time ++ zeros 4

def dumpKeyOf (root : Bytes) (h : Nat) : Bytes := internalKey root "fatal dump" h 0 0 32

/-- The bytes the handler writes from the start of the region. -/
def dumpImage (s : State) (h : Nat) (root : Bytes) : Bytes :=
  let head := dumpHead s h
  let k := dumpKeyOf root h
  let iv := slice head 0x30 12
  let ct := gcmCrypt k iv (dumpBody s h)
  head ++ gcmTag k iv head ct ++ zeros 176 ++ ct

/-- A write of a whole region: lines replaced, poison marks cleared, counter 160. -/
def regionWrite (h off : Nat) (d : Bytes) (s : State) : State :=
  let s := s.modMem h (fun m =>
    { m with
      ddr := memPut m.ddr off d
      poison := m.poison.filter (fun l => l * 64 + 64 ≤ off || off + d.length ≤ l * 64) })
  addCtr h 160 (d.length / 64) s

/-- DUMP_WRITE_DONE: the handler has written the dump, or could not (R663, R664, R767). -/
def dumpWritten (h : Nat) (s : State) : State :=
  let x := s.H h
  if x.fatal.isNone ∨ !x.dump.handler ∨ !s.up h then s
  else
    let s := s.modH h (fun x => { x with dump := { x.dump with handler := false } })
    let failed := fun (s : State) => raiseFlue evDumpFailed (pgF .flueEvents) { inst := h } s
    match x.dump.base, hearthRoot x with
    | some b, some root =>
      if !s.memReady h then failed s
      else if isolating s then failed (s.modMem h (fun m => { m with ddr := memSet m.ddr (b + 7) 0 }))
      else raiseFlue evDumpReady (pgF .flueEvents) { inst := h } (regionWrite h b (dumpImage s h root) (derived h 1 s))
    | some b, none =>
      failed (if s.memReady h then s.modMem h (fun m => { m with ddr := memSet m.ddr (b + 7) 0 }) else s)
    | none, _ => failed s

def execDumpWriteDone (h : Fin 16) (s : State) : Result := .next (dumpWritten h.val s)

/-! ### DUMP_OPEN and DUMP_CLEAR (R670, R671) -/

/-- The stored bytes of a hearth's dump region. -/
def dumpBytes (s : State) (h off n : Nat) : Bytes := memBytes (s.H h).mem.ddr ((s.H h).dump.base.getD 0 + off) n

/-- A line of the dump is poisoned, so that its read fails. -/
def dumpPoisoned (s : State) (h : Nat) : Bool :=
  (s.H h).mem.poison.any (fun l => spansMeet (l * 64) 64 ((s.H h).dump.base.getD 0) (0x100 + bodyLen))

/-- The checks of R670 in order: the status of the first that fails, or the key's root. -/
def openCheck (s : State) (h outLen : Nat) : Except Nat Bytes :=
  let head := dumpBytes s h 0 64
  if !s.enabled h ∨ !s.live h ∨ (s.H h).dump.base.isNone then .error stState
  else if dumpPoisoned s h then .error stPoison
  else if byteAt head 7 ≠ 1 ∨ slice head 0 4 ≠ ascii "VXFD" ∨ byteAt head 4 ≠ 1 then .error stState
  else if outLen < bodyLen then .error stOutputTooSmall
  else if byteAt head 0x24 ≠ b2n (s.H h).testRoot then .error stKeyNotFound
  else if isolating s then .error stQuenched
  else match hearthRoot (s.H h) with
    | none => .error stKeyNotFound
    | some root => .ok root

/-- DUMP_OPEN. -/
def dumpOpen (r : AdminReq) (s : State) : State × Adm :=
  let h := pHearth r.desc
  match openCheck s h (dOutLen r.desc) with
  | .error st => (s, admErr st)
  | .ok root =>
    let head := dumpBytes s h 0 64
    let ct := dumpBytes s h 0x100 bodyLen
    let k := dumpKeyOf root h
    let iv := slice head 0x30 12
    let tag := dumpBytes s h 0x40 16
    let s := derived h 1 s
    if gcmTag k iv head ct ≠ tag then (s, admErr stTagMismatch)
    else (s, .done stOK [] (gcmCrypt k iv ct))

def execDumpOpen (q : Fin 4) (rd : AdminRead) (s : State) : Result :=
  adminRow 0x0840 q rd (ownLen 0) dumpOpen s

/-- DUMP_CLEAR. -/
def dumpClear (r : AdminReq) (s : State) : State × Adm :=
  let h := oByte r 0
  if !s.enabled h then (s, admErr stBadDescriptor)
  else if (s.H h).dump.handler then (s, admErr stState)
  else
    match (s.H h).dump.base with
    | none => (s, admOk)
    | some b => (s.modMem h (fun m => { m with ddr := memSet m.ddr (b + 7) 0 }), admOk)

def execDumpClear (q : Fin 4) (rd : AdminRead) (s : State) : Result := adminRow 0x0841 q rd noOwn dumpClear s

end Sys2Proof.Machine
end

