-- ==== Sys2Proof/Machine/RegWrite.lean ====
section
/-! DEFINITION. A write to a register of a page: who may write it, what it changes, and the capture where it is refused (R10 to
R12, R711 to R717, and the writers each page's register table names). -/

namespace Sys2Proof.Machine

/-! ### Words of a page -/

/-- The fields of a word with one of some kinds of access. -/
def accAt (p : Page) (off : Nat) (l : List Acc) : List Fld := (fieldsAt p off).filter (fun f => l.contains f.acc)

/-- A write of a word can be refused at all (R711): it has a field that is written whole, or sets a bit of one that ones act on. -/
def touches (p : Page) (off d : Nat) : Bool :=
  !(accAt p off [.rw, .rwl, .wo]).isEmpty || (accAt p off [.w1c, .w1s]).any (fun f => bits d f.lo f.w != 0)

/-- The ones of W1C fields clear their bits. -/
def clearOnes (p : Page) (off d : Nat) (s : State) : State :=
  (accAt p off [.w1c]).foldl (fun s f => s.wr p f (s.rd p f ^^^ (s.rd p f &&& bits d f.lo f.w))) s

/-- The RW fields of a word, and its RWL fields while the page is not locked, take what was written (R10, R712, R721). -/
def putWord (p : Page) (who : Requester) (off d : Nat) (s : State) : State :=
  let locked := s.flag p Reg.PAGE_CTRL_LOCK
  let s' := setFields p ((accAt p off (if locked then [.rw] else [.rw, .rwl])).map (fun f => (f, bits d f.lo f.w))) s
  if locked && !(accAt p off [.rwl]).isEmpty then refuse p who off d cLocked s' else s'

/-- A word whose fields do nothing beyond holding their values. -/
def plainWord (ok : Bool) (p : Page) (who : Requester) (off d : Nat) (s : State) : State :=
  if !touches p off d then s
  else if !ok then refuse p who off d cRequester s
  else clearOnes p off d (putWord p who off d s)

/-- One write counts once in PAGE_GEN (R712), whatever it changes. -/
def oneGen (p : Page) (f : State → State) (s : State) : State :=
  let s' := f s
  if s'.rd p Reg.PAGE_GEN_GEN = s.rd p Reg.PAGE_GEN_GEN then s' else s'.wr p Reg.PAGE_GEN_GEN (s.rd p Reg.PAGE_GEN_GEN + 1)

/-! ### The header -/

/-- The outer world holds the lock of the page's engine. -/
def outerHolds (p : Page) (s : State) : Bool := enginePage p.kind && (s.eng p.unit.val (pageUnit p)).holder == 3

/-- Who may write a page's registers at 0x040 or above, whatever else those writes need (R714). -/
def pageWriter (p : Page) (who : Requester) (s : State) : Bool :=
  match p.kind with
  | .debug => decide (who = .pf1)
  | .flueEvents => decide (who = .pf0) || decide (who = .pf1)
  | .evtroute => decide (who = .pf0) || decide (who = .pf1)
  | .vfQueue => decide (who = .vf p.unit)
  | .events => mgrOrInner who || decide (who = .pf1)
  | .keycache => isInner who
  | .gate => isInner who || isOuter who
  | .power => mgrOrInner who || (isOuter who && s.flag p Reg.PWR_CTRL_OUTER_REQ)
  | .cipher => mgrOrInner who || (isOuter who && outerHolds p s)
  | .hash => mgrOrInner who || (isOuter who && outerHolds p s)
  | .bignum => mgrOrInner who || (isOuter who && outerHolds p s)
  | .mpu => mpuWriter p.inst.val who
  | k => if k.ctorIdx < PageKind.vfQueue.ctorIdx then decide (who = .pf0) else mgrOrInner who

/-- Who may write EVT_STATUS and EVT_ENABLE. The spec names no writers: DESIGN CHOICE, the page's writers, on hearth pages also
PF0 and the inner world, of the outer world only where R639 delivers an event of the page to it. -/
def evtWriter (p : Page) (who : Requester) (s : State) : Bool :=
  if isOuter who then outerHolds p s || (p.kind == .mpu && decide (p.inst.val < 4))
  else pageWriter p who s || (isHearthPage p && mgrOrInner who)

/-- Who may clear a held capture (R513, R714). -/
def mayClear (p : Page) (who : Requester) (s : State) : Bool :=
  if p.kind = .mempath then mgrOrInner who
  else if p.kind = .mpu then
    isInner who || (isOuter who && decide (p.inst.val < 4) && s.flag p Reg.MERR_CAPTURE1_WORLD)
  else if isOuter who then pageWriter p who s && s.rd p Reg.ERR_CAPTURE0_REQUESTER == 3
  else pageWriter p who s

/-- VALID written as 1: the capture registers and ERR_COUNT clear. -/
def clearCapture (p : Page) (who : Requester) (d : Nat) (s : State) : State :=
  if d < 2 ^ 31 then s
  else if mayClear p who s then { s with regs := resetPageRegs p 0x020 0x034 s.regs }
  else refuse p who 0x02C d cRequester s

/-- A write below 0x040. -/
def headerWrite (p : Page) (who : Requester) (off d : Nat) (s : State) : State :=
  let h := p.unit.val
  if off = 0x008 then
    let s := if enginePage p.kind && d.testBit 1 then softReset h (pageUnit p) who s else s
    if d.testBit 2 then setLock p who s else s
  else if off = 0x00C then (if enginePage p.kind then writeLock h (pageUnit p) who (d % 2 ^ 16) s else s)
  else if p.kind = .vfQueue ∧ off < 0x020 then s
  else if off = 0x010 ∨ off = 0x014 then
    if !touches p off d then s
    else if !evtWriter p who s then refuse p who off d cRequester s
    else if off = 0x010 then clearOnes p off d s
    else s.wr p Reg.EVT_ENABLE_ENABLE d
  else if off = 0x018 then inject p who d s
  else if off = 0x02C then clearCapture p who d s
  else s

/-! ### Pages of the flue and the chimney -/

/-- A queue pair's block (R60 to R62, R730). -/
def queueWrite (t : Queue) (who : Requester) (off d : Nat) (s : State) : State :=
  let p := qPage t
  if (off - 0x080) % 32 = 0x18 then (if d % 2 = 1 then enableQp t s else disableQp t s)
  else if (accAt p off [.rw]).isEmpty then s
  else if s.qrd t Reg.QP_CTRL_ENABLE = 1 ∨ s.qrd t Reg.QP_STATUS_ACTIVE = 1 then refuse p who off d cState s
  else putWord p who off d s

/-- The command bits of BOOT_CTRL. GO has a row of its own, which brings the image that the fetch reads. -/
def bootWrite (who : Requester) (off d : Nat) (s : State) : State :=
  if off = 0x04C then
    (if who ≠ .pf0 then refuse bootPage who off d cRequester s else if d.testBit 1 then doBootRestart who false s else s)
  else plainWord (decide (who = .pf0)) bootPage who off d s

def snapWrite (who : Requester) (off d : Nat) (s : State) : State :=
  if off = 0x040 then
    if who ≠ .pf0 then refuse ctrPage who off d cRequester s
    else
      let s := setFields ctrPage [(Reg.SNAP_CTRL_PERIOD, bits d 16 16)] s
      if d.testBit 0 then snapGo who d s else s
  else plainWord (decide (who = .pf0)) ctrPage who off d s

/-- A recorder's page (R651, R656 to R661). -/
def recorderWrite (unit : Option Nat) (who : Requester) (off d : Nat) (s : State) : State :=
  let p := recPage unit
  let ok := pageWriter p who s
  if off = 0x040 then
    if !ok then refuse p who off d cRequester s
    else
      let s := setFields p [(Reg.EVR_CTRL_MIN_SEVERITY, bits d 0 3)] s
      let s := if d.testBit 3 then freeze unit who s else s
      if d.testBit 4 then unfreeze unit who s else s
  else if off = 0x04C then ack unit who d s
  else plainWord ok p who off d s

/-- A global event that exists on the variant (R3, R639, R640). -/
def eventExists (s : State) (g : Nat) : Bool :=
  if g < 1152 then
    s.enabled (g / 72) && hearthEvents.any (fun e => e.n == g % 72 && (s.variant.hob || (e.n != 24 && e.n != 25)))
  else flueEvents.any (fun e => e.n == g)

/-- FLUE.EVTROUTE (R644): PF0 writes every field, PF1 its own. A PF1 write that would change a PF0 field is captured. -/
def routeWrite (p : Page) (who : Requester) (off d : Nat) (s : State) : State :=
  let i := (off - 0x040) / 4
  if !eventExists s (i + 1008 * p.inst.val) ∨ !touches p off d then s
  else if who = .pf0 then putWord p who off d s
  else if who = .pf1 then
    let s' := setFields p [(Reg.RT_PF1_VECTOR i, bits d 12 4), (Reg.RT_PF1_EN i, bits d 16 1)] s
    if bits d 0 11 = s.rd p (Reg.RT_PF0_VECTOR i) ∧ bits d 11 1 = s.rd p (Reg.RT_PF0_EN i) then s'
    else refuse p who off d cRequester s'
  else refuse p who off d cRequester s

def debugWrite (who : Requester) (off d : Nat) (s : State) : State :=
  if who ≠ .pf1 then (if touches dbgPage off d then refuse dbgPage who off d cRequester s else s)
  else if off = 0x040 then
    let s := if d.testBit 0 then newChallenge s else s
    let s := if d.testBit 1 then submitToken s else s
    if bits d 8 4 = 0 then s else dropEnables (bits d 12 4) (bits d 8 4) s
  else plainWord true dbgPage who off d s

/-- CHIMNEY.TAMPER (R603). A write through the hearth-local space is made on the page of that hearth's number. -/
def tamperWrite (h : Nat) (who : Requester) (off d : Nat) (s : State) : State :=
  if off = 0x040 then
    if isInner who then
      let s := if bits d 0 3 = 0 then s else refuse tamperPage who off d cRequester s
      if d.testBit 3 then doFwTrigger h who s else s
    else if who ≠ .pf0 then refuse tamperPage who off d cRequester s
    else
      let s := if d.testBit 1 then doLock s else s
      let s := if d.testBit 0 then doRelease who s else s
      let s := if d.testBit 2 then doTrips [(29, 0)] s else s
      if d.testBit 3 then refuse tamperPage who off d cRequester s else s
  else if !touches tamperPage off d then s
  else if who ≠ .pf0 then refuse tamperPage who off d cRequester s
  else if off = 0x04C then doStickyClear who d s
  else if off = 0x054 then doRespWrite who false d s
  else if off = 0x058 then doRespWrite who true d s
  else s

/-! ### Pages of a hearth -/

/-- KC_QUOTA and the policy fields of a position (R177, R178). -/
def policyWrite (h : Nat) (who : Requester) (off d : Nat) (s : State) : State :=
  let p := kpPage h
  let i := (off - 0x040) / 8
  if !touches p off d then s
  else if !mgrOrInner who then refuse p who off d cRequester s
  else if off % 8 = 4 then
    let q := bits d 0 13
    if quotaLeft s h i < q then refuse p who off d cValue s
    else setFields p [(Reg.KP_KC_QUOTA i, q)] s
  else putWord p who off d s

/-- The registers of an engine page that PF0 and the inner world write whoever holds the lock (R260, R386). -/
def freeReg (k : PageKind) (off : Nat) : Bool :=
  if k = .bignum then off == 0x06C || off == 0x070 || off == 0x08C else off == 0x084 || off == 0x08C

/-- An engine page (R260, R261, R386, R387). -/
def engineWrite (p : Page) (who : Requester) (off d : Nat) (s : State) : State :=
  let h := p.unit.val
  let u := pageUnit p
  let n := p.inst.val
  let e := s.eng h u
  if off = ctrlOff then
    let s := if d.testBit 0 then (if p.kind = .bignum then bnStart h n who s else ceStart h u who s) else s
    let s := if p.kind = .bignum ∧ d.testBit 2 then doBnClear h n who s else s
    if d.testBit 1 then doKatReq h u who s else s
  else if p.kind = .bignum ∧ (off = 0x080 ∨ off = 0x084) then bnWindow h n who (off == 0x084) (some d) s
  else if !touches p off d then s
  else if s.blockState h u = 2 ∨ s.blockState h u = 4 then refuse p who off d cState s
  else if freeReg p.kind off then plainWord (mgrOrInner who) p who off d s
  else
    match holderFault s h u who with
    | some c => refuse p who off d c s
    | none =>
      if e.busy ∧ !(accAt p off [.rw]).isEmpty then refuse p who off d cState s else clearOnes p off d (putWord p who off d s)

/-- HEARTH.HOB (R312, R339, R340). A core's write to a BURNER_LOCK is recorded (R284). -/
def hobWrite (h : Nat) (who : Requester) (off d : Nat) (s : State) : State :=
  let p := pgH .hob h
  let lock := decide (0x060 ≤ off ∧ off < 0x070) && worldCode who != 0
  if !s.variant.hob then s
  else if lock then refuse p who off d cRequester s
  else if !touches p off d then s
  else if !mgrOrInner who then refuse p who off d cRequester s
  else if off = 0x040 then
    let s := doHobMode h who d s
    let s := (List.range 4).foldl (fun s b => if d.testBit (4 + b) then doKatReq h (16 + b) who s else s) s
    if d.testBit 8 then doPinfailClr h who s else s
  else if off = 0x04C then (if bits d 4 4 < bits d 0 4 then refuse p who off d cValue s else putWord p who off d s)
  else if 0x080 ≤ off ∧ off % 16 = 8 then doDtValid h ((off - 0x080) / 16) who d s
  else
    let s := putWord p who off d s
    if 0x080 ≤ off then setFields p [(Reg.DT_CTRL_VALID ((off - 0x080) / 16), 0)] s else s

/-- HEARTH.ENTROPY (R438, R449, R460, R461). The bits gathered for ENT_RAW are those of the pair that was selected. -/
def entropyWrite (h : Nat) (who : Requester) (off d : Nat) (s : State) : State :=
  let p := entPage h
  if !touches p off d then s
  else if !mgrOrInner who then refuse p who off d cRequester s
  else if off = 0x040 then
    let s := doPolicy h who d s
    let s := if d.testBit 1 then doEntTest h true who s else s
    if d.testBit 2 then doEntTest h false who s else s
  else if off = 0x068 then
    let s' := putWord p who off d s
    if s'.rd p Reg.ENT_RAW_SEL_PAIR = s.rd p Reg.ENT_RAW_SEL_PAIR then s' else s'.modEnt h (fun e => { e with raw := 0, rawN := 0 })
  else clearOnes p off d (putWord p who off d s)

/-- A range's block (R480, R517). -/
def rangeWrite (h r : Nat) (who : Requester) (off d : Nat) (s : State) : State :=
  let p := memPage h
  let st := s.rangeState h r
  if r = 0 then s
  else if off % 32 = 0x14 then clearOnes p off d s
  else
    let s := if st = rsOff ∨ st = rsBroken then putWord p who off d s else s
    if off % 32 = 0x10 ∧ d.testBit 2 then rngInit h r who s else s

/-- HEARTH.MEMPATH (R467, R501, R513, R516, R517). Its register refusals leave no capture, that of R467 apart. -/
def mempathWrite (h : Nat) (who : Requester) (off d : Nat) (s : State) : State :=
  let p := memPage h
  if off = 0x044 ∧ d.testBit 0 ∧ !mgrOrInner who then memInit h who s
  else if !mgrOrInner who then s
  else if 0x100 ≤ off ∧ off < 0x200 then rangeWrite h ((off - 0x100) / 32) who off d s
  else if off = 0x044 then
    let s := putWord p who off d s
    if d.testBit 0 then memInit h who s else s
  else if off = 0x080 then
    let s := if d.testBit 0 then ownGo h who s else s
    if d.testBit 1 then ownSync h who s else s
  else clearOnes p off d (putWord p who off d s)

/-- HEARTH.MPUmm (R503, R504, R507, R509, R518). -/
def mpuWrite (h m : Nat) (who : Requester) (off d : Nat) (s : State) : State :=
  let p := mpuPage h m
  if off = 0x044 then (if d.testBit 0 then mpuSync h m who s else s)
  else if off = 0x048 then (if mpuWriter m who then clearOnes p off d s else s)
  else if (accAt p off [.rw]).isEmpty then s
  else
    let r := (off - 0x100) / 16
    if !fixedMaster m && (isInner who || (mpuWriter m who && decide (8 ≤ r))) then
      (putWord p who off d s).wr p Reg.MPU_STATUS_DIRTY 1
    else s.bump p Reg.MPU_STATUS_IGNORED

/-- HEARTH.GATE (R520, R521, R531). -/
def gateWrite (h : Nat) (who : Requester) (off d : Nat) (s : State) : State :=
  let p := gatePage h
  let c := (off - 0x040) / 32
  if off < 0x0C0 ∧ off % 32 = 0 then
    if reqCore who ≠ c ∨ !(isInner who || isOuter who) then refuse p who off d cRequester s
    else match opOfCode (d % 8) with
      | some op => gateStore h c op (d % 8) (bits d 8 8) s
      | none => doGateFault h c d s
  else if off < 0x0C0 ∧ off % 32 = 0x10 then (if d.testBit 0 then doCoreRelease h c who s else s)
  else plainWord (isInner who) p who off d s

/-- HEARTH.POWER (R545, R549, R550, R560). -/
def powerWrite (h : Nat) (who : Requester) (off d : Nat) (s : State) : State :=
  let p := powerPage h
  if off = 0x040 then
    if !mgrOrInner who then refuse p who off d cRequester s
    else oneGen p (fun s =>
      let s := setFields p [(Reg.PWR_CTRL_FLATTEN, bits d 4 1), (Reg.PWR_CTRL_AUTO_WAKE, bits d 5 1), (Reg.PWR_CTRL_OUTER_REQ, bits d 6 1)] s
      setTarget h who (bits d 0 2) (setProfile h who d (bits d 2 2) s)) s
  else if off = 0x04C ∨ off = 0x050 then writeBlkReq h who (off == 0x050) d s
  else if off = 0x05C then writeHold h who d s
  else plainWord (mgrOrInner who) p who off d s

/-! ### Any page -/

/-- A write at 0x040 or above. `g` is the hearth through whose local space a page of the chimney is reached. -/
def pageWrite (g : Nat) (p : Page) (who : Requester) (off d : Nat) (s : State) : State :=
  let h := p.unit.val
  match p.kind with
  | .flueBoot => bootWrite who off d s
  | .adminq =>
    if !touches p off d then s
    else if who ≠ .pf0 then refuse p who off d cRequester s
    else queueWrite (.admin (Fin.ofNat 4 ((off - 0x080) / 32))) who off d s
  | .vfQueue =>
    if !touches p off d then s
    else if who ≠ .vf p.unit then refuse p who off d cRequester s
    else queueWrite (.vf p.unit (Fin.ofNat 8 ((off - 0x080) / 32))) who off d s
  | .flueCounters => snapWrite who off d s
  | .flueEvents => recorderWrite none who off d s
  | .evtroute => routeWrite p who off d s
  | .debug => debugWrite who off d s
  | .tamper => tamperWrite g who off d s
  | .vault => if touches p off d then doBankPeriod who d s else s
  | .stoker => if off = 0x040 then doStkMode h who d s else plainWord (mgrOrInner who) p who off d s
  | .keycache => if off = 0x048 ∧ d.testBit 0 then doFlush h who s else s
  | .keypolicy => policyWrite h who off d s
  | .cipher => engineWrite p who off d s
  | .hash => engineWrite p who off d s
  | .bignum => engineWrite p who off d s
  | .hob => hobWrite h who off d s
  | .entropy => entropyWrite h who off d s
  | .mempath => mempathWrite h who off d s
  | .mpu => mpuWrite h p.inst.val who off d s
  | .gate => gateWrite h who off d s
  | .power => powerWrite h who off d s
  | .events => recorderWrite (some h) who off d s
  | _ => plainWord (pageWriter p who s) p who off d s

/-! ### MSI-X tables and configuration spaces (R41, R55, R85) -/

/-- The function whose table, pending-bit array or configuration space a page is. -/
def bareFunc (p : Page) : Func :=
  match p.kind with
  | .msixPf => if p.inst.val < 8 then .pf0 else .pf1
  | .pbaPf => if p.inst.val = 0 then .pf0 else .pf1
  | .cfgPf => if p.inst.val = 0 then .pf0 else .pf1
  | _ => .vf p.unit.val

/-- The host reaches a function's own memory through that function; a VF's through PF0's driver as well. -/
def bareWriter (p : Page) (who : Requester) : Bool :=
  match bareFunc p with
  | .pf0 => decide (who = .pf0)
  | .pf1 => decide (who = .pf1) || decide (who = .pf0)
  | .vf _ => decide (who = .vf p.unit) || decide (who = .pf0)

/-- The RW fields of a word take what was written. -/
def bareFieldsWrite (p : Page) (off d : Nat) (s : State) : State :=
  (accAt p off [.rw]).foldl (fun s f => s.wr p f (bits d f.lo f.w)) s

/-- A word of a table or of a configuration space: none of R710's header, capture and generation stands there. A vector whose
entry is unmasked sends what pends. -/
def bareWrite (p : Page) (who : Requester) (off d : Nat) (s : State) : State :=
  if !bareWriter p who then s
  else
    let s := bareFieldsWrite p off d s
    if p.kind = .msixVf ∨ p.kind = .msixPf then unmaskMsix (bareFunc p) (p.inst.val % 8 * 256 + off / 16) s else s

/-- A register write that arrives while an engine scrubs (R257). The lock's own write captures the identity it carries. -/
def duringScrub (p : Page) (off d : Nat) (s : State) : Bool :=
  enginePage p.kind && (s.eng p.unit.val (pageUnit p)).scrubbing && off != 0x00C && touches p off d

/-- One write of a word. -/
def wordWrite (g : Nat) (p : Page) (who : Requester) (off d : Nat) (s : State) : State :=
  if p.kind.bare then bareWrite p who off d s
  else if duringScrub p off d s then refuse p who off d cState s
  else if off < 0x040 then headerWrite p who off d s else pageWrite g p who off d s

/-- A write that breaks R716: refused where a register lies there. -/
def badSize (p : Page) (who : Requester) (off d : Nat) (s : State) : State :=
  if (fieldsAt p (off / 4 * 4)).isEmpty ∨ p.kind.bare then s else refuse p who off d cSize s

/-- A write reaches a page: a hearth's as R732 says, a VF's as R46 to R48 say, a configuration space while the link is there, the
others while the flue answers (R677). -/
def reachPage (p : Page) (f : State → State) (s : State) : State :=
  if p.kind = .vfQueue then onQueue (.vf p.unit 0) f s
  else if p.kind = .msixVf ∨ p.kind = .pbaVf then (if s.flueUp && s.vfExists p.unit.val then f s else s)
  else if p.kind = .cfgVf then (if flueListens s && s.vfExists p.unit.val then f s else s)
  else if p.kind = .cfgPf then (if flueListens s then f s else s)
  else onPage p f s

def registerWrite (p : Page) (who : Requester) (off size enables d : Nat) (s : State) : State :=
  let q := p.home
  reachPage q (if size = 4 ∧ enables = 15 ∧ off % 4 = 0 then wordWrite p.unit.val q who off d else badSize q who off d) s

def execRegisterWrite (p : Page) (who : Requester) (off : BitVec 12) (size : Fin 9) (enables : BitVec 4) (data : Word) (s : State) :
    Result :=
  if p.wf then .next (registerWrite p who off.toNat size.val enables.toNat data.toNat s) else .fault .illFormed

end Sys2Proof.Machine
end

