-- ==== Sys2Proof/Machine/MemAccess.lean ====
section
/-! DEFINITION. An access of a data-fabric master (R464, R471, R502 to R515, R727, R732): its requester, its stages, the pages and
windows of the hearth-local space, and what the master receives. -/

namespace Sys2Proof.Machine

/-! ### Requesters -/

def kindCode : AccessKind → Nat
  | .read => 0 | .write => 1 | .fetch => 2 | .atomic => 3

/-- The request that a master makes now (R496, R502, R519). A core that does not execute and an engine that no world holds make
none; the stoker's DMA belongs to the rows of its jobs; the dump window only reads. For the debug master `mm` tells that the
inner world is debugged. -/
def masterReq (s : State) (h m : Nat) (mm : Bool) (kind : Nat) : Option Req :=
  let ident := fun (o : Bool) => if o then idOuter else idInner
  if m < 4 then
    let o := (s.core h m).world == .outer
    if coreRuns s h m then some { master := m, outer := o, mmode := mm, kind := kind, ident := ident o } else none
  else if m = 4 then none
  else if isEngineMaster m then
    let e := s.eng h (m - 6)
    if 2 ≤ e.holder then some { master := m, outer := e.holder == 3, kind := kind, ident := ident (e.holder == 3) } else none
  else if m = 22 then some { master := m, outer := !mm, kind := kind, ident := if mm then idDbgInner else idDbgOuter }
  else if m = 25 then (if kind = 0 then some { master := m } else none)
  else some { master := m, kind := kind }

/-- A debug master without the invasive enable of its world (R515, R532). -/
def debugBlocked (s : State) (h : Nat) (q : Req) : Bool :=
  q.master == 22 && !(s.H h).enables.testBit (if q.outer then 1 else 3)

/-- Who a request is to a register page; an engine's port is none of R711's requesters. -/
def pageRequester (q : Req) : Option Requester :=
  if q.master < 4 then some (if q.outer then .outer (Fin.ofNat 4 q.master) else .inner (Fin.ofNat 4 q.master))
  else if q.master = 22 then some .debug else none

/-! ### Pages and windows -/

/-- A read whose own row answers with an output: the bytes it answers, and the state without that output. -/
def takeRead (f : State → State) (s : State) : State × Bytes :=
  let s' := f s
  match s'.out.getLast? with
  | some (.readData b) => if s'.out.length = s.out.length + 1 then ({ s' with out := s'.out.dropLast }, b) else (s', zeros 4)
  | _ => (s', zeros 4)

/-- A read of a register (R716, R717). Ports and windows with a row of their own answer as that row does. -/
def pageRead (p : Page) (who : Requester) (o n : Nat) (s : State) : State × Bytes :=
  let h := p.unit.val
  if n = 8 ∧ o % 8 = 0 ∧ p.kind = .counters ∧ 0x800 ≤ o then (s, toLe 4 (viewWord s p o) ++ toLe 4 (viewWord s p (o + 4)))
  else if n ≠ 4 ∨ o % 4 ≠ 0 then
    (if (fieldsAt p (o / 4 * 4)).isEmpty then s else capture p who o 0 (reqIdentity who) true cSize s, zeros n)
  else if p.kind = .entropy ∧ (o = 0x048 ∨ o = 0x04C) then takeRead (doDataRead h who (o == 0x04C)) s
  else if p.kind = .entropy ∧ o = 0x06C then takeRead (doRawRead h) s
  else if p.kind = .bignum ∧ (o = 0x080 ∨ o = 0x084) then takeRead (bnWindow h p.inst.val who (o == 0x084) none) s
  else (s, toLe 4 (viewWord s p o))

/-- An access to a page of a unit at offset `o`: a read, a write, or both. -/
def pageAccess (g : Nat) (p : Page) (q : Req) (o n : Nat) (d : Bytes) (s : State) : State × Bytes :=
  match pageRequester q with
  | none => (s, zeros n)
  | some who =>
    if q.kind = 0 ∨ q.kind = 2 then pageRead p who o n s
    else
      let old := if n = 4 then toLe 4 (viewWord s p o) else zeros n
      (if n = 4 ∧ o % 4 = 0 then wordWrite g p who o (fieldLe d 0 4) s else badSize p who o (fieldLe d 0 4) s, old)

/-- The recorder window (R727): the inner world, and the debug master with II. -/
def windowRead (s : State) (h : Nat) (q : Req) (o n : Nat) : Bytes :=
  if !q.outer && (decide (q.master < 4) || q.master == 22) then windowBytes s h o n else zeros n

/-- The two chimney pages (R727): the inner world alone; other accesses read zero and are captured. -/
def chimneyAccess (h : Nat) (q : Req) (o n : Nat) (d : Bytes) (s : State) : State × Bytes :=
  let p := if o < 4096 then tamperPage else pgF .fuse
  match pageRequester q with
  | some (.inner c) => pageAccess h p { q with master := c.val } (o % 4096) n d s
  | some who => (capture p who (o % 4096) (if q.writes then fieldLe d 0 4 else 0) (reqIdentity who) (!q.writes) cRequester s, zeros n)
  | none => (s, zeros n)

/-! ### One access -/

/-- The stages and the answer. -/
def accessAnswer (h : Nat) (q : Req) (a n : Nat) (d : Bytes) (c : LineCheck) (s : State) : State × Answer :=
  let ok := fun (r : State × Bytes) => (r.1, Answer.ok r.2)
  if debugBlocked s h q then (violate h q a vNoRegion s, .refused vNoRegion)
  else
    match stage1 s h q a, areaOf s h a with
    | none, .pages =>
      let o := a - 0x1000000
      ok (pageAccess h (dirPage h (o / 4096)) q (o % 4096) n d s)
    | none, .recWindow => ok (s, if q.writes then [] else windowRead s h q (a - 0x1100000) n)
    | none, .chimney => ok (chimneyAccess h q (a - 0x1200000) n d s)
    | _, _ => spanAccess h q a n d c s

/-- mcause of a core's access fault (R514, R527). -/
def faultCause (q : Req) : Nat := if q.fetches then 1 else if q.writes then 7 else 5

/-- What the master receives (R514): a core faults on a refusal and on poison. -/
def deliver (h : Nat) (q : Req) (a : Nat) (r : State × Answer) : State :=
  let fault := fun (s : State) => if q.master < 4 then accessFault h q.master (faultCause q) a s else s
  match r.2 with
  | .ok b => r.1.emit (.access 0 false (if q.kind = 1 then [] else b))
  | .poison => fault (r.1.emit (.access 0 true []))
  | .refused c => fault (r.1.emit (.access c false []))

/-- MEMORY_ACCESS. The dump window wakes its hearth (R732). -/
def memoryAccess (h m : Nat) (kind : Nat) (mm : Bool) (a n : Nat) (d : Bytes) (c : LineCheck) (s : State) : State :=
  let s := if m = 25 then onHearth h (fun s => s) s else s
  if !s.up h ∨ n = 0 then s
  else
    match masterReq s h m mm kind with
    | none => s
    | some q => deliver h q a (accessAnswer h q a n d c s)

def execMemoryAccess (h : Fin 16) (master : Fin 26) (kind : AccessKind) (mmode : Bool) (addr : BitVec 48) (len : Fin 65) (data : Bytes)
    (line : LineCheck) (s : State) : Result :=
  .next (memoryAccess h.val master.val (kindCode kind) mmode addr.toNat len.val data line s)

end Sys2Proof.Machine
end

