-- ==== Sys2Proof/Machine/Spdm.lean ====
section
/-! DEFINITION. The SPDM responder of the flue (R124, R125, R134, R684, R706). The spec names SPDM 1.3 and the subset it
implements; the layouts, codes, transcripts and key schedule of the messages are those of DMTF DSP0274 and DSP0277 (PRESUMED).
A request is the whole message, version byte first; in a session, the plaintext inside the secured message. -/

namespace Sys2Proof.Machine

/-! ### State of the responder -/

def State.modSpdm (s : State) (f : Spdm → Spdm) : State := s.modFlue (fun x => { x with spdm := f x.spdm })

def State.session? (s : State) (i : Nat) : Option Session := s.flue.spdm.sessions.find? i

def State.modSession (s : State) (i : Nat) (f : Session → Session) : State :=
  s.modSpdm (fun x => { x with sessions := x.sessions.put i (f (x.sessions.getD i {})) })

/-! ### Hashes and records -/

/-- The hash in force: SHA-384 with ECDSA P-384, SHA-512 with RSASSA-4096 (R124). -/
def spdmHashOf (ecdsa : Bool) (m : Bytes) : Bytes := if ecdsa then sha384 m else sha512 m
def spdmHash (s : State) (m : Bytes) : Bytes := spdmHashOf s.flue.spdm.ecdsa m
def spdmHashLen (s : State) : Nat := if s.flue.spdm.ecdsa then 48 else 64
def spdmMac (s : State) (key m : Bytes) : Bytes := hmac (spdmHash s) 128 key m

/-- HKDF-Expand to `n` bytes, the length of the hash or less, with DSP0274's binary string of a label and a context. -/
def spdmExpandTo (s : State) (n : Nat) (secret : Bytes) (label : String) (context : Bytes) : Bytes :=
  (spdmMac s secret (toLe 2 n ++ ascii "spdm1.3 " ++ ascii label ++ context ++ [1])).take n

def spdmExpand (s : State) (secret : Bytes) (label : String) (context : Bytes) : Bytes :=
  spdmExpandTo s (spdmHashLen s) secret label context

/-- The record of a message that leaves in a session (R124): AES-256-GCM under the responder's keys, with the session's number and the
length in the clear, and the nonce that the record's own number makes (DSP0277; PRESUMED). -/
def sealRecord (s : State) (i : Nat) (x : Session) (m : Bytes) : Bytes :=
  let plain := toLe 2 m.length ++ m
  let aad := toLe 2 x.reqId ++ toLe 2 i ++ toLe 2 (plain.length + 16)
  let k := spdmExpandTo s 32 x.keysTx "key" []
  let iv := xorBytes (spdmExpandTo s 12 x.keysTx "iv" []) (padTo 12 (toLe 8 x.seqTx))
  let ct := gcmCrypt k iv plain
  aad ++ ct ++ gcmTag k iv aad ct

/-- A message that leaves in a session: sealed while the session is there. -/
def sendIn (i code : Nat) (m : Bytes) (s : State) : State :=
  match s.session? i with
  | none => s.emit (.message (some i) code m)
  | some x => (s.emit (.message (some i) code (sealRecord s i x m))).modSession i (fun x => { x with seqTx := x.seqTx + 1 })

/-! ### Answers -/

/-- A response: its message, in the session it goes out in. -/
def respond (session : Option Nat) (m : Bytes) (s : State) : State :=
  match session with
  | none => s.emit (.message none (byteAt m 1) m)
  | some i => sendIn i (byteAt m 1) m s

/-- The SPDM error codes. -/
inductive SpdmErr where
  | invalidRequest | invalidSession | unexpectedRequest | unspecified | decryptError | sessionLimit | versionMismatch | notReady
  deriving DecidableEq, Repr

def SpdmErr.code : SpdmErr → Byte
  | .invalidRequest => 0x01
  | .invalidSession => 0x02
  | .unexpectedRequest => 0x04
  | .unspecified => 0x05
  | .decryptError => 0x06
  | .sessionLimit => 0x0A
  | .versionMismatch => 0x41
  | .notReady => 0x42

/-- An ERROR message. ResponseNotReady carries the delay exponent, the request code, a token and a multiplier. -/
def spdmError (e : SpdmErr) (req : Byte) : Bytes :=
  [0x13, 0x7F, e.code, 0] ++
    (if e = .notReady then
      [byte (Config.messageValue "RDTExponent"), req, byte (Config.messageValue "Token"), byte (Config.messageValue "RDTM")]
    else [])

/-- What a request comes to: an error, or the machine that went on and the answer. -/
abbrev SpdmAns := Except SpdmErr (State × Bytes)

/-- A request outside or inside a session, answered. A flue that does not run answers nothing. -/
def spdmRequest (session : Option Nat) (msg : Bytes) (f : State → SpdmAns) (s : State) : State :=
  if !s.flueUp then s
  else match f s with
    | .ok (t, m) => respond session m t
    | .error e => respond session (spdmError e (byte (byteAt msg 1))) s

/-- The checks before any request but GET_VERSION: its code, its version, its length, and the negotiation before it. -/
def spdmGuard (code len : Nat) (msg : Bytes) (ready : Bool) : Except SpdmErr Unit :=
  if byteAt msg 1 ≠ code ∨ msg.length < len then .error .invalidRequest
  else if byteAt msg 0 ≠ 0x13 then .error .versionMismatch
  else if !ready then .error .unexpectedRequest
  else .ok ()

/-- A session named by a request must exist in the application phase; a request outside a session needs none. -/
def inSession (session : Option Nat) (s : State) : Except SpdmErr Unit :=
  match session with
  | none => .ok ()
  | some i => match s.session? i with
    | none => .error .invalidSession
    | some x => if x.phase = 1 then .ok () else .error .unexpectedRequest

/-! ### Identity, certificates -/

/-- The pair of a certificate slot is there (R134): slot 0's RSA-4096, slot 1's P-384. -/
def pairReady (s : State) (slot : Nat) : Bool :=
  s.chim.fuses.seed.isSome && (if slot = 1 then s.flue.spdm.p384Ready else s.flue.spdm.rsaReady)

/-- The slot whose key the negotiated signature uses. -/
def signSlot (s : State) : Nat := b2n s.flue.spdm.ecdsa

/-- SPDM 1.3's prefix of a signed hash: the version four times, zeros, the context, 100 bytes in all. -/
def spdmPrefix (context : String) : Bytes :=
  let v := ascii "dmtf-spdm-v1.3.*"
  v ++ v ++ v ++ v ++ zeros (36 - context.length) ++ ascii context

/-- RSASSA-PKCS1-v1_5 with SHA-512 under the identity RSA-4096 key. -/
def identityRsaSign (seed m : Bytes) : Bytes :=
  let (p, q) := Config.identityRsa seed
  let d := invMod 65537 ((p - 1) * (q - 1))
  toBe 512 (rsaCrt p q (d % (p - 1)) (d % (q - 1)) (invMod q p) (beNat (pkcs1Encode (digestInfo 3) (sha512 m) 512)))

/-- A responder's signature over a transcript: of the negotiated algorithm under the identity key (R124, R133). -/
def spdmSign (context : String) (m : Bytes) (s : State) : Bytes × State :=
  let seed := s.chim.fuses.seed.getD []
  let t := spdmPrefix context ++ spdmHash s m
  if s.flue.spdm.ecdsa then
    let (k, s) := s.free 64
    (p384Sign (identityScalar seed) k t, s)
  else (identityRsaSign seed t, s)

def certDigest (s : State) (slot : Nat) : Bytes := spdmHash s (Config.certChain slot)

/-! ### Measurements (R125, R684) -/

/-- The measurement indexes the part reports: hearths that the variant lacks are left out. -/
def measIndexes (s : State) : List Nat :=
  [0x01, 0x02, 0x03] ++ (List.range s.variant.hearths).map (0x10 + ·) ++ (List.range s.variant.hearths).map (0x20 + ·)

/-- The bytes a measurement digests: an accepted image's header and body (R684). -/
def measured (s : State) (i : Nat) : Bytes :=
  if i = 0x02 then s.flue.imageMeas
  else if i = 0x03 then Config.measurement 3 ([lcState s, s.chim.fuses.tamperDis, s.chim.fuses.compat, s.chim.fuses.arbFlue,
    s.chim.fuses.arbInner, s.chim.fuses.arbOuter] ++ s.chim.fuses.lcWords.flatMap (fun p => [p.1, p.2]))
  else
    let x := s.H (i % 16)
    let img := if i < 0x20 then (if s.hState (i % 16) = hsStarting then none else x.imageInner) else x.imageOuter
    match if 0x10 ≤ i then img else none with
    | some m => m.2
    | none => Config.measurement i []

/-- One measurement block: index, specification DMTF, size, and the digest with its type. -/
def measBlock (s : State) (i : Nat) : Bytes :=
  let d := spdmHash s (measured s i)
  let kind : Byte := if i = 1 then 0 else if i = 3 then 2 else 1
  [byte i, 1] ++ toLe 2 (3 + d.length) ++ [kind] ++ toLe 2 d.length ++ d

def allBlocks (s : State) : Bytes := (measIndexes s).flatMap (measBlock s)

/-- The measurement summary hash of CHALLENGE_AUTH and KEY_EXCHANGE_RSP; none where it is not asked. -/
def measSummary (s : State) (kind : Nat) : Bytes := if kind = 0 then [] else spdmHash s (allBlocks s)

/-! ### Version, capabilities, algorithms -/

/-- GET_VERSION: what was negotiated before and every session end with it. -/
def doGetVersion (msg : Bytes) (s : State) : SpdmAns :=
  if byteAt msg 1 ≠ 0x84 ∨ msg.length < 4 then .error .invalidRequest
  else if byteAt msg 0 ≠ 0x10 then .error .versionMismatch
  else
    let rsp : Bytes := [0x10, 0x04, 0, 0, 0, 1, 0, 0x13]
    .ok (s.modSpdm (fun x => { p384Ready := x.p384Ready, rsaReady := x.rsaReady, versionDone := true, vca := msg ++ rsp }), rsp)

def execGetVersion (msg : Bytes) (s : State) : Result := .next (spdmRequest none msg (doGetVersion msg) s)

/-- The responder's capability flags (R124): certificates, challenge, signed measurements, encryption and MAC, key exchange,
heartbeat, key update; no PSK, mutual authentication, encapsulated requests, chunking, certificate setting or CSR. -/
def spdmFlags : Nat := 0x62D6

def doGetCapabilities (msg : Bytes) (s : State) : SpdmAns := do
  spdmGuard 0xE1 20 msg (s.flue.spdm.versionDone && !s.flue.spdm.capsDone)
  let rsp := [0x13, 0x61, 0, 0, 0, byte (Config.messageValue "CTExponent"), 0, 0] ++ toLe 4 spdmFlags
    ++ toLe 4 (Config.messageValue "DataTransferSize") ++ toLe 4 (Config.messageValue "MaxSPDMmsgSize")
  .ok (s.modSpdm (fun x => { x with capsDone := true, vca := x.vca ++ msg ++ rsp }), rsp)

def execGetCapabilities (msg : Bytes) (s : State) : Result := .next (spdmRequest none msg (doGetCapabilities msg) s)

/-- The algorithm structures of NEGOTIATE_ALGORITHMS: type and supported bits. -/
def algTables (msg : Bytes) : Nat → Nat → List (Nat × Nat)
  | 0, _ => []
  | n + 1, off => (byteAt msg off, fieldLe msg (off + 2) 2) :: algTables msg n (off + 4 + 4 * (byteAt msg (off + 1) % 16))

def offers (t : List (Nat × Nat)) (kind i : Nat) : Bool := t.any (fun p => p.1 == kind && p.2.testBit i)

/-- NEGOTIATE_ALGORITHMS (R124). Where the requester offers both signatures, the first of R124's list is taken. -/
def doNegotiate (msg : Bytes) (s : State) : SpdmAns := do
  spdmGuard 0xE3 32 msg (s.flue.spdm.capsDone && !s.flue.spdm.algsDone)
  let asym := fieldLe msg 8 4
  let hashes := fieldLe msg 12 4
  let t := algTables msg (byteAt msg 2) (32 + 4 * byteAt msg 28 + 4 * byteAt msg 29)
  let rsa := asym.testBit 5 && hashes.testBit 2
  let ec := asym.testBit 7 && hashes.testBit 1
  if !rsa && !ec then .error .invalidRequest
  else
    let pick := fun (kind i : Nat) => if offers t kind i then 2 ^ i else 0
    let tabs := [(2, pick 2 4), (3, pick 3 1), (5, pick 5 0)].filter (fun p => t.any (fun q => q.1 == p.1))
    let body := tabs.flatMap (fun p => [byte p.1, 0x20] ++ toLe 2 p.2)
    let rsp := [0x13, 0x63, byte tabs.length, 0] ++ toLe 2 (36 + body.length) ++ [byte (byteAt msg 6 % 2), byte (byteAt msg 7 % 4 / 2 * 2)]
      ++ toLe 4 (if rsa then 8 else 4) ++ toLe 4 (if rsa then 2 ^ 5 else 2 ^ 7) ++ toLe 4 (if rsa then 2 ^ 2 else 2 ^ 1)
      ++ zeros 16 ++ body
    .ok (s.modSpdm (fun x => { x with algsDone := true, ecdsa := !rsa, vca := x.vca ++ msg ++ rsp }), rsp)

def execNegotiateAlgorithms (msg : Bytes) (s : State) : Result := .next (spdmRequest none msg (doNegotiate msg) s)

/-! ### Digests, certificates, challenge -/

/-- Adds to the transcript of digests and certificates, outside a session. -/
def noteB (session : Option Nat) (m : Bytes) (s : State) : State :=
  if session.isSome then s else s.modSpdm (fun x => { x with msgB := x.msgB ++ m })

/-- GET_DIGESTS: slots 0 and 1 are supported and provisioned. -/
def doGetDigests (session : Option Nat) (msg : Bytes) (s : State) : SpdmAns := do
  spdmGuard 0x81 4 msg s.flue.spdm.algsDone
  inSession session s
  let rsp := [0x13, 0x01, 0x03, 0x03] ++ certDigest s 0 ++ certDigest s 1
  .ok (noteB session (msg ++ rsp) s, rsp)

def execGetDigests (session : Option (Fin 8)) (msg : Bytes) (s : State) : Result :=
  .next (spdmRequest (session.map Fin.val) msg (doGetDigests (session.map Fin.val) msg) s)

/-- The part is decommissioned (R706), or the pair of a slot is not there yet (R134). -/
def identityGuard (s : State) (slot : Nat) : Except SpdmErr Unit :=
  if lcState s = lcDecommissioned then .error .unspecified
  else if !pairReady s slot then .error .notReady
  else .ok ()

/-- GET_CERTIFICATE (R124, R134, R706). -/
def doGetCertificate (session : Option Nat) (msg : Bytes) (s : State) : SpdmAns := do
  spdmGuard 0x82 8 msg s.flue.spdm.algsDone
  inSession session s
  let slot := byteAt msg 2 % 16
  let chain := Config.certChain slot
  let off := fieldLe msg 4 2
  let len := fieldLe msg 6 2
  if 1 < slot then .error .invalidRequest
  else
    identityGuard s slot
    if byteAt msg 3 % 2 = 1 then
      let rsp := [0x13, 0x02, byte slot, 0] ++ toLe 2 0 ++ toLe 2 chain.length
      .ok (noteB session (msg ++ rsp) s, rsp)
    else if chain.length ≤ off then .error .invalidRequest
    else
      let n := min len (chain.length - off)
      let rsp := [0x13, 0x02, byte slot, 0] ++ toLe 2 n ++ toLe 2 (chain.length - off - n) ++ slice chain off n
      .ok (noteB session (msg ++ rsp) s, rsp)

def execGetCertificate (session : Option (Fin 8)) (msg : Bytes) (s : State) : Result :=
  .next (spdmRequest (session.map Fin.val) msg (doGetCertificate (session.map Fin.val) msg) s)

/-- CHALLENGE: a signature of the identity key over the transcript (R124, R134, R706). -/
def doChallenge (msg : Bytes) (s : State) : SpdmAns := do
  spdmGuard 0x83 44 msg s.flue.spdm.algsDone
  let slot := byteAt msg 2
  if 1 < slot ∨ !(byteAt msg 3 == 0 || byteAt msg 3 == 1 || byteAt msg 3 == 0xFF) then .error .invalidRequest
  else
    identityGuard s slot
    if slot ≠ signSlot s then .error .invalidRequest
    else
      let (nonce, s) := s.free 32
      let rsp := [0x13, 0x03, byte slot, byte (2 ^ slot)] ++ certDigest s slot ++ nonce ++ measSummary s (byteAt msg 3) ++ [0, 0]
        ++ slice msg 36 8
      let x := s.flue.spdm
      let (sig, s) := spdmSign "responder-challenge_auth signing" (x.vca ++ x.msgB ++ msg ++ rsp) s
      .ok (s.modSpdm (fun x => { x with msgB := [] }), rsp ++ sig)

def execChallenge (msg : Bytes) (s : State) : Result := .next (spdmRequest none msg (doChallenge msg) s)

/-! ### Measurements -/

/-- The transcript of measurements: of the session, or of the connection. -/
def msgLOf (session : Option Nat) (s : State) : Bytes :=
  match session with
  | none => s.flue.spdm.msgL
  | some i => ((s.session? i).getD {}).msgL

def setMsgL (session : Option Nat) (m : Bytes) (s : State) : State :=
  match session with
  | none => s.modSpdm (fun x => { x with msgL := m })
  | some i => s.modSession i (fun x => { x with msgL := m })

/-- GET_MEASUREMENTS (R125): the number of indexes, all of them, or one; signed where asked. -/
def doGetMeasurements (session : Option Nat) (msg : Bytes) (s : State) : SpdmAns := do
  let sign := byteAt msg 2 % 2 = 1
  let op := byteAt msg 3
  spdmGuard 0xE0 (if sign then 45 else 12) msg s.flue.spdm.algsDone
  inSession session s
  let slot := byteAt msg 36 % 16
  let idx := measIndexes s
  if (op ≠ 0 ∧ op ≠ 0xFF ∧ op ∉ idx) ∨ (sign ∧ 1 < slot) then .error .invalidRequest
  else if sign ∧ !pairReady s slot then .error .notReady
  else if sign ∧ slot ≠ signSlot s then .error .invalidRequest
  else
    let picked := if op = 0 then [] else if op = 0xFF then idx else [op]
    let recd := picked.flatMap (measBlock s)
    let (nonce, s) := s.free 32
    let rsp := [0x13, 0x60, byte (if op = 0 then idx.length else 0), byte (if sign then slot else 0), byte picked.length]
      ++ toLe 3 recd.length ++ recd ++ nonce ++ [0, 0] ++ slice msg (if sign then 37 else 4) 8
    let l := msgLOf session s ++ msg ++ rsp
    if sign then
      let (sig, s) := spdmSign "responder-measurements signing" (s.flue.spdm.vca ++ l) s
      .ok (setMsgL session [] s, rsp ++ sig)
    else .ok (setMsgL session l s, rsp)

def execGetMeasurements (session : Option (Fin 8)) (msg : Bytes) (s : State) : Result :=
  .next (spdmRequest (session.map Fin.val) msg (doGetMeasurements (session.map Fin.val) msg) s)

/-! ### Sessions -/

def finishedKey (s : State) (secret : Bytes) : Bytes := spdmExpand s secret "finished" []

/-- KEY_EXCHANGE (R124): ECDHE on secp384r1 opens one of eight sessions. -/
def doKeyExchange (msg : Bytes) (s : State) : SpdmAns := do
  spdmGuard 0xE4 138 msg s.flue.spdm.algsDone
  let slot := byteAt msg 3
  let pub := pointOf p384 (slice msg 40 96)
  if 1 < slot then .error .invalidRequest
  else if !pairReady s slot then .error .notReady
  else if slot ≠ signSlot s ∨ !p384.on pub ∨ !(byteAt msg 2 == 0 || byteAt msg 2 == 1 || byteAt msg 2 == 0xFF) then
    .error .invalidRequest
  else
    match s.flue.spdm.sessions.lowestFree 0 8 with
    | none => .error .sessionLimit
    | some i =>
      let (rand, s) := s.free 32
      let (eph, s) := s.free 64
      let d := 1 + leNat eph % (p384.n - 1)
      let opaqueIn := slice msg 138 (fieldLe msg 136 2)
      let opaqueOut := (Config.spdmOpaque opaqueIn).take 1024
      let rsp := [0x13, 0x64, byte (Config.messageValue "HeartbeatPeriod"), 0] ++ toLe 2 i ++ [0, 0] ++ rand ++ p384Pub d
        ++ measSummary s (byteAt msg 2) ++ toLe 2 opaqueOut.length ++ opaqueOut
      let k := s.flue.spdm.vca ++ certDigest s slot ++ msg ++ rsp
      let (sig, s) := spdmSign "responder-key_exchange_rsp signing" k s
      let k := k ++ sig
      let secret := spdmMac s (zeros (spdmHashLen s)) ((p384Bytes (p384.mul d pub)).take 48)
      let rx := spdmExpand s secret "req hs data" (spdmHash s k)
      let tx := spdmExpand s secret "rsp hs data" (spdmHash s k)
      let mac := spdmMac s (finishedKey s tx) (spdmHash s k)
      .ok (s.modSession i (fun _ => { secret := secret, keysRx := rx, keysTx := tx, reqId := fieldLe msg 4 2, trans := k ++ mac }), rsp ++ sig ++ mac)

def execKeyExchange (msg : Bytes) (s : State) : Result := .next (spdmRequest none msg (doKeyExchange msg) s)

def endSession (i : Nat) (s : State) : State := s.modSpdm (fun y => { y with sessions := y.sessions.del i })

/-- FINISH (R124): the requester's MAC over the handshake, then the application secrets. A wrong MAC ends the session. -/
def doFinish (i : Nat) (msg : Bytes) (s : State) : State :=
  if !s.flueUp then s
  else
    let answer := fun (e : SpdmErr) (s : State) => respond (some i) (spdmError e 0xE5) s
    match s.session? i with
    | none => answer .invalidSession s
    | some x =>
      match spdmGuard 0xE5 (4 + spdmHashLen s) msg (x.phase == 0) with
      | .error e => answer e s
      | .ok () =>
        let k := x.trans ++ msg.take 4
        let mac := spdmMac s (finishedKey s x.keysRx) (spdmHash s k)
        if slice msg 4 (spdmHashLen s) ≠ mac then endSession i (answer .decryptError s)
        else
          let rsp : Bytes := [0x13, 0x65, 0, 0]
          let th := spdmHash s (k ++ mac ++ rsp)
          let master := spdmMac s (spdmExpand s x.secret "derived" []) (zeros (spdmHashLen s))
          (respond (some i) rsp s).modSession i (fun y =>
            { y with
              phase := 1, secret := master, trans := [], seqTx := 0
              keysRx := spdmExpand s master "req app data" th
              keysTx := spdmExpand s master "rsp app data" th })

def execFinish (session : Fin 8) (msg : Bytes) (s : State) : Result := .next (doFinish session.val msg s)

/-- A request that lives in a session's application phase. -/
def sessionRequest (i code : Nat) (msg : Bytes) (f : State → SpdmAns) (s : State) : State :=
  spdmRequest (some i) msg (fun s => do
    inSession (some i) s
    spdmGuard code 4 msg true
    f s) s

/-- KEY_UPDATE (R124): the requester's key, both keys, or the verification that ends an update. -/
def doKeyUpdate (i : Nat) (msg : Bytes) (s : State) : SpdmAns :=
  let op := byteAt msg 2
  let x := (s.session? i).getD {}
  let upd := fun (k : Bytes) => spdmExpand s k "traffic upd" []
  let rsp : Bytes := [0x13, 0x69, byte op, byte (byteAt msg 3)]
  let pend := !x.pendRx.isEmpty || !x.pendTx.isEmpty
  if op = 1 ∧ !pend then .ok (s.modSession i (fun x => { x with keysRx := upd x.keysRx, pendRx := x.keysRx }), rsp)
  else if op = 2 ∧ !pend then
    .ok (s.modSession i (fun x =>
      { x with keysRx := upd x.keysRx, pendRx := x.keysRx, keysTx := upd x.keysTx, pendTx := x.keysTx, seqTx := 0 }), rsp)
  else if op = 3 ∧ pend then .ok (s.modSession i (fun x => { x with pendRx := [], pendTx := [] }), rsp)
  else .error .invalidRequest

def execKeyUpdate (session : Fin 8) (msg : Bytes) (s : State) : Result :=
  .next (sessionRequest session.val 0xE9 msg (doKeyUpdate session.val msg) s)

def execHeartbeat (session : Fin 8) (msg : Bytes) (s : State) : Result :=
  .next (sessionRequest session.val 0xE8 msg (fun s => .ok (s, [0x13, 0x68, 0, 0])) s)

/-- END_SESSION: the session and its keys are gone once its acknowledgement is out. -/
def doEndSession (i : Nat) (msg : Bytes) (s : State) : State :=
  let t := sessionRequest i 0xEC msg (fun s => .ok (s, [0x13, 0x6C, 0, 0])) s
  if !s.flueUp then s
  else match inSession (some i) s, spdmGuard 0xEC 4 msg true with
    | .ok (), .ok () => endSession i t
    | _, _ => t

def execEndSession (session : Fin 8) (msg : Bytes) (s : State) : Result := .next (doEndSession session.val msg s)

end Sys2Proof.Machine
end

