-- ==== Sys2Proof/Machine/Tdisp.lean ====
section
/-! DEFINITION. IDE key management (R115, R116, R122) and TDISP (R118 to R123), both carried over a secured SPDM session. The
layouts and codes of their messages are those of PCI Express (PRESUMED). -/

namespace Sys2Proof.Machine

/-- A message of a secured session in its application phase; outside one the answer is the SPDM error. -/
def securedRequest (i : Nat) (f : State → State) (s : State) : State :=
  if !s.flueUp then s
  else match inSession (some i) s with
    | .error e => respond (some i) (spdmError e 0xFE) s
    | .ok () => f s

/-- A VENDOR_DEFINED_RESPONSE of the PCI-SIG: its protocol, 0 for IDE_KM and 1 for TDISP, and the protocol's own message. -/
def vendorSend (i protocol code : Nat) (body : Bytes) (s : State) : State :=
  sendIn i code ([0x13, 0x7E, 0, 0, 3, 0, 2, 1, 0] ++ toLe 2 (1 + body.length) ++ [byte protocol] ++ body) s

/-! ### IDE streams -/

/-- The VFs whose traffic travels on a selective stream. -/
def streamVf (x : IdeStream) : Option Nat := if 2 ≤ x.rid then some (x.rid - 2) else none

/-- A stream leaves secure state: its keys are gone, and the locked TDI it carries enters ERROR (R122). -/
def streamInsecure (n : Nat) (s : State) : State :=
  match s.flue.ide.find? n with
  | none => s
  | some x =>
    let s := s.modFlue (fun f => { f with ide := f.ide.put n { rid := x.rid } })
    if !x.secure ∨ n = 0 then s
    else match streamVf x with
      | some v => tdiError v s
      | none => s

/-- IDE_STREAM_INSECURE (R122). -/
def execIdeStreamInsecure (stream : Fin 65) (s : State) : Result :=
  .next (if s.flueUp then streamInsecure stream.val s else s)

/-- A selective stream in secure state carries the VF's traffic (R116, R119). -/
def onSecureStream (s : State) (v : Nat) : Bool :=
  s.flue.ide.any (fun p => decide (1 ≤ p.1) && p.2.secure && streamVf p.2 == some v)

/-- The function of a routing ID exists. -/
def ridExists (s : State) (rid : Nat) : Bool := decide (rid < 2) || s.vfExists (rid - 2)

/-- Bytes 3 and 5 of a key message: the stream, and key set, direction and sub-stream. -/
def keyIndex (b : Nat) : Nat := b % 2 * 6 + b / 2 % 2 * 3 + b / 16

/-- Why a key message is not taken: 2 a port that is not the part's one, 3 a stream, sub-stream or function that does not
exist. -/
def keyStatus (s : State) (rid : Nat) (m : Bytes) : Nat :=
  if byteAt m 6 ≠ 0 then 2
  else if 64 < byteAt m 3 ∨ 2 < byteAt m 5 / 16 ∨ !ridExists s rid then 3
  else 0

/-- KEY_PROG: one key of a stream; the first one binds the stream to its routing ID (R116). A key that goes leaves the set of going
keys when it is programmed again, and the stream stays in the state it had until the next K_SET_GO or K_SET_STOP judges it
(DESIGN CHOICE, log 24). -/
def keyProg (rid : Nat) (m : Bytes) (s : State) : State × Bytes :=
  let st := if m.length ≠ 47 then 1 else keyStatus s rid m
  let rsp : Bytes := [3, 0, 0, byte (byteAt m 3), byte st, byte (byteAt m 5), byte (byteAt m 6)]
  if st ≠ 0 then (s, rsp)
  else
    let x := s.flue.ide.getD (byteAt m 3) { rid := rid }
    let k := keyIndex (byteAt m 5)
    let x := { x with keys := x.keys.put k (m.drop 7), going := x.going.filter (· != k) }
    (s.modFlue (fun f => { f with ide := f.ide.put (byteAt m 3) x }), rsp)

/-- All six keys of a key set go. -/
def setGoes (going : List Nat) (set : Nat) : Bool := (List.range 6).all (fun i => going.contains (set * 6 + i))

/-- K_SET_GO and K_SET_STOP: a stream is secure while every sub-stream of a key set goes in both directions. -/
def keyGoStop (go : Bool) (m : Bytes) (s : State) : State :=
  let n := byteAt m 3
  let k := keyIndex (byteAt m 5)
  match s.flue.ide.find? n with
  | none => s
  | some x =>
    let going := if go then (if (x.keys.find? k).isSome ∧ !x.going.contains k then x.going ++ [k] else x.going)
      else x.going.filter (· != k)
    let sec := setGoes going 0 || setGoes going 1
    if x.secure ∧ !sec then streamInsecure n s
    else s.modFlue (fun f => { f with ide := f.ide.put n { x with going := going, secure := sec } })

/-- IDE_KM (R115): QUERY, KEY_PROG, K_SET_GO and K_SET_STOP; an unknown object has no answer. -/
def doIdeKm (i rid : Nat) (m : Bytes) (s : State) : State :=
  let op := byteAt m 0
  if op = 0 then
    vendorSend i 0 1 ([1, 0, byte (byteAt m 2)] ++ toLe 4 (Config.messageValue "IDE_KM QUERY_RESP")) s
  else if op = 2 then
    let (s, rsp) := keyProg rid m s
    vendorSend i 0 3 rsp s
  else if op = 4 ∨ op = 5 then
    let rsp : Bytes := [6, 0, 0, byte (byteAt m 3), 0, byte (byteAt m 5), byte (byteAt m 6)]
    vendorSend i 0 6 rsp (if keyStatus s rid m = 0 then keyGoStop (op == 4) m s else s)
  else s

def execIdeKm (session : Fin 8) (rid : Fin 514) (msg : Bytes) (s : State) : Result :=
  .next (securedRequest session.val (doIdeKm session.val rid.val msg) s)

/-! ### TDISP -/

/-- A TDISP response: version 1.0, its code, the interface, its payload. -/
def tdispSend (i v code : Nat) (body : Bytes) (s : State) : State :=
  vendorSend i 1 code ([0x10, byte code, 0, 0] ++ toLe 4 (v + 2) ++ zeros 8 ++ body) s

/-- The TDISP error codes. -/
inductive TdispErr where
  | badRequest | badState | badInterface | badNonce | badDevice
  deriving DecidableEq, Repr

def TdispErr.code : TdispErr → Nat
  | .badRequest => 0x001
  | .badState => 0x004
  | .badInterface => 0x101
  | .badNonce => 0x102
  | .badDevice => 0x104

def tdispError (i v : Nat) (e : TdispErr) (s : State) : State := tdispSend i v 0x7F (toLe 4 e.code ++ zeros 4) s

/-- A TDISP request for a VF that exists (R118: each VF is one TDI). -/
def tdispRequest (i v : Nat) (f : State → State) (s : State) : State :=
  securedRequest i (fun s => if !s.vfExists v then tdispError i v .badInterface s else f s) s

/-- TDI_LOCKED shows CONFIG_LOCKED and RUN (R121). -/
def setTdi (v : Nat) (t : TdiState) (nonce : Bytes) (s : State) : State :=
  (s.modVf v (fun x => { x with tdi := t, tdiNonce := nonce })).setFt v Reg.FT_TDI_LOCKED (b2n (t == .locked || t == .run))

def execGetTdispVersion (session : Fin 8) (v : Fin 512) (s : State) : Result :=
  .next (tdispRequest session.val v.val (tdispSend session.val v.val 0x01 [1, 0x10]) s)

/-- The capabilities: the seven requests of R118, and values the spec does not give. -/
def tdispCaps : Bytes :=
  toLe 4 (Config.messageValue "DSM_CAPS") ++ [0xFE] ++ zeros 15 ++ toLe 2 (Config.messageValue "LOCK_INTERFACE_FLAGS") ++ zeros 3
    ++ [byte (Config.messageValue "DEV_ADDR_WIDTH"), byte (Config.messageValue "NUM_REQ_THIS"), byte (Config.messageValue "NUM_REQ_ALL")]

def execGetTdispCapabilities (session : Fin 8) (v : Fin 512) (s : State) : Result :=
  .next (tdispRequest session.val v.val (tdispSend session.val v.val 0x02 tdispCaps) s)

/-- LOCK_INTERFACE (R119, R121), its payload of 20 bytes the flags, the default stream, the offset of reported addresses and
the peer binding: refused unless the VF is bound and on a selective stream in secure state. While an FLR of the VF is in progress
the TDI is in CONFIG_UNLOCKED and stays there (R123). -/
def lockInterface (i v : Nat) (m : Bytes) (s : State) : State :=
  if m.length ≠ 20 then tdispError i v .badRequest s
  else if (s.vf v).tdi ≠ .unlocked ∨ (s.bound v ∧ s.damper v = dampResetting) then tdispError i v .badState s
  else if !s.bound v ∨ !onSecureStream s v then tdispError i v .badDevice s
  else
    let (nonce, s) := s.free 32
    tdispSend i v 0x03 nonce ((setTdi v .locked nonce s).modVf v (fun x => { x with tdiOffset := fieldLe m 4 8 }))

def execLockInterface (session : Fin 8) (v : Fin 512) (msg : Bytes) (s : State) : Result :=
  .next (tdispRequest session.val v.val (lockInterface session.val v.val msg) s)

/-- The device interface report (R120). Its device-specific part: hearth, owner identity, SHAIM2_COMPAT, current flattening,
power profile, and the measurement indexes of the two images, in the order in which R120 names them, the owner identity in two
bytes, lowest first, each other item in one byte (DESIGN CHOICE: neither R120 nor PCI Express gives order or widths; log 138). -/
def interfaceReport (s : State) (v : Nat) : Bytes :=
  let h := s.ft v Reg.FT_HEARTH
  let info := [byte h] ++ toLe 2 (s.ft v Reg.FT_OWNER_ID) ++ [byte (b2n (s.H h).compat),
    byte (s.rd (pgH .power h) Reg.PWR_CTRL_FLATTEN), byte (s.H h).profile, byte (0x10 + h), byte (0x20 + h)]
  toLe 2 (Config.messageValue "INTERFACE_INFO") ++ zeros 2 ++ toLe 2 (Config.messageValue "MSI_X_MESSAGE_CONTROL") ++ zeros 6
    ++ toLe 4 1 ++ toLe 8 ((Config.vfBar v + (s.vf v).tdiOffset) % 2 ^ 64 / 4096) ++ toLe 4 16 ++ toLe 4 (Config.messageValue "MMIO_RANGE_ATTRIBUTES")
    ++ toLe 4 info.length ++ info

/-- GET_DEVICE_INTERFACE_REPORT: a portion of the report of a locked TDI. -/
def sendReport (i v off len : Nat) (s : State) : State :=
  let r := interfaceReport s v
  if (s.vf v).tdi ≠ .locked ∧ (s.vf v).tdi ≠ .run then tdispError i v .badState s
  else if r.length ≤ off then tdispError i v .badRequest s
  else
    let n := min len (r.length - off)
    tdispSend i v 0x04 (toLe 2 n ++ toLe 2 (r.length - off - n) ++ slice r off n) s

def execGetDeviceInterfaceReport (session : Fin 8) (v : Fin 512) (off len : BitVec 16) (s : State) : Result :=
  .next (tdispRequest session.val v.val (sendReport session.val v.val off.toNat len.toNat) s)

def tdiCode : TdiState → Byte
  | .unlocked => 0
  | .locked => 1
  | .run => 2
  | .error => 3

def execGetDeviceInterfaceState (session : Fin 8) (v : Fin 512) (s : State) : Result :=
  .next (tdispRequest session.val v.val (fun s => tdispSend session.val v.val 0x05 [tdiCode (s.vf v.val).tdi] s) s)

/-- START_INTERFACE (R119): from CONFIG_LOCKED alone, with the nonce of the lock. -/
def startInterface (i v : Nat) (nonce : Bytes) (s : State) : State :=
  if (s.vf v).tdi ≠ .locked then tdispError i v .badState s
  else if nonce ≠ (s.vf v).tdiNonce then tdispError i v .badNonce s
  else tdispSend i v 0x06 [] (setTdi v .run [] s)

def execStartInterface (session : Fin 8) (v : Fin 512) (nonce : Bytes) (s : State) : Result :=
  .next (tdispRequest session.val v.val (startInterface session.val v.val nonce) s)

/-- STOP_INTERFACE: back to CONFIG_UNLOCKED. -/
def execStopInterface (session : Fin 8) (v : Fin 512) (s : State) : Result :=
  .next (tdispRequest session.val v.val (fun s => tdispSend session.val v.val 0x07 [] (setTdi v.val .unlocked [] s)) s)

end Sys2Proof.Machine
end

