-- ==== Sys2Proof/Machine/Dispatch.lean ====
section
/-! DEFINITION. The effect of each command: one arm per constructor, one direct call of its meaning. -/

namespace Sys2Proof.Machine

def exec (i : Instr) (s : State) : Host.Outcome State Fault Refusal :=
  match i with
  | .sqTailDoorbell fn off acc => Sys2Proof.Machine.execSqTailDoorbell fn off acc s
  | .cqHeadDoorbell fn off acc => Sys2Proof.Machine.execCqHeadDoorbell fn off acc s
  | .unboundVfAccess v => Sys2Proof.Machine.execUnboundVfAccess v s
  | .qpEnable t => Sys2Proof.Machine.execQpEnable t s
  | .qpDisable t => Sys2Proof.Machine.execQpDisable t s
  | .descriptorFetch v q issued rd => Sys2Proof.Machine.execDescriptorFetch v q issued rd s
  | .keywaitUnwrapDone h j ref blob => Sys2Proof.Machine.execKeywaitUnwrapDone h j ref blob s
  | .jobDispatch h elapsedUs => Sys2Proof.Machine.execJobDispatch h elapsedUs s
  | .engineJobEnd h u invariantHolds => Sys2Proof.Machine.execEngineJobEnd h u invariantHolds s
  | .completionWritten h j => Sys2Proof.Machine.execCompletionWritten h j s
  | .qpCoalTimeout fn q => Sys2Proof.Machine.execQpCoalTimeout fn q s
  | .stkClassBlocked h c => Sys2Proof.Machine.execStkClassBlocked h c s
  | .entropyWaitTimeout h w => Sys2Proof.Machine.execEntropyWaitTimeout h w s
  | .yieldPointSaveDone h n written => Sys2Proof.Machine.execYieldPointSaveDone h n written s
  | .jobResumeRestoreDone h n rd => Sys2Proof.Machine.execJobResumeRestoreDone h n rd s
  | .hobBatchRelease h => Sys2Proof.Machine.execHobBatchRelease h s
  | .turnoverEnd h b => Sys2Proof.Machine.execTurnoverEnd h b s
  | .lockScrubDone h u => Sys2Proof.Machine.execLockScrubDone h u s
  | .operandClearDone h n => Sys2Proof.Machine.execOperandClearDone h n s
  | .pageLockWrite h u who data => Sys2Proof.Machine.execPageLockWrite h u who data s
  | .ceStart h n who => Sys2Proof.Machine.execCeStart h n who s
  | .heStart h n who => Sys2Proof.Machine.execHeStart h n who s
  | .bnStart h n who => Sys2Proof.Machine.execBnStart h n who s
  | .bnClear h n who => Sys2Proof.Machine.execBnClear h n who s
  | .bnWindowAccess h n who hi write => Sys2Proof.Machine.execBnWindowAccess h n who hi write s
  | .katReq h u who => Sys2Proof.Machine.execKatReq h u who s
  | .katPeriodExpiry h u => Sys2Proof.Machine.execKatPeriodExpiry h u s
  | .katStart h u => Sys2Proof.Machine.execKatStart h u s
  | .katDone h u pass => Sys2Proof.Machine.execKatDone h u pass s
  | .mgReseedDue h u => Sys2Proof.Machine.execMgReseedDue h u s
  | .mgPrefetch h u => Sys2Proof.Machine.execMgPrefetch h u s
  | .mgSeedArrival h u => Sys2Proof.Machine.execMgSeedArrival h u s
  | .stkModeWrite h who data => Sys2Proof.Machine.execStkModeWrite h who data s
  | .hobModeWrite h who data => Sys2Proof.Machine.execHobModeWrite h who data s
  | .pinfailClr h who => Sys2Proof.Machine.execPinfailClr h who s
  | .dtValidWrite h n who data => Sys2Proof.Machine.execDtValidWrite h n who data s
  | .keyUnwrap h j => Sys2Proof.Machine.execKeyUnwrap h j s
  | .keyWrap h j => Sys2Proof.Machine.execKeyWrap h j s
  | .keyGenerate h j => Sys2Proof.Machine.execKeyGenerate h j s
  | .keyEvict h j => Sys2Proof.Machine.execKeyEvict h j s
  | .keyInfo h j => Sys2Proof.Machine.execKeyInfo h j s
  | .keyDerive h j inp => Sys2Proof.Machine.execKeyDerive h j inp s
  | .keyExportKw h j => Sys2Proof.Machine.execKeyExportKw h j s
  | .keyImportKw h j inp => Sys2Proof.Machine.execKeyImportKw h j inp s
  | .transportCert h j => Sys2Proof.Machine.execTransportCert h j s
  | .keyExportTransport h j inp => Sys2Proof.Machine.execKeyExportTransport h j inp s
  | .keyImportTransport h j inp => Sys2Proof.Machine.execKeyImportTransport h j inp s
  | .keyblockImport h j inp => Sys2Proof.Machine.execKeyblockImport h j inp s
  | .keyblockExport h j inp => Sys2Proof.Machine.execKeyblockExport h j inp s
  | .encrypt h j inp => Sys2Proof.Machine.execEncrypt h j inp s
  | .decrypt h j inp => Sys2Proof.Machine.execDecrypt h j inp s
  | .hash h j inp => Sys2Proof.Machine.execHash h j inp s
  | .xof h j inp => Sys2Proof.Machine.execXof h j inp s
  | .macGenerate h j inp => Sys2Proof.Machine.execMacGenerate h j inp s
  | .macVerify h j inp => Sys2Proof.Machine.execMacVerify h j inp s
  | .pkSign h j inp => Sys2Proof.Machine.execPkSign h j inp s
  | .pkVerify h j inp => Sys2Proof.Machine.execPkVerify h j inp s
  | .pkPublic h j => Sys2Proof.Machine.execPkPublic h j s
  | .keyAgree h j inp => Sys2Proof.Machine.execKeyAgree h j inp s
  | .kemEncaps h j inp => Sys2Proof.Machine.execKemEncaps h j inp s
  | .kemDecaps h j inp => Sys2Proof.Machine.execKemDecaps h j inp s
  | .rsaOaepImport h j inp => Sys2Proof.Machine.execRsaOaepImport h j inp s
  | .clearOperands h j => Sys2Proof.Machine.execClearOperands h j s
  | .pinTranslate h j => Sys2Proof.Machine.execPinTranslate h j s
  | .pinVerify h j => Sys2Proof.Machine.execPinVerify h j s
  | .pinValueCalc h j => Sys2Proof.Machine.execPinValueCalc h j s
  | .cardValueGenerate h j => Sys2Proof.Machine.execCardValueGenerate h j s
  | .cardValueVerify h j => Sys2Proof.Machine.execCardValueVerify h j s
  | .payMacGenerate h j inp => Sys2Proof.Machine.execPayMacGenerate h j inp s
  | .payMacVerify h j inp => Sys2Proof.Machine.execPayMacVerify h j inp s
  | .emvCryptogram h j inp => Sys2Proof.Machine.execEmvCryptogram h j inp s
  | .randomGenerate h j => Sys2Proof.Machine.execRandomGenerate h j s
  | .entropyStatus h j => Sys2Proof.Machine.execEntropyStatus h j s
  | .groupOpen src => Sys2Proof.Machine.execGroupOpen src s
  | .groupCommit src => Sys2Proof.Machine.execGroupCommit src s
  | .groupAbort src => Sys2Proof.Machine.execGroupAbort src s
  | .groupQuery src => Sys2Proof.Machine.execGroupQuery src s
  | .groupEvent src => Sys2Proof.Machine.execGroupEvent src s
  | .groupCommitApply h g => Sys2Proof.Machine.execGroupCommitApply h g s
  | .groupRollback h g => Sys2Proof.Machine.execGroupRollback h g s
  | .groupIdleTimeout h g => Sys2Proof.Machine.execGroupIdleTimeout h g s
  | .gangVote h g => Sys2Proof.Machine.execGangVote h g s
  | .gangTimeout stack tag => Sys2Proof.Machine.execGangTimeout stack tag s
  | .vaultStepDone record => Sys2Proof.Machine.execVaultStepDone record s
  | .gangCommitMsg h g => Sys2Proof.Machine.execGangCommitMsg h g s
  | .gangAbortMsg h g => Sys2Proof.Machine.execGangAbortMsg h g s
  | .bindVf q rd => Sys2Proof.Machine.execBindVf q rd s
  | .unbindVf q rd => Sys2Proof.Machine.execUnbindVf q rd s
  | .moveVf q rd => Sys2Proof.Machine.execMoveVf q rd s
  | .resetVf q rd => Sys2Proof.Machine.execResetVf q rd s
  | .setQpGrant q rd => Sys2Proof.Machine.execSetQpGrant q rd s
  | .setDraught q rd => Sys2Proof.Machine.execSetDraught q rd s
  | .setEngineShare q rd => Sys2Proof.Machine.execSetEngineShare q rd s
  | .setDamperOpen q rd => Sys2Proof.Machine.execSetDamperOpen q rd s
  | .setDamperThrottle q rd => Sys2Proof.Machine.execSetDamperThrottle q rd s
  | .setDamperClose q rd => Sys2Proof.Machine.execSetDamperClose q rd s
  | .setDamperCloseWait q rd => Sys2Proof.Machine.execSetDamperCloseWait q rd s
  | .setCompat q rd => Sys2Proof.Machine.execSetCompat q rd s
  | .setInflight q rd => Sys2Proof.Machine.execSetInflight q rd s
  | .stackDefine q rd => Sys2Proof.Machine.execStackDefine q rd s
  | .slotUpdate q rd => Sys2Proof.Machine.execSlotUpdate q rd s
  | .slotTableLoad q rd => Sys2Proof.Machine.execSlotTableLoad q rd s
  | .ownershipBegin q rd => Sys2Proof.Machine.execOwnershipBegin q rd s
  | .ownershipAuthorise q rd => Sys2Proof.Machine.execOwnershipAuthorise q rd s
  | .ownershipComplete q rd => Sys2Proof.Machine.execOwnershipComplete q rd s
  | .ceremonyExpiry => Sys2Proof.Machine.execCeremonyExpiry s
  | .tamperLogExport q rd => Sys2Proof.Machine.execTamperLogExport q rd s
  | .dumpOpen q rd => Sys2Proof.Machine.execDumpOpen q rd s
  | .dumpClear q rd => Sys2Proof.Machine.execDumpClear q rd s
  | .imageLoad q rd => Sys2Proof.Machine.execImageLoad q rd s
  | .hearthStart q rd => Sys2Proof.Machine.execHearthStart q rd s
  | .hearthStarted h => Sys2Proof.Machine.execHearthStarted h s
  | .hearthReset q rd => Sys2Proof.Machine.execHearthReset q rd s
  | .lifecycleAdvance q rd partialBits => Sys2Proof.Machine.execLifecycleAdvance q rd partialBits s
  | .fuseProgram q rd => Sys2Proof.Machine.execFuseProgram q rd s
  | .rollbackAdvance q rd => Sys2Proof.Machine.execRollbackAdvance q rd s
  | .vfFlr v => Sys2Proof.Machine.execVfFlr v s
  | .flrAbortDone v => Sys2Proof.Machine.execFlrAbortDone v s
  | .pf0Flr => Sys2Proof.Machine.execPf0Flr s
  | .vfEnableClear => Sys2Proof.Machine.execVfEnableClear s
  | .hotReset => Sys2Proof.Machine.execHotReset s
  | .linkDown => Sys2Proof.Machine.execLinkDown s
  | .linkTrained rate width flit => Sys2Proof.Machine.execLinkTrained rate width flit s
  | .perstNAssert => Sys2Proof.Machine.execPerstNAssert s
  | .pf0PowerState d3hot => Sys2Proof.Machine.execPf0PowerState d3hot s
  | .ideKm session rid msg => Sys2Proof.Machine.execIdeKm session rid msg s
  | .ideStreamInsecure stream => Sys2Proof.Machine.execIdeStreamInsecure stream s
  | .getTdispVersion session v => Sys2Proof.Machine.execGetTdispVersion session v s
  | .getTdispCapabilities session v => Sys2Proof.Machine.execGetTdispCapabilities session v s
  | .lockInterface session v msg => Sys2Proof.Machine.execLockInterface session v msg s
  | .getDeviceInterfaceReport session v off len => Sys2Proof.Machine.execGetDeviceInterfaceReport session v off len s
  | .getDeviceInterfaceState session v => Sys2Proof.Machine.execGetDeviceInterfaceState session v s
  | .startInterface session v nonce => Sys2Proof.Machine.execStartInterface session v nonce s
  | .stopInterface session v => Sys2Proof.Machine.execStopInterface session v s
  | .getVersion msg => Sys2Proof.Machine.execGetVersion msg s
  | .getCapabilities msg => Sys2Proof.Machine.execGetCapabilities msg s
  | .negotiateAlgorithms msg => Sys2Proof.Machine.execNegotiateAlgorithms msg s
  | .getDigests session msg => Sys2Proof.Machine.execGetDigests session msg s
  | .getCertificate session msg => Sys2Proof.Machine.execGetCertificate session msg s
  | .challenge msg => Sys2Proof.Machine.execChallenge msg s
  | .getMeasurements session msg => Sys2Proof.Machine.execGetMeasurements session msg s
  | .keyExchange msg => Sys2Proof.Machine.execKeyExchange msg s
  | .finish session msg => Sys2Proof.Machine.execFinish session msg s
  | .keyUpdate session msg => Sys2Proof.Machine.execKeyUpdate session msg s
  | .heartbeat session msg => Sys2Proof.Machine.execHeartbeat session msg s
  | .endSession session msg => Sys2Proof.Machine.execEndSession session msg s
  | .identityKeyReady rsa => Sys2Proof.Machine.execIdentityKeyReady rsa s
  | .emberBanking => Sys2Proof.Machine.execEmberBanking s
  | .bankPeriodWrite who data => Sys2Proof.Machine.execBankPeriodWrite who data s
  | .shadowReloadDone h => Sys2Proof.Machine.execShadowReloadDone h s
  | .kcBankPass h => Sys2Proof.Machine.execKcBankPass h s
  | .kcBankRetry h => Sys2Proof.Machine.execKcBankRetry h s
  | .kcFlush h who => Sys2Proof.Machine.execKcFlush h who s
  | .rawSample h bits rings => Sys2Proof.Machine.execRawSample h bits rings s
  | .conditionerBlock h => Sys2Proof.Machine.execConditionerBlock h s
  | .startupTestDone h => Sys2Proof.Machine.execStartupTestDone h s
  | .drbgInstantiate h => Sys2Proof.Machine.execDrbgInstantiate h s
  | .drbgGenerate h bytes => Sys2Proof.Machine.execDrbgGenerate h bytes s
  | .drbgReseed h => Sys2Proof.Machine.execDrbgReseed h s
  | .entRestart h who => Sys2Proof.Machine.execEntRestart h who s
  | .entRetest h who => Sys2Proof.Machine.execEntRetest h who s
  | .entTestDone h => Sys2Proof.Machine.execEntTestDone h s
  | .entPolicyWrite h who data => Sys2Proof.Machine.execEntPolicyWrite h who data s
  | .entDataRead h who outer => Sys2Proof.Machine.execEntDataRead h who outer s
  | .entRawRead h who => Sys2Proof.Machine.execEntRawRead h who s
  | .memoryAccess h master kind mmode addr len data line => Sys2Proof.Machine.execMemoryAccess h master kind mmode addr len data line s
  | .memInit h who => Sys2Proof.Machine.execMemInit h who s
  | .memTrainingDone h ok => Sys2Proof.Machine.execMemTrainingDone h ok s
  | .patrolScrub h off line => Sys2Proof.Machine.execPatrolScrub h off line s
  | .rngInit h r who => Sys2Proof.Machine.execRngInit h r who s
  | .memRangeReady h r => Sys2Proof.Machine.execMemRangeReady h r s
  | .reencryptionDone h => Sys2Proof.Machine.execReencryptionDone h s
  | .ownGo h who => Sys2Proof.Machine.execOwnGo h who s
  | .ownershipSync h who => Sys2Proof.Machine.execOwnershipSync h who s
  | .ownershipSyncDone h => Sys2Proof.Machine.execOwnershipSyncDone h s
  | .mpuSync h m who => Sys2Proof.Machine.execMpuSync h m who s
  | .mpuSyncDone h m => Sys2Proof.Machine.execMpuSyncDone h m s
  | .gateCall h c service => Sys2Proof.Machine.execGateCall h c service s
  | .gateReturn h c => Sys2Proof.Machine.execGateReturn h c s
  | .gateResume h c => Sys2Proof.Machine.execGateResume h c s
  | .gateDispatch h c => Sys2Proof.Machine.execGateDispatch h c s
  | .gateInterrupt h c => Sys2Proof.Machine.execGateInterrupt h c s
  | .gateFault h c data => Sys2Proof.Machine.execGateFault h c data s
  | .gateTransitDone h c => Sys2Proof.Machine.execGateTransitDone h c s
  | .coreRelease h c who => Sys2Proof.Machine.execCoreRelease h c who s
  | .firmwareFatal h => Sys2Proof.Machine.execFirmwareFatal h s
  | .coreLockup h c => Sys2Proof.Machine.execCoreLockup h c s
  | .dumpWriteDone h => Sys2Proof.Machine.execDumpWriteDone h s
  | .dbgNewChallenge who => Sys2Proof.Machine.execDbgNewChallenge who s
  | .dbgSubmit who => Sys2Proof.Machine.execDbgSubmit who s
  | .dbgTokenCheckDone => Sys2Proof.Machine.execDbgTokenCheckDone s
  | .dbgRevoke who data => Sys2Proof.Machine.execDbgRevoke who data s
  | .dbgExpiry h => Sys2Proof.Machine.execDbgExpiry h s
  | .pwrTargetWrite h who data => Sys2Proof.Machine.execPwrTargetWrite h who data s
  | .h1Entry h => Sys2Proof.Machine.execH1Entry h s
  | .h1Wake h => Sys2Proof.Machine.execH1Wake h s
  | .h2Entry h => Sys2Proof.Machine.execH2Entry h s
  | .h2ExitDone h => Sys2Proof.Machine.execH2ExitDone h s
  | .h3Entry h => Sys2Proof.Machine.execH3Entry h s
  | .profileWrite h who data => Sys2Proof.Machine.execProfileWrite h who data s
  | .pwrProfileDone h => Sys2Proof.Machine.execPwrProfileDone h s
  | .flattenWrite h who data => Sys2Proof.Machine.execFlattenWrite h who data s
  | .pwrBlkReqWrite h who hi data => Sys2Proof.Machine.execPwrBlkReqWrite h who hi data s
  | .blockPowerDone h b => Sys2Proof.Machine.execBlockPowerDone h b s
  | .pwrHoldWrite h who data => Sys2Proof.Machine.execPwrHoldWrite h who data s
  | .tamperTrip trips => Sys2Proof.Machine.execTamperTrip trips s
  | .quenchDone => Sys2Proof.Machine.execQuenchDone s
  | .tmpTrigger who => Sys2Proof.Machine.execTmpTrigger who s
  | .tmpFwTrigger h who => Sys2Proof.Machine.execTmpFwTrigger h who s
  | .tmpRelease who => Sys2Proof.Machine.execTmpRelease who s
  | .tmpLock who => Sys2Proof.Machine.execTmpLock who s
  | .tmpRespWrite who hi data => Sys2Proof.Machine.execTmpRespWrite who hi data s
  | .tmpStickyClear who data => Sys2Proof.Machine.execTmpStickyClear who data s
  | .batterySample trips => Sys2Proof.Machine.execBatterySample trips s
  | .supplySwitch target => Sys2Proof.Machine.execSupplySwitch target s
  | .mainPowerLoss => Sys2Proof.Machine.execMainPowerLoss s
  | .porNAssert => Sys2Proof.Machine.execPorNAssert s
  | .porNDeassert => Sys2Proof.Machine.execPorNDeassert s
  | .opTimeTick => Sys2Proof.Machine.execOpTimeTick s
  | .bootGo who image => Sys2Proof.Machine.execBootGo who image s
  | .flueImageCheckDone => Sys2Proof.Machine.execFlueImageCheckDone s
  | .bootRestart w => Sys2Proof.Machine.execBootRestart w s
  | .flueFault => Sys2Proof.Machine.execFlueFault s
  | .snapGo who data => Sys2Proof.Machine.execSnapGo who data s
  | .snapPeriodExpiry => Sys2Proof.Machine.execSnapPeriodExpiry s
  | .snapshotLatch => Sys2Proof.Machine.execSnapshotLatch s
  | .evtInject p who data => Sys2Proof.Machine.execEvtInject p who data s
  | .evrFreeze unit who => Sys2Proof.Machine.execEvrFreeze unit who s
  | .evrUnfreeze unit who => Sys2Proof.Machine.execEvrUnfreeze unit who s
  | .evrAck unit who seq => Sys2Proof.Machine.execEvrAck unit who seq s
  | .softReset h u who => Sys2Proof.Machine.execSoftReset h u who s
  | .pageLockSet p who => Sys2Proof.Machine.execPageLockSet p who s
  | .registerWrite p who off size enables data => Sys2Proof.Machine.execRegisterWrite p who off size enables data s
  | .mainPowerReturn => Sys2Proof.Machine.execMainPowerReturn s
  | .perstNDeassert => Sys2Proof.Machine.execPerstNDeassert s
  | .aspmL1Entry sub => Sys2Proof.Machine.execAspmL1Entry sub s
  | .l1Exit => Sys2Proof.Machine.execL1Exit s
  | .detectorCleared src => Sys2Proof.Machine.execDetectorCleared src s
  | .vbatRestored => Sys2Proof.Machine.execVbatRestored s
  | .vaultHoldExpiry => Sys2Proof.Machine.execVaultHoldExpiry s
  | .debugHalt h c => Sys2Proof.Machine.execDebugHalt h c s
  | .debugResume h c => Sys2Proof.Machine.execDebugResume h c s

end Sys2Proof.Machine
end

