-- ==== Sys2Proof/Safety.lean ====
section
/-! DEFINITION. What a safe run is, and the terms the statements about commands are written in. -/

namespace Sys2Proof

/-- A run of `k` steps from a state that answers a next state throughout. -/
def Safe (k : Nat) (s : Machine.State) : Prop := ∃ t, core.run k s = .next t

namespace Machine

/-! ### Jobs -/

/-- Job `j` of hearth `h` is at the run of the function of opcode `op`: the hearth works, the job is RUNNING and its function has
not run, and every unit it holds has finished its scrub, clear, save or restore and, for a masked function, has a seeded
generator. -/
structure AtRun (s : State) (h j op : Nat) (jb : Job) : Prop where
  here    : s.job? h j = some jb
  works   : s.works h = true
  running : jb.state = .running
  notRun  : jb.ran = false
  opcode  : dOp jb.desc = op
  ready   : ∀ u ∈ jb.units, (s.eng h u).scrubbing = false ∧ (s.eng h u).clearing = false ∧ (s.eng h u).saving = false
    ∧ (s.eng h u).restoring = false ∧ (s.eng h u).paused = false ∧ (op = 0x0301 ∨ op = 0x0302 ∨ mgReady (s.eng h u) = true)

/-- The input bytes of a job: its inline operands, nothing where IN_LEN is 0, else IN_LEN bytes that the read returned, for
which PF0 must not be in D3hot. -/
def InputIs (s : State) (jb : Job) (inp : Dma) (b : Bytes) : Prop :=
  (dPtr jb.desc = false ∧ b = (dOperands jb.desc).take (dInline jb.desc)) ∨
  (dPtr jb.desc = true ∧ dInLen jb.desc = 0 ∧ b = []) ∨
  (dPtr jb.desc = true ∧ dInLen jb.desc ≠ 0 ∧ s.flue.d3hot = false ∧ ∃ r, inp = .ok r ∧ b = slice r 0 (dInLen jb.desc))

/-- The part after the function of job `j` of hearth `h` has run on the input `b` and given `r`: the input and the keys stand in their
engine in shares, the outcome stands in the job's entry, and a job that holds no unit goes on to its completion. -/
def afterRun (h j : Nat) (b : Bytes) (r : Ran) (s : State) : State := ran h j (fun x => x.took r) (maskIn h j b s)

/-! ### Administration queues and control opcodes -/

/-- A descriptor of administration queue `q` that the flue executes now: its opcode is `op`, no descriptor check refuses it, its
input was read, and `r` is what it gives the opcode. -/
structure AdminAt (s : State) (op : Nat) (q : Fin 4) (rd : AdminRead) (r : AdminReq) : Prop where
  size   : rd.desc.length = 128
  ready  : adminReady s q = true
  opcode : dOp rd.desc = op
  read   : rd.failed = false
  valid  : adminCheck rd.desc (listsFit rd.desc (readLists rd.desc rd.sglIn rd.sglOut)) = none
  serves : lcState s ≠ lcDecommissioned ∨ op = 0x0830
  queue  : r.q = q.val
  desc   : r.desc = rd.desc
  dst    : r.dst = (readLists rd.desc rd.sglIn rd.sglOut).out
  key    : r.key = s.flue.nextTag
  inp    : ∃ b, (if dPtr rd.desc ∧ dInLen rd.desc ≠ 0 then rd.inp else .ok []) = .ok b ∧ r.inp = slice b 0 (dInLen rd.desc)

/-- The state in which an administration opcode acts: its descriptor is consumed. -/
def adminFrom (r : AdminReq) (s : State) : State := adminTake r.q r.desc s

/-- The completion of an administration opcode that is complete at once. -/
def adminDone (r : AdminReq) (status : Nat) (result out : Bytes) (t : State) : State :=
  adminPost r.q r.desc r.dst status result out t

/-- An administration opcode that completes later. -/
def adminHold (r : AdminReq) (a : AdminHeld) (t : State) : State :=
  t.modFlue (fun x => { x with held := x.held.put r.key a, nextTag := r.key + 1 })

/-- A group control opcode that acts now: hearth, function, descriptor, and the name under which it waits. -/
def CtlAt (s : State) (op : Nat) (h : Nat) (vf : Option Nat) (d : Bytes) (ref : CtlRef) : GroupSrc → Prop
  | .job h' j => ∃ jb, h = h'.val ∧ vf = some jb.vf ∧ d = jb.desc ∧ ref = .job j.val ∧ s.job? h j = some jb ∧ s.works h = true
      ∧ jb.state = .ready ∧ dOp jb.desc = op ∧ fenceHolds s h j jb = false
  | .admin q rd => ∃ r, AdminAt s op q rd r ∧ vf = none ∧ d = rd.desc ∧ ref = .admin q.val r.key
      ∧ adminGroupHearth s rd.desc = some h ∧ s.enabled h = true ∧ s.works h = true

def ctlFrom (s : State) : GroupSrc → State
  | .job _ _ => s
  | .admin q rd => adminTake q rd.desc s

/-- The state after a control opcode that is complete at once. -/
def ctlDone (status : Nat) (result : Bytes) (t : State) : GroupSrc → State
  | .job h j => finishJob h j status
      (t.modJob h j (fun x => { x with ran := true, result := result, hasResult := !result.isEmpty }))
  | .admin q rd => adminPost q rd.desc (readLists rd.desc rd.sglIn rd.sglOut).out status result [] t

/-- The state after a control opcode that waits for its group. -/
def ctlWait (h : Nat) (t : State) : GroupSrc → State
  | .job h' j => t.modJob h' j (fun x => { x with state := .running, ran := true })
  | .admin q rd => t.modFlue (fun x =>
      { x with
        held := x.held.put x.nextTag
          { queue := q, hostTag := dTag rd.desc, flags := dFlags rd.desc, outAddr := (readLists rd.desc rd.sglIn rd.sglOut).out,
            group := dGroup rd.desc, hearth := h }
        nextTag := x.nextTag + 1 })

/-! ### Invariants -/

/-- The canonical form of the state's tables: register keys rise, and the memories of every hearth list each address once, in rising
order, with no byte equal to what an unlisted address reads as. -/
structure State.Canonical (s : State) : Prop where
  regs   : s.regs.sorted = true
  ddr    : ∀ h, Memory.wf (s.H h).mem.ddr = true
  tcmIn  : ∀ h, Memory.wf (s.H h).tcmIn = true
  tcmOut : ∀ h, Memory.wf (s.H h).tcmOut = true

/-- No lifecycle word has more fuses blown than it has. -/
def Fuses.Fits (f : Fuses) : Prop := ∀ w, f.lcWords.getD w 0 ≤ 32

/-- The fuses `b` are the fuses `a` with more of them blown: no blown fuse heals, and a destroyed identity seed does not return. -/
structure Fuses.Grow (a b : Fuses) : Prop where
  words  : ∀ w, a.lcWords.getD w 0 ≤ b.lcWords.getD w 0
  tamper : ∀ i, a.tamperDis.testBit i = true → b.tamperDis.testBit i = true
  compat : ∀ i, a.compat.testBit i = true → b.compat.testBit i = true
  flue   : a.arbFlue ≤ b.arbFlue
  inner  : a.arbInner ≤ b.arbInner
  outer  : a.arbOuter ≤ b.arbOuter
  seed   : b.seed = a.seed ∨ b.seed = none
  fixed  : b.serial = a.serial ∧ b.vendorFw = a.vendorFw ∧ b.vendorDbg = a.vendorDbg ∧ b.vendorLc = a.vendorLc

/-- While the vault is intact, no source's response is below its minimum (R582). -/
def Vault.Guarded (v : Vault) : Prop := v.intact = true → ∀ n, n < 30 → minResp n ≤ respAt v.resp n

end Machine

end Sys2Proof
end

