-- ==== Sys2Proof/Certificates/Slice0/Obligations.lean ====
section
/-! DEFINITION. The statements for the provers, one named proposition each. Each docstring names the rules of spec/ the statement rests
on, and where it rests on a choice of the model, the entry of the assumption log. -/

open Sys2Proof Sys2Proof.Machine

/-- The command at the front of the queue is the one that runs, on the state with the rest of the queue. With no command waiting
the block idles: that clause is the model's choice (log entry 1). -/
def Obligations.StepRunsFront : Prop :=
  (∀ (c : Instr) (rest : List Instr) (s : State), s.pending = c :: rest → step s = exec c { s with pending := rest }) ∧
  (∀ (s : State), s.pending = [] → step s = .next s)

/-- Every command that the part's interface can carry completes, in every state; one that it cannot carry is refused as ill
formed (the model's choice, log entry 3). -/
def Obligations.WellFormedAnswers : Prop :=
  ∀ (c : Instr) (s : State), (c.wf = true → ∃ t, exec c s = .next t) ∧ (c.wf = false → exec c s = .fault .illFormed)

/-- The part after reset: no command waits, nothing has left it, every register field has its reset value, so that every hearth
of the variant is in RESET and every other one ABSENT, no VF is bound, the flue is in its boot ROM; no hearth holds a job, a key
or a byte of memory; its tables are canonical. (Under R2, R43, R109, R677, R689, R722, which say more than is stated here.) -/
def Obligations.ResetState : Prop :=
  State.reset.pending = [] ∧ State.reset.out = [] ∧ (∀ p f, State.reset.rd p f = f.reset) ∧
  (∀ h, h < 16 → State.reset.hState h = 1) ∧ (∀ h, 16 ≤ h → State.reset.hState h = 0) ∧
  (∀ v, v < 512 → State.reset.bound v = false) ∧ State.reset.flueUp = false ∧ State.reset.bootState = stRomWait ∧
  (∀ h, (State.reset.H h).jobs = [] ∧ (State.reset.H h).cache = [] ∧ (State.reset.H h).mem.ddr = []) ∧
  State.reset.Canonical ∧ State.reset.chim.fuses.Fits ∧ State.reset.chim.vault.Guarded

/-- Every step keeps the canonical form of the registers and the memories. -/
def Obligations.StepKeepsCanonical : Prop :=
  ∀ (s t : State), s.Canonical → step s = .next t → t.Canonical

/-- No command changes the queue of waiting commands or the variant, takes back what has left the part, or draws a free value
twice. -/
def Obligations.CommandsKeepQueue : Prop :=
  ∀ (c : Instr) (s t : State), exec c s = .next t →
    t.pending = s.pending ∧ t.variant = s.variant ∧ s.freeCtr ≤ t.freeCtr ∧ ∃ l, t.out = s.out ++ l

/-- Whatever the command, no blown fuse heals, and a destroyed identity seed does not return. (Under R686, R702, R704, which say
more than is stated here.) -/
def Obligations.FusesOnlyGrow : Prop :=
  ∀ (s t : State), s.chim.fuses.Fits → step s = .next t → t.chim.fuses.Fits ∧ Fuses.Grow s.chim.fuses t.chim.fuses

/-- Whatever the command, no source's response is below its minimum while the vault is intact. (Under R573, R582, R585, which
say more than is stated here.) -/
def Obligations.ResponsesStayGuarded : Prop :=
  ∀ (s t : State), s.chim.vault.Guarded → step s = .next t → t.chim.vault.Guarded

/-- A completion is one write of 32 bytes at the tail of the completion queue, with the phase of the pass in bit 0 of byte 11;
the tail moves on and the phase turns where the queue wraps; the output leaves before the entry, and the message after it; a
masked vector's message pends (log 131). R85: the entry never carries Relaxed Ordering, and output carries it as the function
enables it. (Under R76, R78, R84, R86, which say more than is stated here.) -/
def Obligations.CompletionEntryWritten : Prop :=
  (∀ (e : Entry) (hd sq : Nat) (ph : Bool), (entryBytes e hd sq ph).length = 32 ∧
    (byteAt (entryBytes e hd sq ph) 11).testBit 0 = ph ∧ fieldLe (entryBytes e hd sq ph) 0 4 = e.tag % 2 ^ 32 ∧
    fieldLe (entryBytes e hd sq ph) 6 2 = hd % 2 ^ 16 ∧ fieldLe (entryBytes e hd sq ph) 12 4 = sq % 2 ^ 32) ∧
  (∀ (q : Queue) (e : Entry) (sup : Bool) (s : State), ∃ l,
    (l = [] ∨ ∃ addr data, l = [.msix (qFunc q) (s.qrd q Reg.QP_CFG_VECTOR) addr data]) ∧
    (postCompletion q e sup s).out = s.out ++ [.hostWrite (qFunc q) false (s.cqBase q + 32 * (s.qp q).cqTail)
      (entryBytes e (s.qp q).sqHead (s.qp q).seq (s.qp q).phase)] ++ l ∧
    (sup = true → l = []) ∧
    (sup = false → s.qrd q Reg.QP_COAL_COUNT ≤ (s.qp q).unsignalled + 1 →
      (l ≠ [] ↔ s.flag (msixPage (qFunc q) (s.qrd q Reg.QP_CFG_VECTOR)) (Reg.MSIX_MASK (s.qrd q Reg.QP_CFG_VECTOR % 256)) = false)) ∧
    ((postCompletion q e sup s).qp q).cqTail = (if s.cqDepth q ≤ (s.qp q).cqTail + 1 then 0 else (s.qp q).cqTail + 1) ∧
    (((postCompletion q e sup s).qp q).phase = (s.qp q).phase ↔ (s.qp q).cqTail + 1 < s.cqDepth q) ∧
    ((postCompletion q e sup s).qp q).seq = ((s.qp q).seq + 1) % 2 ^ 32 ∧ ((postCompletion q e sup s).qp q).occ = (s.qp q).occ + 1 ∧
    (s.flag (msixPage (qFunc q) (s.qrd q Reg.QP_CFG_VECTOR)) (Reg.MSIX_MASK (s.qrd q Reg.QP_CFG_VECTOR % 256)) = false →
      (postCompletion q e sup s).regs = s.regs) ∧
    (postCompletion q e sup s).hearths = s.hearths ∧ (postCompletion q e sup s).chim = s.chim) ∧
  (∀ (q tag status : Nat) (g sup : Bool) (res out : Bytes) (dst : List SgEntry) (s : State), ∃ x l,
    (postAdmin q tag status g res out dst sup s).out = s.out ++ scatter .pf0 (s.relaxed .pf0) dst out ++ [.hostWrite .pf0 false x
      (entryBytes { tag := tag, status := status, len := out.length, hasRes := !res.isEmpty, group := g, result := res }
        (s.qp (.admin (Fin.ofNat 4 q))).sqHead (s.qp (.admin (Fin.ofNat 4 q))).seq (s.qp (.admin (Fin.ofNat 4 q))).phase)] ++ l)

/-- A flue or chimney event sets its status bit, and besides registers and the flue recorder and its counters it changes
nothing; only messages leave the part. An event raised while it is pending sends none of its own. (Under R637 to R646, R654,
which say more than is stated here.) -/
def Obligations.EventsTouchRecordsOnly : Prop :=
  (∀ (e : Ev) (p : Page) (i : Info) (s : State), (raiseFlue e p i s).hearths = s.hearths ∧ (raiseFlue e p i s).chim = s.chim ∧
    (raiseFlue e p i s).variant = s.variant ∧ (raiseFlue e p i s).pending = s.pending ∧ (raiseFlue e p i s).freeCtr = s.freeCtr ∧
    { (raiseFlue e p i s).flue with recorder := {}, ctrs := [] } = { s.flue with recorder := {}, ctrs := [] } ∧
    ∃ l, (raiseFlue e p i s).out = s.out ++ l ∧ ∀ o ∈ l, ∃ f v a d, o = .msix f v a d) ∧
  (∀ (e : Ev) (u g : Nat) (p : Page) (s : State), s.regs.sorted = true → e.bit < 32 →
    ((raiseBit e u g p s).rd p Reg.EVT_STATUS_STATUS).testBit e.bit = true ∧
    (evPending e u s = true → (raiseBit e u g p s).out = s.out))

/-- A refused write on a page of the generic capture format is captured if no capture is held, and otherwise only counted; it
changes nothing but registers. (Under R711, R714, which say more than is stated here.) -/
def Obligations.RefusedWritesAreCaptured : Prop :=
  (∀ (p : Page) (who : Requester) (off data cause : Nat) (s : State),
    refuse p who off data cause s = { s with regs := (refuse p who off data cause s).regs }) ∧
  (∀ (p : Page) (who : Requester) (off data cause : Nat) (s : State), p.kind ≠ .mempath → p.kind ≠ .mpu →
    s.flag p Reg.ERR_CAPTURE3_VALID = true → refuse p who off data cause s = s.bump p Reg.ERR_COUNT_COUNT) ∧
  (∀ (p : Page) (who : Requester) (off data cause : Nat) (s t : State), p.kind ≠ .mempath → p.kind ≠ .mpu → s.regs.sorted = true →
    s.flag p Reg.ERR_CAPTURE3_VALID = false → off < 4096 → data < 2 ^ 32 → cause < 16 → t = refuse p who off data cause s →
    t.rd p Reg.ERR_CAPTURE3_VALID = 1 ∧ t.rd p Reg.ERR_CAPTURE0_OFFSET = off ∧ t.rd p Reg.ERR_CAPTURE0_REQUESTER = reqCode who ∧
    t.rd p Reg.ERR_CAPTURE0_CORE = reqCore who ∧ t.rd p Reg.ERR_CAPTURE0_READ = 0 ∧ t.rd p Reg.ERR_CAPTURE1_DATA = data ∧
    t.rd p Reg.ERR_CAPTURE2_VF = reqVf who ∧ t.rd p Reg.ERR_CAPTURE2_IDENTITY = reqIdentity who ∧
    t.rd p Reg.ERR_CAPTURE3_CAUSE = cause)

/-- A register write of a word reaches its page; a write of another size, or with byte enables missing, is refused with cause
SIZE where a register lies there; a page of a hearth that does not answer takes nothing. A page that does not exist is no
command of the part. (Under R711, R716, R717, R732, which say more than is stated here.) -/
def Obligations.RegisterWrites : Prop :=
  (∀ (p q : Page) (who : Requester) (off : BitVec 12) (d : Word) (s : State), p.wf = true → q = p.home → isHearthPage q = true →
    s.answers q.unit.val = true → off.toNat % 4 = 0 →
    exec (.registerWrite p who off 4 15 d) s =
      .next (wordWrite p.unit.val q who off.toNat d.toNat (wakeHearth q.unit.val s))) ∧
  (∀ (p q : Page) (who : Requester) (off : BitVec 12) (d : Word) (s : State), p.wf = true → q = p.home → q.kind ≠ .vfQueue →
    q.kind ≠ .msixVf → q.kind ≠ .pbaVf → q.kind ≠ .cfgVf → q.kind ≠ .cfgPf →
    isHearthPage q = false → s.flueUp = true → off.toNat % 4 = 0 →
    exec (.registerWrite p who off 4 15 d) s = .next (wordWrite p.unit.val q who off.toNat d.toNat s)) ∧
  (∀ (p : Page) (who : Requester) (off : BitVec 12) (d : Word) (s : State), p.wf = true → p.kind = .vfQueue →
    reach (.vf p.unit 0) s = .ok → off.toNat % 4 = 0 →
    exec (.registerWrite p who off 4 15 d) s = .next (wordWrite p.unit.val p who off.toNat d.toNat s)) ∧
  (∀ (p : Page) (who : Requester) (off : BitVec 12) (d : Word) (s : State), p.wf = true → off.toNat % 4 = 0 →
    ((p.kind = .msixVf ∨ p.kind = .pbaVf) ∧ s.flueUp = true ∧ s.vfExists p.unit.val = true) ∨
    (p.kind = .cfgVf ∧ flueListens s = true ∧ s.vfExists p.unit.val = true) ∨ (p.kind = .cfgPf ∧ flueListens s = true) →
    exec (.registerWrite p who off 4 15 d) s = .next (wordWrite p.unit.val p who off.toNat d.toNat s)) ∧
  (∀ (p q : Page) (who : Requester) (off : BitVec 12) (n : Fin 9) (b : BitVec 4) (d : Word) (s : State), p.wf = true → q = p.home →
    isHearthPage q = true → s.answers q.unit.val = true → n ≠ 4 ∨ b ≠ 15 ∨ off.toNat % 4 ≠ 0 →
    fieldsAt q (off.toNat / 4 * 4) ≠ [] →
    exec (.registerWrite p who off n b d) s =
      .next (refuse q who off.toNat d.toNat cSize (wakeHearth q.unit.val s))) ∧
  (∀ (p q : Page) (who : Requester) (off : BitVec 12) (n : Fin 9) (b : BitVec 4) (d : Word) (s : State), p.wf = true → q = p.home →
    isHearthPage q = true → s.answers q.unit.val = false →
    exec (.registerWrite p who off n b d) s = .next s) ∧
  (∀ (p : Page) (who : Requester) (off : BitVec 12) (n : Fin 9) (b : BitVec 4) (d : Word) (s : State), p.wf = false →
    exec (.registerWrite p who off n b d) s = .fault .illFormed)

/-- The offsets of the doorbells in the BAR0 of a VF and of PF0: queue pair q's tail at q times 0x100 and its head 8 above.
Every other offset is reserved: a read there returns zero and a write does nothing. (Under R56, which says more than is stated
here.) A tail doorbell of four bytes whose upper half is zero, with a tail below the depth, latches the tail; a VF's also sends
a pulse to its hearth, counts, and may wake the hearth. A read of the doorbell returns the tail last accepted. (Under R57, R58,
R99, R544, R614, which say more than is stated here.) A completion head in the range from the last head to the last entry
written frees the entries between. A read of the doorbell returns the head last accepted. (Under R57, R58, which say more than
is stated here.) -/
def Obligations.DoorbellsTakeEffect : Prop :=
  (∀ (v : Fin 512) (q : Fin 8), doorbellAt (some v) (0x100 * q.val) = some (.vf v q, false) ∧
    doorbellAt (some v) (0x100 * q.val + 8) = some (.vf v q, true)) ∧
  (∀ (q : Fin 4), doorbellAt none (0x100 * q.val) = some (.admin q, false) ∧
    doorbellAt none (0x100 * q.val + 8) = some (.admin q, true)) ∧
  (∀ (fn : Option (Fin 512)) (off : Nat), (off % 0x100 ≠ 0 ∧ off % 0x100 ≠ 8) ∨ 0x800 ≤ off ∨ (fn = none ∧ 0x400 ≤ off) →
    doorbellAt fn off = none) ∧
  (∀ (fn : Option (Fin 512)) (off : BitVec 12) (size : Fin 9) (data : BitVec 64) (s : State), doorbellAt fn off.toNat = none →
    s.flueUp = true → (∀ v, fn = some v → s.vfExists v = true) →
    exec (.sqTailDoorbell fn off .read) s = .next (s.emit (.readData (zeros 4))) ∧
    exec (.cqHeadDoorbell fn off .read) s = .next (s.emit (.readData (zeros 4))) ∧
    exec (.sqTailDoorbell fn off (.write size data)) s = .next s ∧
    exec (.cqHeadDoorbell fn off (.write size data)) s = .next s) ∧
  (∀ (fn : Option (Fin 512)) (off : BitVec 12) (t : Queue) (s : State), doorbellAt fn off.toNat = some (t, false) → reach t s = .ok →
    exec (.sqTailDoorbell fn off .read) s = .next (s.emit (.readData (toLe 4 (s.qp t).sqTail)))) ∧
  (∀ (fn : Option (Fin 512)) (off : BitVec 12) (v : Fin 512) (q : Fin 8) (data : BitVec 64) (s : State),
    doorbellAt fn off.toNat = some (.vf v q, false) → s.flueUp = true → s.vfExists v = true → s.bound v = true →
    data.toNat < 0x10000 → data.toNat < s.sqDepth (.vf v q) →
    exec (.sqTailDoorbell fn off (.write 4 data)) s = .next
      (let h := s.ft v Reg.FT_HEARTH
       autoWake h (addFlue (16 + h) 1 (sendPulse h xDoorbells (s.modQp (.vf v q) (fun x => { x with sqTail := data.toNat })))))) ∧
  (∀ (fn : Option (Fin 512)) (off : BitVec 12) (q : Fin 4) (data : BitVec 64) (s : State),
    doorbellAt fn off.toNat = some (.admin q, false) → s.flueUp = true → data.toNat < 0x10000 → data.toNat < s.sqDepth (.admin q) →
    exec (.sqTailDoorbell fn off (.write 4 data)) s = .next (s.modQp (.admin q) (fun x => { x with sqTail := data.toNat }))) ∧
  (∀ (fn : Option (Fin 512)) (off : BitVec 12) (t : Queue) (s : State), doorbellAt fn off.toNat = some (t, true) → reach t s = .ok →
    exec (.cqHeadDoorbell fn off .read) s = .next (s.emit (.readData (toLe 4 (s.qp t).cqHead)))) ∧
  (∀ (fn : Option (Fin 512)) (off : BitVec 12) (t : Queue) (data : BitVec 64) (s : State) (k : Nat),
    doorbellAt fn off.toNat = some (t, true) → reach t s = .ok → data.toNat < 0x10000 → data.toNat < s.cqDepth t →
    k = (data.toNat + s.cqDepth t - (s.qp t).cqHead % s.cqDepth t) % s.cqDepth t → k ≤ (s.qp t).occ →
    exec (.cqHeadDoorbell fn off (.write 4 data)) s = .next (s.modQp t (fun x => { x with cqHead := data.toNat, occ := x.occ - k })))

/-- R58: a submission tail at or above the depth is DOORBELL_RANGE, a completion head outside the range from the previous head
to the last entry written is CQ_HEAD_INVALID; the queue pair is in error and no index changes. -/
def Obligations.DoorbellRangeErrors : Prop :=
  (∀ (fn : Option (Fin 512)) (off : BitVec 12) (t : Queue) (data : BitVec 64) (s : State), doorbellAt fn off.toNat = some (t, false) →
    reach t s = .ok → data.toNat < 0x10000 → s.sqDepth t ≤ data.toNat →
    exec (.sqTailDoorbell fn off (.write 4 data)) s = .next ((s.qwr t Reg.QP_STATUS_ERROR 1).qwr t Reg.QP_STATUS_ERR_CODE 1)) ∧
  (∀ (fn : Option (Fin 512)) (off : BitVec 12) (t : Queue) (data : BitVec 64) (s : State), doorbellAt fn off.toNat = some (t, true) →
    reach t s = .ok → data.toNat < 0x10000 →
    s.cqDepth t ≤ data.toNat ∨
      (s.qp t).occ < (data.toNat + s.cqDepth t - (s.qp t).cqHead % s.cqDepth t) % s.cqDepth t →
    exec (.cqHeadDoorbell fn off (.write 4 data)) s = .next ((s.qwr t Reg.QP_STATUS_ERROR 1).qwr t Reg.QP_STATUS_ERR_CODE 2))

/-- A doorbell write of another size, or with any of bits 31:16 set, changes no index, puts the queue pair in no error and is
counted in DROPPED_WRITES up to 255. (Under R57, which says more than is stated here.) An access to the queue registers of an
unbound VF is counted, raises FUNC_UNBOUND_ACCESS and, where it is a read, returns zero; a doorbell there is one such access,
and so are the set and the clear of ENABLE. (Under R48, which says more than is stated here.) -/
def Obligations.DroppedDoorbellsAndUnboundAccesses : Prop :=
  (∀ (fn : Option (Fin 512)) (off : BitVec 12) (t : Queue) (head : Bool) (size : Fin 9) (data : BitVec 64) (s : State),
    doorbellAt fn off.toNat = some (t, head) → reach t s = .ok → size ≠ 4 ∨ 0x10000 ≤ data.toNat →
    (if head then exec (.cqHeadDoorbell fn off (.write size data)) s else exec (.sqTailDoorbell fn off (.write size data)) s) =
      .next (errFlue 97
        (s.qwr t Reg.QP_STATUS_DROPPED_WRITES (if 256 ≤ s.qrd t Reg.QP_STATUS_DROPPED_WRITES + 1 then 255
          else s.qrd t Reg.QP_STATUS_DROPPED_WRITES + 1)))) ∧
  (∀ (v : Fin 512) (s t : State), s.flueUp = true → s.vfExists v = true → s.bound v = false →
    t = raiseFlue evUnboundAccess (ftPage v) { vf := v }
      (errFlue 96 (s.modFlue (fun x => { x with unbound := satAdd 32 x.unbound 1 }))) →
    exec (.unboundVfAccess ⟨v, false⟩) s = .next t ∧ exec (.unboundVfAccess ⟨v, true⟩) s = .next (t.emit (.readData (zeros 4))) ∧
    (∀ (off : BitVec 12) (q : Fin 8) (head : Bool) (size : Fin 9) (data : BitVec 64), doorbellAt (some v) off.toNat = some (.vf v q, head) →
      (if head then exec (.cqHeadDoorbell (some v) off (.write size data)) s
        else exec (.sqTailDoorbell (some v) off (.write size data)) s) = .next t ∧
      (if head then exec (.cqHeadDoorbell (some v) off .read) s else exec (.sqTailDoorbell (some v) off .read) s) =
        .next (t.emit (.readData (zeros 4)))) ∧
    (∀ (q : Fin 8), exec (.qpEnable (.vf v q)) s = .next t ∧ exec (.qpDisable (.vf v q)) s = .next t))

/-- ENABLE takes effect below the grant with depths of 2^4 to 2^16: indexes and sequence 0, phase 1, the error gone and, for a
VF, its hearth's SHAIM2_COMPAT locked; any other setting leaves ENABLE 0 with BAD_CONFIG. (Under R62, R63, R126, which say more
than is stated here.) Clearing ENABLE; ACTIVE clears with it where nothing of the queue pair is under way: no job, no held
request, no read on its way. R86: the interrupt that a time limit owes, on every queue pair. (Under R60, R65, which say more
than is stated here.) -/
def Obligations.QueuePairControl : Prop :=
  (∀ (v : Fin 512) (q : Fin 8) (s : State), s.regs.sorted = true → reach (.vf v q) s = .ok → s.qrd (.vf v q) Reg.QP_CTRL_ENABLE = 0 →
    q.val < s.ft v Reg.FT_QP_GRANT → 4 ≤ s.qrd (.vf v q) Reg.QP_CFG_SQ_LOG2 ∧ s.qrd (.vf v q) Reg.QP_CFG_SQ_LOG2 ≤ 16 →
    4 ≤ s.qrd (.vf v q) Reg.QP_CFG_CQ_LOG2 ∧ s.qrd (.vf v q) Reg.QP_CFG_CQ_LOG2 ≤ 16 →
    ∃ t, exec (.qpEnable (.vf v q)) s = .next t ∧ t.qrd (.vf v q) Reg.QP_CTRL_ENABLE = 1 ∧
      t.qrd (.vf v q) Reg.QP_STATUS_ACTIVE = 1 ∧ t.qrd (.vf v q) Reg.QP_STATUS_ERROR = 0 ∧
      t.qrd (.vf v q) Reg.QP_STATUS_ERR_CODE = 0 ∧
      (t.qp (.vf v q)).sqTail = 0 ∧ (t.qp (.vf v q)).sqHead = 0 ∧ (t.qp (.vf v q)).cqTail = 0 ∧ (t.qp (.vf v q)).cqHead = 0 ∧
      (t.qp (.vf v q)).occ = 0 ∧ (t.qp (.vf v q)).seq = 0 ∧ (t.qp (.vf v q)).phase = true ∧ (t.qp (.vf v q)).fence = none ∧
      (t.H (s.ft v Reg.FT_HEARTH)).compatLock = true ∧
      (∀ x, x ≠ Queue.vf v q → t.qp x = s.qp x) ∧ t.chim = s.chim ∧ t.out = s.out ∧ t.variant = s.variant) ∧
  (∀ (t : Queue) (s : State), reach t s = .ok → s.qrd t Reg.QP_CTRL_ENABLE = 0 → cfgValid t s = false →
    exec (.qpEnable t) s = .next ((s.qwr t Reg.QP_STATUS_ERROR 1).qwr t Reg.QP_STATUS_ERR_CODE 4)) ∧
  (∀ (q : Fin 4) (s : State), s.regs.sorted = true → s.flueUp = true → s.qrd (.admin q) Reg.QP_CTRL_ENABLE = 0 →
    4 ≤ s.qrd (.admin q) Reg.QP_CFG_SQ_LOG2 ∧ s.qrd (.admin q) Reg.QP_CFG_SQ_LOG2 ≤ 16 →
    4 ≤ s.qrd (.admin q) Reg.QP_CFG_CQ_LOG2 ∧ s.qrd (.admin q) Reg.QP_CFG_CQ_LOG2 ≤ 16 →
    ∃ t, exec (.qpEnable (.admin q)) s = .next t ∧ t.qrd (.admin q) Reg.QP_CTRL_ENABLE = 1 ∧ t.qp (.admin q) = {} ∧
      t.hearths = s.hearths ∧ t.chim = s.chim ∧ t.out = s.out) ∧
  (∀ (t : Queue) (s : State), s.regs.sorted = true → reach t s = .ok → s.queueBusy t = true ∨ (s.qp t).reading = true →
    exec (.qpDisable t) s = .next (s.qwr t Reg.QP_CTRL_ENABLE 0)) ∧
  (∀ (q : Queue) (s : State), s.regs.sorted = true → reach q s = .ok → s.queueBusy q = false → (s.qp q).reading = false →
    ∃ t, exec (.qpDisable q) s = .next t ∧ t.qrd q Reg.QP_CTRL_ENABLE = 0 ∧
      t.qrd q Reg.QP_STATUS_ACTIVE = 0 ∧ t.hearths = s.hearths ∧ t.flue = s.flue ∧ t.chim = s.chim ∧ t.out = s.out) ∧
  (∀ (fn : Option (Fin 512)) (q : Fin 8) (t : Queue) (s : State), pairAt fn q = some t →
    0 < (s.qp t).unsignalled → 0 < s.qrd t Reg.QP_COAL_TIME →
    exec (.qpCoalTimeout fn q) s = .next (sendMsix (qFunc t) (s.qrd t Reg.QP_CFG_VECTOR) (s.modQp t (fun x => { x with unsignalled := 0 }))))

/-- A descriptor that the conditions of R87 let the stoker read takes a token and enters the job table, at once or when the read
returns; one whose damper has closed, whose queue pair has been disabled or whose hearth has stopped in between enters it to end
there. A read that fails puts the queue pair into FETCH_ERROR. (Under R65, R66, R87, R98, which say more than is stated here.)
-/
def Obligations.FetchDescriptor : Prop :=
  (∀ (v : Fin 512) (q : Fin 8) (s : State) (h : Nat), h = s.ft v Reg.FT_HEARTH →
    s.hostUp = true → s.bound v = true → fetchQueue s (.vf v q) = true → fetchRoom s h v q = true → damperAdmits s h v = true →
    bucketHas s v = true → hearthTakes s h = true → s.flue.recorder.waiting = false →
    (∀ desc a b c, desc.length = (if (s.H h).compat then 64 else 128) →
      exec (.descriptorFetch v q false (.ok desc a b c)) s =
        .next (fetchInto h v q (fetchStop s (.vf v q) v false) desc a b c (takeToken v s))) ∧
    exec (.descriptorFetch v q false .error) s =
      .next (((takeToken v s).qwr (.vf v q) Reg.QP_STATUS_ERROR 1).qwr (.vf v q) Reg.QP_STATUS_ERR_CODE 3) ∧
    exec (.descriptorFetch v q false .pending) s = .next ((takeToken v s).modQp (.vf v q) (fun x => { x with reading := true }))) ∧
  (∀ (v : Fin 512) (q : Fin 8) (s t : State) (h : Nat), h = s.ft v Reg.FT_HEARTH →
    s.hostUp = true → s.bound v = true → (s.qp (.vf v q)).reading = true → t = s.modQp (.vf v q) (fun x => { x with reading := false }) →
    (∀ desc a b c, desc.length = (if (s.H h).compat then 64 else 128) →
      exec (.descriptorFetch v q true (.ok desc a b c)) s = .next (fetchInto h v q (fetchStop s (.vf v q) v true) desc a b c t)) ∧
    exec (.descriptorFetch v q true .error) s = .next (checkDrain v (restQueue (.vf v q)
      ((t.qwr (.vf v q) Reg.QP_STATUS_ERROR 1).qwr (.vf v q) Reg.QP_STATUS_ERR_CODE 3))))

/-- A blob unwrapped for a waiting job in an entry of the inner world goes into the cache, or its failure counts among the job's
key checks; R22 to R26: the job that comes first in the order of dispatch takes its engines and runs. (Under R18, R20, R174,
R192, which say more than is stated here.) A class blocked by direct use is reported once; a job that waited 1 ms for randomness
is ENTROPY_UNAVAILABLE, and the output it may have written is overwritten; the held jobs of the hob are released, and its
burners wake. (Under R23, R196, R243, R289, R331, R389, which say more than is stated here.) -/
def Obligations.JobsWaitAndDispatch : Prop :=
  (∀ (h : Fin 16) (j : Fin 2048) (i : Fin 3) (b : Bytes) (s : State) (jb : Job), s.job? h j = some jb → s.works h = true →
    (s.H h).inner.any (fun e => e.2 == .unwrap j i) = true → jb.state = .keywait → i.val ∈ jb.awaiting → rKind (dRef jb.desc i) ≠ kDdr →
    exec (.keywaitUnwrapDone h j i (.ok b)) s = .next (fillInner h (unwrapRef h j i b jb s)) ∧
    exec (.keywaitUnwrapDone h j i .error) s = .next (fillInner h (unwrapFails h j i stHostDma s))) ∧
  (∀ (h : Fin 16) (j : Fin 2048) (i : Fin 3) (blob : Dma) (b : Bytes) (s t : State) (jb : Job), s.job? h j = some jb →
    s.works h = true → (s.H h).inner.any (fun e => e.2 == .unwrap j i) = true → jb.state = .keywait → i.val ∈ jb.awaiting →
    rKind (dRef jb.desc i) = kDdr → ddrBlob h jb.vf (rAddr (dRef jb.desc i)) s = (t, .ok b) →
    exec (.keywaitUnwrapDone h j i blob) s = .next (fillInner h (unwrapRef h j i b jb t))) ∧
  (∀ (h : Fin 16) (us : Nat) (s t : State) (j : Nat) (jb : Job), s.works h = true →
    t = s.modH h (fun x => { x with jobs := x.jobs.mapVals (fun _ j =>
      if j.state = .ready ∨ j.state = .yielded then
        { j with waitUs := j.waitUs + us, heldUs := if hobHolds s h then j.heldUs + us else 0 } else j) }) →
    firstJob t h ((t.H h).jobs.filter (fun p => eligible t h p.1 p.2)) = some (j, jb) →
    (∀ ks un, jb.state = .ready → dispatchChecks t h jb = .ok ks → takeable t h jb = some un → drawBytes jb.desc ks = 0 →
      exec (.jobDispatch h us) s = .next (requestYield h (closeBatch h (startJob h j jb un ks [] t)))) ∧
    (∀ ks un r u, jb.state = .ready → dispatchChecks t h jb = .ok ks → takeable t h jb = some un → drawBytes jb.desc ks ≠ 0 →
      drbgLower h (drawBytes jb.desc ks) false t = some (r, u) →
      exec (.jobDispatch h us) s = .next (requestYield h (closeBatch h (startJob h j jb un ks r u)))) ∧
    (∀ st code, jb.state = .ready → dispatchChecks t h jb = .error (st, code) →
      exec (.jobDispatch h us) s = .next (requestYield h (closeBatch h (stopJob h j st code t)))) ∧
    (∀ un, jb.state = .yielded → firstStop t h jb = none → takeable t h jb = some un →
      exec (.jobDispatch h us) s = .next (requestYield h (closeBatch h (resumeJob h j jb un t))))) ∧
  (∀ (h : Fin 16) (c : Fin 4) (s : State), s.works h = true → (∀ u ∈ classUnits c, 2 ≤ (s.eng h u).holder) →
    (∃ p ∈ (s.H h).jobs, p.2.state = .ready ∧ c.val ∈ jobNeeds s h p.2) → c.val ∉ (s.H h).blocked →
    exec (.stkClassBlocked h c) s = .next
      (let t := s.wr (pgH .stoker h) Reg.STK_STATUS_CLASS_BLOCKED 1
       raiseH h evClassBlocked (pgH .stoker h) { inst := c, payload := captureBytes (pgH .stoker h) t }
        (t.modH h (fun x => { x with blocked := x.blocked ++ [c.val] })))) ∧
  (∀ (h : Fin 16) (c : Fin 4) (s : State), s.works h = true → (∀ u ∈ classUnits c, 2 ≤ (s.eng h u).holder) →
    (∃ p ∈ (s.H h).jobs, p.2.state = .ready ∧ c.val ∈ jobNeeds s h p.2) → c.val ∈ (s.H h).blocked →
    exec (.stkClassBlocked h c) s = .next (s.wr (pgH .stoker h) Reg.STK_STATUS_CLASS_BLOCKED 1)) ∧
  (∀ (h : Fin 16) (j : Fin 2048) (s : State) (jb : Job) (e : OpDef) (vs : List KeyView), s.job? h j = some jb → s.works h = true →
    drbgServes h s = false → jb.state = .ready → opDef? (dOp jb.desc) = some e → keyChecks s h jb e = .ok vs →
    0 < drawBytes jb.desc (holdsOf jb.desc vs) →
    exec (.entropyWaitTimeout h (.job j)) s = .next (failJob h j stEntropy s)) ∧
  (∀ (h : Fin 16) (u : Fin 20) (s : State) (j : Nat) (jb : Job), s.works h = true → mgReady (s.eng h u) = false →
    (s.eng h u).waitDraw = false → (s.eng h u).job = some j → s.job? h j = some jb → jb.state = .running → (maskUnit jb).isSome = true →
    exec (.entropyWaitTimeout h (.unit u)) s = .next (settleJob h j (freeSaves h j
      ((releaseUnits h jb.units (countCycles h jb s)).modJob h j
        (fun x => { x with status := stEntropy, newKey := none, ran := true, wipe := pausedOut x }))))) ∧
  (∀ (h : Fin 16) (s : State), s.works h = true → s.rd (pgH .hob h) Reg.HOB_CTRL_MODE = 2 → (s.H h).batchOpen = false →
    (clamp 1 16 (s.rd (pgH .hob h) Reg.HOB_BATCH_COUNT) ≤ (hobReady s h).length ∨
      ∃ j jb, j ∈ hobReady s h ∧ s.job? h j = some jb ∧ clamp 1 1000 (s.rd (pgH .hob h) Reg.HOB_BATCH_WAIT) ≤ jb.heldUs) →
    exec (.hobBatchRelease h) s = .next (gateBurners h (s.modH h (fun x => { x with batchOpen := true }))))

/-- How a queued job leaves its engines, is completed, is saved at a yield point and restored. (Under R17, R78, R84, R234, R281,
R332, R344, R364, R371 to R377, which say more than is stated here.) -/
def Obligations.JobEndsYieldsAndCompletes : Prop :=
  (∀ (h : Fin 16) (u : Fin 20) (inv : Bool) (s : State) (j : Nat) (jb : Job), (s.eng h u).job = some j → s.job? h j = some jb →
    s.works h = true → s.damper jb.vf ≠ dampResetting → jb.state = .running → jb.ran = true →
    (∀ w ∈ jb.units, (s.eng h w).saving = false ∧ (s.eng h w).restoring = false ∧ (s.eng h w).paused = false) →
    (isolating s && jb.newKey.isSome) = false →
    ((isBn u = true → inv = true) → exec (.engineJobEnd h u inv) s = .next (settleJob h j (countPinFail h jb.leave
      (freeSaves h j (releaseUnits h jb.units ((fillResult h u jb jb.status (countCycles h jb s)).modJob h j Job.leave)))))) ∧
    (isBn u = true → inv = false → exec (.engineJobEnd h u inv) s = .next
      (let t := (freeSaves h j (releaseUnits h jb.units ((fillResult h u jb stInvariant (countCycles h jb s)).modJob h j
        Job.leave))).modJob h j (fun x => { x with status := stInvariant, newKey := none })
       settleJob h j (countPinFail h jb.leave (requestKat h u false
        (raiseH h evBnInvariant (pgU h u) { inst := unitNo u, payload := captureBytes (pgU h u) t } t)))))) ∧
  (∀ (h : Fin 16) (u : Fin 20) (inv : Bool) (s : State), (s.eng h u).job = none →
    exec (.engineJobEnd h u inv) s = .next (endDirect h u inv s)) ∧
  (∀ (h : Fin 16) (j : Fin 2048) (s : State) (jb : Job), s.job? h j = some jb → s.hostUp = true → jb.state = .completing →
    s.damper jb.vf ≠ dampResetting → behindGroup s h j jb = false → controlWaits s h jb j = false →
    exec (.completionWritten h j) s = .next (writeCompletion h j s)) ∧
  (∀ (h : Fin 16) (n : Fin 4) (s t : State) (j : Nat) (jb : Job), (s.eng h (12 + n)).job = some j → s.job? h j = some jb →
    s.works h = true → (s.eng h (12 + n)).yieldReq = true → jb.state = .running → canYield jb = true →
    (s.eng h (12 + n)).paused = false → (s.eng h (12 + n)).scrubbing = false →
    t = (s.modJob h j (fun x => { x with passed := x.passed + 1 })).wr (pgU h (12 + n)) Reg.BN_YIELD_PASSED (min (jb.passed + 1) 0xFFFF) →
    exec (.yieldPointSaveDone h n true) s = .next (addCtr h 156 1
      ((releaseUnits h jb.units (t.wr (pgU h (12 + n)) Reg.BN_YIELD_SLOT
        (((List.range 4).find? (fun i => ((t.H h).saves.getD i {}).job == some j)).getD 0))).modJob h j
          (fun x => { x with state := .yielded, units := [], waitUs := 0 })))) ∧
  (∀ (h : Fin 16) (n : Fin 4) (s t : State) (j : Nat) (jb : Job), (s.eng h (12 + n)).job = some j → s.job? h j = some jb →
    s.works h = true → (s.eng h (12 + n)).restoring = true → (s.eng h (12 + n)).scrubbing = false →
    t = freeSaves h j (s.modEng h (12 + n) (fun e => { e with restoring := false })) →
    exec (.jobResumeRestoreDone h n .ok) s = .next (if jb.ran then fillSpan h j t else t) ∧
    (∀ rd, rd ≠ .ok → exec (.jobResumeRestoreDone h n rd) s = .next
      (settleJob h j ((releaseUnits h jb.units (countCycles h jb t)).modJob h j
        (fun x => { x with status := stPoison, newKey := none, ran := true }))))) ∧
  (∀ (h : Fin 16) (b : Fin 4) (s : State), s.up h = true → (s.eng h (16 + b)).turnover = true → mgReady (s.eng h (16 + b)) = true →
    exec (.turnoverEnd h b) s = .next (gateBurners h (s.modEng h (16 + b) (fun e => { e with turnover := false }))))

/-- The key-management opcodes run on the job's keys and input, and what they give stands in the job's entry. (Under R195 to
R198, R769 to R771, which say more than is stated here.) The transport and key-block opcodes. A hearth without a root of its own
gives no certificate (R767). (Under R199 to R203, R326 to R329, which say more than is stated here.) -/
def Obligations.KeyJobsRun : Prop :=
  (∀ (h : Fin 16) (j : Fin 2048) (s : State) (jb : Job) (i : Nat), AtRun s h j 0x0101 jb → (key0 jb).use = .cache i →
    exec (.keyUnwrap h j) s = .next (afterRun h j [] { result := some (idxResult i (key0 jb).fp) } s)) ∧
  (∀ (h : Fin 16) (j : Fin 2048) (s : State) (jb : Job) (w : Nat) (r : SlotRec), AtRun s h j 0x0102 jb →
    (key1 jb).use = .fixed w → (key1 jb).slot = some r →
    exec (.keyWrap h j) s = .next (afterRun h j []
      { out :=
          if jb.compat ∧ v2Expressible (heldEntry (key0 jb)) then makeBlob2 (heldEntry (key0 jb)) (key0 jb).mat (key1 jb).mat w r
          else makeBlob h (heldEntry (key0 jb)) (setVfs s h (heldEntry (key0 jb))).1 (setVfs s h (heldEntry (key0 jb))).2
            (key0 jb).mat ((dParams jb.desc).take 16) (key1 jb).mat w r
            (if (key0 jb).attr.limit = 0 then 0 else (key0 jb).attr.limit - (key0 jb).uses) } s)) ∧
  (∀ (h : Fin 16) (j : Fin 2048) (s : State) (jb : Job), AtRun s h j 0x0103 jb →
    exec (.keyGenerate h j) s = .next (afterRun h j [] (runGenerate h s jb) s)) ∧
  (∀ (h : Fin 16) (j : Fin 2048) (s : State) (jb : Job) (e : KeyEntry), AtRun s h j 0x0104 jb → jb.joined = false →
    (s.H h).cache.find? (rIndex (dRef jb.desc 0)) = some e → e.fp = (key0 jb).fp →
    exec (.keyEvict h j) s =
      .next (ran h j (fun x => { x with status := stOK }) (freeEntry h (rIndex (dRef jb.desc 0)) s))) ∧
  (∀ (h : Fin 16) (j : Fin 2048) (s : State) (jb : Job) (e : KeyEntry), AtRun s h j 0x0104 jb → jb.joined = true →
    (s.H h).cache.find? (rIndex (dRef jb.desc 0)) = some e → e.fp = (key0 jb).fp →
    exec (.keyEvict h j) s =
      .next (ran h j (fun x => { x with status := stOK })
        ((s.modH h (fun x => { x with cache := x.cache.upd (rIndex (dRef jb.desc 0)) (fun e => { e with marked := some jb.group }) })).modGroup
          h jb.group (fun g => g.modAction (.job j) (fun a => { a with evict := some (rIndex (dRef jb.desc 0)) }))))) ∧
  (∀ (h : Fin 16) (j : Fin 2048) (s : State) (jb : Job) (i : Nat) (e : KeyEntry), AtRun s h j 0x0105 jb →
    (key0 jb).use = .cache i → (s.H h).cache.find? i = some e →
    exec (.keyInfo h j) s = .next (afterRun h j [] { out := infoBytes e i } s)) ∧
  (∀ (h : Fin 16) (j : Fin 2048) (s : State) (jb : Job) (i : Nat) (r : SlotRec), AtRun s h j 0x0105 jb →
    (key0 jb).use = .fixed i → (key0 jb).slot = some r →
    exec (.keyInfo h j) s = .next (afterRun h j [] { out := slotInfo s h i r } s)) ∧
  (∀ (h : Fin 16) (j : Fin 2048) (inp : Dma) (s : State) (jb : Job) (b : Bytes), AtRun s h j 0x0106 jb → InputIs s jb inp b →
    exec (.keyDerive h j inp) s = .next (afterRun h j b (runDerive h s jb b) s)) ∧
  (∀ (h : Fin 16) (j : Fin 2048) (s : State) (jb : Job), AtRun s h j 0x0107 jb →
    exec (.keyExportKw h j) s = .next (afterRun h j [] { out := kwpWrap (key1 jb).mat (key0 jb).mat } s)) ∧
  (∀ (h : Fin 16) (j : Fin 2048) (inp : Dma) (s : State) (jb : Job) (b : Bytes), AtRun s h j 0x0108 jb → InputIs s jb inp b →
    exec (.keyImportKw h j inp) s = .next (afterRun h j b (madeKey h s jb (kwpUnwrap (key0 jb).mat b)) s)) ∧
  (∀ (h : Fin 16) (j : Fin 2048) (s : State) (jb : Job), AtRun s h j 0x0110 jb →
    exec (.transportCert h j) s = .next (afterRun h j [] (runCert h s jb) s)) ∧
  (∀ (h : Fin 16) (j : Fin 2048) (s : State) (jb : Job), AtRun s h j 0x0110 jb → hearthRoot (s.H h) = none →
    exec (.transportCert h j) s = .next (afterRun h j [] { status := stKeyNotFound } s)) ∧
  (∀ (h : Fin 16) (j : Fin 2048) (inp : Dma) (s : State) (jb : Job) (b : Bytes), AtRun s h j 0x0111 jb → InputIs s jb inp b →
    exec (.keyExportTransport h j inp) s = .next (afterRun h j b (runExportTransport h s jb b) s)) ∧
  (∀ (h : Fin 16) (j : Fin 2048) (inp : Dma) (s : State) (jb : Job) (b : Bytes), AtRun s h j 0x0112 jb → InputIs s jb inp b →
    exec (.keyImportTransport h j inp) s = .next (afterRun h j b (runImportTransport h s jb b) s)) ∧
  (∀ (h : Fin 16) (j : Fin 2048) (inp : Dma) (s : State) (jb : Job) (b : Bytes), AtRun s h j 0x0120 jb → InputIs s jb inp b →
    exec (.keyblockImport h j inp) s = .next (afterRun h j b (runBlockImport h s jb b) s)) ∧
  (∀ (h : Fin 16) (j : Fin 2048) (inp : Dma) (s : State) (jb : Job) (b : Bytes), AtRun s h j 0x0121 jb → InputIs s jb inp b →
    exec (.keyblockExport h j inp) s = .next (afterRun h j b
      { out := keyBlockExport (key1 jb).attr.alg (key1 jb).mat (key0 jb).attr (key0 jb).mat (dParam jb.desc) jb.rand } s))

/-- The cipher, hash and MAC opcodes. Inline forms answer in RESULT, pointer forms in the output; a wrong expected tag is
TAG_MISMATCH, and the output a failed decryption streamed is marked for zeroing (R226). (Under R218 to R231, which say more than
is stated here.) The random opcodes. RANDOM_GENERATE makes requests of at most 64 KiB, the first with a reseed under PR; with
the last byte the job has its output, in RESULT for the inline form. ENTROPY_STATUS gives the source, the DRBG, the pairs in use
and the policy. (Under R448, R462, R463, which say more than is stated here.) -/
def Obligations.CipherHashAndRandomJobsRun : Prop :=
  (∀ (h : Fin 16) (j : Fin 2048) (inp : Dma) (s : State) (jb : Job) (b : Bytes), AtRun s h j 0x0201 jb → InputIs s jb inp b →
    dPtr jb.desc = true →
    exec (.encrypt h j inp) s = .next (afterRun h j b
      { status := (cipherRun (cipherJobOf jb false) b).status, out := (cipherRun (cipherJobOf jb false) b).out } s)) ∧
  (∀ (h : Fin 16) (j : Fin 2048) (inp : Dma) (s : State) (jb : Job) (b : Bytes), AtRun s h j 0x0201 jb → InputIs s jb inp b →
    dPtr jb.desc = false →
    exec (.encrypt h j inp) s = .next (afterRun h j b
      { result := some (padTo 16 (cipherRun { alg := (key0 jb).attr.alg, mode := mECB, dec := false, k1 := (key0 jb).mat } b).out) } s)) ∧
  (∀ (h : Fin 16) (j : Fin 2048) (inp : Dma) (s : State) (jb : Job) (b : Bytes), AtRun s h j 0x0202 jb → InputIs s jb inp b →
    exec (.decrypt h j inp) s = .next (wipeFailed h j (if dPtr jb.desc then cipherOut jb.desc true else 0)
      (afterRun h j b (runCipher true s jb b) s))) ∧
  (∀ (h : Fin 16) (j : Fin 2048) (inp : Dma) (s : State) (jb : Job) (b : Bytes), AtRun s h j 0x0301 jb → InputIs s jb inp b →
    exec (.hash h j inp) s = .next (afterRun h j b { out := hashRun (dParam jb.desc) 0 b } s)) ∧
  (∀ (h : Fin 16) (j : Fin 2048) (inp : Dma) (s : State) (jb : Job) (b : Bytes), AtRun s h j 0x0302 jb → InputIs s jb inp b →
    exec (.xof h j inp) s = .next (afterRun h j b { out := hashRun (dParam jb.desc) (dOutLen jb.desc) b } s)) ∧
  (∀ (h : Fin 16) (j : Fin 2048) (inp : Dma) (s : State) (jb : Job) (b : Bytes), AtRun s h j 0x0303 jb → InputIs s jb inp b →
    exec (.macGenerate h j inp) s = .next (afterRun h j b
      (if dPtr jb.desc then { out := jobMac jb b } else { result := some (padTo 16 (jobMac jb b)) }) s)) ∧
  (∀ (h : Fin 16) (j : Fin 2048) (inp : Dma) (s : State) (jb : Job) (b : Bytes), AtRun s h j 0x0304 jb → InputIs s jb inp b →
    dPtr jb.desc = false →
    exec (.macVerify h j inp) s = .next (afterRun h j b
      (let t := macTagLen (dParam jb.desc) (isTdes (key0 jb).attr.alg)
       if jobMac jb (b.take (b.length - t)) = slice (b.drop (b.length - t)) 0 t then {} else { status := stTagMismatch }) s)) ∧
  (∀ (h : Fin 16) (j : Fin 2048) (inp : Dma) (s : State) (jb : Job) (b : Bytes), AtRun s h j 0x0304 jb → InputIs s jb inp b →
    dPtr jb.desc = true →
    exec (.macVerify h j inp) s = .next (afterRun h j b
      (if jobMac jb (b.drop (macHead jb.desc)) =
          slice (qTag jb.desc ++ b.take (macHead jb.desc)) 0 (macTagLen (dParam jb.desc) (isTdes (key0 jb).attr.alg))
        then {} else { status := stTagMismatch }) s)) ∧
  (∀ (h : Fin 16) (j : Fin 2048) (s t : State) (jb : Job) (n : Nat) (b : Bytes), AtRun s h j 0x0601 jb →
    n = (if dPtr jb.desc then dOutLen jb.desc else dParam jb.desc % 32) →
    drbgLower h (min 65536 (n - jb.rand.length)) ((dParam jb.desc).testBit 8 && jb.rand.isEmpty) s = some (b, t) →
    (n ≤ (jb.rand ++ b).length →
      exec (.randomGenerate h j) s = .next (ran h j (fun x =>
        { x with status := stOK, rand := [], outData := if dPtr jb.desc then jb.rand ++ b else [],
                 result := if dPtr jb.desc then [] else padTo 16 (jb.rand ++ b), hasResult := !dPtr jb.desc }) t)) ∧
    ((jb.rand ++ b).length < n →
      exec (.randomGenerate h j) s = .next (t.modJob h j (fun x => { x with rand := jb.rand ++ b })))) ∧
  (∀ (h : Fin 16) (j : Fin 2048) (s : State) (jb : Job), AtRun s h j 0x0602 jb →
    exec (.entropyStatus h j) s = .next (afterRun h j []
      { result := some ([byte (s.H h).ent.source.code, byte (s.H h).ent.drbg.code, byte (pairsOk (s.H h).ent),
          byte (s.rd (entPage h) Reg.ENT_CTRL_POLICY)] ++ zeros 12) } s))

/-- The public-key opcodes. CLEAR_OPERANDS clears the engine it holds, and takes the next one whose last holder is the VF's
owner once that is free; after the last one it ends. (Under R347 to R355, R363, R368, R381, which say more than is stated here.)
-/
def Obligations.PublicKeyJobsRun : Prop :=
  (∀ (h : Fin 16) (j : Fin 2048) (inp : Dma) (s : State) (jb : Job) (b : Bytes), AtRun s h j 0x0401 jb → InputIs s jb inp b →
    exec (.pkSign h j inp) s = .next (afterRun h j b
      (ofPk (pkSign (key0 jb).attr.alg (key0 jb).attr.bits (key0 jb).mat (dParam jb.desc) jb.rand (attemptLimit s h jb) b)) s)) ∧
  (∀ (h : Fin 16) (j : Fin 2048) (inp : Dma) (s : State) (jb : Job) (b : Bytes), AtRun s h j 0x0402 jb → InputIs s jb inp b →
    exec (.pkVerify h j inp) s = .next (afterRun h j b (runVerify s jb b) s)) ∧
  (∀ (h : Fin 16) (j : Fin 2048) (s : State) (jb : Job), AtRun s h j 0x0403 jb →
    exec (.pkPublic h j) s = .next (afterRun h j []
      { out := publicKey (key0 jb).attr.alg (key0 jb).attr.bits (key0 jb).mat } s)) ∧
  (∀ (h : Fin 16) (j : Fin 2048) (inp : Dma) (s : State) (jb : Job) (b : Bytes), AtRun s h j 0x0404 jb → InputIs s jb inp b →
    exec (.keyAgree h j inp) s = .next (afterRun h j b (pkKey h s jb (pkAgree (key0 jb).attr.alg (key0 jb).mat b)) s)) ∧
  (∀ (h : Fin 16) (j : Fin 2048) (inp : Dma) (s : State) (jb : Job) (b : Bytes), AtRun s h j 0x0405 jb → InputIs s jb inp b →
    exec (.kemEncaps h j inp) s = .next (afterRun h j b
      (pkKey h s jb (pkEncaps ((kemSetOf b.length).getD 512) b jb.rand)) s)) ∧
  (∀ (h : Fin 16) (j : Fin 2048) (inp : Dma) (s : State) (jb : Job) (b : Bytes), AtRun s h j 0x0406 jb → InputIs s jb inp b →
    exec (.kemDecaps h j inp) s = .next (afterRun h j b
      (pkKey h s jb (pkDecaps (key0 jb).attr.bits (key0 jb).mat b)) s)) ∧
  (∀ (h : Fin 16) (j : Fin 2048) (inp : Dma) (s : State) (jb : Job) (b : Bytes), AtRun s h j 0x0407 jb → InputIs s jb inp b →
    exec (.rsaOaepImport h j inp) s = .next (afterRun h j b (runOaep h s jb b) s)) ∧
  (∀ (h : Fin 16) (j : Fin 2048) (s t : State) (jb x : Job), AtRun s h j 0x04F0 jb →
    (jb.units = [] ∧ t = s ∧ x = jb ∨
      ∃ u, jb.units.head? = some u ∧ t = clearUnit h j u jb s ∧ t.job? h j = some x) →
    (nextClear t h x = none → exec (.clearOperands h j) s = .next (ran h j (fun y => { y with status := stOK }) t)) ∧
    (∀ u, nextClear t h x = some u → unitFree t h u = true →
      exec (.clearOperands h j) s =
        .next ((takeUnits h j x.vf (fun _ _ => false) [u] t).modJob h j (fun y => { y with units := [u] }))) ∧
    (∀ u, nextClear t h x = some u → unitFree t h u = false → exec (.clearOperands h j) s = .next t))

/-- The payment opcodes. A passed function answers in RESULT; a failed verification gives VERIFY_FAILED with the hob result code
in RESULT bytes 0 and 1 (R295). (Under R290 to R325, which say more than is stated here.) -/
def Obligations.PaymentJobsRun : Prop :=
  (∀ (h : Fin 16) (j : Fin 2048) (s : State) (jb : Job), AtRun s h j 0x0501 jb →
    exec (.pinTranslate h j) s = .next (afterRun h j [] (ofHob
      (pinRun 0x0501 (dParam jb.desc) (dOperands jb.desc) jb.latch (key0 jb).mat (key1 jb).mat jb.rand)) s)) ∧
  (∀ (h : Fin 16) (j : Fin 2048) (s : State) (jb : Job), AtRun s h j 0x0502 jb →
    exec (.pinVerify h j) s = .next (afterRun h j [] (ofHob
      (pinRun 0x0502 (dParam jb.desc) (dOperands jb.desc) jb.latch (key0 jb).mat (key1 jb).mat jb.rand)) s)) ∧
  (∀ (h : Fin 16) (j : Fin 2048) (s : State) (jb : Job), AtRun s h j 0x0503 jb →
    exec (.pinValueCalc h j) s = .next (afterRun h j [] (ofHob
      (pinRun 0x0503 (dParam jb.desc) (dOperands jb.desc) jb.latch (key0 jb).mat (key1 jb).mat jb.rand)) s)) ∧
  (∀ (h : Fin 16) (j : Fin 2048) (s : State) (jb : Job), AtRun s h j 0x0510 jb →
    exec (.cardValueGenerate h j) s = .next (afterRun h j [] (ofHob (cardRun 0x0510 (dOperands jb.desc) (key0 jb).mat)) s)) ∧
  (∀ (h : Fin 16) (j : Fin 2048) (s : State) (jb : Job), AtRun s h j 0x0511 jb →
    exec (.cardValueVerify h j) s = .next (afterRun h j [] (ofHob (cardRun 0x0511 (dOperands jb.desc) (key0 jb).mat)) s)) ∧
  (∀ (h : Fin 16) (j : Fin 2048) (inp : Dma) (s : State) (jb : Job) (b : Bytes), AtRun s h j 0x0520 jb → InputIs s jb inp b →
    exec (.payMacGenerate h j inp) s = .next (afterRun h j b (ofHob
      (payMacRun 0x0520 (dParam jb.desc) (dParams jb.desc) b (key0 jb).attr (key0 jb).mat)) s)) ∧
  (∀ (h : Fin 16) (j : Fin 2048) (inp : Dma) (s : State) (jb : Job) (b : Bytes), AtRun s h j 0x0521 jb → InputIs s jb inp b →
    exec (.payMacVerify h j inp) s = .next (afterRun h j b (ofHob
      (payMacRun 0x0521 (dParam jb.desc) (dParams jb.desc) b (key0 jb).attr (key0 jb).mat)) s)) ∧
  (∀ (h : Fin 16) (j : Fin 2048) (inp : Dma) (s : State) (jb : Job) (b : Bytes), AtRun s h j 0x0530 jb → InputIs s jb inp b →
    exec (.emvCryptogram h j inp) s = .next (afterRun h j b (ofHob
      (emvRun (dParam jb.desc) (dParams jb.desc) b (key0 jb).attr (key0 jb).mat)) s))

/-- What the run of a job's function leaves alone, for a job that holds units. Its entry holds what the function gave, in shares
that combine to it; its keys keep their values whatever shares are added. Beside the entry only the mask generator and the marks
of the units it holds change, and operand memory. (Under R171, R232 to R234, R345, which say more than is stated here.) -/
def Obligations.JobFunctionFrame : Prop :=
  ∀ (s : State) (h j : Nat) (jb : Job) (b : Bytes) (r : Ran), s.job? h j = some jb → jb.units ≠ [] →
    (afterRun h j b r s).regs = s.regs ∧ (afterRun h j b r s).flue = s.flue ∧ (afterRun h j b r s).chim = s.chim ∧
    (afterRun h j b r s).out = s.out ∧ (afterRun h j b r s).variant = s.variant ∧ (afterRun h j b r s).pending = s.pending ∧
    (∀ k, k ≠ h → (afterRun h j b r s).H k = s.H k) ∧
    (∀ i, i ≠ j → (afterRun h j b r s).job? h i = s.job? h i) ∧
    (∃ x, (afterRun h j b r s).job? h j = some x ∧ x.ran = true ∧ x.status = r.status ∧ x.leave.outData = r.out ∧
      x.leave.result = r.result.getD [] ∧ x.hasResult = r.result.isSome ∧ x.newKey = r.newKey ∧ x.ddrOut = r.ddrOut ∧
      x.attempts = r.attempts ∧ x.state = jb.state ∧ x.vf = jb.vf ∧ x.desc = jb.desc ∧ x.units = jb.units ∧
      x.keys.map (fun k => { k with parts := [k.mat] }) = jb.keys.map (fun k => { k with parts := [k.mat] }) ∧
      unshare x.inShares = b) ∧
    (∀ u, ∃ g l, (afterRun h j b r s).eng h u = { s.eng h u with mg := g, left := l } ∧
      (u ∉ jb.units → (afterRun h j b r s).eng h u = s.eng h u)) ∧
    { (afterRun h j b r s).H h with jobs := [], engines := [], opmem := [] } =
      { s.H h with jobs := [], engines := [], opmem := [] }

/-- A world takes a free engine lock under its own identity, reserves a held one, and releases its own; the outer world takes no
engine that has failed its test. (Under R250 to R256, which say more than is stated here.) The scrub of an owner change ends; a
big-number engine clears its operand memory and its tags before its new holder may use it. (Under R257, R258, R380, which say
more than is stated here.) -/
def Obligations.EngineLocksAndScrubs : Prop :=
  (∀ (h u : Fin 16) (who : Requester) (data : Word) (s w : State), s.answers h = true → w = wakeHearth h s →
    isInner who = true ∧ data.toNat % 65536 = 0xFFF1 ∨ isOuter who = true ∧ data.toNat % 65536 = 0xFFF2 →
    (w.eng h u).scrubbing = false → w.blockRun h u = true → (w.eng h u).katPending = false → (w.eng h u).katRunning = false →
    (w.eng h u).holder = 0 → (w.eng h u).offline = false ∨ isInner who = true →
    exec (.pageLockWrite h u who data) s = .next (w.modEng h u (fun e =>
      { e with owner := data.toNat % 65536, holder := if isInner who then 2 else 3, lastOwner := data.toNat % 65536,
               scrubbing := e.lastOwner != data.toNat % 65536, clearing := false }))) ∧
  (∀ (h u : Fin 16) (who : Requester) (data : Word) (s w : State), s.answers h = true → w = wakeHearth h s →
    isInner who = true ∧ data.toNat % 65536 = 0xFFF1 ∨ isOuter who = true ∧ data.toNat % 65536 = 0xFFF2 →
    (w.eng h u).scrubbing = false → w.blockRun h u = true → (w.eng h u).katPending = false → (w.eng h u).katRunning = false →
    (w.eng h u).holder ≠ 0 → (w.eng h u).holder ≠ (if isInner who then 2 else 3) → (w.eng h u).reservedBy = 0 →
    exec (.pageLockWrite h u who data) s = .next (w.modEng h u (fun e => { e with reservedBy := if isInner who then 2 else 3 }))) ∧
  (∀ (h u : Fin 16) (who : Requester) (data : Word) (s w : State), s.answers h = true → w = wakeHearth h s →
    isInner who = true ∨ isOuter who = true → data.toNat % 65536 = 0 → (w.eng h u).scrubbing = false →
    (w.eng h u).holder = (if isInner who then 2 else 3) → (w.eng h u).busy = false →
    exec (.pageLockWrite h u who data) s = .next (handOver h u (w.modEng h u (fun e =>
      { e with owner := 0, holder := 0, relPending := false, keysLoaded := false, job := none })))) ∧
  (∀ (h u : Fin 16) (who : Requester) (data : Word) (s w : State), s.answers h = true → w = wakeHearth h s →
    isInner who = false → isOuter who = false →
    exec (.pageLockWrite h u who data) s =
      .next (capture (pgU h u) who 0x00C data.toNat (data.toNat % 65536) false 0x8 w)) ∧
  (∀ (h : Fin 16) (u : Fin 20) (s : State), (s.eng h u).scrubbing = true → isBurner u = false → isBn u = false →
    exec (.lockScrubDone h u) s = .next (clearIvTag h u (s.modEng h u (fun e => { e with keysLoaded := false, scrubbing := false })))) ∧
  (∀ (h : Fin 16) (u : Fin 20) (s : State), (s.eng h u).scrubbing = true → isBn u = true →
    exec (.lockScrubDone h u) s = .next (s.modEng h u (fun e => { e with keysLoaded := false, clearing := true }))) ∧
  (∀ (h : Fin 16) (n : Fin 4) (s : State), (s.eng h (12 + n)).clearing = true → (s.eng h (12 + n)).scrubbing = true →
    ∃ t, exec (.operandClearDone h n) s = .next t ∧
      (∀ line, line < 2048 → opLine t h n line = {}) ∧
      (∀ k line, k < 4 → k ≠ n.val → line < 2048 → opLine t h k line = opLine s h k line) ∧
      (∃ l, t.eng h (12 + n) = { s.eng h (12 + n) with clearing := false, scrubbing := false, left := l } ∧ ∀ p ∈ l, 16 ≤ p.1) ∧
      t.regs = s.regs ∧ t.flue = s.flue ∧ t.chim = s.chim ∧ t.out = s.out ∧ (∀ k, k ≠ h.val → t.H k = s.H k)) ∧
  (∀ (h : Fin 16) (n : Fin 4) (s : State), (s.eng h (12 + n)).clearing = true → (s.eng h (12 + n)).scrubbing = false →
    exec (.operandClearDone h n) s = .next (s.modEng h (12 + n) (fun e => { e with clearing := false, scrubbing := false })))

/-- START by the holder of the lock starts the job its registers describe, and a failed check gives DONE with the status in
CODE; CLEAR clears the regions that BN_CLEAR names. (Under R260 to R263, R383 to R387, which say more than is stated here.) The
window reads a public word, reads zero from a SECRET line and captures the read, zeroes a SECRET line before a write; an access
of the upper half advances WORD. (Under R346, R386, which say more than is stated here.) -/
def Obligations.DirectUse : Prop :=
  (∀ (h : Fin 16) (n : Fin 8) (who : Requester) (s w : State) (vs : List KeyView), s.answers h = true → w = wakeHearth h s →
    holderFault w h n who = none → (w.eng h n).busy = false → (w.eng h n).clearing = false →
    symKeys w h n (isOuter who) = .ok vs →
    exec (.ceStart h n who) s = .next (startDirect h n (symDesc w h n) vs w)) ∧
  (∀ (h : Fin 16) (n : Fin 4) (who : Requester) (s w : State) (vs : List KeyView), s.answers h = true → w = wakeHearth h s →
    holderFault w h (8 + n) who = none → (w.eng h (8 + n)).busy = false → (w.eng h (8 + n)).clearing = false →
    symKeys w h (8 + n) (isOuter who) = .ok vs →
    exec (.heStart h n who) s = .next (startDirect h (8 + n) (symDesc w h (8 + n)) vs w)) ∧
  (∀ (h : Fin 16) (n : Fin 4) (who : Requester) (s w : State) (vs : List KeyView), s.answers h = true → w = wakeHearth h s →
    holderFault w h (12 + n) who = none → (w.eng h (12 + n)).busy = false → (w.eng h (12 + n)).clearing = false →
    bnKeys w h n (isOuter who) = .ok vs →
    exec (.bnStart h n who) s = .next (startDirect h (12 + n) (bnDesc w h n) vs w)) ∧
  (∀ (h : Fin 16) (n : Fin 8) (who : Requester) (s w : State) (st : Nat), s.answers h = true → w = wakeHearth h s →
    holderFault w h n who = none → (w.eng h n).busy = false → (w.eng h n).clearing = false →
    symKeys w h n (isOuter who) = .error st →
    exec (.ceStart h n who) s = .next ((w.wr (pgU h n) Reg.CE_STATUS_CODE st).wr (pgU h n) Reg.CE_STATUS_DONE 1)) ∧
  (∀ (h : Fin 16) (n : Fin 4) (who : Requester) (s w : State), s.answers h = true → w = wakeHearth h s →
    holderFault w h (12 + n) who = none → (w.eng h (12 + n)).busy = false → (w.eng h (12 + n)).clearing = false →
    exec (.bnClear h n who) s = .next
      (((List.range 16).foldl (fun s r => if (w.rd (pgU h (12 + n)) Reg.BN_CLEAR_REGIONS).testBit r then clearLines h n (128 * r) 128 s else s)
        w).modEng h (12 + n) (fun e => { e with clearing := true }))) ∧
  (∀ (h : Fin 16) (n : Fin 4) (who : Requester) (s w : State) (p : Page) (a : Nat), s.answers h = true → w = wakeHearth h s →
    p = pgU h (12 + n) → a = w.rd p Reg.BN_WIN_ADDR_WORD → holderFault w h (12 + n) who = none → (w.eng h (12 + n)).busy = false →
    (w.eng h (12 + n)).clearing = false → (opLine w h n (a / 8)).secret = false →
    exec (.bnWindowAccess h n who false none) s =
      .next (w.emit (.readData (slice (opLine w h n (a / 8)).data (a % 8 * 8) 4))) ∧
    exec (.bnWindowAccess h n who true none) s =
      .next ((w.emit (.readData (slice (opLine w h n (a / 8)).data (a % 8 * 8 + 4) 4))).wr p Reg.BN_WIN_ADDR_WORD (a + 1))) ∧
  (∀ (h : Fin 16) (n : Fin 4) (who : Requester) (s w : State) (p : Page) (a : Nat), s.answers h = true → w = wakeHearth h s →
    p = pgU h (12 + n) → a = w.rd p Reg.BN_WIN_ADDR_WORD → holderFault w h (12 + n) who = none → (w.eng h (12 + n)).busy = false →
    (w.eng h (12 + n)).clearing = false → (opLine w h n (a / 8)).secret = true →
    exec (.bnWindowAccess h n who false none) s =
      .next ((capture p who 0x080 0 (reqIdentity who) true 0xD w).emit (.readData (zeros 4)))) ∧
  (∀ (h : Fin 16) (n : Fin 4) (who : Requester) (data : Word) (s w : State) (p : Page) (a : Nat), s.answers h = true →
    w = wakeHearth h s → p = pgU h (12 + n) → a = w.rd p Reg.BN_WIN_ADDR_WORD → holderFault w h (12 + n) who = none →
    (w.eng h (12 + n)).busy = false → (w.eng h (12 + n)).clearing = false →
    exec (.bnWindowAccess h n who false (some data)) s = .next (putLine h n (a / 8)
      { data := (if (opLine w h n (a / 8)).secret then zeros 64 else slice (opLine w h n (a / 8)).data 0 64).take (a % 8 * 8)
          ++ toLe 4 data.toNat
          ++ (if (opLine w h n (a / 8)).secret then zeros 64 else slice (opLine w h n (a / 8)).data 0 64).drop (a % 8 * 8 + 4),
        secret := false } w))

/-- A known-answer test is requested, started in an entry of the inner world under the identity 0xFFF0, and ends. A failed unit
leaves rotation with its event; a pass returns one that is out only where the test came from KAT_REQ (or from the hearth's
reset). (Under R18, R270 to R278, R336 to R338, R390, which say more than is stated here.) A mask generator asks for its next
seed, holds it in its shadow, switches to it when it is due, rekeys itself from its own output in grace under the lenient policy
for at most 16 periods, and stops otherwise, with the masked job on its engine. The first seed of the hearth is the key cache's
(R439). (Under R239 to R244, which say more than is stated here.) -/
def Obligations.EngineMaintenance : Prop :=
  (∀ (h : Fin 16) (u : Fin 20) (who : Requester) (s w : State), s.answers h = true → w = wakeHearth h s →
    (w.eng h u).scrubbing = false →
    (mgrOrInner who = true → (w.eng h u).katRunning = false → w.blockState h u ≠ 2 →
      exec (.katReq h u who) s = .next (w.modEng h u (fun e =>
        { e with katPending := true, katReturns := true, reservedBy := if e.reservedBy = 3 then 0 else e.reservedBy }))) ∧
    (mgrOrInner who = false → exec (.katReq h u who) s =
      .next (refuse (pgU h u) who 0x040 (if isBurner u then 2 ^ (4 + unitNo u) else 2) 0x8 w))) ∧
  (∀ (h : Fin 16) (u : Fin 20) (s : State), s.up h = true → katPeriod s h u ≠ 0 →
    (s.eng h u).katRunning = false → s.blockState h u ≠ 2 →
    exec (.katPeriodExpiry h u) s = .next (s.modEng h u (fun e =>
      { e with katPending := true, reservedBy := if e.reservedBy = 3 then 0 else e.reservedBy }))) ∧
  (∀ (h : Fin 16) (u : Fin 20) (s : State), s.up h = true → (s.eng h u).katPending = true → (s.eng h u).holder = 0 →
    (s.eng h u).busy = false → (s.eng h u).turnover = false → mgReady (s.eng h u) = true →
    (isBurner u = true → ∀ v ∈ [16, 17, 18, 19], (s.eng h v).katRunning = false) → s.blockState h u = 0 ∨ s.blockState h u = 3 →
    ((s.H h).inner.lowestFree hostEntries 2048).isSome = true →
    exec (.katStart h u) s = .next (noteJobs h (((takeLock h u 1 0xFFF0 s).modEng h u (fun e =>
      { e with katPending := false, katRunning := true, gated := false })).modH h (fun x => addInner x (.kat u))))) ∧
  (∀ (h : Fin 16) (u : Fin 20) (s : State), (s.eng h u).katRunning = true → (s.eng h u).scrubbing = false →
    exec (.katDone h u true) s = .next (fillInner h (releaseLock h u (s.modEng h u (fun e =>
      { e with katRunning := false, katReturns := false, offline := e.offline && !e.katReturns,
               turnover := isBurner u }))))) ∧
  (∀ (h : Fin 16) (u : Fin 20) (s t : State), (s.eng h u).katRunning = true → (s.eng h u).scrubbing = false →
    t = errCtr h 208 (fillInner h (releaseLock h u (s.modEng h u (fun e =>
      { e with katRunning := false, katReturns := false, offline := true, turnover := isBurner u })))) →
    exec (.katDone h u false) s = .next (raiseH h (if isBurner u then evHobKatFail else evKatFail) (pgU h u)
      { inst := unitNo u, payload := captureBytes (pgU h u) t } t)) ∧
  (∀ (h : Fin 16) (u : Fin 20) (s : State), s.up h = true → (s.eng h u).mg.seeded = true → (s.eng h u).mg.stalled = false →
    (s.eng h u).mg.prefetched = true →
    exec (.mgReseedDue h u) s = .next (s.modEng h u (fun e =>
      { e with mg := { e.mg with key := e.mg.shadow.take 32, start := slice e.mg.shadow 32 16, given := 0, seeded := true, shadow := [],
                                 prefetched := false, grace := 0, requested := false } }))) ∧
  (∀ (h : Fin 16) (u : Fin 20) (s : State), s.up h = true → (s.eng h u).mg.seeded = true → (s.eng h u).mg.stalled = false →
    (s.eng h u).mg.prefetched = false → s.rd (entPage h) Reg.ENT_CTRL_POLICY ≠ 0 → (s.eng h u).mg.grace < 16 →
    exec (.mgReseedDue h u) s = .next
      (let t := s.modEng h u (fun e => { e with mg := { (e.mg.draw 48).2.seed (e.mg.draw 48).1 with grace := (e.mg.draw 48).2.grace + 1 } })
       if (s.eng h u).mg.grace = 0 then raiseH h evMgGrace (pgU h u) { inst := unitNo u, payload := captureBytes (pgU h u) s } t else t)) ∧
  (∀ (h : Fin 16) (u : Fin 20) (s : State), s.up h = true → (s.eng h u).mg.seeded = true → (s.eng h u).mg.stalled = false →
    (s.eng h u).mg.prefetched = false → s.rd (entPage h) Reg.ENT_CTRL_POLICY = 0 ∨ 16 ≤ (s.eng h u).mg.grace →
    exec (.mgReseedDue h u) s = .next (raiseH h evMgStall (pgU h u) { inst := unitNo u, payload := captureBytes (pgU h u) s }
      (errCtr h 207 (s.modEng h u (fun e =>
        { e with mg := { e.mg with stalled := true }, paused := e.paused || masksNow s h u }))))) ∧
  (∀ (h : Fin 16) (u : Fin 20) (s : State), s.up h = true → (s.eng h u).mg.prefetched = false →
    exec (.mgPrefetch h u) s = .next (s.modEng h u (fun e => { e with mg := { e.mg with requested := true } }))) ∧
  (∀ (h : Fin 16) (u : Fin 20) (s t r : State) (b : Bytes), s.up h = true → s.blockState h u ≠ 2 →
    (s.eng h u).mg.seeded = false ∨ (s.eng h u).mg.stalled = true ∨
      (s.eng h u).mg.requested = true ∧ (s.eng h u).mg.prefetched = false →
    ((s.H h).cacheMg.seeded = true ∧ t = s ∨ (s.H h).cacheMg.seeded = false ∧
      ∃ c t', drbgRequest h 48 false s = some (c, t') ∧ t = t'.modH h (fun x => { x with cacheMg := x.cacheMg.seed c })) →
    drbgRequest h 48 false t = some (b, r) →
    exec (.mgSeedArrival h u) s = .next (r.modEng h u (fun e =>
      if mgReady e = false then
        { e with mg := { e.mg.seed b with stalled := false, grace := 0 }, paused := false, streamed := e.streamed || e.busy }
      else { e with mg := { e.mg with shadow := b, prefetched := true, requested := false } })))

/-- The mode of the stoker and of the hob, the PIN failure count and a decimalisation table, as written by PF0 or the inner
world; another writer is refused and captured. BATCH gates the idle burners, LATENCY releases the held jobs and wakes them.
(Under R25 to R28, R305, R312, R330 to R332, which say more than is stated here.) -/
def Obligations.StokerAndHobRegisters : Prop :=
  (∀ (h : Fin 16) (who : Requester) (data : Word) (s w : State), s.answers h = true → w = wakeHearth h s → mgrOrInner who = true →
    data.toNat % 4 ≠ 3 →
    exec (.stkModeWrite h who data) s = .next (setFields (pgH .stoker h) [(Reg.STK_CTRL_MODE, data.toNat % 4)] w)) ∧
  (∀ (h : Fin 16) (who : Requester) (data : Word) (s w : State), s.answers h = true → w = wakeHearth h s → mgrOrInner who = false →
    exec (.stkModeWrite h who data) s = .next (refuse (pgH .stoker h) who 0x040 data.toNat 0x8 w)) ∧
  (∀ (h : Fin 16) (who : Requester) (data : Word) (s w : State), s.answers h = true → w = wakeHearth h s → w.variant.hob = true →
    mgrOrInner who = true → data.toNat % 4 = 2 → w.rd (pgH .hob h) Reg.HOB_CTRL_MODE ≠ 2 →
    exec (.hobModeWrite h who data) s = .next (gateBurners h (setFields (pgH .hob h) [(Reg.HOB_CTRL_MODE, 2)] w))) ∧
  (∀ (h : Fin 16) (who : Requester) (data : Word) (s w : State), s.answers h = true → w = wakeHearth h s → w.variant.hob = true →
    mgrOrInner who = true → data.toNat % 4 = 1 → w.rd (pgH .hob h) Reg.HOB_CTRL_MODE ≠ 1 →
    exec (.hobModeWrite h who data) s = .next (releaseHob h (setFields (pgH .hob h) [(Reg.HOB_CTRL_MODE, 1)] w))) ∧
  (∀ (h : Fin 16) (who : Requester) (data : Word) (s w : State), s.answers h = true → w = wakeHearth h s → w.variant.hob = true →
    mgrOrInner who = true → data.toNat % 4 = 0 ∨ data.toNat % 4 = 3 → w.rd (pgH .hob h) Reg.HOB_CTRL_MODE ≠ data.toNat % 4 →
    exec (.hobModeWrite h who data) s = .next (refuse (pgH .hob h) who 0x040 data.toNat 0xB w)) ∧
  (∀ (h : Fin 16) (who : Requester) (s w : State), s.answers h = true → w = wakeHearth h s → w.variant.hob = true →
    mgrOrInner who = true →
    exec (.pinfailClr h who) s =
      .next ((w.wr (pgH .hob h) Reg.HOB_PINFAIL_COUNT 0).modH h (fun x => { x with pinArmed := true }))) ∧
  (∀ (h : Fin 16) (n : Fin 4) (who : Requester) (data : Word) (s w : State) (es : List Nat), s.answers h = true → w = wakeHearth h s →
    w.variant.hob = true → mgrOrInner who = true → data.toNat % 2 = 1 →
    es = (List.range 16).map (fun i =>
      bits (w.rd (pgH .hob h) (Reg.DT_LO_ENTRIES_LO n) + w.rd (pgH .hob h) (Reg.DT_HI_ENTRIES_HI n) * 2 ^ 32) (4 * i) 4) →
    (∀ e ∈ es, e ≤ 9) → (∀ d, d < 10 → d ∈ es) →
    exec (.dtValidWrite h n who data) s = .next (setFields (pgH .hob h) [(Reg.DT_CTRL_VALID n, 1)] w)) ∧
  (∀ (h : Fin 16) (n : Fin 4) (who : Requester) (data : Word) (s w : State) (es : List Nat), s.answers h = true → w = wakeHearth h s →
    w.variant.hob = true → mgrOrInner who = true → data.toNat % 2 = 1 →
    es = (List.range 16).map (fun i =>
      bits (w.rd (pgH .hob h) (Reg.DT_LO_ENTRIES_LO n) + w.rd (pgH .hob h) (Reg.DT_HI_ENTRIES_HI n) * 2 ^ 32) (4 * i) 4) →
    (∃ e ∈ es, 9 < e) ∨ (∃ d, d < 10 ∧ d ∉ es) →
    exec (.dtValidWrite h n who data) s = .next (refuse (pgH .hob h) who (0x088 + 16 * n) data.toNat 0xB w))

/-- The group control opcodes, from a VF's job or from PF0. GROUP_OPEN answers the next GROUP_ID and opens an empty group, for a
gang also a member of it; GROUP_COMMIT seals the group of a full count and waits, and of a smaller count rolls it back with
STATE_CONFLICT for itself; GROUP_ABORT starts the rollback and waits; GROUP_QUERY answers the state, the actions, the journal
entries and the held bytes. (Under R398 to R400, R404 to R408, R412, which say more than is stated here.) GROUP_EVENT of a VF's
job that has joined its group is HELD at once; of PF0 it joins the group, which keeps its payload for the audit record. (Under
R402, R403, which say more than is stated here.) -/
def Obligations.GroupControl : Prop :=
  (∀ (src : GroupSrc) (s : State) (h : Nat) (vf : Option Nat) (d : Bytes) (ref : CtlRef) (id : Nat),
    CtlAt s 0x0701 h vf d ref src → (s.H h).groups.length < 32 → journalTotal (s.H h) < 1024 → byteAt (dOperands d) 0 = 0 →
    id = nextGroupId (s.H h) 33 (s.H h).nextGroup →
    exec (.groupOpen src) s = .next (ctlDone stOK (toLe 2 id) ((ctlFrom s src).modH h (fun x =>
      { x with groups := x.groups.put id { vf := vf }, nextGroup := if 0xFFFF ≤ id then 1 else id + 1 })) src)) ∧
  (∀ (src : GroupSrc) (s : State) (h : Nat) (vf : Option Nat) (d : Bytes) (ref : CtlRef) (id st parts tag : Nat),
    CtlAt s 0x0701 h vf d ref src → (s.H h).groups.length < 32 → journalTotal (s.H h) < 1024 → byteAt (dOperands d) 0 ≠ 0 →
    id = nextGroupId (s.H h) 33 (s.H h).nextGroup → st = byteAt (dOperands d) 2 → parts = fieldLe (dOperands d) 4 2 →
    tag = fieldLe (dOperands d) 8 4 → memberFits s h vf st parts = true → s.gang? st tag = none → s.decision? 2 st tag = none →
    s.flue.gangs.length < 64 →
    exec (.groupOpen src) s = .next (ctlDone stOK (toLe 2 id) (((ctlFrom s src).modFlue (fun x =>
        { x with gangs := x.gangs ++ [{ stack := st, tag := tag, parts := parts, opened := 2 ^ h }] })).modH h (fun x =>
      { x with groups := x.groups.put id { vf := vf, gang := some ⟨st, tag, parts⟩ },
               nextGroup := if 0xFFFF ≤ id then 1 else id + 1 })) src)) ∧
  (∀ (src : GroupSrc) (s : State) (h : Nat) (vf : Option Nat) (d : Bytes) (ref : CtlRef) (g : Group),
    CtlAt s 0x0702 h vf d ref src → s.group? h (dGroup d) = some g → g.vf = vf → g.state = .opened → g.commit = none →
    g.actions.length ≤ fieldLe (dOperands d) 0 2 → g.gang = none →
    exec (.groupCommit src) s = .next (ctlWait h ((ctlFrom s src).modGroup h (dGroup d) (fun x =>
      { x with commit := some ref, count := some (fieldLe (dOperands d) 0 2),
               state := if x.state = .opened then .sealed else x.state })) src)) ∧
  (∀ (src : GroupSrc) (s : State) (h : Nat) (vf : Option Nat) (d : Bytes) (ref : CtlRef) (g : Group),
    CtlAt s 0x0702 h vf d ref src → s.group? h (dGroup d) = some g → g.vf = vf → g.state = .opened ∨ g.state = .doomed →
    g.commit = none → fieldLe (dOperands d) 0 2 < g.actions.length →
    exec (.groupCommit src) s = .next (ctlWait h ((startRollback h (dGroup d) (ctlFrom s src)).modGroup h (dGroup d) (fun x =>
      { x with commit := some ref, count := some (fieldLe (dOperands d) 0 2), commitStatus := stState })) src)) ∧
  (∀ (src : GroupSrc) (s : State) (h : Nat) (vf : Option Nat) (d : Bytes) (ref : CtlRef) (g : Group),
    CtlAt s 0x0703 h vf d ref src → s.group? h (dGroup d) = some g → g.vf = vf → g.state ≠ .committing →
    g.state ≠ .rollingBack → g.abort = none → decided s h (dGroup d) g = false →
    exec (.groupAbort src) s = .next (ctlWait h ((startRollback h (dGroup d) (ctlFrom s src)).modGroup h (dGroup d) (fun x =>
      { x with abort := some ref })) src)) ∧
  (∀ (src : GroupSrc) (s : State) (h : Nat) (vf : Option Nat) (d : Bytes) (ref : CtlRef) (g : Group),
    CtlAt s 0x0704 h vf d ref src → s.group? h (dGroup d) = some g → g.vf = vf →
    exec (.groupQuery src) s = .next (ctlDone stOK
      ([byte g.state.code, byte g.actions.length] ++ toLe 2 (journalUse g) ++ toLe 4 (groupHeld g)) (ctlFrom s src) src)) ∧
  (∀ (src : GroupSrc) (s : State) (h : Nat) (vf : Option Nat) (d : Bytes) (ref : CtlRef),
    (CtlAt s 0x0702 h vf d ref src → (∀ g, s.group? h (dGroup d) = some g → g.vf ≠ vf) →
      exec (.groupCommit src) s = .next (ctlDone stGroupUnknown [] (ctlFrom s src) src)) ∧
    (CtlAt s 0x0703 h vf d ref src → (∀ g, s.group? h (dGroup d) = some g → g.vf ≠ vf) →
      exec (.groupAbort src) s = .next (ctlDone stGroupUnknown [] (ctlFrom s src) src)) ∧
    (CtlAt s 0x0704 h vf d ref src → (∀ g, s.group? h (dGroup d) = some g → g.vf ≠ vf) →
      exec (.groupQuery src) s = .next (ctlDone stGroupUnknown [] (ctlFrom s src) src))) ∧
  (∀ (h : Fin 16) (j : Fin 2048) (s : State) (jb : Job), s.job? h j = some jb → s.works h = true → jb.state = .ready →
    dOp jb.desc = 0x0705 → fenceHolds s h j jb = false → jb.joined = true →
    exec (.groupEvent (.job h j)) s =
      .next (finishJob h j stOK (s.modJob h j (fun x => { x with ran := true, result := [], hasResult := false })))) ∧
  (∀ (q : Fin 4) (rd : AdminRead) (r : AdminReq) (s t : State) (h : Nat), AdminAt s 0x0705 q rd r →
    adminGroupHearth s rd.desc = some h → joinGroup h (dGroup rd.desc) (.admin r.key) none 1 false (adminFrom r s) = (t, .joined) →
    exec (.groupEvent (.admin q rd)) s = .next (adminHold r { r.held with group := dGroup rd.desc, hearth := h }
      (t.modGroup h (dGroup rd.desc) (fun g => g.modAction (.admin r.key) (fun a =>
        { a with held := true, event := some ((dOperands rd.desc).take (dInline rd.desc)) })))))

/-- A local group commits when it is sealed and every action is held, at once where no held update counts a slot on, and through
a decision record otherwise; a group that rolls back undoes every effect; a group idle for its limit is reported and rolls back.
(Under R394, R408 to R412, R427, R429, which say more than is stated here.) -/
def Obligations.LocalGroupsResolve : Prop :=
  (∀ (h : Fin 16) (g : BitVec 16) (s : State) (x : Group), s.group? h g.toNat = some x → s.works h = true → x.gang = none →
    x.complete = true → countedSlots x = [] →
    exec (.groupCommitApply h g) s = .next (applyGroup h g.toNat s)) ∧
  (∀ (h : Fin 16) (g : BitVec 16) (s t : State) (x : Group), s.group? h g.toNat = some x → s.works h = true → x.gang = none →
    x.complete = true → countedSlots x ≠ [] → s.decision? 1 h g.toNat = none →
    recordDecision 1 h g.toNat (2 ^ h.val) (groupOwner s x) [(h.val, countedSlots x)] [(h.val, x.actions.length)] s = some t →
    exec (.groupCommitApply h g) s = .next t) ∧
  (∀ (h : Fin 16) (g : BitVec 16) (s : State) (x : Group) (r : Nat) (d : Decision), s.group? h g.toNat = some x → s.works h = true →
    x.gang = none → x.complete = true → countedSlots x ≠ [] → s.decision? 1 h g.toNat = some (r, d) → d.state = 2 →
    exec (.groupCommitApply h g) s = .next (applyGroup h g.toNat s)) ∧
  (∀ (h : Fin 16) (g : BitVec 16) (s : State) (x : Group), s.group? h g.toNat = some x → s.works h = true → x.state = .rollingBack →
    exec (.groupRollback h g) s = .next (rollbackGroup h g.toNat s)) ∧
  (∀ (h : Fin 16) (g : BitVec 16) (s : State) (x : Group), s.group? h g.toNat = some x → s.works h = true → x.state = .opened →
    max 1 (s.rd (pgH .group h) Reg.GRP_CTRL_IDLE_LIMIT) ≤ x.idleMs → decided s h g.toNat x = false →
    exec (.groupIdleTimeout h g) s = .next (startRollback h g.toNat
      (raiseH h evGrpIdle (pgH .group h) { vf := g.toNat, owner := groupOwner s x } s)))

/-- What a commit and a rollback make of the keys that a group holds back: its inserts become VALID, an entry it marked for
eviction goes, its slot update stands in the slot table; at a rollback the inserts go, the marks are lifted and the uses are
returned. (Under R392, R410, which say more than is stated here.) -/
def Obligations.GroupEffects : Prop :=
  (∀ (h : Nat) (a : Action) (i : Nat) (e : KeyEntry) (s : State), 
    a.insert = some i → a.evict = none → a.slot = none → (s.H h).cache.find? i = some e → e.state = .pending →
    ((applyAction h a s).H h).cache.find? i = some { e with state := .valid } ∧
    (∀ k, k ≠ i → ((applyAction h a s).H h).cache.find? k = (s.H h).cache.find? k)) ∧
  (∀ (x : Hearth) (a : Action) (i : Nat), x.cache.sorted = true → a.insert = some i → a.evict = none → a.uses = [] →
    (undoAction x a).cache.find? i = none ∧ ∀ k, k ≠ i → (undoAction x a).cache.find? k = x.cache.find? k) ∧
  (∀ (x : Hearth) (a : Action) (i : Nat) (e : KeyEntry), a.insert = none → a.evict = some i → a.uses = [] →
    x.cache.find? i = some e →
    (undoAction x a).cache.find? i = some { e with marked := none } ∧
    ∀ k, k ≠ i → (undoAction x a).cache.find? k = x.cache.find? k) ∧
  (∀ (x : Hearth) (a : Action) (i : Nat) (e : KeyEntry), a.insert = none → a.evict = none → a.uses = [i] →
    x.cache.find? i = some e → (undoAction x a).cache.find? i = some { e with uses := e.uses - 1 })

/-- A complete member of a gang becomes PREPARED and votes, and the last vote writes the decision record; the prepare timer
aborts a gang that is PREPARING; the vault's acknowledgement commits it; each member then applies or rolls back. (Under R408,
R413, R414, R417 to R420, which say more than is stated here.) -/
def Obligations.GangsResolve : Prop :=
  (∀ (h : Fin 16) (g : BitVec 16) (s : State) (x : Group) (r : GangRef), s.group? h g.toNat = some x → x.gang = some r →
    s.flueUp = true → s.works h = true → x.complete = true →
    exec (.gangVote h g) s = .next (decideGang r (groupOwner s x)
      ((s.modGroup h g.toNat (fun y => { y with state := .prepared })).modGang r.stack r.tag
        (fun y => { y with votes := setBit y.votes h true })))) ∧
  (∀ (st : Fin 32) (tag : Word) (s : State) (x : Gang), s.gang? st tag.toNat = some x → s.flueUp = true → x.state = .preparing →
    exec (.gangTimeout st tag) s = .next (raiseFlue evGangTimeout (pgF .gang) {} (errFlueReg (pgF .gang) Reg.GANG_ABORTS_COUNT 100
      (s.modGang st tag.toNat (fun y =>
        { y with state := .aborting, timeout := true, late := (List.range 16).foldl (fun m h => if x.parts.testBit h ∧ !x.votes.testBit h then setBit m h true else m) 0 }))))) ∧
  (∀ (k : Fin 16) (s : State) (d : Decision), s.chim.vault.records.find? k.val = some d → d.state = 1 → s.chim.por = false →
    s.chim.main = true → d.kind = 2 →
    exec (.vaultStepDone k) s = .next ((s.modVault (fun v => freeRecords (countRecord k v))).modGang d.unit d.tag
      (fun g => if g.state = .deciding then { g with state := .committed } else g))) ∧
  (∀ (k : Fin 16) (s : State) (d : Decision), s.chim.vault.records.find? k.val = some d → d.state = 1 → s.chim.por = false →
    s.chim.main = true → d.kind = 1 →
    exec (.vaultStepDone k) s = .next (s.modVault (fun v => freeRecords (countRecord k v)))) ∧
  (∀ (h : Fin 16) (g : BitVec 16) (s : State) (x : Group) (r : GangRef) (y : Gang), s.group? h g.toNat = some x → x.gang = some r →
    s.gang? r.stack r.tag = some y → y.state = .committed → s.flueUp = true → s.works h = true → x.state = .prepared →
    exec (.gangCommitMsg h g) s = .next (applyGroup h g.toNat s)) ∧
  (∀ (h : Fin 16) (g : BitVec 16) (s : State) (x : Group) (r : GangRef) (y : Gang), s.group? h g.toNat = some x → x.gang = some r →
    s.gang? r.stack r.tag = some y → y.state = .aborting → s.flueUp = true → s.works h = true →
    exec (.gangAbortMsg h g) s = .next (rollbackGroup h g.toNat (abortMember h g.toNat (abortCauses y h) s)))

/-- R414 step 2, R154, R416: the acknowledgement of a record increments the counter of each slot its apply entries name from
PROGRESS on, once each and never past its end, and leaves the record COUNTED; a record that is not in step 1 is unchanged. -/
def Obligations.CountingIsExact : Prop :=
  (∀ (r : Nat) (v : Vault) (d : Decision) (i : Nat) (e : ApplyEntry), v.records.find? r = some d → d.state = 1 →
    v.applies = [(i, e)] → e.record = r → e.progress = 0 → e.slots.Nodup →
    (∀ k ∈ e.slots, (countRecord r v).counters.getD (e.hearth * 256 + k) 0 = satAdd 32 (v.counters.getD (e.hearth * 256 + k) 0) 1) ∧
    (∀ n, (∀ k ∈ e.slots, n ≠ e.hearth * 256 + k) → (countRecord r v).counters.getD n 0 = v.counters.getD n 0)) ∧
  (∀ (r : Nat) (v : Vault) (d : Decision), v.records.find? r = some d → d.state = 1 →
    ((countRecord r v).records.find? r).map (·.state) = some 2) ∧
  (∀ (r : Nat) (v : Vault) (d : Decision), v.records.find? r = some d → d.state ≠ 1 → countRecord r v = v)

/-- R109: BIND_VF of an unbound VF to a working hearth with room leaves the VF OPEN in that hearth, with the owner, grant and
in-flight limit of the request, weight 1, rate 0, burst 64 and every share at the full count of its class, and completes with
OK. -/
def Obligations.BindVfSetsDefaults : Prop :=
  ∀ (q : Fin 4) (rd : AdminRead) (r : AdminReq) (s : State) (v h owner grant infl p : Nat), s.regs.sorted = true →
    AdminAt s 0x0801 q rd r → v = oHalf r 0 → h = oByte r 2 → owner = oHalf r 4 → grant = oByte r 6 → infl = oHalf r 8 →
    v < s.flue.numVfs → v < 512 → s.bound v = false → h < 16 → s.enabled h = true → 1 ≤ owner ∧ owner < 0xFF00 → 1 ≤ infl ∧ infl ≤ 2016 →
    lcState s = lcVendorTest ∨ lcState s = lcOwned ∨ lcState s = lcOperational → s.hState h ≠ hsFatal →
    (s.H h).needStart = false → freePosition s h = some p → roomAt s h v grant = true →
    ∃ t, exec (.bindVf q rd) s = .next (adminDone r stOK [] [] t) ∧
      t.bound v = true ∧ t.ft v Reg.FT_HEARTH = h ∧ t.ft v Reg.FT_OWNER_ID = owner ∧ t.ft v Reg.FT_QP_GRANT = grant ∧
      t.ft v Reg.FT_INFLIGHT_MAX = infl ∧ t.damper v = dampOpen ∧ t.ft v Reg.FT_DRAUGHT_WEIGHT = 1 ∧
      t.ft v Reg.FT_DRAUGHT_RATE = 0 ∧ t.ft v Reg.FT_DRAUGHT_BURST = 64 ∧ t.ft v Reg.FT_SHARE_CIPHER = 8 ∧
      t.ft v Reg.FT_SHARE_HASH = 4 ∧ t.ft v Reg.FT_SHARE_BIGNUM = 4 ∧ t.ft v Reg.FT_SHARE_BURNER = 4 ∧
      t.posOf v = p ∧ t.hearths = s.hearths ∧ t.chim = s.chim ∧ t.out = s.out ∧
      (∀ w, w < 512 → w ≠ v → ∀ f ∈ [Reg.FT_HEARTH, Reg.FT_BOUND, Reg.FT_DAMPER, Reg.FT_OWNER_ID, Reg.FT_QP_GRANT,
        Reg.FT_INFLIGHT_MAX, Reg.FT_DRAUGHT_WEIGHT, Reg.FT_DRAUGHT_RATE, Reg.FT_DRAUGHT_BURST, Reg.FT_SHARE_CIPHER,
        Reg.FT_SHARE_HASH, Reg.FT_SHARE_BIGNUM, Reg.FT_SHARE_BURNER], t.ft w f = s.ft w f)

/-- The other administration opcodes over the function table, on a VF they may act on. (Under R49, R52 to R54, R95, R108, R111
to R113, R121, R126, which say more than is stated here.) -/
def Obligations.VfAdministration : Prop :=
  (∀ (q : Fin 4) (rd : AdminRead) (r : AdminReq) (s : State) (v : Nat), AdminAt s 0x0802 q rd r → v = oHalf r 0 → v < s.flue.numVfs →
    v < 512 → s.bound v = true → s.damper v = dampDrained → s.ft v Reg.FT_TDI_LOCKED ≠ 1 →
    exec (.unbindVf q rd) s = .next (adminDone r stOK [] [] (liftCompat (s.ft v Reg.FT_HEARTH)
      ((clearEntry v (resetQueues v (leavePosition (s.ft v Reg.FT_HEARTH) (s.posOf v)
        (dropVfKeys (s.ft v Reg.FT_HEARTH) v true (adminFrom r s))))).modVf v (fun _ => {}))))) ∧
  (∀ (q : Fin 4) (rd : AdminRead) (r : AdminReq) (s : State) (v tgt p : Nat), AdminAt s 0x0803 q rd r → v = oHalf r 0 →
    v < s.flue.numVfs → v < 512 → s.bound v = true → s.damper v = dampDrained → s.ft v Reg.FT_TDI_LOCKED ≠ 1 → tgt = oByte r 2 →
    tgt < 16 → s.enabled tgt = true → s.hState tgt ≠ hsFatal → tgt ≠ s.ft v Reg.FT_HEARTH → roomAt s tgt v (s.ft v Reg.FT_QP_GRANT) = true →
    (s.H tgt).compat = (s.H (s.ft v Reg.FT_HEARTH)).compat ∨ anyEnabled s v = false → freePosition s tgt = some p →
    ∃ t, exec (.moveVf q rd) s = .next (adminDone r stOK [] [] t) ∧ t.flue.qps = (adminFrom r s).flue.qps ∧
      (anyEnabled s v = true → (t.H tgt).compatLock = true) ∧
      (s.regs.sorted = true → t.ft v Reg.FT_HEARTH = tgt ∧ t.bound v = true ∧ t.damper v = dampDrained ∧
        ∀ f ∈ [Reg.FT_OWNER_ID, Reg.FT_QP_GRANT, Reg.FT_DRAUGHT_WEIGHT, Reg.FT_DRAUGHT_RATE, Reg.FT_DRAUGHT_BURST,
          Reg.FT_SHARE_CIPHER, Reg.FT_SHARE_HASH, Reg.FT_SHARE_BIGNUM, Reg.FT_SHARE_BURNER], t.ft v f = s.ft v f)) ∧
  (∀ (q : Fin 4) (rd : AdminRead) (r : AdminReq) (s : State) (v : Nat), AdminAt s 0x0804 q rd r → v = oHalf r 0 → v < s.flue.numVfs →
    v < 512 → s.bound v = true → s.damper v = dampDrained → s.ft v Reg.FT_TDI_LOCKED ≠ 1 →
    exec (.resetVf q rd) s = .next (adminDone r stOK [] []
      (resetQueues v (((List.range 4).foldl (fun x n => clearLeft (s.ft v Reg.FT_HEARTH) n v x)
        (dropVfKeys (s.ft v Reg.FT_HEARTH) v false (adminFrom r s))).resetPage (pgVf v))))) ∧
  (∀ (q : Fin 4) (rd : AdminRead) (r : AdminReq) (s : State) (v n : Nat), AdminAt s 0x0805 q rd r → v = oHalf r 0 → v < s.flue.numVfs →
    v < 512 → s.bound v = true → s.ft v Reg.FT_TDI_LOCKED ≠ 1 → n = oByte r 2 → roomAt s (s.ft v Reg.FT_HEARTH) v n = true →
    (∀ k : Fin 8, n ≤ k.val → s.qrd (.vf (Fin.ofNat 512 v) k) Reg.QP_STATUS_ACTIVE ≠ 1) →
    exec (.setQpGrant q rd) s = .next (adminDone r stOK [] [] ((adminFrom r s).setFt v Reg.FT_QP_GRANT n))) ∧
  (∀ (q : Fin 4) (rd : AdminRead) (r : AdminReq) (s : State) (v w rate b : Nat), AdminAt s 0x0806 q rd r → v = oHalf r 0 →
    v < s.flue.numVfs → v < 512 → s.bound v = true → w = oHalf r 2 → rate = oHalf r 4 → b = oHalf r 6 → 1 ≤ w ∧ w ≤ 1023 →
    rate ≤ 1023 → 1 ≤ b ∧ b ≤ 4095 →
    exec (.setDraught q rd) s = .next (adminDone r stOK [] [] (((((adminFrom r s).setFt v Reg.FT_DRAUGHT_WEIGHT w).setFt v
      Reg.FT_DRAUGHT_RATE rate).setFt v Reg.FT_DRAUGHT_BURST b).modVf v (fun x => { x with tokens := min x.tokens b })))) ∧
  (∀ (q : Fin 4) (rd : AdminRead) (r : AdminReq) (s : State) (v : Nat), AdminAt s 0x0807 q rd r → v = oHalf r 0 → v < s.flue.numVfs →
    v < 512 → s.bound v = true → oByte r 2 ≤ 8 → oByte r 3 ≤ 4 → oByte r 4 ≤ 4 → oByte r 5 ≤ 4 →
    exec (.setEngineShare q rd) s = .next (adminDone r stOK [] [] (((((adminFrom r s).setFt v Reg.FT_SHARE_CIPHER (oByte r 2)).setFt v
      Reg.FT_SHARE_HASH (oByte r 3)).setFt v Reg.FT_SHARE_BIGNUM (oByte r 4)).setFt v Reg.FT_SHARE_BURNER (oByte r 5)))) ∧
  (∀ (q : Fin 4) (rd : AdminRead) (r : AdminReq) (s : State) (h : Nat), AdminAt s 0x0809 q rd r → h = oByte r 0 → s.enabled h = true →
    oByte r 1 ≤ 1 → (s.H h).compatLock = false → (∀ v ∈ s.boundVfs h, s.ft v Reg.FT_TDI_LOCKED ≠ 1) →
    exec (.setCompat q rd) s = .next (adminDone r stOK [] []
      ((adminFrom r s).modH h (fun x => { x with compat := oByte r 1 == 1 })))) ∧
  (∀ (q : Fin 4) (rd : AdminRead) (r : AdminReq) (s : State) (v n : Nat), AdminAt s 0x080A q rd r → v = oHalf r 0 → v < s.flue.numVfs →
    v < 512 → s.bound v = true → n = oHalf r 2 → 1 ≤ n ∧ n ≤ 2016 →
    exec (.setInflight q rd) s = .next (adminDone r stOK [] [] ((adminFrom r s).setFt v Reg.FT_INFLIGHT_MAX n))) ∧
  (∀ (q : Fin 4) (rd : AdminRead) (r : AdminReq) (s : State) (k : Nat), AdminAt s 0x080B q rd r → k = oByte r 0 → k ≤ 31 →
    undecidedGang s k = false → oByte r 1 = 0 →
    exec (.stackDefine q rd) s = .next (adminDone r stOK [] []
      ((adminFrom r s).modFlue (fun x => { x with stackTab := x.stackTab.del k })))) ∧
  (∀ (q : Fin 4) (rd : AdminRead) (r : AdminReq) (s : State) (k owner mask : Nat), AdminAt s 0x080B q rd r → k = oByte r 0 → k ≤ 31 →
    undecidedGang s k = false → oByte r 1 = 1 → owner = oHalf r 2 → mask = oHalf r 4 →
    2 ≤ ((List.range 16).filter (mask.testBit ·)).length →
    (∀ h, h < 16 → mask.testBit h = true → s.enabled h = true ∧ ∃ v ∈ s.boundVfs h, s.ft v Reg.FT_OWNER_ID = owner) →
    exec (.stackDefine q rd) s = .next (adminDone r stOK [] []
      ((adminFrom r s).modFlue (fun x => { x with stackTab := x.stackTab.put k { owner := owner, mask := mask } }))))

/-- The moves of the damper that SET_DAMPER makes. (Under R97, R98, R110, which say more than is stated here.) The refusals that
UNBIND_VF, MOVE_VF and RESET_VF share, in their order; nothing but the queue's own registers changes. (Under R108, R114, R121,
which say more than is stated here.) -/
def Obligations.DamperAndQuiescence : Prop :=
  (∀ (q : Fin 4) (rd : AdminRead) (r : AdminReq) (s : State) (v : Nat), AdminAt s 0x0808 q rd r → v = oHalf r 0 → v < s.flue.numVfs →
    v < 512 → s.bound v = true →
    (oByte r 2 = 0 → s.damper v = dampOpen ∨ s.damper v = dampThrottled ∨ s.damper v = dampDrained →
      exec (.setDamperOpen q rd) s = .next (adminDone r stOK [] [] ((adminFrom r s).setDamper v dampOpen))) ∧
    (oByte r 2 = 0 → s.damper v = dampClosing →
      exec (.setDamperOpen q rd) s = .next (adminDone r stOK [] [] (finishWaits v stState ((adminFrom r s).setDamper v dampOpen)))) ∧
    (oByte r 2 = 1 → s.damper v = dampOpen ∨ s.damper v = dampThrottled → 1 ≤ oHalf r 4 → oHalf r 4 ≤ s.ft v Reg.FT_INFLIGHT_MAX →
      exec (.setDamperThrottle q rd) s = .next (adminDone r stOK [] []
        (((adminFrom r s).setDamper v dampThrottled).modVf v (fun x => { x with throttle := oHalf r 4 })))) ∧
    (oByte r 2 = 1 → s.damper v = dampClosing ∨ s.damper v = dampDrained ∨ s.damper v = dampResetting → 1 ≤ oHalf r 4 →
      oHalf r 4 ≤ s.ft v Reg.FT_INFLIGHT_MAX →
      exec (.setDamperThrottle q rd) s = .next (adminDone r stState [] [] (adminFrom r s))) ∧
    (oByte r 2 = 2 → s.damper v = dampOpen ∨ s.damper v = dampThrottled →
      exec (.setDamperClose q rd) s = .next (adminDone r stOK [] [] (enterClosing v (adminFrom r s)))) ∧
    (oByte r 2 = 2 → s.damper v = dampClosing ∨ s.damper v = dampDrained →
      exec (.setDamperClose q rd) s = .next (adminDone r stOK [] [] (adminFrom r s))) ∧
    (oByte r 2 = 3 → s.damper v = dampDrained →
      exec (.setDamperCloseWait q rd) s = .next (adminDone r stOK [] [] (adminFrom r s))) ∧
    (oByte r 2 = 3 → s.damper v = dampClosing →
      exec (.setDamperCloseWait q rd) s = .next (adminHold r { r.held with vf := v, isWait := true } (adminFrom r s))) ∧
    (oByte r 2 = 3 → s.damper v = dampOpen ∨ s.damper v = dampThrottled →
      exec (.setDamperCloseWait q rd) s = .next
        (let t := enterClosing v (adminFrom r s)
         if t.damper v = dampDrained then adminDone r stOK [] [] t
         else adminHold r { r.held with vf := v, isWait := true } t)) ∧
    (s.damper v = dampResetting →
      (oByte r 2 = 0 → exec (.setDamperOpen q rd) s = .next (adminDone r stState [] [] (adminFrom r s))) ∧
      (oByte r 2 = 2 → exec (.setDamperClose q rd) s = .next (adminDone r stState [] [] (adminFrom r s))) ∧
      (oByte r 2 = 3 → exec (.setDamperCloseWait q rd) s = .next (adminDone r stState [] [] (adminFrom r s))))) ∧
  (∀ (op : Nat) (q : Fin 4) (rd : AdminRead) (r : AdminReq) (s : State) (v st : Nat) (c : Instr),
    (op, c) ∈ [(0x0802, Instr.unbindVf q rd), (0x0803, Instr.moveVf q rd), (0x0804, Instr.resetVf q rd)] → AdminAt s op q rd r →
    v = oHalf r 0 →
    ((s.flue.numVfs ≤ v ∨ 512 ≤ v ∨ op = 0x0803 ∧ s.enabled (oByte r 2) = false) →
      exec c s = .next (adminPost q rd.desc [] stBadDescriptor [] [] (adminFrom r s))) ∧
    (v < s.flue.numVfs → v < 512 → op ≠ 0x0803 ∨ s.enabled (oByte r 2) = true →
      s.bound v = false ∧ st = stNotBound ∨
      s.bound v = true ∧ s.damper v ≠ dampDrained ∧ st = stNotQuiesced ∨
      s.bound v = true ∧ s.damper v = dampDrained ∧ s.ft v Reg.FT_TDI_LOCKED = 1 ∧ st = stTdiLocked →
      exec c s = .next (adminDone r st [] [] (adminFrom r s))))

/-- A SLOT_UPDATE whose checks reach the signatures takes a big-number engine of the hearth, and waits while none is free; an
accepted one counts the slot on and places its record, which it returns, or in a group is held until the group resolves; a
refused one returns its status. SLOT_TABLE_LOAD places the records the hearth accepts and returns their map. (Under R154 to
R162, R392, R403, R416, which say more than is stated here.) The ownership ceremony: BEGIN answers a challenge and closes an
earlier ceremony, AUTHORISE notes an officer, COMPLETE needs two of them and closes the ceremony either way, and 600 s end it.
(Under R205 to R211, R697, which say more than is stated here.) -/
def Obligations.SlotAndOwnershipCommands : Prop :=
  (∀ (q : Fin 4) (rd : AdminRead) (r : AdminReq) (s : State), AdminAt s 0x0820 q rd r → updateEarly s r.desc r.inp = none →
    classOffline s (byteAt r.inp 5) 2 = false → freeUnit s (byteAt r.inp 5) 2 = none → dPtr rd.desc = true → dInLen rd.desc ≠ 0 →
    exec (.slotUpdate q rd) s = .next s) ∧
  (∀ (q : Fin 4) (rd : AdminRead) (r : AdminReq) (s t : State) (h n : Nat), AdminAt s 0x0820 q rd r → updateWaits s rd = false →
    dGroup r.desc = 0 → h = byteAt r.inp 5 → n = byteAt r.inp 6 → t = updateEngine (adminFrom r s) r.desc r.inp →
    isolating t = false → slotHeld t h n = false →
    exec (.slotUpdate q rd) s = .next ((checkUpdate t r.desc r.inp).elim
      (adminDone r stOK [] (recordBytes t h n (updateRecord t r.inp))
        ((t.modVault (if reissueSet t.chim.vault h n then clearReissue h n
          else fun v => { v with counters := incCounter v.counters (h * 256 + n) })).modH h (placeSlot n (updateRecord t r.inp))))
      (fun st => adminDone r st [] [] t))) ∧
  (∀ (q : Fin 4) (rd : AdminRead) (r : AdminReq) (s t u : State) (h n g : Nat), AdminAt s 0x0820 q rd r → updateWaits s rd = false →
    g = dGroup r.desc → g ≠ 0 → 6 ≤ dInLen r.desc → h = byteAt r.inp 5 → n = byteAt r.inp 6 →
    t = updateEngine (adminFrom r s) r.desc r.inp → joinGroup h g (.admin r.key) none 2 true t = (u, .joined) →
    isolating t = false → slotHeld u h n = false →
    exec (.slotUpdate q rd) s = .next ((checkUpdate t r.desc r.inp).elim
      (adminHold r { r.held with group := g, hearth := h, out := recordBytes u h n (updateRecord u r.inp) }
        (u.modGroup h g (fun x => x.modAction (.admin r.key) (fun a =>
          { a with held := true, slot := some (n, updateRecord u r.inp, reissueSet u.chim.vault h n), heldBytes := 96 }))))
      (fun st => adminHold r { r.held with group := g, hearth := h }
        (u.modGroup h g (fun x => { (x.modAction (.admin r.key) (fun a => { a with failed := some st })).doom with idleMs := 0 }))))) ∧
  (∀ (q : Fin 4) (rd : AdminRead) (r : AdminReq) (s t u : State) (h g st : Nat), AdminAt s 0x0820 q rd r → updateWaits s rd = false →
    g = dGroup r.desc → g ≠ 0 → 6 ≤ dInLen r.desc → h = byteAt r.inp 5 →
    t = updateEngine (adminFrom r s) r.desc r.inp → joinGroup h g (.admin r.key) none 2 true t = (u, .refused st) →
    isolating t = false →
    exec (.slotUpdate q rd) s = .next (adminDone r ((checkUpdate t r.desc r.inp).getD st) [] [] u)) ∧
  (∀ (q : Fin 4) (rd : AdminRead) (r : AdminReq) (s : State) (h : Nat) (good : List Bytes), AdminAt s 0x0821 q rd r →
    slotTableLen s rd.desc = none → h = pHearth r.desc → s.works h = true → isolating s = false →
    good = (chunks 96 r.inp).filter (recordAccepted s h) →
    exec (.slotTableLoad q rd) s = .next (adminDone r stOK []
      (toLe 32 (good.foldl (fun m b => setBit m (byteAt b 0x48) true) 0))
      (let t := good.foldl (fun x b => x.modH h (placeSlot (byteAt b 0x48)
        { recipe := slice b 0 64, fp := slice b 0x40 8, counter := fieldLe b 0x4C 4 })) (derived h 1 (adminFrom r s))
       if good.length < (chunks 96 r.inp).length then raiseH h evSlotStale (pgH .keycache h) {} t else t))) ∧
  (∀ (q : Fin 4) (rd : AdminRead) (r : AdminReq) (s t u : State) (c : Bytes), AdminAt s 0x0822 q rd r →
    t = (adminFrom r s).modFlue (fun x => { x with ceremony := none }) → s.works 0 = true →
    drbgRequest 0 32 false t = some (c, u) →
    exec (.ownershipBegin q rd) s = .next ((checkRequest t r.desc r.inp).elim
      (adminDone r stOK [] (c ++ serial16 u ++ identityFp u)
        (u.modFlue (fun x => { x with ceremony := some { request := r.inp, challenge := c, started := u.now } })))
      (fun st => adminDone r st [] [] t))) ∧
  (∀ (q : Fin 4) (rd : AdminRead) (r : AdminReq) (s : State) (c : Ceremony), AdminAt s 0x0823 q rd r → dInLen rd.desc = 1176 →
    s.flue.ceremony = some c →
    exec (.ownershipAuthorise q rd) s = .next ((checkOfficer s c r.inp).elim
      (adminDone r stOK [] [] ((adminFrom r s).modFlue (fun x =>
        { x with ceremony := some { c with accepted := c.accepted ++ [(byteAt r.inp 5, sha256 (slice r.inp 0x98 512))] } })))
      (fun st => adminDone r st [] [] (adminFrom r s)))) ∧
  (∀ (q : Fin 4) (rd : AdminRead) (r : AdminReq) (s t : State) (c : Ceremony) (es : List (Nat × Bytes)) (own : Bytes),
    AdminAt s 0x0824 q rd r → dInLen rd.desc = 0 → 280 + s.variant.hearths * 192 ≤ dOutLen rd.desc → s.flue.ceremony = some c →
    2 ≤ c.accepted.length → ceremonyAllowed s = true → drawEmbers s.hearthList (adminFrom r s) = some (es, own, t) →
    ∃ u out, exec (.ownershipComplete q rd) s = .next (adminDone r stOK [] out u) ∧ out.length = 280 + 192 * es.length ∧
      u.flue.ceremony = none ∧ u.chim.vault.valid = true ∧ u.chim.vault.counters = ceremonyCounters (es.map (·.1)) t.chim.vault.counters) ∧
  (∀ (q : Fin 4) (rd : AdminRead) (r : AdminReq) (s : State) (c : Ceremony), AdminAt s 0x0824 q rd r → dInLen rd.desc = 0 →
    280 + s.variant.hearths * 192 ≤ dOutLen rd.desc → s.flue.ceremony = some c →
    c.accepted.length < 2 ∨ ceremonyAllowed s = false →
    exec (.ownershipComplete q rd) s = .next (adminDone r stState [] []
      ((adminFrom r s).modFlue (fun x => { x with ceremony := none })))) ∧
  (∀ (s : State) (c : Ceremony), s.flue.ceremony = some c → c.started + 600000 ≤ s.now →
    exec .ceremonyExpiry s = .next (s.modFlue (fun x => { x with ceremony := none }))) ∧
  (∀ (s : State) (c : Ceremony), s.flue.ceremony = some c → s.now < c.started + 600000 → exec .ceremonyExpiry s = .next s)

/-- Images, the start of a hearth and its end, and a hearth reset. (Under R562, R687 to R693, which say more than is stated
here.) -/
def Obligations.HearthStartAndReset : Prop :=
  (∀ (q : Fin 4) (rd : AdminRead) (r : AdminReq) (s : State) (h : Nat), AdminAt s 0x0810 q rd r → h = pHearth r.desc →
    s.enabled h = true → s.live h = true → s.flag (pgF .flueBoot) (Reg.HEARTH_STATE_OUTER h) = false →
    exec (.imageLoad q rd) s = .next ((checkImage s kindOuter h r.inp).elim
      (adminDone r stOK [] [] (imageEvent true h
        ((((adminFrom r s).modH h (fun x =>
          { x with imageOuter := some (byteAt r.inp 6, r.inp), tcmOut := memPut x.tcmOut 0 (r.inp.drop 2176) })).wr (pgF .flueBoot)
            (Reg.HEARTH_STATE_SVN_OUTER h) (byteAt r.inp 6)).wr (pgF .flueBoot) (Reg.HEARTH_STATE_OUTER h) 1)))
      (fun st => adminDone r st [] [] (imageEvent false h (adminFrom r s))))) ∧
  (∀ (q : Fin 4) (rd : AdminRead) (r : AdminReq) (s : State) (h : Nat), AdminAt s 0x0811 q rd r → h = pHearth r.desc →
    s.enabled h = true → lcState s ≠ lcBlank → lcState s ≠ lcDecommissioned →
    s.hState h = hsReset ∨ s.hState h = hsFailed ∨ s.hState h = hsOff →
    exec (.hearthStart q rd) s = .next (adminHold r { r.held with hearth := h, isStart := true }
      (beginStart h r.inp (adminFrom r s)))) ∧
  (∀ (q : Fin 4) (rd : AdminRead) (r : AdminReq) (s : State) (h : Nat), AdminAt s 0x0811 q rd r → h = pHearth r.desc →
    s.enabled h = true → lcState s ≠ lcBlank → lcState s ≠ lcDecommissioned → s.hState h = hsFatal →
    exec (.hearthStart q rd) s = .next (adminHold r { r.held with hearth := h, isStart := true }
      (beginStart h r.inp (hearthReset h stFatal (adminFrom r s))))) ∧
  (∀ (h : Fin 16) (s t : State) (img : Bytes), s.hState h = hsStarting → s.up h = true →
    img = ((s.H h).imageInner.getD (0, [])).2 → classUp s h 1 = true → classUp s h 2 = true → checkImage s kindInner h img = none →
    (∀ u ∈ hobUnits s, settled s h u = true) → s.memReady h = true → (s.H h).ent.drbg ≠ .uninstantiated →
    (lateShadow h s).chim.vault.rngGens.getD (h * 8) 0 ≠ 0xFFFFFFFF → startRange0 h (lateShadow h s) = some t →
    exec (.hearthStarted h) s = .next (finishStart h img (imageEvent true h t))) ∧
  (∀ (h : Fin 16) (s : State) (img : Bytes) (st : Nat), s.hState h = hsStarting → s.up h = true →
    img = ((s.H h).imageInner.getD (0, [])).2 → classUp s h 1 = true → classUp s h 2 = true →
    checkImage s kindInner h img = some st →
    exec (.hearthStarted h) s = .next (startFails h st (imageEvent false h s))) ∧
  (∀ (h : Fin 16) (s : State), s.hState h = hsStarting → s.up h = true → classDown s h 1 = true ∨ classDown s h 2 = true →
    exec (.hearthStarted h) s = .next (startFails h stOffline s)) ∧
  (∀ (q : Fin 4) (rd : AdminRead) (r : AdminReq) (s : State) (h : Nat), AdminAt s 0x0812 q rd r → h = oByte r 0 →
    s.enabled h = true → dParam r.desc % 2 = 1 ∨ (∀ v ∈ s.boundVfs h, s.damper v = dampDrained) →
    exec (.hearthReset q rd) s = .next (adminDone r stOK [] [] (hearthReset h stFatal (adminFrom r s))))

/-- The lifecycle word of the next state is programmed when the authorisation holds; a power loss in the middle leaves it
partial; a fuse word takes the bits of the request, and a rollback counter the new version. (Under R687, R696, R700 to R706,
which say more than is stated here.) A hearth's fatal dump is written, or while isolation is in force marked as not written,
read back by PF0 and cleared; the tamper log is handed out under a MAC where the owner ember gives its key, and with a MAC of
zeros where it does not. (Under R592, R593, R663 to R671, which say more than is stated here.) -/
def Obligations.LifecycleFusesAndDumps : Prop :=
  (∀ (q : Fin 4) (rd : AdminRead) (r : AdminReq) (s : State), AdminAt s 0x0850 q rd r → dInLen rd.desc = 2368 →
    s.chim.quenching = false →
    exec (.lifecycleAdvance q rd none) s = .next ((checkAdvance s r.inp).elim
      (adminDone r stOK [] []
        (if byteAt r.inp 5 = lcDecommissioned then lifecycleMoved (decommission (adminFrom r s))
         else refreshPins (lifecycleMoved (blowWord (byteAt r.inp 5) (adminFrom r s)))))
      (fun st => adminDone r st [] [] (adminFrom r s)))) ∧
  (∀ (q : Fin 4) (rd : AdminRead) (r : AdminReq) (s : State) (n : Nat), AdminAt s 0x0850 q rd r → dInLen rd.desc = 2368 →
    s.chim.quenching = false →
    exec (.lifecycleAdvance q rd (some n)) s = .next ((checkAdvance s r.inp).elim
      (doMainLoss (adminHold r r.held ((adminFrom r s).modChim (fun x =>
        { x with fuses := { x.fuses with
            lcWords := x.fuses.lcWords.put (byteAt r.inp 5) (clamp (x.fuses.lcWords.getD (byteAt r.inp 5) 0) 31 n) } }))))
      (fun st => adminDone r st [] [] (adminFrom r s)))) ∧
  (∀ (q : Fin 4) (rd : AdminRead) (r : AdminReq) (s : State) (v : Nat), AdminAt s 0x0851 q rd r →
    lcState s = lcVendorTest ∨ lcState s = lcProvisioned → hotterThan s 340 = false → v = fieldLe (dOperands r.desc) 4 4 →
    (oByte r 0 = 1 → v < 2 ^ 10 → exec (.fuseProgram q rd) s = .next (adminDone r stOK [] [] (raiseFlue evFuseProgrammed (pgF .fuse) {}
      ((adminFrom r s).modChim (fun x => { x with fuses := { x.fuses with tamperDis := x.fuses.tamperDis ||| v } }))))) ∧
    (oByte r 0 = 2 → s.variant.hearths ≠ 0 → v < 2 ^ s.variant.hearths → exec (.fuseProgram q rd) s = .next (adminDone r stOK [] [] (raiseFlue evFuseProgrammed (pgF .fuse) {}
      ((adminFrom r s).modChim (fun x => { x with fuses := { x.fuses with compat := x.fuses.compat ||| v } })))))) ∧
  (∀ (q : Fin 4) (rd : AdminRead) (r : AdminReq) (s : State) (k v : Nat), AdminAt s 0x0852 q rd r → k = oByte r 0 + 1 → v = oByte r 1 →
    k ≤ 3 → arbValue s.chim.fuses k < v → v ≤ 128 → runningSvns s k ≠ [] → (∀ x ∈ runningSvns s k, v ≤ x) →
    exec (.rollbackAdvance q rd) s = .next (adminDone r stOK [] []
      ((List.range (v - arbValue s.chim.fuses k)).foldl (fun x _ => raiseFlue evFuseProgrammed (pgF .fuse) {} x)
        ((adminFrom r s).modChim (fun x => { x with fuses := setArb k v x.fuses }))))) ∧
  (∀ (h : Fin 16) (s : State) (b : Nat) (root : Bytes), (s.H h).fatal.isSome = true → (s.H h).dump.handler = true → s.up h = true →
    (s.H h).dump.base = some b → hearthRoot (s.H h) = some root → s.memReady h = true → isolating s = false →
    exec (.dumpWriteDone h) s = .next
      (let t := s.modH h (fun x => { x with dump := { x.dump with handler := false } })
       raiseFlue evDumpReady (pgF .flueEvents) { inst := h } (regionWrite h b (dumpImage t h root) (derived h 1 t)))) ∧
  (∀ (h : Fin 16) (s : State) (b : Nat) (root : Bytes), (s.H h).fatal.isSome = true → (s.H h).dump.handler = true → s.up h = true →
    (s.H h).dump.base = some b → hearthRoot (s.H h) = some root → s.memReady h = true → isolating s = true →
    exec (.dumpWriteDone h) s = .next (raiseFlue evDumpFailed (pgF .flueEvents) { inst := h }
      ((s.modH h (fun x => { x with dump := { x.dump with handler := false } })).modMem h (fun m =>
        { m with ddr := memSet m.ddr (b + 7) 0 })))) ∧
  (∀ (h : Fin 16) (s : State), (s.H h).fatal.isSome = true → (s.H h).dump.handler = true → s.up h = true →
    (s.H h).dump.base = none →
    exec (.dumpWriteDone h) s = .next (raiseFlue evDumpFailed (pgF .flueEvents) { inst := h }
      (s.modH h (fun x => { x with dump := { x.dump with handler := false } })))) ∧
  (∀ (q : Fin 4) (rd : AdminRead) (r : AdminReq) (s : State) (h : Nat) (root k : Bytes), AdminAt s 0x0840 q rd r →
    dInLen rd.desc = 0 → h = pHearth r.desc → openCheck s h (dOutLen r.desc) = .ok root → k = dumpKeyOf root h →
    exec (.dumpOpen q rd) s = .next
      (if gcmTag k (slice (dumpBytes s h 0 64) 0x30 12) (dumpBytes s h 0 64) (dumpBytes s h 0x100 bodyLen) = dumpBytes s h 0x40 16 then
        adminDone r stOK [] (gcmCrypt k (slice (dumpBytes s h 0 64) 0x30 12) (dumpBytes s h 0x100 bodyLen)) (derived h 1 (adminFrom r s))
       else adminDone r stTagMismatch [] [] (derived h 1 (adminFrom r s)))) ∧
  (∀ (q : Fin 4) (rd : AdminRead) (r : AdminReq) (s : State) (h st : Nat), AdminAt s 0x0840 q rd r →
    dInLen rd.desc = 0 → h = pHearth r.desc → openCheck s h (dOutLen r.desc) = .error st →
    exec (.dumpOpen q rd) s = .next (adminDone r st [] [] (adminFrom r s))) ∧
  (∀ (q : Fin 4) (rd : AdminRead) (r : AdminReq) (s : State) (h b : Nat), AdminAt s 0x0841 q rd r → h = oByte r 0 →
    s.enabled h = true → (s.H h).dump.handler = false → (s.H h).dump.base = some b →
    exec (.dumpClear q rd) s = .next (adminDone r stOK [] []
      ((adminFrom r s).modMem h (fun m => { m with ddr := memSet m.ddr (b + 7) 0 })))) ∧
  (∀ (q : Fin 4) (rd : AdminRead) (r : AdminReq) (s : State) (k : Bytes), AdminAt s 0x0830 q rd r → dInLen rd.desc = 0 →
    (tamperLogBody s).length + 16 ≤ dOutLen r.desc → vaultRecordKey s = some k →
    exec (.tamperLogExport q rd) s = .next (adminDone r stOK [] (tamperLogBody s ++ cmac .aes k (tamperLogBody s)) (adminFrom r s))) ∧
  (∀ (q : Fin 4) (rd : AdminRead) (r : AdminReq) (s : State), AdminAt s 0x0830 q rd r → dInLen rd.desc = 0 →
    (tamperLogBody s).length + 16 ≤ dOutLen r.desc → vaultRecordKey s = none →
    exec (.tamperLogExport q rd) s = .next (adminDone r stOK [] (tamperLogBody s ++ zeros 16) (adminFrom r s)))

/-- A function-level reset of a bound VF starts the abort of its jobs; with no job, no group and no hearth to report to it
leaves the damper RESETTING, the TDI unlocked and 0 in RESET_ABORTED; its end leaves the VF drained with its queue registers,
its MSI-X table and its configuration space at reset. An FLR of PF0, VF Enable cleared and a hot reset reach every VF; after
them VF Enable is clear. (Under R102 to R104, R113, which say more than is stated here.) What training, loss and power states of
the link leave in LINK_STATUS, and PF0's power state. (Under R41, R44, R552, R673, R676, R731, R759, which say more than is
stated here.) -/
def Obligations.LinkAndFunctionResets : Prop :=
  (∀ (v : Fin 512) (s : State), s.vfExists v = true → s.bound v = true → s.damper v ≠ dampResetting →
    exec (.vfFlr v) s = .next (flrStart v s)) ∧
  (∀ (v : Fin 512) (s : State), s.vfExists v = true → s.bound v = true → s.damper v ≠ dampResetting →
    groupsOf s (s.ft v Reg.FT_HEARTH) (some v.val) = [] → (∀ p ∈ (s.H (s.ft v Reg.FT_HEARTH)).jobs, p.2.vf ≠ v.val) →
    s.up (s.ft v Reg.FT_HEARTH) = false → s.regs.sorted = true →
    ∃ t, exec (.vfFlr v) s = .next t ∧ t.damper v = dampResetting ∧ t.ft v Reg.FT_TDI_LOCKED = 0 ∧
      t.ft v Reg.FT_RESET_ABORTED = 0 ∧ (t.vf v).tdi = .unlocked ∧ t.bound v = true ∧ t.hearths = s.hearths ∧ t.chim = s.chim ∧
      t.out = s.out) ∧
  (∀ (v : Fin 512) (s : State), s.vfExists v = true → s.damper v = dampResetting → exec (.vfFlr v) s = .next s) ∧
  (∀ (v : Fin 512) (s : State) (mine : List (Nat × Job)), s.damper v = dampResetting →
    mine = (s.H (s.ft v Reg.FT_HEARTH)).jobs.filter (fun p => p.2.vf == v.val) →
    (∀ p ∈ mine, p.2.state ≠ .held ∧ (p.2.state = .running → ∀ u ∈ p.2.units, isBurner u = false)) →
    exec (.flrAbortDone v) s = .next (enterDrained v (wipeQueues v
      ((mine.foldl (fun t p => abortJob (s.ft v Reg.FT_HEARTH) p.1 t) s).modVf v (fun x => { x with aborting := false }))))) ∧
  (∀ (s : State), flueListens s = true →
    exec .pf0Flr s = .next (resetFunction .pf0 (allVfsReset s)) ∧ exec .vfEnableClear s = .next (allVfsReset s) ∧
    exec .hotReset s = .next (linkReset s) ∧ (allVfsReset s).flue.vfEnable = false ∧ (linkReset s).flue.vfEnable = false ∧
    (linkReset s).flue.d3hot = false ∧ (linkReset s).flue.ide = []) ∧
  (∀ (rate width : Fin 4) (flit : Bool) (s : State), s.regs.sorted = true → flueListens s = true → s.chim.perst = false →
    rate.val ≠ 3 → width.val < 2 → (rate.val = 2 → flit = true) →
    ∃ t, exec (.linkTrained rate width flit) s = .next t ∧ t.rd linkPage Reg.LINK_STATUS_RATE = rate ∧
      t.rd linkPage Reg.LINK_STATUS_WIDTH = width ∧ t.rd linkPage Reg.LINK_STATUS_FLIT = b2n flit ∧
      t.rd linkPage Reg.LINK_STATUS_UP = 1 ∧ t.rd linkPage Reg.LINK_STATUS_UNSUPPORTED = 0 ∧
      t.rd linkPage Reg.LINK_STATUS_ASPM = 0 ∧ t.flue.vfEnable = true ∧ t.hearths = s.hearths ∧ t.chim = s.chim ∧ t.out = s.out) ∧
  (∀ (rate width : Fin 4) (flit : Bool) (s : State), flueListens s = true → s.chim.perst = false →
    rate.val = 3 ∨ 2 ≤ width.val ∨ rate.val = 2 ∧ flit = false →
    exec (.linkTrained rate width flit) s = .next (raiseFlue evLinkDegraded linkPage {}
      (((((((s.wr linkPage Reg.LINK_STATUS_RATE rate).wr linkPage Reg.LINK_STATUS_WIDTH width).wr linkPage Reg.LINK_STATUS_FLIT
        (b2n flit)).wr linkPage Reg.LINK_STATUS_UNSUPPORTED 1).wr linkPage Reg.LINK_STATUS_UP 1).wr linkPage
        Reg.LINK_STATUS_ASPM 0).modFlue (fun x => { x with vfEnable := true })))) ∧
  (∀ (s : State), flueListens s = true →
    exec .linkDown s = .next (((linkReset s).wr linkPage Reg.LINK_STATUS_UP 0).wr linkPage Reg.LINK_STATUS_ASPM 0)) ∧
  (∀ (s : State), flueListens s = true → s.chim.perst = false →
    exec .perstNAssert s = .next ((((linkReset s).wr linkPage Reg.LINK_STATUS_UP 0).wr linkPage Reg.LINK_STATUS_ASPM 0).modChim
      (fun c => { c with perst := true }))) ∧
  (∀ (s : State), exec .perstNDeassert s = .next (s.modChim (fun c => { c with perst := false }))) ∧
  (∀ (b : Bool) (s : State), flueListens s = true →
    exec (.pf0PowerState b) s = .next (s.modFlue (fun x => { x with d3hot := b }))) ∧
  (∀ (k : Fin 3) (s : State), s.regs.sorted = true → s.flag linkPage Reg.LINK_STATUS_UP = true →
    ∃ t, exec (.aspmL1Entry k) s = .next t ∧ t.rd linkPage Reg.LINK_STATUS_ASPM = 1 + k.val ∧
      t = { s with regs := t.regs }) ∧
  (∀ (s : State), s.regs.sorted = true →
    ∃ t, exec .l1Exit s = .next t ∧ t.rd linkPage Reg.LINK_STATUS_ASPM = 0 ∧ t = { s with regs := t.regs })

/-- GO in the boot ROM starts a load; the check's end runs the image or leaves REJECTED with the failed check's status; RESTART
of a running flue, or a fault of its firmware, goes back to the boot ROM; a RESTART that finds the programming of fuses in
progress is ignored. (Under R423, R677 to R680, R683, R684, which say more than is stated here.) -/
def Obligations.FlueBootAndRestart : Prop :=
  (∀ (b : Bytes) (s : State), flueListens s = true → s.bootState = stRomWait ∨ s.bootState = stRejected →
    exec (.bootGo .pf0 (.ok b)) s = .next ((s.wr bootPage Reg.BOOT_STATUS_STATE stLoading).modFlue (fun x =>
      { x with bootImage := slice b 0 ((s.wr bootPage Reg.BOOT_STATUS_STATE stLoading).rd bootPage Reg.BOOT_LEN_LEN),
               bootErr := false }))) ∧
  (∀ (i : Dma) (s : State), flueListens s = true → s.bootState ≠ stRomWait → s.bootState ≠ stRejected →
    exec (.bootGo .pf0 i) s = .next (refuse bootPage .pf0 0x04C 1 cState s)) ∧
  (∀ (s : State), flueListens s = true → s.bootState = stLoading → s.flue.bootErr = false →
    exec .flueImageCheckDone s = .next ((checkImage s kindFlue 0 s.flue.bootImage).elim
      (recoverGangs (countCycle (imageEvent true 0xFF
        ((((s.wr bootPage Reg.BOOT_STATUS_STATE flueRunning).wr bootPage Reg.BOOT_STATUS_CODE stOK).wr bootPage Reg.BOOT_SVN_FLUE
          (byteAt s.flue.bootImage 6)).modFlue (fun x => { x with imageMeas := s.flue.bootImage, bootImage := [] })))))
      (fun st => imageEvent false 0xFF ((s.wr bootPage Reg.BOOT_STATUS_STATE stRejected).wr bootPage Reg.BOOT_STATUS_CODE st)))) ∧
  (∀ (s : State), flueListens s = true → s.bootState = stLoading → s.flue.bootErr = true →
    exec .flueImageCheckDone s = .next (imageEvent false 0xFF
      ((s.wr bootPage Reg.BOOT_STATUS_STATE stRejected).wr bootPage Reg.BOOT_STATUS_CODE stHostDma))) ∧
  (∀ (s : State), flueListens s = true → s.flueUp = true →
    exec (.bootRestart ⟨.pf0, false⟩) s = .next (flueRestart s) ∧ exec .flueFault s = .next (flueRestart s) ∧
    exec (.bootRestart ⟨.pf0, true⟩) s = .next (refuse bootPage .pf0 0x04C 2 cState s)) ∧
  (∀ (who : Requester) (i : Dma) (fusing : Bool) (s : State), flueListens s = true → s.flueUp = true → who ≠ .pf0 →
    exec (.bootGo who i) s = .next (refuse bootPage who 0x04C 1 cRequester s) ∧
    exec (.bootRestart ⟨who, fusing⟩) s = .next (refuse bootPage who 0x04C 2 cRequester s))

/-- The IDE key messages over a session in its application phase, each answer a record sealed under the session's keys, and a
stream that leaves secure state. The layouts are PCI Express's and DSP0277's (PRESUMED). (Under R115, R116, R122, R124, which
say more than is stated here.) The TDISP requests of a VF that exists, over a session in its application phase. The layouts are
PCI Express's (PRESUMED); the nonce of a lock is free. (Under R118 to R122, which say more than is stated here.) -/
def Obligations.IdeAndTdisp : Prop :=
  (∀ (i : Fin 8) (rid : Fin 514) (m : Bytes) (s : State) (x : Session), s.flueUp = true → s.session? i = some x → x.phase = 1 →
    (byteAt m 0 = 0 → exec (.ideKm i rid m) s = .next (vendorSend i 0 1
      ([1, 0, byte (byteAt m 2)] ++ toLe 4 (Config.messageValue "IDE_KM QUERY_RESP")) s)) ∧
    (byteAt m 0 = 2 → exec (.ideKm i rid m) s = .next (vendorSend i 0 3 (keyProg rid m s).2 (keyProg rid m s).1)) ∧
    (byteAt m 0 = 4 ∨ byteAt m 0 = 5 → keyStatus s rid m = 0 →
      exec (.ideKm i rid m) s = .next (vendorSend i 0 6
        [6, 0, 0, byte (byteAt m 3), 0, byte (byteAt m 5), byte (byteAt m 6)] (keyGoStop (byteAt m 0 == 4) m s)))) ∧
  (∀ (i : Nat) (m : Bytes) (s : State) (x : Session), s.session? i = some x →
    (respond (some i) m s).out = s.out ++ [.message (some i) (byteAt m 1) (sealRecord s i x m)] ∧
    (respond (some i) m s).session? i = some { x with seqTx := x.seqTx + 1 }) ∧
  (∀ (rid : Nat) (m : Bytes) (s : State), m.length = 47 → keyStatus s rid m = 0 →
    ((keyProg rid m s).1.flue.ide.find? (byteAt m 3)).map (fun x => x.keys.find? (keyIndex (byteAt m 5))) = some (some (m.drop 7)) ∧
    (∀ k, k ≠ byteAt m 3 → (keyProg rid m s).1.flue.ide.find? k = s.flue.ide.find? k) ∧
    (keyProg rid m s).1.hearths = s.hearths ∧ (keyProg rid m s).1.chim = s.chim ∧ (keyProg rid m s).1.regs = s.regs) ∧
  (∀ (n : Fin 65) (s : State) (x : IdeStream), s.flueUp = true → s.flue.ide.find? n.val = some x → x.secure = true → n.val ≠ 0 →
    exec (.ideStreamInsecure n) s = .next
      ((streamVf x).elim (s.modFlue (fun f => { f with ide := f.ide.put n { rid := x.rid } }))
        (fun v => tdiError v (s.modFlue (fun f => { f with ide := f.ide.put n { rid := x.rid } }))))) ∧
  (∀ (n : Fin 65) (s : State) (x : IdeStream), s.flueUp = true → s.flue.ide.find? n.val = some x → x.secure = false ∨ n.val = 0 →
    exec (.ideStreamInsecure n) s = .next (s.modFlue (fun f => { f with ide := f.ide.put n { rid := x.rid } }))) ∧
  (∀ (i : Fin 8) (v : Fin 512) (s : State) (x : Session), s.flueUp = true → s.session? i = some x → x.phase = 1 →
    s.vfExists v = true →
    exec (.getTdispVersion i v) s = .next (tdispSend i v 0x01 [1, 0x10] s) ∧
    exec (.getTdispCapabilities i v) s = .next (tdispSend i v 0x02 tdispCaps s) ∧
    exec (.getDeviceInterfaceState i v) s = .next (tdispSend i v 0x05 [tdiCode (s.vf v).tdi] s) ∧
    exec (.stopInterface i v) s = .next (tdispSend i v 0x07 [] (setTdi v .unlocked [] s)) ∧
    (∀ m, m.length = 20 → (s.vf v).tdi = .unlocked → s.bound v = true → s.damper v ≠ dampResetting → onSecureStream s v = true →
      exec (.lockInterface i v m) s = .next (tdispSend i v 0x03 (s.free 32).1
        ((setTdi v .locked (s.free 32).1 (s.free 32).2).modVf v (fun y => { y with tdiOffset := fieldLe m 4 8 })))) ∧
    (∀ m, m.length = 20 → (s.vf v).tdi = .unlocked → s.bound v = true → s.damper v = dampResetting →
      exec (.lockInterface i v m) s = .next (tdispError i v .badState s)) ∧
    (∀ m, m.length = 20 → (s.vf v).tdi = .unlocked → s.bound v = false ∨ s.damper v ≠ dampResetting ∧ onSecureStream s v = false →
      exec (.lockInterface i v m) s = .next (tdispError i v .badDevice s)) ∧
    (∀ m, m.length = 20 → (s.vf v).tdi ≠ .unlocked → exec (.lockInterface i v m) s = .next (tdispError i v .badState s)) ∧
    (∀ nonce, (s.vf v).tdi = .locked → nonce = (s.vf v).tdiNonce →
      exec (.startInterface i v nonce) s = .next (tdispSend i v 0x06 [] (setTdi v .run [] s))) ∧
    (∀ nonce, (s.vf v).tdi ≠ .locked → exec (.startInterface i v nonce) s = .next (tdispError i v .badState s)) ∧
    (∀ off len : BitVec 16, (s.vf v).tdi = .locked ∨ (s.vf v).tdi = .run → off.toNat < (interfaceReport s v).length →
      exec (.getDeviceInterfaceReport i v off len) s = .next (tdispSend i v 0x04
        (toLe 2 (min len.toNat ((interfaceReport s v).length - off.toNat)) ++
          toLe 2 ((interfaceReport s v).length - off.toNat - min len.toNat ((interfaceReport s v).length - off.toNat)) ++
          slice (interfaceReport s v) off.toNat (min len.toNat ((interfaceReport s v).length - off.toNat))) s))) ∧
  (∀ (v : Fin 512) (s : State) (t : TdiState) (nonce : Bytes), s.regs.sorted = true →
    ((setTdi v t nonce s).ft v Reg.FT_TDI_LOCKED = 1 ↔ t = .locked ∨ t = .run) ∧ ((setTdi v t nonce s).vf v).tdi = t)

/-- The SPDM requests that precede a session, each answered when its own conditions hold. The layouts are DSP0274's (PRESUMED).
(Under R124, R125, R134, R684, R706, which say more than is stated here.) The SPDM requests that open, use and end a session.
(Under R124, which says more than is stated here.) -/
def Obligations.SpdmMessages : Prop :=
  (∀ (m : Bytes) (s : State), s.flueUp = true → byteAt m 0 = 0x10 → byteAt m 1 = 0x84 → 4 ≤ m.length →
    exec (.getVersion m) s = .next (respond none [0x10, 0x04, 0, 0, 0, 1, 0, 0x13] (s.modSpdm (fun x =>
      { p384Ready := x.p384Ready, rsaReady := x.rsaReady, versionDone := true,
        vca := m ++ [0x10, 0x04, 0, 0, 0, 1, 0, 0x13] })))) ∧
  (∀ (m : Bytes) (s : State), s.flueUp = true → byteAt m 0 = 0x13 → byteAt m 1 = 0xE1 → 20 ≤ m.length →
    s.flue.spdm.versionDone = true → s.flue.spdm.capsDone = false →
    ∃ rsp, exec (.getCapabilities m) s = .next (respond none rsp (s.modSpdm (fun x =>
      { x with capsDone := true, vca := x.vca ++ m ++ rsp })))) ∧
  (∀ (m : Bytes) (s : State), s.flueUp = true → byteAt m 0 = 0x13 → byteAt m 1 = 0xE3 → 32 ≤ m.length →
    s.flue.spdm.capsDone = true → s.flue.spdm.algsDone = false → (fieldLe m 8 4).testBit 5 = true → (fieldLe m 12 4).testBit 2 = true →
    ∃ rsp, exec (.negotiateAlgorithms m) s = .next (respond none rsp (s.modSpdm (fun x =>
      { x with algsDone := true, ecdsa := false, vca := x.vca ++ m ++ rsp })))) ∧
  (∀ (m : Bytes) (s : State), s.flueUp = true → byteAt m 0 = 0x13 → byteAt m 1 = 0xE3 → 32 ≤ m.length →
    s.flue.spdm.capsDone = true → s.flue.spdm.algsDone = false → (fieldLe m 8 4).testBit 5 = false →
    (fieldLe m 8 4).testBit 7 = true → (fieldLe m 12 4).testBit 1 = true →
    ∃ rsp, exec (.negotiateAlgorithms m) s = .next (respond none rsp (s.modSpdm (fun x =>
      { x with algsDone := true, ecdsa := true, vca := x.vca ++ m ++ rsp })))) ∧
  (∀ (m : Bytes) (s : State), s.flueUp = true → byteAt m 0 = 0x13 → byteAt m 1 = 0x81 → 4 ≤ m.length → s.flue.spdm.algsDone = true →
    exec (.getDigests none m) s = .next (respond none ([0x13, 0x01, 0x03, 0x03] ++ certDigest s 0 ++ certDigest s 1)
      (s.modSpdm (fun x => { x with msgB := x.msgB ++ (m ++ ([0x13, 0x01, 0x03, 0x03] ++ certDigest s 0 ++ certDigest s 1)) })))) ∧
  (∀ (m : Bytes) (s : State) (slot n : Nat), s.flueUp = true → byteAt m 0 = 0x13 → byteAt m 1 = 0x82 → 8 ≤ m.length →
    s.flue.spdm.algsDone = true → slot = byteAt m 2 % 16 → slot ≤ 1 → lcState s ≠ lcDecommissioned → pairReady s slot = true →
    byteAt m 3 % 2 = 0 → n = min (fieldLe m 6 2) ((Config.certChain slot).length - fieldLe m 4 2) →
    ∃ rsp, (fieldLe m 4 2 < (Config.certChain slot).length →
        exec (.getCertificate none m) s = .next (respond none rsp (s.modSpdm (fun x => { x with msgB := x.msgB ++ (m ++ rsp) })))) ∧
      ((Config.certChain slot).length ≤ fieldLe m 4 2 →
        exec (.getCertificate none m) s = .next (respond none (spdmError .invalidRequest 0x82) s)) ∧
      rsp = [0x13, 0x02, byte slot, 0] ++ toLe 2 n ++ toLe 2 ((Config.certChain slot).length - fieldLe m 4 2 - n) ++
        slice (Config.certChain slot) (fieldLe m 4 2) n) ∧
  (∀ (m : Bytes) (s : State) (slot : Nat), s.flueUp = true → byteAt m 0 = 0x13 → byteAt m 1 = 0x82 → 8 ≤ m.length →
    s.flue.spdm.algsDone = true → slot = byteAt m 2 % 16 → slot ≤ 1 → lcState s ≠ lcDecommissioned → pairReady s slot = false →
    exec (.getCertificate none m) s = .next (respond none (spdmError .notReady 0x82) s)) ∧
  (∀ (m : Bytes) (s : State) (slot : Nat), s.flueUp = true → byteAt m 0 = 0x13 → byteAt m 1 = 0x83 → 44 ≤ m.length →
    s.flue.spdm.algsDone = true → slot = byteAt m 2 → slot = signSlot s → byteAt m 3 = 0 ∨ byteAt m 3 = 1 ∨ byteAt m 3 = 0xFF →
    lcState s ≠ lcDecommissioned → pairReady s slot = true →
    ∃ t rsp sig, exec (.challenge m) s = .next (respond none (rsp ++ sig) t) ∧
      (sig, { t with flue := { t.flue with spdm := s.flue.spdm } }) =
        spdmSign "responder-challenge_auth signing" (s.flue.spdm.vca ++ s.flue.spdm.msgB ++ m ++ rsp) (s.free 32).2 ∧
      t.flue.spdm = { s.flue.spdm with msgB := [] }) ∧
  (∀ (m : Bytes) (s : State) (op : Nat), s.flueUp = true → byteAt m 0 = 0x13 → byteAt m 1 = 0xE0 → 12 ≤ m.length →
    s.flue.spdm.algsDone = true → byteAt m 2 % 2 = 0 → op = byteAt m 3 → op ≠ 0xFF → op ∈ measIndexes s →
    ∃ rsp, exec (.getMeasurements none m) s = .next (respond none rsp ((s.free 32).2.modSpdm (fun x =>
        { x with msgL := x.msgL ++ m ++ rsp }))) ∧
      slice rsp 8 (measBlock s op).length = measBlock s op) ∧
  (∀ (m : Bytes) (s : State) (i : Nat), s.flueUp = true → byteAt m 0 = 0x13 → byteAt m 1 = 0xE4 → 138 ≤ m.length →
    s.flue.spdm.algsDone = true → byteAt m 3 = signSlot s → pairReady s (byteAt m 3) = true →
    p384.on (pointOf p384 (slice m 40 96)) = true → byteAt m 2 = 0 ∨ byteAt m 2 = 1 ∨ byteAt m 2 = 0xFF →
    s.flue.spdm.sessions.lowestFree 0 8 = some i →
    ∃ t rsp x, exec (.keyExchange m) s = .next (respond none rsp t) ∧ t.session? i = some x ∧ x.phase = 0 ∧
      (∀ k, k ≠ i → t.session? k = s.session? k) ∧ t.hearths = s.hearths ∧ t.chim = s.chim ∧ t.regs = s.regs) ∧
  (∀ (m : Bytes) (s : State), s.flueUp = true → byteAt m 0 = 0x13 → byteAt m 1 = 0xE4 → 138 ≤ m.length →
    s.flue.spdm.algsDone = true → byteAt m 3 = signSlot s → pairReady s (byteAt m 3) = true →
    p384.on (pointOf p384 (slice m 40 96)) = true → byteAt m 2 = 0 ∨ byteAt m 2 = 1 ∨ byteAt m 2 = 0xFF →
    s.flue.spdm.sessions.lowestFree 0 8 = none →
    exec (.keyExchange m) s = .next (respond none (spdmError .sessionLimit 0xE4) s)) ∧
  (∀ (i : Fin 8) (m : Bytes) (s : State) (x : Session), s.flueUp = true → s.session? i = some x → x.phase = 0 → byteAt m 0 = 0x13 →
    byteAt m 1 = 0xE5 → 4 + spdmHashLen s ≤ m.length →
    (slice m 4 (spdmHashLen s) = spdmMac s (finishedKey s x.keysRx) (spdmHash s (x.trans ++ m.take 4)) →
      ∃ t y, exec (.finish i m) s = .next t ∧ t.session? i = some y ∧ y.phase = 1 ∧ y.seqTx = 0 ∧
        y.secret = spdmMac s (spdmExpand s x.secret "derived" []) (zeros (spdmHashLen s)) ∧
        t.out = s.out ++ [.message (some i.val) 0x65 (sealRecord s i x [0x13, 0x65, 0, 0])] ∧
        ∀ k, k ≠ i.val → t.session? k = s.session? k) ∧
    (slice m 4 (spdmHashLen s) ≠ spdmMac s (finishedKey s x.keysRx) (spdmHash s (x.trans ++ m.take 4)) →
      exec (.finish i m) s = .next (endSession i (respond (some i.val) (spdmError .decryptError 0xE5) s)))) ∧
  (∀ (i : Fin 8) (m : Bytes) (s : State) (x : Session), s.flueUp = true → s.session? i = some x → x.phase = 1 → byteAt m 0 = 0x13 →
    4 ≤ m.length →
    (byteAt m 1 = 0xE8 → exec (.heartbeat i m) s = .next (respond (some i.val) [0x13, 0x68, 0, 0] s)) ∧
    (byteAt m 1 = 0xEC → exec (.endSession i m) s = .next (endSession i (respond (some i.val) [0x13, 0x6C, 0, 0] s))) ∧
    (byteAt m 1 = 0xE9 → byteAt m 2 = 1 → x.pendRx = [] → x.pendTx = [] →
      exec (.keyUpdate i m) s = .next (respond (some i.val) [0x13, 0x69, 1, byte (byteAt m 3)]
        (s.modSession i (fun y => { y with keysRx := spdmExpand s y.keysRx "traffic upd" [], pendRx := y.keysRx })))) ∧
    (byteAt m 1 = 0xE9 → byteAt m 2 = 2 → x.pendRx = [] → x.pendTx = [] →
      exec (.keyUpdate i m) s = .next (respond (some i.val) [0x13, 0x69, 2, byte (byteAt m 3)]
        (s.modSession i (fun y =>
          { y with
            keysRx := spdmExpand s y.keysRx "traffic upd" [], pendRx := y.keysRx
            keysTx := spdmExpand s y.keysTx "traffic upd" [], pendTx := y.keysTx, seqTx := 0 })))) ∧
    (byteAt m 1 = 0xE9 → byteAt m 2 = 3 → x.pendRx ≠ [] ∨ x.pendTx ≠ [] →
      exec (.keyUpdate i m) s = .next (respond (some i.val) [0x13, 0x69, 3, byte (byteAt m 3)]
        (s.modSession i (fun y => { y with pendRx := [], pendTx := [] })))))

/-- A banking replaces the two shares of every ember and leaves the ember they make; it is due after the period, or with the
first randomness after main power returned, and not before; each hearth hears of it by a pulse. (Under R142 to R147, R614, which
say more than is stated here.) The banking pass changes neither the key that an entry's two shares make nor anything else of it.
(Under R147, R148, which say more than is stated here.) -/
def Obligations.BankingKeepsKeys : Prop :=
  (∀ (x : Shared) (r : Bytes), x.s.length = 64 → x.m.length = 64 → r.length = 64 →
    xorBytes (remask x (some r)).s (remask x (some r)).m = xorBytes x.s x.m ∧ (remask x (some r)).inv = !x.inv) ∧
  (∀ (s : State), bankDue s = true → s.chim.vault.intact = true → s.chim.main = false → s.chim.vault.embers.sorted = true →
    ∃ t, exec .emberBanking s = .next t ∧ t.chim.vault.polarity = (!s.chim.vault.polarity) ∧ t.chim.vault.sinceBank = 0 ∧
      t.chim.vault.deferred = true ∧
      (∀ h, (t.chim.vault.embers.find? h).map (fun x => xorBytes x.s x.m) = (s.chim.vault.embers.find? h).map (fun x => xorBytes x.s x.m)) ∧
      t.chim.vault.counters = s.chim.vault.counters ∧ t.regs = s.regs ∧ t.hearths = s.hearths ∧ t.flue = s.flue ∧ t.out = s.out) ∧
  (∀ (s t : State) (dry : Bool), bankDue s = true → s.chim.vault.intact = true → s.chim.main = true → bankEmbers true s = (t, dry) →
    exec .emberBanking s = .next
      (let u := t.hearthList.foldl (fun x h => sendPulse h xBankings x)
        ((t.modVault (fun v => { v with sinceBank := 0, polarity := !v.polarity, deferred := dry,
                                        freshOwed := v.freshOwed && !drbgThere s })).wr vaultPage Reg.BANK_LAST_TIME t.now)
       if dry then raiseFlue evVltBankDeferred vaultPage {} u else u)) ∧
  (∀ (s : State), bankDue s = false ∨ s.chim.vault.intact = false → exec .emberBanking s = .next s) ∧
  (∀ (h : Nat) (s : State) (i : Nat) (e : KeyEntry), (s.H h).cache.sorted = true → (s.H h).cache.find? i = some e →
    e.shareA.length = e.shareB.length →
    ∃ f, ((reshare h s).H h).cache.find? i = some f ∧ xorBytes f.shareA f.shareB = xorBytes e.shareA e.shareB ∧
      f = { e with shareA := f.shareA, shareB := f.shareB })

/-- The banking period, the reload of a hearth's shadow, the banking pass of the key cache, its retry and a flush, and the
derivation of an identity pair. (Under R143, R150, R133, R137, R146, R147, R149, R172, R216, which say more than is stated
here.) -/
def Obligations.VaultAndKeyCacheCommands : Prop :=
  (∀ (d : Word) (s : State), s.flueUp = true → s.flag vaultPage Reg.PAGE_CTRL_LOCK = false →
    exec (.bankPeriodWrite .pf0 d) s = .next (setFields vaultPage [(Reg.BANK_CTRL_PERIOD, d.toNat)] s)) ∧
  (∀ (who : Requester) (d : Word) (s : State), s.flueUp = true → who ≠ .pf0 →
    exec (.bankPeriodWrite who d) s = .next (refuse vaultPage who 0x040 d.toNat cRequester s)) ∧
  (∀ (d : Word) (s : State), s.flueUp = true → s.flag vaultPage Reg.PAGE_CTRL_LOCK = true →
    exec (.bankPeriodWrite .pf0 d) s = .next (refuse vaultPage .pf0 0x040 d.toNat cLocked s)) ∧
  (∀ (h : Fin 16) (s : State), (s.H h).reloading = true → isolating s = false → (s.H h).needStart = false →
    exec (.shadowReloadDone h) s = .next (s.modH h (fun x => { x with reloading := false, shadow := emberAtStart s h }))) ∧
  (∀ (h : Fin 16) (s : State), (s.H h).reloading = true → isolating s = false → (s.H h).needStart = true →
    exec (.shadowReloadDone h) s = .next (s.modH h (fun x => { x with reloading := false }))) ∧
  (∀ (h : Fin 16) (s t : State), s.up h = true → (s.H h).bankWait = true → cacheMgReady h s = some t →
    exec (.kcBankPass h) s = .next (((reshare h t).modH h (fun x => { x with bankWait := false, bankDeferred := false })).wr
      (pgH .keycache h) Reg.KC_BANK_LAST_PASS (reshare h t).now) ∧
    ((s.H h).bankDeferred = true → exec (.kcBankRetry h) s = exec (.kcBankPass h) s)) ∧
  (∀ (h : Fin 16) (s : State), s.up h = true → (s.H h).bankWait = true → cacheMgReady h s = none →
    exec (.kcBankPass h) s = .next (if (s.H h).bankDeferred then s
      else raiseH h evBankDeferred (pgH .keycache h) {} (s.modH h (fun x => { x with bankDeferred := true })))) ∧
  (∀ (h : Nat) (s t : State) (b : Bytes), drbgRequest h 48 false s = some (b, t) →
    cacheMgReady h s = some (t.modH h (fun x => { x with cacheMg := { x.cacheMg.seed b with grace := 0 } }))) ∧
  (∀ (h : Fin 16) (who : Requester) (s w : State), s.answers h = true → w = wakeHearth h s → isInner who = true →
    exec (.kcFlush h who) s = .next ((w.H h).cache.foldl (fun s p => freeEntry h p.1 s) w)) ∧
  (∀ (h : Fin 16) (who : Requester) (s w : State), s.answers h = true → w = wakeHearth h s → isInner who = false →
    exec (.kcFlush h who) s = .next (refuse (pgH .keycache h) who 0x048 1 cRequester w)) ∧
  (∀ (b : Bool) (s : State), s.flueUp = true → s.chim.fuses.seed.isSome = true →
    ∃ t, exec (.identityKeyReady b) s = .next t ∧ t = { s with flue := { s.flue with spdm := t.flue.spdm } } ∧
      t.flue.spdm.rsaReady = (b || s.flue.spdm.rsaReady) ∧ t.flue.spdm.p384Ready = (!b || s.flue.spdm.p384Ready))

/-- A millisecond of operating time moves OP_TIME on, never past 2^44 - 1, adds one to the idle time of every group of a hearth
that is up, and RATE tokens, at most 1,000, to a VF's bucket up to its BURST; without an intact vault nothing happens. (Under
R52, R93, R409, R570, R613, which say more than is stated here.) -/
def Obligations.OperatingTime : Prop :=
  (∀ (s : State), s.chim.vault.intact = true →
    ∃ t, exec .opTimeTick s = .next t ∧ t.chim.vault.opTime = min (s.chim.vault.opTime + 1) (2 ^ 44 - 1) ∧
      t.chim.vault.sinceBank = s.chim.vault.sinceBank + 1 ∧ t.regs = s.regs ∧ t.out = s.out ∧ t.pending = s.pending ∧
      (∀ v x, s.flue.vfs.find? v = some x → ∃ y, t.flue.vfs.find? v = some y ∧ y = { x with tokens := y.tokens } ∧
        y.tokens = max x.tokens (min (s.ft v Reg.FT_DRAUGHT_BURST) (x.tokens + min 1000 (s.ft v Reg.FT_DRAUGHT_RATE)))) ∧
      (∀ h g x, s.up h = true → s.group? h g = some x → t.group? h g = some { x with idleMs := x.idleMs + 1 }) ∧
      (∀ h g, s.up h = false → t.group? h g = s.group? h g)) ∧
  (∀ (s : State), s.chim.vault.intact = false → exec .opTimeTick s = .next s)

/-- The two health tests: a run of 81 equal bits fails the repetition count, and 917 bits equal to the first of a window of
1,024 the adaptive proportion test; no other bit fails. (Under R434, which says more than is stated here.) -/
def Obligations.HealthTests : Prop :=
  ∀ (t : PairTest) (b : Nat), t.pos < 1024 →
    ((pairTest t b).2 = true ↔ (b = t.last ∧ 80 ≤ t.run) ∨ (t.pos ≠ 0 ∧ 917 ≤ t.count + (if b = t.first then 1 else 0))) ∧
    (pairTest t b).1.last = b ∧ (pairTest t b).1.run = (if b = t.last then t.run + 1 else 1) ∧
    (pairTest t b).1.pos = (t.pos + 1) % 1024 ∧ (t.pos = 0 → (pairTest t b).1.first = b ∧ (pairTest t b).1.count = 1)

/-- The raw samples of a hearth's source, its conditioner, the start-up test, RETEST and RESTART and their end. (Under R430 to
R442, R455, R461, which say more than is stated here.) The DRBG: its instantiation, a request of the firmware, which waits while
a mask generator waits for a seed, a due reseed, the policy, and the ports of the two worlds. (Under R439, R443 to R462, which
say more than is stated here.) -/
def Obligations.EntropyAndDrbg : Prop :=
  (∀ (h : Fin 16) (bits rings : BitVec 64) (s t : State), s.up h = true → (s.H h).power = 0 →
    (s.ent h).source ≠ .starting ∨ (s.ent h).testing ≠ 0 →
    t = (List.range 64).foldl (fun s p => samplePair h p (b2n (bits.toNat.testBit p)) (rings.toNat.testBit p) s) s →
    ∃ u, exec (.rawSample h bits rings) s = .next u ∧ (u.ent h).removed = (t.ent h).removed ∧ (u.ent h).source = (t.ent h).source ∧
      ((t.ent h).source = .healthy → (t.ent h).pool.length < 5 → (t.ent h).collN < 768 →
        (u.ent h).coll = (t.ent h).coll + (healthyBits (t.ent h).removed bits.toNat).1 * 2 ^ (t.ent h).collN ∧
        (u.ent h).collN = (t.ent h).collN + (healthyBits (t.ent h).removed bits.toNat).2) ∧
      u.regs = t.regs ∧ u.flue = t.flue ∧ u.chim = t.chim ∧ u.out = t.out) ∧
  (∀ (h : Fin 16) (bits rings : BitVec 64) (s : State), s.up h = false ∨ (s.H h).power ≠ 0 →
    exec (.rawSample h bits rings) s = .next s) ∧
  (∀ (h : Fin 16) (s : State), s.up h = true → (s.H h).power = 0 → (s.ent h).source = .healthy → 768 ≤ (s.ent h).collN →
    (s.ent h).pool.length < 5 →
    exec (.conditionerBlock h) s = .next (s.modEnt h (fun e =>
      { e with pool := e.pool ++ [bcc (slice Config.conditionerKey 0 32) (toLe 96 (e.coll % 2 ^ 768))], coll := e.coll / 2 ^ 768,
               collN := e.collN - 768 }))) ∧
  (∀ (h : Fin 16) (s : State), s.up h = true → (s.ent h).testing = 1 → 4096 ≤ (s.ent h).testPos →
    exec (.startupTestDone h) s = .next
      (let t := s.modEnt h (fun e => { e with testing := 0, source := .healthy, tests := [], coll := 0, collN := 0 })
       if 64 - popCount 64 (s.ent h).removed < 48 then sourceFail h t else t)) ∧
  (∀ (h : Fin 16) (who : Requester) (s w : State), s.answers h = true → w = wakeHearth h s → mgrOrInner who = true →
    (w.ent h).source = .failed →
    exec (.entRestart h who) s = .next (w.modEnt h (fun e =>
      { e with testing := 2, testPos := 0, testFails := 0, under := 2 ^ 64 - 1, source := .starting, tests := [] }))) ∧
  (∀ (h : Fin 16) (who : Requester) (s w : State), s.answers h = true → w = wakeHearth h s → mgrOrInner who = true →
    (w.ent h).source = .healthy →
    exec (.entRetest h who) s = .next (w.modEnt h (fun e =>
      { e with testing := 3, testPos := 0, testFails := 0, under := e.removed,
               tests := e.tests.filter (fun t => !e.removed.testBit t.1) }))) ∧
  (∀ (h : Fin 16) (who : Requester) (s w : State), s.answers h = true → w = wakeHearth h s → mgrOrInner who = true →
    ((w.ent h).source ≠ .failed → exec (.entRestart h who) s = .next (refuse (entPage h) who 0x040 2 cState w)) ∧
    ((w.ent h).source ≠ .healthy → exec (.entRetest h who) s = .next (refuse (entPage h) who 0x040 4 cState w))) ∧
  (∀ (h : Fin 16) (s : State), s.up h = true → (s.ent h).testing = 3 → 4096 ≤ (s.ent h).testPos →
    exec (.entTestDone h) s = .next (s.modEnt h (fun e =>
      { e with testing := 0, removed := e.removed &&& e.testFails, under := 0, testFails := 0 }))) ∧
  (∀ (h : Fin 16) (s t : State), s.up h = true → (s.ent h).testing = 2 → 4096 ≤ (s.ent h).testPos → (s.ent h).testFails = 0 →
    t = s.modEnt h (fun e => { e with testing := 0, removed := 0, under := 0, testFails := 0, source := .healthy,
                                      coll := 0, collN := 0, pool := [], tests := [] }) →
    exec (.entTestDone h) s = .next (raiseH h evEntRecovered (entPage h) { payload := captureBytes (entPage h) t } t)) ∧
  (∀ (h : Fin 16) (s : State) (kv : Bytes × Bytes), s.up h = true → (s.ent h).drbg = .uninstantiated → (s.ent h).source = .healthy →
    5 ≤ (s.ent h).pool.length →
    kv = drbgUpdate (zeros 32) (zeros 16) (drbgDf (((s.ent h).pool.take 4).flatten ++
      (padTo 16 s.chim.fuses.serial ++ [byte h] ++ zeros 15))) →
    exec (.drbgInstantiate h) s = .next ((s.modEnt h (fun e =>
      { e with key := kv.1, v := kv.2, core := e.pool.getD 4 [], pool := e.pool.drop 5, requests := 0, drbg := .running })).wr (entPage h)
        Reg.ENT_LAST_RESEED_TIME s.now)) ∧
  (∀ (h : Fin 16) (n : Nat) (s t : State) (b : Bytes), s.up h = true → 1 ≤ n → n ≤ 65536 → seedWaits (s.H h) = false →
    drbgRequest h n false s = some (b, t) →
    exec (.drbgGenerate h n) s = .next (t.modEnt h (fun e =>
      if e.bufIn.length < 32 then { e with bufIn := e.bufIn ++ b.take (64 - e.bufIn.length) }
      else if e.bufOut.length < 32 then { e with bufOut := e.bufOut ++ b.take (64 - e.bufOut.length) }
      else e))) ∧
  (∀ (h : Fin 16) (n : Nat) (s : State), seedWaits (s.H h) = true ∨ drbgRequest h n false s = none →
    exec (.drbgGenerate h n) s = .next s) ∧
  (∀ (h : Fin 16) (s : State), s.up h = true → (s.ent h).drbg ≠ .uninstantiated → canReseed (s.ent h) = true →
    s.reseedPeriod h ≤ (s.ent h).requests ∨ (s.ent h).drbg = .holdover ∨ (s.ent h).drbg = .stopped →
    exec (.drbgReseed h) s = .next (drbgReseed h s) ∧ ((drbgReseed h s).ent h).drbg = .running ∧
      ((drbgReseed h s).ent h).requests = 0 ∧ ((drbgReseed h s).ent h).pool = (s.ent h).pool.drop 4) ∧
  (∀ (h : Fin 16) (who : Requester) (d : Word) (s w : State), s.answers h = true → w = wakeHearth h s → mgrOrInner who = true →
    exec (.entPolicyWrite h who d) s = .next ((setFields (entPage h) [(Reg.ENT_CTRL_POLICY, d.toNat % 2)] w).modEnt h (fun e =>
      if d.toNat % 2 = 1 ∧ e.drbg = .stopped ∧ e.requests < reqLimit then { e with drbg := .holdover }
      else if d.toNat % 2 = 0 ∧ e.drbg = .holdover then { e with drbg := .stopped }
      else e))) ∧
  (∀ (h : Fin 16) (who : Requester) (s w : State), s.answers h = true → w = wakeHearth h s →
    (isInner who = true → 4 ≤ (w.ent h).bufIn.length →
      exec (.entDataRead h who false) s = .next ((w.modEnt h (fun e => { e with bufIn := (w.ent h).bufIn.drop 4 })).emit
        (.readData ((w.ent h).bufIn.take 4)))) ∧
    (isOuter who = true → 4 ≤ (w.ent h).bufOut.length →
      exec (.entDataRead h who true) s = .next ((w.modEnt h (fun e => { e with bufOut := (w.ent h).bufOut.drop 4 })).emit
        (.readData ((w.ent h).bufOut.take 4)))) ∧
    (isInner who = true → (w.ent h).bufIn.length < 4 →
      exec (.entDataRead h who false) s = .next ((w.wr (entPage h) Reg.ENT_STATUS_EMPTY_IN 1).emit (.readData (zeros 4)))) ∧
    (isInner who = false →
      exec (.entDataRead h who false) s =
        .next ((capture (entPage h) who 0x048 0 (reqIdentity who) true cRead w).emit (.readData (zeros 4))))) ∧
  (∀ (h : Fin 16) (who : Requester) (s w : State), (∀ v, who ≠ .vf v) → s.answers h = true → w = wakeHearth h s →
    (inVendorTest w = true → 32 ≤ (w.ent h).rawN →
      exec (.entRawRead h who) s = .next ((w.modEnt h (fun e => { e with raw := 0, rawN := 0 })).emit
        (.readData (toLe 4 (w.ent h).raw)))) ∧
    (inVendorTest w = false → exec (.entRawRead h who) s = .next (w.emit (.readData (zeros 4)))))

/-- Training, the patrol scrub, and the life of a protected range. INIT of a sub-channel that is not in RESET is refused. (Under
R466, R467, R469, R474 to R481, R488, which say more than is stated here.) Ownership commands wait, act and end together; a
protection unit takes its shadow at SYNC. (Under R498 to R501, R503, R509, R510, which say more than is stated here.) -/
def Obligations.MemoryPathCommands : Prop :=
  (∀ (h : Fin 16) (who : Requester) (s w : State), s.answers h = true → w = wakeHearth h s → mgrOrInner who = true → w.memState h = 0 →
    exec (.memInit h who) s = .next ((w.wr (memPage h) Reg.PAGE_CTRL_LOCK 1).wr (memPage h) Reg.MEM_STATUS_STATE
      (if cfgGib (w.wr (memPage h) Reg.PAGE_CTRL_LOCK 1) h = 0 then 3 else 1))) ∧
  (∀ (h : Fin 16) (who : Requester) (s w : State), s.answers h = true → w = wakeHearth h s → mgrOrInner who = true → w.memState h ≠ 0 →
    exec (.memInit h who) s = .next (captureMem h who 0x044 1 cState w)) ∧
  (∀ (h : Fin 16) (s : State), s.regs.sorted = true → s.memState h = 1 → s.up h = true → cfgGib s h < 2 ^ 6 →
    (∃ t, exec (.memTrainingDone h true) s = .next t ∧ t.memState h = 2 ∧ t.rd (memPage h) Reg.MEM_CFG_CAP_GIB = cfgGib s h ∧
      (t.H h).dump.base = some (t.memInner h + dumpBase)) ∧
    (∃ t, exec (.memTrainingDone h false) s = .next t ∧ t.memState h = 3 ∧ t = { s with regs := t.regs })) ∧
  (∀ (h : Fin 16) (off : BitVec 35) (c : LineCheck) (s : State), s.up h = true → s.memReady h = true →
    s.flag (memPage h) Reg.MEM_CTRL_SCRUB_EN = true → off.toNat < s.memCap h →
    exec (.patrolScrub h off c) s = .next (lineFinding h off.toNat (scrubView c) s)) ∧
  (∀ (h : Fin 16) (r : Fin 8) (who : Requester) (s w : State) (c : Nat), s.answers h = true → w = wakeHearth h s → r.val ≠ 0 →
    mgrOrInner who = true → initCode w h r = some c →
    exec (.rngInit h r who) s =
      .next ((w.wr (memPage h) (Reg.RNG_STATUS_CFG_ERR r) 1).wr (memPage h) (Reg.RNG_STATUS_CFG_CODE r) c)) ∧
  (∀ (h : Fin 16) (r : Fin 8) (who : Requester) (s w : State), s.answers h = true → w = wakeHearth h s → r.val ≠ 0 →
    mgrOrInner who = true → initCode w h r = none → (regRange w h r).mode ≠ 0 → w.regs.sorted = true →
    ∃ t k, exec (.rngInit h r who) s = .next t ∧ t.rangeState h r = rsInit ∧ t.rd (memPage h) (Reg.RNG_STATUS_CFG_ERR r) = 0 ∧
      vaultGen t h r = (regRange w h r).gen ∧ t.range h r = { regRange w h r with key := k } ∧
      k = rangeKey ((hearthRoot (w.H h)).getD []) h r (regRange w h r).gen) ∧
  (∀ (h : Fin 16) (r : Fin 8) (s : State), s.up h = true → s.rangeState h r = rsInit →
    exec (.memRangeReady h r) s = .next (raiseMem h evRangeReady (memPage h) r ((s.modMem h (fun m =>
      { m with
        ddr := memClear (memClear m.ddr (s.range h r).base (s.range h r).size) (s.range h r).metaAt (s.range h r).metaLen,
        nodes := m.nodes.filter (fun l => !spanHas (s.range h r).metaAt (s.range h r).metaLen (64 * l)),
        poison := m.poison.filter (fun l => l * 64 < (s.range h r).base || (s.range h r).base + (s.range h r).size ≤ l * 64) })).wr
          (memPage h) (Reg.RNG_STATUS_STATE r) rsActive))) ∧
  (∀ (h : Fin 16) (s : State) (a : Nat × Nat) (l : List (Nat × Nat)), s.up h = true → (s.H h).mem.reenc = a :: l →
    exec (.reencryptionDone h) s = .next (((s.modMem h (fun m => { m with reenc := l })).wr (memPage h) Reg.MEM_REENC_BUSY
      (b2n (decide (0 < l.length)))).wr (memPage h) Reg.MEM_REENC_QUEUED (l.length - 1))) ∧
  (∀ (h : Fin 16) (who : Requester) (s w : State), s.answers h = true → w = wakeHearth h s → mgrOrInner who = true →
    goCode w h = none →
    exec (.ownGo h who) s = .next (((w.modMem h (fun m => { m with pending := m.pending ++ [regOwn w h] })).wr (memPage h)
      Reg.OWN_STATUS_CMD_ERR 0).wr (memPage h) Reg.OWN_STATUS_ERR_CODE 0)) ∧
  (∀ (h : Fin 16) (who : Requester) (s w : State) (c : Nat), s.answers h = true → w = wakeHearth h s → mgrOrInner who = true →
    goCode w h = some c →
    exec (.ownGo h who) s = .next ((w.wr (memPage h) Reg.OWN_STATUS_CMD_ERR 1).wr (memPage h) Reg.OWN_STATUS_ERR_CODE c)) ∧
  (∀ (h : Fin 16) (who : Requester) (s w : State), s.answers h = true → w = wakeHearth h s → mgrOrInner who = true →
    w.flag (memPage h) Reg.OWN_STATUS_SYNC_BUSY = false →
    exec (.ownershipSync h who) s =
      .next ((w.wr (memPage h) Reg.OWN_STATUS_SYNC_BUSY 1).modMem h (fun m => { m with transit := m.pending }))) ∧
  (∀ (h : Fin 16) (s t : State), s.up h = true → s.flag (memPage h) Reg.OWN_STATUS_SYNC_BUSY = true →
    t = ((s.H h).mem.transit.foldl (fun s c => (List.range c.count).foldl (fun s i => setOwner h (c.page + i) c.entry s) s) s).modMem h
      (fun m => { m with pending := [], transit := [] }) →
    exec (.ownershipSyncDone h) s = .next (raiseMem h evOwnSyncDone (memPage h) 0xFF
      ((t.wr (memPage h) Reg.OWN_STATUS_SYNC_BUSY 0).wr (memPage h) Reg.OWN_STATUS_GEN
        ((t.wr (memPage h) Reg.OWN_STATUS_SYNC_BUSY 0).rd (memPage h) Reg.OWN_STATUS_GEN + 1)))) ∧
  (∀ (h page entry : Nat) (s : State), (s.H h).mem.owners.sorted = true → s.ownEntry h page % 2 ^ 17 = entry % 2 ^ 17 →
    (setOwner h page entry s).ownEntry h page = entry ∧
    (∀ p, p ≠ page → (setOwner h page entry s).ownEntry h p = s.ownEntry h p) ∧
    ((setOwner h page entry s).H h).mem.ddr = (s.H h).mem.ddr) ∧
  (∀ (h : Fin 16) (m : Fin 26) (who : Requester) (s w : State), s.answers h = true → w = wakeHearth h s → mpuWriter m who = true →
    (∀ i, i < 16 → regionBad (shadowRegion w h m i) = false) →
    exec (.mpuSync h m who) s =
      .next (w.modMem h (fun x => { x with mpus := x.mpus.put m { regions := mpuImage w h m, syncing := true } }))) ∧
  (∀ (h : Fin 16) (m : Fin 26) (s : State), s.up h = true → ((s.H h).mem.mpus.getD m {}).syncing = true → s.regs.sorted = true →
    ∃ t, exec (.mpuSyncDone h m) s = .next t ∧ ((t.H h).mem.mpus.getD m {}).syncing = false ∧
      ((t.H h).mem.mpus.getD m {}).regions = ((s.H h).mem.mpus.getD m {}).regions ∧
      t.rd (mpuPage h m) Reg.PAGE_GEN_GEN = (s.rd (mpuPage h m) Reg.PAGE_GEN_GEN + 1) % 2 ^ 16)

/-- What a master's access brings, and that a refused one stores nothing. (Under R464, R471, R473, R512 to R514, which say more
than is stated here.) -/
def Obligations.MemoryAccessAnswers : Prop :=
  (∀ (h : Fin 16) (m : Fin 26) (k : AccessKind) (mm : Bool) (a : BitVec 48) (n : Fin 65) (d : Bytes) (c : LineCheck) (s : State)
    (q : Req), m.val ≠ 25 → s.up h = true → n.val ≠ 0 → masterReq s h m mm (kindCode k) = some q →
    exec (.memoryAccess h m k mm a n d c) s = .next (deliver h q a.toNat (accessAnswer h q a.toNat n d c s))) ∧
  (∀ (h : Fin 16) (k : AccessKind) (mm : Bool) (a : BitVec 48) (n : Fin 65) (d : Bytes) (c : LineCheck) (s w : State) (q : Req),
    w = onHearth h (fun s => s) s → w.up h = true → n.val ≠ 0 → masterReq w h 25 mm (kindCode k) = some q →
    exec (.memoryAccess h 25 k mm a n d c) s = .next (deliver h q a.toNat (accessAnswer h q a.toNat n d c w))) ∧
  (∀ (h : Nat) (q : Req) (off n : Nat) (d : Bytes) (s : State), s.memInner h ≤ off →
    innerAllows (innerArea (off - s.memInner h)) q = false →
    ∃ t, ddrAccess h q off n d .clean s = (t, .refused vInternal) ∧ t = violate h q (2 ^ 35 + off) vInternal s) ∧
  (∀ (h : Nat) (q : Req) (off n : Nat) (d : Bytes) (s : State), off < s.memInner h → s.rangeAt h off = none →
    passesAll q.master = false → s.poisoned h (s.memInner h + off / 4096 * 4) = false →
    (∀ o ∈ (s.H h).mem.transit, ¬ (o.page ≤ off / 4096 ∧ off / 4096 < o.page + o.count)) →
    ownAllows (s.ownEntry h (off / 4096)) q.ident q.writes q.fetches = false →
    ddrAccess h q off n d .clean s = (violate h q (2 ^ 35 + off) vOwnership s, .refused vOwnership)) ∧
  (∀ (h : Nat) (q : Req) (off n : Nat) (s : State), off < s.memInner h → s.rangeAt h off = none →
    passesAll q.master = false → s.poisoned h (s.memInner h + off / 4096 * 4) = false → s.poisoned h off = false → q.writes = false →
    (∀ o ∈ (s.H h).mem.transit, ¬ (o.page ≤ off / 4096 ∧ off / 4096 < o.page + o.count)) →
    ownAllows (s.ownEntry h (off / 4096)) q.ident q.writes q.fetches = true → (s.H h).ctrs.getD 159 0 + 1 < 2 ^ 64 →
    ddrAccess h q off n [] .clean s = (addCtr h 159 1 s, .ok (memBytes (s.H h).mem.ddr off n)))

/-- The bytes of hearth DDR: a write of bytes is read back from where they were written, and every other byte is unchanged. -/
def Obligations.MemoryReadsBackWrites : Prop :=
  ∀ (m : List Host.Cell) (a : Nat) (d : Bytes), Memory.wf m = true →
    memBytes (memPut m a d) a d.length = d ∧ (∀ b, b < a ∨ a + d.length ≤ b → memGet (memPut m a d) b = memGet m b)

/-- The caches serve the cores' accesses to cacheable memory alone, and those of engines and the stoker go past them; a line
brought into the L2 is found in its world's ways, of which there are 4 and 12, and a store to the ways of one world leaves those
of the other; a load whose line the core's cache holds reads no memory; the debug master looks up the debugged world's ways and
allocates nothing; a flush leaves nothing in the first level; power states H1 and H2 keep the caches, and a reset or H3 does
not. What of the caches the spec leaves open is the model's (log 143). (Under R522, R529, R530, which say more than is stated
here.) -/
def Obligations.CachesServeTheirWorld : Prop :=
  (∀ (h : Nat) (q : Req) (a n : Nat) (d : Bytes) (c : LineCheck) (s : State),
    isCoreMaster q.master = false ∧ q.master ≠ 22 ∨ cacheAttr s h q a < 2 →
    lineAccess h q a n d c s = fabric h q a n d c [] s) ∧
  (∀ (h : Nat) (c : CacheLine) (s : State),
    (∃ x, l2Find (l2Put h c s) h c.line c.outer = some x ∧ x.data = c.data) ∧
    ((l2Group s h c.line c.outer).lines.length ≤ l2Ways c.outer →
      (l2Group (l2Put h c s) h c.line c.outer).lines.length ≤ l2Ways c.outer)) ∧
  (l2Ways false = 4 ∧ l2Ways true = 12) ∧
  (∀ (h line other : Nat) (outer : Bool) (g : L2Group) (s : State),
    l2Group (l2Store h line outer g s) h other (!outer) = l2Group s h other (!outer) ∧
    l2Group (l2Store h line outer g s) h line outer = g) ∧
  (∀ (h : Nat) (q : Req) (a n : Nat) (d : Bytes) (c : LineCheck) (s : State) (x : CacheLine), cacheable s h q a = true →
    q.master ≠ 22 → q.writes = false → checkAccess h q a c s = (s, none) →
    lineIn (l1Of s h q.master q.fetches) (a / 64) q.outer = some x →
    lineAccess h q a n d c s = (s, .ok (slice x.data (a % 64) n))) ∧
  (∀ (h : Nat) (q : Req) (a n : Nat) (d : Bytes) (c : LineCheck) (s : State), cacheable s h q a = true → q.master = 22 →
    (∀ k, k < 4 → ∀ x, lineIn (l1Of s h k false) (a / 64) q.outer = some x → x.dirty = false) →
    (l2Find s h (a / 64) q.outer = none → lineAccess h q a n d c s = fabric h q a n d c [] s) ∧
    (∀ x, l2Find s h (a / 64) q.outer = some x → q.writes = false → checkAccess h q a c s = (s, none) →
      lineAccess h q a n d c s = (s, .ok (slice x.data (a % 64) n)))) ∧
  (∀ (h c : Nat) (s : State), (∀ x ∈ l1Of s h c false, x.dirty = false) → (s.H h).caches.l1d.sorted = true →
    (s.H h).caches.l1i.sorted = true → l1Of (flushL1 h c s) h c false = [] ∧ l1Of (flushL1 h c s) h c true = [] ∧
    ((flushL1 h c s).H h).caches.l2 = (s.H h).caches.l2) ∧
  (∀ (x : Hearth) (b : Bool), (hearthRest x b).caches = {} ∧ (coresWait x).caches = x.caches ∧
    (coresWait (dropRandom x)).caches = x.caches)

/-- R524: the integer registers that each transit passes and the world it ends in: a CALL passes x10 to x15 and a RETURN and a
DISPATCH x10 and x11, all others zero; an INTERRUPT banks every register and the pc and enters with zeros, and RESUME restores
them. -/
def Obligations.TransitRegisters : Prop :=
  ∀ (s : State) (h c n : Nat) (x : Core), x.regs.length = 31 →
    ((crossWorld s h c .call n x).world = .inner ∧ (crossWorld s h c .call n x).epc = x.pc ∧ ∀ i, i < 31 → (crossWorld s h c .call n x).regs.getD i 0 =
      if 10 ≤ i + 1 ∧ i + 1 ≤ 15 then x.regs.getD i 0 else 0) ∧
    ((crossWorld s h c .ret n x).world = .outer ∧ (crossWorld s h c .ret n x).pc = x.epc ∧
      ∀ i, i < 31 → (crossWorld s h c .ret n x).regs.getD i 0 = if i + 1 = 10 ∨ i + 1 = 11 then x.regs.getD i 0 else 0) ∧
    ((crossWorld s h c .dispatch n x).world = .outer ∧ (crossWorld s h c .dispatch n x).pc = outerVec s h c ∧
      ∀ i, i < 31 → (crossWorld s h c .dispatch n x).regs.getD i 0 = if i + 1 = 10 ∨ i + 1 = 11 then x.regs.getD i 0 else 0) ∧
    ((crossWorld s h c .interrupt n x).world = .inner ∧ (crossWorld s h c .interrupt n x).banked = true ∧
      (crossWorld s h c .interrupt n x).bank = x.regs ++ [x.pc] ∧
      ∀ i, i < 31 → (crossWorld s h c .interrupt n x).regs.getD i 0 = 0) ∧
    (crossWorld s h c .resume n (crossWorld s h c .interrupt n x)).regs = x.regs ∧
    (crossWorld s h c .resume n (crossWorld s h c .interrupt n x)).pc = x.pc ∧
    (crossWorld s h c .resume n (crossWorld s h c .interrupt n x)).world = .outer

/-- The five transits start when they are open to their core, and end with the core's first-level caches flushed and the
registers that R524 passes; a store that names no open transit faults; RELEASE starts a core in the inner world. (Under R15,
R16, R520 to R526, R531, which say more than is stated here.) Fatal declarations of the inner world; challenges, tokens,
revocation, expiry, halts. (Under R532 to R541, R662, which say more than is stated here.) -/
def Obligations.WorldsFatalAndDebug : Prop :=
  (∀ (h : Fin 16) (c : Fin 4) (v : Byte) (s : State), coreRuns s h c = true →
    (transitOpen (s.core h c) .call = true → exec (.gateCall h c v) s = .next (startTransit h c .call v.toNat s)) ∧
    (transitOpen (s.core h c) .ret = true → exec (.gateReturn h c) s = .next (startTransit h c .ret 0 s)) ∧
    (transitOpen (s.core h c) .resume = true → exec (.gateResume h c) s = .next (startTransit h c .resume 0 s)) ∧
    (transitOpen (s.core h c) .dispatch = true → exec (.gateDispatch h c) s = .next (startTransit h c .dispatch 0 s)) ∧
    (transitOpen (s.core h c) .call = false → exec (.gateCall h c v) s = .next (gateRefused h c (1 + 256 * v.toNat) s)) ∧
    (transitOpen (s.core h c) .ret = false → exec (.gateReturn h c) s = .next (gateRefused h c 2 s))) ∧
  (∀ (h : Fin 16) (c : Fin 4) (s : State), s.up h = true → c.val = 0 ∨ (s.core h c).released = true → (s.core h c).transit = none →
    (s.core h c).world = .outer → s.rd (gatePage h) Reg.GATE_IRQ_CORE = c.val →
    exec (.gateInterrupt h c) s = .next (startTransit h c .interrupt 0 s)) ∧
  (∀ (h : Fin 16) (c : Fin 4) (d : Word) (s : State), coreRuns s h c = true → opOfCode (d.toNat % 8) = none →
    exec (.gateFault h c d) s = .next (gateRefused h c d.toNat s)) ∧
  (∀ (h : Fin 16) (c : Fin 4) (s : State) (op : WorldOp) (n : Nat), s.up h = true → (s.core h c).transit = some (op, n) →
    exec (.gateTransitDone h c) s = .next (addCtr h 155 1 ((flushL1 h c s).modCore h c (crossWorld s h c op n)))) ∧
  (∀ (h : Fin 16) (c : Fin 4) (who : Requester) (s w : State), s.answers h = true → w = wakeHearth h s → isInner who = true →
    c.val ≠ 0 → (w.core h c).released = false →
    exec (.coreRelease h c who) s = .next ((w.wr (gatePage h) (Reg.CORE_CTRL_RELEASE c) 1).modCore h c (fun x =>
      { x with released := true, halted := false, world := .inner, machine := true,
               pc := innerVec (w.wr (gatePage h) (Reg.CORE_CTRL_RELEASE c) 1) h }))) ∧
  (∀ (h : Fin 16) (s : State), s.works h = true →
    exec (.firmwareFatal h) s = .next (enterFatal h fatFirmware s) ∧
    ∀ c : Fin 4, (s.core h c).world = .inner → exec (.coreLockup h c) s = .next (enterFatal h fatLockup s)) ∧
  (∀ (s t u : State) (h : Nat) (b : Bytes), s.flueUp = true → t = s.wr dbgPage Reg.DBG_STATUS_CHALLENGE_OPEN 0 →
    h0Hearth t = some h → drbgRequest h 32 false t = some (b, u) →
    exec (.dbgNewChallenge .pf1) s = .next ((setChallenge b u).wr dbgPage Reg.DBG_STATUS_CHALLENGE_OPEN 1)) ∧
  (∀ (s : State), s.flueUp = true → s.flag dbgPage Reg.DBG_STATUS_BUSY = false →
    exec (.dbgSubmit .pf1) s = .next (((s.modFlue (fun x =>
      { x with token := tokenBuffer s, tokenChal := if s.flag dbgPage Reg.DBG_STATUS_CHALLENGE_OPEN then some (challengeBytes s) else none })).wr dbgPage
        Reg.DBG_STATUS_BUSY 1).wr dbgPage Reg.DBG_STATUS_CHALLENGE_OPEN 0)) ∧
  (∀ (s : State), s.flueUp = true → s.flag dbgPage Reg.DBG_STATUS_BUSY = true →
    exec .dbgTokenCheckDone s = .next ((checkToken s s.flue.token).elim
      (grantEnables (byteAt s.flue.token 5) (byteAt s.flue.token 6) (fieldLe s.flue.token 0x58 4)
        (((s.wr dbgPage Reg.DBG_STATUS_BUSY 0).wr dbgPage Reg.DBG_STATUS_CODE stOK).modFlue
          (fun x => { x with token := [], tokenChal := none })))
      (fun st => ((s.wr dbgPage Reg.DBG_STATUS_BUSY 0).wr dbgPage Reg.DBG_STATUS_CODE st).modFlue
        (fun x => { x with token := [], tokenChal := none })))) ∧
  (∀ (d : Word) (s : State), s.flueUp = true →
    exec (.dbgRevoke .pf1 d) s = .next (dropEnables (bits d.toNat 12 4) (bits d.toNat 8 4) s)) ∧
  (∀ (who : Requester) (d : Word) (s : State), s.flueUp = true → who ≠ .pf1 →
    exec (.dbgNewChallenge who) s = .next (refuse dbgPage who 0x040 1 cRequester s) ∧
    exec (.dbgSubmit who) s = .next (refuse dbgPage who 0x040 2 cRequester s) ∧
    exec (.dbgRevoke who d) s = .next (refuse dbgPage who 0x040 d.toNat cRequester s)) ∧
  (∀ (h : Fin 16) (s : State), (s.H h).dbgExpiry ≠ 0 → (s.H h).dbgExpiry ≤ s.now →
    exec (.dbgExpiry h) s = .next (dropEnables h 15 s)) ∧
  (∀ (h : Fin 16) (s : State), (s.H h).dbgExpiry = 0 ∨ s.now < (s.H h).dbgExpiry → exec (.dbgExpiry h) s = .next s) ∧
  (∀ (h : Fin 16) (c : Fin 4) (s : State), s.flueUp = true → coreRuns s h c = true → invasive s h c = true →
    exec (.debugHalt h c) s = .next (s.modCore h c (fun x => { x with halted := true }))) ∧
  (∀ (h : Fin 16) (c : Fin 4) (s : State), s.flueUp = true → invasive s h c = false →
    exec (.debugHalt h c) s = .next s ∧ exec (.debugResume h c) s = .next s) ∧
  (∀ (h : Fin 16) (c : Fin 4) (s : State), s.flueUp = true → s.up h = true → (s.core h c).halted = true → invasive s h c = true →
    (s.H h).fatal = none →
    exec (.debugResume h c) s = .next (s.modCore h c (fun x => { x with halted := false })))

/-- What the targets and the power states of a hearth are and what each entry and exit needs; R614 to R619: pulses to a hearth
whose clock is stopped are counted on their source's side, at most one in flight and 255 pending, and are delivered at the wake,
with OVERFLOW where one was lost. (Under R542 to R545, R562, which say more than is stated here.) Power profiles, current
flattening, block requests and holds. (Under R546 to R560, which say more than is stated here.) -/
def Obligations.PowerAndProfiles : Prop :=
  (∀ (h : Fin 16) (who : Requester) (d : Word) (s w : State) (v : Nat), s.answers h = true → w = wakeHearth h s →
    mgrOrInner who = true → v = bits d.toNat 0 2 → v < 2 ∨ isInner who = true ∨ holds? (setFields (powerPage h) [(Reg.PWR_CTRL_TARGET, v)] w) h 20 = false →
    exec (.pwrTargetWrite h who d) s = .next ((undefer h 20 (setFields (powerPage h) [(Reg.PWR_CTRL_TARGET, v)] w)).modH h
      (fun x => { x with pwrTarget := v }))) ∧
  (∀ (h : Fin 16) (who : Requester) (d : Word) (s w : State), s.answers h = true → w = wakeHearth h s → mgrOrInner who = false →
    exec (.pwrTargetWrite h who d) s = .next (refuse (powerPage h) who 0x040 d.toNat cRequester w) ∧
    exec (.profileWrite h who d) s = .next (refuse (powerPage h) who 0x040 d.toNat cRequester w) ∧
    exec (.flattenWrite h who d) s = .next (refuse (powerPage h) who 0x040 d.toNat cRequester w)) ∧
  (∀ (h : Fin 16) (s : State), s.up h = true → (s.H h).power = 0 → (s.H h).pwrTarget = 1 → jobsQuiet (s.H h) = true →
    exec (.h1Entry h) s = .next (s.modH h (fun x => { coresWait x with power := 1 }))) ∧
  (∀ (h : Fin 16) (s : State), (s.H h).power = 1 → exec (.h1Wake h) s = .next (s.modH h (fun x => { x with power := 0 }))) ∧
  (∀ (h : Fin 16) (s : State), s.up h = true → (s.H h).pwrTarget = 2 → jobsQuiet (s.H h) = true → memQuiet s h = true →
    exec (.h2Entry h) s = .next (s.modH h (fun x => { coresWait (dropRandom x) with power := 2 }))) ∧
  (∀ (h : Fin 16) (s : State), (s.H h).power = 2 → (s.H h).pwrTarget ≤ 1 →
    exec (.h2ExitDone h) s = .next (deliverPulses h (s.modH h exitH2))) ∧
  (∀ (k : Nat), 1 ≤ k → (List.replicate k ()).foldl (fun (c : Crossing) _ => c.pulse) {} =
    { inFlight := 1, pending := min (k - 1) 255, overflow := decide (256 < k) }) ∧
  (∀ (h b : Nat) (s : State),
    (s.up h = true → sendPulse h b s = feedPulse h b 1 s) ∧
    (s.up h = false → s.answers h = false → sendPulse h b s = s) ∧
    (s.up h = false → s.answers h = true → s.hearths.sorted = true →
      (sendPulse h b s).H h = { s.H h with cross := (s.H h).cross.put b ((s.H h).cross.getD b {}).pulse })) ∧
  (∀ (h k : Nat) (s : State), s.up h = true → 0 < k →
    ((s.H h).cross = [] → deliverPulses h s = s.modH h (fun x => { x with cross := [] })) ∧
    ((s.H h).cross = [(0, { inFlight := 1, pending := k, overflow := false })] →
      deliverPulses h s = addCtr h 149 k (addCtr h 149 1 (s.modH h (fun x => { x with cross := [] })))) ∧
    ((s.H h).cross = [(0, { inFlight := 1, pending := k, overflow := true })] →
      deliverPulses h s = errCtr h 209 ((addCtr h 149 k (addCtr h 149 1 (s.modH h (fun x => { x with cross := [] })))).orBit
        (hCtrPage h) Reg.H_CTR_XOVF_XOVF 0))) ∧
  (∀ (h : Fin 16) (s : State), s.regs.sorted = true → s.enabled h = true → s.live h = true → s.up h = true → (s.H h).pwrTarget = 3 →
    jobsQuiet (s.H h) = true → memQuiet s h = true → quiesced s h = true → (∀ r, r < 8 → s.rangeState h r = rsOff) →
    ∃ t, exec (.h3Entry h) s = .next t ∧ t.hState h = hsOff ∧ (t.H h).power = 3 ∧ (t.H h).cache = [] ∧ (t.H h).shadow = none ∧
      (t.H h).engines = [] ∧ (t.H h).mem.ddr = (s.H h).mem.ddr ∧ (t.H h).enables = (s.H h).enables ∧
      (t.H h).jobs = (s.H h).jobs) ∧
  (∀ (h : Fin 16) (s : State), jobsQuiet (s.H h) = false →
    exec (.h1Entry h) s = .next s ∧ exec (.h2Entry h) s = .next s ∧ exec (.h3Entry h) s = .next s) ∧
  (∀ (h : Fin 16) (who : Requester) (d : Word) (s w : State), s.answers h = true → w = wakeHearth h s → mgrOrInner who = true →
    (bits d.toNat 2 2 = 3 → exec (.profileWrite h who d) s = .next (refuse (powerPage h) who 0x040 d.toNat cValue w)) ∧
    (bits d.toNat 2 2 < 3 → (bits d.toNat 2 2 = (w.H h).profile ∧ (w.H h).transition = false) →
      exec (.profileWrite h who d) s = .next (setFields (powerPage h) [(Reg.PWR_CTRL_PROFILE, bits d.toNat 2 2)] w)) ∧
    (bits d.toNat 2 2 < 3 → ¬(bits d.toNat 2 2 = (w.H h).profile ∧ (w.H h).transition = false) →
      exec (.profileWrite h who d) s = .next ((setFields (powerPage h) [(Reg.PWR_CTRL_PROFILE, bits d.toNat 2 2)] w).modH h
        (fun x => { x with transition := true }))) ∧
    exec (.flattenWrite h who d) s = .next (setFields (powerPage h) [(Reg.PWR_CTRL_FLATTEN, bits d.toNat 4 1)] w)) ∧
  (∀ (h : Fin 16) (s : State), (s.H h).transition = true →
    exec (.pwrProfileDone h) s = .next (raiseH h evProfileDone (powerPage h) {} (deliverPulses h
      (s.modH h (fun x => { x with transition := false, profile := s.rd (powerPage h) Reg.PWR_CTRL_PROFILE }))))) ∧
  (∀ (h : Fin 16) (hi : Bool) (who : Requester) (d : Word) (s w : State), s.answers h = true → w = wakeHearth h s →
    (mgrOrInner who || (isOuter who && w.flag (powerPage h) Reg.PWR_CTRL_OUTER_REQ)) = true →
    exec (.pwrBlkReqWrite h who hi d) s = .next (writeBlkReq h who hi d.toNat w)) ∧
  (∀ (h : Fin 16) (hi : Bool) (who : Requester) (d : Word) (s w : State), s.answers h = true → w = wakeHearth h s →
    (mgrOrInner who || (isOuter who && w.flag (powerPage h) Reg.PWR_CTRL_OUTER_REQ)) = false →
    exec (.pwrBlkReqWrite h who hi d) s =
      .next (refuse (powerPage h) who (if hi then 0x050 else 0x04C) d.toNat cRequester w)) ∧
  (∀ (h : Nat) (b v : Nat) (who : Requester) (s : State), v ≠ 0 → isInner who = true ∨ holds? s h b = false → s.blockState h b ≠ v →
    askBlock h b who v s = setBlock h b 3 (undefer h b s)) ∧
  (∀ (h : Fin 16) (b : Fin 20) (s : State), s.up h = true → s.blockState h b = 3 → blockIdle (s.eng h b) = true →
    (blockReq s h b ≠ 2 → exec (.blockPowerDone h b) s = .next (setBlock h b (blockReq s h b) s)) ∧
    (blockReq s h b = 2 → exec (.blockPowerDone h b) s = .next (killBlock h b (setBlock h b 2 s)))) ∧
  (∀ (h : Fin 16) (b : Fin 20) (s : State), s.up h = true → s.blockState h b = 4 →
    exec (.blockPowerDone h b) s = .next (requestKat h b false (setBlock h b 0 s))) ∧
  (∀ (h : Fin 16) (who : Requester) (d : Word) (s w t : State), s.answers h = true → w = wakeHearth h s → isInner who = true →
    t = setFields (powerPage h) [(Reg.PWR_HOLD_HOLD, d.toNat)] w →
    exec (.pwrHoldWrite h who d) s = .next ((List.range 21).foldl (fun s b =>
      if (w.rd (powerPage h) Reg.PWR_HOLD_HOLD).testBit b == d.toNat.testBit b then s else changeHold h b (d.toNat.testBit b) s) t)) ∧
  (∀ (h : Fin 16) (who : Requester) (d : Word) (s w : State), s.answers h = true → w = wakeHearth h s → isInner who = false →
    exec (.pwrHoldWrite h who d) s = .next (refuse (powerPage h) who 0x05C d.toNat cRequester w))

/-- A trip of one source outside the BATTERY regime, whose response is LOG or ALARM, sets its sticky flag, raises LEVEL to its
response at least, logs one TRIP entry, and touches neither a hearth nor the vault's keys. R572: a temperature source trips
above 110 or below -15 degrees, of the industrial variant above 115 or below -50 degrees, and not between them. (Under R575,
R586, R589, which say more than is stated here.) -/
def Obligations.TripIsLogged : Prop :=
  (∀ (n : Fin 30) (v : BitVec 32) (s : State), s.chim.vault.intact = true → regimeOf s.chim = .standby → n.val < 28 →
    canTrip s n = true → tripMet s.variant n v.toNat = true → respAt s.chim.vault.resp n ≤ 1 → s.chim.vault.log.length < 252 →
    ∃ t, exec (.tamperTrip [(n, v)]) s = .next t ∧ t.chim.vault.sticky = setBit s.chim.vault.sticky n true ∧
      t.chim.vault.level = max s.chim.vault.level (respAt s.chim.vault.resp n) ∧ t.chim.vault.log.length = s.chim.vault.log.length + 1 ∧
      t.chim.vault.embers = s.chim.vault.embers ∧ t.chim.vault.owner = s.chim.vault.owner ∧ t.chim.vault.valid = s.chim.vault.valid ∧
      t.chim.vault.resp = s.chim.vault.resp ∧ t.hearths = s.hearths ∧ t.flue = s.flue ∧ t.regs = s.regs) ∧
  (∀ (v : Variant) (q : Nat), q < 4096 →
    (tripMet v 14 q = true ↔ (if v.industrial then 460 else 440) < q ∧ q < 2048) ∧
    (tripMet v 15 q = true ↔ 2048 ≤ q ∧ q + (if v.industrial then 200 else 60) < 4096)) ∧
  (∀ (n : Fin 30) (v : BitVec 32) (s : State), s.chim.vault.intact = true → n.val = 14 ∨ n.val = 15 → canTrip s n = true →
    tripMet s.variant n v.toNat = false → regimeOf s.chim ≠ .battery →
    exec (.tamperTrip [(n, v)]) s = .next (if s.chim.main then s.wr tamperPage Reg.TMP_TEMP_TEMP v.toNat else s))

/-- A quench leaves no ember, no owner ember and no decision record in the vault, whatever the regime; in the MAIN regime no
shadow and no key-cache entry in any hearth, and it goes on until its end; otherwise the next start reports it. (Under R578,
R580, which say more than is stated here.) -/
def Obligations.QuenchLeavesNoKey : Prop :=
  ∀ (s : State),
    (quench s).chim.vault.embers = [] ∧ (quench s).chim.vault.owner = {} ∧ (quench s).chim.vault.valid = false ∧
    (quench s).chim.vault.records = [] ∧ (quench s).chim.vault.applies = [] ∧
    (quench s).chim.vault.counters = s.chim.vault.counters ∧
    (s.chim.main = true → (quench s).chim.quenching = true ∧ ∀ h, ((quench s).H h).shadow = none ∧ ((quench s).H h).cache = [] ∧
      ((quench s).H h).opmem = [] ∧ ((quench s).H h).saves = []) ∧
    (s.chim.main = false → (quench s).chim.vault.quenched = true)

/-- The tamper supervisor's commands. (Under R571 to R605, which say more than is stated here.) -/
def Obligations.TamperCommands : Prop :=
  (∀ (l : List (Fin 30 × BitVec 32)) (s : State), s.chim.vault.intact = true →
    exec (.tamperTrip l) s = .next (doTrips ((l.map (fun p => (p.1.val, p.2.toNat))).filter (fun p =>
      decide (p.1 < 28) && (regimeOf s.chim != .battery || p.1 == 12 || p.1 == 13))) s)) ∧
  (∀ (l : List (Fin 30 × BitVec 32)) (s : State), s.chim.vault.intact = true → regimeOf s.chim = .battery →
    exec (.batterySample l) s = .next (doTrips ((l.map (fun p => (p.1.val, p.2.toNat))).filter (fun p => decide (p.1 < 28))) s)) ∧
  (∀ (s : State), s.chim.quenching = true →
    exec .quenchDone s = .next
      (let t := (List.range 512).foldl (fun s v => if s.bound v then tdiError v s else s)
        (s.hearthList.foldl (fun s h => hearthReset h stQuenched s) (s.modChim (fun c => { c with quenching := false })))
       refreshPins (raiseTamper 2 (quenchEntry t) t))) ∧
  (∀ (s : State), s.flueUp = true →
    exec (.tmpTrigger .pf0) s = .next (doTrips [(29, 0)] s) ∧
    (s.chim.vault.locked = false →
      exec (.tmpLock .pf0) s = .next (logEntry kLock 0xFF 0 0 (s.modVault (fun v => { v with locked := true }))).1) ∧
    (s.chim.vault.locked = true → exec (.tmpLock .pf0) s = .next s) ∧
    (s.chim.vault.sticky = 0 → s.chim.quenching = false →
      exec (.tmpRelease .pf0) s = .next
        (let a := logEntry kRelease 0xFF 0 0 (s.modVault (fun v => { v with level := 0 }))
         refreshPins (raiseTamper 3 a.2 a.1))) ∧
    (s.chim.vault.sticky ≠ 0 ∨ s.chim.quenching = true →
      exec (.tmpRelease .pf0) s = .next (refuse tamperPage .pf0 0x040 1 cState s)) ∧
    (∀ (hi : Bool) (d : Word), exec (.tmpRespWrite .pf0 hi d) s = .next (doRespWrite .pf0 hi d.toNat s)) ∧
    (∀ (d : Word), exec (.tmpStickyClear .pf0 d) s = .next (doStickyClear .pf0 d.toNat s))) ∧
  (∀ (who : Requester) (s : State), s.flueUp = true → who ≠ .pf0 →
    exec (.tmpTrigger who) s = .next (refuse tamperPage who 0x040 4 cRequester s) ∧
    exec (.tmpRelease who) s = .next (refuse tamperPage who 0x040 1 cRequester s) ∧
    exec (.tmpLock who) s = .next (refuse tamperPage who 0x040 2 cRequester s)) ∧
  (∀ (h : Fin 16) (who : Requester) (s : State),
    (isInner who = true → s.up h = true → exec (.tmpFwTrigger h who) s = .next (doTrips [(28, 0)] s)) ∧
    (isInner who = false → s.flueUp = true ∨ s.up h = true →
      exec (.tmpFwTrigger h who) s = .next (refuse tamperPage who 0x040 8 cRequester s))) ∧
  (∀ (n : Fin 30) (s : State),
    exec (.detectorCleared n) s = .next (s.modChim (fun c => { c with active := setBit c.active n false })))

/-- A write of one source's response never puts it below the source's minimum, and under LOCK never below what it was. (Under
R573, R582, R585, R587, which say more than is stated here.) -/
def Obligations.ResponseNeverBelowMinimum : Prop :=
  ∀ (n v : Nat) (s : State) (b : Bool), n < 30 → v < 4 → (∀ k, k < 30 → minResp k ≤ respAt s.chim.vault.resp k) →
    s.chim.active.testBit n = false →
    minResp n ≤ respAt (writeResp n v (s, b)).1.chim.vault.resp n ∧
    (s.chim.vault.locked = true → respAt s.chim.vault.resp n ≤ respAt (writeResp n v (s, b)).1.chim.vault.resp n) ∧
    (∀ k, k < 30 → k ≠ n → respAt (writeResp n v (s, b)).1.chim.vault.resp k = respAt s.chim.vault.resp k)

/-- Supplies, main power and POR_N. Main power lost or POR_N asserted leaves what the vault and the fuses hold and the DDR and
every register of the rest at reset. (Under R566 to R570, R595 to R597, R672 to R677, which say more than is stated here.) -/
def Obligations.SuppliesAndPor : Prop :=
  (∀ (s : State), s.chim.main = true → s.chim.por = false →
    ∃ t, exec .porNAssert s = .next t ∧ t.regs = [] ∧ t.chim.por = true ∧ t.chim.fuses = s.chim.fuses ∧
      t.chim.vault.embers = s.chim.vault.embers ∧ t.chim.vault.counters = s.chim.vault.counters ∧
      t.chim.vault.log = s.chim.vault.log ∧ t.chim.vault.deferred = false ∧ t.flue = { numVfs := s.flue.numVfs } ∧
      (∀ h, (t.H h).cache = [] ∧ (t.H h).jobs = [] ∧ (t.H h).mem.ddr = [])) ∧
  (∀ (s : State), s.chim.main = true →
    ∃ t, exec .mainPowerLoss s = .next t ∧ t.regs = [] ∧ t.chim.main = false ∧ t.chim.vault.embers = s.chim.vault.embers ∧
      t.chim.vault.counters = s.chim.vault.counters ∧ t.chim.vault.freshOwed = true ∧ t.flue = { numVfs := s.flue.numVfs }) ∧
  (∀ (s : State), s.chim.main = false → regimeOf s.chim ≠ .dead →
    exec .mainPowerReturn s = .next (refreshPins (s.modChim (fun c => { c with main := true, por := true })))) ∧
  (∀ (s : State), s.chim.main = true → s.chim.por = true →
    exec .porNDeassert s = .next (refreshPins ((vaultAtFlueStart (s.modChim (fun c => { c with por := false }))).emit
      (.pin "HOBSEL" (vaultAtFlueStart (s.modChim (fun c => { c with por := false }))).variant.hob)))) ∧
  (∀ (x : Supply) (s : State), s.chim.supply ≠ x → s.chim.holding = false → x ≠ .none →
    exec (.supplySwitch x) s = .next (refreshPins (s.modChim (fun c => maskActive { c with supply := x })))) ∧
  (∀ (s : State), s.chim.supply ≠ .none → s.chim.holding = false → s.chim.main = false →
    exec (.supplySwitch .none) s = .next (refreshPins (islandDrops s))) ∧
  (∀ (s : State), s.chim.holding = true →
    exec .vbatRestored s = .next (refreshPins (s.modChim (fun c =>
      { c with holding := false, supply := .vbat, active := setBit c.active 12 false }))) ∧
    exec .vaultHoldExpiry s = .next (refreshPins (s.modChim (fun c => { c with holding := false, vault := {} }))))

/-- A mark of PF0 takes the next epoch and is not taken while one is under way; the latch tags the banks and clears BUSY. (Under
R626 to R635, which say more than is stated here.) Control of the recorders, injected events, page locks and soft resets. (Under
R651 to R660, R713, R715, R721, which say more than is stated here.) -/
def Obligations.SnapshotsRecordersAndPages : Prop :=
  (∀ (d : Word) (s : State), s.flueUp = true → d.toNat % 2 = 1 → s.flag ctrPage Reg.SNAP_STATUS_BUSY = false →
    exec (.snapGo .pf0 d) s = .next (sendMark s)) ∧
  (∀ (d : Word) (s : State), s.flueUp = true → d.toNat % 2 = 1 → s.flag ctrPage Reg.SNAP_STATUS_BUSY = true →
    exec (.snapGo .pf0 d) s = .next (refuse ctrPage .pf0 0x040 d.toNat cState s)) ∧
  (∀ (s : State), s.flueUp = true → s.rd ctrPage Reg.SNAP_CTRL_PERIOD ≠ 0 →
    (s.flag ctrPage Reg.SNAP_STATUS_BUSY = false → exec .snapPeriodExpiry s = .next (sendMark s)) ∧
    (s.flag ctrPage Reg.SNAP_STATUS_BUSY = true → exec .snapPeriodExpiry s = .next (s.modFlue (fun f => { f with snapOwed := true })))) ∧
  (∀ (s t : State) (e : Nat), s.flueUp = true → s.flag ctrPage Reg.SNAP_STATUS_BUSY = true → s.flue.snapOwed = false →
    e = s.rd ctrPage Reg.SNAP_STATUS_EPOCH →
    t = latchFlue flueLink ((s.hearthList.filter (fun h => (s.rd ctrPage Reg.SNAP_DELIVERED_HEARTHS).testBit h && takesMark s h)).foldl
      (fun s h => latchHearth h e s) s) → t.flue.snapOwed = false →
    exec .snapshotLatch s = .next ((t.wr ctrPage Reg.CTR_EPOCH_EPOCH e).wr ctrPage Reg.SNAP_STATUS_BUSY 0)) ∧
  (∀ e, e < 0x10000 → nextEpoch e ≠ 0 ∧ nextEpoch e < 0x10000 ∧ (e < 0xFFFF → nextEpoch e = e + 1)) ∧
  (∀ (h : Fin 16) (who : Requester) (s w : State) (p : Page) (c : Nat), s.answers h = true → w = wakeHearth h s → p = recPage (some h.val) →
    c = freezerCode who → c ≠ 0 →
    (w.flag p Reg.EVR_STATUS_FROZEN = false →
      exec (.evrFreeze (some h) who) s = .next ((w.wr p Reg.EVR_STATUS_FROZEN 1).wr p Reg.EVR_STATUS_FREEZER c)) ∧
    (w.flag p Reg.EVR_STATUS_FROZEN = true → exec (.evrFreeze (some h) who) s = .next (refuse p who 0x040 8 cState w)) ∧
    (w.flag p Reg.EVR_STATUS_FROZEN = true → c = 2 ∨ c = w.rd p Reg.EVR_STATUS_FREEZER →
      exec (.evrUnfreeze (some h) who) s =
        .next (drain (some h.val) ((w.wr p Reg.EVR_STATUS_FROZEN 0).wr p Reg.EVR_STATUS_FREEZER 0))) ∧
    (w.flag p Reg.EVR_STATUS_FROZEN = true → c ≠ 2 → c ≠ w.rd p Reg.EVR_STATUS_FREEZER →
      exec (.evrUnfreeze (some h) who) s = .next (refuse p who 0x040 16 cRequester w))) ∧
  (∀ (who : Requester) (s : State) (c : Nat), s.flueUp = true → c = freezerCode who → c = 1 ∨ c = 3 →
    s.flag (recPage none) Reg.EVR_STATUS_FROZEN = false →
    exec (.evrFreeze none who) s =
      .next ((s.wr (recPage none) Reg.EVR_STATUS_FROZEN 1).wr (recPage none) Reg.EVR_STATUS_FREEZER c)) ∧
  (∀ (h : Fin 16) (who : Requester) (q : Word) (s w : State) (z : List Slotted), s.answers h = true → w = wakeHearth h s →
    who = .pf1 ∨ isInner who = true → ackZone q.toNat (w.recorder (some h.val)).reserved = some z →
    exec (.evrAck (some h) who q) s = .next (w.setRecorder (some h.val) { w.recorder (some h.val) with reserved := z })) ∧
  (∀ (h : Fin 16) (who : Requester) (q : Word) (s w : State), s.answers h = true → w = wakeHearth h s →
    who = .pf1 ∨ isInner who = true → ackZone q.toNat (w.recorder (some h.val)).reserved = none →
    exec (.evrAck (some h) who q) s = .next (refuse (recPage (some h.val)) who 0x04C q.toNat cValue w)) ∧
  (∀ (p : Page) (d : Word) (s w : State), p.regWf = true → p.home = p → isHearthPage p = true → s.enabled p.unit.val = true →
    s.answers p.unit.val = true → w = wakeHearth p.unit.val s → (w.H p.unit.val).enables.testBit 1 = true →
    exec (.evtInject p .debug d) s = .next ((hearthEvents.filter (fun e => e.homes.contains p.kind && d.toNat.testBit e.bit)).foldl
      (fun x e => raiseH p.unit.val e p
        { inst := if manyPages p.kind then p.inst.val else 0xFF, owner := 0xFFF5, payload := captureBytes p w } x) w)) ∧
  (∀ (p : Page) (d : Word) (s : State), p.regWf = true → p.home = p → isHearthPage p = false → p.kind ≠ .vfQueue → s.flueUp = true →
    inVendorTest s = true →
    exec (.evtInject p .pf0 d) s = .next ((flueEvents.filter (fun e => e.homes.contains p.kind && d.toNat.testBit e.bit)).foldl
      (fun x e => raiseFlue e p
        { inst := if manyPages p.kind then p.inst.val else 0xFF, owner := 0xFFF5, payload := captureBytes p s } x) s)) ∧
  (∀ (p : Page) (s w : State), p.regWf = true → p.kind = .gate ∨ p.kind = .mempath → s.enabled p.unit.val = true →
    s.answers p.unit.val = true → w = wakeHearth p.unit.val s →
    ∀ c : Fin 4, exec (.pageLockSet p (.inner c)) s = .next (w.wr p Reg.PAGE_CTRL_LOCK 1)) ∧
  (∀ (p : Page) (who : Requester) (s : State), p.regWf = true → p.kind = .vault → s.flueUp = true →
    (who = .pf0 → exec (.pageLockSet p who) s = .next (s.wr p Reg.PAGE_CTRL_LOCK 1)) ∧
    (who ≠ .pf0 → exec (.pageLockSet p who) s = .next (refuse p who 0x008 4 cRequester s))) ∧
  (∀ (h u : Fin 16) (who : Requester) (s w : State), s.answers h = true → w = wakeHearth h s → isInner who = true →
    (w.eng h u).holder = 0 → (w.eng h u).busy = false → (w.eng h u).scrubbing = false → w.regs.sorted = true →
    ∃ t, exec (.softReset h u who) s = .next t ∧ (t.eng h u).scrubbing = true ∧
      t.rd (pgU h u) Reg.KAT_CTRL_PERIOD = w.rd (pgU h u) Reg.KAT_CTRL_PERIOD % 2 ^ Reg.KAT_CTRL_PERIOD.w ∧
      t = { w with regs := t.regs, hearths := t.hearths }) ∧
  (∀ (h u : Fin 16) (who : Requester) (s w : State), s.answers h = true → w = wakeHearth h s → isInner who = true →
    (w.eng h u).holder ≠ 0 ∨ (w.eng h u).busy = true ∨ (w.eng h u).scrubbing = true →
    exec (.softReset h u who) s = .next (refuse (pgU h u) who 0x008 2 cState w))
end

