-- ==== Sys2Proof/Laws/Tab.lean ====
section
/-! SUPPORT. Laws of the sparse tables: read after put and after delete, and the canonical form that every table operation
keeps. -/

namespace Sys2Proof.Machine

@[simp] theorem Tab.find?_nil {α : Type} (n : Nat) : Tab.find? ([] : Tab α) n = none := rfl

@[simp] theorem Tab.find?_put {α : Type} (t : Tab α) (n : Nat) (x : α) : (t.put n x).find? n = some x := by
  induction t with
  | nil => simp [Tab.put, Tab.find?]
  | cons p r ih => grind [Tab.put, Tab.find?]

theorem Tab.find?_put_ne {α : Type} (t : Tab α) (n m : Nat) (x : α) (h : m ≠ n) : (t.put n x).find? m = t.find? m := by
  induction t with
  | nil => grind [Tab.put, Tab.find?]
  | cons p r ih => grind [Tab.put, Tab.find?]

@[simp] theorem Tab.getD_put {α : Type} (t : Tab α) (n : Nat) (x d : α) : (t.put n x).getD n d = x := by simp [Tab.getD]

theorem Tab.getD_put_ne {α : Type} (t : Tab α) (n m : Nat) (x d : α) (h : m ≠ n) : (t.put n x).getD m d = t.getD m d := by
  simp [Tab.getD, Tab.find?_put_ne t n m x h]

theorem Tab.find?_del_ne {α : Type} (t : Tab α) (n m : Nat) (h : m ≠ n) : (t.del n).find? m = t.find? m := by
  induction t with
  | nil => rfl
  | cons p r ih => grind [Tab.del, Tab.find?]

/-- The canonical form as pairwise order, which filters and maps keep. -/
def Tab.Rising {α : Type} (t : Tab α) : Prop := t.Pairwise (fun a b => a.1 < b.1)

theorem Tab.sorted_iff {α : Type} (t : Tab α) : t.sorted = true ↔ t.Rising := by
  induction t with
  | nil => simp [Tab.sorted, Tab.Rising]
  | cons p r ih =>
    cases r with
    | nil => simp [Tab.sorted, Tab.Rising]
    | cons q r =>
      simp only [Tab.Rising, List.pairwise_cons] at ih ⊢
      grind [Tab.sorted]

theorem Tab.mem_put {α : Type} {t : Tab α} {n : Nat} {x : α} {a : Nat × α} (h : a ∈ t.put n x) : a = (n, x) ∨ a ∈ t := by
  induction t with
  | nil => simpa [Tab.put] using h
  | cons p r ih => grind [Tab.put]

theorem Tab.Rising.put {α : Type} {t : Tab α} (h : t.Rising) (n : Nat) (x : α) : (t.put n x).Rising := by
  induction t with
  | nil => simp [Tab.put, Tab.Rising]
  | cons p r ih =>
    have := @Tab.mem_put α r n x
    simp only [Tab.Rising, List.pairwise_cons] at *
    grind [Tab.put, List.pairwise_cons]

theorem Tab.mem_del {α : Type} {t : Tab α} {n : Nat} {a : Nat × α} (h : a ∈ t.del n) : a ∈ t := by
  induction t with
  | nil => simp [Tab.del] at h
  | cons p r ih => grind [Tab.del]

theorem Tab.Rising.del {α : Type} {t : Tab α} (h : t.Rising) (n : Nat) : (t.del n).Rising := by
  induction t with
  | nil => exact h
  | cons p r ih =>
    have := @Tab.mem_del α r n
    simp only [Tab.Rising, List.pairwise_cons] at *
    grind [Tab.del, List.pairwise_cons]

theorem Tab.Rising.filter {α : Type} {t : Tab α} (h : t.Rising) (f : Nat × α → Bool) : Tab.Rising (t.filter f) :=
  List.Pairwise.filter f h

theorem Tab.Rising.mapVals {α : Type} {t : Tab α} (h : t.Rising) (f : Nat → α → α) : (t.mapVals f).Rising :=
  List.pairwise_map.2 (List.Pairwise.imp (fun h => h) h)

theorem Tab.Rising.upd {α : Type} {t : Tab α} (h : t.Rising) (n : Nat) (f : α → α) : (t.upd n f).Rising := by
  unfold Tab.upd
  split
  · exact h.put n _
  · exact h

/-- A key below every listed one is not listed. -/
theorem Tab.find?_below {α : Type} {t : Tab α} {k : Nat} (h : ∀ a ∈ t, k < a.1) : t.find? k = none := by
  induction t with
  | nil => rfl
  | cons p r ih => grind [Tab.find?]

theorem Tab.find?_del {α : Type} {t : Tab α} (h : t.Rising) (n : Nat) : (t.del n).find? n = none := by
  induction t with
  | nil => rfl
  | cons p r ih =>
    have := @Tab.find?_below α r n
    simp only [Tab.Rising, List.pairwise_cons] at *
    grind [Tab.del, Tab.find?]

/-- A lookup in the entries whose keys `f` admits. -/
theorem Tab.find?_filter {α : Type} (t : Tab α) (f : Nat → Bool) (k : Nat) :
    Tab.find? (t.filter (fun c => f c.1)) k = if f k then t.find? k else none := by
  induction t with
  | nil => grind [Tab.find?]
  | cons p r ih => grind [Tab.find?]

end Sys2Proof.Machine
end

