-- ==== Sys2Proof/Laws/State.lean ====
section
/-! SUPPORT. Laws of the named operations over the state: one lemma per field per update, and the register file's reads after
writes. -/

namespace Sys2Proof.Machine

@[simp] theorem State.wr_pending (s : State) (p : Page) (f : Fld) (v : Nat) : (s.wr p f v).pending = s.pending := rfl
@[simp] theorem State.wr_out (s : State) (p : Page) (f : Fld) (v : Nat) : (s.wr p f v).out = s.out := rfl
@[simp] theorem State.wr_freeCtr (s : State) (p : Page) (f : Fld) (v : Nat) : (s.wr p f v).freeCtr = s.freeCtr := rfl
@[simp] theorem State.wr_variant (s : State) (p : Page) (f : Fld) (v : Nat) : (s.wr p f v).variant = s.variant := rfl
@[simp] theorem State.wr_hearths (s : State) (p : Page) (f : Fld) (v : Nat) : (s.wr p f v).hearths = s.hearths := rfl
@[simp] theorem State.wr_flue (s : State) (p : Page) (f : Fld) (v : Nat) : (s.wr p f v).flue = s.flue := rfl
@[simp] theorem State.wr_chim (s : State) (p : Page) (f : Fld) (v : Nat) : (s.wr p f v).chim = s.chim := rfl

@[simp] theorem State.modH_pending (s : State) (h : Nat) (f : Hearth → Hearth) : (s.modH h f).pending = s.pending := rfl
@[simp] theorem State.modH_out (s : State) (h : Nat) (f : Hearth → Hearth) : (s.modH h f).out = s.out := rfl
@[simp] theorem State.modH_freeCtr (s : State) (h : Nat) (f : Hearth → Hearth) : (s.modH h f).freeCtr = s.freeCtr := rfl
@[simp] theorem State.modH_regs (s : State) (h : Nat) (f : Hearth → Hearth) : (s.modH h f).regs = s.regs := rfl
@[simp] theorem State.modH_variant (s : State) (h : Nat) (f : Hearth → Hearth) : (s.modH h f).variant = s.variant := rfl
@[simp] theorem State.modH_flue (s : State) (h : Nat) (f : Hearth → Hearth) : (s.modH h f).flue = s.flue := rfl
@[simp] theorem State.modH_chim (s : State) (h : Nat) (f : Hearth → Hearth) : (s.modH h f).chim = s.chim := rfl

@[simp] theorem State.modFlue_pending (s : State) (f : Flue → Flue) : (s.modFlue f).pending = s.pending := rfl
@[simp] theorem State.modFlue_out (s : State) (f : Flue → Flue) : (s.modFlue f).out = s.out := rfl
@[simp] theorem State.modFlue_freeCtr (s : State) (f : Flue → Flue) : (s.modFlue f).freeCtr = s.freeCtr := rfl
@[simp] theorem State.modFlue_regs (s : State) (f : Flue → Flue) : (s.modFlue f).regs = s.regs := rfl
@[simp] theorem State.modFlue_variant (s : State) (f : Flue → Flue) : (s.modFlue f).variant = s.variant := rfl
@[simp] theorem State.modFlue_hearths (s : State) (f : Flue → Flue) : (s.modFlue f).hearths = s.hearths := rfl
@[simp] theorem State.modFlue_chim (s : State) (f : Flue → Flue) : (s.modFlue f).chim = s.chim := rfl

@[simp] theorem State.modChim_pending (s : State) (f : Chimney → Chimney) : (s.modChim f).pending = s.pending := rfl
@[simp] theorem State.modChim_out (s : State) (f : Chimney → Chimney) : (s.modChim f).out = s.out := rfl
@[simp] theorem State.modChim_freeCtr (s : State) (f : Chimney → Chimney) : (s.modChim f).freeCtr = s.freeCtr := rfl
@[simp] theorem State.modChim_regs (s : State) (f : Chimney → Chimney) : (s.modChim f).regs = s.regs := rfl
@[simp] theorem State.modChim_variant (s : State) (f : Chimney → Chimney) : (s.modChim f).variant = s.variant := rfl
@[simp] theorem State.modChim_hearths (s : State) (f : Chimney → Chimney) : (s.modChim f).hearths = s.hearths := rfl
@[simp] theorem State.modChim_flue (s : State) (f : Chimney → Chimney) : (s.modChim f).flue = s.flue := rfl

@[simp] theorem State.modVault_pending (s : State) (f : Vault → Vault) : (s.modVault f).pending = s.pending := rfl
@[simp] theorem State.modVault_out (s : State) (f : Vault → Vault) : (s.modVault f).out = s.out := rfl
@[simp] theorem State.modVault_freeCtr (s : State) (f : Vault → Vault) : (s.modVault f).freeCtr = s.freeCtr := rfl
@[simp] theorem State.modVault_regs (s : State) (f : Vault → Vault) : (s.modVault f).regs = s.regs := rfl
@[simp] theorem State.modVault_variant (s : State) (f : Vault → Vault) : (s.modVault f).variant = s.variant := rfl
@[simp] theorem State.modVault_hearths (s : State) (f : Vault → Vault) : (s.modVault f).hearths = s.hearths := rfl
@[simp] theorem State.modVault_flue (s : State) (f : Vault → Vault) : (s.modVault f).flue = s.flue := rfl

@[simp] theorem State.modEng_pending (s : State) (h u : Nat) (f : Engine → Engine) : (s.modEng h u f).pending = s.pending := rfl
@[simp] theorem State.modEng_out (s : State) (h u : Nat) (f : Engine → Engine) : (s.modEng h u f).out = s.out := rfl
@[simp] theorem State.modEng_freeCtr (s : State) (h u : Nat) (f : Engine → Engine) : (s.modEng h u f).freeCtr = s.freeCtr := rfl
@[simp] theorem State.modEng_regs (s : State) (h u : Nat) (f : Engine → Engine) : (s.modEng h u f).regs = s.regs := rfl
@[simp] theorem State.modEng_variant (s : State) (h u : Nat) (f : Engine → Engine) : (s.modEng h u f).variant = s.variant := rfl
@[simp] theorem State.modEng_flue (s : State) (h u : Nat) (f : Engine → Engine) : (s.modEng h u f).flue = s.flue := rfl
@[simp] theorem State.modEng_chim (s : State) (h u : Nat) (f : Engine → Engine) : (s.modEng h u f).chim = s.chim := rfl

@[simp] theorem State.modJob_pending (s : State) (h j : Nat) (f : Job → Job) : (s.modJob h j f).pending = s.pending := rfl
@[simp] theorem State.modJob_out (s : State) (h j : Nat) (f : Job → Job) : (s.modJob h j f).out = s.out := rfl
@[simp] theorem State.modJob_freeCtr (s : State) (h j : Nat) (f : Job → Job) : (s.modJob h j f).freeCtr = s.freeCtr := rfl
@[simp] theorem State.modJob_regs (s : State) (h j : Nat) (f : Job → Job) : (s.modJob h j f).regs = s.regs := rfl
@[simp] theorem State.modJob_variant (s : State) (h j : Nat) (f : Job → Job) : (s.modJob h j f).variant = s.variant := rfl
@[simp] theorem State.modJob_flue (s : State) (h j : Nat) (f : Job → Job) : (s.modJob h j f).flue = s.flue := rfl
@[simp] theorem State.modJob_chim (s : State) (h j : Nat) (f : Job → Job) : (s.modJob h j f).chim = s.chim := rfl

@[simp] theorem State.modCore_pending (s : State) (h c : Nat) (f : Core → Core) : (s.modCore h c f).pending = s.pending := rfl
@[simp] theorem State.modCore_out (s : State) (h c : Nat) (f : Core → Core) : (s.modCore h c f).out = s.out := rfl
@[simp] theorem State.modCore_freeCtr (s : State) (h c : Nat) (f : Core → Core) : (s.modCore h c f).freeCtr = s.freeCtr := rfl
@[simp] theorem State.modCore_regs (s : State) (h c : Nat) (f : Core → Core) : (s.modCore h c f).regs = s.regs := rfl
@[simp] theorem State.modCore_variant (s : State) (h c : Nat) (f : Core → Core) : (s.modCore h c f).variant = s.variant := rfl
@[simp] theorem State.modCore_flue (s : State) (h c : Nat) (f : Core → Core) : (s.modCore h c f).flue = s.flue := rfl
@[simp] theorem State.modCore_chim (s : State) (h c : Nat) (f : Core → Core) : (s.modCore h c f).chim = s.chim := rfl

@[simp] theorem State.modVf_pending (s : State) (v : Nat) (f : Vf → Vf) : (s.modVf v f).pending = s.pending := rfl
@[simp] theorem State.modVf_out (s : State) (v : Nat) (f : Vf → Vf) : (s.modVf v f).out = s.out := rfl
@[simp] theorem State.modVf_freeCtr (s : State) (v : Nat) (f : Vf → Vf) : (s.modVf v f).freeCtr = s.freeCtr := rfl
@[simp] theorem State.modVf_regs (s : State) (v : Nat) (f : Vf → Vf) : (s.modVf v f).regs = s.regs := rfl
@[simp] theorem State.modVf_variant (s : State) (v : Nat) (f : Vf → Vf) : (s.modVf v f).variant = s.variant := rfl
@[simp] theorem State.modVf_hearths (s : State) (v : Nat) (f : Vf → Vf) : (s.modVf v f).hearths = s.hearths := rfl
@[simp] theorem State.modVf_chim (s : State) (v : Nat) (f : Vf → Vf) : (s.modVf v f).chim = s.chim := rfl

@[simp] theorem State.orBit_pending (s : State) (p : Page) (f : Fld) (i : Nat) : (s.orBit p f i).pending = s.pending := rfl
@[simp] theorem State.orBit_out (s : State) (p : Page) (f : Fld) (i : Nat) : (s.orBit p f i).out = s.out := rfl
@[simp] theorem State.orBit_freeCtr (s : State) (p : Page) (f : Fld) (i : Nat) : (s.orBit p f i).freeCtr = s.freeCtr := rfl
@[simp] theorem State.orBit_variant (s : State) (p : Page) (f : Fld) (i : Nat) : (s.orBit p f i).variant = s.variant := rfl
@[simp] theorem State.orBit_hearths (s : State) (p : Page) (f : Fld) (i : Nat) : (s.orBit p f i).hearths = s.hearths := rfl
@[simp] theorem State.orBit_flue (s : State) (p : Page) (f : Fld) (i : Nat) : (s.orBit p f i).flue = s.flue := rfl
@[simp] theorem State.orBit_chim (s : State) (p : Page) (f : Fld) (i : Nat) : (s.orBit p f i).chim = s.chim := rfl

@[simp] theorem State.bump_pending (s : State) (p : Page) (f : Fld) : (s.bump p f).pending = s.pending := rfl
@[simp] theorem State.bump_out (s : State) (p : Page) (f : Fld) : (s.bump p f).out = s.out := rfl
@[simp] theorem State.bump_freeCtr (s : State) (p : Page) (f : Fld) : (s.bump p f).freeCtr = s.freeCtr := rfl
@[simp] theorem State.bump_variant (s : State) (p : Page) (f : Fld) : (s.bump p f).variant = s.variant := rfl
@[simp] theorem State.bump_hearths (s : State) (p : Page) (f : Fld) : (s.bump p f).hearths = s.hearths := rfl
@[simp] theorem State.bump_flue (s : State) (p : Page) (f : Fld) : (s.bump p f).flue = s.flue := rfl
@[simp] theorem State.bump_chim (s : State) (p : Page) (f : Fld) : (s.bump p f).chim = s.chim := rfl

@[simp] theorem State.resetPage_pending (s : State) (p : Page) : (s.resetPage p).pending = s.pending := rfl
@[simp] theorem State.resetPage_out (s : State) (p : Page) : (s.resetPage p).out = s.out := rfl
@[simp] theorem State.resetPage_freeCtr (s : State) (p : Page) : (s.resetPage p).freeCtr = s.freeCtr := rfl
@[simp] theorem State.resetPage_variant (s : State) (p : Page) : (s.resetPage p).variant = s.variant := rfl
@[simp] theorem State.resetPage_hearths (s : State) (p : Page) : (s.resetPage p).hearths = s.hearths := rfl
@[simp] theorem State.resetPage_flue (s : State) (p : Page) : (s.resetPage p).flue = s.flue := rfl
@[simp] theorem State.resetPage_chim (s : State) (p : Page) : (s.resetPage p).chim = s.chim := rfl

@[simp] theorem State.resetPages_pending (s : State) (t : Nat → Bool) : (s.resetPages t).pending = s.pending := rfl
@[simp] theorem State.resetPages_out (s : State) (t : Nat → Bool) : (s.resetPages t).out = s.out := rfl
@[simp] theorem State.resetPages_freeCtr (s : State) (t : Nat → Bool) : (s.resetPages t).freeCtr = s.freeCtr := rfl
@[simp] theorem State.resetPages_variant (s : State) (t : Nat → Bool) : (s.resetPages t).variant = s.variant := rfl
@[simp] theorem State.resetPages_hearths (s : State) (t : Nat → Bool) : (s.resetPages t).hearths = s.hearths := rfl
@[simp] theorem State.resetPages_flue (s : State) (t : Nat → Bool) : (s.resetPages t).flue = s.flue := rfl
@[simp] theorem State.resetPages_chim (s : State) (t : Nat → Bool) : (s.resetPages t).chim = s.chim := rfl

@[simp] theorem State.setFt_pending (s : State) (v : Nat) (f : Nat → Fld) (x : Nat) : (s.setFt v f x).pending = s.pending := rfl
@[simp] theorem State.setFt_out (s : State) (v : Nat) (f : Nat → Fld) (x : Nat) : (s.setFt v f x).out = s.out := rfl
@[simp] theorem State.setFt_freeCtr (s : State) (v : Nat) (f : Nat → Fld) (x : Nat) : (s.setFt v f x).freeCtr = s.freeCtr := rfl
@[simp] theorem State.setFt_variant (s : State) (v : Nat) (f : Nat → Fld) (x : Nat) : (s.setFt v f x).variant = s.variant := rfl
@[simp] theorem State.setFt_hearths (s : State) (v : Nat) (f : Nat → Fld) (x : Nat) : (s.setFt v f x).hearths = s.hearths := rfl
@[simp] theorem State.setFt_flue (s : State) (v : Nat) (f : Nat → Fld) (x : Nat) : (s.setFt v f x).flue = s.flue := rfl
@[simp] theorem State.setFt_chim (s : State) (v : Nat) (f : Nat → Fld) (x : Nat) : (s.setFt v f x).chim = s.chim := rfl

@[simp] theorem State.qwr_pending (s : State) (t : Queue) (f : Nat → Fld) (v : Nat) : (s.qwr t f v).pending = s.pending := rfl
@[simp] theorem State.qwr_out (s : State) (t : Queue) (f : Nat → Fld) (v : Nat) : (s.qwr t f v).out = s.out := rfl
@[simp] theorem State.qwr_freeCtr (s : State) (t : Queue) (f : Nat → Fld) (v : Nat) : (s.qwr t f v).freeCtr = s.freeCtr := rfl
@[simp] theorem State.qwr_variant (s : State) (t : Queue) (f : Nat → Fld) (v : Nat) : (s.qwr t f v).variant = s.variant := rfl
@[simp] theorem State.qwr_hearths (s : State) (t : Queue) (f : Nat → Fld) (v : Nat) : (s.qwr t f v).hearths = s.hearths := rfl
@[simp] theorem State.qwr_flue (s : State) (t : Queue) (f : Nat → Fld) (v : Nat) : (s.qwr t f v).flue = s.flue := rfl
@[simp] theorem State.qwr_chim (s : State) (t : Queue) (f : Nat → Fld) (v : Nat) : (s.qwr t f v).chim = s.chim := rfl

@[simp] theorem State.setHState_pending (s : State) (h v : Nat) : (s.setHState h v).pending = s.pending := rfl
@[simp] theorem State.setHState_out (s : State) (h v : Nat) : (s.setHState h v).out = s.out := rfl
@[simp] theorem State.setHState_freeCtr (s : State) (h v : Nat) : (s.setHState h v).freeCtr = s.freeCtr := rfl
@[simp] theorem State.setHState_variant (s : State) (h v : Nat) : (s.setHState h v).variant = s.variant := rfl
@[simp] theorem State.setHState_hearths (s : State) (h v : Nat) : (s.setHState h v).hearths = s.hearths := rfl
@[simp] theorem State.setHState_flue (s : State) (h v : Nat) : (s.setHState h v).flue = s.flue := rfl
@[simp] theorem State.setHState_chim (s : State) (h v : Nat) : (s.setHState h v).chim = s.chim := rfl

@[simp] theorem State.setDamper_pending (s : State) (v x : Nat) : (s.setDamper v x).pending = s.pending := rfl
@[simp] theorem State.setDamper_out (s : State) (v x : Nat) : (s.setDamper v x).out = s.out := rfl
@[simp] theorem State.setDamper_freeCtr (s : State) (v x : Nat) : (s.setDamper v x).freeCtr = s.freeCtr := rfl
@[simp] theorem State.setDamper_variant (s : State) (v x : Nat) : (s.setDamper v x).variant = s.variant := rfl
@[simp] theorem State.setDamper_hearths (s : State) (v x : Nat) : (s.setDamper v x).hearths = s.hearths := rfl
@[simp] theorem State.setDamper_flue (s : State) (v x : Nat) : (s.setDamper v x).flue = s.flue := rfl
@[simp] theorem State.setDamper_chim (s : State) (v x : Nat) : (s.setDamper v x).chim = s.chim := rfl

@[simp] theorem State.modQp_pending (s : State) (t : Queue) (g : Qp → Qp) : (s.modQp t g).pending = s.pending := by cases t <;> rfl
@[simp] theorem State.modQp_out (s : State) (t : Queue) (g : Qp → Qp) : (s.modQp t g).out = s.out := by cases t <;> rfl
@[simp] theorem State.modQp_freeCtr (s : State) (t : Queue) (g : Qp → Qp) : (s.modQp t g).freeCtr = s.freeCtr := by cases t <;> rfl
@[simp] theorem State.modQp_regs (s : State) (t : Queue) (g : Qp → Qp) : (s.modQp t g).regs = s.regs := by cases t <;> rfl
@[simp] theorem State.modQp_variant (s : State) (t : Queue) (g : Qp → Qp) : (s.modQp t g).variant = s.variant := by cases t <;> rfl
@[simp] theorem State.modQp_hearths (s : State) (t : Queue) (g : Qp → Qp) : (s.modQp t g).hearths = s.hearths := by cases t <;> rfl
@[simp] theorem State.modQp_chim (s : State) (t : Queue) (g : Qp → Qp) : (s.modQp t g).chim = s.chim := by cases t <;> rfl

@[simp] theorem State.free_fst (s : State) (n : Nat) :
    (s.free n).1 = (List.range n).map (fun i => Config.freeByte (s.freeCtr + i)) := rfl
@[simp] theorem State.free_snd (s : State) (n : Nat) : (s.free n).2 = { s with freeCtr := s.freeCtr + n } := rfl

@[simp] theorem State.emit_pending (s : State) (o : Output) : (s.emit o).pending = s.pending := by cases o <;> rfl
@[simp] theorem State.emit_freeCtr (s : State) (o : Output) : (s.emit o).freeCtr = s.freeCtr := by cases o <;> rfl
@[simp] theorem State.emit_regs (s : State) (o : Output) : (s.emit o).regs = s.regs := by cases o <;> rfl
@[simp] theorem State.emit_variant (s : State) (o : Output) : (s.emit o).variant = s.variant := by cases o <;> rfl
@[simp] theorem State.emit_hearths (s : State) (o : Output) : (s.emit o).hearths = s.hearths := by cases o <;> rfl
@[simp] theorem State.emit_chim (s : State) (o : Output) : (s.emit o).chim = s.chim := by cases o <;> rfl
@[simp] theorem State.emit_out (s : State) (o : Output) : (s.emit o).out = s.out ++ [o] := by cases o <;> rfl

/-! ### Hearths -/

@[simp] theorem State.H_modH (s : State) (h : Nat) (f : Hearth → Hearth) : (s.modH h f).H h = f (s.H h) := by
  simp [State.modH, State.H]

theorem State.H_modH_ne (s : State) (h k : Nat) (f : Hearth → Hearth) (e : k ≠ h) : (s.modH h f).H k = s.H k := by
  simp [State.modH, State.H, Tab.getD_put_ne _ _ _ _ _ e]

/-- A state with the same hearths shows the same hearth. -/
theorem State.H_congr {s t : State} (e : s.hearths = t.hearths) (h : Nat) : s.H h = t.H h := by simp [State.H, e]

@[simp] theorem State.flue_modFlue (s : State) (f : Flue → Flue) : (s.modFlue f).flue = f s.flue := rfl
@[simp] theorem State.chim_modChim (s : State) (f : Chimney → Chimney) : (s.modChim f).chim = f s.chim := rfl

/-! ### Registers -/

theorem State.rd_congr {s t : State} (e : s.regs = t.regs) (p : Page) (f : Fld) : s.rd p f = t.rd p f := by
  simp [State.rd, e]

/-- A field reads back what was written, in its width. -/
theorem State.rd_wr (s : State) (p : Page) (f : Fld) (v : Nat) (e : s.regs.Rising) : (s.wr p f v).rd p f = v % 2 ^ f.w := by
  unfold State.wr State.rd
  split
  · rename_i h
    simp only
    rw [Tab.find?_del e]
    simp [h]
  · simp

/-- A write leaves every field of another register-file key alone. -/
theorem State.rd_wr_ne (s : State) (p q : Page) (f g : Fld) (v : Nat) (e : regKey q g ≠ regKey p f) :
    (s.wr p f v).rd q g = s.rd q g := by
  unfold State.wr State.rd
  split
  · simp only; rw [Tab.find?_del_ne _ _ _ e]
  · simp only; rw [Tab.find?_put_ne _ _ _ _ e]

/-! ### Registers and hearths seen through the updates of other state -/

@[simp] theorem State.modH_rd (s : State) (h : Nat) (f : Hearth → Hearth) (p : Page) (g : Fld) : (s.modH h f).rd p g = s.rd p g := rfl
@[simp] theorem State.modFlue_rd (s : State) (f : Flue → Flue) (p : Page) (g : Fld) : (s.modFlue f).rd p g = s.rd p g := rfl
@[simp] theorem State.modChim_rd (s : State) (f : Chimney → Chimney) (p : Page) (g : Fld) : (s.modChim f).rd p g = s.rd p g := rfl
@[simp] theorem State.modVault_rd (s : State) (f : Vault → Vault) (p : Page) (g : Fld) : (s.modVault f).rd p g = s.rd p g := rfl
@[simp] theorem State.modEng_rd (s : State) (h u : Nat) (f : Engine → Engine) (p : Page) (g : Fld) : (s.modEng h u f).rd p g = s.rd p g := rfl
@[simp] theorem State.modJob_rd (s : State) (h j : Nat) (f : Job → Job) (p : Page) (g : Fld) : (s.modJob h j f).rd p g = s.rd p g := rfl
@[simp] theorem State.modCore_rd (s : State) (h c : Nat) (f : Core → Core) (p : Page) (g : Fld) : (s.modCore h c f).rd p g = s.rd p g := rfl
@[simp] theorem State.modVf_rd (s : State) (v : Nat) (f : Vf → Vf) (p : Page) (g : Fld) : (s.modVf v f).rd p g = s.rd p g := rfl
@[simp] theorem State.modQp_rd (s : State) (t : Queue) (f : Qp → Qp) (p : Page) (g : Fld) : (s.modQp t f).rd p g = s.rd p g := by cases t <;> rfl
@[simp] theorem State.emit_rd (s : State) (o : Output) (p : Page) (g : Fld) : (s.emit o).rd p g = s.rd p g := by cases o <;> rfl

@[simp] theorem State.wr_H (s : State) (p : Page) (f : Fld) (v : Nat) (k : Nat) : (s.wr p f v).H k = s.H k := rfl
@[simp] theorem State.orBit_H (s : State) (p : Page) (f : Fld) (i : Nat) (k : Nat) : (s.orBit p f i).H k = s.H k := rfl
@[simp] theorem State.bump_H (s : State) (p : Page) (f : Fld) (k : Nat) : (s.bump p f).H k = s.H k := rfl
@[simp] theorem State.setFt_H (s : State) (v : Nat) (f : Nat → Fld) (x : Nat) (k : Nat) : (s.setFt v f x).H k = s.H k := rfl
@[simp] theorem State.qwr_H (s : State) (t : Queue) (f : Nat → Fld) (v : Nat) (k : Nat) : (s.qwr t f v).H k = s.H k := rfl
@[simp] theorem State.setHState_H (s : State) (h v : Nat) (k : Nat) : (s.setHState h v).H k = s.H k := rfl
@[simp] theorem State.setDamper_H (s : State) (v x : Nat) (k : Nat) : (s.setDamper v x).H k = s.H k := rfl
@[simp] theorem State.resetPage_H (s : State) (p : Page) (k : Nat) : (s.resetPage p).H k = s.H k := rfl
@[simp] theorem State.modFlue_H (s : State) (f : Flue → Flue) (k : Nat) : (s.modFlue f).H k = s.H k := rfl
@[simp] theorem State.modChim_H (s : State) (f : Chimney → Chimney) (k : Nat) : (s.modChim f).H k = s.H k := rfl
@[simp] theorem State.modVault_H (s : State) (f : Vault → Vault) (k : Nat) : (s.modVault f).H k = s.H k := rfl
@[simp] theorem State.modVf_H (s : State) (v : Nat) (f : Vf → Vf) (k : Nat) : (s.modVf v f).H k = s.H k := rfl
@[simp] theorem State.modQp_H (s : State) (t : Queue) (f : Qp → Qp) (k : Nat) : (s.modQp t f).H k = s.H k := by cases t <;> rfl
@[simp] theorem State.emit_H (s : State) (o : Output) (k : Nat) : (s.emit o).H k = s.H k := by cases o <;> rfl

end Sys2Proof.Machine
end

