-- ==== Sys2Proof/Laws/Admin.lean ====
section
/-! SUPPORT. What one descriptor of an administration queue, and one group control opcode, does: one lemma for each. -/

namespace Sys2Proof.Machine

/-! ### The consumption of a descriptor changes its queue pair alone -/

@[simp] theorem adminFrom_H (r : AdminReq) (s : State) : (adminFrom r s).H = s.H := rfl
@[simp] theorem adminFrom_ft (r : AdminReq) (s : State) : (adminFrom r s).ft = s.ft := rfl
@[simp] theorem adminFrom_bound (r : AdminReq) (s : State) : (adminFrom r s).bound = s.bound := rfl
@[simp] theorem adminFrom_damper (r : AdminReq) (s : State) : (adminFrom r s).damper = s.damper := rfl
@[simp] theorem adminFrom_hState (r : AdminReq) (s : State) : (adminFrom r s).hState = s.hState := rfl
@[simp] theorem adminFrom_enabled (r : AdminReq) (s : State) : (adminFrom r s).enabled = s.enabled := rfl
@[simp] theorem adminFrom_works (r : AdminReq) (s : State) : (adminFrom r s).works = s.works := rfl
@[simp] theorem adminFrom_live (r : AdminReq) (s : State) : (adminFrom r s).live = s.live := rfl
@[simp] theorem adminFrom_up (r : AdminReq) (s : State) : (adminFrom r s).up = s.up := rfl
@[simp] theorem adminFrom_rd (r : AdminReq) (s : State) : (adminFrom r s).rd = s.rd := rfl
@[simp] theorem adminFrom_variant (r : AdminReq) (s : State) : (adminFrom r s).variant = s.variant := rfl
@[simp] theorem adminFrom_chim (r : AdminReq) (s : State) : (adminFrom r s).chim = s.chim := rfl
@[simp] theorem adminFrom_regs (r : AdminReq) (s : State) : (adminFrom r s).regs = s.regs := rfl
@[simp] theorem adminFrom_out (r : AdminReq) (s : State) : (adminFrom r s).out = s.out := rfl
@[simp] theorem adminFrom_hearths (r : AdminReq) (s : State) : (adminFrom r s).hearths = s.hearths := rfl
@[simp] theorem adminFrom_vf (r : AdminReq) (s : State) : (adminFrom r s).vf = s.vf := rfl
@[simp] theorem adminFrom_posOf (r : AdminReq) (s : State) : (adminFrom r s).posOf = s.posOf := rfl
@[simp] theorem adminFrom_boundVfs (r : AdminReq) (s : State) : (adminFrom r s).boundVfs = s.boundVfs := rfl
@[simp] theorem adminFrom_flag (r : AdminReq) (s : State) : (adminFrom r s).flag = s.flag := rfl
@[simp] theorem adminFrom_memReady (r : AdminReq) (s : State) : (adminFrom r s).memReady = s.memReady := rfl
@[simp] theorem adminFrom_core (r : AdminReq) (s : State) : (adminFrom r s).core = s.core := rfl
@[simp] theorem adminFrom_now (r : AdminReq) (s : State) : (adminFrom r s).now = s.now := rfl
@[simp] theorem adminFrom_stamp (r : AdminReq) (s : State) : (adminFrom r s).stamp = s.stamp := rfl
@[simp] theorem adminFrom_hearthList (r : AdminReq) (s : State) : (adminFrom r s).hearthList = s.hearthList := rfl
@[simp] theorem lcState_adminFrom (r : AdminReq) (s : State) : lcState (adminFrom r s) = lcState s := rfl
@[simp] theorem isolating_adminFrom (r : AdminReq) (s : State) : isolating (adminFrom r s) = isolating s := rfl
@[simp] theorem freePosition_adminFrom (r : AdminReq) (s : State) (h : Nat) : freePosition (adminFrom r s) h = freePosition s h := rfl
@[simp] theorem roomAt_adminFrom (r : AdminReq) (s : State) (h : Nat) (v : Nat) (n : Nat) : roomAt (adminFrom r s) h v n = roomAt s h v n := rfl
@[simp] theorem quotaSum_adminFrom (r : AdminReq) (s : State) (h : Nat) : quotaSum (adminFrom r s) h = quotaSum s h := rfl
@[simp] theorem undecidedGang_adminFrom (r : AdminReq) (s : State) (h : Nat) : undecidedGang (adminFrom r s) h = undecidedGang s h := rfl
@[simp] theorem anyEnabled_adminFrom (r : AdminReq) (s : State) (h : Nat) : anyEnabled (adminFrom r s) h = anyEnabled s h := rfl
@[simp] theorem checkUpdate_adminFrom (r : AdminReq) (s : State) (d : Bytes) (m : Bytes) : checkUpdate (adminFrom r s) d m = checkUpdate s d m := rfl
@[simp] theorem slotHeld_adminFrom (r : AdminReq) (s : State) (h : Nat) (n : Nat) : slotHeld (adminFrom r s) h n = slotHeld s h n := rfl
@[simp] theorem recordBytes_adminFrom (r : AdminReq) (s : State) (h : Nat) (n : Nat) (k : SlotRec) : recordBytes (adminFrom r s) h n k = recordBytes s h n k := rfl
@[simp] theorem updateRecord_adminFrom (r : AdminReq) (s : State) (m : Bytes) : updateRecord (adminFrom r s) m = updateRecord s m := rfl
@[simp] theorem recordAccepted_adminFrom (r : AdminReq) (s : State) (h : Nat) (m : Bytes) : recordAccepted (adminFrom r s) h m = recordAccepted s h m := rfl
@[simp] theorem serial16_adminFrom (r : AdminReq) (s : State) : serial16 (adminFrom r s) = serial16 s := rfl
@[simp] theorem identityFp_adminFrom (r : AdminReq) (s : State) : identityFp (adminFrom r s) = identityFp s := rfl
@[simp] theorem ceremonyAllowed_adminFrom (r : AdminReq) (s : State) : ceremonyAllowed (adminFrom r s) = ceremonyAllowed s := rfl
@[simp] theorem checkImage_adminFrom (r : AdminReq) (s : State) (h : Nat) (v : Nat) (m : Bytes) : checkImage (adminFrom r s) h v m = checkImage s h v m := rfl
@[simp] theorem runningSvns_adminFrom (r : AdminReq) (s : State) (h : Nat) : runningSvns (adminFrom r s) h = runningSvns s h := rfl
@[simp] theorem hotterThan_adminFrom (r : AdminReq) (s : State) (h : Nat) : hotterThan (adminFrom r s) h = hotterThan s h := rfl
@[simp] theorem checkAdvance_adminFrom (r : AdminReq) (s : State) (m : Bytes) : checkAdvance (adminFrom r s) m = checkAdvance s m := rfl
@[simp] theorem openCheck_adminFrom (r : AdminReq) (s : State) (h : Nat) (n : Nat) : openCheck (adminFrom r s) h n = openCheck s h n := rfl
@[simp] theorem dumpBytes_adminFrom (r : AdminReq) (s : State) (h : Nat) (n : Nat) (v : Nat) : dumpBytes (adminFrom r s) h n v = dumpBytes s h n v := rfl
@[simp] theorem tamperLogBody_adminFrom (r : AdminReq) (s : State) : tamperLogBody (adminFrom r s) = tamperLogBody s := rfl
@[simp] theorem vaultRecordKey_adminFrom (r : AdminReq) (s : State) : vaultRecordKey (adminFrom r s) = vaultRecordKey s := rfl
@[simp] theorem slotCounter_adminFrom (r : AdminReq) (s : State) (h : Nat) (n : Nat) : slotCounter (adminFrom r s) h n = slotCounter s h n := rfl
@[simp] theorem adminFrom_flue_numVfs (r : AdminReq) (s : State) : (adminFrom r s).flue.numVfs = s.flue.numVfs := rfl
@[simp] theorem adminFrom_flue_stackTab (r : AdminReq) (s : State) : (adminFrom r s).flue.stackTab = s.flue.stackTab := rfl
@[simp] theorem adminFrom_flue_gangs (r : AdminReq) (s : State) : (adminFrom r s).flue.gangs = s.flue.gangs := rfl
@[simp] theorem adminFrom_flue_ceremony (r : AdminReq) (s : State) : (adminFrom r s).flue.ceremony = s.flue.ceremony := rfl
@[simp] theorem adminFrom_flue_nextTag (r : AdminReq) (s : State) : (adminFrom r s).flue.nextTag = s.flue.nextTag := rfl
@[simp] theorem adminFrom_flue_held (r : AdminReq) (s : State) : (adminFrom r s).flue.held = s.flue.held := rfl
@[simp] theorem adminFrom_flue_spdm (r : AdminReq) (s : State) : (adminFrom r s).flue.spdm = s.flue.spdm := rfl
@[simp] theorem adminFrom_flue_unbound (r : AdminReq) (s : State) : (adminFrom r s).flue.unbound = s.flue.unbound := rfl

/-! ### One descriptor -/

/-- The completion of an opcode's own answer. -/
def adminEnd (r : AdminReq) : State × Adm → State
  | (t, .done st res out) => adminDone r st res out t
  | (t, .hold a) => adminHold r a t

theorem adminRow_of {s : State} {op : Nat} {q : Fin 4} {rd : AdminRead} {r : AdminReq} {own : State → Bytes → Option Nat}
    {body : AdminReq → State → State × Adm} (a : AdminAt s op q rd r) (l : own s rd.desc = none) :
    adminRow op q rd own body s = .next (adminEnd r (body r (adminFrom r s))) := by
  obtain ⟨h1, h2, h3, hr, h4, hd, h5, h6, h7, h8, b, h9, h10⟩ := a
  obtain ⟨rq, rdesc, rinp, rdst, rkey⟩ := r
  simp only at h5 h6 h7 h8 h10
  subst h5 h6 h7 h8 h10
  have hw : rd.wf = true := by simp [AdminRead.wf, h1]
  have hs : adminStop own s rd.desc (listsFit rd.desc (readLists rd.desc rd.sglIn rd.sglOut)) = none := by
    rw [adminStop, h4]; simp only [l]
    split
    · rename_i c; rcases hd with d | d
      · exact absurd c.1 d
      · exact absurd (h3.trans d) c.2
    · rfl
  simp only [adminRow, hw, adminGo, h2, h3, hr, hs, h9, adminFrom, if_true]
  simp only [Bool.not_true, Bool.false_eq_true, ne_eq, not_true_eq_false, or_self, if_false]
  have e' : (adminTake q rd.desc s).flue.nextTag = s.flue.nextTag := rfl
  rw [e']
  split <;> simp_all [adminEnd, adminDone, adminPost, adminHold]

/-- What a control opcode's own answer leaves. -/
def ctlEnd (h : Nat) (src : GroupSrc) : State × GroupOut → State
  | (t, .done st res) => ctlDone st res t src
  | (t, .wait) => ctlWait h t src

/-- A control opcode keeps the keys of held requests. -/
def keepsTags (f : GroupOp) (h : Nat) (vf : Option Nat) (d : Bytes) (ref : CtlRef) (s : State) : Prop :=
  (f h vf d ref s).2 = .wait → (f h vf d ref s).1.flue.nextTag = s.flue.nextTag

theorem groupRow_of {s : State} {op h : Nat} {vf : Option Nat} {d : Bytes} {ref : CtlRef} {src : GroupSrc} {f : GroupOp}
    (a : CtlAt s op h vf d ref src) (k : keepsTags f h vf d ref (ctlFrom s src)) :
    groupRow op f src s = .next (ctlEnd h src (f h vf d ref (ctlFrom s src))) := by
  cases src with
  | job h' j =>
    obtain ⟨jb, rfl, rfl, rfl, rfl, h1, h2, h3, h4, h5⟩ := a
    simp only [groupRow, groupJob, h1, h2, h3, h4, h5, ctlFrom]
    simp only [Bool.not_true, Bool.false_eq_true, ne_eq, not_true_eq_false, or_self, if_false]
    cases e : f h' (some jb.vf) jb.desc (.job j) s with
    | mk t x => cases x <;> rfl
  | admin q rd =>
    obtain ⟨r, a, rfl, rfl, rfl, h1, h2, h3⟩ := a
    have hf : s.hState h ≠ hsFatal := by
      intro c; simp [State.works, State.live, c, hsFatal, hsStarted] at h3
    simp only [groupRow, adminRow_of a (own := noOwn) rfl, ctlFrom, adminFrom] at *
    have e1 : (adminTake r.q r.desc s) = adminTake q rd.desc s := by rw [a.queue, a.desc]
    have e0 : adminGroupHearth (adminTake q rd.desc s) rd.desc = adminGroupHearth s rd.desc := rfl
    rw [e1, groupAdmin, a.desc, e0, h1, a.queue]
    have e2 : (adminTake q rd.desc s).enabled h = s.enabled h := rfl
    have e3 : (adminTake q rd.desc s).hState h = s.hState h := rfl
    have e4 : (adminTake q rd.desc s).works h = s.works h := rfl
    simp only [e2, e3, e4, h2, h3, hf]
    simp only [Bool.not_true, Bool.false_eq_true, if_false]
    unfold keepsTags at k
    cases e : f h none rd.desc (.admin q r.key) (adminTake q rd.desc s) with
    | mk t x =>
      cases x with
      | done st res => simp [adminEnd, ctlEnd, ctlDone, adminDone, a.queue, a.desc, a.dst]
      | wait =>
        have k' : t.flue.nextTag = r.key := by
          rw [e] at k; rw [a.key]; exact k rfl
        simp [adminEnd, ctlEnd, ctlWait, adminHold, AdminReq.held, a.queue, a.desc, a.dst, State.modFlue, k']

end Sys2Proof.Machine
end

