-- ==== Sys2Proof/Laws/Shares.lean ====
section
/-! SUPPORT. Shares of a value: whatever a mask generator draws, the shares it makes combine to the value they were made of. -/

namespace Sys2Proof.Machine

@[simp] theorem length_xorBytes (a b : Bytes) : (xorBytes a b).length = a.length := by
  induction a generalizing b with
  | nil => simp [xorBytes]
  | cons x a ih => cases b <;> simp [xorBytes, ih]

theorem xorBytes_self_right (a r : Bytes) : xorBytes (xorBytes a r) r = a := by
  induction a generalizing r with
  | nil => simp [xorBytes]
  | cons x a ih => cases r <;> simp [xorBytes, ih, BitVec.xor_assoc]

theorem xorBytes_right_comm (a b c : Bytes) : xorBytes (xorBytes a b) c = xorBytes (xorBytes a c) b := by
  induction a generalizing b c with
  | nil => simp [xorBytes]
  | cons x a ih =>
    cases b <;> cases c <;> simp [xorBytes, ih, BitVec.xor_assoc]
    rw [BitVec.xor_comm]

/-- Fresh shares of a value make the value. -/
@[simp] theorem unshare_split (g : MaskGen) (o : Bool) (v : Bytes) : unshare (g.split o v).1 = v := by
  cases o <;> simp only [MaskGen.split, unshare, List.foldl, if_true, Bool.false_eq_true, if_false]
  · exact xorBytes_self_right v _
  · rw [xorBytes_right_comm (xorBytes v _), xorBytes_self_right, xorBytes_self_right]

/-- A third share leaves the value of the two it joins. -/
@[simp] theorem unshare_third (g : MaskGen) (l : List Bytes) : unshare (g.third l).1 = unshare l := by
  match l with
  | [] => rfl
  | [_] => rfl
  | [a, b] =>
    simp only [MaskGen.third, unshare, List.foldl]
    rw [xorBytes_right_comm (xorBytes a _), xorBytes_self_right]
  | _ :: _ :: _ :: _ => rfl

/-- Two lists of held keys that differ in their shares alone. -/
def SameKeys (a b : List KeyHold) : Prop :=
  a.map (fun k => { k with parts := [k.mat] }) = b.map (fun k => { k with parts := [k.mat] })

theorem sameKeys_thirdShares (l : List KeyHold) (g : MaskGen) : SameKeys (thirdShares l g).1 l := by
  induction l generalizing g with
  | nil => rfl
  | cons k r ih =>
    have h := ih (g.third k.parts).2
    simp only [SameKeys, thirdShares, List.map_cons, KeyHold.mat, unshare_third] at *
    rw [h]

/-- A key of two such lists is the same but for its shares. -/
theorem SameKeys.getD {a b : List KeyHold} (e : SameKeys a b) (i : Nat) :
    ∃ p, a.getD i {} = { (b.getD i {}) with parts := p } ∧ unshare p = (b.getD i {}).mat := by
  unfold SameKeys at e
  have h := congrArg (fun l => l[i]?) e
  simp only [List.getElem?_map] at h
  refine ⟨(a.getD i {}).parts, ?_⟩
  cases ha : a[i]? <;> cases hb : b[i]? <;> rw [ha, hb] at h <;> simp_all [List.getD, KeyHold.mat]
  rename_i x y
  cases x; cases y; simp_all

end Sys2Proof.Machine
end

