-- ==== Sys2Proof/Laws/Jobs.lean ====
section
/-! SUPPORT. What the run of a job's function does: one lemma for the functions with an input and one for those without. -/

namespace Sys2Proof.Machine

theorem runnable_of {s : State} {h j op : Nat} {jb : Job} (a : AtRun s h j op jb) : runnable s h j op = some jb := by
  have hr := a.ready
  simp only [runnable, a.here, a.works, a.running, a.notRun, a.opcode]
  simp
  intro u hu
  obtain ⟨h1, h2, h3, h4, h5, h6⟩ := hr u hu
  simp [h1, h2, h3, h4, h5]
  rcases h6 with h6 | h6 | h6 <;> simp [h6]

/-- The entry of a job after a change of it. -/
theorem job_modJob {s : State} {h j : Nat} {jb : Job} (f : Job → Job) (e : s.job? h j = some jb) :
    (s.modJob h j f).job? h j = some (f jb) := by
  simp only [State.modJob, State.job?, State.modH, State.H, Tab.getD_put] at *
  simp [Tab.upd, e]

/-- A draw from a unit's mask generator leaves every job. -/
@[simp] theorem job_withMg {α : Type} (h u : Nat) (f : MaskGen → α × MaskGen) (s : State) (k j : Nat) :
    (withMg h u f s).2.job? k j = s.job? k j := by
  simp only [withMg, State.modEng, State.job?, State.modH, State.H]
  by_cases e : k = h
  · subst e; simp [Tab.getD_put]
  · simp [Tab.getD_put_ne _ _ _ _ _ e]

/-- A job as its function finds it: its input, and its keys but for their shares, are those it was dispatched with. -/
def SeenBy (jb x : Job) : Prop := ∃ ks l, x = { jb with keys := ks, inShares := l } ∧ SameKeys ks jb.keys

theorem inRows_of {s : State} {h j : Nat} {jb : Job} (b : Bytes) (e : s.job? h j = some jb) :
    ∃ x, inRows h j b s = some (x, b) ∧ SeenBy jb x := by
  unfold inRows maskIn
  rw [e]
  simp only
  cases maskUnit jb with
  | none =>
    rw [job_modJob _ e]
    exact ⟨_, by simp [unshare], jb.keys, [b], rfl, rfl⟩
  | some u =>
    simp only
    rw [job_modJob (jb := jb) _ (by simpa using e)]
    simp only [Option.map_some, Option.some.injEq, Prod.mk.injEq]
    refine ⟨_, ⟨rfl, by simp [withMg]⟩, _, _, rfl, ?_⟩
    simp only [withMg]
    split
    · exact sameKeys_thirdShares _ _
    · rfl

/-- What a function reads of a job's keys does not depend on their shares. -/
theorem SeenBy.key0 {jb x : Job} (e : SeenBy jb x) :
    (key0 x).mat = (key0 jb).mat ∧ (key0 x).attr = (key0 jb).attr ∧ (key0 x).use = (key0 jb).use ∧ (key0 x).fp = (key0 jb).fp
      ∧ (key0 x).slot = (key0 jb).slot ∧ (key0 x).set = (key0 jb).set ∧ (key0 x).uses = (key0 jb).uses := by
  obtain ⟨ks, l, rfl, e⟩ := e
  obtain ⟨p, h, hp⟩ := e.getD 0
  simp only [Machine.key0, h]
  exact ⟨hp, by simp⟩

theorem SeenBy.key1 {jb x : Job} (e : SeenBy jb x) :
    (key1 x).mat = (key1 jb).mat ∧ (key1 x).attr = (key1 jb).attr ∧ (key1 x).use = (key1 jb).use ∧ (key1 x).fp = (key1 jb).fp
      ∧ (key1 x).slot = (key1 jb).slot ∧ (key1 x).set = (key1 jb).set ∧ (key1 x).uses = (key1 jb).uses := by
  obtain ⟨ks, l, rfl, e⟩ := e
  obtain ⟨p, h, hp⟩ := e.getD 1
  simp only [Machine.key1, h]
  exact ⟨hp, by simp⟩

theorem runWith_of {s : State} {h j op : Nat} {jb : Job} {inp : Dma} {b : Bytes} {f : State → Job → Bytes → Ran}
    (a : AtRun s h j op jb) (i : InputIs s jb inp b) :
    ∃ x, SeenBy jb x ∧ runWith h j op inp f s = afterRun h j b (f s x b) s := by
  obtain ⟨x, e, sx⟩ := inRows_of b a.here
  refine ⟨x, sx, ?_⟩
  have hi : ¬ (s.flue.d3hot = true ∧ dPtr jb.desc = true ∧ dInLen jb.desc ≠ 0) ∧ jobInput jb.desc inp = .ok b := by
    rcases i with ⟨h1, h2⟩ | ⟨h1, h2, h3⟩ | ⟨h1, h2, h3, r, h4, h5⟩ <;> simp [jobInput, *]
  simp only [runWith, runnable_of a]
  rw [if_neg hi.1, hi.2]
  simp only [e, afterRun]

theorem runPlain_of {s : State} {h j op : Nat} {jb : Job} {f : State → Job → Ran} (a : AtRun s h j op jb) :
    ∃ x, SeenBy jb x ∧ runPlain h j op f s = afterRun h j [] (f s x) s := by
  obtain ⟨x, e, sx⟩ := inRows_of [] a.here
  refine ⟨x, sx, ?_⟩
  simp only [runPlain, runnable_of a, e, afterRun]

/-! ### What the run of a function leaves alone -/

/-- From `s` to `t` at most the entry of job `j` of hearth `h` changes, the mask generators and marks of the units `us`, operand memory
and the count of free values. -/
structure RunFrame (h j : Nat) (us : List Nat) (s t : State) : Prop where
  rest   : t = { s with hearths := t.hearths, freeCtr := t.freeCtr }
  others : ∀ k, k ≠ h → t.H k = s.H k
  jobs   : ∀ i, i ≠ j → t.job? h i = s.job? h i
  eng    : ∀ u, ∃ g l, t.eng h u = { s.eng h u with mg := g, left := l } ∧ (u ∉ us → t.eng h u = s.eng h u)
  here   : { t.H h with jobs := [], engines := [], opmem := [] } = { s.H h with jobs := [], engines := [], opmem := [] }

theorem RunFrame.refl (h j : Nat) (us : List Nat) (s : State) : RunFrame h j us s s :=
  ⟨rfl, fun _ _ => rfl, fun _ _ => rfl, fun _ => ⟨_, _, rfl, fun _ => rfl⟩, rfl⟩

theorem RunFrame.trans {h j : Nat} {us : List Nat} {s t r : State} (a : RunFrame h j us s t) (b : RunFrame h j us t r) :
    RunFrame h j us s r := by
  refine ⟨?_, fun k e => (b.others k e).trans (a.others k e), fun i e => (b.jobs i e).trans (a.jobs i e), fun u => ?_,
    b.here.trans a.here⟩
  · rw [b.rest, a.rest]
  · obtain ⟨g, l, e, f⟩ := a.eng u
    obtain ⟨g', l', e', f'⟩ := b.eng u
    exact ⟨g', l', by rw [e', e], fun n => (f' n).trans (f n)⟩

/-- A change of the hearth alone. -/
theorem RunFrame.modH {h j : Nat} {us : List Nat} (f : Hearth → Hearth) (s : State)
    (jobs : ∀ i, i ≠ j → (f (s.H h)).jobs.find? i = (s.H h).jobs.find? i)
    (eng : ∀ u, ∃ g l, (f (s.H h)).eng u = { s.eng h u with mg := g, left := l } ∧ (u ∉ us → (f (s.H h)).eng u = s.eng h u))
    (here : { f (s.H h) with jobs := [], engines := [], opmem := [] } = { s.H h with jobs := [], engines := [], opmem := [] }) :
    RunFrame h j us s (s.modH h f) := by
  have e : (s.modH h f).H h = f (s.H h) := by simp [State.modH, State.H, Tab.getD_put]
  refine ⟨rfl, fun k n => ?_, fun i n => ?_, fun u => ?_, ?_⟩
  · simp [State.modH, State.H, Tab.getD_put_ne _ _ _ _ _ n]
  · simp only [State.job?, e]; exact jobs i n
  · simp only [State.eng, e]; exact eng u
  · rw [e]; exact here

theorem RunFrame.modJob {h j : Nat} {us : List Nat} (f : Job → Job) (s : State) : RunFrame h j us s (s.modJob h j f) := by
  refine .modH _ s (fun i n => ?_) (fun u => ⟨_, _, rfl, fun _ => rfl⟩) rfl
  simp only [Tab.upd]
  split
  · rw [Tab.find?_put_ne _ _ _ _ n]
  · rfl

theorem RunFrame.modEng {h j u : Nat} {us : List Nat} (f : Engine → Engine) (s : State) (i : u ∈ us)
    (e : ∃ g l, f (s.eng h u) = { s.eng h u with mg := g, left := l }) : RunFrame h j us s (s.modEng h u f) := by
  refine .modH _ s (fun i n => rfl) (fun v => ?_) rfl
  obtain ⟨g, l, e⟩ := e
  by_cases n : v = u
  · subst n
    exact ⟨g, l, by simpa [Hearth.eng, State.eng, Tab.getD_put] using e, fun n => absurd i n⟩
  · have : ({ s.H h with engines := (s.H h).engines.put u (f ((s.H h).eng u)) } : Hearth).eng v = s.eng h v := by
      simp [Hearth.eng, State.eng, Tab.getD_put_ne _ _ _ _ _ n]
    exact ⟨_, _, this, fun _ => this⟩

theorem RunFrame.withMg {α : Type} {h j u : Nat} {us : List Nat} (f : MaskGen → α × MaskGen) (s : State) (i : u ∈ us) :
    RunFrame h j us s (withMg h u f s).2 := by
  simp only [Machine.withMg]
  exact .modEng (h := h) (u := u) _ s i ⟨(f (s.eng h u).mg).2, (s.eng h u).left, rfl⟩

theorem RunFrame.putLine {h j : Nat} {us : List Nat} (n line : Nat) (l : OpLine) (s : State) :
    RunFrame h j us s (putLine h n line l s) := .modH _ s (fun _ _ => rfl) (fun _ => ⟨_, _, rfl, fun _ => rfl⟩) rfl

theorem RunFrame.free {h j : Nat} {us : List Nat} (s : State) (n : Nat) : RunFrame h j us s (s.free n).2 :=
  ⟨rfl, fun _ _ => rfl, fun _ _ => rfl, fun _ => ⟨_, _, rfl, fun _ => rfl⟩, rfl⟩

theorem RunFrame.foldl {α : Type} {h j : Nat} {us : List Nat} (f : State → α → State) (e : ∀ s a, RunFrame h j us s (f s a)) (l : List α)
    (s : State) : RunFrame h j us s (l.foldl f s) := by
  induction l generalizing s with
  | nil => exact .refl ..
  | cons a l ih => exact (e s a).trans (ih _)

theorem RunFrame.putLines {h j : Nat} {us : List Nat} (n line : Nat) (d : Bytes) (s : State) :
    RunFrame h j us s (putLines h n line d s) := by
  refine .foldl _ (fun s a => ?_) _ s
  split
  · exact .putLine ..
  · exact .refl ..

theorem RunFrame.workLines {h j : Nat} {us : List Nat} (n line lo hi : Nat) (m k : Bool) (c : Nat) (s : State) :
    RunFrame h j us s (workLines h n line lo hi m k c s) := by
  induction c generalizing line s with
  | zero => exact .refl ..
  | succ c ih =>
    simp only [Machine.workLines]
    refine RunFrame.trans ?_ (ih _ _)
    split
    · exact (RunFrame.free s 66).trans (.putLine ..)
    · exact .free s 66

theorem job_putLine (h n line : Nat) (l : OpLine) (s : State) (j : Nat) : (putLine h n line l s).job? h j = s.job? h j := by
  simp [putLine, State.job?, State.modH, State.H, Tab.getD_put]

theorem job_putLines (h n line : Nat) (d : Bytes) (s : State) (j : Nat) : (putLines h n line d s).job? h j = s.job? h j := by
  unfold putLines
  generalize (chunks 64 d).zipIdx = l
  induction l generalizing s with
  | nil => rfl
  | cons a l ih =>
    rw [List.foldl_cons, ih]
    split
    · rw [job_putLine]
    · rfl

theorem job_workLines (h n line lo hi : Nat) (m k : Bool) (c : Nat) (s : State) (j : Nat) :
    (workLines h n line lo hi m k c s).job? h j = s.job? h j := by
  induction c generalizing line s with
  | zero => rfl
  | succ c ih =>
    simp only [workLines]
    rw [ih]
    split
    · rw [job_putLine]; rfl
    · rfl

theorem job_modEng (h u : Nat) (f : Engine → Engine) (s : State) (j : Nat) : (s.modEng h u f).job? h j = s.job? h j := by
  simp [State.modEng, State.job?, State.modH, State.H, Tab.getD_put]

/-- The span of a job on a big-number engine: what the engine leaves in it touches nothing but that. -/
theorem fillSpan_frame {h j : Nat} {s : State} {x : Job} (e : s.job? h j = some x) :
    RunFrame h j x.units s (fillSpan h j s) ∧ (fillSpan h j s).job? h j = some x := by
  unfold fillSpan
  rw [e]
  simp only
  cases f : x.units.find? isBn with
  | none => exact ⟨.refl .., e⟩
  | some u =>
    simp only
    have i := List.mem_of_find?_eq_some f
    refine ⟨((RunFrame.modEng _ s i ⟨_, _, rfl⟩).trans (.putLines ..)).trans (.workLines ..), ?_⟩
    rw [job_workLines, job_putLines, job_modEng, e]

theorem maskUnit_mem {x : Job} {u : Nat} (e : maskUnit x = some u) : u ∈ x.units := by
  simp only [maskUnit] at e
  split at e
  · cases e
  · exact List.mem_of_head? e

theorem maskIn_frame {h j : Nat} {s : State} {x : Job} (b : Bytes) (e : s.job? h j = some x) :
    RunFrame h j x.units s (maskIn h j b s) ∧
      ∃ ks l, (maskIn h j b s).job? h j = some { x with keys := ks, inShares := l } ∧ SameKeys ks x.keys ∧ unshare l = b := by
  unfold maskIn
  rw [e]
  simp only
  cases m : maskUnit x with
  | none => exact ⟨.modJob .., _, _, job_modJob _ e, rfl, by simp [unshare]⟩
  | some u =>
    simp only
    refine ⟨((RunFrame.withMg _ s (maskUnit_mem m)).trans (.withMg _ _ (maskUnit_mem m))).trans (.modJob ..), ?_⟩
    rw [job_modJob (jb := x) _ (by simpa using e)]
    refine ⟨_, _, rfl, ?_, by simp [withMg]⟩
    simp only [withMg]
    split
    · exact sameKeys_thirdShares _ _
    · rfl

theorem maskOut_frame {h j : Nat} {s : State} {x : Job} (e : s.job? h j = some x) :
    RunFrame h j x.units s (maskOut h j s) ∧
      ∃ y, (maskOut h j s).job? h j = some y ∧ (y = x ∨ ∃ o r, y = { x with outData := [], result := [], outShares := o, resShares := r }
        ∧ o ≠ [] ∧ r ≠ [] ∧ unshare o = x.outData ∧ unshare r = x.result) := by
  have ne : ∀ (g : MaskGen) (o : Bool) v, (g.split o v).1 ≠ [] := by intro g o v; cases o <;> simp [MaskGen.split]
  unfold maskOut
  rw [e]
  simp only
  cases m : maskUnit x with
  | none => exact ⟨.refl .., x, e, .inl rfl⟩
  | some u =>
    simp only
    refine ⟨((RunFrame.withMg _ s (maskUnit_mem m)).trans (.withMg _ _ (maskUnit_mem m))).trans (.modJob ..), ?_⟩
    rw [job_modJob (jb := x) _ (by simpa using e)]
    exact ⟨_, rfl, .inr ⟨_, _, rfl, by simp [withMg, ne], by simp [withMg, ne], by simp [withMg], by simp [withMg]⟩⟩

end Sys2Proof.Machine
end

