-- ==== Sys2Proof/Laws/Memory.lean ====
section
/-! SUPPORT. Laws of stored bytes: reading one byte after one write, and the canonical form that every memory operation keeps. -/

namespace Sys2Proof.Machine

/-- The canonical form as pairwise order and a fact about every entry. -/
theorem Memory.wf_iff (m : List Host.Cell) : Memory.wf m = true ↔ Tab.Rising m ∧ ∀ c ∈ m, c.2 ≠ unwritten := by
  induction m with
  | nil => simp [Memory.wf, Tab.Rising]
  | cons p r ih =>
    cases r with
    | nil => simp [Memory.wf, Tab.Rising]
    | cons q r =>
      simp only [Tab.Rising, List.pairwise_cons] at ih ⊢
      grind [Memory.wf]

theorem memDel_eq (m : List Host.Cell) (a : Nat) : memDel m a = Tab.del m a := by
  induction m with
  | nil => rfl
  | cons p r ih => simp [memDel, Tab.del, ih]

theorem memIns_eq (m : List Host.Cell) (a : Nat) (x : Byte) : memIns m a x = Tab.put m a x := by
  induction m with
  | nil => rfl
  | cons p r ih => simp [memIns, Tab.put, ih]

theorem memFind_eq (m : List Host.Cell) (a : Nat) : memFind m a = Tab.find? m a := by
  induction m with
  | nil => rfl
  | cons p r ih => simp [memFind, Tab.find?, ih]

@[simp] theorem memGet_nil (a : Nat) : memGet [] a = unwritten := rfl

@[simp] theorem memSet_wf (m : List Host.Cell) (a : Nat) (x : Byte) (h : Memory.wf m = true) : Memory.wf (memSet m a x) = true := by
  rw [Memory.wf_iff] at *
  unfold memSet
  split
  · rw [memDel_eq]
    exact ⟨h.1.del a, fun c hc => h.2 c (Tab.mem_del hc)⟩
  · rename_i e
    rw [memIns_eq]
    refine ⟨h.1.put a x, fun c hc => ?_⟩
    rcases Tab.mem_put hc with rfl | hc
    · exact e
    · exact h.2 c hc

@[simp] theorem memPut_wf (m : List Host.Cell) (a : Nat) (d : Bytes) (h : Memory.wf m = true) : Memory.wf (memPut m a d) = true := by
  induction d generalizing m a with
  | nil => exact h
  | cons x r ih => exact ih _ _ (memSet_wf m a x h)

@[simp] theorem memClear_wf (m : List Host.Cell) (a n : Nat) (h : Memory.wf m = true) : Memory.wf (memClear m a n) = true := by
  rw [Memory.wf_iff] at *
  exact ⟨h.1.filter _, fun c hc => h.2 c ((List.mem_filter.1 hc).1)⟩

/-- A byte reads back as it was written. -/
theorem memGet_memSet (m : List Host.Cell) (a : Nat) (x : Byte) (h : Memory.wf m = true) : memGet (memSet m a x) a = x := by
  unfold memGet memSet
  split
  · rename_i e
    rw [memFind_eq, memDel_eq, Tab.find?_del ((Memory.wf_iff m).1 h).1]
    exact e.symm
  · rw [memFind_eq, memIns_eq, Tab.find?_put]
    rfl

/-- A write of one byte leaves every other byte alone. -/
theorem memGet_memSet_ne (m : List Host.Cell) (a b : Nat) (x : Byte) (h : b ≠ a) : memGet (memSet m a x) b = memGet m b := by
  unfold memGet memSet
  split
  · rw [memFind_eq, memFind_eq, memDel_eq, Tab.find?_del_ne m a b h]
  · rw [memFind_eq, memFind_eq, memIns_eq, Tab.find?_put_ne m a b x h]

/-- The bytes of a cleared span read as unwritten. -/
theorem memGet_memClear (m : List Host.Cell) (a n b : Nat) (h1 : a ≤ b) (h2 : b < a + n) : memGet (memClear m a n) b = unwritten := by
  rw [memGet, memFind_eq, memClear, Tab.find?_filter m (fun k => decide (k < a) || decide (a + n ≤ k)), if_neg (by simp; omega)]
  rfl

/-- The bytes outside a cleared span are unchanged. -/
theorem memGet_memClear_ne (m : List Host.Cell) (a n b : Nat) (h : b < a ∨ a + n ≤ b) : memGet (memClear m a n) b = memGet m b := by
  rw [memGet, memFind_eq, memClear, Tab.find?_filter m (fun k => decide (k < a) || decide (a + n ≤ k)), if_pos (by simpa using h)]
  simp only [memGet, memFind_eq]

/-- The memories after reset list nothing. -/
theorem reset_memories (h : Nat) :
    (State.reset.H h).mem.ddr = [] ∧ (State.reset.H h).tcmIn = [] ∧ (State.reset.H h).tcmOut = [] := ⟨rfl, rfl, rfl⟩

theorem reset_memories_wf (h : Nat) :
    Memory.wf (State.reset.H h).mem.ddr = true ∧ Memory.wf (State.reset.H h).tcmIn = true
      ∧ Memory.wf (State.reset.H h).tcmOut = true := ⟨rfl, rfl, rfl⟩

end Sys2Proof.Machine
end

