-- ==== Sys2Proof/Laws/Regs.lean ====
section
/-! SUPPORT. Laws of the register file: distinct pages and distinct bits have distinct keys, and every register operation keeps
the keys rising. -/

namespace Sys2Proof.Machine

theorem PageKind.ctorIdx_inj {a b : PageKind} (h : a.ctorIdx = b.ctorIdx) : a = b := by cases a <;> cases b <;> first | rfl | cases h

theorem pageKey_inj {p q : Page} (h : pageKey p = pageKey q) : p = q := by
  obtain ⟨k, u, i⟩ := p
  obtain ⟨k', u', i'⟩ := q
  simp only [pageKey] at h
  have h1 := u.isLt
  have h2 := i.isLt
  have h3 := u'.isLt
  have h4 := i'.isLt
  have e1 : k = k' := PageKind.ctorIdx_inj (by omega)
  subst e1
  have e2 : u = u' := Fin.ext (by omega)
  have e3 : i = i' := Fin.ext (by omega)
  rw [e2, e3]

theorem regKey_eq_iff (p q : Page) (f g : Fld) :
    regKey p f = regKey q g ↔ p = q ∧ (f.off * 8 + f.lo) % 32768 = (g.off * 8 + g.lo) % 32768 := by
  simp only [regKey]
  constructor
  · intro h
    exact ⟨pageKey_inj (by omega), by omega⟩
  · rintro ⟨rfl, h⟩
    rw [h]

/-- Fields at different bits of their page are different registers. -/
theorem regKey_ne_bits (p q : Page) (f g : Fld) (h : (f.off * 8 + f.lo) % 32768 ≠ (g.off * 8 + g.lo) % 32768) :
    regKey p f ≠ regKey q g := fun e => h ((regKey_eq_iff p q f g).1 e).2

theorem regKey_ne_page (p q : Page) (f g : Fld) (h : p ≠ q) : regKey p f ≠ regKey q g := fun e => h ((regKey_eq_iff p q f g).1 e).1

theorem State.rd_wr_bits (s : State) (p q : Page) (f g : Fld) (v : Nat)
    (h : (g.off * 8 + g.lo) % 32768 ≠ (f.off * 8 + f.lo) % 32768) : (s.wr p f v).rd q g = s.rd q g :=
  State.rd_wr_ne s p q f g v (regKey_ne_bits q p g f h)

theorem State.rd_wr_page (s : State) (p q : Page) (f g : Fld) (v : Nat) (h : q ≠ p) : (s.wr p f v).rd q g = s.rd q g :=
  State.rd_wr_ne s p q f g v (regKey_ne_page q p g f h)

/-! ### The canonical form -/

@[simp] theorem State.wr_rising (s : State) (p : Page) (f : Fld) (v : Nat) (h : s.regs.Rising) : (s.wr p f v).regs.Rising := by
  unfold State.wr
  simp only
  split
  · exact h.del _
  · exact h.put _ _

@[simp] theorem State.orBit_rising (s : State) (p : Page) (f : Fld) (i : Nat) (h : s.regs.Rising) : (s.orBit p f i).regs.Rising :=
  State.wr_rising s p f _ h

@[simp] theorem State.bump_rising (s : State) (p : Page) (f : Fld) (h : s.regs.Rising) : (s.bump p f).regs.Rising :=
  State.wr_rising s p f _ h

@[simp] theorem State.setFt_rising (s : State) (v : Nat) (f : Nat → Fld) (x : Nat) (h : s.regs.Rising) : (s.setFt v f x).regs.Rising :=
  State.wr_rising s _ _ _ h

@[simp] theorem State.qwr_rising (s : State) (t : Queue) (f : Nat → Fld) (x : Nat) (h : s.regs.Rising) : (s.qwr t f x).regs.Rising :=
  State.wr_rising s _ _ _ h

@[simp] theorem State.setHState_rising (s : State) (h v : Nat) (e : s.regs.Rising) : (s.setHState h v).regs.Rising :=
  State.wr_rising s _ _ _ e

@[simp] theorem State.resetPage_rising (s : State) (p : Page) (h : s.regs.Rising) : (s.resetPage p).regs.Rising := h.filter _

@[simp] theorem State.resetPages_rising (s : State) (t : Nat → Bool) (h : s.regs.Rising) : (s.resetPages t).regs.Rising := h.filter _

end Sys2Proof.Machine
end

