-- ==== Sys2Proof/Laws/Keeps.lean ====
section
/-! SUPPORT. `Keeps s t`: what every effect of a command has in common, whatever else it changes. The queue and the variant stay,
outputs are only added, free values only drawn, the tables keep their form, fuses only blow, and an intact vault keeps its responses
at their minimum. One lemma per function says that the function keeps a state reached from `a` reachable from `a`; here are the
relation and the primitive operations. -/

namespace Sys2Proof.Machine

/-- The memories of a hearth keep their canonical form. -/
structure KeepsH (x y : Hearth) : Prop where
  ddr    : Memory.wf x.mem.ddr = true → Memory.wf y.mem.ddr = true
  tcmIn  : Memory.wf x.tcmIn = true → Memory.wf y.tcmIn = true
  tcmOut : Memory.wf x.tcmOut = true → Memory.wf y.tcmOut = true

/-- The fuses of the part only blow, and an intact vault keeps its responses at their minimum. -/
structure KeepsC (c d : Chimney) : Prop where
  fuses : c.fuses.Fits → d.fuses.Fits ∧ Fuses.Grow c.fuses d.fuses
  vault : c.vault.Guarded → d.vault.Guarded

/-- `t` comes from `s` by effects of commands. -/
structure Keeps (s t : State) : Prop where
  pending : t.pending = s.pending
  variant : t.variant = s.variant
  free    : s.freeCtr ≤ t.freeCtr
  out     : ∃ l, t.out = s.out ++ l
  regs    : s.regs.Rising → t.regs.Rising
  hearths : ∀ h, KeepsH (s.H h) (t.H h)
  chim    : KeepsC s.chim t.chim

theorem Fuses.Grow.refl (a : Fuses) : Fuses.Grow a a :=
  ⟨fun _ => Nat.le_refl _, fun _ h => h, fun _ h => h, Nat.le_refl _, Nat.le_refl _, Nat.le_refl _, .inl rfl, rfl, rfl, rfl, rfl⟩

theorem Fuses.Grow.trans {a b c : Fuses} (h : Fuses.Grow a b) (k : Fuses.Grow b c) : Fuses.Grow a c := by
  refine ⟨fun w => Nat.le_trans (h.words w) (k.words w), fun i e => k.tamper i (h.tamper i e), fun i e => k.compat i (h.compat i e),
    Nat.le_trans h.flue k.flue, Nat.le_trans h.inner k.inner, Nat.le_trans h.outer k.outer, ?_, ?_⟩
  · rcases k.seed with e | e
    · rw [e]; exact h.seed
    · exact .inr e
  · obtain ⟨a1, a2, a3, a4⟩ := h.fixed; obtain ⟨b1, b2, b3, b4⟩ := k.fixed
    exact ⟨b1.trans a1, b2.trans a2, b3.trans a3, b4.trans a4⟩

theorem KeepsH.refl (x : Hearth) : KeepsH x x := ⟨id, id, id⟩

theorem KeepsH.trans {x y z : Hearth} (h : KeepsH x y) (k : KeepsH y z) : KeepsH x z :=
  ⟨fun e => k.ddr (h.ddr e), fun e => k.tcmIn (h.tcmIn e), fun e => k.tcmOut (h.tcmOut e)⟩

theorem KeepsH.same {x y : Hearth} (a : y.mem.ddr = x.mem.ddr) (b : y.tcmIn = x.tcmIn) (c : y.tcmOut = x.tcmOut) : KeepsH x y := by
  constructor <;> simp_all

theorem KeepsC.refl (x : Chimney) : KeepsC x x := ⟨fun h => ⟨h, .refl _⟩, id⟩

theorem KeepsC.trans {x y z : Chimney} (h : KeepsC x y) (k : KeepsC y z) : KeepsC x z :=
  ⟨fun e => ⟨(k.fuses (h.fuses e).1).1, (h.fuses e).2.trans (k.fuses (h.fuses e).1).2⟩, fun e => k.vault (h.vault e)⟩

theorem KeepsC.same {x y : Chimney} (a : y.fuses = x.fuses) (b : y.vault.intact = x.vault.intact) (c : y.vault.resp = x.vault.resp) : KeepsC x y := by
  refine ⟨fun h => ?_, fun h => ?_⟩
  · rw [a]; exact ⟨h, .refl _⟩
  · unfold Vault.Guarded at *; rw [b, c]; exact h

theorem Keeps.refl (s : State) : Keeps s s := ⟨rfl, rfl, Nat.le_refl _, ⟨[], by simp⟩, id, fun _ => .refl _, .refl _⟩

theorem Keeps.trans {a b c : State} (h : Keeps a b) (k : Keeps b c) : Keeps a c := by
  refine ⟨k.pending.trans h.pending, k.variant.trans h.variant, Nat.le_trans h.free k.free, ?_, fun e => k.regs (h.regs e),
    fun x => (h.hearths x).trans (k.hearths x), h.chim.trans k.chim⟩
  obtain ⟨l, e⟩ := h.out; obtain ⟨m, f⟩ := k.out
  exact ⟨l ++ m, by rw [f, e, List.append_assoc]⟩

variable {a s t : State}

theorem Keeps.regsUpd (h : Keeps a s) {r : Tab Nat} (e : s.regs.Rising → r.Rising) : Keeps a { s with regs := r } :=
  h.trans ⟨rfl, rfl, Nat.le_refl _, ⟨[], by simp⟩, e, fun _ => .refl _, .refl _⟩

theorem Keeps.outUpd (h : Keeps a s) (l : List Output) : Keeps a { s with out := s.out ++ l } :=
  h.trans ⟨rfl, rfl, Nat.le_refl _, ⟨l, rfl⟩, id, fun _ => .refl _, .refl _⟩

theorem State.modFlue_keeps {f : Flue → Flue} (h : Keeps a s) : Keeps a (s.modFlue f) :=
  h.trans ⟨rfl, rfl, Nat.le_refl _, ⟨[], by simp [State.modFlue]⟩, id, fun _ => .refl _, .refl _⟩

theorem State.modChim_keeps {f : Chimney → Chimney} (h : Keeps a s) (e : KeepsC s.chim (f s.chim)) : Keeps a (s.modChim f) :=
  h.trans ⟨rfl, rfl, Nat.le_refl _, ⟨[], by simp [State.modChim]⟩, id, fun _ => .refl _, e⟩

theorem State.modChim_keeps' {f : Chimney → Chimney} (h : Keeps a s) (e : ∀ c, KeepsC c (f c)) : Keeps a (s.modChim f) := State.modChim_keeps h (e _)

theorem State.modVault_keeps {f : Vault → Vault} (h : Keeps a s) (e : ∀ v, (f v).intact = v.intact ∧ (f v).resp = v.resp) : Keeps a (s.modVault f) :=
  State.modChim_keeps h (.same rfl (e _).1 (e _).2)

theorem H_put (s : State) (h k : Nat) (x : Hearth) : ({ s with hearths := s.hearths.put h x } : State).H k = if k = h then x else s.H k := by
  unfold State.H; split
  · rename_i e; subst e; simp
  · rename_i e; exact Tab.getD_put_ne _ _ _ _ _ e

theorem State.modH_keeps {n : Nat} {f : Hearth → Hearth} (h : Keeps a s) (e : ∀ x, KeepsH x (f x)) : Keeps a (s.modH n f) := by
  refine h.trans ⟨rfl, rfl, Nat.le_refl _, ⟨[], by simp [State.modH]⟩, id, fun k => ?_, .refl _⟩
  unfold State.modH; rw [H_put]; split
  · rename_i e2; subst e2; exact e _
  · exact .refl _

theorem State.modEng_keeps {n u : Nat} {f : Engine → Engine} (h : Keeps a s) : Keeps a (s.modEng n u f) := State.modH_keeps h (fun _ => .same rfl rfl rfl)

theorem State.modJob_keeps {n u : Nat} {f : Job → Job} (h : Keeps a s) : Keeps a (s.modJob n u f) := State.modH_keeps h (fun _ => .same rfl rfl rfl)

theorem State.modCore_keeps {n u : Nat} {f : Core → Core} (h : Keeps a s) : Keeps a (s.modCore n u f) := State.modH_keeps h (fun _ => .same rfl rfl rfl)

theorem State.wr_keeps {p : Page} {f : Fld} {v : Nat} (h : Keeps a s) : Keeps a (s.wr p f v) := h.regsUpd (fun e => State.wr_rising s p f v e)

theorem State.resetPage_keeps {p : Page} (h : Keeps a s) : Keeps a (s.resetPage p) := h.regsUpd (fun e => e.filter _)

theorem State.resetPages_keeps {t : Nat → Bool} (h : Keeps a s) : Keeps a (s.resetPages t) := h.regsUpd (fun e => e.filter _)

theorem State.free_keeps {n : Nat} (h : Keeps a s) : Keeps a (s.free n).2 :=
  h.trans ⟨rfl, rfl, Nat.le_add_right _ _, ⟨[], by simp [State.free]⟩, id, fun _ => .refl _, .refl _⟩

theorem State.emit_keeps {o : Output} (h : Keeps a s) : Keeps a (s.emit o) := by
  unfold State.emit; dsimp only; split
  · exact State.modFlue_keeps (h.outUpd _)
  · exact h.outUpd _

theorem resetPageRegs_keeps {p : Page} {lo hi : Nat} (h : Keeps a s) : Keeps a { s with regs := resetPageRegs p lo hi s.regs } := h.regsUpd (fun e => e.filter _)

theorem State.mapH_keeps {f : Nat → Hearth → Hearth} (h : Keeps a s) (e : ∀ n x, KeepsH x (f n x)) : Keeps a { s with hearths := s.hearths.mapVals f } := by
  refine h.trans ⟨rfl, rfl, Nat.le_refl _, ⟨[], by simp⟩, id, fun k => ?_, .refl _⟩
  have hm : ∀ (t : Tab Hearth), Tab.find? (t.mapVals f) k = (t.find? k).map (f k) := by
    intro t; induction t with
    | nil => rfl
    | cons p r ih =>
      obtain ⟨n, v⟩ := p
      simp only [Tab.mapVals, List.map_cons, Tab.find?] at *
      split
      · rename_i e; subst e; rfl
      · exact ih
  unfold State.H Tab.getD
  dsimp only; rw [hm]
  cases Tab.find? s.hearths k <;> simp [KeepsH.refl, e]

theorem Keeps.fst {α : Type} {p : State × α} {t : State} {b : α} (e : p = (t, b)) (h : Keeps a p.1) : Keeps a t := by subst e; exact h

theorem Keeps.snd {α : Type} {p : α × State} {t : State} {b : α} (e : p = (b, t)) (h : Keeps a p.2) : Keeps a t := by subst e; exact h

theorem Keeps.foldl {α : Type} {l : List α} {f : State → α → State} (h : Keeps a s) (hf : ∀ s x, Keeps a s → Keeps a (f s x)) : Keeps a (l.foldl f s) := by
  induction l generalizing s with
  | nil => exact h
  | cons x r ih => exact ih (hf _ _ h)

theorem Keeps.foldlP {α β : Type} {l : List α} {f : State × β → α → State × β} {p : State × β} (h : Keeps a p.1) (hf : ∀ p x, Keeps a p.1 → Keeps a (f p x).1) : Keeps a (l.foldl f p).1 := by
  induction l generalizing p with
  | nil => exact h
  | cons x r ih => exact ih (hf _ _ h)

theorem Keeps.foldlP2 {α β : Type} {l : List α} {f : β × State → α → β × State} {p : β × State} (h : Keeps a p.2) (hf : ∀ p x, Keeps a p.2 → Keeps a (f p x).2) : Keeps a (l.foldl f p).2 := by
  induction l generalizing p with
  | nil => exact h
  | cons x r ih => exact ih (hf _ _ h)

theorem Keeps.ite {c : Prop} [Decidable c] {s t : State} (h : Keeps a s) (k : Keeps a t) : Keeps a (if c then s else t) := by split <;> assumption

theorem Keeps.iteP {α : Type} {c : Prop} [Decidable c] {p q : State × α} (h : Keeps a p.1) (k : Keeps a q.1) : Keeps a (if c then p else q).1 := by split <;> assumption

theorem KeepsH.foldl {α : Type} {l : List α} {f : Hearth → α → Hearth} {x y : Hearth} (h : KeepsH x y) (hf : ∀ y a, KeepsH y (f y a)) : KeepsH x (l.foldl f y) := by
  induction l generalizing y with
  | nil => exact h
  | cons a r ih => exact ih (h.trans (hf _ _))

theorem undoAction_keepsH (x : Hearth) (a : Action) : KeepsH x (undoAction x a) := by
  unfold undoAction; dsimp only
  refine KeepsH.foldl ?_ (fun _ _ => .same rfl rfl rfl)
  repeat' split
  all_goals exact .same rfl rfl rfl

theorem takePending_keepsH (x : Hearth) : KeepsH x (takePending x) := by
  unfold takePending; split
  · exact .same rfl rfl rfl
  · exact .refl _
/-- The vault keeps its power and its table of responses. -/
structure KeepsV (v w : Vault) : Prop where
  intact : w.intact = v.intact
  resp   : w.resp = v.resp

theorem KeepsV.refl (v : Vault) : KeepsV v v := ⟨rfl, rfl⟩

theorem KeepsV.trans {u v w : Vault} (h : KeepsV u v) (k : KeepsV v w) : KeepsV u w := ⟨k.1.trans h.1, k.2.trans h.2⟩

theorem freeRecords_keepsV (v : Vault) : KeepsV v (freeRecords v) := ⟨rfl, rfl⟩

theorem countRecord_keepsV (r : Nat) (v : Vault) : KeepsV v (countRecord r v) := by
  unfold countRecord; repeat' split
  all_goals exact ⟨rfl, rfl⟩

theorem clearReissue_keepsV (h n : Nat) (v : Vault) : KeepsV v (clearReissue h n v) := ⟨rfl, rfl⟩

theorem setApplied_keepsV (r h : Nat) (v : Vault) : KeepsV v (setApplied r h v) := by
  unfold setApplied; split <;> exact ⟨rfl, rfl⟩

theorem countAll_keepsV (l : List Nat) (v : Vault) : KeepsV v (l.foldl (fun v r => countRecord r v) v) := by
  induction l generalizing v with
  | nil => exact .refl _
  | cons a r ih => exact (countRecord_keepsV a v).trans (ih _)

theorem defaultTable_guarded : ∀ n, n < 30 → minResp n ≤ respAt defaultTable n := by decide

theorem State.modVault_keepsG {a s : State} {f : Vault → Vault} (h : Keeps a s) (e : s.chim.vault.Guarded → (f s.chim.vault).Guarded) : Keeps a (s.modVault f) :=
  State.modChim_keeps h ⟨fun h => ⟨h, .refl _⟩, e⟩

theorem Fuses.put_fits {f : Fuses} {w n : Nat} (h : f.Fits) (e : f.lcWords.getD w 0 ≤ n) (k : n ≤ 32) :
    Fuses.Fits { f with lcWords := f.lcWords.put w n } ∧ Fuses.Grow f { f with lcWords := f.lcWords.put w n } := by
  refine ⟨fun i => ?_, ⟨fun i => ?_, fun _ h => h, fun _ h => h, Nat.le_refl _, Nat.le_refl _, Nat.le_refl _, .inl rfl, rfl, rfl, rfl, rfl⟩⟩
  all_goals by_cases g : i = w
  · subst g; simpa using k
  · dsimp only; rw [Tab.getD_put_ne _ _ _ _ _ g]; exact h i
  · subst g; simpa using e
  · exact Nat.le_of_eq (Tab.getD_put_ne _ _ _ _ _ g).symm

theorem lastWord_lt (f : Fuses) (n w : Nat) (h : lastWord f n < w) (k : w ≤ n) : wordBlown f w = false := by
  induction n with
  | zero => omega
  | succ n ih =>
    unfold lastWord at h; split at h
    · omega
    · rename_i e
      by_cases g : w = n + 1
      · subst g; simpa using e
      · exact ih h (by omega)

theorem lastWord_le (f : Fuses) (n : Nat) : lastWord f n ≤ n := by
  induction n with
  | zero => simp [lastWord]
  | succ n ih => unfold lastWord; split <;> omega

theorem mover_unblown (s : State) (t : Nat) (m : Mover) (h : mover s t = some m) : s.chim.fuses.lcWords.getD t 0 < 24 := by
  have hf : fuseState s ≤ 5 := by
    unfold fuseState; split
    · decide
    · exact lastWord_le _ _
  have hb : fuseState s < t ∧ t ≤ 5 := by
    unfold mover at h; unfold lcState at h
    by_cases g : (fuseState s = lcOwned ∨ fuseState s = lcOperational) ∧ !s.chim.vault.valid
    all_goals
      first | rw [if_pos g] at h | rw [if_neg g] at h
      dsimp only at h
      repeat' split at h
      all_goals first | (cases h; done) | (simp only [lcQuenched, lcBlank, lcVendorTest, lcProvisioned, lcOwned, lcOperational, lcDecommissioned] at *; omega)
  have hs : fuseState s = lastWord s.chim.fuses 5 := by
    unfold fuseState at hb ⊢; split at hb
    · simp [lcDecommissioned] at hb; omega
    · rename_i g; rw [if_neg g]
  rw [hs] at hb
  have := lastWord_lt _ _ _ hb.1 hb.2
  simpa [wordBlown] using this

theorem respAt_set (t n v m : Nat) (hv : v < 4) : respAt (t - respAt t n * 4 ^ n + v * 4 ^ n) m = if m = n then v else respAt t m := by
  unfold respAt
  have hp : ∀ k, 0 < 4 ^ k := fun k => Nat.pow_pos (by decide)
  have h0 : t = (t / 4 ^ (n + 1)) * 4 ^ (n + 1) + (t / 4 ^ n % 4) * 4 ^ n + t % 4 ^ n := by
    have e1 := Nat.div_add_mod t (4 ^ n)
    have e2 := Nat.div_add_mod (t / 4 ^ n) 4
    rw [Nat.div_div_eq_div_mul] at e2
    rw [Nat.pow_succ]
    generalize t / (4 ^ n * 4) = q at *
    generalize t / 4 ^ n % 4 = d at *
    generalize t % 4 ^ n = r at *
    rw [← e2] at e1
    rw [← e1]; grind
  have hr : t % 4 ^ n < 4 ^ n := Nat.mod_lt _ (hp n)
  have hd : t / 4 ^ n % 4 < 4 := Nat.mod_lt _ (by decide)
  generalize t / 4 ^ (n + 1) = q at h0
  generalize t / 4 ^ n % 4 = d at *
  generalize t % 4 ^ n = r at *
  have hu : t - d * 4 ^ n + v * 4 ^ n = q * 4 ^ (n + 1) + v * 4 ^ n + r := by
    subst h0; omega
  rw [hu]; subst h0
  rcases Nat.lt_trichotomy m n with g | g | g
  · rw [if_neg (by omega)]
    obtain ⟨k, rfl⟩ : ∃ k, n = m + k + 1 := ⟨n - m - 1, by omega⟩
    have e : ∀ x : Nat, (q * 4 ^ (m + k + 1 + 1) + x * 4 ^ (m + k + 1) + r) / 4 ^ m % 4 = r / 4 ^ m % 4 := by
      intro x
      have : q * 4 ^ (m + k + 1 + 1) + x * 4 ^ (m + k + 1) + r = r + 4 ^ m * (4 * (q * 4 ^ (k + 1) + x * 4 ^ k)) := by grind
      rw [this, Nat.add_mul_div_left _ _ (hp m), Nat.add_mul_mod_self_left]
    rw [e, e]
  · subst g; rw [if_pos rfl]
    have : q * 4 ^ (m + 1) + v * 4 ^ m + r = r + 4 ^ m * (4 * q + v) := by grind
    rw [this, Nat.add_mul_div_left _ _ (hp m), Nat.div_eq_of_lt hr]; omega
  · rw [if_neg (by omega)]
    obtain ⟨k, rfl⟩ : ∃ k, m = n + 1 + k := ⟨m - n - 1, by omega⟩
    have e : ∀ x, x < 4 → (q * 4 ^ (n + 1) + x * 4 ^ n + r) / 4 ^ (n + 1 + k) = q / 4 ^ k := by
      intro x hx
      have hlt : x * 4 ^ n + r < 4 ^ (n + 1) := by
        have : x * 4 ^ n ≤ 3 * 4 ^ n := Nat.mul_le_mul_right _ (by omega)
        rw [Nat.pow_succ]; omega
      rw [Nat.pow_add 4 (n + 1) k, ← Nat.div_div_eq_div_mul]
      have : q * 4 ^ (n + 1) + x * 4 ^ n + r = (x * 4 ^ n + r) + 4 ^ (n + 1) * q := by grind
      rw [this, Nat.add_mul_div_left _ _ (hp _), Nat.div_eq_of_lt hlt, Nat.zero_add]
    rw [e v hv, e d hd]

theorem arb_grow {f : Fuses} {k v : Nat} (h : f.Fits) (e : arbValue f k ≤ v) (hk : 1 ≤ k ∧ k ≤ 3) : (setArb k v f).Fits ∧ Fuses.Grow f (setArb k v f) := by
  unfold setArb arbValue at *
  split
  · rename_i g; simp only [g, if_true] at e
    exact ⟨h, ⟨fun _ => Nat.le_refl _, fun _ h => h, fun _ h => h, e, Nat.le_refl _, Nat.le_refl _, .inl rfl, rfl, rfl, rfl, rfl⟩⟩
  · rename_i g0; rw [if_neg g0] at e; split
    · rename_i g; simp only [g, if_true] at e
      exact ⟨h, ⟨fun _ => Nat.le_refl _, fun _ h => h, fun _ h => h, Nat.le_refl _, e, Nat.le_refl _, .inl rfl, rfl, rfl, rfl, rfl⟩⟩
    · rename_i g; rw [if_neg g] at e
      exact ⟨h, ⟨fun _ => Nat.le_refl _, fun _ h => h, fun _ h => h, Nat.le_refl _, Nat.le_refl _, e, .inl rfl, rfl, rfl, rfl, rfl⟩⟩

theorem State.modMem_keeps {a s : State} {h : Nat} {f : MemPath → MemPath} (k : Keeps a s)
    (e : ∀ m, Memory.wf m.ddr = true → Memory.wf (f m).ddr = true) : Keeps a (s.modMem h f) :=
  State.modH_keeps k (fun x => ⟨e x.mem, id, id⟩)

theorem addInner_keepsH (x : Hearth) (i : InnerJob) : KeepsH x (addInner x i) := by
  unfold addInner; repeat' split
  all_goals exact .same rfl rfl rfl

end Sys2Proof.Machine
end

