-- ==== Sys2Proof/Laws/KeepsShared.lean ====
section
/-! SUPPORT. What one step can do to the whole state (`Keeps`), function by function: the shared operations: registers, events, groups, completions, the memory path, engines, queues, fetch. -/

namespace Sys2Proof.Machine

theorem bumpGen_keeps {a : State} {p : Page} {s : State} (k : Keeps a s) : Keeps a (bumpGen p s) := by
  unfold bumpGen
  repeat' first | with_reducible assumption | split | with_reducible apply State.wr_keeps

theorem setFields_keeps {a : State} {p : Page} {fs : List (Fld × Nat)} {s : State} (k : Keeps a s) : Keeps a (setFields p fs s)
    := by
  unfold setFields
  repeat' first
    | with_reducible assumption | with_reducible apply State.wr_keeps | with_reducible apply bumpGen_keeps
    | with_reducible apply Keeps.foldl | with_reducible apply Keeps.ite | (intro _ _ _)

theorem State.orBit_keeps {a s : State} {p : Page} {f : Fld} {i : Nat} (k : Keeps a s) : Keeps a (State.orBit s p f i) := by
  unfold State.orBit
  repeat' first | with_reducible assumption | with_reducible apply State.wr_keeps

theorem sendMsix_keeps {a : State} {fn : Func} {vector : Nat} {s : State} (k : Keeps a s) : Keeps a (sendMsix fn vector s) := by
  unfold sendMsix
  repeat' first
    | with_reducible assumption | with_reducible apply State.orBit_keeps | with_reducible apply State.emit_keeps
    | with_reducible apply Keeps.ite

theorem sendMessages_keeps {a : State} {g : Nat} {s : State} (k : Keeps a s) : Keeps a (sendMessages g s) := by
  unfold sendMessages
  repeat' first | with_reducible assumption | with_reducible apply sendMsix_keeps | with_reducible apply Keeps.ite

theorem raiseBit_keeps {a : State} {e : Ev} {unit g : Nat} {p : Page} {s : State} (k : Keeps a s) : Keeps a (raiseBit e unit g p
    s) := by
  unfold raiseBit
  repeat' first
    | with_reducible assumption | with_reducible apply State.orBit_keeps | with_reducible apply sendMessages_keeps
    | with_reducible apply Keeps.ite

theorem State.setRecorder_keeps {a s : State} {unit : Option Nat} {r : Recorder} (k : Keeps a s) : Keeps a (State.setRecorder s
    unit r) := by
  unfold State.setRecorder
  repeat' first
    | with_reducible assumption | split | with_reducible apply State.modH_keeps | with_reducible apply State.modFlue_keeps
    | (intros; exact .same rfl rfl rfl)

theorem State.bump_keeps {a s : State} {p : Page} {f : Fld} (k : Keeps a s) : Keeps a (State.bump s p f) := by
  unfold State.bump
  repeat' first | with_reducible assumption | with_reducible apply State.wr_keeps

theorem record_keeps {a : State} {unit : Option Nat} {r : Rec} {s : State} (k : Keeps a s) : Keeps a (record unit r s).1 := by
  unfold record; dsimp only
  repeat' first
    | with_reducible assumption | split | with_reducible apply State.wr_keeps | with_reducible apply State.setRecorder_keeps
    | with_reducible apply State.bump_keeps

theorem raiseQuiet_keeps {a : State} {unit : Option Nat} {e : Ev} {s : State} (k : Keeps a s) : Keeps a (raiseQuiet unit e s)
    := by
  unfold raiseQuiet
  repeat' first | with_reducible assumption | split | with_reducible apply raiseBit_keeps | with_reducible apply record_keeps

theorem raiseFollow_keeps {a : State} {unit : Option Nat} {s : State} {e : Ev} (k : Keeps a s) : Keeps a (raiseFollow unit s e)
    := by
  unfold raiseFollow
  repeat' first
    | with_reducible assumption | split | with_reducible apply raiseBit_keeps | with_reducible apply record_keeps
    | with_reducible apply raiseQuiet_keeps | with_reducible apply Keeps.foldl | (intro _ _ _)

theorem State.setHState_keeps {a s : State} {h v : Nat} (k : Keeps a s) : Keeps a (State.setHState s h v) := by
  unfold State.setHState
  repeat' first | with_reducible assumption | with_reducible apply State.wr_keeps

theorem raiseFatalEntry_keeps {a : State} {h cause : Nat} {s : State} (k : Keeps a s) : Keeps a (raiseFatalEntry h cause s)
    := by
  unfold raiseFatalEntry
  repeat' first | with_reducible assumption | with_reducible apply raiseBit_keeps | with_reducible apply record_keeps

theorem noteJobs_keeps {a : State} {h : Nat} {s : State} (k : Keeps a s) : Keeps a (noteJobs h s) := by
  unfold noteJobs
  repeat' first | with_reducible assumption | with_reducible apply State.wr_keeps

theorem fillInner_keeps {a : State} {h : Nat} {s : State} (hs : Keeps a s) : Keeps a (fillInner h s) :=
  noteJobs_keeps (State.modH_keeps hs (fun x => KeepsH.foldl (x := x) (.same rfl rfl rfl) addInner_keepsH))

theorem failAllJobs_keeps {a : State} {h status : Nat} {s : State} (k : Keeps a s) : Keeps a (failAllJobs h status s) := by
  unfold failAllJobs
  repeat' first
    | with_reducible assumption | with_reducible apply fillInner_keeps | with_reducible apply State.modH_keeps
    | (intros; exact .same rfl rfl rfl)

theorem State.modGang_keeps {a s : State} {stack tag : Nat} {f : Gang → Gang} (k : Keeps a s) : Keeps a (State.modGang s stack
    tag f) := by
  unfold State.modGang
  repeat' first | with_reducible assumption | with_reducible apply State.modFlue_keeps

theorem raiseFlue_keeps {a : State} {e : Ev} {p : Page} {i : Info} {s : State} (k : Keeps a s) : Keeps a (raiseFlue e p i s)
    := by
  unfold raiseFlue
  repeat' first
    | with_reducible assumption | with_reducible apply raiseBit_keeps | with_reducible apply record_keeps
    | with_reducible apply raiseFollow_keeps | with_reducible apply State.setRecorder_keeps
    | with_reducible apply raiseQuiet_keeps | with_reducible apply State.bump_keeps | with_reducible apply Keeps.foldl
    | with_reducible apply Keeps.ite

theorem flagCtr_keeps {a : State} {f : Nat → Fld} {e : Ev} {i : Nat} {s : State} (k : Keeps a s) : Keeps a (flagCtr f e i s)
    := by
  unfold flagCtr
  repeat' first
    | with_reducible assumption | split | with_reducible apply raiseFlue_keeps | with_reducible apply State.orBit_keeps

theorem errFlueReg_keeps {a : State} {p : Page} {f : Fld} {i : Nat} {s : State} (k : Keeps a s) : Keeps a (errFlueReg p f i s)
    := by
  unfold errFlueReg
  repeat' first
    | with_reducible assumption | with_reducible apply State.bump_keeps | with_reducible apply flagCtr_keeps
    | with_reducible apply Keeps.ite

theorem gangAbort_keeps {a : State} {r : GangRef} {h : Nat} {s : State} (k : Keeps a s) : Keeps a (gangAbort r h s) := by
  unfold gangAbort
  repeat' first
    | with_reducible assumption | split | with_reducible apply State.modGang_keeps | with_reducible apply errFlueReg_keeps
    | with_reducible apply raiseFlue_keeps

theorem State.modQp_keeps {a s : State} {t : Queue} {f : Qp → Qp} (k : Keeps a s) : Keeps a (State.modQp s t f) := by
  unfold State.modQp
  repeat' first | with_reducible assumption | split | with_reducible apply State.modFlue_keeps

theorem raiseVector_keeps {a : State} {t : Queue} {s : State} (k : Keeps a s) : Keeps a (raiseVector t s) := by
  unfold raiseVector
  repeat' first | with_reducible assumption | with_reducible apply sendMsix_keeps | with_reducible apply State.modQp_keeps

theorem postCompletion_keeps {a : State} {t : Queue} {e : Entry} {suppress : Bool} {s : State} (k : Keeps a s) : Keeps a
    (postCompletion t e suppress s) := by
  unfold postCompletion
  repeat' first
    | with_reducible assumption | with_reducible apply State.emit_keeps | with_reducible apply State.modQp_keeps
    | with_reducible apply raiseVector_keeps | with_reducible apply Keeps.ite

theorem postAdmin_keeps {a : State} {q tag status : Nat} {group : Bool} {result out : Bytes} {dst : List SgEntry} {suppress :
    Bool} {s : State} (k : Keeps a s) : Keeps a (postAdmin q tag status group result out dst suppress s) := by
  unfold postAdmin
  repeat' first | with_reducible assumption | with_reducible apply postCompletion_keeps | with_reducible apply Keeps.outUpd

theorem State.qwr_keeps {a s : State} {t : Queue} {f : Nat → Fld} {v : Nat} (k : Keeps a s) : Keeps a (State.qwr s t f v) := by
  unfold State.qwr
  repeat' first | with_reducible assumption | with_reducible apply State.wr_keeps

theorem restQueue_keeps {a : State} {t : Queue} {s : State} (k : Keeps a s) : Keeps a (restQueue t s) := by
  unfold restQueue
  repeat' first | with_reducible assumption | split | with_reducible apply State.qwr_keeps

theorem closeAdmin_keeps {a : State} {key status : Nat} {group : Bool} {outcome : Bytes} {s : State} (k : Keeps a s) : Keeps a
    (closeAdmin key status group outcome s) := by
  unfold closeAdmin
  repeat' first
    | with_reducible assumption | split | with_reducible apply State.modFlue_keeps | with_reducible apply postAdmin_keeps
    | with_reducible apply restQueue_keeps

theorem gangMemberDone_keeps {a : State} {r : GangRef} {h : Nat} {s : State} (k : Keeps a s) : Keeps a (gangMemberDone r h s)
    := by
  unfold gangMemberDone
  repeat' first
    | with_reducible assumption | with_reducible apply State.modGang_keeps | with_reducible apply State.modFlue_keeps

theorem endGroups_keeps {a : State} {h : Nat} {status : Nat} {s : State}  (hs : Keeps a s) : Keeps a (endGroups h status s) := by
  unfold endGroups
  refine State.modH_keeps ?_ (fun x => ?_)
  · refine Keeps.foldl (Keeps.foldl (Keeps.foldl hs ?_) ?_) ?_
    · intro s x k; repeat' split
      · exact k
      · exact gangAbort_keeps k
      · exact k
    · intro s x k; exact Keeps.foldl (Keeps.foldl k (fun s x k => closeAdmin_keeps k)) (fun s x k => closeAdmin_keeps k)
    · intro s x k; split
      · exact gangMemberDone_keeps k
      · exact k
  · refine KeepsH.trans (KeepsH.foldl (.refl x) ?_) (.same rfl rfl rfl)
    intro y p; split
    · exact .refl _
    · exact KeepsH.foldl (.refl _) undoAction_keepsH

theorem State.setFt_keeps {a s : State} {v : Nat} {f : Nat → Fld} {x : Nat} (k : Keeps a s) : Keeps a (State.setFt s v f x)
    := by
  unfold State.setFt
  repeat' first | with_reducible assumption | with_reducible apply State.wr_keeps

theorem State.modVf_keeps {a s : State} {v : Nat} {f : Vf → Vf} (k : Keeps a s) : Keeps a (State.modVf s v f) := by
  unfold State.modVf
  repeat' first | with_reducible assumption | with_reducible apply State.modFlue_keeps

theorem State.setDamper_keeps {a s : State} {v x : Nat} (k : Keeps a s) : Keeps a (State.setDamper s v x) := by
  unfold State.setDamper
  repeat' first | with_reducible assumption | with_reducible apply State.setFt_keeps

theorem State.modGroup_keeps {a s : State} {h g : Nat} {f : Group → Group} (k : Keeps a s) : Keeps a (State.modGroup s h g f)
    := by
  unfold State.modGroup
  repeat' first | with_reducible assumption | with_reducible apply State.modH_keeps | (intros; exact .same rfl rfl rfl)

theorem startRollback_keeps {a : State} {h gid : Nat} {s : State} (k : Keeps a s) : Keeps a (startRollback h gid s) := by
  unfold startRollback
  repeat' first
    | with_reducible assumption | split | with_reducible apply State.modGroup_keeps | with_reducible apply gangAbort_keeps

theorem finishAdmin_keeps {a : State} {key status : Nat} {group : Bool} {s : State} (k : Keeps a s) : Keeps a (finishAdmin key
    status group s) := by
  unfold finishAdmin
  repeat' first | with_reducible assumption | with_reducible apply closeAdmin_keeps

theorem finishWaits_keeps {a : State} {v status : Nat} {s : State} (k : Keeps a s) : Keeps a (finishWaits v status s) := by
  unfold finishWaits
  repeat' first
    | with_reducible assumption | with_reducible apply finishAdmin_keeps | with_reducible apply Keeps.foldl | (intro _ _ _)

theorem enterDrained_keeps {a : State} {v : Nat} {s : State} (k : Keeps a s) : Keeps a (enterDrained v s) := by
  unfold enterDrained
  repeat' first
    | with_reducible assumption | with_reducible apply State.setDamper_keeps | with_reducible apply raiseFlue_keeps
    | with_reducible apply State.orBit_keeps | with_reducible apply finishWaits_keeps

theorem checkDrain_keeps {a : State} {v : Nat} {s : State} (k : Keeps a s) : Keeps a (checkDrain v s) := by
  unfold checkDrain
  repeat' first | with_reducible assumption | split | with_reducible apply enterDrained_keeps

theorem enterClosing_keeps {a : State} {v : Nat} {s : State} (k : Keeps a s) : Keeps a (enterClosing v s) := by
  unfold enterClosing
  repeat' first
    | with_reducible assumption | with_reducible apply State.setDamper_keeps | with_reducible apply startRollback_keeps
    | with_reducible apply checkDrain_keeps | with_reducible apply Keeps.foldl | (intro _ _ _)

theorem tdiError_keeps {a : State} {v : Nat} {s : State} (k : Keeps a s) : Keeps a (tdiError v s) := by
  unfold tdiError
  repeat' first
    | with_reducible assumption | with_reducible apply State.setFt_keeps | with_reducible apply State.modVf_keeps
    | with_reducible apply raiseFlue_keeps | with_reducible apply enterClosing_keeps | with_reducible apply Keeps.ite

theorem enterFatal_keeps {a : State} {h cause : Nat} {s : State} (k : Keeps a s) : Keeps a (enterFatal h cause s) := by
  unfold enterFatal
  repeat' first
    | with_reducible assumption | split | with_reducible apply State.setHState_keeps
    | with_reducible apply raiseFatalEntry_keeps | with_reducible apply State.modH_keeps
    | with_reducible apply failAllJobs_keeps | with_reducible apply endGroups_keeps | with_reducible apply State.modCore_keeps
    | with_reducible apply raiseFlue_keeps | with_reducible apply tdiError_keeps | with_reducible apply Keeps.foldl
    | (intros; exact .same rfl rfl rfl) | (intro _ _ _)

theorem raiseH_keeps {a : State} {h : Nat} {e : Ev} {p : Page} {i : Info} {s : State} (k : Keeps a s) : Keeps a (raiseH h e p i
    s) := by
  unfold raiseH
  repeat' first
    | with_reducible assumption | with_reducible apply raiseBit_keeps | with_reducible apply record_keeps
    | with_reducible apply raiseFollow_keeps | with_reducible apply enterFatal_keeps | with_reducible apply State.modH_keeps
    | with_reducible apply Keeps.foldl | with_reducible apply Keeps.ite | (intros; exact .same rfl rfl rfl)

theorem flagHCtr_keeps {a : State} {h : Nat} {f : Nat → Fld} {e : Ev} {i : Nat} {s : State} (k : Keeps a s) : Keeps a (flagHCtr
    h f e i s) := by
  unfold flagHCtr
  repeat' first | with_reducible assumption | split | with_reducible apply raiseH_keeps | with_reducible apply State.orBit_keeps

theorem addCtr_keeps {a : State} {h i y2 : Nat} {s : State} (k : Keeps a s) : Keeps a (addCtr h i y2 s) := by
  unfold addCtr
  repeat' first
    | with_reducible assumption | with_reducible apply State.modH_keeps | with_reducible apply flagHCtr_keeps
    | with_reducible apply Keeps.ite | (intros; exact .same rfl rfl rfl)

theorem feedPulse_keeps {a : State} {h b y2 : Nat} {s : State} (k : Keeps a s) : Keeps a (feedPulse h b y2 s) := by
  unfold feedPulse
  repeat' first
    | with_reducible assumption | split | with_reducible apply addCtr_keeps | with_reducible apply State.modH_keeps
    | (intros; exact .same rfl rfl rfl)

theorem capture_keeps {a : State} {p : Page} {who : Requester} {off data ident : Nat} {read : Bool} {cause : Nat} {s : State} (k
    : Keeps a s) : Keeps a (capture p who off data ident read cause s) := by
  unfold capture
  repeat' first
    | with_reducible assumption | split | with_reducible apply State.bump_keeps | with_reducible apply State.wr_keeps

theorem refuse_keeps {a : State} {p : Page} {who : Requester} {off data cause : Nat} {s : State} (k : Keeps a s) : Keeps a
    (refuse p who off data cause s) := by
  unfold refuse
  repeat' first | with_reducible assumption | with_reducible apply capture_keeps

theorem dropEnables_keeps {a : State} {h mask : Nat} {s : State} (k : Keeps a s) : Keeps a (dropEnables h mask s) := by
  unfold dropEnables
  repeat' first
    | with_reducible assumption | with_reducible apply State.modH_keeps | with_reducible apply raiseFlue_keeps
    | with_reducible apply Keeps.ite | (intros; exact .same rfl rfl rfl)

theorem dropAllEnables_keeps {a s : State} (k : Keeps a s) : Keeps a (dropAllEnables s) := by
  unfold dropAllEnables
  repeat' first
    | with_reducible assumption | with_reducible apply dropEnables_keeps | with_reducible apply Keeps.foldl | (intro _ _ _)

theorem takeLock_keeps {a : State} {h u holder ident : Nat} {s : State} (k : Keeps a s) : Keeps a (takeLock h u holder ident s)
    := by
  unfold takeLock
  repeat' first | with_reducible assumption | with_reducible apply State.modEng_keeps

theorem handOver_keeps {a : State} {h u : Nat} {s : State} (k : Keeps a s) : Keeps a (handOver h u s) := by
  unfold handOver
  repeat' first
    | with_reducible assumption | with_reducible apply takeLock_keeps | with_reducible apply State.modEng_keeps
    | with_reducible apply Keeps.ite

theorem releaseLock_keeps {a : State} {h u : Nat} {s : State} (k : Keeps a s) : Keeps a (releaseLock h u s) := by
  unfold releaseLock
  repeat' first | with_reducible assumption | with_reducible apply handOver_keeps | with_reducible apply State.modEng_keeps

theorem clearLines_keeps {a : State} {h n lo y3 : Nat} {s : State} (k : Keeps a s) : Keeps a (clearLines h n lo y3 s) := by
  unfold clearLines
  repeat' first
    | with_reducible assumption | with_reducible apply State.modH_keeps | with_reducible apply State.modEng_keeps
    | with_reducible apply Keeps.ite | (intros; exact .same rfl rfl rfl)

theorem clearLeft_keeps {a : State} {h n v : Nat} {s : State} (k : Keeps a s) : Keeps a (clearLeft h n v s) := by
  unfold clearLeft
  repeat' first
    | with_reducible assumption | with_reducible apply clearLines_keeps | with_reducible apply Keeps.foldl | (intro _ _ _)

theorem endJob_keeps {a : State} {h j status : Nat} {s : State} (k : Keeps a s) : Keeps a (endJob h j status s) := by
  unfold endJob
  repeat' first
    | with_reducible assumption | split | with_reducible apply State.modJob_keeps | with_reducible apply State.modH_keeps
    | with_reducible apply State.modGroup_keeps | exact undoAction_keepsH _ _ | with_reducible apply Keeps.ite | (intro _)

theorem finishJob_keeps {a : State} {h j status : Nat} {s : State} (k : Keeps a s) : Keeps a (finishJob h j status s) := by
  unfold finishJob
  repeat' first | with_reducible assumption | with_reducible apply fillInner_keeps | with_reducible apply endJob_keeps

theorem failJob_keeps {a : State} {h j status : Nat} {s : State} (k : Keeps a s) : Keeps a (failJob h j status s) := by
  unfold failJob
  repeat' first | with_reducible assumption | with_reducible apply finishJob_keeps

theorem freeEntry_keeps {a : State} {h idx : Nat} {s : State} (k : Keeps a s) : Keeps a (freeEntry h idx s) := by
  unfold freeEntry
  repeat' first
    | with_reducible assumption | with_reducible apply State.modH_keeps | with_reducible apply failJob_keeps
    | with_reducible apply Keeps.foldl | (intros; exact .same rfl rfl rfl) | (intro _ _ _)

theorem removeJob_keeps {a : State} {h j : Nat} {s : State} (k : Keeps a s) : Keeps a (removeJob h j s) := by
  unfold removeJob
  repeat' first
    | with_reducible assumption | split | with_reducible apply State.modH_keeps | with_reducible apply fillInner_keeps
    | with_reducible apply State.modQp_keeps | with_reducible apply restQueue_keeps | (intros; exact .same rfl rfl rfl)

theorem movePin_keeps {a : State} {name : String} {was now : Bool} {s : State} (k : Keeps a s) : Keeps a (movePin name was now
    s) := by
  unfold movePin
  repeat' first | with_reducible assumption | split | with_reducible apply State.emit_keeps

theorem refreshPins_keeps {a s : State} (k : Keeps a s) : Keeps a (refreshPins s) := by
  unfold refreshPins
  repeat' first
    | with_reducible assumption | with_reducible apply State.modChim_keeps | with_reducible apply movePin_keeps
    | exact .same rfl rfl rfl

theorem drbgReseed_keeps {a : State} {h : Nat} {s : State} (k : Keeps a s) : Keeps a (drbgReseed h s) := by
  unfold drbgReseed
  repeat' first
    | with_reducible assumption | with_reducible apply State.modH_keeps | with_reducible apply State.wr_keeps
    | (intros; exact .same rfl rfl rfl)

theorem drbgRequest_keeps {a : State} {h n : Nat} {pr : Bool} {s : State} (hs : Keeps a s) : ∀ z, drbgRequest h n pr s = some z → Keeps a z.2 := by
  intro z e; unfold drbgRequest at e; dsimp only at e
  split at e
  · cases e
  · split at e
    · cases e
    · rw [← Option.some.inj e]; dsimp only
      with_reducible apply addCtr_keeps
      with_reducible apply addCtr_keeps
      exact State.modH_keeps (Keeps.ite (drbgReseed_keeps hs) hs) (fun _ => .same rfl rfl rfl)

theorem drbgLower_keeps {a : State} {h n : Nat} {pr : Bool} {s : State} (hs : Keeps a s) : ∀ z, drbgLower h n pr s = some z → Keeps a z.2 := by
  intro z e; unfold drbgLower at e; split at e
  · cases e
  · exact drbgRequest_keeps hs _ e

theorem putLine_keeps {a : State} {h n line : Nat} {l : OpLine} {s : State} (k : Keeps a s) : Keeps a (putLine h n line l s)
    := by
  unfold putLine
  repeat' first | with_reducible assumption | with_reducible apply State.modH_keeps | (intros; exact .same rfl rfl rfl)

theorem workLines_keeps {a : State} {h n line lo hi : Nat} {masked keyed : Bool} {k : Nat} {s : State} (hs : Keeps a s) :
    Keeps a (workLines h n line lo hi masked keyed k s) := by
  induction k generalizing line s with
  | zero => exact hs
  | succ k ih => exact ih (Keeps.ite (putLine_keeps (State.free_keeps hs)) (State.free_keeps hs))

theorem putLines_keeps {a : State} {h n line : Nat} {d : Bytes} {s : State} (k : Keeps a s) : Keeps a (putLines h n line d s)
    := by
  unfold putLines
  repeat' first
    | with_reducible assumption | split | with_reducible apply putLine_keeps | with_reducible apply Keeps.foldl | (intro _ _ _)

theorem insertKey_keeps {a : State} {h : Nat} {x : KeyEntry} {mat : Bytes} {s : State} (hs : Keeps a s) : ∀ z, insertKey h x mat s = some z → Keeps a z.2 := by
  intro z e; unfold insertKey at e; dsimp only at e
  repeat' split at e
  all_goals first | (cases e; done) | skip
  all_goals
    rw [← Option.some.inj e]; dsimp only
    exact State.modH_keeps (State.free_keeps hs) (fun _ => .same rfl rfl rfl)

theorem errCtr_keeps {a : State} {h i : Nat} {s : State} (k : Keeps a s) : Keeps a (errCtr h i s) := by
  unfold errCtr
  repeat' first
    | with_reducible assumption | with_reducible apply State.modH_keeps | with_reducible apply flagHCtr_keeps
    | with_reducible apply Keeps.ite | (intros; exact .same rfl rfl rfl)

theorem raiseMem_keeps {a : State} {h : Nat} {e : Ev} {p : Page} {inst : Nat} {s : State} (k : Keeps a s) : Keeps a (raiseMem h
    e p inst s) := by
  unfold raiseMem
  repeat' first | with_reducible assumption | with_reducible apply raiseH_keeps

theorem violate_keeps {a : State} {h : Nat} {q : Req} {addr cause : Nat} {s : State} (k : Keeps a s) : Keeps a (violate h q addr
    cause s) := by
  unfold violate
  repeat' first
    | with_reducible assumption | with_reducible apply errCtr_keeps | with_reducible apply State.bump_keeps
    | with_reducible apply State.wr_keeps | with_reducible apply raiseMem_keeps | with_reducible apply Keeps.ite

theorem stokerTake_keeps {a : State} {acc : Bytes} {r : State × Answer} (k : Keeps a r.1) : Keeps a (stokerTake acc r).1 := by
  obtain ⟨t, b⟩ := r
  cases b <;> exact k

theorem errReg_keeps {a : State} {h : Nat} {p : Page} {f : Fld} {i : Nat} {s : State} (k : Keeps a s) : Keeps a (errReg h p f i
    s) := by
  unfold errReg
  repeat' first
    | with_reducible assumption | with_reducible apply State.bump_keeps | with_reducible apply flagHCtr_keeps
    | with_reducible apply Keeps.ite

theorem ceCount_keeps {a : State} {h : Nat} {s : State} (k : Keeps a s) : Keeps a (ceCount h s) := by
  unfold ceCount
  repeat' first | with_reducible assumption | with_reducible apply errReg_keeps

theorem poisonLines_keeps {a : State} {h : Nat} {ls : List Nat} {s : State} (k : Keeps a s) : Keeps a (poisonLines h ls s) := by
  unfold poisonLines
  repeat' first
    | with_reducible assumption | split | with_reducible apply State.modMem_keeps | with_reducible apply State.wr_keeps
    | (intro m e; exact e) | with_reducible apply Keeps.ite

theorem ueCount_keeps {a : State} {h : Nat} {s : State} (k : Keeps a s) : Keeps a (ueCount h s) := by
  unfold ueCount
  repeat' first | with_reducible assumption | with_reducible apply errReg_keeps

theorem breakRange_keeps {a : State} {h r cause : Nat} {running : Bool} {s : State} (k : Keeps a s) : Keeps a (breakRange h r
    cause running s) := by
  unfold breakRange
  repeat' first
    | with_reducible assumption | split | with_reducible apply State.wr_keeps | with_reducible apply raiseMem_keeps
    | with_reducible apply enterFatal_keeps

theorem lineFinding_keeps {a : State} {h off : Nat} {c : LineCheck} {s : State} (k : Keeps a s) : Keeps a (lineFinding h off c
    s) := by
  unfold lineFinding
  repeat' first
    | with_reducible assumption | split | with_reducible apply ceCount_keeps | with_reducible apply raiseMem_keeps
    | with_reducible apply poisonLines_keeps | with_reducible apply ueCount_keeps | with_reducible apply breakRange_keeps
    | with_reducible apply Keeps.ite

theorem ddrCheck_keeps {a : State} {h : Nat} {q : Req} {off : Nat} {c : LineCheck} {s : State} (k : Keeps a s) : Keeps a
    (ddrCheck h q off c s).1 := by
  unfold ddrCheck; dsimp only
  repeat' first
    | with_reducible assumption | split | with_reducible apply violate_keeps | with_reducible apply lineFinding_keeps

theorem cacheNode_keeps {a : State} {h l : Nat} {s : State} (k : Keeps a s) : Keeps a (cacheNode h l s) := by
  unfold cacheNode
  repeat' first
    | with_reducible assumption | with_reducible apply State.modMem_keeps | with_reducible apply State.free_keeps
    | (intro m e; exact e) | with_reducible apply Keeps.snd (by assumption) | with_reducible apply Keeps.ite

theorem readNodes_keeps {a : State} {h off : Nat} {s : State} (k : Keeps a s) : Keeps a (readNodes h off s) := by
  unfold readNodes
  repeat' first
    | with_reducible assumption | split | with_reducible apply cacheNode_keeps | with_reducible apply addCtr_keeps
    | with_reducible apply Keeps.foldl | with_reducible apply Keeps.ite | (intro _ _ _)

theorem queueReenc_keeps {a : State} {h r page : Nat} {s : State} (k : Keeps a s) : Keeps a (queueReenc h r page s) := by
  unfold queueReenc
  repeat' first
    | with_reducible assumption | with_reducible apply addCtr_keeps | with_reducible apply State.modMem_keeps
    | with_reducible apply State.wr_keeps | (intros; with_reducible assumption)

theorem countWrite_keeps {a : State} {h off : Nat} {s : State} (k : Keeps a s) : Keeps a (countWrite h off s).1 := by
  unfold countWrite; dsimp only
  repeat' first
    | with_reducible assumption | split | with_reducible apply State.modMem_keeps | with_reducible apply breakRange_keeps
    | with_reducible apply queueReenc_keeps | (intros; with_reducible assumption)

theorem clearPoison_keeps {a : State} {h off : Nat} {s : State} (k : Keeps a s) : Keeps a (clearPoison h off s) := by
  unfold clearPoison
  repeat' first | with_reducible assumption | with_reducible apply State.modMem_keeps | (intros; with_reducible assumption)

theorem lineWrite_keeps {a : State} {h off : Nat} {d : Bytes} {s : State} (k : Keeps a s) : Keeps a (lineWrite h off d s).1
    := by
  unfold lineWrite
  repeat' first
    | with_reducible assumption | split | with_reducible apply countWrite_keeps | with_reducible apply clearPoison_keeps
    | with_reducible apply addCtr_keeps | with_reducible apply State.modMem_keeps | (intro m e; exact memPut_wf _ _ _ e)
    | with_reducible apply Keeps.fst (by assumption) | done

theorem ddrData_keeps {a : State} {h : Nat} {q : Req} {off n : Nat} {d : Bytes} {c : LineCheck} {s : State} (k : Keeps a s) :
    Keeps a (ddrData h q off n d c s).1 := by
  unfold ddrData; dsimp only
  repeat' first
    | with_reducible assumption | split | with_reducible apply readNodes_keeps | with_reducible apply lineFinding_keeps
    | with_reducible apply addCtr_keeps | with_reducible apply violate_keeps | with_reducible apply lineWrite_keeps

theorem ddrAccess_keeps {a : State} {h : Nat} {q : Req} {off n : Nat} {d : Bytes} {c : LineCheck} {s : State} (hs : Keeps a s) : Keeps a (ddrAccess h q off n d c s).1 := by
  unfold ddrAccess
  have k := ddrCheck_keeps (h := h) (q := q) (off := off) (c := c) hs
  generalize ddrCheck h q off c s = p at *
  obtain ⟨t, x⟩ := p
  cases x
  · exact ddrData_keeps k
  · exact k

theorem stokerLine_keeps {a : State} {h : Nat} {q : Req} {wr : Option Bytes} {off : Nat} {p : State × Except Nat Bytes} {x : Nat × Nat} (k : Keeps a p.1) :
    Keeps a (stokerLine h q wr off p x).1 := by
  unfold stokerLine
  rcases p.2 with e | acc
  · exact k
  · exact stokerTake_keeps (ddrAccess_keeps k)

theorem stokerDma_keeps {a : State} {h v off n : Nat} {wr : Option Bytes} {s : State} (hs : Keeps a s) : Keeps a (stokerDma h v off n wr s).1 := by
  unfold stokerDma
  exact Keeps.iteP (violate_keeps hs) (Keeps.foldlP hs (fun _ _ k => stokerLine_keeps k))

theorem qpError_keeps {a : State} {t : Queue} {code : Nat} {s : State} (k : Keeps a s) : Keeps a (qpError t code s) := by
  unfold qpError
  repeat' first | with_reducible assumption | with_reducible apply State.qwr_keeps

theorem failAction_keeps {a : State} {h g vf status : Nat} {s : State} (k : Keeps a s) : Keeps a (failAction h g vf status s)
    := by
  unfold failAction
  repeat' first | with_reducible assumption | split | with_reducible apply State.modGroup_keeps

theorem joinGroup_keeps {a : State} {h g : Nat} {r : ActionRef} {vf : Option Nat} {extra : Nat} {slot : Bool} {s : State} (k :
    Keeps a s) : Keeps a (joinGroup h g r vf extra slot s).1 := by
  unfold joinGroup; dsimp only
  repeat' first | with_reducible assumption | split | with_reducible apply State.modGroup_keeps

theorem joinJob_keeps {a : State} {h j : Nat} {jb : Job} {s : State} (k : Keeps a s) : Keeps a (joinJob h j jb s).1 := by
  unfold joinJob; dsimp only
  repeat' first
    | with_reducible assumption | split | with_reducible apply joinGroup_keeps | with_reducible apply State.modJob_keeps
    | with_reducible apply State.modGroup_keeps | with_reducible apply Keeps.fst (by assumption) | done

theorem gateBurners_keeps {a : State} {h : Nat} {s : State} (k : Keeps a s) : Keeps a (gateBurners h s) := by
  unfold gateBurners
  repeat' first
    | with_reducible assumption | with_reducible apply State.modEng_keeps | with_reducible apply Keeps.foldl | (intro _ _ _)

theorem closeBatch_keeps {a : State} {h : Nat} {s : State} (k : Keeps a s) : Keeps a (closeBatch h s) := by
  unfold closeBatch
  repeat' first
    | with_reducible assumption | split | with_reducible apply gateBurners_keeps | with_reducible apply State.modH_keeps
    | (intros; exact .same rfl rfl rfl)

theorem toReady_keeps {a : State} {h j : Nat} {f : Job → Job} {s : State} (k : Keeps a s) : Keeps a (toReady h j f s) := by
  unfold toReady
  repeat' first | with_reducible assumption | with_reducible apply State.modJob_keeps | with_reducible apply closeBatch_keeps

theorem admitJob_keeps {a : State} {h j : Nat} {stop : Option Nat} {lists : Bool} {s : State} (k : Keeps a s) : Keeps a
    (admitJob h j stop lists s) := by
  unfold admitJob; dsimp only
  repeat' first
    | with_reducible assumption | split | with_reducible apply failJob_keeps | with_reducible apply failAction_keeps
    | with_reducible apply joinJob_keeps | with_reducible apply toReady_keeps | with_reducible apply State.modJob_keeps
    | with_reducible apply Keeps.fst (by assumption) | done

theorem fetchInto_keeps {a : State} {h v q : Nat} {stop : Option Nat} {desc sglIn sglOut head : Bytes} {s : State} (k : Keeps a
    s) : Keeps a (fetchInto h v q stop desc sglIn sglOut head s) := by
  unfold fetchInto
  repeat' first
    | with_reducible assumption | split | with_reducible apply addCtr_keeps | with_reducible apply State.modH_keeps
    | with_reducible apply State.modQp_keeps | with_reducible apply State.qwr_keeps | with_reducible apply noteJobs_keeps
    | with_reducible apply fillInner_keeps | with_reducible apply admitJob_keeps | (intros; exact .same rfl rfl rfl)

theorem lateFetch_keeps {a : State} {v q : Nat} {rd : FetchRead} {s : State} (k : Keeps a s) : Keeps a (lateFetch v q rd s)
    := by
  unfold lateFetch
  repeat' first
    | with_reducible assumption | split | with_reducible apply State.modQp_keeps | with_reducible apply checkDrain_keeps
    | with_reducible apply restQueue_keeps | with_reducible apply qpError_keeps | with_reducible apply fetchInto_keeps
    | with_reducible apply Keeps.ite

theorem takeToken_keeps {a : State} {v : Nat} {s : State} (k : Keeps a s) : Keeps a (takeToken v s) := by
  unfold takeToken
  repeat' first | with_reducible assumption | split | with_reducible apply State.modVf_keeps

theorem doFetch_keeps {a : State} {v q : Nat} {issued : Bool} {rd : FetchRead} {s : State} (k : Keeps a s) : Keeps a (doFetch v
    q issued rd s) := by
  unfold doFetch
  repeat' first
    | with_reducible assumption | split | with_reducible apply lateFetch_keeps | with_reducible apply takeToken_keeps
    | with_reducible apply State.modQp_keeps | with_reducible apply qpError_keeps | with_reducible apply fetchInto_keeps

theorem execDescriptorFetch_keeps {a : State} {v : Fin 512} {q : Fin 8} {issued : Bool} {rd : FetchRead} {s : State} (k : Keeps
    a s) : ∀ z, execDescriptorFetch v q issued rd s = .next z → Keeps a z := by
  intro z e; unfold execDescriptorFetch at e
  repeat' split at e
  all_goals first | (cases e; done) | skip
  all_goals
    (try simp only [Host.Outcome.next.injEq] at e); subst e
    repeat' first | with_reducible assumption | split | with_reducible apply doFetch_keeps

theorem derived_keeps {a : State} {h y1 : Nat} {s : State} (k : Keeps a s) : Keeps a (derived h y1 s) := by
  unfold derived
  repeat' first | with_reducible assumption | with_reducible apply addCtr_keeps

theorem doBnClear_keeps {a : State} {h n : Nat} {who : Requester} {s : State} (k : Keeps a s) : Keeps a (doBnClear h n who s)
    := by
  unfold doBnClear; dsimp only
  repeat' first
    | with_reducible assumption | split | with_reducible apply refuse_keeps | with_reducible apply clearLines_keeps
    | with_reducible apply State.modEng_keeps | with_reducible apply Keeps.foldl | (intro _ _ _)

theorem requestKat_keeps {a : State} {h u : Nat} {back : Bool} {s : State} (k : Keeps a s) : Keeps a (requestKat h u back s)
    := by
  unfold requestKat
  repeat' first | with_reducible assumption | with_reducible apply State.modEng_keeps | with_reducible apply Keeps.ite

theorem fabric_keeps {a : State} {h : Nat} {q : Req} {y2 n : Nat} {d : Bytes} {c : LineCheck} {pages : Bytes} {s : State} (k :
    Keeps a s) : Keeps a (fabric h q y2 n d c pages s).1 := by
  unfold fabric
  repeat' first
    | with_reducible assumption | split | with_reducible apply violate_keeps | with_reducible apply ddrAccess_keeps
    | with_reducible apply State.modH_keeps | (refine ⟨id, fun e => memPut_wf _ _ _ e, id⟩)
    | (refine ⟨id, id, fun e => memPut_wf _ _ _ e⟩) | (intro _)

theorem fabricSpan_keeps {a : State} {h : Nat} {q : Req} {y2 n : Nat} {d : Bytes} {c : LineCheck} {pages : Bytes} {s : State} (k
    : Keeps a s) : Keeps a (fabricSpan h q y2 n d c pages s).1 := by
  unfold fabricSpan
  repeat' first
    | with_reducible assumption | split | with_reducible apply fabric_keeps | with_reducible apply Keeps.foldlP
    | with_reducible apply Keeps.fst (by assumption) | (intro _ _ _)

theorem engineDma_keeps {a : State} {h u y2 n : Nat} {wr : Option Bytes} {s : State} (k : Keeps a s) : Keeps a (engineDma h u y2
    n wr s).1 := by
  unfold engineDma; dsimp only
  repeat' first
    | with_reducible assumption | split | with_reducible apply fabricSpan_keeps
    | with_reducible apply Keeps.fst (by assumption) | done

theorem readZero_keeps {a : State} {acc : DoorAccess} {s : State} (k : Keeps a s) : Keeps a (readZero acc s) := by
  unfold readZero
  repeat' first | with_reducible assumption | split | with_reducible apply State.emit_keeps

theorem errFlue_keeps {a : State} {i : Nat} {s : State} (k : Keeps a s) : Keeps a (errFlue i s) := by
  unfold errFlue
  repeat' first
    | with_reducible assumption | with_reducible apply State.modFlue_keeps | with_reducible apply flagCtr_keeps
    | with_reducible apply Keeps.ite

theorem unboundAccess_keeps {a : State} {v : Nat} {s : State} (k : Keeps a s) : Keeps a (unboundAccess v s) := by
  unfold unboundAccess
  repeat' first
    | with_reducible assumption | with_reducible apply State.modFlue_keeps | with_reducible apply raiseFlue_keeps
    | with_reducible apply errFlue_keeps

theorem doorbell_keeps {a : State} {t : Queue} {acc : DoorAccess} {last : Nat} {f : Nat → State → State} {s : State} (hf : ∀ x0
    x1, Keeps a x1 → Keeps a (f x0 x1)) (k : Keeps a s) : Keeps a (doorbell t acc last f s) := by
  unfold doorbell
  repeat' first
    | with_reducible assumption | split | with_reducible apply readZero_keeps | with_reducible apply unboundAccess_keeps
    | with_reducible apply State.emit_keeps | with_reducible apply errFlue_keeps | with_reducible apply State.qwr_keeps
    | with_reducible apply hf

theorem autoWake_keeps {a : State} {h : Nat} {s : State} (k : Keeps a s) : Keeps a (autoWake h s) := by
  unfold autoWake
  repeat' first
    | with_reducible assumption | split | with_reducible apply State.modH_keeps | with_reducible apply State.wr_keeps
    | (intros; exact .same rfl rfl rfl)

theorem addFlue_keeps {a : State} {i y1 : Nat} {s : State} (k : Keeps a s) : Keeps a (addFlue i y1 s) := by
  unfold addFlue
  repeat' first
    | with_reducible assumption | with_reducible apply State.modFlue_keeps | with_reducible apply flagCtr_keeps
    | with_reducible apply Keeps.ite

theorem sendPulse_keeps {a : State} {h b : Nat} {s : State} (k : Keeps a s) : Keeps a (sendPulse h b s) := by
  unfold sendPulse
  repeat' first
    | with_reducible assumption | split | with_reducible apply feedPulse_keeps | with_reducible apply State.modH_keeps
    | (intros; exact .same rfl rfl rfl)

theorem acceptTail_keeps {a : State} {t : Queue} {n : Nat} {s : State} (k : Keeps a s) : Keeps a (acceptTail t n s) := by
  unfold acceptTail; dsimp only
  repeat' first
    | with_reducible assumption | split | with_reducible apply qpError_keeps | with_reducible apply State.modQp_keeps
    | with_reducible apply autoWake_keeps | with_reducible apply addFlue_keeps | with_reducible apply sendPulse_keeps

theorem doSqTail_keeps {a : State} {t : Queue} {acc : DoorAccess} {s : State} (k : Keeps a s) : Keeps a (doSqTail t acc s) := by
  unfold doSqTail
  repeat' first | with_reducible assumption | with_reducible apply doorbell_keeps | with_reducible apply acceptTail_keeps

theorem reservedDoor_keeps {a : State} {fn : Option (Fin 512)} {acc : DoorAccess} {s : State} (k : Keeps a s) : Keeps a
    (reservedDoor fn acc s) := by
  unfold reservedDoor
  repeat' first | with_reducible assumption | with_reducible apply readZero_keeps | with_reducible apply Keeps.ite

theorem execSqTailDoorbell_keeps {a : State} {fn : Option (Fin 512)} {off : BitVec 12} {acc : DoorAccess} {s : State} (k : Keeps
    a s) : ∀ z, execSqTailDoorbell fn off acc s = .next z → Keeps a z := by
  intro z e; cases e
  repeat' first
    | with_reducible assumption | split | with_reducible apply doSqTail_keeps | with_reducible apply reservedDoor_keeps

theorem acceptHead_keeps {a : State} {t : Queue} {n : Nat} {s : State} (k : Keeps a s) : Keeps a (acceptHead t n s) := by
  unfold acceptHead
  repeat' first
    | with_reducible assumption | with_reducible apply qpError_keeps | with_reducible apply State.modQp_keeps
    | with_reducible apply Keeps.ite

theorem doCqHead_keeps {a : State} {t : Queue} {acc : DoorAccess} {s : State} (k : Keeps a s) : Keeps a (doCqHead t acc s) := by
  unfold doCqHead
  repeat' first | with_reducible assumption | with_reducible apply doorbell_keeps | with_reducible apply acceptHead_keeps

theorem execCqHeadDoorbell_keeps {a : State} {fn : Option (Fin 512)} {off : BitVec 12} {acc : DoorAccess} {s : State} (k : Keeps
    a s) : ∀ z, execCqHeadDoorbell fn off acc s = .next z → Keeps a z := by
  intro z e; cases e
  repeat' first
    | with_reducible assumption | split | with_reducible apply doCqHead_keeps | with_reducible apply reservedDoor_keeps

theorem execUnboundVfAccess_keeps {a : State} {v : VfAccess} {s : State} (k : Keeps a s) : ∀ z, execUnboundVfAccess v s = .next
    z → Keeps a z := by
  intro z e; cases e
  repeat' first
    | with_reducible assumption | split | with_reducible apply unboundAccess_keeps | with_reducible apply State.emit_keeps

theorem onQueue_keeps {a : State} {t : Queue} {f : State → State} {s : State} (hf : ∀ x0, Keeps a x0 → Keeps a (f x0)) (k :
    Keeps a s) : Keeps a (onQueue t f s) := by
  unfold onQueue
  repeat' first | with_reducible assumption | split | with_reducible apply unboundAccess_keeps | with_reducible apply hf

theorem enableQp_keeps {a : State} {t : Queue} {s : State} (k : Keeps a s) : Keeps a (enableQp t s) := by
  unfold enableQp; dsimp only
  repeat' first
    | with_reducible assumption | split | with_reducible apply State.qwr_keeps | with_reducible apply State.modQp_keeps
    | with_reducible apply State.modH_keeps | with_reducible apply qpError_keeps | (intros; exact .same rfl rfl rfl)

theorem execQpEnable_keeps {a : State} {t : Queue} {s : State} (k : Keeps a s) : ∀ z, execQpEnable t s = .next z → Keeps a z
    := by
  intro z e; cases e
  repeat' first | with_reducible assumption | with_reducible apply onQueue_keeps | with_reducible apply enableQp_keeps

theorem disableQp_keeps {a : State} {t : Queue} {s : State} (k : Keeps a s) : Keeps a (disableQp t s) := by
  unfold disableQp
  repeat' first | with_reducible assumption | with_reducible apply restQueue_keeps | with_reducible apply State.qwr_keeps

theorem execQpDisable_keeps {a : State} {t : Queue} {s : State} (k : Keeps a s) : ∀ z, execQpDisable t s = .next z → Keeps a z
    := by
  intro z e; cases e
  repeat' first | with_reducible assumption | with_reducible apply onQueue_keeps | with_reducible apply disableQp_keeps

theorem coalTimeout_keeps {a : State} {t : Queue} {s : State} (k : Keeps a s) : Keeps a (coalTimeout t s) := by
  unfold coalTimeout
  repeat' first | with_reducible assumption | split | with_reducible apply raiseVector_keeps

theorem execQpCoalTimeout_keeps {a : State} {fn : Option (Fin 512)} {q : Fin 8} {s : State} (k : Keeps a s) : ∀ z,
    execQpCoalTimeout fn q s = .next z → Keeps a z := by
  intro z e; cases e
  repeat' first | with_reducible assumption | split | with_reducible apply coalTimeout_keeps

theorem clearIvTag_keeps {a : State} {h u : Nat} {s : State} (k : Keeps a s) : Keeps a (clearIvTag h u s) := by
  unfold clearIvTag
  repeat' first
    | with_reducible assumption | split | with_reducible apply State.wr_keeps | with_reducible apply Keeps.foldl
    | (intro _ _ _)

theorem scrubDone_keeps {a : State} {h u : Nat} {s : State} (k : Keeps a s) : Keeps a (scrubDone h u s) := by
  unfold scrubDone
  repeat' first
    | with_reducible assumption | split | with_reducible apply State.modEng_keeps | with_reducible apply clearIvTag_keeps

theorem execLockScrubDone_keeps {a : State} {h : Fin 16} {u : Fin 20} {s : State} (k : Keeps a s) : ∀ z, execLockScrubDone h u s
    = .next z → Keeps a z := by
  intro z e; cases e
  repeat' first | with_reducible assumption | with_reducible apply scrubDone_keeps

theorem clearDone_keeps {a : State} {h n : Nat} {s : State} (k : Keeps a s) : Keeps a (clearDone h n s) := by
  unfold clearDone
  repeat' first
    | with_reducible assumption | with_reducible apply clearLines_keeps | with_reducible apply State.modEng_keeps
    | with_reducible apply Keeps.ite

theorem execOperandClearDone_keeps {a : State} {h : Fin 16} {n : Fin 4} {s : State} (k : Keeps a s) : ∀ z, execOperandClearDone
    h n s = .next z → Keeps a z := by
  intro z e; cases e
  repeat' first | with_reducible assumption | with_reducible apply clearDone_keeps

theorem deliverCrossing_keeps {a : State} {h b : Nat} {c : Crossing} {s : State} (k : Keeps a s) : Keeps a (deliverCrossing h b
    c s) := by
  unfold deliverCrossing
  repeat' first
    | with_reducible assumption | split | with_reducible apply feedPulse_keeps | with_reducible apply errCtr_keeps
    | with_reducible apply State.orBit_keeps

theorem deliverPulses_keeps {a : State} {h : Nat} {s : State} (k : Keeps a s) : Keeps a (deliverPulses h s) := by
  unfold deliverPulses
  repeat' first
    | with_reducible assumption | split | with_reducible apply deliverCrossing_keeps | with_reducible apply State.modH_keeps
    | with_reducible apply Keeps.foldl | (intros; exact .same rfl rfl rfl) | (intro _ _ _)

theorem wakeHearth_keeps {a : State} {h : Nat} {s : State} (k : Keeps a s) : Keeps a (wakeHearth h s) := by
  unfold wakeHearth
  repeat' first
    | with_reducible assumption | split | with_reducible apply State.modH_keeps | with_reducible apply deliverPulses_keeps
    | (intros; exact .same rfl rfl rfl)

theorem onHearth_keeps {a : State} {h : Nat} {f : State → State} {s : State} (hf : ∀ x0, Keeps a x0 → Keeps a (f x0)) (k : Keeps
    a s) : Keeps a (onHearth h f s) := by
  unfold onHearth
  repeat' first | with_reducible assumption | split | with_reducible apply wakeHearth_keeps | with_reducible apply hf

theorem writeLock_keeps {a : State} {h u : Nat} {who : Requester} {data : Nat} {s : State} (k : Keeps a s) : Keeps a (writeLock
    h u who data s) := by
  unfold writeLock
  repeat' first
    | with_reducible assumption | with_reducible apply capture_keeps | with_reducible apply State.modEng_keeps
    | with_reducible apply releaseLock_keeps | with_reducible apply takeLock_keeps | with_reducible apply Keeps.ite

theorem execPageLockWrite_keeps {a : State} {h u : Fin 16} {who : Requester} {data : Word} {s : State} (k : Keeps a s) : ∀ z,
    execPageLockWrite h u who data s = .next z → Keeps a z := by
  intro z e; cases e
  repeat' first | with_reducible assumption | with_reducible apply onHearth_keeps | with_reducible apply writeLock_keeps

theorem execBnClear_keeps {a : State} {h : Fin 16} {n : Fin 4} {who : Requester} {s : State} (k : Keeps a s) : ∀ z, execBnClear
    h n who s = .next z → Keeps a z := by
  intro z e; cases e
  repeat' first | with_reducible assumption | with_reducible apply onHearth_keeps | with_reducible apply doBnClear_keeps

theorem advanceWord_keeps {a : State} {p : Page} {hi : Bool} {s : State} (k : Keeps a s) : Keeps a (advanceWord p hi s) := by
  unfold advanceWord
  repeat' first | with_reducible assumption | split | with_reducible apply State.wr_keeps

theorem putHalf_keeps {a : State} {h n word : Nat} {hi : Bool} {v : Nat} {s : State} (k : Keeps a s) : Keeps a (putHalf h n word
    hi v s) := by
  unfold putHalf
  repeat' first | with_reducible assumption | with_reducible apply putLine_keeps

theorem bnWindow_keeps {a : State} {h n : Nat} {who : Requester} {hi : Bool} {wr : Option Nat} {s : State} (k : Keeps a s) :
    Keeps a (bnWindow h n who hi wr s) := by
  unfold bnWindow; dsimp only
  repeat' first
    | with_reducible assumption | split | with_reducible apply capture_keeps | with_reducible apply State.emit_keeps
    | with_reducible apply advanceWord_keeps | with_reducible apply putHalf_keeps

theorem execBnWindowAccess_keeps {a : State} {h : Fin 16} {n : Fin 4} {who : Requester} {hi : Bool} {wr : Option Word} {s :
    State} (k : Keeps a s) : ∀ z, execBnWindowAccess h n who hi wr s = .next z → Keeps a z := by
  intro z e; cases e
  repeat' first | with_reducible assumption | with_reducible apply onHearth_keeps | with_reducible apply bnWindow_keeps

theorem doKatReq_keeps {a : State} {h u : Nat} {who : Requester} {s : State} (k : Keeps a s) : Keeps a (doKatReq h u who s)
    := by
  unfold doKatReq
  repeat' first | with_reducible assumption | split | with_reducible apply refuse_keeps | with_reducible apply requestKat_keeps

theorem execKatReq_keeps {a : State} {h : Fin 16} {u : Fin 20} {who : Requester} {s : State} (k : Keeps a s) : ∀ z, execKatReq h
    u who s = .next z → Keeps a z := by
  intro z e; cases e
  repeat' first | with_reducible assumption | with_reducible apply onHearth_keeps | with_reducible apply doKatReq_keeps

theorem execKatPeriodExpiry_keeps {a : State} {h : Fin 16} {u : Fin 20} {s : State} (k : Keeps a s) : ∀ z, execKatPeriodExpiry h
    u s = .next z → Keeps a z := by
  intro z e; cases e
  repeat' first | with_reducible assumption | split | with_reducible apply requestKat_keeps

theorem doKatStart_keeps {a : State} {h u : Nat} {s : State} (hs : Keeps a s) : Keeps a (doKatStart h u s) := by
  unfold doKatStart; dsimp only; split
  · exact hs
  · exact noteJobs_keeps (State.modH_keeps (State.modEng_keeps (takeLock_keeps hs)) (fun x => addInner_keepsH x _))

theorem execKatStart_keeps {a : State} {h : Fin 16} {u : Fin 20} {s : State} (k : Keeps a s) : ∀ z, execKatStart h u s = .next z
    → Keeps a z := by
  intro z e; cases e
  repeat' first | with_reducible assumption | with_reducible apply doKatStart_keeps

theorem doKatDone_keeps {a : State} {h u : Nat} {pass : Bool} {s : State} (k : Keeps a s) : Keeps a (doKatDone h u pass s) := by
  unfold doKatDone
  repeat' first
    | with_reducible assumption | with_reducible apply State.modEng_keeps | with_reducible apply fillInner_keeps
    | with_reducible apply releaseLock_keeps | with_reducible apply errCtr_keeps | with_reducible apply raiseH_keeps
    | with_reducible apply Keeps.ite

theorem execKatDone_keeps {a : State} {h : Fin 16} {u : Fin 20} {pass : Bool} {s : State} (k : Keeps a s) : ∀ z, execKatDone h u
    pass s = .next z → Keeps a z := by
  intro z e; cases e
  repeat' first | with_reducible assumption | with_reducible apply doKatDone_keeps

theorem mgStop_keeps {a : State} {h u : Nat} {s : State} (k : Keeps a s) : Keeps a (mgStop h u s) := by
  unfold mgStop
  repeat' first
    | with_reducible assumption | with_reducible apply raiseH_keeps | with_reducible apply errCtr_keeps
    | with_reducible apply State.modEng_keeps

theorem doMgReseed_keeps {a : State} {h u : Nat} {s : State} (k : Keeps a s) : Keeps a (doMgReseed h u s) := by
  unfold doMgReseed
  repeat' first
    | with_reducible assumption | with_reducible apply State.modEng_keeps | with_reducible apply raiseH_keeps
    | with_reducible apply mgStop_keeps | with_reducible apply Keeps.ite

theorem execMgReseedDue_keeps {a : State} {h : Fin 16} {u : Fin 20} {s : State} (k : Keeps a s) : ∀ z, execMgReseedDue h u s =
    .next z → Keeps a z := by
  intro z e; cases e
  repeat' first | with_reducible assumption | with_reducible apply doMgReseed_keeps

theorem execMgPrefetch_keeps {a : State} {h : Fin 16} {u : Fin 20} {s : State} (k : Keeps a s) : ∀ z, execMgPrefetch h u s =
    .next z → Keeps a z := by
  intro z e; cases e
  repeat' first | with_reducible assumption | split | with_reducible apply State.modEng_keeps

theorem seedCache_keeps {a : State} {h : Nat} {s : State} (hs : Keeps a s) : ∀ z, seedCache h s = some z → Keeps a z := by
  intro z e; unfold seedCache at e; split at e
  · cases e; exact hs
  · rw [Option.map_eq_some_iff] at e
    obtain ⟨p, hp, e⟩ := e
    subst e; exact State.modH_keeps (drbgRequest_keeps hs _ hp) (fun x => .same rfl rfl rfl)

theorem doMgSeed_keeps {a : State} {h u : Nat} {s : State} (hs : Keeps a s) : Keeps a (doMgSeed h u s) := by
  unfold doMgSeed; dsimp only; split
  · exact hs
  · split
    · exact hs
    · rename_i e
      rw [Option.bind_eq_some_iff] at e
      obtain ⟨t, e1, e2⟩ := e
      exact State.modEng_keeps (drbgRequest_keeps (seedCache_keeps hs _ e1) _ e2)

theorem execMgSeedArrival_keeps {a : State} {h : Fin 16} {u : Fin 20} {s : State} (k : Keeps a s) : ∀ z, execMgSeedArrival h u s
    = .next z → Keeps a z := by
  intro z e; cases e
  repeat' first | with_reducible assumption | with_reducible apply doMgSeed_keeps

theorem lifecycleMoved_keeps {a s : State} (k : Keeps a s) : Keeps a (lifecycleMoved s) := by
  unfold lifecycleMoved
  repeat' first | with_reducible assumption | with_reducible apply raiseFlue_keeps | with_reducible apply dropAllEnables_keeps

theorem unmaskMsix_keeps {a : State} {fn : Func} {vector : Nat} {s : State} (k : Keeps a s) : Keeps a (unmaskMsix fn vector s)
    := by
  unfold unmaskMsix
  repeat' first
    | with_reducible assumption | with_reducible apply sendMsix_keeps | with_reducible apply State.wr_keeps
    | with_reducible apply Keeps.ite

theorem ddrZero_keeps {a : State} {h off n : Nat} {s : State} (k : Keeps a s) : Keeps a (ddrZero h off n s) := by
  unfold ddrZero
  repeat' first
    | with_reducible assumption | with_reducible apply countWrite_keeps | with_reducible apply State.modMem_keeps
    | (intro m e; exact memClear_wf _ _ _ e) | with_reducible apply Keeps.foldl | (intro _ _ _)

theorem ddrWrite_keeps {a : State} {h off : Nat} {d : Bytes} {s : State} (k : Keeps a s) : Keeps a (ddrWrite h off d s).1 := by
  unfold ddrWrite
  repeat' first
    | with_reducible assumption | split | with_reducible apply lineWrite_keeps | with_reducible apply Keeps.foldlP
    | (intro _ _ _)

end Sys2Proof.Machine
end

