-- ==== Sys2Proof/Laws/KeepsQueues.lean ====
section
/-! SUPPORT. What one step can do to the whole state (`Keeps`), function by function: the jobs, the administration queues and control opcodes, groups and gangs, keys, ownership. -/

namespace Sys2Proof.Machine

theorem releaseUnits_keeps {a : State} {h : Nat} {us : List Nat} {s : State} (k : Keeps a s) : Keeps a (releaseUnits h us s)
    := by
  unfold releaseUnits
  repeat' first
    | with_reducible assumption | with_reducible apply State.modEng_keeps | with_reducible apply releaseLock_keeps
    | with_reducible apply Keeps.foldl | (intro _ _ _)

theorem dropGroups_keeps {a : State} {h : Nat} {s : State} (k : Keeps a s) : Keeps a (dropGroups h s) := by
  unfold dropGroups
  repeat' first
    | with_reducible assumption | split | with_reducible apply State.modH_keeps | with_reducible apply gangMemberDone_keeps
    | with_reducible apply Keeps.foldl | (intros; exact .same rfl rfl rfl) | (intro _ _ _)

theorem resetQueues_keeps {a : State} {v : Nat} {s : State} (k : Keeps a s) : Keeps a (resetQueues v s) := by
  unfold resetQueues
  repeat' first
    | with_reducible assumption | with_reducible apply State.modQp_keeps | with_reducible apply State.qwr_keeps
    | with_reducible apply Keeps.foldl | (intro _ _ _)

theorem drawNonce_keeps {a : State} {h : Nat} {d : Bytes} {y2 : KeyHold} {units : List Nat} {rand : Bytes} {s : State} (k :
    Keeps a s) : Keeps a (drawNonce h d y2 units rand s).2 := by
  unfold drawNonce
  repeat' first | with_reducible assumption | split | with_reducible apply State.modH_keeps | (intros; exact .same rfl rfl rfl)

theorem fillSpan_keeps {a : State} {h j : Nat} {s : State} (k : Keeps a s) : Keeps a (fillSpan h j s) := by
  unfold fillSpan
  repeat' first
    | with_reducible assumption | split | with_reducible apply State.modEng_keeps | with_reducible apply workLines_keeps
    | with_reducible apply putLines_keeps

theorem withMg_keeps {a : State} {α : Type} {h u : Nat} {f : MaskGen → α × MaskGen} {s : State} (k : Keeps a s) : Keeps a
    (withMg h u f s).2 := by
  unfold withMg
  repeat' first | with_reducible assumption | with_reducible apply State.modEng_keeps

theorem maskOut_keeps {a : State} {h j : Nat} {s : State} (k : Keeps a s) : Keeps a (maskOut h j s) := by
  unfold maskOut
  repeat' first
    | with_reducible assumption | split | with_reducible apply withMg_keeps | with_reducible apply State.modJob_keeps
    | with_reducible apply Keeps.snd (by assumption) | done

theorem insertNew_keeps {a : State} {h j : Nat} {jb : Job} {s : State} (k : Keeps a s) : Keeps a (insertNew h j jb s).1 := by
  unfold insertNew; dsimp only
  repeat' first
    | with_reducible assumption | split | with_reducible refine insertKey_keeps ?_ _ (by assumption)
    | with_reducible apply State.modJob_keeps | with_reducible apply State.modGroup_keeps

theorem blobToDdr_keeps {a : State} {h : Nat} {jb : Job} {s : State} (k : Keeps a s) : Keeps a (blobToDdr h jb s).1 := by
  unfold blobToDdr
  repeat' first
    | with_reducible assumption | split | with_reducible apply stokerDma_keeps | with_reducible apply Keeps.fst (by assumption)
    | done

theorem settleOk_keeps {a : State} {h j : Nat} {jb : Job} {s : State} (k : Keeps a s) : Keeps a (settleOk h j jb s).1 := by
  unfold settleOk
  repeat' first
    | with_reducible assumption | split | with_reducible apply insertNew_keeps | with_reducible apply blobToDdr_keeps
    | with_reducible apply State.modJob_keeps | with_reducible apply Keeps.fst (by assumption) | done

theorem settleJob_keeps {a : State} {h j : Nat} {s : State} (k : Keeps a s) : Keeps a (settleJob h j s) := by
  unfold settleJob; dsimp only
  repeat' first
    | with_reducible assumption | split | with_reducible apply State.modJob_keeps | with_reducible apply settleOk_keeps
    | with_reducible apply finishJob_keeps

theorem ran_keeps {a : State} {h j : Nat} {f : Job → Job} {s : State} (k : Keeps a s) : Keeps a (ran h j f s) := by
  unfold ran; dsimp only
  repeat' first
    | with_reducible assumption | split | with_reducible apply fillSpan_keeps | with_reducible apply maskOut_keeps
    | with_reducible apply State.modJob_keeps | with_reducible apply settleJob_keeps

theorem maskIn_keeps {a : State} {h j : Nat} {inp : Bytes} {s : State} (k : Keeps a s) : Keeps a (maskIn h j inp s) := by
  unfold maskIn
  repeat' first
    | with_reducible assumption | split | with_reducible apply State.modJob_keeps | with_reducible apply withMg_keeps
    | with_reducible apply Keeps.snd (by assumption) | done

theorem runWith_keeps {a : State} {h j op : Nat} {inp : Dma} {f : State → Job → Bytes → Ran} {s : State} (k : Keeps a s) : Keeps
    a (runWith h j op inp f s) := by
  unfold runWith
  repeat' first | with_reducible assumption | split | with_reducible apply ran_keeps | with_reducible apply maskIn_keeps

theorem execKeyImportTransport_keeps {a : State} {h : Fin 16} {j : Fin 2048} {inp : Dma} {s : State} (k : Keeps a s) : ∀ z,
    execKeyImportTransport h j inp s = .next z → Keeps a z := by
  intro z e; cases e
  repeat' first | with_reducible assumption | with_reducible apply runWith_keeps

theorem State.modCaches_keeps {a s : State} {h : Nat} {f : Caches → Caches} (k : Keeps a s) : Keeps a (State.modCaches s h f)
    := by
  unfold State.modCaches
  repeat' first | with_reducible assumption | with_reducible apply State.modH_keeps | (intros; exact .same rfl rfl rfl)

theorem l2Store_keeps {a : State} {h line : Nat} {outer : Bool} {g : L2Group} {s : State} (k : Keeps a s) : Keeps a (l2Store h
    line outer g s) := by
  unfold l2Store
  repeat' first | with_reducible assumption | with_reducible apply State.modCaches_keeps

theorem addGroup_keeps {a : State} {h : Nat} {vf : Option Nat} {gang : Option GangRef} {s : State} (k : Keeps a s) : Keeps a
    (addGroup h vf gang s).1 := by
  unfold addGroup
  repeat' first | with_reducible assumption | with_reducible apply State.modH_keeps | (intros; exact .same rfl rfl rfl)

theorem doDtValid_keeps {a : State} {h n : Nat} {who : Requester} {data : Nat} {s : State} (k : Keeps a s) : Keeps a (doDtValid
    h n who data s) := by
  unfold doDtValid
  repeat' first
    | with_reducible assumption | with_reducible apply refuse_keeps | with_reducible apply setFields_keeps
    | with_reducible apply Keeps.ite

theorem bindEntry_keeps {a : State} {v h owner grant inflight : Nat} {s : State} (k : Keeps a s) : Keeps a (bindEntry v h owner
    grant inflight s) := by
  unfold bindEntry
  repeat' first | with_reducible assumption | with_reducible apply State.setFt_keeps

theorem dropAction_keeps {a : State} {h gid cause : Nat} {y3 : Action} {s : State} (k : Keeps a s) : Keeps a (dropAction h gid
    cause y3 s) := by
  unfold dropAction
  repeat' first
    | with_reducible assumption | split | with_reducible apply finishAdmin_keeps | with_reducible apply State.modJob_keeps

theorem passQuota_keeps {a : State} {h p q n : Nat} {s : State} (k : Keeps a s) : Keeps a (passQuota h p q n s) := by
  unfold passQuota
  repeat' first | with_reducible assumption | with_reducible apply State.wr_keeps

theorem dropFromEntry_keeps {a : State} {h p : Nat} {gone : Bool} {s : State} {i : Nat} {e : KeyEntry} (k : Keeps a s) : Keeps a
    (dropFromEntry h p gone s i e) := by
  unfold dropFromEntry; dsimp only
  repeat' first
    | with_reducible assumption | split | with_reducible apply freeEntry_keeps | with_reducible apply State.modH_keeps
    | with_reducible apply passQuota_keeps | (intros; exact .same rfl rfl rfl)

theorem ddrBlob_keeps {a : State} {h v off : Nat} {s : State} (k : Keeps a s) : Keeps a (ddrBlob h v off s).1 := by
  unfold ddrBlob
  repeat' first
    | with_reducible assumption | split | with_reducible apply stokerDma_keeps | with_reducible apply Keeps.fst (by assumption)
    | done

theorem unwrapEnds_keeps {a : State} {h j i : Nat} {f : Job → Job} {s : State} (k : Keeps a s) : Keeps a (unwrapEnds h j i f s)
    := by
  unfold unwrapEnds
  repeat' first
    | with_reducible assumption | with_reducible apply toReady_keeps | with_reducible apply State.modJob_keeps
    | with_reducible apply Keeps.ite

theorem unwrapFails_keeps {a : State} {h j i st : Nat} {s : State} (k : Keeps a s) : Keeps a (unwrapFails h j i st s) := by
  unfold unwrapFails
  repeat' first | with_reducible assumption | with_reducible apply unwrapEnds_keeps

theorem unwrapRef_keeps {a : State} {h j i : Nat} {b : Bytes} {jb : Job} {s : State} (k : Keeps a s) : Keeps a (unwrapRef h j i
    b jb s) := by
  unfold unwrapRef; dsimp only
  repeat' first
    | with_reducible assumption | split | with_reducible apply unwrapFails_keeps | with_reducible apply derived_keeps
    | with_reducible refine insertKey_keeps ?_ _ (by assumption) | with_reducible apply State.modGroup_keeps
    | with_reducible apply unwrapEnds_keeps

theorem doUnwrapDone_keeps {a : State} {h j i : Nat} {blob : Dma} {s : State} (k : Keeps a s) : Keeps a (doUnwrapDone h j i blob
    s) := by
  unfold doUnwrapDone
  repeat' first
    | with_reducible assumption | split | with_reducible apply ddrBlob_keeps | with_reducible apply unwrapFails_keeps
    | with_reducible apply unwrapRef_keeps | with_reducible apply Keeps.fst (by assumption) | with_reducible apply Keeps.ite

theorem execKeywaitUnwrapDone_keeps {a : State} {h : Fin 16} {j : Fin 2048} {ref : Fin 3} {blob : Dma} {s : State} (k : Keeps a
    s) : ∀ z, execKeywaitUnwrapDone h j ref blob s = .next z → Keeps a z := by
  intro z e; cases e
  repeat' first | with_reducible assumption | with_reducible apply fillInner_keeps | with_reducible apply doUnwrapDone_keeps

theorem stopJob_keeps {a : State} {h j status code : Nat} {s : State} (k : Keeps a s) : Keeps a (stopJob h j status code s)
    := by
  unfold stopJob
  repeat' first
    | with_reducible assumption | split | with_reducible apply State.modJob_keeps | with_reducible apply failJob_keeps

theorem unblock_keeps {a : State} {h : Nat} {us : List Nat} {s : State} (k : Keeps a s) : Keeps a (unblock h us s) := by
  unfold unblock
  repeat' first
    | with_reducible assumption | with_reducible apply State.modH_keeps | with_reducible apply State.wr_keeps
    | (intros; exact .same rfl rfl rfl)

theorem takeUnits_keeps {a : State} {h j v : Nat} {o2 : State → Nat → Bool} {us : List Nat} {s : State} (k : Keeps a s) : Keeps
    a (takeUnits h j v o2 us s) := by
  unfold takeUnits
  repeat' first
    | with_reducible assumption | with_reducible apply State.modEng_keeps | with_reducible apply takeLock_keeps
    | with_reducible apply unblock_keeps | with_reducible apply Keeps.foldl | (intro _ _ _)

theorem resumeJob_keeps {a : State} {h j : Nat} {jb : Job} {us : List Nat} {s : State} (k : Keeps a s) : Keeps a (resumeJob h j
    jb us s) := by
  unfold resumeJob
  repeat' first
    | with_reducible assumption | split | with_reducible apply takeUnits_keeps | with_reducible apply State.modEng_keeps
    | with_reducible apply State.modJob_keeps | with_reducible apply Keeps.foldl | (intro _ _ _)

theorem chargeTime_keeps {a : State} {h : Nat} {jb : Job} {s : State} (k : Keeps a s) : Keeps a (chargeTime h jb s) := by
  unfold chargeTime
  repeat' first | with_reducible assumption | with_reducible apply State.modVf_keeps

theorem shareSlot_keeps {a : State} {y0 : KeyHold} {s : State} (k : Keeps a s) : Keeps a (shareSlot y0 s).2 := by
  unfold shareSlot
  repeat' first
    | with_reducible assumption | split | with_reducible apply State.free_keeps
    | with_reducible apply Keeps.snd (by assumption) | done

theorem shareSlots_keeps {a : State} {l : List KeyHold} {s : State} (hs : Keeps a s) : Keeps a (shareSlots l s).2 := by
  induction l generalizing s with
  | nil => exact hs
  | cons k r ih => exact ih (shareSlot_keeps hs)

theorem countUse_keeps {a : State} {h : Nat} {jb : Job} {j : Nat} {y3 : KeyHold} {s : State} (k : Keeps a s) : Keeps a (countUse
    h jb j y3 s) := by
  unfold countUse
  repeat' first
    | with_reducible assumption | split | with_reducible apply State.modH_keeps | with_reducible apply State.modGroup_keeps
    | (intros; exact .same rfl rfl rfl)

theorem startJob_keeps {a : State} {h j : Nat} {jb : Job} {us : List Nat} {ks : List KeyHold} {rand : Bytes} {s : State} (k :
    Keeps a s) : Keeps a (startJob h j jb us ks rand s) := by
  unfold startJob
  repeat' first
    | with_reducible assumption | with_reducible apply chargeTime_keeps | with_reducible apply takeUnits_keeps
    | with_reducible apply shareSlots_keeps | with_reducible apply countUse_keeps | with_reducible apply addCtr_keeps
    | with_reducible apply derived_keeps | with_reducible apply drawNonce_keeps | with_reducible apply State.modJob_keeps
    | with_reducible apply Keeps.foldl | (intro _ _ _)

theorem dispatchOne_keeps {a : State} {h j : Nat} {jb : Job} {s : State} (k : Keeps a s) : Keeps a (dispatchOne h j jb s) := by
  unfold dispatchOne
  repeat' first
    | with_reducible assumption | split | with_reducible apply stopJob_keeps | with_reducible apply resumeJob_keeps
    | with_reducible apply startJob_keeps | with_reducible refine drbgLower_keeps ?_ _ (by assumption)
    | with_reducible apply Keeps.ite

theorem askYield_keeps {a : State} {h u : Nat} {s : State} (k : Keeps a s) : Keeps a (askYield h u s) := by
  unfold askYield
  repeat' first
    | with_reducible assumption | split | with_reducible apply State.modH_keeps | with_reducible apply State.modEng_keeps
    | (intros; exact .same rfl rfl rfl)

theorem requestYield_keeps {a : State} {h : Nat} {s : State} (k : Keeps a s) : Keeps a (requestYield h s) := by
  unfold requestYield
  repeat' first
    | with_reducible assumption | split | with_reducible apply askYield_keeps | with_reducible apply Keeps.foldlP
    | (intro _ _ _)

theorem doDispatch_keeps {a : State} {h us : Nat} {s : State} (k : Keeps a s) : Keeps a (doDispatch h us s) := by
  unfold doDispatch
  repeat' first
    | with_reducible assumption | split | with_reducible apply State.modH_keeps | with_reducible apply dispatchOne_keeps
    | with_reducible apply requestYield_keeps | with_reducible apply closeBatch_keeps | (intros; exact .same rfl rfl rfl)

theorem execJobDispatch_keeps {a : State} {h : Fin 16} {elapsedUs : Nat} {s : State} (k : Keeps a s) : ∀ z, execJobDispatch h
    elapsedUs s = .next z → Keeps a z := by
  intro z e; cases e
  repeat' first | with_reducible assumption | with_reducible apply doDispatch_keeps

theorem fillResult_keeps {a : State} {h u : Nat} {jb : Job} {status : Nat} {s : State} (k : Keeps a s) : Keeps a (fillResult h u
    jb status s) := by
  unfold fillResult
  repeat' first | with_reducible assumption | split | with_reducible apply putLines_keeps

theorem countCycles_keeps {a : State} {h : Nat} {jb : Job} {s : State} (k : Keeps a s) : Keeps a (countCycles h jb s) := by
  unfold countCycles
  repeat' first
    | with_reducible assumption | split | with_reducible apply State.wr_keeps | with_reducible apply addCtr_keeps
    | with_reducible apply Keeps.foldl | (intro _ _ _)

theorem freeSaves_keeps {a : State} {h j : Nat} {s : State} (k : Keeps a s) : Keeps a (freeSaves h j s) := by
  unfold freeSaves
  repeat' first | with_reducible assumption | with_reducible apply State.modH_keeps | (intros; exact .same rfl rfl rfl)

theorem countPinFail_keeps {a : State} {h : Nat} {jb : Job} {s : State} (k : Keeps a s) : Keeps a (countPinFail h jb s) := by
  unfold countPinFail
  repeat' first
    | with_reducible assumption | with_reducible apply errReg_keeps | with_reducible apply raiseH_keeps
    | with_reducible apply State.modH_keeps | with_reducible apply Keeps.ite | (intros; exact .same rfl rfl rfl)

theorem endQueued_keeps {a : State} {h u j : Nat} {holdsInv : Bool} {s : State} (k : Keeps a s) : Keeps a (endQueued h u j
    holdsInv s) := by
  unfold endQueued
  repeat' first
    | with_reducible assumption | split | with_reducible apply State.modJob_keeps | with_reducible apply fillResult_keeps
    | with_reducible apply countCycles_keeps | with_reducible apply releaseUnits_keeps | with_reducible apply freeSaves_keeps
    | with_reducible apply raiseH_keeps | with_reducible apply requestKat_keeps | with_reducible apply settleJob_keeps
    | with_reducible apply countPinFail_keeps

theorem writeCompletion_keeps {a : State} {h j : Nat} {s : State} (k : Keeps a s) : Keeps a (writeCompletion h j s) := by
  unfold writeCompletion
  repeat' first
    | with_reducible assumption | split | with_reducible apply postCompletion_keeps | with_reducible apply addFlue_keeps
    | with_reducible apply addCtr_keeps | with_reducible apply errCtr_keeps | with_reducible apply dropGroups_keeps
    | with_reducible apply removeJob_keeps | with_reducible apply checkDrain_keeps | with_reducible apply Keeps.outUpd

theorem doCompletion_keeps {a : State} {h j : Nat} {s : State} (k : Keeps a s) : Keeps a (doCompletion h j s) := by
  unfold doCompletion
  repeat' first | with_reducible assumption | split | with_reducible apply writeCompletion_keeps

theorem execCompletionWritten_keeps {a : State} {h : Fin 16} {j : Fin 2048} {s : State} (k : Keeps a s) : ∀ z,
    execCompletionWritten h j s = .next z → Keeps a z := by
  intro z e; cases e
  repeat' first | with_reducible assumption | with_reducible apply doCompletion_keeps

theorem doClassBlocked_keeps {a : State} {h c : Nat} {s : State} (k : Keeps a s) : Keeps a (doClassBlocked h c s) := by
  unfold doClassBlocked
  repeat' first
    | with_reducible assumption | with_reducible apply State.wr_keeps | with_reducible apply raiseH_keeps
    | with_reducible apply State.modH_keeps | with_reducible apply Keeps.ite | (intros; exact .same rfl rfl rfl)

theorem execStkClassBlocked_keeps {a : State} {h : Fin 16} {c : Fin 4} {s : State} (k : Keeps a s) : ∀ z, execStkClassBlocked h
    c s = .next z → Keeps a z := by
  intro z e; cases e
  repeat' first | with_reducible assumption | with_reducible apply doClassBlocked_keeps

theorem directStatus_keeps {a : State} {h u st : Nat} {s : State} (k : Keeps a s) : Keeps a (directStatus h u st s) := by
  unfold directStatus
  repeat' first | with_reducible assumption | with_reducible apply State.modEng_keeps

theorem doEntropyTimeout_keeps {a : State} {h : Nat} {w : Waiter} {s : State} (k : Keeps a s) : Keeps a (doEntropyTimeout h w s)
    := by
  unfold doEntropyTimeout
  repeat' first
    | with_reducible assumption | with_reducible apply failJob_keeps | with_reducible apply directStatus_keeps
    | with_reducible apply releaseUnits_keeps | with_reducible apply countCycles_keeps
    | with_reducible apply State.modJob_keeps | with_reducible apply settleJob_keeps | with_reducible apply freeSaves_keeps
    | with_reducible apply Keeps.ite | split

theorem execEntropyWaitTimeout_keeps {a : State} {h : Fin 16} {w : Waiter} {s : State} (k : Keeps a s) : ∀ z,
    execEntropyWaitTimeout h w s = .next z → Keeps a z := by
  intro z e; cases e
  repeat' first | with_reducible assumption | with_reducible apply doEntropyTimeout_keeps

theorem doYield_keeps {a : State} {h n : Nat} {written : Bool} {s : State} (k : Keeps a s) : Keeps a (doYield h n written s)
    := by
  unfold doYield; dsimp only
  repeat' first
    | with_reducible assumption | split | with_reducible apply State.modJob_keeps | with_reducible apply State.wr_keeps
    | with_reducible apply releaseUnits_keeps | with_reducible apply addCtr_keeps | with_reducible apply freeSaves_keeps
    | with_reducible apply State.modEng_keeps | with_reducible apply State.modH_keeps | with_reducible apply raiseH_keeps
    | (intros; exact .same rfl rfl rfl)

theorem execYieldPointSaveDone_keeps {a : State} {h : Fin 16} {n : Fin 4} {written : Bool} {s : State} (k : Keeps a s) : ∀ z,
    execYieldPointSaveDone h n written s = .next z → Keeps a z := by
  intro z e; cases e
  repeat' first | with_reducible assumption | with_reducible apply doYield_keeps

theorem doRestore_keeps {a : State} {h n : Nat} {rd : RestoreRead} {s : State} (k : Keeps a s) : Keeps a (doRestore h n rd s)
    := by
  unfold doRestore; dsimp only
  repeat' first
    | with_reducible assumption | split | with_reducible apply freeSaves_keeps | with_reducible apply State.modEng_keeps
    | with_reducible apply fillSpan_keeps | with_reducible apply releaseUnits_keeps | with_reducible apply countCycles_keeps
    | with_reducible apply settleJob_keeps | with_reducible apply State.modJob_keeps

theorem execJobResumeRestoreDone_keeps {a : State} {h : Fin 16} {n : Fin 4} {rd : RestoreRead} {s : State} (k : Keeps a s) : ∀
    z, execJobResumeRestoreDone h n rd s = .next z → Keeps a z := by
  intro z e; cases e
  repeat' first | with_reducible assumption | with_reducible apply doRestore_keeps

theorem releaseHob_keeps {a : State} {h : Nat} {s : State} (k : Keeps a s) : Keeps a (releaseHob h s) := by
  unfold releaseHob
  repeat' first
    | with_reducible assumption | split | with_reducible apply gateBurners_keeps | with_reducible apply State.modH_keeps
    | (intros; exact .same rfl rfl rfl)

theorem doBatchRelease_keeps {a : State} {h : Nat} {s : State} (k : Keeps a s) : Keeps a (doBatchRelease h s) := by
  unfold doBatchRelease
  repeat' first | with_reducible assumption | with_reducible apply releaseHob_keeps | with_reducible apply Keeps.ite

theorem execHobBatchRelease_keeps {a : State} {h : Fin 16} {s : State} (k : Keeps a s) : ∀ z, execHobBatchRelease h s = .next z
    → Keeps a z := by
  intro z e; cases e
  repeat' first | with_reducible assumption | with_reducible apply doBatchRelease_keeps

theorem doTurnover_keeps {a : State} {h b : Nat} {s : State} (k : Keeps a s) : Keeps a (doTurnover h b s) := by
  unfold doTurnover
  repeat' first
    | with_reducible assumption | with_reducible apply gateBurners_keeps | with_reducible apply State.modEng_keeps
    | with_reducible apply Keeps.ite

theorem execTurnoverEnd_keeps {a : State} {h : Fin 16} {b : Fin 4} {s : State} (k : Keeps a s) : ∀ z, execTurnoverEnd h b s =
    .next z → Keeps a z := by
  intro z e; cases e
  repeat' first | with_reducible assumption | with_reducible apply doTurnover_keeps

theorem doStkMode_keeps {a : State} {h : Nat} {who : Requester} {data : Nat} {s : State} (k : Keeps a s) : Keeps a (doStkMode h
    who data s) := by
  unfold doStkMode
  repeat' first | with_reducible assumption | split | with_reducible apply refuse_keeps | with_reducible apply setFields_keeps

theorem execStkModeWrite_keeps {a : State} {h : Fin 16} {who : Requester} {data : Word} {s : State} (k : Keeps a s) : ∀ z,
    execStkModeWrite h who data s = .next z → Keeps a z := by
  intro z e; cases e
  repeat' first | with_reducible assumption | with_reducible apply onHearth_keeps | with_reducible apply doStkMode_keeps

theorem doHobMode_keeps {a : State} {h : Nat} {who : Requester} {data : Nat} {s : State} (k : Keeps a s) : Keeps a (doHobMode h
    who data s) := by
  unfold doHobMode
  repeat' first
    | with_reducible assumption | with_reducible apply refuse_keeps | with_reducible apply setFields_keeps
    | with_reducible apply releaseHob_keeps | with_reducible apply gateBurners_keeps | with_reducible apply Keeps.ite

theorem execHobModeWrite_keeps {a : State} {h : Fin 16} {who : Requester} {data : Word} {s : State} (k : Keeps a s) : ∀ z,
    execHobModeWrite h who data s = .next z → Keeps a z := by
  intro z e; cases e
  repeat' first | with_reducible assumption | with_reducible apply onHearth_keeps | with_reducible apply doHobMode_keeps

theorem doPinfailClr_keeps {a : State} {h : Nat} {who : Requester} {s : State} (k : Keeps a s) : Keeps a (doPinfailClr h who s)
    := by
  unfold doPinfailClr
  repeat' first
    | with_reducible assumption | split | with_reducible apply refuse_keeps | with_reducible apply State.modH_keeps
    | with_reducible apply State.wr_keeps | (intros; exact .same rfl rfl rfl)

theorem execPinfailClr_keeps {a : State} {h : Fin 16} {who : Requester} {s : State} (k : Keeps a s) : ∀ z, execPinfailClr h who
    s = .next z → Keeps a z := by
  intro z e; cases e
  repeat' first | with_reducible assumption | with_reducible apply onHearth_keeps | with_reducible apply doPinfailClr_keeps

theorem execDtValidWrite_keeps {a : State} {h : Fin 16} {n : Fin 4} {who : Requester} {data : Word} {s : State} (k : Keeps a s)
    : ∀ z, execDtValidWrite h n who data s = .next z → Keeps a z := by
  intro z e; cases e
  repeat' first | with_reducible assumption | with_reducible apply onHearth_keeps | with_reducible apply doDtValid_keeps

theorem runPlain_keeps {a : State} {h j op : Nat} {f : State → Job → Ran} {s : State} (k : Keeps a s) : Keeps a (runPlain h j op
    f s) := by
  unfold runPlain
  repeat' first | with_reducible assumption | split | with_reducible apply ran_keeps | with_reducible apply maskIn_keeps

theorem execKeyUnwrap_keeps {a : State} {h : Fin 16} {j : Fin 2048} {s : State} (k : Keeps a s) : ∀ z, execKeyUnwrap h j s =
    .next z → Keeps a z := by
  intro z e; cases e
  repeat' first | with_reducible assumption | with_reducible apply runPlain_keeps

theorem execKeyWrap_keeps {a : State} {h : Fin 16} {j : Fin 2048} {s : State} (k : Keeps a s) : ∀ z, execKeyWrap h j s = .next z
    → Keeps a z := by
  intro z e; cases e
  repeat' first | with_reducible assumption | with_reducible apply runPlain_keeps

theorem execKeyGenerate_keeps {a : State} {h : Fin 16} {j : Fin 2048} {s : State} (k : Keeps a s) : ∀ z, execKeyGenerate h j s =
    .next z → Keeps a z := by
  intro z e; cases e
  repeat' first | with_reducible assumption | with_reducible apply runPlain_keeps

theorem runEvict_keeps {a : State} {h j : Nat} {s : State} (k : Keeps a s) : Keeps a (runEvict h j s) := by
  unfold runEvict; dsimp only
  repeat' first
    | with_reducible assumption | split | with_reducible apply ran_keeps | with_reducible apply State.modH_keeps
    | with_reducible apply State.modGroup_keeps | with_reducible apply freeEntry_keeps | (intros; exact .same rfl rfl rfl)

theorem execKeyEvict_keeps {a : State} {h : Fin 16} {j : Fin 2048} {s : State} (k : Keeps a s) : ∀ z, execKeyEvict h j s = .next
    z → Keeps a z := by
  intro z e; cases e
  repeat' first | with_reducible assumption | with_reducible apply runEvict_keeps

theorem execKeyInfo_keeps {a : State} {h : Fin 16} {j : Fin 2048} {s : State} (k : Keeps a s) : ∀ z, execKeyInfo h j s = .next z
    → Keeps a z := by
  intro z e; cases e
  repeat' first | with_reducible assumption | with_reducible apply runPlain_keeps

theorem execKeyDerive_keeps {a : State} {h : Fin 16} {j : Fin 2048} {inp : Dma} {s : State} (k : Keeps a s) : ∀ z, execKeyDerive
    h j inp s = .next z → Keeps a z := by
  intro z e; cases e
  repeat' first | with_reducible assumption | with_reducible apply runWith_keeps

theorem execKeyExportKw_keeps {a : State} {h : Fin 16} {j : Fin 2048} {s : State} (k : Keeps a s) : ∀ z, execKeyExportKw h j s =
    .next z → Keeps a z := by
  intro z e; cases e
  repeat' first | with_reducible assumption | with_reducible apply runPlain_keeps

theorem execKeyImportKw_keeps {a : State} {h : Fin 16} {j : Fin 2048} {inp : Dma} {s : State} (k : Keeps a s) : ∀ z,
    execKeyImportKw h j inp s = .next z → Keeps a z := by
  intro z e; cases e
  repeat' first | with_reducible assumption | with_reducible apply runWith_keeps

theorem execTransportCert_keeps {a : State} {h : Fin 16} {j : Fin 2048} {s : State} (k : Keeps a s) : ∀ z, execTransportCert h j
    s = .next z → Keeps a z := by
  intro z e; cases e
  repeat' first | with_reducible assumption | with_reducible apply runPlain_keeps

theorem execKeyExportTransport_keeps {a : State} {h : Fin 16} {j : Fin 2048} {inp : Dma} {s : State} (k : Keeps a s) : ∀ z,
    execKeyExportTransport h j inp s = .next z → Keeps a z := by
  intro z e; cases e
  repeat' first | with_reducible assumption | with_reducible apply runWith_keeps

theorem groupJob_keeps {a : State} {op : Nat} {f : GroupOp} {h j : Nat} {s : State} (hf : ∀ x0 x1 x2 x3 x4, Keeps a x4 → Keeps a
    (f x0 x1 x2 x3 x4).1) (k : Keeps a s) : Keeps a (groupJob op f h j s) := by
  unfold groupJob
  repeat' first
    | with_reducible assumption | split | with_reducible apply finishJob_keeps | with_reducible apply State.modJob_keeps
    | with_reducible apply Keeps.fst (by assumption) | with_reducible apply hf

theorem adminTake_keeps {a : State} {q : Nat} {d : Bytes} {s : State} (k : Keeps a s) : Keeps a (adminTake q d s) := by
  unfold adminTake
  repeat' first | with_reducible assumption | with_reducible apply State.modQp_keeps

theorem adminPost_keeps {a : State} {q : Nat} {d : Bytes} {dst : List SgEntry} {status : Nat} {result out : Bytes} {s : State}
    (k : Keeps a s) : Keeps a (adminPost q d dst status result out s) := by
  unfold adminPost
  repeat' first | with_reducible assumption | with_reducible apply postAdmin_keeps

theorem adminGo_keeps {a : State} {op q : Nat} {rd : AdminRead} {own : State → Bytes → Option Nat} {body : AdminReq → State →
    State × Adm} {s : State} (hbody : ∀ x0 x1, Keeps a x1 → Keeps a (body x0 x1).1) (k : Keeps a s) : Keeps a (adminGo op q rd
    own body s) := by
  unfold adminGo; dsimp only
  repeat' first
    | with_reducible assumption | split | with_reducible apply qpError_keeps | with_reducible apply adminTake_keeps
    | with_reducible apply adminPost_keeps | with_reducible apply State.modFlue_keeps
    | with_reducible apply Keeps.fst (by assumption) | with_reducible apply hbody

theorem adminRow_keeps {a : State} {op : Nat} {q : Fin 4} {rd : AdminRead} {own : State → Bytes → Option Nat} {body : AdminReq →
    State → State × Adm} {s : State} (hbody : ∀ x0 x1, Keeps a x1 → Keeps a (body x0 x1).1) (k : Keeps a s) : ∀ z, adminRow op q
    rd own body s = .next z → Keeps a z := by
  intro z e; unfold adminRow at e
  repeat' split at e
  all_goals first | (cases e; done) | skip
  all_goals
    (try simp only [Host.Outcome.next.injEq] at e); subst e
    repeat' first | with_reducible assumption | with_reducible apply adminGo_keeps

theorem groupAdmin_keeps {a : State} {f : GroupOp} {r : AdminReq} {s : State} (hf : ∀ x0 x1 x2 x3 x4, Keeps a x4 → Keeps a (f x0
    x1 x2 x3 x4).1) (k : Keeps a s) : Keeps a (groupAdmin f r s).1 := by
  unfold groupAdmin
  repeat' first | with_reducible assumption | split | with_reducible apply Keeps.fst (by assumption) | with_reducible apply hf

theorem groupRow_keeps {a : State} {op : Nat} {f : GroupOp} {src : GroupSrc} {s : State}
    (hf : ∀ x0 x1 x2 x3 x4, Keeps a x4 → Keeps a (f x0 x1 x2 x3 x4).1) (hs : Keeps a s) : ∀ z, groupRow op f src s = .next z → Keeps a z := by
  intro z e; unfold groupRow at e; split at e
  · cases e; exact groupJob_keeps hf hs
  · exact adminRow_keeps (fun _ _ k => groupAdmin_keeps hf k) hs _ e

theorem openGroup_keeps {a : State} {h : Nat} {vf : Option Nat} {d : Bytes} {y3 : CtlRef} {s : State} (k : Keeps a s) : Keeps a
    (openGroup h vf d y3 s).1 := by
  unfold openGroup; dsimp only
  repeat' first
    | with_reducible assumption | split | with_reducible apply addGroup_keeps | with_reducible apply State.modGang_keeps
    | with_reducible apply State.modFlue_keeps

theorem execGroupOpen_keeps {a : State} {src : GroupSrc} {s : State} (k : Keeps a s) : ∀ z, execGroupOpen src s = .next z →
    Keeps a z := by
  intro z e; refine groupRow_keeps ?_ ?_ z e
  all_goals
    repeat' first | with_reducible assumption | with_reducible apply openGroup_keeps

theorem onGroup_keeps {a : State} {f : Group → GroupOp} {h : Nat} {vf : Option Nat} {d : Bytes} {ref : CtlRef} {s : State}
    (hf : ∀ g h vf d ref x, Keeps a x → Keeps a (f g h vf d ref x).1) (hs : Keeps a s) : Keeps a (onGroup f h vf d ref s).1 := by
  unfold onGroup; repeat' split
  · exact hs
  · exact hs
  · exact hf _ _ _ _ _ _ hs

theorem gangSealed_keeps {a : State} {r : GangRef} {s : State} (k : Keeps a s) : Keeps a (gangSealed r s) := by
  unfold gangSealed
  repeat' first | with_reducible assumption | with_reducible apply State.modGang_keeps

theorem commitGroup_keeps {a : State} {g : Group} {y1 : Nat} {y2 : Option Nat} {y3 : Bytes} {y4 : CtlRef} {y5 : State} (k :
    Keeps a y5) : Keeps a (commitGroup g y1 y2 y3 y4 y5).1 := by
  unfold commitGroup; dsimp only
  repeat' first
    | with_reducible assumption | split | with_reducible apply startRollback_keeps | with_reducible apply State.modGroup_keeps
    | with_reducible apply gangSealed_keeps

theorem execGroupCommit_keeps {a : State} {src : GroupSrc} {s : State} (hs : Keeps a s) : ∀ z, execGroupCommit src s = .next z → Keeps a z := by
  intro z hz; unfold execGroupCommit at hz
  exact groupRow_keeps (fun _ _ _ _ _ k => onGroup_keeps (fun _ _ _ _ _ _ k => commitGroup_keeps k) k) hs _ hz

theorem abortGroup_keeps {a : State} {g : Group} {y1 : Nat} {y2 : Option Nat} {y3 : Bytes} {y4 : CtlRef} {y5 : State} (k : Keeps
    a y5) : Keeps a (abortGroup g y1 y2 y3 y4 y5).1 := by
  unfold abortGroup; dsimp only
  repeat' first
    | with_reducible assumption | split | with_reducible apply State.modGroup_keeps | with_reducible apply startRollback_keeps

theorem execGroupAbort_keeps {a : State} {src : GroupSrc} {s : State} (hs : Keeps a s) : ∀ z, execGroupAbort src s = .next z → Keeps a z := by
  intro z hz; unfold execGroupAbort at hz
  exact groupRow_keeps (fun _ _ _ _ _ k => onGroup_keeps (fun _ _ _ _ _ _ k => abortGroup_keeps k) k) hs _ hz

theorem queryGroup_keeps {a : State} {g : Group} {y1 : Nat} {y2 : Option Nat} {y3 : Bytes} {y4 : CtlRef} {y5 : State} (k : Keeps
    a y5) : Keeps a (queryGroup g y1 y2 y3 y4 y5).1 := by
  unfold queryGroup
  repeat' with_reducible assumption

theorem execGroupQuery_keeps {a : State} {src : GroupSrc} {s : State} (hs : Keeps a s) : ∀ z, execGroupQuery src s = .next z → Keeps a z := by
  intro z hz; unfold execGroupQuery at hz
  exact groupRow_keeps (fun _ _ _ _ _ k => onGroup_keeps (fun _ _ _ _ _ _ k => queryGroup_keeps k) k) hs _ hz

theorem eventJob_keeps {a : State} {h j : Nat} {s : State} (k : Keeps a s) : Keeps a (eventJob h j s) := by
  unfold eventJob
  repeat' first | with_reducible assumption | split | with_reducible apply groupJob_keeps | (intro _ _ _)

theorem eventAdmin_keeps {a : State} {r : AdminReq} {s : State} (k : Keeps a s) : Keeps a (eventAdmin r s).1 := by
  unfold eventAdmin; dsimp only
  repeat' first
    | with_reducible assumption | split | with_reducible apply joinGroup_keeps | with_reducible apply State.modGroup_keeps
    | with_reducible apply Keeps.fst (by assumption) | done

theorem execGroupEvent_keeps {a : State} {src : GroupSrc} {s : State} (hs : Keeps a s) : ∀ z, execGroupEvent src s = .next z → Keeps a z := by
  intro z e; unfold execGroupEvent at e; split at e
  · cases e; exact eventJob_keeps hs
  · exact adminRow_keeps (fun _ _ k => eventAdmin_keeps k) hs _ e

theorem applyAction_keeps {a : State} {h : Nat} {y1 : Action} {s : State} (k : Keeps a s) : Keeps a (applyAction h y1 s) := by
  unfold applyAction
  repeat' first
    | with_reducible assumption | split | with_reducible apply State.modH_keeps | with_reducible apply freeEntry_keeps
    | (intros; exact .same rfl rfl rfl)

theorem writeAudits_keeps {a : State} {h gid : Nat} {g : Group} {s : State} (k : Keeps a s) : Keeps a (writeAudits h gid g s)
    := by
  unfold writeAudits
  repeat' first
    | with_reducible assumption | with_reducible apply raiseBit_keeps | with_reducible apply record_keeps
    | with_reducible apply raiseQuiet_keeps | with_reducible apply Keeps.foldl | with_reducible apply Keeps.foldlP
    | (intro _ _ _)

theorem releaseAction_keeps {a : State} {h gid : Nat} {y2 : Action} {s : State} (k : Keeps a s) : Keeps a (releaseAction h gid
    y2 s) := by
  unfold releaseAction
  repeat' first
    | with_reducible assumption | split | with_reducible apply stokerDma_keeps | with_reducible apply State.modJob_keeps
    | with_reducible apply finishAdmin_keeps | with_reducible apply State.modVault_keeps | (intros; exact ⟨rfl, rfl⟩)

theorem releaseControl_keeps {a : State} {h gid : Nat} {c : Option CtlRef} {status : Nat} {s : State} (k : Keeps a s) : Keeps a
    (releaseControl h gid c status s) := by
  unfold releaseControl
  repeat' first
    | with_reducible assumption | split | with_reducible apply State.modJob_keeps | with_reducible apply finishAdmin_keeps

theorem applyGroup_keeps {a : State} {h gid : Nat} {s : State} (k : Keeps a s) : Keeps a (applyGroup h gid s) := by
  unfold applyGroup
  repeat' first
    | with_reducible assumption | split | with_reducible apply State.modGroup_keeps | with_reducible apply applyAction_keeps
    | with_reducible apply writeAudits_keeps | with_reducible apply addCtr_keeps | with_reducible apply State.modVault_keeps
    | with_reducible apply releaseAction_keeps | with_reducible apply releaseControl_keeps
    | with_reducible apply dropGroups_keeps | exact ⟨(setApplied_keepsV _ _ _).1, (setApplied_keepsV _ _ _).2⟩
    | with_reducible apply Keeps.foldl | (intro _)

theorem recordDecision_keeps {a : State} {kind unit tag parts owner : Nat} {members : List (Nat × List Nat)} {acts : Tab Nat} {s : State}
    (hs : Keeps a s) : ∀ z, recordDecision kind unit tag parts owner members acts s = some z → Keeps a z := by
  intro z e; unfold recordDecision at e; dsimp only at e
  split at e
  · rw [← Option.some.inj e]; exact State.modVault_keeps hs (fun _ => ⟨rfl, rfl⟩)
  · cases e

theorem doCommitApply_keeps {a : State} {h gid : Nat} {s : State} (k : Keeps a s) : Keeps a (doCommitApply h gid s) := by
  unfold doCommitApply
  repeat' first
    | with_reducible assumption | split | with_reducible apply applyGroup_keeps
    | with_reducible refine recordDecision_keeps ?_ _ (by assumption) | with_reducible apply State.modGroup_keeps

theorem execGroupCommitApply_keeps {a : State} {h : Fin 16} {g : BitVec 16} {s : State} (k : Keeps a s) : ∀ z,
    execGroupCommitApply h g s = .next z → Keeps a z := by
  intro z e; cases e
  repeat' first | with_reducible assumption | with_reducible apply doCommitApply_keeps

theorem rollbackGroup_keeps {a : State} {h gid : Nat} {s : State} (k : Keeps a s) : Keeps a (rollbackGroup h gid s) := by
  unfold rollbackGroup
  repeat' first
    | with_reducible assumption | split | with_reducible apply freeEntry_keeps | with_reducible apply State.modH_keeps
    | with_reducible apply State.modGroup_keeps | with_reducible apply dropAction_keeps
    | with_reducible apply releaseControl_keeps | with_reducible apply errReg_keeps | with_reducible apply dropGroups_keeps
    | with_reducible apply raiseH_keeps | exact KeepsH.foldl (.refl _) undoAction_keepsH | with_reducible apply Keeps.foldl
    | (intro _)

theorem doRollback_keeps {a : State} {h gid : Nat} {s : State} (k : Keeps a s) : Keeps a (doRollback h gid s) := by
  unfold doRollback
  repeat' first
    | with_reducible assumption | split | with_reducible apply rollbackGroup_keeps | with_reducible apply startRollback_keeps

theorem execGroupRollback_keeps {a : State} {h : Fin 16} {g : BitVec 16} {s : State} (k : Keeps a s) : ∀ z, execGroupRollback h
    g s = .next z → Keeps a z := by
  intro z e; cases e
  repeat' first | with_reducible assumption | with_reducible apply doRollback_keeps

theorem doGroupIdle_keeps {a : State} {h gid : Nat} {s : State} (k : Keeps a s) : Keeps a (doGroupIdle h gid s) := by
  unfold doGroupIdle
  repeat' first
    | with_reducible assumption | split | with_reducible apply startRollback_keeps | with_reducible apply raiseH_keeps
    | with_reducible apply Keeps.ite

theorem execGroupIdleTimeout_keeps {a : State} {h : Fin 16} {g : BitVec 16} {s : State} (k : Keeps a s) : ∀ z,
    execGroupIdleTimeout h g s = .next z → Keeps a z := by
  intro z e; cases e
  repeat' first | with_reducible assumption | with_reducible apply doGroupIdle_keeps

theorem decideGang_keeps {a : State} {r : GangRef} {owner : Nat} {s : State} (k : Keeps a s) : Keeps a (decideGang r owner s)
    := by
  unfold decideGang; dsimp only
  repeat' first
    | with_reducible assumption | split | with_reducible refine recordDecision_keeps ?_ _ (by assumption)
    | with_reducible apply State.modGang_keeps | with_reducible apply errFlueReg_keeps

theorem doGangVote_keeps {a : State} {h gid : Nat} {s : State} (k : Keeps a s) : Keeps a (doGangVote h gid s) := by
  unfold doGangVote
  repeat' first
    | with_reducible assumption | split | with_reducible apply State.modGroup_keeps | with_reducible apply decideGang_keeps
    | with_reducible apply State.modGang_keeps | with_reducible apply startRollback_keeps

theorem execGangVote_keeps {a : State} {h : Fin 16} {g : BitVec 16} {s : State} (k : Keeps a s) : ∀ z, execGangVote h g s =
    .next z → Keeps a z := by
  intro z e; cases e
  repeat' first | with_reducible assumption | with_reducible apply doGangVote_keeps

theorem doGangTimeout_keeps {a : State} {stack tag : Nat} {s : State} (k : Keeps a s) : Keeps a (doGangTimeout stack tag s)
    := by
  unfold doGangTimeout
  repeat' first
    | with_reducible assumption | split | with_reducible apply State.modGang_keeps | with_reducible apply raiseFlue_keeps
    | with_reducible apply errFlueReg_keeps

theorem execGangTimeout_keeps {a : State} {stack : Fin 32} {tag : Word} {s : State} (k : Keeps a s) : ∀ z, execGangTimeout stack
    tag s = .next z → Keeps a z := by
  intro z e; cases e
  repeat' first | with_reducible assumption | with_reducible apply doGangTimeout_keeps

theorem doVaultStep_keeps {a : State} {r : Nat} {s : State} (k : Keeps a s) : Keeps a (doVaultStep r s) := by
  unfold doVaultStep
  repeat' first
    | with_reducible assumption | split | with_reducible apply State.modVault_keeps | with_reducible apply State.modGang_keeps
    | exact ⟨(countRecord_keepsV _ _).1, (countRecord_keepsV _ _).2⟩ | (intro _)

theorem execVaultStepDone_keeps {a : State} {record : Fin 16} {s : State} (k : Keeps a s) : ∀ z, execVaultStepDone record s =
    .next z → Keeps a z := by
  intro z e; cases e
  repeat' first | with_reducible assumption | with_reducible apply doVaultStep_keeps

theorem doGangCommit_keeps {a : State} {h gid : Nat} {s : State} (k : Keeps a s) : Keeps a (doGangCommit h gid s) := by
  unfold doGangCommit
  repeat' first | with_reducible assumption | with_reducible apply applyGroup_keeps | with_reducible apply Keeps.ite | split

theorem execGangCommitMsg_keeps {a : State} {h : Fin 16} {g : BitVec 16} {s : State} (k : Keeps a s) : ∀ z, execGangCommitMsg h
    g s = .next z → Keeps a z := by
  intro z e; cases e
  repeat' first | with_reducible assumption | with_reducible apply doGangCommit_keeps

theorem abortMember_keeps {a : State} {h gid : Nat} {causes : Nat × Nat} {s : State} (k : Keeps a s) : Keeps a (abortMember h
    gid causes s) := by
  unfold abortMember
  repeat' first | with_reducible assumption | with_reducible apply State.modGroup_keeps

theorem doGangAbort_keeps {a : State} {h gid : Nat} {s : State} (k : Keeps a s) : Keeps a (doGangAbort h gid s) := by
  unfold doGangAbort
  repeat' first
    | with_reducible assumption | split | with_reducible apply rollbackGroup_keeps | with_reducible apply abortMember_keeps

theorem execGangAbortMsg_keeps {a : State} {h : Fin 16} {g : BitVec 16} {s : State} (k : Keeps a s) : ∀ z, execGangAbortMsg h g
    s = .next z → Keeps a z := by
  intro z e; cases e
  repeat' first | with_reducible assumption | with_reducible apply doGangAbort_keeps

theorem vfOp_keeps {a : State} {f : Nat → AdminReq → State → State × Adm} {r : AdminReq} {s : State} (hf : ∀ x0 x1 x2, Keeps a
    x2 → Keeps a (f x0 x1 x2).1) (k : Keeps a s) : Keeps a (vfOp f r s).1 := by
  unfold vfOp
  repeat' first | with_reducible assumption | with_reducible apply hf

theorem takePosition_keeps {a : State} {h v owner p : Nat} {s : State} (k : Keeps a s) : Keeps a (takePosition h v owner p s)
    := by
  unfold takePosition
  repeat' first | with_reducible assumption | with_reducible apply State.wr_keeps | with_reducible apply State.modVf_keeps

theorem bindVf_keeps {a : State} {v : Nat} {r : AdminReq} {s : State} (k : Keeps a s) : Keeps a (bindVf v r s).1 := by
  unfold bindVf; dsimp only
  repeat' first
    | with_reducible assumption | split | with_reducible apply bindEntry_keeps | with_reducible apply State.modVf_keeps
    | with_reducible apply takePosition_keeps

theorem execBindVf_keeps {a : State} {q : Fin 4} {rd : AdminRead} {s : State} (k : Keeps a s) : ∀ z, execBindVf q rd s = .next z
    → Keeps a z := by
  intro z e; refine adminRow_keeps ?_ ?_ z e
  all_goals
    repeat' first
      | with_reducible assumption | with_reducible apply vfOp_keeps | with_reducible apply bindVf_keeps | (intro _ _ _)

theorem boundOp_keeps {a : State} {f : Nat → AdminReq → State → State × Adm} {y1 : AdminReq} {y2 : State} (hf : ∀ x0 x1 x2,
    Keeps a x2 → Keeps a (f x0 x1 x2).1) (k : Keeps a y2) : Keeps a (boundOp f y1 y2).1 := by
  unfold boundOp
  repeat' first
    | with_reducible assumption | split | with_reducible apply vfOp_keeps | (intros; with_reducible assumption) | (intro _ _ _)
    | with_reducible apply hf

theorem quiescedOp_keeps {a : State} {f : Nat → AdminReq → State → State × Adm} {y1 : AdminReq} {y2 : State} (hf : ∀ x0 x1 x2,
    Keeps a x2 → Keeps a (f x0 x1 x2).1) (k : Keeps a y2) : Keeps a (quiescedOp f y1 y2).1 := by
  unfold quiescedOp
  repeat' first
    | with_reducible assumption | split | with_reducible apply boundOp_keeps | (intros; with_reducible assumption)
    | (intro _ _ _) | with_reducible apply hf

theorem leavePosition_keeps {a : State} {h p : Nat} {s : State} (k : Keeps a s) : Keeps a (leavePosition h p s) := by
  unfold leavePosition
  repeat' first | with_reducible assumption | with_reducible apply State.wr_keeps

theorem dropVfKeys_keeps {a : State} {h v : Nat} {gone : Bool} {s : State} (k : Keeps a s) : Keeps a (dropVfKeys h v gone s)
    := by
  unfold dropVfKeys
  repeat' first
    | with_reducible assumption | with_reducible apply dropFromEntry_keeps | with_reducible apply Keeps.foldl | (intro _ _ _)

theorem clearEntry_keeps {a : State} {v : Nat} {s : State} (k : Keeps a s) : Keeps a (clearEntry v s) := by
  unfold clearEntry
  repeat' first | with_reducible assumption | with_reducible apply State.setFt_keeps

theorem liftCompat_keeps {a : State} {h : Nat} {s : State} (k : Keeps a s) : Keeps a (liftCompat h s) := by
  unfold liftCompat
  repeat' first | with_reducible assumption | split | with_reducible apply State.modH_keeps | (intros; exact .same rfl rfl rfl)

theorem unbindVf_keeps {a : State} {v : Nat} {y1 : AdminReq} {s : State} (k : Keeps a s) : Keeps a (unbindVf v y1 s).1 := by
  unfold unbindVf
  repeat' first
    | with_reducible assumption | with_reducible apply leavePosition_keeps | with_reducible apply dropVfKeys_keeps
    | with_reducible apply State.modVf_keeps | with_reducible apply clearEntry_keeps | with_reducible apply resetQueues_keeps
    | with_reducible apply liftCompat_keeps

theorem execUnbindVf_keeps {a : State} {q : Fin 4} {rd : AdminRead} {s : State} (k : Keeps a s) : ∀ z, execUnbindVf q rd s =
    .next z → Keeps a z := by
  intro z e; refine adminRow_keeps ?_ ?_ z e
  all_goals
    repeat' first
      | with_reducible assumption | with_reducible apply quiescedOp_keeps | with_reducible apply unbindVf_keeps | (intro _ _ _)

theorem moveVf_keeps {a : State} {v : Nat} {r : AdminReq} {s : State} (k : Keeps a s) : Keeps a (moveVf v r s).1 := by
  unfold moveVf; dsimp only
  repeat' first
    | with_reducible assumption | split | with_reducible apply leavePosition_keeps | with_reducible apply dropVfKeys_keeps
    | with_reducible apply takePosition_keeps | with_reducible apply State.setFt_keeps | with_reducible apply State.modH_keeps
    | with_reducible apply liftCompat_keeps | (intros; exact .same rfl rfl rfl)

theorem execMoveVf_keeps {a : State} {q : Fin 4} {rd : AdminRead} {s : State} (k : Keeps a s) : ∀ z, execMoveVf q rd s = .next z
    → Keeps a z := by
  intro z e; refine adminRow_keeps ?_ ?_ z e
  all_goals
    repeat' first
      | with_reducible assumption | with_reducible apply quiescedOp_keeps | with_reducible apply moveVf_keeps | (intro _ _ _)

theorem resetVf_keeps {a : State} {v : Nat} {y1 : AdminReq} {s : State} (k : Keeps a s) : Keeps a (resetVf v y1 s).1 := by
  unfold resetVf
  repeat' first
    | with_reducible assumption | with_reducible apply clearLeft_keeps | with_reducible apply dropVfKeys_keeps
    | with_reducible apply resetQueues_keeps | with_reducible apply State.resetPage_keeps | with_reducible apply Keeps.foldl
    | (intro _ _ _)

theorem execResetVf_keeps {a : State} {q : Fin 4} {rd : AdminRead} {s : State} (k : Keeps a s) : ∀ z, execResetVf q rd s = .next
    z → Keeps a z := by
  intro z e; refine adminRow_keeps ?_ ?_ z e
  all_goals
    repeat' first
      | with_reducible assumption | with_reducible apply quiescedOp_keeps | with_reducible apply resetVf_keeps | (intro _ _ _)

theorem setQpGrant_keeps {a : State} {v : Nat} {r : AdminReq} {s : State} (k : Keeps a s) : Keeps a (setQpGrant v r s).1 := by
  unfold setQpGrant; dsimp only
  repeat' first | with_reducible assumption | split | with_reducible apply State.setFt_keeps

theorem execSetQpGrant_keeps {a : State} {q : Fin 4} {rd : AdminRead} {s : State} (k : Keeps a s) : ∀ z, execSetQpGrant q rd s =
    .next z → Keeps a z := by
  intro z e; refine adminRow_keeps ?_ ?_ z e
  all_goals
    repeat' first
      | with_reducible assumption | with_reducible apply boundOp_keeps | with_reducible apply setQpGrant_keeps | (intro _ _ _)

theorem setDraught_keeps {a : State} {v : Nat} {r : AdminReq} {s : State} (k : Keeps a s) : Keeps a (setDraught v r s).1 := by
  unfold setDraught
  repeat' first | with_reducible assumption | with_reducible apply State.setFt_keeps | with_reducible apply State.modVf_keeps

theorem execSetDraught_keeps {a : State} {q : Fin 4} {rd : AdminRead} {s : State} (k : Keeps a s) : ∀ z, execSetDraught q rd s =
    .next z → Keeps a z := by
  intro z e; refine adminRow_keeps ?_ ?_ z e
  all_goals
    repeat' first
      | with_reducible assumption | with_reducible apply boundOp_keeps | with_reducible apply setDraught_keeps | (intro _ _ _)

theorem setEngineShare_keeps {a : State} {v : Nat} {r : AdminReq} {s : State} (k : Keeps a s) : Keeps a (setEngineShare v r s).1
    := by
  unfold setEngineShare
  repeat' first | with_reducible assumption | with_reducible apply State.setFt_keeps

theorem execSetEngineShare_keeps {a : State} {q : Fin 4} {rd : AdminRead} {s : State} (k : Keeps a s) : ∀ z, execSetEngineShare
    q rd s = .next z → Keeps a z := by
  intro z e; refine adminRow_keeps ?_ ?_ z e
  all_goals
    repeat' first
      | with_reducible assumption | with_reducible apply boundOp_keeps | with_reducible apply setEngineShare_keeps
      | (intro _ _ _)

theorem damperRow_keeps {a : State} {n : Nat} {q : Fin 4} {rd : AdminRead} {f : Nat → AdminReq → State → State × Adm} {s : State}
    (hf : ∀ x0 x1 x2, Keeps a x2 → Keeps a (f x0 x1 x2).1) (hs : Keeps a s) : ∀ z, damperRow n q rd f s = .next z → Keeps a z := by
  intro z e; unfold damperRow at e; split at e
  · cases e; exact hs
  · exact adminRow_keeps (fun x0 x1 k => boundOp_keeps hf k) hs _ e

theorem damperOpen_keeps {a : State} {v : Nat} {y1 : AdminReq} {s : State} (k : Keeps a s) : Keeps a (damperOpen v y1 s).1 := by
  unfold damperOpen
  repeat' first
    | with_reducible assumption | split | with_reducible apply State.setDamper_keeps | with_reducible apply finishWaits_keeps
    | with_reducible apply Keeps.ite

theorem execSetDamperOpen_keeps {a : State} {q : Fin 4} {rd : AdminRead} {s : State} (k : Keeps a s) : ∀ z, execSetDamperOpen q
    rd s = .next z → Keeps a z := by
  intro z e; refine damperRow_keeps ?_ ?_ z e
  all_goals
    repeat' first | with_reducible assumption | with_reducible apply damperOpen_keeps

theorem damperThrottle_keeps {a : State} {v : Nat} {r : AdminReq} {s : State} (k : Keeps a s) : Keeps a (damperThrottle v r s).1
    := by
  unfold damperThrottle; dsimp only
  repeat' first
    | with_reducible assumption | split | with_reducible apply State.modVf_keeps | with_reducible apply State.setDamper_keeps

theorem execSetDamperThrottle_keeps {a : State} {q : Fin 4} {rd : AdminRead} {s : State} (k : Keeps a s) : ∀ z,
    execSetDamperThrottle q rd s = .next z → Keeps a z := by
  intro z e; refine damperRow_keeps ?_ ?_ z e
  all_goals
    repeat' first | with_reducible assumption | with_reducible apply damperThrottle_keeps

theorem damperClose_keeps {a : State} {v : Nat} {y1 : AdminReq} {s : State} (k : Keeps a s) : Keeps a (damperClose v y1 s).1
    := by
  unfold damperClose
  repeat' first | with_reducible assumption | split | with_reducible apply enterClosing_keeps

theorem execSetDamperClose_keeps {a : State} {q : Fin 4} {rd : AdminRead} {s : State} (k : Keeps a s) : ∀ z, execSetDamperClose
    q rd s = .next z → Keeps a z := by
  intro z e; refine damperRow_keeps ?_ ?_ z e
  all_goals
    repeat' first | with_reducible assumption | with_reducible apply damperClose_keeps

theorem damperCloseWait_keeps {a : State} {v : Nat} {r : AdminReq} {s : State} (k : Keeps a s) : Keeps a (damperCloseWait v r
    s).1 := by
  unfold damperCloseWait
  repeat' first
    | with_reducible assumption | split | with_reducible apply damperClose_keeps
    | with_reducible apply Keeps.fst (by assumption) | done

theorem execSetDamperCloseWait_keeps {a : State} {q : Fin 4} {rd : AdminRead} {s : State} (k : Keeps a s) : ∀ z,
    execSetDamperCloseWait q rd s = .next z → Keeps a z := by
  intro z e; refine damperRow_keeps ?_ ?_ z e
  all_goals
    repeat' first | with_reducible assumption | with_reducible apply damperCloseWait_keeps

theorem setCompat_keeps {a : State} {r : AdminReq} {s : State} (k : Keeps a s) : Keeps a (setCompat r s).1 := by
  unfold setCompat; dsimp only
  repeat' first | with_reducible assumption | split | with_reducible apply State.modH_keeps | (intros; exact .same rfl rfl rfl)

theorem execSetCompat_keeps {a : State} {q : Fin 4} {rd : AdminRead} {s : State} (k : Keeps a s) : ∀ z, execSetCompat q rd s =
    .next z → Keeps a z := by
  intro z e; refine adminRow_keeps ?_ ?_ z e
  all_goals
    repeat' first | with_reducible assumption | with_reducible apply setCompat_keeps

theorem setInflight_keeps {a : State} {v : Nat} {r : AdminReq} {s : State} (k : Keeps a s) : Keeps a (setInflight v r s).1 := by
  unfold setInflight
  repeat' first | with_reducible assumption | with_reducible apply State.setFt_keeps

theorem execSetInflight_keeps {a : State} {q : Fin 4} {rd : AdminRead} {s : State} (k : Keeps a s) : ∀ z, execSetInflight q rd s
    = .next z → Keeps a z := by
  intro z e; refine adminRow_keeps ?_ ?_ z e
  all_goals
    repeat' first
      | with_reducible assumption | with_reducible apply boundOp_keeps | with_reducible apply setInflight_keeps | (intro _ _ _)

theorem stackDefine_keeps {a : State} {r : AdminReq} {s : State} (k : Keeps a s) : Keeps a (stackDefine r s).1 := by
  unfold stackDefine; dsimp only
  repeat' first | with_reducible assumption | split | with_reducible apply State.modFlue_keeps

theorem execStackDefine_keeps {a : State} {q : Fin 4} {rd : AdminRead} {s : State} (k : Keeps a s) : ∀ z, execStackDefine q rd s
    = .next z → Keeps a z := by
  intro z e; refine adminRow_keeps ?_ ?_ z e
  all_goals
    repeat' first | with_reducible assumption | with_reducible apply stackDefine_keeps

theorem updateEngine_keeps {a s : State} {d m : Bytes} (k : Keeps a s) : Keeps a (updateEngine s d m) := by
  unfold updateEngine; dsimp only
  repeat' first
    | with_reducible assumption | split | with_reducible apply clearLines_keeps | with_reducible apply State.modEng_keeps

theorem slotUpdateAlone_keeps {a : State} {r : AdminReq} {s : State} (k : Keeps a s) : Keeps a (slotUpdateAlone r s).1 := by
  unfold slotUpdateAlone; dsimp only
  repeat' first
    | with_reducible assumption | split | with_reducible apply State.modVault_keeps | with_reducible apply State.modH_keeps
    | (intros; exact .same rfl rfl rfl) | (intros; exact ⟨rfl, rfl⟩)

theorem slotUpdateJoined_keeps {a : State} {r : AdminReq} {s : State} (k : Keeps a s) : Keeps a (slotUpdateJoined r s).1 := by
  unfold slotUpdateJoined; dsimp only
  repeat' first
    | with_reducible assumption | split | with_reducible apply joinGroup_keeps | with_reducible apply State.modGroup_keeps
    | with_reducible apply Keeps.fst (by assumption) | done

theorem slotUpdate_keeps {a : State} {r : AdminReq} {s : State} (k : Keeps a s) : Keeps a (slotUpdate r s).1 := by
  unfold slotUpdate
  repeat' first
    | with_reducible assumption | split | with_reducible apply updateEngine_keeps | with_reducible apply slotUpdateAlone_keeps
    | with_reducible apply slotUpdateJoined_keeps

theorem execSlotUpdate_keeps {a : State} {q : Fin 4} {rd : AdminRead} {s : State} (hs : Keeps a s) : ∀ z, execSlotUpdate q rd s = .next z → Keeps a z := by
  intro z e; unfold execSlotUpdate at e; split at e
  · cases e; exact hs
  · exact adminRow_keeps (fun x0 x1 k => slotUpdate_keeps k) hs _ e

theorem slotTableLoad_keeps {a : State} {r : AdminReq} {s : State} (k : Keeps a s) : Keeps a (slotTableLoad r s).1 := by
  unfold slotTableLoad; dsimp only
  repeat' first
    | with_reducible assumption | split | with_reducible apply derived_keeps | with_reducible apply State.modH_keeps
    | with_reducible apply raiseH_keeps | with_reducible apply Keeps.foldl | (intros; exact .same rfl rfl rfl) | (intro _ _ _)

theorem execSlotTableLoad_keeps {a : State} {q : Fin 4} {rd : AdminRead} {s : State} (k : Keeps a s) : ∀ z, execSlotTableLoad q
    rd s = .next z → Keeps a z := by
  intro z e; refine adminRow_keeps ?_ ?_ z e
  all_goals
    repeat' first | with_reducible assumption | with_reducible apply slotTableLoad_keeps

theorem ownershipBegin_keeps {a : State} {r : AdminReq} {s : State} (hs : Keeps a s) : Keeps a (ownershipBegin r s).1 := by
  unfold ownershipBegin
  have k := State.modFlue_keeps (f := fun x => { x with ceremony := none }) hs
  generalize s.modFlue (fun x => { x with ceremony := none }) = t at *
  dsimp only; split
  · exact k
  · split
    · exact k
    · rename_i e; split at e
      · have k2 := drbgRequest_keeps k _ e
        dsimp only at k2 ⊢; with_reducible apply State.modFlue_keeps; exact k2
      · cases e

theorem execOwnershipBegin_keeps {a : State} {q : Fin 4} {rd : AdminRead} {s : State} (k : Keeps a s) : ∀ z, execOwnershipBegin
    q rd s = .next z → Keeps a z := by
  intro z e; refine adminRow_keeps ?_ ?_ z e
  all_goals
    repeat' first | with_reducible assumption | with_reducible apply ownershipBegin_keeps

theorem ownershipAuthorise_keeps {a : State} {r : AdminReq} {s : State} (k : Keeps a s) : Keeps a (ownershipAuthorise r s).1
    := by
  unfold ownershipAuthorise
  repeat' first | with_reducible assumption | split | with_reducible apply State.modFlue_keeps

theorem execOwnershipAuthorise_keeps {a : State} {q : Fin 4} {rd : AdminRead} {s : State} (k : Keeps a s) : ∀ z,
    execOwnershipAuthorise q rd s = .next z → Keeps a z := by
  intro z e; refine adminRow_keeps ?_ ?_ z e
  all_goals
    repeat' first | with_reducible assumption | with_reducible apply ownershipAuthorise_keeps

theorem drawEmbers_keeps {a : State} {l : List Nat} {s : State} (hs : Keeps a s) : ∀ z, drawEmbers l s = some z → Keeps a z.2.2 := by
  induction l generalizing s with
  | nil => intro z hz; cases hz; exact hs
  | cons x r ih =>
    intro z hz; unfold drawEmbers at hz
    repeat' split at hz
    all_goals cases hz
    rename_i e1 _ _ _ e2 _ _ _ _ e3
    have k := ih (drbgLower_keeps (drbgLower_keeps hs _ e1) _ e2) _ e3
    exact k

theorem shareValue_keeps {a : State} {v : Bytes} {s : State} (k : Keeps a s) : Keeps a (shareValue v s).2 := by
  unfold shareValue
  repeat' first
    | with_reducible assumption | with_reducible apply State.free_keeps | with_reducible apply Keeps.snd (by assumption) | done

theorem blowWord_keeps {a : State} {w : Nat} {s : State} (hs : Keeps a s) : Keeps a (blowWord w s) :=
  raiseFlue_keeps (State.modChim_keeps hs ⟨fun e => Fuses.put_fits e (e w) (Nat.le_refl _), id⟩)

theorem ownershipComplete_keeps {a : State} {y0 : AdminReq} {s : State} (k : Keeps a s) : Keeps a (ownershipComplete y0 s).1
    := by
  unfold ownershipComplete
  repeat' first
    | with_reducible assumption | split | with_reducible apply State.modFlue_keeps
    | with_reducible refine drawEmbers_keeps ?_ _ (by assumption) | with_reducible apply shareValue_keeps
    | with_reducible apply State.modH_keeps | with_reducible apply State.modVault_keeps
    | with_reducible apply lifecycleMoved_keeps | with_reducible apply blowWord_keeps | with_reducible apply State.free_keeps
    | with_reducible apply refreshPins_keeps | with_reducible apply Keeps.foldl
    | with_reducible apply Keeps.snd (by assumption) | (intros; exact .same rfl rfl rfl) | (intros; exact ⟨rfl, rfl⟩)
    | (intro _ _ _)

theorem execOwnershipComplete_keeps {a : State} {q : Fin 4} {rd : AdminRead} {s : State} (k : Keeps a s) : ∀ z,
    execOwnershipComplete q rd s = .next z → Keeps a z := by
  intro z e; refine adminRow_keeps ?_ ?_ z e
  all_goals
    repeat' first | with_reducible assumption | with_reducible apply ownershipComplete_keeps

theorem doCeremonyExpiry_keeps {a s : State} (k : Keeps a s) : Keeps a (doCeremonyExpiry s) := by
  unfold doCeremonyExpiry
  repeat' first | with_reducible assumption | split | with_reducible apply State.modFlue_keeps

theorem execCeremonyExpiry_keeps {a s : State} (k : Keeps a s) : ∀ z, execCeremonyExpiry s = .next z → Keeps a z := by
  intro z e; cases e
  repeat' first | with_reducible assumption | with_reducible apply doCeremonyExpiry_keeps

theorem l1Store_keeps {a : State} {h core : Nat} {fetch : Bool} {ls : List CacheLine} {s : State} (k : Keeps a s) : Keeps a
    (l1Store h core fetch ls s) := by
  unfold l1Store
  repeat' first | with_reducible assumption | with_reducible apply State.modCaches_keeps

theorem writeBack_keeps {a : State} {h : Nat} {c : CacheLine} {s : State} (k : Keeps a s) : Keeps a (writeBack h c s) := by
  unfold writeBack; dsimp only
  repeat' first
    | with_reducible assumption | split | with_reducible apply ddrAccess_keeps | with_reducible apply State.modH_keeps
    | (refine ⟨id, fun e => memPut_wf _ _ _ e, id⟩) | (refine ⟨id, id, fun e => memPut_wf _ _ _ e⟩) | (intro _)

theorem l2Put_keeps {a : State} {h : Nat} {c : CacheLine} {s : State} (k : Keeps a s) : Keeps a (l2Put h c s) := by
  unfold l2Put; dsimp only
  repeat' first | with_reducible assumption | split | with_reducible apply l2Store_keeps | with_reducible apply writeBack_keeps

theorem cleanPeers_keeps {a : State} {h line : Nat} {outer : Bool} {s : State} (k : Keeps a s) : Keeps a (cleanPeers h line
    outer s) := by
  unfold cleanPeers
  repeat' first
    | with_reducible assumption | split | with_reducible apply l1Store_keeps | with_reducible apply l2Put_keeps
    | with_reducible apply Keeps.foldl | (intro _ _ _)

theorem checkAccess_keeps {a : State} {h : Nat} {q : Req} {y2 : Nat} {c : LineCheck} {s : State} (k : Keeps a s) : Keeps a
    (checkAccess h q y2 c s).1 := by
  unfold checkAccess
  repeat' first | with_reducible assumption | split | with_reducible apply violate_keeps | with_reducible apply ddrCheck_keeps

theorem dropPeers_keeps {a : State} {h line : Nat} {outer : Bool} {f : Nat → Bool} {s : State} (k : Keeps a s) : Keeps a
    (dropPeers h line outer f s) := by
  unfold dropPeers
  repeat' first
    | with_reducible assumption | with_reducible apply l1Store_keeps | with_reducible apply Keeps.foldl | (intro _ _ _)

theorem debugCached_keeps {a : State} {h : Nat} {q : Req} {y2 n : Nat} {d : Bytes} {c : LineCheck} {s : State} (k : Keeps a s) :
    Keeps a (debugCached h q y2 n d c s).1 := by
  unfold debugCached; dsimp only
  repeat' first
    | with_reducible assumption | split | with_reducible apply cleanPeers_keeps | with_reducible apply fabric_keeps
    | with_reducible apply checkAccess_keeps | with_reducible apply dropPeers_keeps | with_reducible apply l2Put_keeps
    | with_reducible apply Keeps.fst (by assumption) | done

theorem l1Put_keeps {a : State} {h core : Nat} {fetch : Bool} {c : CacheLine} {s : State} (k : Keeps a s) : Keeps a (l1Put h
    core fetch c s) := by
  unfold l1Put
  repeat' first
    | with_reducible assumption | with_reducible apply l1Store_keeps | with_reducible apply State.free_keeps
    | with_reducible apply l2Put_keeps | with_reducible apply Keeps.snd (by assumption) | with_reducible apply Keeps.ite

theorem writeThrough_keeps {a : State} {h : Nat} {q : Req} {y2 n : Nat} {d : Bytes} {c : LineCheck} {s : State} (k : Keeps a s)
    : Keeps a (writeThrough h q y2 n d c s).1 := by
  unfold writeThrough; dsimp only
  repeat' first
    | with_reducible assumption | split | with_reducible apply fabric_keeps | with_reducible apply cleanPeers_keeps
    | with_reducible apply dropPeers_keeps | with_reducible apply l2Put_keeps | with_reducible apply l1Put_keeps
    | with_reducible apply Keeps.fst (by assumption) | done

theorem l2Touch_keeps {a : State} {h line : Nat} {outer : Bool} {s : State} (k : Keeps a s) : Keeps a (l2Touch h line outer s)
    := by
  unfold l2Touch
  repeat' first | with_reducible assumption | with_reducible apply l2Store_keeps

theorem fillLine_keeps {a : State} {h : Nat} {q : Req} {line : Nat} {c : LineCheck} {s : State} (k : Keeps a s) : Keeps a
    (fillLine h q line c s).1 := by
  unfold fillLine; dsimp only
  repeat' first | with_reducible assumption | split | with_reducible apply ddrData_keeps

theorem getLine_keeps {a : State} {h : Nat} {q : Req} {line : Nat} {c : LineCheck} {s : State} (k : Keeps a s) : Keeps a
    (getLine h q line c s).1 := by
  unfold getLine; dsimp only
  repeat' first
    | with_reducible assumption | split | with_reducible apply cleanPeers_keeps | with_reducible apply l1Put_keeps
    | with_reducible apply l2Touch_keeps | with_reducible apply fillLine_keeps | with_reducible apply l2Put_keeps
    | with_reducible apply Keeps.fst (by assumption) | done

theorem coreCached_keeps {a : State} {h : Nat} {q : Req} {y2 n : Nat} {d : Bytes} {c : LineCheck} {s : State} (k : Keeps a s) :
    Keeps a (coreCached h q y2 n d c s).1 := by
  unfold coreCached; dsimp only
  repeat' first
    | with_reducible assumption | split | with_reducible apply writeThrough_keeps | with_reducible apply checkAccess_keeps
    | with_reducible apply getLine_keeps | with_reducible apply dropPeers_keeps | with_reducible apply l1Put_keeps
    | with_reducible apply Keeps.fst (by assumption) | done

theorem lineAccess_keeps {a : State} {h : Nat} {q : Req} {y2 n : Nat} {d : Bytes} {c : LineCheck} {s : State} (k : Keeps a s) :
    Keeps a (lineAccess h q y2 n d c s).1 := by
  unfold lineAccess
  repeat' first
    | with_reducible assumption | split | with_reducible apply fabric_keeps | with_reducible apply debugCached_keeps
    | with_reducible apply coreCached_keeps

theorem spanAccess_keeps {a : State} {h : Nat} {q : Req} {y2 n : Nat} {d : Bytes} {c : LineCheck} {s : State} (k : Keeps a s) :
    Keeps a (spanAccess h q y2 n d c s).1 := by
  unfold spanAccess
  repeat' first
    | with_reducible assumption | split | with_reducible apply lineAccess_keeps | with_reducible apply Keeps.foldlP
    | with_reducible apply Keeps.fst (by assumption) | (intro _ _ _)

theorem flushL1_keeps {a : State} {h core : Nat} {s : State} (k : Keeps a s) : Keeps a (flushL1 h core s) := by
  unfold flushL1
  repeat' first
    | with_reducible assumption | with_reducible apply l2Put_keeps | with_reducible apply State.modCaches_keeps
    | with_reducible apply Keeps.foldl | (intro _ _ _)

end Sys2Proof.Machine
end

