-- ==== Sys2Proof/Laws/KeepsStart.lean ====
section
/-! SUPPORT. What one step can do to the whole state (`Keeps`), function by function: the cores, hearth start, the vault, tamper and lifecycle, the resets. -/

namespace Sys2Proof.Machine

theorem quitUnit_keeps {a : State} {h u v : Nat} {s : State} (k : Keeps a s) : Keeps a (quitUnit h u v s) := by
  unfold quitUnit
  repeat' first
    | with_reducible assumption | split | with_reducible apply clearLeft_keeps | with_reducible apply State.modEng_keeps

theorem abortJob_keeps {a : State} {h j : Nat} {s : State} (k : Keeps a s) : Keeps a (abortJob h j s) := by
  unfold abortJob
  repeat' first
    | with_reducible assumption | split | with_reducible apply releaseUnits_keeps | with_reducible apply quitUnit_keeps
    | with_reducible apply freeEntry_keeps | with_reducible apply dropGroups_keeps | with_reducible apply removeJob_keeps
    | with_reducible apply Keeps.foldl | (intro _ _ _)

theorem flrStart_keeps {a : State} {v : Nat} {s : State} (k : Keeps a s) : Keeps a (flrStart v s) := by
  unfold flrStart
  repeat' first
    | with_reducible assumption | with_reducible apply State.modVf_keeps | with_reducible apply State.setDamper_keeps
    | with_reducible apply State.setFt_keeps | with_reducible apply startRollback_keeps | with_reducible apply abortJob_keeps
    | with_reducible apply raiseH_keeps | with_reducible apply Keeps.foldl | with_reducible apply Keeps.ite | (intro _ _ _)

theorem resetFunction_keeps {a : State} {fn : Func} {s : State} (k : Keeps a s) : Keeps a (resetFunction fn s) := by
  unfold resetFunction
  repeat' first
    | with_reducible assumption | split | with_reducible apply State.resetPage_keeps | with_reducible apply Keeps.foldl
    | (intro _ _ _)

theorem wipeQueues_keeps {a : State} {v : Nat} {s : State} (k : Keeps a s) : Keeps a (wipeQueues v s) := by
  unfold wipeQueues
  repeat' first
    | with_reducible assumption | with_reducible apply resetQueues_keeps | with_reducible apply resetFunction_keeps
    | with_reducible apply State.resetPage_keeps

theorem vfReset_keeps {a : State} {v : Nat} {s : State} (k : Keeps a s) : Keeps a (vfReset v s) := by
  unfold vfReset
  repeat' first
    | with_reducible assumption | split | with_reducible apply flrStart_keeps | with_reducible apply wipeQueues_keeps

theorem allVfsReset_keeps {a s : State} (k : Keeps a s) : Keeps a (allVfsReset s) := by
  unfold allVfsReset
  repeat' first
    | with_reducible assumption | split | with_reducible apply vfReset_keeps | with_reducible apply State.resetPages_keeps
    | with_reducible apply State.modFlue_keeps | with_reducible apply resetFunction_keeps | with_reducible apply Keeps.foldl
    | (intro _ _ _)

theorem resetFluePages_keeps {a s : State} (hs : Keeps a s) : Keeps a (resetFluePages s) := by
  unfold resetFluePages; exact (State.resetPages_keeps hs).regsUpd (fun e => (e.filter _).filter _)

theorem raiseTamper_keeps {a : State} {n : Nat} {entry : Bytes} {s : State} (k : Keeps a s) : Keeps a (raiseTamper n entry s)
    := by
  unfold raiseTamper
  repeat' first | with_reducible assumption | split | with_reducible apply raiseFlue_keeps

theorem logEntry_keeps {a : State} {kind source resp flags : Nat} {s : State} (k : Keeps a s) : Keeps a (logEntry kind source
    resp flags s).1 := by
  unfold logEntry; dsimp only
  repeat' first
    | with_reducible assumption | split | with_reducible apply State.modVault_keeps | with_reducible apply raiseTamper_keeps
    | (intros; exact ⟨rfl, rfl⟩)

theorem loseVault_keeps {a s : State} (hs : Keeps a s) : Keeps a (loseVault s) := by
  unfold loseVault
  have k := State.modVault_keepsG (f := fun _ => { intact := true, lost := true, resp := defaultTable, sticky := 2 ^ 12, level := defResp 12 }) hs
    (fun _ _ => defaultTable_guarded)
  generalize s.modVault (fun _ => { intact := true, lost := true, resp := defaultTable, sticky := 2 ^ 12, level := defResp 12 }) = t at *
  have k1 := logEntry_keeps (kind := kLost) (source := 0xFF) (resp := 0) (flags := 0) k
  extract_lets
  generalize logEntry kLost 0xFF 0 0 t = p at *
  obtain ⟨t1, b⟩ := p
  dsimp only at *
  have k2 := logEntry_keeps (kind := kTrip) (source := 12) (resp := defResp 12) (flags := 0) k1
  generalize logEntry kTrip 12 (defResp 12) 0 t1 = p at *
  obtain ⟨t2, c⟩ := p
  exact refreshPins_keeps (raiseTamper_keeps (raiseTamper_keeps k2))

theorem vaultAtFlueStart_keeps {a s : State} (hs : Keeps a s) : Keeps a (vaultAtFlueStart s) := by
  unfold vaultAtFlueStart
  have k0 : Keeps a (if s.chim.vault.intact then s.modVault (fun v => { v with lost := false }) else loseVault s) :=
    Keeps.ite (State.modVault_keeps hs (fun _ => ⟨rfl, rfl⟩)) (loseVault_keeps hs)
  generalize (if s.chim.vault.intact then s.modVault (fun v => { v with lost := false }) else loseVault s) = t at *
  have k := State.modVault_keeps (f := fun v => freeRecords ((v.records.map (·.1)).foldl (fun v r => countRecord r v) v)) k0
    (fun v => ⟨(countAll_keepsV _ v).1, (countAll_keepsV _ v).2⟩)
  extract_lets t' u
  change Keeps a u at k
  clear_value u
  split
  · with_reducible apply raiseTamper_keeps
    exact State.modVault_keeps k (fun _ => ⟨rfl, rfl⟩)
  · exact k

theorem flueRestart_keeps {a s : State} (k : Keeps a s) : Keeps a (flueRestart s) := by
  unfold flueRestart
  repeat' first
    | with_reducible assumption | with_reducible apply dropAllEnables_keeps | with_reducible apply allVfsReset_keeps
    | with_reducible apply resetFluePages_keeps | with_reducible apply State.modFlue_keeps
    | with_reducible apply vaultAtFlueStart_keeps

theorem doBootRestart_keeps {a : State} {who : Requester} {fusing : Bool} {s : State} (k : Keeps a s) : Keeps a (doBootRestart
    who fusing s) := by
  unfold doBootRestart
  repeat' first | with_reducible assumption | split | with_reducible apply refuse_keeps | with_reducible apply flueRestart_keeps

theorem execBootRestart_keeps {a : State} {w : RestartWrite} {s : State} (k : Keeps a s) : ∀ z, execBootRestart w s = .next z →
    Keeps a z := by
  intro z e; cases e
  repeat' first | with_reducible assumption | with_reducible apply doBootRestart_keeps

theorem startTransit_keeps {a : State} {h c : Nat} {op : WorldOp} {service : Nat} {s : State} (k : Keeps a s) : Keeps a
    (startTransit h c op service s) := by
  unfold startTransit
  repeat' first | with_reducible assumption | with_reducible apply State.modCore_keeps

theorem accessFault_keeps {a : State} {h c cause addr : Nat} {s : State} (k : Keeps a s) : Keeps a (accessFault h c cause addr
    s) := by
  unfold accessFault
  repeat' first
    | with_reducible assumption | with_reducible apply State.free_keeps | with_reducible apply State.modCore_keeps
    | with_reducible apply Keeps.snd (by assumption) | done

theorem storeFault_keeps {a : State} {h c : Nat} {s : State} (k : Keeps a s) : Keeps a (storeFault h c s) := by
  unfold storeFault
  repeat' first | with_reducible assumption | with_reducible apply accessFault_keeps

theorem gateRefused_keeps {a : State} {h c data : Nat} {s : State} (k : Keeps a s) : Keeps a (gateRefused h c data s) := by
  unfold gateRefused
  repeat' first
    | with_reducible assumption | with_reducible apply refuse_keeps | with_reducible apply storeFault_keeps
    | with_reducible apply raiseH_keeps

theorem gateStore_keeps {a : State} {h c : Nat} {op : WorldOp} {code service : Nat} {s : State} (k : Keeps a s) : Keeps a
    (gateStore h c op code service s) := by
  unfold gateStore
  repeat' first
    | with_reducible assumption | split | with_reducible apply startTransit_keeps | with_reducible apply gateRefused_keeps

theorem execGateCall_keeps {a : State} {h : Fin 16} {c : Fin 4} {service : Byte} {s : State} (k : Keeps a s) : ∀ z, execGateCall
    h c service s = .next z → Keeps a z := by
  intro z e; cases e
  repeat' first | with_reducible assumption | with_reducible apply gateStore_keeps

theorem doBankPeriod_keeps {a : State} {who : Requester} {d : Nat} {s : State} (k : Keeps a s) : Keeps a (doBankPeriod who d s)
    := by
  unfold doBankPeriod
  repeat' first | with_reducible assumption | split | with_reducible apply refuse_keeps | with_reducible apply setFields_keeps

theorem execBankPeriodWrite_keeps {a : State} {who : Requester} {data : Word} {s : State} (k : Keeps a s) : ∀ z,
    execBankPeriodWrite who data s = .next z → Keeps a z := by
  intro z e; cases e
  repeat' first | with_reducible assumption | split | with_reducible apply doBankPeriod_keeps

theorem doGateInterrupt_keeps {a : State} {h c : Nat} {s : State} (k : Keeps a s) : Keeps a (doGateInterrupt h c s) := by
  unfold doGateInterrupt
  repeat' first | with_reducible assumption | with_reducible apply startTransit_keeps | with_reducible apply Keeps.ite

theorem endStart_keeps {a : State} {h status : Nat} {s : State} (k : Keeps a s) : Keeps a (endStart h status s) := by
  unfold endStart
  repeat' first
    | with_reducible assumption | with_reducible apply finishAdmin_keeps | with_reducible apply Keeps.foldl | (intro _ _ _)

theorem startFails_keeps {a : State} {h status : Nat} {s : State} (k : Keeps a s) : Keeps a (startFails h status s) := by
  unfold startFails
  repeat' first
    | with_reducible assumption | with_reducible apply State.modH_keeps | with_reducible apply endStart_keeps
    | with_reducible apply State.setHState_keeps | (intros; exact .same rfl rfl rfl)

theorem imageEvent_keeps {a : State} {ok : Bool} {inst : Nat} {s : State} (k : Keeps a s) : Keeps a (imageEvent ok inst s) := by
  unfold imageEvent
  repeat' first | with_reducible assumption | with_reducible apply raiseFlue_keeps

theorem lateShadow_keeps {a : State} {h : Nat} {s : State} (k : Keeps a s) : Keeps a (lateShadow h s) := by
  unfold lateShadow
  repeat' first | with_reducible assumption | split | with_reducible apply State.modH_keeps | (intros; exact .same rfl rfl rfl)

theorem startRange0_keeps {a : State} {h : Nat} {s : State} (hs : Keeps a s) : ∀ z, startRange0 h s = some z → Keeps a z := by
  intro z hz
  have pl : ∀ (key : Bytes) (gen : Nat) (s : State), Keeps a s → Keeps a
      ((((((((s.modVault (fun v => { v with rngGens := v.rngGens.put (h * 8) gen })).modMem h (fun m =>
        { m with
          ranges := m.ranges.put 0 { base := s.memInner h, size := 54 * mib, metaAt := s.memInner h + 54 * mib, gen := gen, mode := 2, key := key }
          owners := [], pending := [], transit := [], reenc := []
          ddr := memClear m.ddr (s.memInner h) (54 * mib)
          poison := m.poison.filter (fun l => l * 64 < s.memInner h || s.memInner h + 54 * mib ≤ l * 64) })).wr (memPage h) (Reg.RNG_STATUS_STATE 0) rsActive).wr
          (memPage h) (Reg.RNG_STATUS_CAUSE 0) 0).wr (memPage h) (Reg.RNG_CTRL_MODE 0) 2).wr (memPage h) (Reg.RNG_BASE_BASE 0) (s.memInner h / (2 * mib))).wr
          (memPage h) (Reg.RNG_SIZE_SIZE 0) 27).wr (memPage h) (Reg.RNG_META_META 0) ((s.memInner h + 54 * mib) / 4096)) := by
    intro key gen s k
    repeat apply State.wr_keeps
    exact State.modMem_keeps (State.modVault_keeps k (fun _ => ⟨rfl, rfl⟩)) (fun m e => memClear_wf _ _ _ e)
  unfold startRange0 at hz; dsimp only at hz
  repeat' split at hz
  · cases hz
  · cases hz; exact State.wr_keeps (pl _ _ _ (derived_keeps hs))
  · cases hz
  · rw [Option.map_eq_some_iff] at hz
    obtain ⟨p, hp, hz⟩ := hz
    subst hz; exact State.wr_keeps (pl _ _ _ (drbgRequest_keeps hs _ hp))

theorem writePositions_keeps {a : State} {h : Nat} {s : State} (k : Keeps a s) : Keeps a (writePositions h s) := by
  unfold writePositions
  repeat' first
    | with_reducible assumption | with_reducible apply State.wr_keeps | with_reducible apply Keeps.foldl | (intro _ _ _)

theorem recoverRecords_keeps {a : State} {h : Nat} {s : State} (k : Keeps a s) : Keeps a (recoverRecords h s) := by
  unfold recoverRecords
  repeat' first
    | with_reducible assumption | with_reducible apply raiseH_keeps | with_reducible apply State.modVault_keeps
    | exact ⟨(setApplied_keepsV _ _ _).1, (setApplied_keepsV _ _ _).2⟩ | with_reducible apply Keeps.foldl
    | with_reducible apply Keeps.ite | (intro _ _ _) | (intro _)

theorem attest_keeps {a : State} {h : Nat} {s : State} (k : Keeps a s) : Keeps a (attest h s) := by
  unfold attest; dsimp only
  repeat' first
    | with_reducible assumption | split | with_reducible apply derived_keeps | with_reducible apply State.modH_keeps
    | with_reducible apply State.free_keeps | (intros; exact .same rfl rfl rfl)

theorem finishStart_keeps {a : State} {h : Nat} {img : Bytes} {s : State} (k : Keeps a s) : Keeps a (finishStart h img s) := by
  unfold finishStart
  repeat' first
    | with_reducible assumption | with_reducible apply writePositions_keeps | with_reducible apply recoverRecords_keeps
    | with_reducible apply attest_keeps | with_reducible apply State.modCore_keeps | with_reducible apply State.setHState_keeps
    | with_reducible apply State.wr_keeps | with_reducible apply endStart_keeps | with_reducible apply raiseFlue_keeps

theorem doHearthStarted_keeps {a : State} {h : Nat} {s : State} (k : Keeps a s) : Keeps a (doHearthStarted h s) := by
  unfold doHearthStarted; dsimp only
  repeat' first
    | with_reducible assumption | split | with_reducible apply startFails_keeps | with_reducible apply imageEvent_keeps
    | with_reducible apply lateShadow_keeps | with_reducible apply State.wr_keeps | with_reducible apply endStart_keeps
    | with_reducible apply enterFatal_keeps | with_reducible refine startRange0_keeps ?_ _ (by assumption)
    | with_reducible apply finishStart_keeps

theorem execHearthStarted_keeps {a : State} {h : Fin 16} {s : State} (k : Keeps a s) : ∀ z, execHearthStarted h s = .next z →
    Keeps a z := by
  intro z e; cases e
  repeat' first | with_reducible assumption | with_reducible apply doHearthStarted_keeps

theorem execVbatRestored_keeps {a s : State} (k : Keeps a s) : ∀ z, execVbatRestored s = .next z → Keeps a z := by
  intro z e; cases e
  repeat' first
    | with_reducible assumption | split | with_reducible apply refreshPins_keeps | with_reducible apply State.modChim_keeps
    | exact .same rfl rfl rfl

theorem isolateJobs_keeps {a : State} {h : Nat} {s : State} (k : Keeps a s) : Keeps a (isolateJobs h s) := by
  unfold isolateJobs
  repeat' first
    | with_reducible assumption | with_reducible apply failJob_keeps | with_reducible apply Keeps.foldl | (intro _ _ _)

theorem clearVaultKeys_keeps {a s : State} (k : Keeps a s) : Keeps a (clearVaultKeys s) := by
  unfold clearVaultKeys
  repeat' first | with_reducible assumption | with_reducible apply State.modVault_keeps | (intros; exact ⟨rfl, rfl⟩)

theorem quench_keeps {a s : State} (hs : Keeps a s) : Keeps a (quench s) := by
  unfold quench; dsimp only; split
  · exact State.modChim_keeps (State.mapH_keeps (dropAllEnables_keeps (clearVaultKeys_keeps hs)) (fun _ _ => .same rfl rfl rfl)) (.same rfl rfl rfl)
  · exact State.modVault_keeps (dropAllEnables_keeps (clearVaultKeys_keeps hs)) (fun _ => ⟨rfl, rfl⟩)

theorem logTrips_keeps {a : State} {resp : Nat} {grouped : Bool} {ns : List Nat} {s : State} (k : Keeps a s) : Keeps a (logTrips
    resp grouped ns s) := by
  unfold logTrips
  repeat' first
    | with_reducible assumption | with_reducible apply logEntry_keeps | with_reducible apply raiseTamper_keeps
    | with_reducible apply Keeps.foldl | with_reducible apply Keeps.fst (by assumption) | (intro _ _ _)

theorem applyTrips_keeps {a : State} {ns : List Nat} {s : State} (k : Keeps a s) : Keeps a (applyTrips ns s) := by
  unfold applyTrips
  repeat' first
    | with_reducible assumption | split | with_reducible apply State.modVault_keeps | with_reducible apply State.modChim_keeps
    | with_reducible apply isolateJobs_keeps | with_reducible apply quench_keeps | with_reducible apply logTrips_keeps
    | with_reducible apply refreshPins_keeps | with_reducible apply raiseTamper_keeps | with_reducible apply Keeps.foldl
    | exact .same rfl rfl rfl | (intros; exact ⟨rfl, rfl⟩) | (intro _ _ _)

theorem noteTemp_keeps {a : State} {trips : List (Nat × Nat)} {s : State} (k : Keeps a s) : Keeps a (noteTemp trips s) := by
  unfold noteTemp
  repeat' first
    | with_reducible assumption | split | with_reducible apply State.wr_keeps | with_reducible apply Keeps.foldl
    | (intro _ _ _)

theorem doTrips_keeps {a : State} {trips : List (Nat × Nat)} {s : State} (k : Keeps a s) : Keeps a (doTrips trips s) := by
  unfold doTrips
  repeat' first | with_reducible assumption | with_reducible apply applyTrips_keeps | with_reducible apply noteTemp_keeps

theorem doFwTrigger_keeps {a : State} {h : Nat} {who : Requester} {s : State} (k : Keeps a s) : Keeps a (doFwTrigger h who s)
    := by
  unfold doFwTrigger
  repeat' first | with_reducible assumption | split | with_reducible apply doTrips_keeps | with_reducible apply refuse_keeps

theorem execTmpFwTrigger_keeps {a : State} {h : Fin 16} {who : Requester} {s : State} (k : Keeps a s) : ∀ z, execTmpFwTrigger h
    who s = .next z → Keeps a z := by
  intro z e; cases e
  repeat' first | with_reducible assumption | with_reducible apply doFwTrigger_keeps

theorem tamperLogOut_keeps {a : State} {r : AdminReq} {s : State} (k : Keeps a s) : Keeps a (tamperLogOut r s).1 := by
  unfold tamperLogOut; dsimp only
  repeat' first | with_reducible assumption | split

theorem execTamperLogExport_keeps {a : State} {q : Fin 4} {rd : AdminRead} {s : State} (k : Keeps a s) : ∀ z,
    execTamperLogExport q rd s = .next z → Keeps a z := by
  intro z e; refine adminRow_keeps ?_ ?_ z e
  all_goals
    repeat' first | with_reducible assumption | with_reducible apply tamperLogOut_keeps

theorem imageLoad_keeps {a : State} {r : AdminReq} {s : State} (hs : Keeps a s) : Keeps a (imageLoad r s).1 := by
  unfold imageLoad; dsimp only; repeat' split
  · exact hs
  · exact hs
  · exact imageEvent_keeps hs
  · exact imageEvent_keeps (State.wr_keeps (State.wr_keeps (State.modH_keeps hs (fun x => ⟨id, id, fun e => memPut_wf _ _ _ e⟩))))

theorem execImageLoad_keeps {a : State} {q : Fin 4} {rd : AdminRead} {s : State} (k : Keeps a s) : ∀ z, execImageLoad q rd s =
    .next z → Keeps a z := by
  intro z e; refine adminRow_keeps ?_ ?_ z e
  all_goals
    repeat' first | with_reducible assumption | with_reducible apply imageLoad_keeps

theorem dropRange_keeps {a : State} {h r : Nat} {change : Bool} {s : State} (k : Keeps a s) : Keeps a (dropRange h r change s)
    := by
  unfold dropRange
  repeat' first
    | with_reducible assumption | with_reducible apply State.modMem_keeps | with_reducible apply breakRange_keeps
    | (intro m e; exact e) | with_reducible apply Keeps.ite

theorem dropRanges_keeps {a : State} {h : Nat} {change : Bool} {s : State} (k : Keeps a s) : Keeps a (dropRanges h change s)
    := by
  unfold dropRanges
  repeat' first
    | with_reducible assumption | with_reducible apply dropRange_keeps | with_reducible apply Keeps.foldl | (intro _ _ _)

theorem resetHearthPages_keeps {a : State} {h : Nat} {s : State} (k : Keeps a s) : Keeps a (resetHearthPages h s) := by
  unfold resetHearthPages
  repeat' first
    | with_reducible assumption | with_reducible apply State.resetPages_keeps | with_reducible apply State.wr_keeps
    | with_reducible apply Keeps.foldl | (intro _ _ _)

theorem clearImages_keeps {a : State} {h : Nat} {s : State} (k : Keeps a s) : Keeps a (clearImages h s) := by
  unfold clearImages
  repeat' first | with_reducible assumption | with_reducible apply State.wr_keeps

theorem hearthReset_keeps {a : State} {h status : Nat} {s : State} (hs : Keeps a s) : Keeps a (hearthReset h status s) := by
  unfold hearthReset
  exact State.setHState_keeps (clearImages_keeps (State.wr_keeps (resetHearthPages_keeps (State.modH_keeps (dropRanges_keeps
    (State.modH_keeps (endGroups_keeps (failAllJobs_keeps (endStart_keeps hs))) takePending_keepsH)) (fun x => .same rfl rfl rfl)))))

theorem beginStart_keeps {a : State} {h : Nat} {img : Bytes} {s : State} (hs : Keeps a s) : Keeps a (beginStart h img s) := by
  unfold beginStart
  exact State.setHState_keeps (clearImages_keeps (State.modH_keeps (State.wr_keeps (resetHearthPages_keeps
    (Keeps.ite (dropRanges_keeps (State.modH_keeps hs takePending_keepsH)) (State.modH_keeps hs takePending_keepsH))))
    (fun x => ⟨id, fun e => memPut_wf _ _ _ e, id⟩)))

theorem hearthStart_keeps {a : State} {r : AdminReq} {s : State} (k : Keeps a s) : Keeps a (hearthStart r s).1 := by
  unfold hearthStart; dsimp only
  repeat' first
    | with_reducible assumption | split | with_reducible apply hearthReset_keeps | with_reducible apply beginStart_keeps

theorem execHearthStart_keeps {a : State} {q : Fin 4} {rd : AdminRead} {s : State} (k : Keeps a s) : ∀ z, execHearthStart q rd s
    = .next z → Keeps a z := by
  intro z e; refine adminRow_keeps ?_ ?_ z e
  all_goals
    repeat' first | with_reducible assumption | with_reducible apply hearthStart_keeps

theorem hearthResetOp_keeps {a : State} {r : AdminReq} {s : State} (k : Keeps a s) : Keeps a (hearthResetOp r s).1 := by
  unfold hearthResetOp; dsimp only
  repeat' first | with_reducible assumption | split | with_reducible apply hearthReset_keeps

theorem execHearthReset_keeps {a : State} {q : Fin 4} {rd : AdminRead} {s : State} (k : Keeps a s) : ∀ z, execHearthReset q rd s
    = .next z → Keeps a z := by
  intro z e; refine adminRow_keeps ?_ ?_ z e
  all_goals
    repeat' first | with_reducible assumption | with_reducible apply hearthResetOp_keeps

theorem doQuenchDone_keeps {a s : State} (k : Keeps a s) : Keeps a (doQuenchDone s) := by
  unfold doQuenchDone
  repeat' first
    | with_reducible assumption | split | with_reducible apply hearthReset_keeps | with_reducible apply State.modChim_keeps
    | with_reducible apply tdiError_keeps | with_reducible apply refreshPins_keeps | with_reducible apply raiseTamper_keeps
    | with_reducible apply Keeps.foldl | exact .same rfl rfl rfl | (intro _ _ _)

theorem decommission_keeps {a s : State} (hs : Keeps a s) : Keeps a (decommission s) := by
  unfold decommission
  refine refreshPins_keeps (State.modVault_keeps (blowWord_keeps (State.modChim_keeps (doQuenchDone_keeps (quench_keeps
    (Keeps.foldl hs (fun s h k => isolateJobs_keeps k)))) ⟨fun e => ⟨e, ?_⟩, id⟩)) (fun _ => ⟨rfl, rfl⟩))
  exact ⟨fun _ => Nat.le_refl _, fun _ h => h, fun _ h => h, Nat.le_refl _, Nat.le_refl _, Nat.le_refl _, .inr rfl, rfl, rfl, rfl, rfl⟩

theorem lifecycleAdvance_keeps {a : State} {part : Option Nat} {r : AdminReq} {s : State} (hs : Keeps a s) : Keeps a (lifecycleAdvance part r s).1 := by
  unfold lifecycleAdvance; dsimp only
  split
  · exact hs
  · rename_i hc
    have hm : s.chim.fuses.lcWords.getD (byteAt r.inp 5) 0 < 24 := by
      unfold checkAdvance at hc; dsimp only at hc
      repeat' split at hc
      all_goals cases hc
      all_goals exact mover_unblown _ _ _ (by assumption)
    repeat' split
    · exact hs
    · refine State.modChim_keeps (f := fun c => { c with fuses := { c.fuses with lcWords := c.fuses.lcWords.put _ _ } }) hs
        ⟨fun e => Fuses.put_fits e ?_ ?_, id⟩
      all_goals unfold clamp; repeat' split
      all_goals omega
    · exact lifecycleMoved_keeps (decommission_keeps hs)
    · exact refreshPins_keeps (lifecycleMoved_keeps (blowWord_keeps hs))

theorem porReset_keeps {a s : State} (hs : Keeps a s) : Keeps a (porReset s) := by
  refine hs.trans ⟨rfl, rfl, Nat.le_refl _, ⟨[], by simp [porReset]⟩, fun _ => List.Pairwise.nil, fun h => ?_, ?_⟩
  · have hm : ∀ (t : Tab Hearth) (f : Nat → Hearth → Hearth), (∀ n x, (f n x).mem = ({} : MemPath) ∧ (f n x).tcmIn = [] ∧ (f n x).tcmOut = []) →
        (Tab.getD (t.map (fun p => (p.1, f p.1 p.2)) : Tab Hearth) h ({} : Hearth)).mem = ({} : MemPath) ∧ (Tab.getD (t.map (fun p => (p.1, f p.1 p.2)) : Tab Hearth) h ({} : Hearth)).tcmIn = [] ∧
        (Tab.getD (t.map (fun p => (p.1, f p.1 p.2)) : Tab Hearth) h ({} : Hearth)).tcmOut = [] := by
      intro t f hf; unfold Tab.getD; induction t with
      | nil => exact ⟨rfl, rfl, rfl⟩
      | cons p r ih =>
        obtain ⟨n, v⟩ := p
        simp only [List.map_cons, Tab.find?]
        split
        · exact hf _ _
        · exact ih
    obtain ⟨h1, h2, h3⟩ := hm s.hearths (fun n x => ({ strap := x.strap, compat := s.chim.fuses.compat.testBit n } : Hearth)) (fun _ _ => ⟨rfl, rfl, rfl⟩)
    unfold porReset State.H; dsimp only
    constructor
    · rw [h1]; intro _; rfl
    · rw [h2]; intro _; rfl
    · rw [h3]; intro _; rfl
  · exact .same rfl rfl rfl

theorem cutQuench_keeps {a s : State} (k : Keeps a s) : Keeps a (cutQuench s) := by
  unfold cutQuench
  repeat' first | with_reducible assumption | split | with_reducible apply State.modVault_keeps | (intros; exact ⟨rfl, rfl⟩)

theorem doMainLoss_keeps {a s : State} (k : Keeps a s) : Keeps a (doMainLoss s) := by
  unfold doMainLoss
  repeat' first
    | with_reducible assumption | split | with_reducible apply porReset_keeps | with_reducible apply cutQuench_keeps
    | with_reducible apply refreshPins_keeps | with_reducible apply State.modChim_keeps | exact .same rfl rfl rfl

theorem lifecycleRow_keeps {a : State} {q : Nat} {rd : AdminRead} {part : Option Nat} {s : State} (k : Keeps a s) : Keeps a
    (lifecycleRow q rd part s) := by
  unfold lifecycleRow
  repeat' first
    | with_reducible assumption | with_reducible apply adminGo_keeps | with_reducible apply lifecycleAdvance_keeps
    | with_reducible apply doMainLoss_keeps | with_reducible apply Keeps.ite

theorem execLifecycleAdvance_keeps {a : State} {q : Fin 4} {rd : AdminRead} {part : Option Nat} {s : State} (k : Keeps a s) : ∀
    z, execLifecycleAdvance q rd part s = .next z → Keeps a z := by
  intro z e; unfold execLifecycleAdvance at e
  repeat' split at e
  all_goals first | (cases e; done) | skip
  all_goals
    (try simp only [Host.Outcome.next.injEq] at e); subst e
    repeat' first | with_reducible assumption | with_reducible apply lifecycleRow_keeps

theorem fuseProgram_keeps {a : State} {r : AdminReq} {s : State} (hs : Keeps a s) : Keeps a (fuseProgram r s).1 := by
  unfold fuseProgram; extract_lets w v l width
  split
  · exact hs
  · with_reducible apply raiseFlue_keeps
    refine State.modChim_keeps hs ⟨fun e => ?_, fun e => e⟩
    dsimp only; split
    · exact ⟨e, ⟨fun _ => Nat.le_refl _, fun i h => by simp [Nat.testBit_or, h], fun _ h => h, Nat.le_refl _, Nat.le_refl _, Nat.le_refl _, .inl rfl, rfl, rfl, rfl, rfl⟩⟩
    · exact ⟨e, ⟨fun _ => Nat.le_refl _, fun _ h => h, fun i h => by simp [Nat.testBit_or, h], Nat.le_refl _, Nat.le_refl _, Nat.le_refl _, .inl rfl, rfl, rfl, rfl, rfl⟩⟩

theorem execFuseProgram_keeps {a : State} {q : Fin 4} {rd : AdminRead} {s : State} (k : Keeps a s) : ∀ z, execFuseProgram q rd s
    = .next z → Keeps a z := by
  intro z e; refine adminRow_keeps ?_ ?_ z e
  all_goals
    repeat' first | with_reducible assumption | with_reducible apply fuseProgram_keeps

theorem rollbackAdvance_keeps {a : State} {r : AdminReq} {s : State} (hs : Keeps a s) : Keeps a (rollbackAdvance r s).1 := by
  unfold rollbackAdvance; dsimp only; repeat' split
  · exact hs
  · exact hs
  · rename_i g _
    refine Keeps.foldl (State.modChim_keeps hs ⟨fun e => arb_grow e ?_ ?_, id⟩) (fun s x k => raiseFlue_keeps k)
    all_goals omega

theorem execRollbackAdvance_keeps {a : State} {q : Fin 4} {rd : AdminRead} {s : State} (k : Keeps a s) : ∀ z,
    execRollbackAdvance q rd s = .next z → Keeps a z := by
  intro z e; refine adminRow_keeps ?_ ?_ z e
  all_goals
    repeat' first | with_reducible assumption | with_reducible apply rollbackAdvance_keeps

theorem execVfFlr_keeps {a : State} {v : Fin 512} {s : State} (k : Keeps a s) : ∀ z, execVfFlr v s = .next z → Keeps a z := by
  intro z e; cases e
  repeat' first | with_reducible assumption | split | with_reducible apply vfReset_keeps

theorem flrDone_keeps {a : State} {v : Nat} {s : State} (k : Keeps a s) : Keeps a (flrDone v s) := by
  unfold flrDone
  repeat' first
    | with_reducible assumption | with_reducible apply abortJob_keeps | with_reducible apply enterDrained_keeps
    | with_reducible apply wipeQueues_keeps | with_reducible apply State.modVf_keeps | with_reducible apply Keeps.foldl
    | with_reducible apply Keeps.ite | (intro _ _ _)

theorem execFlrAbortDone_keeps {a : State} {v : Fin 512} {s : State} (k : Keeps a s) : ∀ z, execFlrAbortDone v s = .next z →
    Keeps a z := by
  intro z e; cases e
  repeat' first | with_reducible assumption | with_reducible apply flrDone_keeps

theorem execPf0Flr_keeps {a s : State} (hs : Keeps a s) : ∀ z, execPf0Flr s = .next z → Keeps a z := by
  intro z e; rw [← Host.Outcome.next.inj e]; exact Keeps.ite (resetFunction_keeps (allVfsReset_keeps hs)) hs

theorem execVfEnableClear_keeps {a s : State} (hs : Keeps a s) : ∀ z, execVfEnableClear s = .next z → Keeps a z := by
  intro z hz; cases hz; exact Keeps.ite (allVfsReset_keeps hs) hs

theorem linkReset_keeps {a s : State} (k : Keeps a s) : Keeps a (linkReset s) := by
  unfold linkReset
  repeat' first
    | with_reducible assumption | with_reducible apply State.modFlue_keeps | with_reducible apply resetFunction_keeps
    | with_reducible apply allVfsReset_keeps

theorem execHotReset_keeps {a s : State} (hs : Keeps a s) : ∀ z, execHotReset s = .next z → Keeps a z := by
  intro z hz; cases hz; exact Keeps.ite (linkReset_keeps hs) hs

theorem setLinkDown_keeps {a s : State} (k : Keeps a s) : Keeps a (setLinkDown s) := by
  unfold setLinkDown
  repeat' first | with_reducible assumption | with_reducible apply State.wr_keeps

theorem execLinkDown_keeps {a s : State} (hs : Keeps a s) : ∀ z, execLinkDown s = .next z → Keeps a z := by
  intro z hz; cases hz; exact Keeps.ite (setLinkDown_keeps (linkReset_keeps hs)) hs

theorem doTrained_keeps {a : State} {rate width : Nat} {flit : Bool} {s : State} (k : Keeps a s) : Keeps a (doTrained rate width
    flit s) := by
  unfold doTrained
  repeat' first
    | with_reducible assumption | with_reducible apply State.wr_keeps | with_reducible apply State.modFlue_keeps
    | with_reducible apply raiseFlue_keeps | with_reducible apply Keeps.ite

theorem execLinkTrained_keeps {a : State} {rate width : Fin 4} {flit : Bool} {s : State} (k : Keeps a s) : ∀ z, execLinkTrained
    rate width flit s = .next z → Keeps a z := by
  intro z e; cases e
  repeat' first | with_reducible assumption | with_reducible apply doTrained_keeps

theorem execPerstNAssert_keeps {a s : State} (hs : Keeps a s) : ∀ z, execPerstNAssert s = .next z → Keeps a z := by
  intro z hz; cases hz
  exact Keeps.ite hs (State.modChim_keeps (Keeps.ite (setLinkDown_keeps (linkReset_keeps hs)) hs) (.same rfl rfl rfl))

theorem execPf0PowerState_keeps {a : State} {d3hot : Bool} {s : State} (k : Keeps a s) : ∀ z, execPf0PowerState d3hot s = .next
    z → Keeps a z := by
  intro z e; cases e
  repeat' first | with_reducible assumption | split | with_reducible apply State.modFlue_keeps

theorem execIdentityKeyReady_keeps {a : State} {rsa : Bool} {s : State} (k : Keeps a s) : ∀ z, execIdentityKeyReady rsa s =
    .next z → Keeps a z := by
  intro z e; cases e
  repeat' first | with_reducible assumption | split | with_reducible apply State.modFlue_keeps

theorem bankDraw_keeps {a : State} {h : Option Nat} {s : State} (k : Keeps a s) : Keeps a (bankDraw h s).2 := by
  unfold bankDraw
  repeat' first | with_reducible assumption | split | with_reducible refine drbgRequest_keeps ?_ _ (by assumption) | done

theorem bankEmbers_keeps {a : State} {fresh : Bool} {s : State} (k : Keeps a s) : Keeps a (bankEmbers fresh s).1 := by
  unfold bankEmbers; dsimp only
  repeat' first
    | with_reducible assumption | split | with_reducible apply bankDraw_keeps | with_reducible apply State.modVault_keeps
    | with_reducible apply Keeps.foldlP | (intros; exact ⟨rfl, rfl⟩) | (intro _ _ _)

theorem doBanking_keeps {a s : State} (k : Keeps a s) : Keeps a (doBanking s) := by
  unfold doBanking
  repeat' first
    | with_reducible assumption | with_reducible apply bankEmbers_keeps | with_reducible apply State.modVault_keeps
    | with_reducible apply State.wr_keeps | with_reducible apply sendPulse_keeps | with_reducible apply raiseFlue_keeps
    | with_reducible apply Keeps.foldl | with_reducible apply Keeps.ite | (intros; exact ⟨rfl, rfl⟩) | (intro _ _ _)

theorem execEmberBanking_keeps {a s : State} (k : Keeps a s) : ∀ z, execEmberBanking s = .next z → Keeps a z := by
  intro z e; cases e
  repeat' first | with_reducible assumption | with_reducible apply doBanking_keeps

theorem doShadowReload_keeps {a : State} {h : Nat} {s : State} (k : Keeps a s) : Keeps a (doShadowReload h s) := by
  unfold doShadowReload
  repeat' first
    | with_reducible assumption | with_reducible apply State.modH_keeps | with_reducible apply Keeps.ite
    | (intros; exact .same rfl rfl rfl)

theorem execShadowReloadDone_keeps {a : State} {h : Fin 16} {s : State} (k : Keeps a s) : ∀ z, execShadowReloadDone h s = .next
    z → Keeps a z := by
  intro z e; cases e
  repeat' first | with_reducible assumption | with_reducible apply doShadowReload_keeps

theorem cacheMgReady_keeps {a : State} {h : Nat} {s : State} (hs : Keeps a s) : ∀ z, cacheMgReady h s = some z → Keeps a z := by
  intro z e; unfold cacheMgReady at e; split at e
  · rename_i e1; cases e
    exact State.modH_keeps (drbgRequest_keeps hs _ e1) (fun x => .same rfl rfl rfl)
  · dsimp only at e; split at e
    · cases e; exact State.modH_keeps hs (fun x => .same rfl rfl rfl)
    · cases e

theorem reshare_keeps {a : State} {h : Nat} {s : State} (k : Keeps a s) : Keeps a (reshare h s) := by
  unfold reshare
  repeat' first
    | with_reducible assumption | with_reducible apply State.modH_keeps | with_reducible apply Keeps.foldl
    | (intros; exact .same rfl rfl rfl) | (intro _ _ _)

theorem bankPass_keeps {a : State} {h : Nat} {s : State} (k : Keeps a s) : Keeps a (bankPass h s) := by
  unfold bankPass
  repeat' first
    | with_reducible assumption | split | with_reducible refine cacheMgReady_keeps ?_ _ (by assumption)
    | with_reducible apply State.modH_keeps | with_reducible apply reshare_keeps | with_reducible apply State.wr_keeps
    | with_reducible apply raiseH_keeps | (intros; exact .same rfl rfl rfl)

theorem execKcBankPass_keeps {a : State} {h : Fin 16} {s : State} (k : Keeps a s) : ∀ z, execKcBankPass h s = .next z → Keeps a
    z := by
  intro z e; cases e
  repeat' first | with_reducible assumption | with_reducible apply bankPass_keeps

theorem execKcBankRetry_keeps {a : State} {h : Fin 16} {s : State} (k : Keeps a s) : ∀ z, execKcBankRetry h s = .next z → Keeps
    a z := by
  intro z e; cases e
  repeat' first | with_reducible assumption | split | with_reducible apply bankPass_keeps

theorem doFlush_keeps {a : State} {h : Nat} {who : Requester} {s : State} (k : Keeps a s) : Keeps a (doFlush h who s) := by
  unfold doFlush
  repeat' first
    | with_reducible assumption | split | with_reducible apply refuse_keeps | with_reducible apply freeEntry_keeps
    | with_reducible apply Keeps.foldl | (intro _ _ _)

theorem execKcFlush_keeps {a : State} {h : Fin 16} {who : Requester} {s : State} (k : Keeps a s) : ∀ z, execKcFlush h who s =
    .next z → Keeps a z := by
  intro z e; cases e
  repeat' first | with_reducible assumption | with_reducible apply onHearth_keeps | with_reducible apply doFlush_keeps

theorem setChallenge_keeps {a : State} {b : Bytes} {s : State} (k : Keeps a s) : Keeps a (setChallenge b s) := by
  unfold setChallenge
  repeat' first
    | with_reducible assumption | with_reducible apply State.wr_keeps | with_reducible apply Keeps.foldl | (intro _ _ _)

theorem newChallenge_keeps {a s : State} (k : Keeps a s) : Keeps a (newChallenge s) := by
  unfold newChallenge; dsimp only
  repeat' first
    | with_reducible assumption | split | with_reducible apply State.wr_keeps
    | with_reducible refine drbgRequest_keeps ?_ _ (by assumption) | with_reducible apply setChallenge_keeps

theorem submitToken_keeps {a s : State} (k : Keeps a s) : Keeps a (submitToken s) := by
  unfold submitToken
  repeat' first
    | with_reducible assumption | split | with_reducible apply State.wr_keeps | with_reducible apply State.modFlue_keeps

theorem doLock_keeps {a s : State} (k : Keeps a s) : Keeps a (doLock s) := by
  unfold doLock
  repeat' first
    | with_reducible assumption | split | with_reducible apply logEntry_keeps | with_reducible apply State.modVault_keeps
    | (intros; exact ⟨rfl, rfl⟩)

theorem doRelease_keeps {a : State} {who : Requester} {s : State} (k : Keeps a s) : Keeps a (doRelease who s) := by
  unfold doRelease
  repeat' first
    | with_reducible assumption | split | with_reducible apply refuse_keeps | with_reducible apply logEntry_keeps
    | with_reducible apply State.modVault_keeps | with_reducible apply refreshPins_keeps
    | with_reducible apply raiseTamper_keeps | with_reducible apply Keeps.fst (by assumption) | (intros; exact ⟨rfl, rfl⟩)

theorem doStickyClear_keeps {a : State} {who : Requester} {d : Nat} {s : State} (k : Keeps a s) : Keeps a (doStickyClear who d
    s) := by
  unfold doStickyClear
  repeat' first
    | with_reducible assumption | split | with_reducible apply logEntry_keeps | with_reducible apply State.modVault_keeps
    | with_reducible apply refreshPins_keeps | with_reducible apply refuse_keeps | with_reducible apply Keeps.foldl
    | (intros; exact ⟨rfl, rfl⟩) | (intro _ _ _)

theorem writeResp_keeps {a : State} {n v : Nat} {p : State × Bool} (hv : v < 4) (hs : Keeps a p.1) : Keeps a (writeResp n v p).1 := by
  obtain ⟨s, bad⟩ := p
  unfold writeResp; dsimp only at *
  have hm : minResp n < 4 := by
    unfold minResp
    rcases Nat.lt_or_ge n 30 with g | g
    · revert g; revert n; decide
    · rw [List.getD_eq_getElem?_getD, List.getElem?_eq_none (by simpa using g)]; decide
  repeat' split
  · exact hs
  · exact hs
  all_goals
    have k : Keeps a (s.modVault (fun x => { x with resp := x.resp - respAt s.chim.vault.resp n * 4 ^ n + (max v (minResp n)) * 4 ^ n })) := by
      refine State.modVault_keepsG hs (fun e i m hm2 => ?_)
      dsimp only
      rw [respAt_set _ _ _ _ (by omega)]; split
      · rename_i g; subst g; omega
      · exact e i m hm2
    with_reducible first | exact applyTrips_keeps (logEntry_keeps k) | exact logEntry_keeps k

theorem doRespWrite_keeps {a : State} {who : Requester} {hi : Bool} {d : Nat} {s : State} (hs : Keeps a s) : Keeps a (doRespWrite who hi d s) := by
  unfold doRespWrite
  extract_lets base
  have k : Keeps a ((List.range (if hi then 14 else 16)).foldl (fun a i => writeResp (base + i) (respAt d i) a) (s, false)).1 :=
    Keeps.foldlP hs (fun p x k => writeResp_keeps (Nat.mod_lt _ (by decide)) k)
  generalize (List.range (if hi then 14 else 16)).foldl (fun a i => writeResp (base + i) (respAt d i) a) (s, false) = p at *
  obtain ⟨t, bad⟩ := p
  dsimp only at *
  have k2 : Keeps a (if t.chim.vault.resp = s.chim.vault.resp then t else bumpGen tamperPage t) := Keeps.ite k (bumpGen_keeps k)
  exact Keeps.ite (refuse_keeps k2) k2

theorem doGateFault_keeps {a : State} {h c data : Nat} {s : State} (k : Keeps a s) : Keeps a (doGateFault h c data s) := by
  unfold doGateFault
  repeat' first | with_reducible assumption | with_reducible apply gateRefused_keeps | with_reducible apply Keeps.ite

theorem doCoreRelease_keeps {a : State} {h c : Nat} {who : Requester} {s : State} (k : Keeps a s) : Keeps a (doCoreRelease h c
    who s) := by
  unfold doCoreRelease
  repeat' first
    | with_reducible assumption | with_reducible apply refuse_keeps | with_reducible apply State.wr_keeps
    | with_reducible apply State.modCore_keeps | with_reducible apply Keeps.ite

theorem execGateReturn_keeps {a : State} {h : Fin 16} {c : Fin 4} {s : State} (k : Keeps a s) : ∀ z, execGateReturn h c s =
    .next z → Keeps a z := by
  intro z e; cases e
  repeat' first | with_reducible assumption | with_reducible apply gateStore_keeps

theorem execGateResume_keeps {a : State} {h : Fin 16} {c : Fin 4} {s : State} (k : Keeps a s) : ∀ z, execGateResume h c s =
    .next z → Keeps a z := by
  intro z e; cases e
  repeat' first | with_reducible assumption | with_reducible apply gateStore_keeps

theorem execGateDispatch_keeps {a : State} {h : Fin 16} {c : Fin 4} {s : State} (k : Keeps a s) : ∀ z, execGateDispatch h c s =
    .next z → Keeps a z := by
  intro z e; cases e
  repeat' first | with_reducible assumption | with_reducible apply gateStore_keeps

theorem execGateInterrupt_keeps {a : State} {h : Fin 16} {c : Fin 4} {s : State} (k : Keeps a s) : ∀ z, execGateInterrupt h c s
    = .next z → Keeps a z := by
  intro z e; cases e
  repeat' first | with_reducible assumption | with_reducible apply doGateInterrupt_keeps

theorem execGateFault_keeps {a : State} {h : Fin 16} {c : Fin 4} {data : Word} {s : State} (k : Keeps a s) : ∀ z, execGateFault
    h c data s = .next z → Keeps a z := by
  intro z e; cases e
  repeat' first | with_reducible assumption | with_reducible apply doGateFault_keeps

theorem doTransitDone_keeps {a : State} {h c : Nat} {s : State} (k : Keeps a s) : Keeps a (doTransitDone h c s) := by
  unfold doTransitDone; dsimp only
  repeat' first
    | with_reducible assumption | split | with_reducible apply addCtr_keeps | with_reducible apply State.modCore_keeps
    | with_reducible apply flushL1_keeps

theorem execGateTransitDone_keeps {a : State} {h : Fin 16} {c : Fin 4} {s : State} (k : Keeps a s) : ∀ z, execGateTransitDone h
    c s = .next z → Keeps a z := by
  intro z e; cases e
  repeat' first | with_reducible assumption | with_reducible apply doTransitDone_keeps

theorem execCoreRelease_keeps {a : State} {h : Fin 16} {c : Fin 4} {who : Requester} {s : State} (k : Keeps a s) : ∀ z,
    execCoreRelease h c who s = .next z → Keeps a z := by
  intro z e; cases e
  repeat' first | with_reducible assumption | with_reducible apply onHearth_keeps | with_reducible apply doCoreRelease_keeps

theorem execFirmwareFatal_keeps {a : State} {h : Fin 16} {s : State} (k : Keeps a s) : ∀ z, execFirmwareFatal h s = .next z →
    Keeps a z := by
  intro z e; cases e
  repeat' first | with_reducible assumption | split | with_reducible apply enterFatal_keeps

theorem execCoreLockup_keeps {a : State} {h : Fin 16} {c : Fin 4} {s : State} (k : Keeps a s) : ∀ z, execCoreLockup h c s =
    .next z → Keeps a z := by
  intro z e; cases e
  repeat' first | with_reducible assumption | split | with_reducible apply enterFatal_keeps

theorem dbgRow_keeps {a : State} {who : Requester} {data : Nat} {f : State → State} {s : State} (hf : ∀ x0, Keeps a x0 → Keeps a
    (f x0)) (k : Keeps a s) : ∀ z, dbgRow who data f s = .next z → Keeps a z := by
  intro z e; cases e
  repeat' first | with_reducible assumption | split | with_reducible apply refuse_keeps | with_reducible apply hf

theorem execDbgNewChallenge_keeps {a : State} {who : Requester} {s : State} (k : Keeps a s) : ∀ z, execDbgNewChallenge who s =
    .next z → Keeps a z := by
  intro z e; refine dbgRow_keeps ?_ ?_ z e
  all_goals
    repeat' first | with_reducible assumption | with_reducible apply newChallenge_keeps

theorem execDbgSubmit_keeps {a : State} {who : Requester} {s : State} (k : Keeps a s) : ∀ z, execDbgSubmit who s = .next z →
    Keeps a z := by
  intro z e; refine dbgRow_keeps ?_ ?_ z e
  all_goals
    repeat' first | with_reducible assumption | with_reducible apply submitToken_keeps

theorem grantEnables_keeps {a : State} {h en validMs : Nat} {s : State} (k : Keeps a s) : Keeps a (grantEnables h en validMs s)
    := by
  unfold grantEnables
  repeat' first
    | with_reducible assumption | with_reducible apply State.modH_keeps | with_reducible apply raiseFlue_keeps
    | (intros; exact .same rfl rfl rfl)

theorem doTokenDone_keeps {a s : State} (k : Keeps a s) : Keeps a (doTokenDone s) := by
  unfold doTokenDone
  repeat' first
    | with_reducible assumption | with_reducible apply State.wr_keeps | with_reducible apply State.modFlue_keeps
    | with_reducible apply grantEnables_keeps | with_reducible apply Keeps.ite

theorem execDbgTokenCheckDone_keeps {a s : State} (k : Keeps a s) : ∀ z, execDbgTokenCheckDone s = .next z → Keeps a z := by
  intro z e; cases e
  repeat' first | with_reducible assumption | with_reducible apply doTokenDone_keeps

theorem execDbgRevoke_keeps {a : State} {who : Requester} {data : Word} {s : State} (k : Keeps a s) : ∀ z, execDbgRevoke who
    data s = .next z → Keeps a z := by
  intro z e; refine dbgRow_keeps ?_ ?_ z e
  all_goals
    repeat' first | with_reducible assumption | with_reducible apply dropEnables_keeps

theorem execDbgExpiry_keeps {a : State} {h : Fin 16} {s : State} (k : Keeps a s) : ∀ z, execDbgExpiry h s = .next z → Keeps a z
    := by
  intro z e; cases e
  repeat' first | with_reducible assumption | split | with_reducible apply dropEnables_keeps

theorem execTamperTrip_keeps {a : State} {trips : List (Fin 30 × BitVec 32)} {s : State} (k : Keeps a s) : ∀ z, execTamperTrip
    trips s = .next z → Keeps a z := by
  intro z e; cases e
  repeat' first | with_reducible assumption | split | with_reducible apply doTrips_keeps

theorem execQuenchDone_keeps {a s : State} (k : Keeps a s) : ∀ z, execQuenchDone s = .next z → Keeps a z := by
  intro z e; cases e
  repeat' first | with_reducible assumption | with_reducible apply doQuenchDone_keeps

theorem fromPf0_keeps {a : State} {off : Nat} {who : Requester} {data : Nat} {f : State → State} {s : State} (hf : ∀ x0, Keeps a
    x0 → Keeps a (f x0)) (k : Keeps a s) : Keeps a (fromPf0 off who data f s) := by
  unfold fromPf0
  repeat' first | with_reducible assumption | split | with_reducible apply refuse_keeps | with_reducible apply hf

theorem execTmpTrigger_keeps {a : State} {who : Requester} {s : State} (k : Keeps a s) : ∀ z, execTmpTrigger who s = .next z →
    Keeps a z := by
  intro z e; cases e
  repeat' first | with_reducible assumption | with_reducible apply fromPf0_keeps | with_reducible apply doTrips_keeps

theorem execTmpRelease_keeps {a : State} {who : Requester} {s : State} (k : Keeps a s) : ∀ z, execTmpRelease who s = .next z →
    Keeps a z := by
  intro z e; cases e
  repeat' first | with_reducible assumption | with_reducible apply fromPf0_keeps | with_reducible apply doRelease_keeps

theorem execTmpLock_keeps {a : State} {who : Requester} {s : State} (k : Keeps a s) : ∀ z, execTmpLock who s = .next z → Keeps a
    z := by
  intro z e; cases e
  repeat' first | with_reducible assumption | with_reducible apply fromPf0_keeps | with_reducible apply doLock_keeps

theorem execTmpRespWrite_keeps {a : State} {who : Requester} {hi : Bool} {data : Word} {s : State} (k : Keeps a s) : ∀ z,
    execTmpRespWrite who hi data s = .next z → Keeps a z := by
  intro z e; cases e
  repeat' first | with_reducible assumption | with_reducible apply fromPf0_keeps | with_reducible apply doRespWrite_keeps

theorem execTmpStickyClear_keeps {a : State} {who : Requester} {data : Word} {s : State} (k : Keeps a s) : ∀ z,
    execTmpStickyClear who data s = .next z → Keeps a z := by
  intro z e; cases e
  repeat' first | with_reducible assumption | with_reducible apply fromPf0_keeps | with_reducible apply doStickyClear_keeps

theorem execBatterySample_keeps {a : State} {trips : List (Fin 30 × BitVec 32)} {s : State} (k : Keeps a s) : ∀ z,
    execBatterySample trips s = .next z → Keeps a z := by
  intro z e; cases e
  repeat' first | with_reducible assumption | split | with_reducible apply doTrips_keeps

theorem islandDrops_keeps {a s : State} (k : Keeps a s) : Keeps a (islandDrops s) := by
  unfold islandDrops
  repeat' first
    | with_reducible assumption | split | with_reducible apply applyTrips_keeps | with_reducible apply State.modChim_keeps
    | exact .same rfl rfl rfl

theorem doSupply_keeps {a : State} {target : Supply} {s : State} (k : Keeps a s) : Keeps a (doSupply target s) := by
  unfold doSupply
  repeat' first
    | with_reducible assumption | split | with_reducible apply refreshPins_keeps | with_reducible apply islandDrops_keeps
    | with_reducible apply State.modChim_keeps | exact .same rfl rfl rfl

theorem execSupplySwitch_keeps {a : State} {target : Supply} {s : State} (k : Keeps a s) : ∀ z, execSupplySwitch target s =
    .next z → Keeps a z := by
  intro z e; cases e
  repeat' first | with_reducible assumption | with_reducible apply doSupply_keeps

theorem execMainPowerLoss_keeps {a s : State} (k : Keeps a s) : ∀ z, execMainPowerLoss s = .next z → Keeps a z := by
  intro z e; cases e
  repeat' first | with_reducible assumption | with_reducible apply doMainLoss_keeps

theorem execPorNAssert_keeps {a s : State} (k : Keeps a s) : ∀ z, execPorNAssert s = .next z → Keeps a z := by
  intro z e; cases e
  repeat' first
    | with_reducible assumption | split | with_reducible apply refreshPins_keeps | with_reducible apply porReset_keeps
    | with_reducible apply cutQuench_keeps

theorem doPorRelease_keeps {a s : State} (k : Keeps a s) : Keeps a (doPorRelease s) := by
  unfold doPorRelease
  repeat' first
    | with_reducible assumption | split | with_reducible apply vaultAtFlueStart_keeps
    | with_reducible apply State.modChim_keeps | with_reducible apply refreshPins_keeps | with_reducible apply State.emit_keeps
    | exact .same rfl rfl rfl

theorem execPorNDeassert_keeps {a s : State} (k : Keeps a s) : ∀ z, execPorNDeassert s = .next z → Keeps a z := by
  intro z e; cases e
  repeat' first | with_reducible assumption | with_reducible apply doPorRelease_keeps

theorem doTick_keeps {a s : State} (hs : Keeps a s) : Keeps a (doTick s) := by
  unfold doTick; dsimp only; split
  · exact hs
  · refine State.mapH_keeps (State.modFlue_keeps (State.modVault_keeps hs (fun _ => ⟨rfl, rfl⟩))) (fun n x => ?_)
    split <;> exact .same rfl rfl rfl

theorem execOpTimeTick_keeps {a s : State} (k : Keeps a s) : ∀ z, execOpTimeTick s = .next z → Keeps a z := by
  intro z e; cases e
  repeat' first | with_reducible assumption | with_reducible apply doTick_keeps

theorem doBootGo_keeps {a : State} {who : Requester} {image : Dma} {s : State} (k : Keeps a s) : Keeps a (doBootGo who image s)
    := by
  unfold doBootGo
  repeat' first
    | with_reducible assumption | split | with_reducible apply refuse_keeps | with_reducible apply State.wr_keeps
    | with_reducible apply State.modFlue_keeps

theorem execBootGo_keeps {a : State} {who : Requester} {image : Dma} {s : State} (k : Keeps a s) : ∀ z, execBootGo who image s =
    .next z → Keeps a z := by
  intro z e; cases e
  repeat' first | with_reducible assumption | with_reducible apply doBootGo_keeps

theorem resendCommit_keeps {a : State} {r : Nat} {d : Decision} {s : State} (k : Keeps a s) : Keeps a (resendCommit r d s) := by
  unfold resendCommit
  repeat' first | with_reducible assumption | with_reducible apply State.modFlue_keeps | with_reducible apply raiseFlue_keeps

theorem recoverGangs_keeps {a s : State} (k : Keeps a s) : Keeps a (recoverGangs s) := by
  unfold recoverGangs
  repeat' first
    | with_reducible assumption | split | with_reducible apply resendCommit_keeps | with_reducible apply abortMember_keeps
    | with_reducible apply Keeps.foldl | (intro _ _ _)

theorem countCycle_keeps {a s : State} (k : Keeps a s) : Keeps a (countCycle s) := by
  unfold countCycle
  repeat' first
    | with_reducible assumption | with_reducible apply State.modVault_keeps | with_reducible apply raiseFlue_keeps
    | with_reducible apply Keeps.ite | (intros; exact ⟨rfl, rfl⟩)

theorem doFlueCheck_keeps {a s : State} (k : Keeps a s) : Keeps a (doFlueCheck s) := by
  unfold doFlueCheck; dsimp only
  repeat' first
    | with_reducible assumption | split | with_reducible apply imageEvent_keeps | with_reducible apply State.wr_keeps
    | with_reducible apply State.modFlue_keeps | with_reducible apply recoverGangs_keeps
    | with_reducible apply countCycle_keeps

theorem execFlueImageCheckDone_keeps {a s : State} (k : Keeps a s) : ∀ z, execFlueImageCheckDone s = .next z → Keeps a z := by
  intro z e; cases e
  repeat' first | with_reducible assumption | with_reducible apply doFlueCheck_keeps

theorem execFlueFault_keeps {a s : State} (hs : Keeps a s) : ∀ z, execFlueFault s = .next z → Keeps a z := by
  intro z hz; cases hz; exact Keeps.ite (flueRestart_keeps hs) hs

theorem execMainPowerReturn_keeps {a s : State} (k : Keeps a s) : ∀ z, execMainPowerReturn s = .next z → Keeps a z := by
  intro z e; cases e
  repeat' first
    | with_reducible assumption | split | with_reducible apply refreshPins_keeps | with_reducible apply State.modChim_keeps
    | exact .same rfl rfl rfl

theorem execPerstNDeassert_keeps {a s : State} (k : Keeps a s) : ∀ z, execPerstNDeassert s = .next z → Keeps a z := by
  intro z e; cases e
  repeat' first | with_reducible assumption | with_reducible apply State.modChim_keeps | exact .same rfl rfl rfl

theorem execAspmL1Entry_keeps {a : State} {sub : Fin 3} {s : State} (k : Keeps a s) : ∀ z, execAspmL1Entry sub s = .next z →
    Keeps a z := by
  intro z e; cases e
  repeat' first | with_reducible assumption | split | with_reducible apply State.wr_keeps

theorem execL1Exit_keeps {a s : State} (k : Keeps a s) : ∀ z, execL1Exit s = .next z → Keeps a z := by
  intro z e; cases e
  repeat' first | with_reducible assumption | with_reducible apply State.wr_keeps

theorem execDetectorCleared_keeps {a : State} {src : Fin 30} {s : State} (k : Keeps a s) : ∀ z, execDetectorCleared src s =
    .next z → Keeps a z := by
  intro z e; cases e
  repeat' first | with_reducible assumption | with_reducible apply State.modChim_keeps | exact .same rfl rfl rfl

theorem execVaultHoldExpiry_keeps {a s : State} (hs : Keeps a s) : ∀ z, execVaultHoldExpiry s = .next z → Keeps a z := by
  intro z hz; unfold execVaultHoldExpiry at hz; cases hz
  split
  · exact refreshPins_keeps (State.modChim_keeps hs ⟨fun e => ⟨e, .refl _⟩, fun _ i => by cases i⟩)
  · exact hs

theorem execDebugHalt_keeps {a : State} {h : Fin 16} {c : Fin 4} {s : State} (k : Keeps a s) : ∀ z, execDebugHalt h c s = .next
    z → Keeps a z := by
  intro z e; cases e
  repeat' first | with_reducible assumption | split | with_reducible apply State.modCore_keeps

theorem execDebugResume_keeps {a : State} {h : Fin 16} {c : Fin 4} {s : State} (k : Keeps a s) : ∀ z, execDebugResume h c s =
    .next z → Keeps a z := by
  intro z e; cases e
  repeat' first | with_reducible assumption | split | with_reducible apply State.modCore_keeps

end Sys2Proof.Machine
end

