-- ==== Sys2Proof/Laws/KeepsUnits.lean ====
section
/-! SUPPORT. What one step can do to the whole state (`Keeps`), function by function: entropy, the job functions, the engines under direct use, memory control, power. -/

namespace Sys2Proof.Machine

theorem deferReq_keeps {a : State} {h bit inst : Nat} {s : State} (k : Keeps a s) : Keeps a (deferReq h bit inst s) := by
  unfold deferReq
  repeat' first | with_reducible assumption | split | with_reducible apply raiseH_keeps | with_reducible apply State.orBit_keeps

theorem undefer_keeps {a : State} {h bit : Nat} {s : State} (k : Keeps a s) : Keeps a (undefer h bit s) := by
  unfold undefer
  repeat' first | with_reducible assumption | with_reducible apply State.wr_keeps

theorem setTarget_keeps {a : State} {h : Nat} {who : Requester} {v : Nat} {s : State} (k : Keeps a s) : Keeps a (setTarget h who
    v s) := by
  unfold setTarget
  repeat' first
    | with_reducible assumption | with_reducible apply setFields_keeps | with_reducible apply deferReq_keeps
    | with_reducible apply State.modH_keeps | with_reducible apply undefer_keeps | with_reducible apply Keeps.ite
    | (intros; exact .same rfl rfl rfl)

theorem failStart_keeps {a : State} {h u st : Nat} {s : State} (k : Keeps a s) : Keeps a (failStart h u st s) := by
  unfold failStart
  repeat' first | with_reducible assumption | with_reducible apply State.wr_keeps

theorem useKeys_keeps {a : State} {h : Nat} {vs : List KeyView} {s : State} (k : Keeps a s) : Keeps a (useKeys h vs s) := by
  unfold useKeys
  repeat' first
    | with_reducible assumption | split | with_reducible apply State.modH_keeps | with_reducible apply addCtr_keeps
    | with_reducible apply Keeps.foldl | (intros; exact .same rfl rfl rfl) | (intro _ _ _)

theorem directDraw_keeps {a : State} {h u : Nat} {d : Bytes} {s : State} (k : Keeps a s) : Keeps a (directDraw h u d s) := by
  unfold directDraw
  repeat' first
    | with_reducible assumption | split | with_reducible refine drbgLower_keeps ?_ _ (by assumption)
    | with_reducible apply State.modEng_keeps | with_reducible apply Keeps.ite

theorem startDirect_keeps {a : State} {h u : Nat} {d : Bytes} {vs : List KeyView} {s : State} (k : Keeps a s) : Keeps a
    (startDirect h u d vs s) := by
  unfold startDirect
  repeat' first
    | with_reducible assumption | split | with_reducible apply useKeys_keeps | with_reducible apply drawNonce_keeps
    | with_reducible apply State.modEng_keeps | with_reducible apply directDraw_keeps

theorem doStart_keeps {a : State} {h u : Nat} {who : Requester} {d : Bytes} {ks : Except Nat (List KeyView)} {s : State} (k :
    Keeps a s) : Keeps a (doStart h u who d ks s) := by
  unfold doStart
  repeat' first
    | with_reducible assumption | split | with_reducible apply refuse_keeps | with_reducible apply failStart_keeps
    | with_reducible apply startDirect_keeps | with_reducible apply Keeps.ite

theorem bnReport_keeps {a : State} {h n tries : Nat} {s : State} (k : Keeps a s) : Keeps a (bnReport h n tries s) := by
  unfold bnReport
  repeat' first | with_reducible assumption | with_reducible apply State.wr_keeps

theorem State.modEnt_keeps {a s : State} {h : Nat} {f : Entropy → Entropy} (k : Keeps a s) : Keeps a (State.modEnt s h f) := by
  unfold State.modEnt
  repeat' first | with_reducible assumption | with_reducible apply State.modH_keeps | (intros; exact .same rfl rfl rfl)

theorem sourceFail_keeps {a : State} {h : Nat} {s : State} (k : Keeps a s) : Keeps a (sourceFail h s) := by
  unfold sourceFail
  repeat' first | with_reducible assumption | with_reducible apply State.modEnt_keeps | with_reducible apply raiseH_keeps

theorem pairFail_keeps {a : State} {h p : Nat} {s : State} (k : Keeps a s) : Keeps a (pairFail h p s) := by
  unfold pairFail
  repeat' first
    | with_reducible assumption | with_reducible apply State.modEnt_keeps | with_reducible apply errReg_keeps
    | with_reducible apply raiseH_keeps | with_reducible apply sourceFail_keeps | with_reducible apply Keeps.ite

theorem samplePair_keeps {a : State} {h p b : Nat} {ring : Bool} {s : State} (k : Keeps a s) : Keeps a (samplePair h p b ring s)
    := by
  unfold samplePair
  repeat' first
    | with_reducible assumption | with_reducible apply State.modEnt_keeps | with_reducible apply pairFail_keeps
    | with_reducible apply Keeps.ite

theorem doRawSample_keeps {a : State} {h bits rings : Nat} {s : State} (k : Keeps a s) : Keeps a (doRawSample h bits rings s)
    := by
  unfold doRawSample
  repeat' first
    | with_reducible assumption | with_reducible apply samplePair_keeps | with_reducible apply State.modEnt_keeps
    | with_reducible apply Keeps.foldl | with_reducible apply Keeps.ite | (intro _ _ _)

theorem execRawSample_keeps {a : State} {h : Fin 16} {bits rings : BitVec 64} {s : State} (k : Keeps a s) : ∀ z, execRawSample h
    bits rings s = .next z → Keeps a z := by
  intro z e; cases e
  repeat' first | with_reducible assumption | with_reducible apply doRawSample_keeps

theorem bnEnd_keeps {a : State} {h n : Nat} {inv : Bool} {s : State} (k : Keeps a s) : Keeps a (bnEnd h n inv s).1 := by
  unfold bnEnd; dsimp only
  repeat' first
    | with_reducible assumption | split | with_reducible apply bnReport_keeps | with_reducible apply workLines_keeps
    | with_reducible apply putLines_keeps

theorem finishDirect_keeps {a : State} {h u code len cycles : Nat} {s : State} (k : Keeps a s) : Keeps a (finishDirect h u code
    len cycles s) := by
  unfold finishDirect
  repeat' first
    | with_reducible assumption | with_reducible apply State.wr_keeps | with_reducible apply addCtr_keeps
    | with_reducible apply State.modEng_keeps | with_reducible apply raiseH_keeps | with_reducible apply releaseLock_keeps
    | with_reducible apply Keeps.ite

theorem putNonce_keeps {a : State} {h u : Nat} {s : State} (k : Keeps a s) : Keeps a (putNonce h u s) := by
  unfold putNonce
  repeat' first
    | with_reducible assumption | with_reducible apply State.wr_keeps | with_reducible apply Keeps.foldl
    | with_reducible apply Keeps.ite | (intro _ _ _)

theorem wipeOut_keeps {a : State} {h u n : Nat} {s : State} (k : Keeps a s) : Keeps a (wipeOut h u n s) := by
  unfold wipeOut
  repeat' first | with_reducible assumption | with_reducible apply engineDma_keeps

theorem throughRows_keeps {a : State} {h u : Nat} {b : Bytes} {s : State} (k : Keeps a s) : Keeps a (throughRows h u b s).2
    := by
  unfold throughRows
  repeat' first
    | with_reducible assumption | split | with_reducible apply withMg_keeps | with_reducible apply Keeps.snd (by assumption)
    | done

theorem directKeysIn_keeps {a : State} {h u : Nat} {s : State} (k : Keeps a s) : Keeps a (directKeysIn h u s) := by
  unfold directKeysIn
  repeat' first | with_reducible assumption | with_reducible apply State.modEng_keeps

theorem putTag_keeps {a : State} {h u : Nat} {t : Bytes} {s : State} (k : Keeps a s) : Keeps a (putTag h u t s) := by
  unfold putTag
  repeat' first
    | with_reducible assumption | with_reducible apply State.wr_keeps | with_reducible apply Keeps.foldl | (intro _ _ _)

theorem symEnd_keeps {a : State} {h u : Nat} {s : State} (k : Keeps a s) : Keeps a (symEnd h u s).1 := by
  unfold symEnd; dsimp only
  repeat' first
    | with_reducible assumption | split | with_reducible apply putNonce_keeps | with_reducible apply wipeOut_keeps
    | with_reducible apply engineDma_keeps | with_reducible apply throughRows_keeps | with_reducible apply directKeysIn_keeps
    | with_reducible apply putTag_keeps | with_reducible apply Keeps.fst (by assumption)
    | with_reducible apply Keeps.snd (by assumption) | done

theorem endDirect_keeps {a : State} {h u : Nat} {inv : Bool} {s : State} (k : Keeps a s) : Keeps a (endDirect h u inv s) := by
  unfold endDirect
  repeat' first
    | with_reducible assumption | with_reducible apply directDraw_keeps | with_reducible apply bnEnd_keeps
    | with_reducible apply finishDirect_keeps | with_reducible apply requestKat_keeps | with_reducible apply raiseH_keeps
    | with_reducible apply symEnd_keeps | with_reducible apply Keeps.fst (by assumption) | with_reducible apply Keeps.ite

theorem killBlock_keeps {a : State} {h b : Nat} {s : State} (k : Keeps a s) : Keeps a (killBlock h b s) := by
  unfold killBlock
  repeat' first
    | with_reducible assumption | split | with_reducible apply State.modH_keeps | with_reducible apply clearLines_keeps
    | with_reducible apply resetPageRegs_keeps | (intros; exact .same rfl rfl rfl)

theorem doJobEnd_keeps {a : State} {h u : Nat} {inv : Bool} {s : State} (k : Keeps a s) : Keeps a (doJobEnd h u inv s) := by
  unfold doJobEnd
  repeat' first
    | with_reducible assumption | split | with_reducible apply endDirect_keeps | with_reducible apply abortJob_keeps
    | with_reducible apply endQueued_keeps

theorem execEngineJobEnd_keeps {a : State} {h : Fin 16} {u : Fin 20} {invariantHolds : Bool} {s : State} (k : Keeps a s) : ∀ z,
    execEngineJobEnd h u invariantHolds s = .next z → Keeps a z := by
  intro z e; cases e
  repeat' first | with_reducible assumption | with_reducible apply doJobEnd_keeps

theorem ceStart_keeps {a : State} {h u : Nat} {who : Requester} {s : State} (k : Keeps a s) : Keeps a (ceStart h u who s) := by
  unfold ceStart
  repeat' first | with_reducible assumption | with_reducible apply doStart_keeps

theorem execCeStart_keeps {a : State} {h : Fin 16} {n : Fin 8} {who : Requester} {s : State} (k : Keeps a s) : ∀ z, execCeStart
    h n who s = .next z → Keeps a z := by
  intro z e; cases e
  repeat' first | with_reducible assumption | with_reducible apply onHearth_keeps | with_reducible apply ceStart_keeps

theorem execHeStart_keeps {a : State} {h : Fin 16} {n : Fin 4} {who : Requester} {s : State} (k : Keeps a s) : ∀ z, execHeStart
    h n who s = .next z → Keeps a z := by
  intro z e; cases e
  repeat' first | with_reducible assumption | with_reducible apply onHearth_keeps | with_reducible apply ceStart_keeps

theorem bnStart_keeps {a : State} {h n : Nat} {who : Requester} {s : State} (k : Keeps a s) : Keeps a (bnStart h n who s) := by
  unfold bnStart
  repeat' first | with_reducible assumption | with_reducible apply doStart_keeps

theorem execBnStart_keeps {a : State} {h : Fin 16} {n : Fin 4} {who : Requester} {s : State} (k : Keeps a s) : ∀ z, execBnStart
    h n who s = .next z → Keeps a z := by
  intro z e; cases e
  repeat' first | with_reducible assumption | with_reducible apply onHearth_keeps | with_reducible apply bnStart_keeps

theorem execKeyblockImport_keeps {a : State} {h : Fin 16} {j : Fin 2048} {inp : Dma} {s : State} (k : Keeps a s) : ∀ z,
    execKeyblockImport h j inp s = .next z → Keeps a z := by
  intro z e; cases e
  repeat' first | with_reducible assumption | with_reducible apply runWith_keeps

theorem execKeyblockExport_keeps {a : State} {h : Fin 16} {j : Fin 2048} {inp : Dma} {s : State} (k : Keeps a s) : ∀ z,
    execKeyblockExport h j inp s = .next z → Keeps a z := by
  intro z e; cases e
  repeat' first | with_reducible assumption | with_reducible apply runWith_keeps

theorem execEncrypt_keeps {a : State} {h : Fin 16} {j : Fin 2048} {inp : Dma} {s : State} (k : Keeps a s) : ∀ z, execEncrypt h j
    inp s = .next z → Keeps a z := by
  intro z e; cases e
  repeat' first | with_reducible assumption | with_reducible apply runWith_keeps

theorem wipeFailed_keeps {a : State} {h j n : Nat} {s : State} (k : Keeps a s) : Keeps a (wipeFailed h j n s) := by
  unfold wipeFailed
  repeat' first | with_reducible assumption | with_reducible apply State.modJob_keeps

theorem execDecrypt_keeps {a : State} {h : Fin 16} {j : Fin 2048} {inp : Dma} {s : State} (k : Keeps a s) : ∀ z, execDecrypt h j
    inp s = .next z → Keeps a z := by
  intro z e; cases e
  repeat' first | with_reducible assumption | split | with_reducible apply wipeFailed_keeps | with_reducible apply runWith_keeps

theorem execHash_keeps {a : State} {h : Fin 16} {j : Fin 2048} {inp : Dma} {s : State} (k : Keeps a s) : ∀ z, execHash h j inp s
    = .next z → Keeps a z := by
  intro z e; cases e
  repeat' first | with_reducible assumption | with_reducible apply runWith_keeps

theorem execXof_keeps {a : State} {h : Fin 16} {j : Fin 2048} {inp : Dma} {s : State} (k : Keeps a s) : ∀ z, execXof h j inp s =
    .next z → Keeps a z := by
  intro z e; cases e
  repeat' first | with_reducible assumption | with_reducible apply runWith_keeps

theorem execMacGenerate_keeps {a : State} {h : Fin 16} {j : Fin 2048} {inp : Dma} {s : State} (k : Keeps a s) : ∀ z,
    execMacGenerate h j inp s = .next z → Keeps a z := by
  intro z e; cases e
  repeat' first | with_reducible assumption | with_reducible apply runWith_keeps

theorem execMacVerify_keeps {a : State} {h : Fin 16} {j : Fin 2048} {inp : Dma} {s : State} (k : Keeps a s) : ∀ z, execMacVerify
    h j inp s = .next z → Keeps a z := by
  intro z e; cases e
  repeat' first | with_reducible assumption | with_reducible apply runWith_keeps

theorem execPkSign_keeps {a : State} {h : Fin 16} {j : Fin 2048} {inp : Dma} {s : State} (k : Keeps a s) : ∀ z, execPkSign h j
    inp s = .next z → Keeps a z := by
  intro z e; cases e
  repeat' first | with_reducible assumption | with_reducible apply runWith_keeps

theorem execPkVerify_keeps {a : State} {h : Fin 16} {j : Fin 2048} {inp : Dma} {s : State} (k : Keeps a s) : ∀ z, execPkVerify h
    j inp s = .next z → Keeps a z := by
  intro z e; cases e
  repeat' first | with_reducible assumption | with_reducible apply runWith_keeps

theorem execPkPublic_keeps {a : State} {h : Fin 16} {j : Fin 2048} {s : State} (k : Keeps a s) : ∀ z, execPkPublic h j s = .next
    z → Keeps a z := by
  intro z e; cases e
  repeat' first | with_reducible assumption | with_reducible apply runPlain_keeps

theorem execKeyAgree_keeps {a : State} {h : Fin 16} {j : Fin 2048} {inp : Dma} {s : State} (k : Keeps a s) : ∀ z, execKeyAgree h
    j inp s = .next z → Keeps a z := by
  intro z e; cases e
  repeat' first | with_reducible assumption | with_reducible apply runWith_keeps

theorem execKemEncaps_keeps {a : State} {h : Fin 16} {j : Fin 2048} {inp : Dma} {s : State} (k : Keeps a s) : ∀ z, execKemEncaps
    h j inp s = .next z → Keeps a z := by
  intro z e; cases e
  repeat' first | with_reducible assumption | with_reducible apply runWith_keeps

theorem execKemDecaps_keeps {a : State} {h : Fin 16} {j : Fin 2048} {inp : Dma} {s : State} (k : Keeps a s) : ∀ z, execKemDecaps
    h j inp s = .next z → Keeps a z := by
  intro z e; cases e
  repeat' first | with_reducible assumption | with_reducible apply runWith_keeps

theorem execRsaOaepImport_keeps {a : State} {h : Fin 16} {j : Fin 2048} {inp : Dma} {s : State} (k : Keeps a s) : ∀ z,
    execRsaOaepImport h j inp s = .next z → Keeps a z := by
  intro z e; cases e
  repeat' first | with_reducible assumption | with_reducible apply runWith_keeps

theorem clearUnit_keeps {a : State} {h j u : Nat} {jb : Job} {s : State} (k : Keeps a s) : Keeps a (clearUnit h j u jb s) := by
  unfold clearUnit
  repeat' first
    | with_reducible assumption | with_reducible apply addCtr_keeps | with_reducible apply clearLines_keeps
    | with_reducible apply releaseUnits_keeps | with_reducible apply State.modJob_keeps

theorem runClear_keeps {a : State} {h j : Nat} {s : State} (k : Keeps a s) : Keeps a (runClear h j s) := by
  unfold runClear; dsimp only
  repeat' first
    | with_reducible assumption | split | with_reducible apply clearUnit_keeps | with_reducible apply ran_keeps
    | with_reducible apply State.modJob_keeps | with_reducible apply takeUnits_keeps

theorem execClearOperands_keeps {a : State} {h : Fin 16} {j : Fin 2048} {s : State} (k : Keeps a s) : ∀ z, execClearOperands h j
    s = .next z → Keeps a z := by
  intro z e; cases e
  repeat' first | with_reducible assumption | with_reducible apply runClear_keeps

theorem execPinTranslate_keeps {a : State} {h : Fin 16} {j : Fin 2048} {s : State} (k : Keeps a s) : ∀ z, execPinTranslate h j s
    = .next z → Keeps a z := by
  intro z e; cases e
  repeat' first | with_reducible assumption | with_reducible apply runPlain_keeps

theorem execPinVerify_keeps {a : State} {h : Fin 16} {j : Fin 2048} {s : State} (k : Keeps a s) : ∀ z, execPinVerify h j s =
    .next z → Keeps a z := by
  intro z e; cases e
  repeat' first | with_reducible assumption | with_reducible apply runPlain_keeps

theorem execPinValueCalc_keeps {a : State} {h : Fin 16} {j : Fin 2048} {s : State} (k : Keeps a s) : ∀ z, execPinValueCalc h j s
    = .next z → Keeps a z := by
  intro z e; cases e
  repeat' first | with_reducible assumption | with_reducible apply runPlain_keeps

theorem execCardValueGenerate_keeps {a : State} {h : Fin 16} {j : Fin 2048} {s : State} (k : Keeps a s) : ∀ z,
    execCardValueGenerate h j s = .next z → Keeps a z := by
  intro z e; cases e
  repeat' first | with_reducible assumption | with_reducible apply runPlain_keeps

theorem execCardValueVerify_keeps {a : State} {h : Fin 16} {j : Fin 2048} {s : State} (k : Keeps a s) : ∀ z, execCardValueVerify
    h j s = .next z → Keeps a z := by
  intro z e; cases e
  repeat' first | with_reducible assumption | with_reducible apply runPlain_keeps

theorem execPayMacGenerate_keeps {a : State} {h : Fin 16} {j : Fin 2048} {inp : Dma} {s : State} (k : Keeps a s) : ∀ z,
    execPayMacGenerate h j inp s = .next z → Keeps a z := by
  intro z e; cases e
  repeat' first | with_reducible assumption | with_reducible apply runWith_keeps

theorem execPayMacVerify_keeps {a : State} {h : Fin 16} {j : Fin 2048} {inp : Dma} {s : State} (k : Keeps a s) : ∀ z,
    execPayMacVerify h j inp s = .next z → Keeps a z := by
  intro z e; cases e
  repeat' first | with_reducible assumption | with_reducible apply runWith_keeps

theorem execEmvCryptogram_keeps {a : State} {h : Fin 16} {j : Fin 2048} {inp : Dma} {s : State} (k : Keeps a s) : ∀ z,
    execEmvCryptogram h j inp s = .next z → Keeps a z := by
  intro z e; cases e
  repeat' first | with_reducible assumption | with_reducible apply runWith_keeps

theorem randomRequest_keeps {a : State} {h : Nat} {jb : Job} {s : State} (hs : Keeps a s) : ∀ z, randomRequest h jb s = some z → Keeps a z.2 :=
  fun _ e => drbgLower_keeps hs _ e

theorem runRandom_keeps {a : State} {h j : Nat} {s : State} (k : Keeps a s) : Keeps a (runRandom h j s) := by
  unfold runRandom
  repeat' first
    | with_reducible assumption | split | with_reducible refine randomRequest_keeps ?_ _ (by assumption)
    | with_reducible apply State.modJob_keeps | with_reducible apply ran_keeps | with_reducible apply Keeps.ite

theorem execRandomGenerate_keeps {a : State} {h : Fin 16} {j : Fin 2048} {s : State} (k : Keeps a s) : ∀ z, execRandomGenerate h
    j s = .next z → Keeps a z := by
  intro z e; cases e
  repeat' first | with_reducible assumption | with_reducible apply runRandom_keeps

theorem execEntropyStatus_keeps {a : State} {h : Fin 16} {j : Fin 2048} {s : State} (k : Keeps a s) : ∀ z, execEntropyStatus h j
    s = .next z → Keeps a z := by
  intro z e; cases e
  repeat' first | with_reducible assumption | with_reducible apply runPlain_keeps

theorem doConditioner_keeps {a : State} {h : Nat} {s : State} (k : Keeps a s) : Keeps a (doConditioner h s) := by
  unfold doConditioner
  repeat' first | with_reducible assumption | with_reducible apply State.modEnt_keeps | with_reducible apply Keeps.ite

theorem execConditionerBlock_keeps {a : State} {h : Fin 16} {s : State} (k : Keeps a s) : ∀ z, execConditionerBlock h s = .next
    z → Keeps a z := by
  intro z e; cases e
  repeat' first | with_reducible assumption | with_reducible apply doConditioner_keeps

theorem doStartupDone_keeps {a : State} {h : Nat} {s : State} (k : Keeps a s) : Keeps a (doStartupDone h s) := by
  unfold doStartupDone
  repeat' first
    | with_reducible assumption | with_reducible apply State.modEnt_keeps | with_reducible apply sourceFail_keeps
    | with_reducible apply Keeps.ite

theorem execStartupTestDone_keeps {a : State} {h : Fin 16} {s : State} (k : Keeps a s) : ∀ z, execStartupTestDone h s = .next z
    → Keeps a z := by
  intro z e; cases e
  repeat' first | with_reducible assumption | with_reducible apply doStartupDone_keeps

theorem doInstantiate_keeps {a : State} {h : Nat} {s : State} (k : Keeps a s) : Keeps a (doInstantiate h s) := by
  unfold doInstantiate
  repeat' first
    | with_reducible assumption | with_reducible apply State.modEnt_keeps | with_reducible apply State.wr_keeps
    | with_reducible apply Keeps.ite

theorem execDrbgInstantiate_keeps {a : State} {h : Fin 16} {s : State} (k : Keeps a s) : ∀ z, execDrbgInstantiate h s = .next z
    → Keeps a z := by
  intro z e; cases e
  repeat' first | with_reducible assumption | with_reducible apply doInstantiate_keeps

theorem doGenerate_keeps {a : State} {h n : Nat} {s : State} (k : Keeps a s) : Keeps a (doGenerate h n s) := by
  unfold doGenerate
  repeat' first
    | with_reducible assumption | split | with_reducible refine drbgLower_keeps ?_ _ (by assumption)
    | with_reducible apply State.modEnt_keeps

theorem execDrbgGenerate_keeps {a : State} {h : Fin 16} {bytes : Nat} {s : State} (k : Keeps a s) : ∀ z, execDrbgGenerate h
    bytes s = .next z → Keeps a z := by
  intro z e; cases e
  repeat' first | with_reducible assumption | with_reducible apply doGenerate_keeps

theorem doReseed_keeps {a : State} {h : Nat} {s : State} (k : Keeps a s) : Keeps a (doReseed h s) := by
  unfold doReseed
  repeat' first | with_reducible assumption | with_reducible apply drbgReseed_keeps | with_reducible apply Keeps.ite

theorem execDrbgReseed_keeps {a : State} {h : Fin 16} {s : State} (k : Keeps a s) : ∀ z, execDrbgReseed h s = .next z → Keeps a
    z := by
  intro z e; cases e
  repeat' first | with_reducible assumption | with_reducible apply doReseed_keeps

theorem doEntTest_keeps {a : State} {h : Nat} {restart : Bool} {who : Requester} {s : State} (k : Keeps a s) : Keeps a
    (doEntTest h restart who s) := by
  unfold doEntTest
  repeat' first
    | with_reducible assumption | with_reducible apply refuse_keeps | with_reducible apply State.modEnt_keeps
    | with_reducible apply Keeps.ite

theorem execEntRestart_keeps {a : State} {h : Fin 16} {who : Requester} {s : State} (k : Keeps a s) : ∀ z, execEntRestart h who
    s = .next z → Keeps a z := by
  intro z e; cases e
  repeat' first | with_reducible assumption | with_reducible apply onHearth_keeps | with_reducible apply doEntTest_keeps

theorem execEntRetest_keeps {a : State} {h : Fin 16} {who : Requester} {s : State} (k : Keeps a s) : ∀ z, execEntRetest h who s
    = .next z → Keeps a z := by
  intro z e; cases e
  repeat' first | with_reducible assumption | with_reducible apply onHearth_keeps | with_reducible apply doEntTest_keeps

theorem doTestDone_keeps {a : State} {h : Nat} {s : State} (k : Keeps a s) : Keeps a (doTestDone h s) := by
  unfold doTestDone
  repeat' first
    | with_reducible assumption | with_reducible apply State.modEnt_keeps | with_reducible apply pairFail_keeps
    | with_reducible apply sourceFail_keeps | with_reducible apply raiseH_keeps | with_reducible apply Keeps.foldl
    | with_reducible apply Keeps.ite | (intro _ _ _)

theorem execEntTestDone_keeps {a : State} {h : Fin 16} {s : State} (k : Keeps a s) : ∀ z, execEntTestDone h s = .next z → Keeps
    a z := by
  intro z e; cases e
  repeat' first | with_reducible assumption | with_reducible apply doTestDone_keeps

theorem doPolicy_keeps {a : State} {h : Nat} {who : Requester} {d : Nat} {s : State} (k : Keeps a s) : Keeps a (doPolicy h who d
    s) := by
  unfold doPolicy
  repeat' first
    | with_reducible assumption | split | with_reducible apply refuse_keeps | with_reducible apply setFields_keeps
    | with_reducible apply State.modEnt_keeps

theorem execEntPolicyWrite_keeps {a : State} {h : Fin 16} {who : Requester} {data : Word} {s : State} (k : Keeps a s) : ∀ z,
    execEntPolicyWrite h who data s = .next z → Keeps a z := by
  intro z e; cases e
  repeat' first | with_reducible assumption | with_reducible apply onHearth_keeps | with_reducible apply doPolicy_keeps

theorem doDataRead_keeps {a : State} {h : Nat} {who : Requester} {outer : Bool} {s : State} (k : Keeps a s) : Keeps a
    (doDataRead h who outer s) := by
  unfold doDataRead
  repeat' first
    | with_reducible assumption | with_reducible apply State.emit_keeps | with_reducible apply capture_keeps
    | with_reducible apply State.wr_keeps | with_reducible apply State.modEnt_keeps | with_reducible apply Keeps.ite

theorem execEntDataRead_keeps {a : State} {h : Fin 16} {who : Requester} {outer : Bool} {s : State} (k : Keeps a s) : ∀ z,
    execEntDataRead h who outer s = .next z → Keeps a z := by
  intro z e; cases e
  repeat' first
    | with_reducible assumption | split | with_reducible apply doDataRead_keeps | with_reducible apply wakeHearth_keeps
    | with_reducible apply State.emit_keeps

theorem doRawRead_keeps {a : State} {h : Nat} {s : State} (k : Keeps a s) : Keeps a (doRawRead h s) := by
  unfold doRawRead
  repeat' first
    | with_reducible assumption | with_reducible apply State.emit_keeps | with_reducible apply State.modEnt_keeps
    | with_reducible apply Keeps.ite

theorem execEntRawRead_keeps {a : State} {h : Fin 16} {who : Requester} {s : State} (k : Keeps a s) : ∀ z, execEntRawRead h who
    s = .next z → Keeps a z := by
  intro z e; cases e
  repeat' first
    | with_reducible assumption | split | with_reducible apply doRawRead_keeps | with_reducible apply wakeHearth_keeps
    | with_reducible apply State.emit_keeps

theorem captureMem_keeps {a : State} {h : Nat} {who : Requester} {off data cause : Nat} {s : State} (k : Keeps a s) : Keeps a
    (captureMem h who off data cause s) := by
  unfold captureMem
  repeat' first
    | with_reducible assumption | with_reducible apply State.bump_keeps | with_reducible apply State.wr_keeps
    | with_reducible apply Keeps.ite

theorem memInit_keeps {a : State} {h : Nat} {who : Requester} {s : State} (k : Keeps a s) : Keeps a (memInit h who s) := by
  unfold memInit
  repeat' first
    | with_reducible assumption | split | with_reducible apply captureMem_keeps | with_reducible apply State.wr_keeps

theorem rngInit_keeps {a : State} {h r : Nat} {who : Requester} {s : State} (hs : Keeps a s) : Keeps a (rngInit h r who s) := by
  unfold rngInit; apply Keeps.ite
  · exact hs
  · generalize initCode s h r = g; cases g
    · have k := State.wr_keeps (p := memPage h) (f := Reg.RNG_STATUS_CAUSE r) (v := 0) (State.wr_keeps (p := memPage h) (f := Reg.RNG_STATUS_CFG_CODE r) (v := 0)
        (State.wr_keeps (p := memPage h) (f := Reg.RNG_STATUS_CFG_ERR r) (v := 0) hs))
      dsimp only
      generalize ((s.wr (memPage h) (Reg.RNG_STATUS_CFG_ERR r) 0).wr (memPage h) (Reg.RNG_STATUS_CFG_CODE r) 0).wr (memPage h) (Reg.RNG_STATUS_CAUSE r) 0 = t at *
      generalize regRange s h r = g
      apply Keeps.ite
      · exact State.modMem_keeps (State.wr_keeps k) (fun m e => e)
      · exact State.modMem_keeps (derived_keeps (State.wr_keeps (State.modVault_keeps k (fun _ => ⟨rfl, rfl⟩)))) (fun m e => e)
    · exact State.wr_keeps (State.wr_keeps hs)

theorem ownGo_keeps {a : State} {h : Nat} {who : Requester} {s : State} (hs : Keeps a s) : Keeps a (ownGo h who s) := by
  unfold ownGo; apply Keeps.ite
  · exact hs
  · generalize goCode s h = g; cases g
    · with_reducible apply State.wr_keeps
      with_reducible apply State.wr_keeps
      exact State.modMem_keeps hs (fun m e => e)
    · exact State.wr_keeps (State.wr_keeps hs)

theorem ownSync_keeps {a : State} {h : Nat} {who : Requester} {s : State} (k : Keeps a s) : Keeps a (ownSync h who s) := by
  unfold ownSync
  repeat' first
    | with_reducible assumption | with_reducible apply State.modMem_keeps | with_reducible apply State.wr_keeps
    | (intro m e; exact e) | with_reducible apply Keeps.ite

theorem mpuSync_keeps {a : State} {h m : Nat} {who : Requester} {s : State} (k : Keeps a s) : Keeps a (mpuSync h m who s) := by
  unfold mpuSync; dsimp only
  repeat' first
    | with_reducible assumption | split | with_reducible apply State.modMem_keeps | with_reducible apply State.wr_keeps
    | (intros; with_reducible assumption)

theorem setProfile_keeps {a : State} {h : Nat} {who : Requester} {data v : Nat} {s : State} (k : Keeps a s) : Keeps a
    (setProfile h who data v s) := by
  unfold setProfile
  repeat' first
    | with_reducible assumption | with_reducible apply refuse_keeps | with_reducible apply setFields_keeps
    | with_reducible apply State.modH_keeps | with_reducible apply Keeps.ite | (intros; exact .same rfl rfl rfl)

theorem setBlock_keeps {a : State} {h b v : Nat} {s : State} (k : Keeps a s) : Keeps a (setBlock h b v s) := by
  unfold setBlock
  repeat' first | with_reducible assumption | with_reducible apply State.modH_keeps | (intros; exact .same rfl rfl rfl)

theorem runBlock_keeps {a : State} {h b : Nat} {s : State} (k : Keeps a s) : Keeps a (runBlock h b s) := by
  unfold runBlock
  repeat' first | with_reducible assumption | split | with_reducible apply setBlock_keeps

theorem drainBlock_keeps {a : State} {h b v : Nat} {s : State} (k : Keeps a s) : Keeps a (drainBlock h b v s) := by
  unfold drainBlock
  repeat' first | with_reducible assumption | split | with_reducible apply setBlock_keeps

theorem askBlock_keeps {a : State} {h b : Nat} {who : Requester} {v : Nat} {s : State} (k : Keeps a s) : Keeps a (askBlock h b
    who v s) := by
  unfold askBlock
  repeat' first
    | with_reducible assumption | split | with_reducible apply runBlock_keeps | with_reducible apply undefer_keeps
    | with_reducible apply deferReq_keeps | with_reducible apply drainBlock_keeps

theorem writeBlkReq_keeps {a : State} {h : Nat} {who : Requester} {hi : Bool} {d : Nat} {s : State} (k : Keeps a s) : Keeps a
    (writeBlkReq h who hi d s) := by
  unfold writeBlkReq
  repeat' first
    | with_reducible assumption | with_reducible apply refuse_keeps | with_reducible apply setFields_keeps
    | with_reducible apply askBlock_keeps | with_reducible apply Keeps.foldl | with_reducible apply Keeps.ite | (intro _ _ _)

theorem changeHold_keeps {a : State} {h b : Nat} {on : Bool} {s : State} (k : Keeps a s) : Keeps a (changeHold h b on s) := by
  unfold changeHold
  repeat' first
    | with_reducible assumption | split | with_reducible apply State.modH_keeps | with_reducible apply undefer_keeps
    | with_reducible apply deferReq_keeps | with_reducible apply runBlock_keeps | with_reducible apply drainBlock_keeps
    | (intros; exact .same rfl rfl rfl)

theorem writeHold_keeps {a : State} {h : Nat} {who : Requester} {d : Nat} {s : State} (k : Keeps a s) : Keeps a (writeHold h who
    d s) := by
  unfold writeHold
  repeat' first
    | with_reducible assumption | split | with_reducible apply refuse_keeps | with_reducible apply setFields_keeps
    | with_reducible apply changeHold_keeps | with_reducible apply Keeps.foldl | (intro _ _ _)

theorem execMemInit_keeps {a : State} {h : Fin 16} {who : Requester} {s : State} (k : Keeps a s) : ∀ z, execMemInit h who s =
    .next z → Keeps a z := by
  intro z e; cases e
  repeat' first | with_reducible assumption | with_reducible apply onHearth_keeps | with_reducible apply memInit_keeps

theorem memTrained_keeps {a : State} {h : Nat} {ok : Bool} {s : State} (k : Keeps a s) : Keeps a (memTrained h ok s) := by
  unfold memTrained
  repeat' first
    | with_reducible assumption | split | with_reducible apply State.wr_keeps | with_reducible apply State.modH_keeps
    | (intros; exact .same rfl rfl rfl)

theorem execMemTrainingDone_keeps {a : State} {h : Fin 16} {ok : Bool} {s : State} (k : Keeps a s) : ∀ z, execMemTrainingDone h
    ok s = .next z → Keeps a z := by
  intro z e; cases e
  repeat' first | with_reducible assumption | with_reducible apply memTrained_keeps

theorem patrol_keeps {a : State} {h off : Nat} {c : LineCheck} {s : State} (k : Keeps a s) : Keeps a (patrol h off c s) := by
  unfold patrol
  repeat' first | with_reducible assumption | split | with_reducible apply lineFinding_keeps

theorem execPatrolScrub_keeps {a : State} {h : Fin 16} {off : BitVec 35} {line : LineCheck} {s : State} (k : Keeps a s) : ∀ z,
    execPatrolScrub h off line s = .next z → Keeps a z := by
  intro z e; cases e
  repeat' first | with_reducible assumption | with_reducible apply patrol_keeps

theorem execRngInit_keeps {a : State} {h : Fin 16} {r : Fin 8} {who : Requester} {s : State} (k : Keeps a s) : ∀ z, execRngInit
    h r who s = .next z → Keeps a z := by
  intro z e; cases e
  repeat' first | with_reducible assumption | with_reducible apply onHearth_keeps | with_reducible apply rngInit_keeps

theorem rangeReady_keeps {a : State} {h r : Nat} {s : State} (k : Keeps a s) : Keeps a (rangeReady h r s) := by
  unfold rangeReady
  repeat' first
    | with_reducible assumption | split | with_reducible apply State.modMem_keeps | with_reducible apply raiseMem_keeps
    | with_reducible apply State.wr_keeps | (intro m e; exact memClear_wf _ _ _ (memClear_wf _ _ _ e))

theorem execMemRangeReady_keeps {a : State} {h : Fin 16} {r : Fin 8} {s : State} (k : Keeps a s) : ∀ z, execMemRangeReady h r s
    = .next z → Keeps a z := by
  intro z e; cases e
  repeat' first | with_reducible assumption | with_reducible apply rangeReady_keeps

theorem reencDone_keeps {a : State} {h : Nat} {s : State} (k : Keeps a s) : Keeps a (reencDone h s) := by
  unfold reencDone
  repeat' first
    | with_reducible assumption | split | with_reducible apply State.modMem_keeps | with_reducible apply State.wr_keeps
    | (intros; with_reducible assumption)

theorem execReencryptionDone_keeps {a : State} {h : Fin 16} {s : State} (k : Keeps a s) : ∀ z, execReencryptionDone h s = .next
    z → Keeps a z := by
  intro z e; cases e
  repeat' first | with_reducible assumption | with_reducible apply reencDone_keeps

theorem execOwnGo_keeps {a : State} {h : Fin 16} {who : Requester} {s : State} (k : Keeps a s) : ∀ z, execOwnGo h who s = .next
    z → Keeps a z := by
  intro z e; cases e
  repeat' first | with_reducible assumption | with_reducible apply onHearth_keeps | with_reducible apply ownGo_keeps

theorem execOwnershipSync_keeps {a : State} {h : Fin 16} {who : Requester} {s : State} (k : Keeps a s) : ∀ z, execOwnershipSync
    h who s = .next z → Keeps a z := by
  intro z e; cases e
  repeat' first | with_reducible assumption | with_reducible apply onHearth_keeps | with_reducible apply ownSync_keeps

theorem setOwner_keeps {a : State} {h page entry : Nat} {s : State} (k : Keeps a s) : Keeps a (setOwner h page entry s) := by
  unfold setOwner
  repeat' first
    | with_reducible assumption | split | with_reducible apply ddrZero_keeps | with_reducible apply State.modMem_keeps
    | (intros; with_reducible assumption)

theorem ownSyncDone_keeps {a : State} {h : Nat} {s : State} (k : Keeps a s) : Keeps a (ownSyncDone h s) := by
  unfold ownSyncDone
  repeat' first
    | with_reducible assumption | with_reducible apply setOwner_keeps | with_reducible apply State.modMem_keeps
    | with_reducible apply State.wr_keeps | with_reducible apply raiseMem_keeps | (intro m e; exact e)
    | with_reducible apply Keeps.foldl | with_reducible apply Keeps.ite | (intro _ _ _)

theorem execOwnershipSyncDone_keeps {a : State} {h : Fin 16} {s : State} (k : Keeps a s) : ∀ z, execOwnershipSyncDone h s =
    .next z → Keeps a z := by
  intro z e; cases e
  repeat' first | with_reducible assumption | with_reducible apply ownSyncDone_keeps

theorem execMpuSync_keeps {a : State} {h : Fin 16} {m : Fin 26} {who : Requester} {s : State} (k : Keeps a s) : ∀ z, execMpuSync
    h m who s = .next z → Keeps a z := by
  intro z e; cases e
  repeat' first | with_reducible assumption | with_reducible apply onHearth_keeps | with_reducible apply mpuSync_keeps

theorem mpuSyncDone_keeps {a : State} {h m : Nat} {s : State} (k : Keeps a s) : Keeps a (mpuSyncDone h m s) := by
  unfold mpuSyncDone
  repeat' first
    | with_reducible assumption | with_reducible apply State.modMem_keeps | with_reducible apply State.wr_keeps
    | (intro m e; exact e) | with_reducible apply Keeps.ite

theorem execMpuSyncDone_keeps {a : State} {h : Fin 16} {m : Fin 26} {s : State} (k : Keeps a s) : ∀ z, execMpuSyncDone h m s =
    .next z → Keeps a z := by
  intro z e; cases e
  repeat' first | with_reducible assumption | with_reducible apply mpuSyncDone_keeps

theorem onPwrCtrl_keeps {a : State} {h : Nat} {who : Requester} {d : Nat} {f : State → State} {s : State} (hf : ∀ x0, Keeps a x0
    → Keeps a (f x0)) (k : Keeps a s) : Keeps a (onPwrCtrl h who d f s) := by
  unfold onPwrCtrl
  repeat' first | with_reducible assumption | split | with_reducible apply onHearth_keeps | with_reducible apply refuse_keeps

theorem execPwrTargetWrite_keeps {a : State} {h : Fin 16} {who : Requester} {data : Word} {s : State} (k : Keeps a s) : ∀ z,
    execPwrTargetWrite h who data s = .next z → Keeps a z := by
  intro z e; cases e
  repeat' first | with_reducible assumption | with_reducible apply onPwrCtrl_keeps | with_reducible apply setTarget_keeps

theorem doH1Entry_keeps {a : State} {h : Nat} {s : State} (k : Keeps a s) : Keeps a (doH1Entry h s) := by
  unfold doH1Entry
  repeat' first
    | with_reducible assumption | with_reducible apply State.modH_keeps | with_reducible apply Keeps.ite
    | (intros; exact .same rfl rfl rfl)

theorem execH1Entry_keeps {a : State} {h : Fin 16} {s : State} (k : Keeps a s) : ∀ z, execH1Entry h s = .next z → Keeps a z
    := by
  intro z e; cases e
  repeat' first | with_reducible assumption | with_reducible apply doH1Entry_keeps

theorem execH1Wake_keeps {a : State} {h : Fin 16} {s : State} (k : Keeps a s) : ∀ z, execH1Wake h s = .next z → Keeps a z := by
  intro z e; cases e
  repeat' first | with_reducible assumption | split | with_reducible apply wakeHearth_keeps

theorem doH2Entry_keeps {a : State} {h : Nat} {s : State} (k : Keeps a s) : Keeps a (doH2Entry h s) := by
  unfold doH2Entry
  repeat' first
    | with_reducible assumption | with_reducible apply State.modH_keeps | with_reducible apply Keeps.ite
    | (intros; exact .same rfl rfl rfl)

theorem execH2Entry_keeps {a : State} {h : Fin 16} {s : State} (k : Keeps a s) : ∀ z, execH2Entry h s = .next z → Keeps a z
    := by
  intro z e; cases e
  repeat' first | with_reducible assumption | with_reducible apply doH2Entry_keeps

theorem execH2ExitDone_keeps {a : State} {h : Fin 16} {s : State} (k : Keeps a s) : ∀ z, execH2ExitDone h s = .next z → Keeps a
    z := by
  intro z e; cases e
  repeat' first | with_reducible assumption | split | with_reducible apply wakeHearth_keeps

theorem doH3Entry_keeps {a : State} {h : Nat} {s : State} (k : Keeps a s) : Keeps a (doH3Entry h s) := by
  unfold doH3Entry
  repeat' first
    | with_reducible assumption | with_reducible apply dropRanges_keeps | with_reducible apply State.wr_keeps
    | with_reducible apply State.modH_keeps | with_reducible apply State.setHState_keeps
    | with_reducible apply clearImages_keeps | with_reducible apply Keeps.ite | (intros; exact .same rfl rfl rfl)

theorem execH3Entry_keeps {a : State} {h : Fin 16} {s : State} (k : Keeps a s) : ∀ z, execH3Entry h s = .next z → Keeps a z
    := by
  intro z e; cases e
  repeat' first | with_reducible assumption | with_reducible apply doH3Entry_keeps

theorem execProfileWrite_keeps {a : State} {h : Fin 16} {who : Requester} {data : Word} {s : State} (k : Keeps a s) : ∀ z,
    execProfileWrite h who data s = .next z → Keeps a z := by
  intro z e; cases e
  repeat' first | with_reducible assumption | with_reducible apply onPwrCtrl_keeps | with_reducible apply setProfile_keeps

theorem doProfileDone_keeps {a : State} {h : Nat} {s : State} (k : Keeps a s) : Keeps a (doProfileDone h s) := by
  unfold doProfileDone
  repeat' first
    | with_reducible assumption | split | with_reducible apply State.modH_keeps | with_reducible apply raiseH_keeps
    | with_reducible apply deliverPulses_keeps | (intros; exact .same rfl rfl rfl)

theorem execPwrProfileDone_keeps {a : State} {h : Fin 16} {s : State} (k : Keeps a s) : ∀ z, execPwrProfileDone h s = .next z →
    Keeps a z := by
  intro z e; cases e
  repeat' first | with_reducible assumption | with_reducible apply doProfileDone_keeps

theorem setFlatten_keeps {a : State} {h v : Nat} {s : State} (k : Keeps a s) : Keeps a (setFlatten h v s) := by
  unfold setFlatten
  repeat' first | with_reducible assumption | with_reducible apply setFields_keeps

theorem execFlattenWrite_keeps {a : State} {h : Fin 16} {who : Requester} {data : Word} {s : State} (k : Keeps a s) : ∀ z,
    execFlattenWrite h who data s = .next z → Keeps a z := by
  intro z e; cases e
  repeat' first | with_reducible assumption | with_reducible apply onPwrCtrl_keeps | with_reducible apply setFlatten_keeps

theorem execPwrBlkReqWrite_keeps {a : State} {h : Fin 16} {who : Requester} {hi : Bool} {data : Word} {s : State} (k : Keeps a
    s) : ∀ z, execPwrBlkReqWrite h who hi data s = .next z → Keeps a z := by
  intro z e; cases e
  repeat' first | with_reducible assumption | with_reducible apply onHearth_keeps | with_reducible apply writeBlkReq_keeps

theorem doBlockDone_keeps {a : State} {h b : Nat} {s : State} (k : Keeps a s) : Keeps a (doBlockDone h b s) := by
  unfold doBlockDone
  repeat' first
    | with_reducible assumption | with_reducible apply setBlock_keeps | with_reducible apply killBlock_keeps
    | with_reducible apply requestKat_keeps | with_reducible apply Keeps.ite

theorem execBlockPowerDone_keeps {a : State} {h : Fin 16} {b : Fin 20} {s : State} (k : Keeps a s) : ∀ z, execBlockPowerDone h b
    s = .next z → Keeps a z := by
  intro z e; cases e
  repeat' first | with_reducible assumption | with_reducible apply doBlockDone_keeps

theorem execPwrHoldWrite_keeps {a : State} {h : Fin 16} {who : Requester} {data : Word} {s : State} (k : Keeps a s) : ∀ z,
    execPwrHoldWrite h who data s = .next z → Keeps a z := by
  intro z e; cases e
  repeat' first | with_reducible assumption | with_reducible apply onHearth_keeps | with_reducible apply writeHold_keeps

end Sys2Proof.Machine
end

