-- ==== Sys2Proof/Laws/KeepsPages.lean ====
section
/-! SUPPORT. What one step can do to the whole state (`Keeps`), function by function: the recorders, dumps, register writes, memory accesses, SPDM and TDISP. -/

namespace Sys2Proof.Machine

theorem State.modSpdm_keeps {a s : State} {f : Spdm → Spdm} (k : Keeps a s) : Keeps a (State.modSpdm s f) := by
  unfold State.modSpdm
  repeat' first | with_reducible assumption | with_reducible apply State.modFlue_keeps

theorem State.modSession_keeps {a s : State} {i : Nat} {f : Session → Session} (k : Keeps a s) : Keeps a (State.modSession s i
    f) := by
  unfold State.modSession
  repeat' first | with_reducible assumption | with_reducible apply State.modSpdm_keeps

theorem sendIn_keeps {a : State} {i code : Nat} {m : Bytes} {s : State} (k : Keeps a s) : Keeps a (sendIn i code m s) := by
  unfold sendIn
  repeat' first
    | with_reducible assumption | split | with_reducible apply State.emit_keeps | with_reducible apply State.modSession_keeps

theorem respond_keeps {a : State} {session : Option Nat} {m : Bytes} {s : State} (k : Keeps a s) : Keeps a (respond session m s)
    := by
  unfold respond
  repeat' first | with_reducible assumption | split | with_reducible apply State.emit_keeps | with_reducible apply sendIn_keeps

theorem securedRequest_keeps {a : State} {i : Nat} {f : State → State} {s : State} (hf : ∀ x0, Keeps a x0 → Keeps a (f x0)) (k :
    Keeps a s) : Keeps a (securedRequest i f s) := by
  unfold securedRequest
  repeat' first | with_reducible assumption | split | with_reducible apply respond_keeps | with_reducible apply hf

theorem vendorSend_keeps {a : State} {i protocol code : Nat} {body : Bytes} {s : State} (k : Keeps a s) : Keeps a (vendorSend i
    protocol code body s) := by
  unfold vendorSend
  repeat' first | with_reducible assumption | with_reducible apply sendIn_keeps

theorem tdispSend_keeps {a : State} {i v code : Nat} {body : Bytes} {s : State} (k : Keeps a s) : Keeps a (tdispSend i v code
    body s) := by
  unfold tdispSend
  repeat' first | with_reducible assumption | with_reducible apply vendorSend_keeps

theorem tdispError_keeps {a : State} {i v : Nat} {e : TdispErr} {s : State} (k : Keeps a s) : Keeps a (tdispError i v e s) := by
  unfold tdispError
  repeat' first | with_reducible assumption | with_reducible apply tdispSend_keeps

theorem tdispRequest_keeps {a : State} {i v : Nat} {f : State → State} {s : State} (hf : ∀ x0, Keeps a x0 → Keeps a (f x0)) (k :
    Keeps a s) : Keeps a (tdispRequest i v f s) := by
  unfold tdispRequest
  repeat' first
    | with_reducible assumption | split | with_reducible apply securedRequest_keeps | with_reducible apply tdispError_keeps
    | (intro _) | with_reducible apply hf

theorem execGetTdispVersion_keeps {a : State} {session : Fin 8} {v : Fin 512} {s : State} (k : Keeps a s) : ∀ z,
    execGetTdispVersion session v s = .next z → Keeps a z := by
  intro z e; cases e
  repeat' first | with_reducible assumption | with_reducible apply tdispRequest_keeps | with_reducible apply tdispSend_keeps

theorem noteB_keeps {a : State} {session : Option Nat} {m : Bytes} {s : State} (k : Keeps a s) : Keeps a (noteB session m s)
    := by
  unfold noteB
  repeat' first | with_reducible assumption | split | with_reducible apply State.modSpdm_keeps

theorem freeze_keeps {a : State} {unit : Option Nat} {who : Requester} {s : State} (k : Keeps a s) : Keeps a (freeze unit who s)
    := by
  unfold freeze
  repeat' first
    | with_reducible assumption | with_reducible apply refuse_keeps | with_reducible apply State.wr_keeps
    | with_reducible apply Keeps.ite

theorem drain_keeps {a : State} {unit : Option Nat} {s : State} (k : Keeps a s) : Keeps a (drain unit s) := by
  unfold drain
  repeat' first
    | with_reducible assumption | split | with_reducible apply State.setRecorder_keeps | with_reducible apply raiseQuiet_keeps
    | with_reducible apply State.wr_keeps | with_reducible apply enterFatal_keeps | with_reducible apply State.modH_keeps
    | with_reducible apply raiseBit_keeps | with_reducible apply Keeps.ite | (intros; exact .same rfl rfl rfl)

theorem unfreeze_keeps {a : State} {unit : Option Nat} {who : Requester} {s : State} (k : Keeps a s) : Keeps a (unfreeze unit
    who s) := by
  unfold unfreeze
  repeat' first
    | with_reducible assumption | with_reducible apply refuse_keeps | with_reducible apply drain_keeps
    | with_reducible apply State.wr_keeps | with_reducible apply Keeps.ite

theorem ack_keeps {a : State} {unit : Option Nat} {who : Requester} {seq : Nat} {s : State} (k : Keeps a s) : Keeps a (ack unit
    who seq s) := by
  unfold ack
  repeat' first
    | with_reducible assumption | split | with_reducible apply refuse_keeps | with_reducible apply State.setRecorder_keeps
    | with_reducible apply drain_keeps | with_reducible apply Keeps.ite

theorem clearOnes_keeps {a : State} {p : Page} {off d : Nat} {s : State} (k : Keeps a s) : Keeps a (clearOnes p off d s) := by
  unfold clearOnes
  repeat' first
    | with_reducible assumption | with_reducible apply State.wr_keeps | with_reducible apply Keeps.foldl | (intro _ _ _)

theorem putWord_keeps {a : State} {p : Page} {who : Requester} {off d : Nat} {s : State} (k : Keeps a s) : Keeps a (putWord p
    who off d s) := by
  unfold putWord
  repeat' first
    | with_reducible assumption | with_reducible apply setFields_keeps | with_reducible apply refuse_keeps
    | with_reducible apply Keeps.ite

theorem plainWord_keeps {a : State} {ok : Bool} {p : Page} {who : Requester} {off d : Nat} {s : State} (k : Keeps a s) : Keeps a
    (plainWord ok p who off d s) := by
  unfold plainWord
  repeat' first
    | with_reducible assumption | split | with_reducible apply refuse_keeps | with_reducible apply clearOnes_keeps
    | with_reducible apply putWord_keeps

theorem recorderWrite_keeps {a : State} {unit : Option Nat} {who : Requester} {off d : Nat} {s : State} (k : Keeps a s) : Keeps
    a (recorderWrite unit who off d s) := by
  unfold recorderWrite
  repeat' first
    | with_reducible assumption | with_reducible apply refuse_keeps | with_reducible apply setFields_keeps
    | with_reducible apply freeze_keeps | with_reducible apply unfreeze_keeps | with_reducible apply ack_keeps
    | with_reducible apply plainWord_keeps | with_reducible apply Keeps.ite

theorem doKeyUpdate_keeps {a : State} {i : Nat} {msg : Bytes} {s : State} (hs : Keeps a s) : ∀ z, doKeyUpdate i msg s = .ok z → Keeps a z.1 := by
  intro z hz; unfold doKeyUpdate at hz; dsimp only at hz
  repeat' split at hz
  all_goals first | (cases hz; done) | (simp only [Except.ok.injEq] at hz; subst hz; dsimp only; exact State.modSession_keeps hs)

theorem spdmSign_keeps {a : State} {context : String} {m : Bytes} {s : State} (k : Keeps a s) : Keeps a (spdmSign context m s).2
    := by
  unfold spdmSign
  repeat' first
    | with_reducible assumption | split | with_reducible apply State.free_keeps
    | with_reducible apply Keeps.snd (by assumption) | done

theorem setMsgL_keeps {a : State} {session : Option Nat} {m : Bytes} {s : State} (k : Keeps a s) : Keeps a (setMsgL session m s)
    := by
  unfold setMsgL
  repeat' first
    | with_reducible assumption | split | with_reducible apply State.modSpdm_keeps
    | with_reducible apply State.modSession_keeps

theorem doGetMeasurements_keeps {a : State} {session : Option Nat} {msg : Bytes} {s : State} (k : Keeps a s) : ∀ z,
    doGetMeasurements session msg s = .ok z → Keeps a z.1 := by
  intro z e; unfold doGetMeasurements at e; simp only [bind, Except.bind] at e
  repeat' split at e
  all_goals first | (cases e; done) | skip
  all_goals
    (try simp only [Except.ok.injEq] at e); subst e
    repeat' first
      | with_reducible assumption | with_reducible apply State.free_keeps | with_reducible apply spdmSign_keeps
      | with_reducible apply setMsgL_keeps

theorem doGetVersion_keeps {a : State} {msg : Bytes} {s : State} (hs : Keeps a s) : ∀ z, doGetVersion msg s = .ok z → Keeps a z.1 := by
  intro z hz; unfold doGetVersion at hz
  repeat' split at hz
  · cases hz
  · cases hz
  · simp only [Except.ok.injEq] at hz; subst hz; dsimp only; exact State.modSpdm_keeps hs

theorem dumpOpen_keeps {a : State} {r : AdminReq} {s : State} (k : Keeps a s) : Keeps a (dumpOpen r s).1 := by
  unfold dumpOpen; dsimp only
  repeat' first | with_reducible assumption | split | with_reducible apply derived_keeps

theorem execDumpOpen_keeps {a : State} {q : Fin 4} {rd : AdminRead} {s : State} (k : Keeps a s) : ∀ z, execDumpOpen q rd s =
    .next z → Keeps a z := by
  intro z e; refine adminRow_keeps ?_ ?_ z e
  all_goals
    repeat' first | with_reducible assumption | with_reducible apply dumpOpen_keeps

theorem dumpClear_keeps {a : State} {r : AdminReq} {s : State} (hs : Keeps a s) : Keeps a (dumpClear r s).1 := by
  unfold dumpClear; dsimp only; repeat' split
  all_goals first | exact hs | (dsimp only; with_reducible apply State.modMem_keeps hs; exact fun m e => memSet_wf _ _ _ e)

theorem execDumpClear_keeps {a : State} {q : Fin 4} {rd : AdminRead} {s : State} (k : Keeps a s) : ∀ z, execDumpClear q rd s =
    .next z → Keeps a z := by
  intro z e; refine adminRow_keeps ?_ ?_ z e
  all_goals
    repeat' first | with_reducible assumption | with_reducible apply dumpClear_keeps

theorem keyProg_keeps {a : State} {rid : Nat} {m : Bytes} {s : State} (k : Keeps a s) : Keeps a (keyProg rid m s).1 := by
  unfold keyProg; dsimp only
  repeat' first | with_reducible assumption | split | with_reducible apply State.modFlue_keeps

theorem streamInsecure_keeps {a : State} {n : Nat} {s : State} (k : Keeps a s) : Keeps a (streamInsecure n s) := by
  unfold streamInsecure
  repeat' first
    | with_reducible assumption | split | with_reducible apply State.modFlue_keeps | with_reducible apply tdiError_keeps

theorem keyGoStop_keeps {a : State} {go : Bool} {m : Bytes} {s : State} (k : Keeps a s) : Keeps a (keyGoStop go m s) := by
  unfold keyGoStop; dsimp only
  repeat' first
    | with_reducible assumption | split | with_reducible apply streamInsecure_keeps | with_reducible apply State.modFlue_keeps

theorem doIdeKm_keeps {a : State} {i rid : Nat} {m : Bytes} {s : State} (k : Keeps a s) : Keeps a (doIdeKm i rid m s) := by
  unfold doIdeKm
  repeat' first
    | with_reducible assumption | with_reducible apply vendorSend_keeps | with_reducible apply keyProg_keeps
    | with_reducible apply keyGoStop_keeps | with_reducible apply Keeps.fst (by assumption) | with_reducible apply Keeps.ite

theorem execIdeKm_keeps {a : State} {session : Fin 8} {rid : Fin 514} {msg : Bytes} {s : State} (k : Keeps a s) : ∀ z, execIdeKm
    session rid msg s = .next z → Keeps a z := by
  intro z e; cases e
  repeat' first | with_reducible assumption | with_reducible apply securedRequest_keeps | with_reducible apply doIdeKm_keeps

theorem execIdeStreamInsecure_keeps {a : State} {stream : Fin 65} {s : State} (k : Keeps a s) : ∀ z, execIdeStreamInsecure
    stream s = .next z → Keeps a z := by
  intro z e; cases e
  repeat' first | with_reducible assumption | split | with_reducible apply streamInsecure_keeps

theorem execGetTdispCapabilities_keeps {a : State} {session : Fin 8} {v : Fin 512} {s : State} (k : Keeps a s) : ∀ z,
    execGetTdispCapabilities session v s = .next z → Keeps a z := by
  intro z e; cases e
  repeat' first | with_reducible assumption | with_reducible apply tdispRequest_keeps | with_reducible apply tdispSend_keeps

theorem setTdi_keeps {a : State} {v : Nat} {t : TdiState} {nonce : Bytes} {s : State} (k : Keeps a s) : Keeps a (setTdi v t
    nonce s) := by
  unfold setTdi
  repeat' first | with_reducible assumption | with_reducible apply State.setFt_keeps | with_reducible apply State.modVf_keeps

theorem lockInterface_keeps {a : State} {i v : Nat} {m : Bytes} {s : State} (k : Keeps a s) : Keeps a (lockInterface i v m s)
    := by
  unfold lockInterface
  repeat' first
    | with_reducible assumption | split | with_reducible apply tdispError_keeps | with_reducible apply State.free_keeps
    | with_reducible apply tdispSend_keeps | with_reducible apply State.modVf_keeps | with_reducible apply setTdi_keeps
    | with_reducible apply Keeps.snd (by assumption) | done

theorem execLockInterface_keeps {a : State} {session : Fin 8} {v : Fin 512} {msg : Bytes} {s : State} (k : Keeps a s) : ∀ z,
    execLockInterface session v msg s = .next z → Keeps a z := by
  intro z e; cases e
  repeat' first | with_reducible assumption | with_reducible apply tdispRequest_keeps | with_reducible apply lockInterface_keeps

theorem sendReport_keeps {a : State} {i v off len : Nat} {s : State} (k : Keeps a s) : Keeps a (sendReport i v off len s) := by
  unfold sendReport
  repeat' first
    | with_reducible assumption | with_reducible apply tdispError_keeps | with_reducible apply tdispSend_keeps
    | with_reducible apply Keeps.ite

theorem execGetDeviceInterfaceReport_keeps {a : State} {session : Fin 8} {v : Fin 512} {off len : BitVec 16} {s : State} (k :
    Keeps a s) : ∀ z, execGetDeviceInterfaceReport session v off len s = .next z → Keeps a z := by
  intro z e; cases e
  repeat' first | with_reducible assumption | with_reducible apply tdispRequest_keeps | with_reducible apply sendReport_keeps

theorem execGetDeviceInterfaceState_keeps {a : State} {session : Fin 8} {v : Fin 512} {s : State} (k : Keeps a s) : ∀ z,
    execGetDeviceInterfaceState session v s = .next z → Keeps a z := by
  intro z e; cases e
  repeat' first
    | with_reducible assumption | with_reducible apply tdispRequest_keeps | with_reducible apply tdispSend_keeps | (intro _)

theorem startInterface_keeps {a : State} {i v : Nat} {nonce : Bytes} {s : State} (k : Keeps a s) : Keeps a (startInterface i v
    nonce s) := by
  unfold startInterface
  repeat' first
    | with_reducible assumption | split | with_reducible apply tdispError_keeps | with_reducible apply tdispSend_keeps
    | with_reducible apply setTdi_keeps

theorem execStartInterface_keeps {a : State} {session : Fin 8} {v : Fin 512} {nonce : Bytes} {s : State} (k : Keeps a s) : ∀ z,
    execStartInterface session v nonce s = .next z → Keeps a z := by
  intro z e; cases e
  repeat' first
    | with_reducible assumption | with_reducible apply tdispRequest_keeps | with_reducible apply startInterface_keeps

theorem execStopInterface_keeps {a : State} {session : Fin 8} {v : Fin 512} {s : State} (k : Keeps a s) : ∀ z, execStopInterface
    session v s = .next z → Keeps a z := by
  intro z e; cases e
  repeat' first
    | with_reducible assumption | with_reducible apply tdispRequest_keeps | with_reducible apply tdispSend_keeps
    | with_reducible apply setTdi_keeps | (intro _)

theorem spdmRequest_keeps {a : State} {session : Option Nat} {msg : Bytes} {f : State → SpdmAns} {s : State} (hf : ∀ x z, Keeps a x → f x = .ok z → Keeps a z.1) (hs : Keeps a s) : Keeps a (spdmRequest session msg f s) := by
  unfold spdmRequest; repeat' split
  · exact hs
  · rename_i e; exact respond_keeps (hf _ _ hs e)
  · exact respond_keeps hs

theorem execGetVersion_keeps {a : State} {msg : Bytes} {s : State} (k : Keeps a s) : ∀ z, execGetVersion msg s = .next z → Keeps
    a z := by
  intro z e; cases e
  repeat' first
    | with_reducible assumption | with_reducible apply spdmRequest_keeps | with_reducible apply doGetVersion_keeps
    | (intro _ _ _)

theorem doGetCapabilities_keeps {a : State} {msg : Bytes} {s : State} (k : Keeps a s) : ∀ z, doGetCapabilities msg s = .ok z →
    Keeps a z.1 := by
  intro z e; unfold doGetCapabilities at e; simp only [bind, Except.bind] at e
  repeat' split at e
  all_goals first | (cases e; done) | skip
  all_goals
    (try simp only [Except.ok.injEq] at e); subst e
    repeat' first | with_reducible assumption | with_reducible apply State.modSpdm_keeps

theorem execGetCapabilities_keeps {a : State} {msg : Bytes} {s : State} (k : Keeps a s) : ∀ z, execGetCapabilities msg s = .next
    z → Keeps a z := by
  intro z e; cases e
  repeat' first
    | with_reducible assumption | with_reducible apply spdmRequest_keeps | with_reducible apply doGetCapabilities_keeps
    | (intro _ _ _)

theorem doNegotiate_keeps {a : State} {msg : Bytes} {s : State} (k : Keeps a s) : ∀ z, doNegotiate msg s = .ok z → Keeps a z.1
    := by
  intro z e; unfold doNegotiate at e; simp only [bind, Except.bind] at e
  repeat' split at e
  all_goals first | (cases e; done) | skip
  all_goals
    (try simp only [Except.ok.injEq] at e); subst e
    repeat' first | with_reducible assumption | with_reducible apply State.modSpdm_keeps

theorem execNegotiateAlgorithms_keeps {a : State} {msg : Bytes} {s : State} (k : Keeps a s) : ∀ z, execNegotiateAlgorithms msg s
    = .next z → Keeps a z := by
  intro z e; cases e
  repeat' first
    | with_reducible assumption | with_reducible apply spdmRequest_keeps | with_reducible apply doNegotiate_keeps
    | (intro _ _ _)

theorem doGetDigests_keeps {a : State} {session : Option Nat} {msg : Bytes} {s : State} (k : Keeps a s) : ∀ z, doGetDigests
    session msg s = .ok z → Keeps a z.1 := by
  intro z e; unfold doGetDigests at e; simp only [bind, Except.bind] at e
  repeat' split at e
  all_goals first | (cases e; done) | skip
  all_goals
    (try simp only [Except.ok.injEq] at e); subst e
    repeat' first | with_reducible assumption | with_reducible apply noteB_keeps

theorem execGetDigests_keeps {a : State} {session : Option (Fin 8)} {msg : Bytes} {s : State} (k : Keeps a s) : ∀ z,
    execGetDigests session msg s = .next z → Keeps a z := by
  intro z e; cases e
  repeat' first
    | with_reducible assumption | with_reducible apply spdmRequest_keeps | with_reducible apply doGetDigests_keeps
    | (intro _ _ _)

theorem doGetCertificate_keeps {a : State} {session : Option Nat} {msg : Bytes} {s : State} (k : Keeps a s) : ∀ z,
    doGetCertificate session msg s = .ok z → Keeps a z.1 := by
  intro z e; unfold doGetCertificate at e; simp only [bind, Except.bind] at e
  repeat' split at e
  all_goals first | (cases e; done) | skip
  all_goals
    (try simp only [Except.ok.injEq] at e); subst e
    repeat' first | with_reducible assumption | with_reducible apply noteB_keeps

theorem execGetCertificate_keeps {a : State} {session : Option (Fin 8)} {msg : Bytes} {s : State} (k : Keeps a s) : ∀ z,
    execGetCertificate session msg s = .next z → Keeps a z := by
  intro z e; cases e
  repeat' first
    | with_reducible assumption | with_reducible apply spdmRequest_keeps | with_reducible apply doGetCertificate_keeps
    | (intro _ _ _)

theorem doChallenge_keeps {a : State} {msg : Bytes} {s : State} (k : Keeps a s) : ∀ z, doChallenge msg s = .ok z → Keeps a z.1
    := by
  intro z e; unfold doChallenge at e; simp only [bind, Except.bind] at e
  repeat' split at e
  all_goals first | (cases e; done) | skip
  all_goals
    (try simp only [Except.ok.injEq] at e); subst e
    repeat' first
      | with_reducible assumption | with_reducible apply State.free_keeps | with_reducible apply spdmSign_keeps
      | with_reducible apply State.modSpdm_keeps

theorem execChallenge_keeps {a : State} {msg : Bytes} {s : State} (k : Keeps a s) : ∀ z, execChallenge msg s = .next z → Keeps a
    z := by
  intro z e; cases e
  repeat' first
    | with_reducible assumption | with_reducible apply spdmRequest_keeps | with_reducible apply doChallenge_keeps
    | (intro _ _ _)

theorem execGetMeasurements_keeps {a : State} {session : Option (Fin 8)} {msg : Bytes} {s : State} (k : Keeps a s) : ∀ z,
    execGetMeasurements session msg s = .next z → Keeps a z := by
  intro z e; cases e
  repeat' first
    | with_reducible assumption | with_reducible apply spdmRequest_keeps | with_reducible apply doGetMeasurements_keeps
    | (intro _ _ _)

theorem doKeyExchange_keeps {a : State} {msg : Bytes} {s : State} (k : Keeps a s) : ∀ z, doKeyExchange msg s = .ok z → Keeps a
    z.1 := by
  intro z e; unfold doKeyExchange at e; simp only [bind, Except.bind] at e
  repeat' split at e
  all_goals first | (cases e; done) | skip
  all_goals
    (try simp only [Except.ok.injEq] at e); subst e
    repeat' first
      | with_reducible assumption | with_reducible apply State.free_keeps | with_reducible apply spdmSign_keeps
      | with_reducible apply State.modSession_keeps

theorem execKeyExchange_keeps {a : State} {msg : Bytes} {s : State} (k : Keeps a s) : ∀ z, execKeyExchange msg s = .next z →
    Keeps a z := by
  intro z e; cases e
  repeat' first
    | with_reducible assumption | with_reducible apply spdmRequest_keeps | with_reducible apply doKeyExchange_keeps
    | (intro _ _ _)

theorem endSession_keeps {a : State} {i : Nat} {s : State} (k : Keeps a s) : Keeps a (endSession i s) := by
  unfold endSession
  repeat' first | with_reducible assumption | with_reducible apply State.modSpdm_keeps

theorem doFinish_keeps {a : State} {i : Nat} {msg : Bytes} {s : State} (k : Keeps a s) : Keeps a (doFinish i msg s) := by
  unfold doFinish
  repeat' first
    | with_reducible assumption | split | with_reducible apply respond_keeps | with_reducible apply endSession_keeps
    | with_reducible apply State.modSession_keeps | with_reducible apply Keeps.ite

theorem execFinish_keeps {a : State} {session : Fin 8} {msg : Bytes} {s : State} (k : Keeps a s) : ∀ z, execFinish session msg s
    = .next z → Keeps a z := by
  intro z e; cases e
  repeat' first | with_reducible assumption | with_reducible apply doFinish_keeps

theorem sessionRequest_keeps {a : State} {i code : Nat} {msg : Bytes} {f : State → SpdmAns} {s : State} (hf : ∀ x z, Keeps a x → f x = .ok z → Keeps a z.1) (hs : Keeps a s) : Keeps a (sessionRequest i code msg f s) := by
  refine spdmRequest_keeps (fun x z k e => ?_) hs
  simp only [bind, Except.bind] at e
  repeat' split at e
  all_goals first | (cases e; done) | exact hf _ _ k e

theorem execKeyUpdate_keeps {a : State} {session : Fin 8} {msg : Bytes} {s : State} (k : Keeps a s) : ∀ z, execKeyUpdate session
    msg s = .next z → Keeps a z := by
  intro z e; cases e
  repeat' first
    | with_reducible assumption | with_reducible apply sessionRequest_keeps | with_reducible apply doKeyUpdate_keeps
    | (intro _ _ _)

theorem execHeartbeat_keeps {a : State} {session : Fin 8} {msg : Bytes} {s : State} (hs : Keeps a s) : ∀ z, execHeartbeat session msg s = .next z → Keeps a z := by
  intro z hz; cases hz; exact sessionRequest_keeps (fun x z k e => by cases e; exact k) hs

theorem doEndSession_keeps {a : State} {i : Nat} {msg : Bytes} {s : State} (hs : Keeps a s) : Keeps a (doEndSession i msg s) := by
  unfold doEndSession
  have k := sessionRequest_keeps (i := i) (code := 0xEC) (msg := msg) (f := fun s => .ok (s, [0x13, 0x6C, 0, 0])) (fun x z k e => by cases e; exact k) hs
  generalize sessionRequest i 0xEC msg (fun s => .ok (s, [0x13, 0x6C, 0, 0])) s = t at *
  dsimp only; split
  · exact hs
  · split
    · exact endSession_keeps k
    · exact k

theorem execEndSession_keeps {a : State} {session : Fin 8} {msg : Bytes} {s : State} (hs : Keeps a s) : ∀ z, execEndSession session msg s = .next z → Keeps a z := by
  intro z e; rw [← Host.Outcome.next.inj e]; exact doEndSession_keeps hs

theorem deliver_keeps {a : State} {h : Nat} {q : Req} {y2 : Nat} {r : State × Answer} (k : Keeps a r.1) : Keeps a (deliver h q
    y2 r) := by
  unfold deliver
  repeat' first
    | with_reducible assumption | split | with_reducible apply accessFault_keeps | with_reducible apply State.emit_keeps

theorem takeRead_keeps {a : State} {f : State → State} {s : State} (hf : ∀ x0, Keeps a x0 → Keeps a (f x0)) (hs : Keeps a s) : Keeps a (takeRead f s).1 := by
  unfold takeRead; dsimp only
  have k := hf s hs
  repeat' split
  · rename_i e
    refine ⟨k.pending, k.variant, k.free, ?_, k.regs, k.hearths, k.chim⟩
    obtain ⟨l, hl⟩ := k.out
    obtain ⟨m, hm⟩ := hs.out
    refine ⟨l.dropLast, ?_⟩
    dsimp only
    rw [hl, List.dropLast_append_of_ne_nil]
    intro hn; subst hn
    rw [hl, hm] at e; simp at e; omega
  · exact k
  · exact k

theorem pageRead_keeps {a : State} {p : Page} {who : Requester} {o n : Nat} {s : State} (k : Keeps a s) : Keeps a (pageRead p
    who o n s).1 := by
  unfold pageRead
  repeat' first
    | with_reducible assumption | split | with_reducible apply capture_keeps | with_reducible apply takeRead_keeps
    | with_reducible apply doDataRead_keeps | with_reducible apply doRawRead_keeps | with_reducible apply bnWindow_keeps

theorem bareFieldsWrite_keeps {a : State} {p : Page} {off d : Nat} {s : State} (k : Keeps a s) : Keeps a (bareFieldsWrite p off
    d s) := by
  unfold bareFieldsWrite
  repeat' first
    | with_reducible assumption | with_reducible apply State.wr_keeps | with_reducible apply Keeps.foldl | (intro _ _ _)

theorem bareWrite_keeps {a : State} {p : Page} {who : Requester} {off d : Nat} {s : State} (k : Keeps a s) : Keeps a (bareWrite
    p who off d s) := by
  unfold bareWrite
  repeat' first
    | with_reducible assumption | split | with_reducible apply bareFieldsWrite_keeps | with_reducible apply unmaskMsix_keeps

theorem softReset_keeps {a : State} {h u : Nat} {who : Requester} {s : State} (hs : Keeps a s) : Keeps a (softReset h u who s) := by
  unfold softReset; dsimp only; repeat' split
  all_goals first | exact refuse_keeps hs | skip
  all_goals
    apply State.modEng_keeps
    repeat apply State.wr_keeps
    exact hs.regsUpd (fun e => ((e.filter _).filter _).filter _)

theorem setLock_keeps {a : State} {p : Page} {who : Requester} {s : State} (k : Keeps a s) : Keeps a (setLock p who s) := by
  unfold setLock
  repeat' first
    | with_reducible assumption | with_reducible apply State.wr_keeps | with_reducible apply refuse_keeps
    | with_reducible apply Keeps.ite

theorem inject_keeps {a : State} {p : Page} {who : Requester} {data : Nat} {s : State} (k : Keeps a s) : Keeps a (inject p who
    data s) := by
  unfold inject
  repeat' first
    | with_reducible assumption | with_reducible apply raiseH_keeps | with_reducible apply refuse_keeps
    | with_reducible apply raiseFlue_keeps | with_reducible apply Keeps.foldl | with_reducible apply Keeps.ite | (intro _ _ _)

theorem clearCapture_keeps {a : State} {p : Page} {who : Requester} {d : Nat} {s : State} (k : Keeps a s) : Keeps a
    (clearCapture p who d s) := by
  unfold clearCapture
  repeat' first
    | with_reducible assumption | split | with_reducible apply refuse_keeps | with_reducible apply resetPageRegs_keeps

theorem headerWrite_keeps {a : State} {p : Page} {who : Requester} {off d : Nat} {s : State} (k : Keeps a s) : Keeps a
    (headerWrite p who off d s) := by
  unfold headerWrite
  repeat' first
    | with_reducible assumption | split | with_reducible apply softReset_keeps | with_reducible apply setLock_keeps
    | with_reducible apply writeLock_keeps | with_reducible apply refuse_keeps | with_reducible apply clearOnes_keeps
    | with_reducible apply State.wr_keeps | with_reducible apply inject_keeps | with_reducible apply clearCapture_keeps

theorem bootWrite_keeps {a : State} {who : Requester} {off d : Nat} {s : State} (k : Keeps a s) : Keeps a (bootWrite who off d
    s) := by
  unfold bootWrite
  repeat' first
    | with_reducible assumption | split | with_reducible apply refuse_keeps | with_reducible apply doBootRestart_keeps
    | with_reducible apply plainWord_keeps

theorem queueWrite_keeps {a : State} {t : Queue} {who : Requester} {off d : Nat} {s : State} (k : Keeps a s) : Keeps a
    (queueWrite t who off d s) := by
  unfold queueWrite
  repeat' first
    | with_reducible assumption | with_reducible apply enableQp_keeps | with_reducible apply disableQp_keeps
    | with_reducible apply refuse_keeps | with_reducible apply putWord_keeps | with_reducible apply Keeps.ite

theorem latchFlue_keeps {a : State} {is : List Nat} {s : State} (k : Keeps a s) : Keeps a (latchFlue is s) := by
  unfold latchFlue
  repeat' first
    | with_reducible assumption | with_reducible apply State.free_keeps | with_reducible apply State.wr_keeps
    | with_reducible apply Keeps.foldl | with_reducible apply Keeps.snd (by assumption) | (intro _ _ _)

theorem sendMark_keeps {a s : State} (k : Keeps a s) : Keeps a (sendMark s) := by
  unfold sendMark
  repeat' first
    | with_reducible assumption | with_reducible apply addFlue_keeps | with_reducible apply State.wr_keeps
    | with_reducible apply latchFlue_keeps | with_reducible apply Keeps.foldl | (intro _ _ _)

theorem snapGo_keeps {a : State} {who : Requester} {data : Nat} {s : State} (k : Keeps a s) : Keeps a (snapGo who data s) := by
  unfold snapGo
  repeat' first | with_reducible assumption | split | with_reducible apply refuse_keeps | with_reducible apply sendMark_keeps

theorem snapWrite_keeps {a : State} {who : Requester} {off d : Nat} {s : State} (k : Keeps a s) : Keeps a (snapWrite who off d
    s) := by
  unfold snapWrite
  repeat' first
    | with_reducible assumption | split | with_reducible apply refuse_keeps | with_reducible apply setFields_keeps
    | with_reducible apply snapGo_keeps | with_reducible apply plainWord_keeps

theorem routeWrite_keeps {a : State} {p : Page} {who : Requester} {off d : Nat} {s : State} (k : Keeps a s) : Keeps a
    (routeWrite p who off d s) := by
  unfold routeWrite
  repeat' first
    | with_reducible assumption | with_reducible apply putWord_keeps | with_reducible apply setFields_keeps
    | with_reducible apply refuse_keeps | with_reducible apply Keeps.ite

theorem debugWrite_keeps {a : State} {who : Requester} {off d : Nat} {s : State} (k : Keeps a s) : Keeps a (debugWrite who off d
    s) := by
  unfold debugWrite
  repeat' first
    | with_reducible assumption | split | with_reducible apply refuse_keeps | with_reducible apply newChallenge_keeps
    | with_reducible apply submitToken_keeps | with_reducible apply dropEnables_keeps | with_reducible apply plainWord_keeps

theorem tamperWrite_keeps {a : State} {h : Nat} {who : Requester} {off d : Nat} {s : State} (k : Keeps a s) : Keeps a
    (tamperWrite h who off d s) := by
  unfold tamperWrite
  repeat' first
    | with_reducible assumption | split | with_reducible apply refuse_keeps | with_reducible apply doFwTrigger_keeps
    | with_reducible apply doLock_keeps | with_reducible apply doRelease_keeps | with_reducible apply doTrips_keeps
    | with_reducible apply doStickyClear_keeps | with_reducible apply doRespWrite_keeps

theorem policyWrite_keeps {a : State} {h : Nat} {who : Requester} {off d : Nat} {s : State} (k : Keeps a s) : Keeps a
    (policyWrite h who off d s) := by
  unfold policyWrite
  repeat' first
    | with_reducible assumption | with_reducible apply refuse_keeps | with_reducible apply setFields_keeps
    | with_reducible apply putWord_keeps | with_reducible apply Keeps.ite

theorem engineWrite_keeps {a : State} {p : Page} {who : Requester} {off d : Nat} {s : State} (k : Keeps a s) : Keeps a
    (engineWrite p who off d s) := by
  unfold engineWrite
  repeat' first
    | with_reducible assumption | split | with_reducible apply bnStart_keeps | with_reducible apply ceStart_keeps
    | with_reducible apply doBnClear_keeps | with_reducible apply doKatReq_keeps | with_reducible apply bnWindow_keeps
    | with_reducible apply refuse_keeps | with_reducible apply plainWord_keeps | with_reducible apply clearOnes_keeps
    | with_reducible apply putWord_keeps | with_reducible apply Keeps.ite

theorem hobWrite_keeps {a : State} {h : Nat} {who : Requester} {off d : Nat} {s : State} (k : Keeps a s) : Keeps a (hobWrite h
    who off d s) := by
  unfold hobWrite
  repeat' first
    | with_reducible assumption | with_reducible apply refuse_keeps | with_reducible apply doHobMode_keeps
    | with_reducible apply doKatReq_keeps | with_reducible apply doPinfailClr_keeps | with_reducible apply putWord_keeps
    | with_reducible apply doDtValid_keeps | with_reducible apply setFields_keeps | with_reducible apply Keeps.foldl
    | with_reducible apply Keeps.ite | (intro _ _ _)

theorem entropyWrite_keeps {a : State} {h : Nat} {who : Requester} {off d : Nat} {s : State} (k : Keeps a s) : Keeps a
    (entropyWrite h who off d s) := by
  unfold entropyWrite
  repeat' first
    | with_reducible assumption | with_reducible apply refuse_keeps | with_reducible apply doPolicy_keeps
    | with_reducible apply doEntTest_keeps | with_reducible apply putWord_keeps | with_reducible apply State.modEnt_keeps
    | with_reducible apply clearOnes_keeps | with_reducible apply Keeps.ite

theorem rangeWrite_keeps {a : State} {h r : Nat} {who : Requester} {off d : Nat} {s : State} (k : Keeps a s) : Keeps a
    (rangeWrite h r who off d s) := by
  unfold rangeWrite
  repeat' first
    | with_reducible assumption | with_reducible apply clearOnes_keeps | with_reducible apply putWord_keeps
    | with_reducible apply rngInit_keeps | with_reducible apply Keeps.ite

theorem mempathWrite_keeps {a : State} {h : Nat} {who : Requester} {off d : Nat} {s : State} (k : Keeps a s) : Keeps a
    (mempathWrite h who off d s) := by
  unfold mempathWrite
  repeat' first
    | with_reducible assumption | split | with_reducible apply memInit_keeps | with_reducible apply rangeWrite_keeps
    | with_reducible apply putWord_keeps | with_reducible apply ownGo_keeps | with_reducible apply ownSync_keeps
    | with_reducible apply clearOnes_keeps

theorem mpuWrite_keeps {a : State} {h m : Nat} {who : Requester} {off d : Nat} {s : State} (k : Keeps a s) : Keeps a (mpuWrite h
    m who off d s) := by
  unfold mpuWrite
  repeat' first
    | with_reducible assumption | with_reducible apply mpuSync_keeps | with_reducible apply clearOnes_keeps
    | with_reducible apply State.wr_keeps | with_reducible apply putWord_keeps | with_reducible apply State.bump_keeps
    | with_reducible apply Keeps.ite

theorem gateWrite_keeps {a : State} {h : Nat} {who : Requester} {off d : Nat} {s : State} (k : Keeps a s) : Keeps a (gateWrite h
    who off d s) := by
  unfold gateWrite
  repeat' first
    | with_reducible assumption | split | with_reducible apply refuse_keeps | with_reducible apply gateStore_keeps
    | with_reducible apply doGateFault_keeps | with_reducible apply doCoreRelease_keeps | with_reducible apply plainWord_keeps
    | with_reducible apply Keeps.ite

theorem oneGen_keeps {a : State} {p : Page} {f : State → State} {s : State} (hf : ∀ x0, Keeps a x0 → Keeps a (f x0)) (k : Keeps
    a s) : Keeps a (oneGen p f s) := by
  unfold oneGen
  repeat' first
    | with_reducible assumption | with_reducible apply State.wr_keeps | with_reducible apply Keeps.ite
    | with_reducible apply hf

theorem powerWrite_keeps {a : State} {h : Nat} {who : Requester} {off d : Nat} {s : State} (k : Keeps a s) : Keeps a (powerWrite
    h who off d s) := by
  unfold powerWrite
  repeat' first
    | with_reducible assumption | split | with_reducible apply refuse_keeps | with_reducible apply oneGen_keeps
    | with_reducible apply setFields_keeps | with_reducible apply setTarget_keeps | with_reducible apply setProfile_keeps
    | with_reducible apply writeBlkReq_keeps | with_reducible apply writeHold_keeps | with_reducible apply plainWord_keeps
    | (intro _)

theorem pageWrite_keeps {a : State} {g : Nat} {p : Page} {who : Requester} {off d : Nat} {s : State} (k : Keeps a s) : Keeps a
    (pageWrite g p who off d s) := by
  unfold pageWrite
  repeat' first
    | with_reducible assumption | split | with_reducible apply bootWrite_keeps | with_reducible apply refuse_keeps
    | with_reducible apply queueWrite_keeps | with_reducible apply snapWrite_keeps | with_reducible apply recorderWrite_keeps
    | with_reducible apply routeWrite_keeps | with_reducible apply debugWrite_keeps | with_reducible apply tamperWrite_keeps
    | with_reducible apply doBankPeriod_keeps | with_reducible apply doStkMode_keeps | with_reducible apply plainWord_keeps
    | with_reducible apply doFlush_keeps | with_reducible apply policyWrite_keeps | with_reducible apply engineWrite_keeps
    | with_reducible apply hobWrite_keeps | with_reducible apply entropyWrite_keeps | with_reducible apply mempathWrite_keeps
    | with_reducible apply mpuWrite_keeps | with_reducible apply gateWrite_keeps | with_reducible apply powerWrite_keeps

theorem wordWrite_keeps {a : State} {g : Nat} {p : Page} {who : Requester} {off d : Nat} {s : State} (k : Keeps a s) : Keeps a
    (wordWrite g p who off d s) := by
  unfold wordWrite
  repeat' first
    | with_reducible assumption | split | with_reducible apply bareWrite_keeps | with_reducible apply refuse_keeps
    | with_reducible apply headerWrite_keeps | with_reducible apply pageWrite_keeps

theorem badSize_keeps {a : State} {p : Page} {who : Requester} {off d : Nat} {s : State} (k : Keeps a s) : Keeps a (badSize p
    who off d s) := by
  unfold badSize
  repeat' first | with_reducible assumption | split | with_reducible apply refuse_keeps

theorem pageAccess_keeps {a : State} {g : Nat} {p : Page} {q : Req} {o n : Nat} {d : Bytes} {s : State} (k : Keeps a s) : Keeps
    a (pageAccess g p q o n d s).1 := by
  unfold pageAccess
  repeat' first
    | with_reducible assumption | split | with_reducible apply pageRead_keeps | with_reducible apply wordWrite_keeps
    | with_reducible apply badSize_keeps

theorem chimneyAccess_keeps {a : State} {h : Nat} {q : Req} {o n : Nat} {d : Bytes} {s : State} (k : Keeps a s) : Keeps a
    (chimneyAccess h q o n d s).1 := by
  unfold chimneyAccess
  repeat' first | with_reducible assumption | split | with_reducible apply pageAccess_keeps | with_reducible apply capture_keeps

theorem accessAnswer_keeps {a : State} {h : Nat} {q : Req} {y2 n : Nat} {d : Bytes} {c : LineCheck} {s : State} (k : Keeps a s)
    : Keeps a (accessAnswer h q y2 n d c s).1 := by
  unfold accessAnswer
  repeat' first
    | with_reducible assumption | split | with_reducible apply violate_keeps | with_reducible apply pageAccess_keeps
    | with_reducible apply chimneyAccess_keeps | with_reducible apply spanAccess_keeps

theorem memoryAccess_keeps {a : State} {h m kind : Nat} {mm : Bool} {x n : Nat} {d : Bytes} {c : LineCheck} {s : State} (hs : Keeps a s) : Keeps a (memoryAccess h m kind mm x n d c s) := by
  unfold memoryAccess
  have k : Keeps a (if m = 25 then onHearth h (fun s => s) s else s) := Keeps.ite (onHearth_keeps (fun _ k => k) hs) hs
  generalize (if m = 25 then onHearth h (fun s => s) s else s) = s' at *
  dsimp only; repeat' split
  · exact k
  · exact k
  · exact deliver_keeps (accessAnswer_keeps k)

theorem execMemoryAccess_keeps {a : State} {h : Fin 16} {master : Fin 26} {kind : AccessKind} {mmode : Bool} {addr : BitVec 48}
    {len : Fin 65} {data : Bytes} {line : LineCheck} {s : State} (k : Keeps a s) : ∀ z, execMemoryAccess h master kind mmode
    addr len data line s = .next z → Keeps a z := by
  intro z e; cases e
  repeat' first | with_reducible assumption | with_reducible apply memoryAccess_keeps

theorem regionWrite_keeps {a : State} {h off : Nat} {d : Bytes} {s : State} (k : Keeps a s) : Keeps a (regionWrite h off d s)
    := by
  unfold regionWrite
  repeat' first
    | with_reducible assumption | with_reducible apply State.modMem_keeps | with_reducible apply addCtr_keeps
    | (intro m e; exact memPut_wf _ _ _ e)

theorem dumpWritten_keeps {a : State} {h : Nat} {s : State} (hs : Keeps a s) : Keeps a (dumpWritten h s) := by
  unfold dumpWritten; dsimp only; repeat' split
  all_goals
    repeat' (first
      | with_reducible assumption
      | split
      | with_reducible apply raiseFlue_keeps
      | with_reducible apply regionWrite_keeps
      | with_reducible apply derived_keeps
      | with_reducible apply State.modMem_keeps
      | with_reducible apply State.modH_keeps
      | (intro m e; dsimp only; exact memSet_wf _ _ _ e)
      | exact (fun x => KeepsH.same (x := x) rfl rfl rfl))

theorem execDumpWriteDone_keeps {a : State} {h : Fin 16} {s : State} (k : Keeps a s) : ∀ z, execDumpWriteDone h s = .next z →
    Keeps a z := by
  intro z e; cases e
  repeat' first | with_reducible assumption | with_reducible apply dumpWritten_keeps

theorem execSnapGo_keeps {a : State} {who : Requester} {data : Word} {s : State} (k : Keeps a s) : ∀ z, execSnapGo who data s =
    .next z → Keeps a z := by
  intro z e; cases e
  repeat' first | with_reducible assumption | split | with_reducible apply snapGo_keeps

theorem snapDue_keeps {a s : State} (k : Keeps a s) : Keeps a (snapDue s) := by
  unfold snapDue
  repeat' first
    | with_reducible assumption | split | with_reducible apply State.modFlue_keeps | with_reducible apply sendMark_keeps

theorem execSnapPeriodExpiry_keeps {a s : State} (k : Keeps a s) : ∀ z, execSnapPeriodExpiry s = .next z → Keeps a z := by
  intro z e; cases e
  repeat' first | with_reducible assumption | with_reducible apply snapDue_keeps

theorem latchTimed_keeps {a : State} {p : Page} {s : State} (k : Keeps a s) : Keeps a (latchTimed p s) := by
  unfold latchTimed
  repeat' first
    | with_reducible assumption | with_reducible apply State.free_keeps | with_reducible apply State.wr_keeps
    | with_reducible apply Keeps.foldl | with_reducible apply Keeps.snd (by assumption) | (intro _ _ _)

theorem latchHearth_keeps {a : State} {h e : Nat} {s : State} (k : Keeps a s) : Keeps a (latchHearth h e s) := by
  unfold latchHearth
  repeat' first
    | with_reducible assumption | with_reducible apply wakeHearth_keeps | with_reducible apply State.wr_keeps
    | with_reducible apply latchTimed_keeps | with_reducible apply Keeps.foldl | (intro _ _ _)

theorem snapLatch_keeps {a s : State} (k : Keeps a s) : Keeps a (snapLatch s) := by
  unfold snapLatch
  repeat' first
    | with_reducible assumption | with_reducible apply latchHearth_keeps | with_reducible apply latchFlue_keeps
    | with_reducible apply State.wr_keeps | with_reducible apply sendMark_keeps | with_reducible apply State.modFlue_keeps
    | with_reducible apply Keeps.foldl | with_reducible apply Keeps.ite | (intro _ _ _)

theorem execSnapshotLatch_keeps {a s : State} (k : Keeps a s) : ∀ z, execSnapshotLatch s = .next z → Keeps a z := by
  intro z e; cases e
  repeat' first | with_reducible assumption | with_reducible apply snapLatch_keeps

theorem onPage_keeps {a : State} {p : Page} {f : State → State} {s : State} (hf : ∀ x0, Keeps a x0 → Keeps a (f x0)) (k : Keeps
    a s) : Keeps a (onPage p f s) := by
  unfold onPage
  repeat' first | with_reducible assumption | split | with_reducible apply onHearth_keeps | with_reducible apply hf

theorem execEvtInject_keeps {a : State} {p : Page} {who : Requester} {data : Word} {s : State} (k : Keeps a s) : ∀ z,
    execEvtInject p who data s = .next z → Keeps a z := by
  intro z e; unfold execEvtInject at e
  repeat' split at e
  all_goals first | (cases e; done) | skip
  all_goals
    (try simp only [Host.Outcome.next.injEq] at e); subst e
    repeat' first | with_reducible assumption | with_reducible apply onPage_keeps | with_reducible apply inject_keeps

theorem onRecorder_keeps {a : State} {unit : Option Nat} {f : State → State} {s : State} (hf : ∀ x0, Keeps a x0 → Keeps a (f
    x0)) (k : Keeps a s) : Keeps a (onRecorder unit f s) := by
  unfold onRecorder
  repeat' first | with_reducible assumption | split | with_reducible apply onHearth_keeps | with_reducible apply hf

theorem execEvrFreeze_keeps {a : State} {unit : Option (Fin 16)} {who : Requester} {s : State} (k : Keeps a s) : ∀ z,
    execEvrFreeze unit who s = .next z → Keeps a z := by
  intro z e; cases e
  repeat' first | with_reducible assumption | with_reducible apply onRecorder_keeps | with_reducible apply freeze_keeps

theorem execEvrUnfreeze_keeps {a : State} {unit : Option (Fin 16)} {who : Requester} {s : State} (k : Keeps a s) : ∀ z,
    execEvrUnfreeze unit who s = .next z → Keeps a z := by
  intro z e; cases e
  repeat' first | with_reducible assumption | with_reducible apply onRecorder_keeps | with_reducible apply unfreeze_keeps

theorem execEvrAck_keeps {a : State} {unit : Option (Fin 16)} {who : Requester} {seq : Word} {s : State} (k : Keeps a s) : ∀ z,
    execEvrAck unit who seq s = .next z → Keeps a z := by
  intro z e; cases e
  repeat' first | with_reducible assumption | with_reducible apply onRecorder_keeps | with_reducible apply ack_keeps

theorem execSoftReset_keeps {a : State} {h u : Fin 16} {who : Requester} {s : State} (k : Keeps a s) : ∀ z, execSoftReset h u
    who s = .next z → Keeps a z := by
  intro z e; cases e
  repeat' first | with_reducible assumption | with_reducible apply onHearth_keeps | with_reducible apply softReset_keeps

theorem execPageLockSet_keeps {a : State} {p : Page} {who : Requester} {s : State} (k : Keeps a s) : ∀ z, execPageLockSet p who
    s = .next z → Keeps a z := by
  intro z e; unfold execPageLockSet at e
  repeat' split at e
  all_goals first | (cases e; done) | skip
  all_goals
    (try simp only [Host.Outcome.next.injEq] at e); subst e
    repeat' first | with_reducible assumption | with_reducible apply onPage_keeps | with_reducible apply setLock_keeps

theorem reachPage_keeps {a : State} {p : Page} {f : State → State} {s : State} (hf : ∀ x0, Keeps a x0 → Keeps a (f x0)) (k :
    Keeps a s) : Keeps a (reachPage p f s) := by
  unfold reachPage
  repeat' first
    | with_reducible assumption | split | with_reducible apply onQueue_keeps | with_reducible apply onPage_keeps
    | with_reducible apply hf

theorem registerWrite_keeps {a : State} {p : Page} {who : Requester} {off size enables d : Nat} {s : State} (k : Keeps a s) :
    Keeps a (registerWrite p who off size enables d s) := by
  unfold registerWrite
  repeat' first
    | with_reducible assumption | split | with_reducible apply reachPage_keeps | with_reducible apply wordWrite_keeps
    | with_reducible apply badSize_keeps

theorem execRegisterWrite_keeps {a : State} {p : Page} {who : Requester} {off : BitVec 12} {size : Fin 9} {enables : BitVec 4}
    {data : Word} {s : State} (k : Keeps a s) : ∀ z, execRegisterWrite p who off size enables data s = .next z → Keeps a z := by
  intro z e; unfold execRegisterWrite at e
  repeat' split at e
  all_goals first | (cases e; done) | skip
  all_goals
    (try simp only [Host.Outcome.next.injEq] at e); subst e
    repeat' first | with_reducible assumption | with_reducible apply registerWrite_keeps

end Sys2Proof.Machine
end

