-- ==== Sys2Proof/Laws/Updates.lean ====
section
/-! SUPPORT. One lemma per field of the state for each update of a hearth's caches, entropy source, memory and groups, of the gangs and
of the SPDM sessions: only the hearths, or only the flue, change. -/

namespace Sys2Proof.Machine

@[simp] theorem State.modCaches_pending (s : State) (h : Nat) (f : Caches → Caches) : (s.modCaches h f).pending = s.pending := rfl
@[simp] theorem State.modCaches_out (s : State) (h : Nat) (f : Caches → Caches) : (s.modCaches h f).out = s.out := rfl
@[simp] theorem State.modCaches_freeCtr (s : State) (h : Nat) (f : Caches → Caches) : (s.modCaches h f).freeCtr = s.freeCtr := rfl
@[simp] theorem State.modCaches_regs (s : State) (h : Nat) (f : Caches → Caches) : (s.modCaches h f).regs = s.regs := rfl
@[simp] theorem State.modCaches_variant (s : State) (h : Nat) (f : Caches → Caches) : (s.modCaches h f).variant = s.variant := rfl
@[simp] theorem State.modCaches_flue (s : State) (h : Nat) (f : Caches → Caches) : (s.modCaches h f).flue = s.flue := rfl
@[simp] theorem State.modCaches_chim (s : State) (h : Nat) (f : Caches → Caches) : (s.modCaches h f).chim = s.chim := rfl

@[simp] theorem State.modEnt_pending (s : State) (h : Nat) (f : Entropy → Entropy) : (s.modEnt h f).pending = s.pending := rfl
@[simp] theorem State.modEnt_out (s : State) (h : Nat) (f : Entropy → Entropy) : (s.modEnt h f).out = s.out := rfl
@[simp] theorem State.modEnt_freeCtr (s : State) (h : Nat) (f : Entropy → Entropy) : (s.modEnt h f).freeCtr = s.freeCtr := rfl
@[simp] theorem State.modEnt_regs (s : State) (h : Nat) (f : Entropy → Entropy) : (s.modEnt h f).regs = s.regs := rfl
@[simp] theorem State.modEnt_variant (s : State) (h : Nat) (f : Entropy → Entropy) : (s.modEnt h f).variant = s.variant := rfl
@[simp] theorem State.modEnt_flue (s : State) (h : Nat) (f : Entropy → Entropy) : (s.modEnt h f).flue = s.flue := rfl
@[simp] theorem State.modEnt_chim (s : State) (h : Nat) (f : Entropy → Entropy) : (s.modEnt h f).chim = s.chim := rfl

@[simp] theorem State.modMem_pending (s : State) (h : Nat) (f : MemPath → MemPath) : (s.modMem h f).pending = s.pending := rfl
@[simp] theorem State.modMem_out (s : State) (h : Nat) (f : MemPath → MemPath) : (s.modMem h f).out = s.out := rfl
@[simp] theorem State.modMem_freeCtr (s : State) (h : Nat) (f : MemPath → MemPath) : (s.modMem h f).freeCtr = s.freeCtr := rfl
@[simp] theorem State.modMem_regs (s : State) (h : Nat) (f : MemPath → MemPath) : (s.modMem h f).regs = s.regs := rfl
@[simp] theorem State.modMem_variant (s : State) (h : Nat) (f : MemPath → MemPath) : (s.modMem h f).variant = s.variant := rfl
@[simp] theorem State.modMem_flue (s : State) (h : Nat) (f : MemPath → MemPath) : (s.modMem h f).flue = s.flue := rfl
@[simp] theorem State.modMem_chim (s : State) (h : Nat) (f : MemPath → MemPath) : (s.modMem h f).chim = s.chim := rfl

@[simp] theorem State.modGroup_pending (s : State) (h g : Nat) (f : Group → Group) : (s.modGroup h g f).pending = s.pending := rfl
@[simp] theorem State.modGroup_out (s : State) (h g : Nat) (f : Group → Group) : (s.modGroup h g f).out = s.out := rfl
@[simp] theorem State.modGroup_freeCtr (s : State) (h g : Nat) (f : Group → Group) : (s.modGroup h g f).freeCtr = s.freeCtr := rfl
@[simp] theorem State.modGroup_regs (s : State) (h g : Nat) (f : Group → Group) : (s.modGroup h g f).regs = s.regs := rfl
@[simp] theorem State.modGroup_variant (s : State) (h g : Nat) (f : Group → Group) : (s.modGroup h g f).variant = s.variant := rfl
@[simp] theorem State.modGroup_flue (s : State) (h g : Nat) (f : Group → Group) : (s.modGroup h g f).flue = s.flue := rfl
@[simp] theorem State.modGroup_chim (s : State) (h g : Nat) (f : Group → Group) : (s.modGroup h g f).chim = s.chim := rfl

@[simp] theorem State.modGang_pending (s : State) (stack tag : Nat) (f : Gang → Gang) : (s.modGang stack tag f).pending = s.pending := rfl
@[simp] theorem State.modGang_out (s : State) (stack tag : Nat) (f : Gang → Gang) : (s.modGang stack tag f).out = s.out := rfl
@[simp] theorem State.modGang_freeCtr (s : State) (stack tag : Nat) (f : Gang → Gang) : (s.modGang stack tag f).freeCtr = s.freeCtr := rfl
@[simp] theorem State.modGang_regs (s : State) (stack tag : Nat) (f : Gang → Gang) : (s.modGang stack tag f).regs = s.regs := rfl
@[simp] theorem State.modGang_variant (s : State) (stack tag : Nat) (f : Gang → Gang) : (s.modGang stack tag f).variant = s.variant := rfl
@[simp] theorem State.modGang_hearths (s : State) (stack tag : Nat) (f : Gang → Gang) : (s.modGang stack tag f).hearths = s.hearths := rfl
@[simp] theorem State.modGang_chim (s : State) (stack tag : Nat) (f : Gang → Gang) : (s.modGang stack tag f).chim = s.chim := rfl

@[simp] theorem State.modSpdm_pending (s : State) (f : Spdm → Spdm) : (s.modSpdm f).pending = s.pending := rfl
@[simp] theorem State.modSpdm_out (s : State) (f : Spdm → Spdm) : (s.modSpdm f).out = s.out := rfl
@[simp] theorem State.modSpdm_freeCtr (s : State) (f : Spdm → Spdm) : (s.modSpdm f).freeCtr = s.freeCtr := rfl
@[simp] theorem State.modSpdm_regs (s : State) (f : Spdm → Spdm) : (s.modSpdm f).regs = s.regs := rfl
@[simp] theorem State.modSpdm_variant (s : State) (f : Spdm → Spdm) : (s.modSpdm f).variant = s.variant := rfl
@[simp] theorem State.modSpdm_hearths (s : State) (f : Spdm → Spdm) : (s.modSpdm f).hearths = s.hearths := rfl
@[simp] theorem State.modSpdm_chim (s : State) (f : Spdm → Spdm) : (s.modSpdm f).chim = s.chim := rfl

@[simp] theorem State.modSession_pending (s : State) (i : Nat) (f : Session → Session) : (s.modSession i f).pending = s.pending := rfl
@[simp] theorem State.modSession_out (s : State) (i : Nat) (f : Session → Session) : (s.modSession i f).out = s.out := rfl
@[simp] theorem State.modSession_freeCtr (s : State) (i : Nat) (f : Session → Session) : (s.modSession i f).freeCtr = s.freeCtr := rfl
@[simp] theorem State.modSession_regs (s : State) (i : Nat) (f : Session → Session) : (s.modSession i f).regs = s.regs := rfl
@[simp] theorem State.modSession_variant (s : State) (i : Nat) (f : Session → Session) : (s.modSession i f).variant = s.variant := rfl
@[simp] theorem State.modSession_hearths (s : State) (i : Nat) (f : Session → Session) : (s.modSession i f).hearths = s.hearths := rfl
@[simp] theorem State.modSession_chim (s : State) (i : Nat) (f : Session → Session) : (s.modSession i f).chim = s.chim := rfl

end Sys2Proof.Machine
end

