-- ==== Sys2Proof/Machine/DdrImage.lean ====
section
/-! DEFINITION. What the DDR devices hold of a protected range (R476, R482 to R486): cipher text, counter blocks, MAC lines, tree
nodes, and the root on chip. The state keeps what a range delivers, its key and its counters; its stored form follows from them. -/

namespace Sys2Proof.Machine

/-- Bits 511 to 256 of a range's key: the XTS data key, or the data-line key (R476). -/
def MemRange.dataKey (g : MemRange) : Bytes := g.key.take 32

/-- Bits 255 to 0: the XTS tweak key, or the metadata key. -/
def MemRange.metaKey (g : MemRange) : Bytes := (g.key.drop 32).take 32

/-! ### Data lines -/

/-- A line of a confidential range: one XTS data unit whose tweak is its DDR offset over 64 (R482). -/
def xtsLine (g : MemRange) (off : Nat) (d : Bytes) : Bytes := xtsUnit true g.dataKey g.metaKey (toLe 16 (off / 64)) d

/-- The 96 bits of a line's IV (R483). -/
def lineIvNat (r line major minor : Nat) : Nat := ((r * 2 ^ 29 + line) * 2 ^ 56 + major) * 2 ^ 8 + minor * 2

def lineIv (r line major minor : Nat) : Bytes := toBe 12 (lineIvNat r line major minor)

/-- The IV under which an integrity range holds the line at an offset now. -/
def MemRange.ivAt (g : MemRange) (r off : Nat) : Bytes :=
  let c := g.ctrOf (g.pageOf off)
  lineIv r ((off - g.base) / 64) c.major (c.minors.getD ((off - g.base) / 64 % 64) 0)

def gcmLine (g : MemRange) (r off : Nat) (d : Bytes) : Bytes := gcmCrypt g.dataKey (g.ivAt r off) d

/-- The tag of a data line, 64 bits of it (R483). -/
def lineTag (g : MemRange) (r off : Nat) (d : Bytes) : Bytes :=
  (gcmTag g.dataKey (g.ivAt r off) [] (gcmLine g r off d)).take 8

/-! ### Metadata (R484 to R486) -/

/-- A counter block: the major counter in bits 55 to 0, minor counter i in the seven bits from 56 + 7i (R485). -/
def blockNat (c : PageCtr) : Nat :=
  c.major % 2 ^ 56 + (List.range 64).foldl (fun a i => a + c.minors.getD i 0 % 128 * 2 ^ (56 + 7 * i)) 0

def counterBlock (c : PageCtr) : Bytes := toLe 64 (blockNat c)

/-- MAC line j of a page: the tags of its data lines 8j to 8j + 7 (R484). -/
def macLine (g : MemRange) (r page j : Nat) (line : Nat → Bytes) : Bytes :=
  (List.range 8).flatMap (fun i =>
    let off := g.base + page * 4096 + (8 * j + i) * 64
    lineTag g r off (line off))

/-- The metadata key's CMAC, 64 bits of it. -/
def nodeMac (g : MemRange) (m : Bytes) : Bytes := (cmac .aes g.metaKey m).take 8

/-- Node i of a level: the CMACs of eight counter blocks, each with its DDR offset in eight bytes (log 93), or of eight nodes of the
level below. -/
def treeNode (g : MemRange) : Nat → Nat → Bytes
  | 0, i => counterBlock (g.ctrOf i)
  | 1, i => ((List.range 8).map (8 * i + ·)).flatMap (fun k =>
      if k < g.pages then nodeMac g (counterBlock (g.ctrOf k) ++ toLe 8 (g.metaAt + 64 * k)) else zeros 8)
  | l + 1, i => ((List.range 8).map (8 * i + ·)).flatMap (fun k => if k < g.nodesAt l then nodeMac g (treeNode g l k) else zeros 8)

/-- The root, which the memory path holds on chip: the CMACs of the top stored level. -/
def rangeRoot (g : MemRange) : Bytes := (List.range (g.nodesAt g.topLevel)).flatMap (fun k => nodeMac g (treeNode g g.topLevel k))

/-- The line of the metadata area at an offset from its start (R484). -/
def metaLine (g : MemRange) (r o : Nat) (line : Nat → Bytes) : Bytes :=
  if o < g.size / 64 then counterBlock (g.ctrOf (o / 64))
  else if o < g.size * 9 / 64 then
    let k := (o - g.size / 64) / 64
    macLine g r (k / 8) (k % 8) line
  else
    match ((List.range g.topLevel).map (· + 1)).find? (fun l => decide (g.metaAt + o < g.levelAt (l + 1))) with
    | some l => treeNode g l ((g.metaAt + o - g.levelAt l) / 64)
    | none => zeros 64

/-- The 64 bytes that the devices hold at a line of the hearth's DDR, once the node cache has written its lines back (R487). -/
def deviceLine (s : State) (h off : Nat) : Bytes :=
  let m := (s.H h).mem.ddr
  let line := fun o => memBytes m (o / 64 * 64) 64
  let inMeta := (List.range 8).find? (fun r =>
    s.rangeState h r == rsActive && (s.range h r).mode == 2 && spanHas (s.range h r).metaAt (metaSize (s.range h r).size) off)
  match inMeta, s.rangeAt h off with
  | some r, _ => metaLine (s.range h r) r ((off - (s.range h r).metaAt) / 64 * 64) line
  | none, some r =>
    let g := s.range h r
    let at64 := g.base + (off - g.base) / 64 * 64
    if g.mode = 1 then xtsLine g at64 (line off) else if g.mode = 2 then gcmLine g r at64 (line off) else line off
  | none, none => line off

end Sys2Proof.Machine
end

