-- ==== Sys2Proof/Tests/Slice0.lean ====
section
/-! SUPPORT. The model's own tests: the ill-formed commands that `Instr.wf` refuses, a few small steps whose results are worked out by
hand from the rules named beside them, and, for each statement with hypotheses, a concrete state and operands that meet all of them
together, clause by clause. -/

namespace Sys2Proof.Tests

open Sys2Proof.Machine

set_option linter.unusedVariables false
set_option maxRecDepth 4096
set_option Elab.async false

/-! ### Small states and operands -/

/-- A vault found whole at the flue's start, with the default response table. -/
def vlt : Vault := { intact := true, resp := defaultTable }

/-- The part in VENDOR_TEST with its flue running and hearths 0 and 1 started. VF 0 is bound to hearth 0 with owner 5, eight queue
pairs and 16 jobs in flight; its queue pair 0 and administration queue 0 are enabled, 16 entries deep, with one descriptor waiting. -/
def base : State :=
  let s : State := { flue := { numVfs := 512, vfEnable := true, vfs := [(0, { tokens := 64 })] }
                     chim := { vault := vlt, fuses := { Fuses.start with lcWords := [(1, 32)] } } }
  let s := ((s.wr bootPage Reg.BOOT_STATUS_STATE flueRunning).setHState 0 hsStarted).setHState 1 hsStarted
  let s := ((((s.setFt 0 Reg.FT_BOUND 1).setFt 0 Reg.FT_OWNER_ID 5).setFt 0 Reg.FT_QP_GRANT 8).setFt 0 Reg.FT_INFLIGHT_MAX 16).setDamper
    0 dampOpen
  let s := (((s.setFt 0 Reg.FT_SHARE_CIPHER 8).setFt 0 Reg.FT_SHARE_HASH 4).setFt 0 Reg.FT_SHARE_BIGNUM 4).setFt 0 Reg.FT_SHARE_BURNER 4
  let s := ((s.wr (pgH .stoker 0) Reg.STK_CTRL_MODE 1).qwr (.vf 0 0) Reg.QP_CFG_SQ_LOG2 4).qwr (.vf 0 0) Reg.QP_CFG_CQ_LOG2 4
  let s := ((s.qwr (.admin 0) Reg.QP_CFG_SQ_LOG2 4).qwr (.admin 0) Reg.QP_CFG_CQ_LOG2 4).qwr (.admin 0) Reg.QP_CTRL_ENABLE 1
  ((s.qwr (.vf 0 0) Reg.QP_CTRL_ENABLE 1).modQp (.vf 0 0) (fun q => { q with sqTail := 1 })).modQp (.admin 0) (fun q => { q with sqTail := 1 })

theorem isOk {ε α : Type} {x : Except ε α} {v : α} (h : x.toOption = some v) : x = .ok v := by
  cases x with
  | ok a => exact congrArg Except.ok (Option.some.inj h)
  | error e => exact absurd h (by simp [Except.toOption])

theorem isErr {ε α : Type} {x : Except ε α} {e : ε} (h : (match x with | .ok _ => none | .error a => some a) = some e) :
    x = .error e := by
  cases x with
  | ok a => exact absurd h (by simp)
  | error a => exact congrArg Except.error (Option.some.inj h)

theorem okOf {ε α : Type} {x : Except ε α} (h : x.toOption.isSome = true) : x = .ok (x.toOption.get h) :=
  isOk (Option.some_get h).symm

theorem errOf {ε α : Type} {x : Except ε α} (h : (match x with | .ok _ => none | .error a => some a).isSome = true) :
    x = .error ((match x with | .ok _ => none | .error a => some a).get h) :=
  isErr (Option.some_get h).symm

theorem okPair {σ ε α : Type} {p : σ × Except ε α} (h : p.2.toOption.isSome = true) : ∃ q : σ × α, p = (q.1, .ok q.2) := by
  obtain ⟨a, x⟩ := p
  cases x with
  | ok b => exact ⟨(a, b), rfl⟩
  | error e => exact absurd h (by simp [Except.toOption])

theorem someOf {α : Type} {o : Option α} (h : o.isSome = true) : o = some (o.get h) := (Option.some_get h).symm

theorem pairOf {α β : Type} {o : Option (α × β)} (h : o.isSome = true) : o = some ((o.get h).1, (o.get h).2) :=
  (Option.some_get h).symm

theorem allOf {α : Type} {o : Option α} {P : α → Prop} (h : ∀ x ∈ o.toList, P x) : ∀ g, o = some g → P g := by
  intro g e; subst e; exact h g (by simp)

/-- A descriptor: opcode, flags, group, parameter, inline length, key references and the last 64 bytes. -/
def dsc (op : Nat) (flags : Nat := 0) (group : Nat := 0) (param : Nat := 0) (inl : Nat := 0) (refs tail : Bytes := []) : Bytes :=
  toLe 2 op ++ toLe 2 flags ++ toLe 4 9 ++ toLe 2 group ++ toLe 2 param ++ toLe 2 inl ++ zeros 2 ++ slice refs 0 48 ++ slice tail 0 64

/-- The last 64 bytes of a pointer-form descriptor: lengths of input and output, and parameters. -/
def ptrs (inLen outLen : Nat) (params : Bytes := []) : Bytes :=
  zeros 16 ++ toLe 4 inLen ++ toLe 4 outLen ++ slice params 0 40

/-- A running job of VF 0 on cipher engine 0, and a state that holds it as job 0 of hearth 0, with its mask generator seeded. -/
def job (op : Nat) (flags : Nat := 0) (param : Nat := 0) (tail : Bytes := []) : Job :=
  { state := .running, desc := dsc op flags 0 param 0 [] tail, units := [0] }

/-- A job that waits for its dispatch. -/
def readyJob (d : Bytes) : State := base.modH 0 (fun x => { x with jobs := [(0, { state := .ready, desc := d })] })

def withJob (jb : Job) : State :=
  (base.modH 0 (fun x => { x with jobs := [(0, jb)] })).modEng 0 0 (fun e => { e with job := some 0, holder := 1, mg := { seeded := true } })

/-- The DRBG of a hearth runs, with five blocks of conditioned output pooled. -/
def drbgOn (h : Nat) (s : State) : State :=
  s.modH h (fun x => { x with ent := { source := .healthy, drbg := .running, key := zeros 32, v := zeros 16
                                       pool := List.replicate 5 (zeros 48) } })

/-- A descriptor of administration queue 0, with its input. -/
def adm (op : Nat) (ops : Bytes) (inl : Nat) (group param : Nat := 0) : AdminRead :=
  { desc := dsc op 0 group param inl [] ops, sglIn := [], sglOut := [], inp := .ok [] }

def admPtr (op : Nat) (inLen outLen : Nat) (params inp : Bytes := []) (group : Nat := 0) : AdminRead :=
  { desc := dsc op 1 group 0 0 [] (ptrs inLen outLen params), sglIn := [], sglOut := [], inp := .ok inp }

/-- What the descriptor gives its opcode. -/
def req (s : State) (q : Fin 4) (rd : AdminRead) : AdminReq :=
  { q := q.val, desc := rd.desc, dst := (readLists rd.desc rd.sglIn rd.sglOut).out, key := s.flue.nextTag
    inp := slice (if dPtr rd.desc ∧ dInLen rd.desc ≠ 0 then (match rd.inp with | .ok b => b | .error => []) else []) 0 (dInLen rd.desc) }

theorem adminAt (s : State) (op : Nat) (q : Fin 4) (rd : AdminRead) (b : Bytes) (hb : rd.inp = .ok b)
    (h : (rd.desc.length == 128 && adminReady s q && dOp rd.desc == op && !rd.failed &&
      (adminCheck rd.desc (listsFit rd.desc (readLists rd.desc rd.sglIn rd.sglOut))).isNone &&
      (decide (lcState s ≠ lcDecommissioned) || op == 0x0830)) = true) :
    AdminAt s op q rd (req s q rd) := by
  simp only [Bool.and_eq_true, Bool.or_eq_true, decide_eq_true_eq, beq_iff_eq, Option.isNone_iff_eq_none, Bool.not_eq_true'] at h
  obtain ⟨⟨⟨⟨⟨h1, h2⟩, h3⟩, h4⟩, h5⟩, h6⟩ := h
  refine ⟨h1, h2, h3, h4, h5, h6, rfl, rfl, rfl, rfl, ?_⟩
  by_cases c : dPtr rd.desc = true ∧ dInLen rd.desc ≠ 0
  · exact ⟨b, by simp [c, hb], by simp [req, c, hb]⟩
  · exact ⟨[], by rw [if_neg c], by simp only [req, if_neg c]⟩

/-- A job whose second key is in fixed slot `w`, and one whose first key is. -/
def fixedJob (op w : Nat) : Job := { job op with keys := [{ use := .fixed w, slot := some {} }, { use := .fixed w, slot := some {} }] }

/-- The fixed slots of hearth 0 in use, each with its record at counter 0. -/
def slotSt (w : Nat) (jb : Job) : State := (withJob jb).modH 0 (fun x => { x with slots := [(w, {})], shadow := some {} })

/-- A job that waits for a blob in hearth DDR, and a state in which its VF may read it. -/
def waitJob : Job := { state := .keywait, desc := dsc 0x0101 0 0 0 0 ([byte kDdr] ++ zeros 15), awaiting := [0] }

def waitSt : State :=
  let s := (base.modH 0 (fun x => { x with jobs := [(0, waitJob)], inner := [(2016, .unwrap 0 0)], mem := { owners := [(0, 5 + 2 ^ 16)] } })).wr (memPage 0)
    Reg.MEM_STATUS_STATE 2
  s.wr (memPage 0) Reg.MEM_CFG_CAP_GIB 1

def waitBlob : Bytes := match (ddrBlob 0 0 0 waitSt).2 with | .ok b => b | .error _ => []

/-- KEY_GENERATE of an AES-256 key, and the state of its dispatch. -/
def genDesc : Bytes := dsc 0x0103 0 0 0 40 [] ([3, 2, 0, 0] ++ toLe 2 256)

def genSt : State :=
  (drbgOn 0 (readyJob genDesc)).modH 0 (fun x =>
    { x with jobs := x.jobs.mapVals (fun _ j => if j.state = .ready ∨ j.state = .yielded then { j with waitUs := j.waitUs + 5 } else j) })

/-- A cipher job that was saved and waits again. -/
def yieldJob : Job := { job 0x0201 with state := .yielded }

/-- Every hash engine of hearth 0 is locked by the outer world. -/
def lockedHash (s : State) : State := [8, 9, 10, 11].foldl (fun s u => s.modEng 0 u (fun e => { e with holder := 3 })) s

/-- A private-key job of RSA-8192 on big-number engine 0 that has been asked to yield. -/
def bnJob : Job :=
  { state := .running, desc := dsc 0x0401 1, units := [12], keys := [{ use := .cache 0, attr := { alg := 0x10, bits := 8192 } }] }

def bnJobSt : State :=
  (base.modH 0 (fun x => { x with jobs := [(0, bnJob)] })).modEng 0 12 (fun e => { e with job := some 0, holder := 1, yieldReq := true })


/-- Engine `u` of hearth 0 held by the inner world. -/
def innerHeld (u : Nat) (s : State) : State := s.modEng 0 u (fun e => { e with holder := 2 })

/-- The registers of cipher engine 0 ask for a CMAC under cache entry 0. -/
def ceSt : State :=
  let s := (innerHeld 0 base).modH 0 (fun x => { x with cache := [(0, { attr := { alg := 3, bits := 256, usage := uMacGen } })] })
  ((s.wr (pgU 0 0) Reg.CE_MODE_ALG 3).wr (pgU 0 0) Reg.CE_MODE_MODE 9).wr (pgU 0 0) Reg.CE_MODE_TAG_LEN 16

/-- A group control descriptor that acts, and the terms in which it acts. -/
theorem ctlAt (s : State) (op : Nat) (h : Fin 16) (j : Fin 2048) (jb : Job) (hj : s.job? h j = some jb)
    (hs : (s.works h && decide (jb.state = .ready) && dOp jb.desc == op && !fenceHolds s h j jb) = true) :
    CtlAt s op h.val (some jb.vf) jb.desc (.job j.val) (.job h j) := by
  simp only [Bool.and_eq_true, decide_eq_true_eq, beq_iff_eq, Bool.not_eq_true'] at hs
  exact ⟨jb, rfl, rfl, rfl, rfl, hj, hs.1.1.1, hs.1.1.2, hs.1.2, hs.2⟩

/-- Hearth 0 holds group 1, opened by VF 0. -/
def grp (x : Group) (s : State) : State := s.modH 0 (fun y => { y with groups := [(1, x)] })

def vfGroup : Group := { vf := some 0 }

/-- The registers of big-number engine 0 ask for a modular multiplication of 256 bits. -/
def bnSt : State :=
  let s := ((innerHeld 12 base).wr (bnPage 0 0) Reg.BN_OP_OP 0x10).wr (bnPage 0 0) Reg.BN_LEN_BITS 256
  (s.wr (bnPage 0 0) Reg.BN_SPAN_COUNT 8).wr (bnPage 0 0) Reg.BN_IN_LEN_LEN 96

/-- Stack 0 spans hearths 0 and 1 for owner 5; GROUP_BEGIN of a member of its gang 7. -/
def stackSt (s : State) : State := s.modFlue (fun f => { f with stackTab := [(0, { owner := 5, mask := 3 })] })

def gangOpen : Bytes := dsc 0x0701 0 0 0 12 [] [1, 0, 0, 0, 3, 0, 0, 0, 7, 0, 0, 0]

/-- A sealed group that counts fixed slot 3, and its decision record. -/
def slotGroup : Group := { state := .sealed, count := some 1, actions := [{ ref := .job 1, held := true, slot := some (3, {}, false) }] }

def slotDec : Decision :=
  { state := 1, kind := 1, unit := 0, tag := 1, parts := 1, applied := 0, owner := 0, first := 0, count := 1, time := 0 }

theorem waitSt_blob : ∃ p : State × Bytes,
    ddrBlob (0 : Fin 16).val waitJob.vf (rAddr (dRef waitJob.desc (0 : Fin 3).val)) waitSt = (p.1, .ok p.2) := okPair (by decide +kernel)

/-- Every unit of hearth 0 is out of service. -/
def allOffline (s : State) : State := (List.range 20).foldl (fun s u => s.modEng 0 u (fun e => { e with offline := true })) s

/-- A gang of stack 0 with tag 7, its member group, and a state that holds both. -/
def gang (st : GangState) : Gang := { stack := 0, tag := 7, parts := 3, state := st, votes := 3 }

def gangGroup (st : GroupState) : Group := { state := st, vf := some 0, gang := some { stack := 0, tag := 7, parts := 3 }, count := some 0 }

def gangSt (a : GangState) (b : GroupState) : State := stackSt ((grp (gangGroup b) base).modFlue (fun f => { f with gangs := [gang a] }))

/-- The vault holds the decision record `d` as record 0. -/
def recSt (d : Decision) : State := base.modVault (fun v => { v with records := [(0, d)] })

def countVault : Vault := { records := [(0, slotDec)], applies := [(31, { hearth := 15, record := 0, reissue := 0, slots := [3, 253] })] }

/-- VF 0 with its damper in a given state. -/
def dampSt (d : Nat) : State := base.setDamper 0 d

/-- The part PROVISIONED or in another state of its fuses. -/
def lcSt (n : Nat) (s : State) : State :=
  s.modChim (fun c => { c with fuses := { c.fuses with lcWords := (List.range n).map (fun i => (i + 1, 32)) } })

/-- The memory of hearth 0 ready, with a root key and a region for dumps at its offset 0x1000. -/
def dumpSt (f : Hearth → Hearth) : State :=
  ((base.modH 0 (fun x => f { x with shadow := some {}, dump := { base := some 0x1000 } })).wr (memPage 0) Reg.MEM_STATUS_STATE 2).wr
    (memPage 0) Reg.MEM_CFG_CAP_GIB 1

def dumpHead : List Host.Cell := memPut [] 0x1000 (ascii "VXFD" ++ [1, 0, 0, 1])

/-- Hearth 0 starts, its memory trained and its units tested. -/
def startSt : State :=
  (((drbgOn 0 base).modH 0 (fun x => { x with shadow := some {} })).setHState 0 hsStarting).wr (memPage 0) Reg.MEM_STATUS_STATE 2

def ceremonySt (n : Nat) (s : State) : State :=
  s.modFlue (fun f => { f with ceremony := some { request := zeros 792, challenge := zeros 32, started := 0, accepted := (List.range n).map
                                                    (fun i => (i, [])) } })

/-- The part with eight hearths, all of them started and with randomness at hand, after its ceremony's second acceptance. -/
def commitSt : State :=
  let s := { lcSt 2 base with variant := { hearths := 8 } }
  ceremonySt 2 ((List.range 8).foldl (fun s h => drbgOn h (s.setHState h hsStarted)) s)

theorem tripleOf {α β γ : Type} {o : Option (α × β × γ)} (h : o.isSome = true) :
    ∃ p : α × β × γ, o = some (p.1, p.2.1, p.2.2) := ⟨o.get h, (Option.some_get h).symm⟩

/-- SPDM session 0 in a phase, and a state that holds it. -/
def ssn (phase : Nat) : Session := { phase := phase }

def ssnSt (x : Session) (s : State) : State := s.modFlue (fun f => { f with spdm := { f.spdm with algsDone := true, sessions := [(0, x)] } })

/-- SPDM negotiated with slot 1's pair, which is ready. -/
def spdmSt : State :=
  base.modFlue (fun f => { f with spdm := { versionDone := true, capsDone := true, algsDone := true, ecdsa := true, p384Ready := true } })

/-- VF 0 on a secure IDE stream. -/
def ideSt (s : State) : State := s.modFlue (fun f => { f with ide := [(1, { rid := 2, secure := true })] })

def tdiSt (t : TdiState) : State :=
  (ideSt (ssnSt (ssn 1) base)).modFlue (fun f => { f with vfs := [(0, { tokens := 64, tdi := t })] })

def entSt (f : Entropy → Entropy) : State := (drbgOn 0 base).modH 0 (fun x => { x with ent := f x.ent })

/-- A cold hearth's memory at reset, with the ranges' registers set for range 1. -/
def rngSt : State :=
  let s := (waitSt.modH 0 (fun x => { x with shadow := some {} })).wr (memPage 0) (Reg.RNG_CTRL_MODE 1) 1
  (s.wr (memPage 0) (Reg.RNG_SIZE_SIZE 1) 1).wr (memPage 0) (Reg.RNG_GEN_GEN 1) 1

/-- OWN registers that ask for page 0. -/
def ownSt : State := waitSt.wr (memPage 0) Reg.OWN_ENTRY_ENTRY 0x3FFF1

def coreSt (f : Core → Core) : State := base.modH 0 (fun x => { x with cores := [(0, f {})] })

def fullSessions : Tab Session := (List.range 8).map (fun i => (i, {}))

def p384G : Bytes := toBe 48 p384.gx ++ toBe 48 p384.gy

/-- The job of big-number engine 0 after its function has run. -/
def bnRanSt : State :=
  (base.modH 0 (fun x => { x with jobs := [(0, { bnJob with ran := true })] })).modEng 0 12 (fun e => { e with job := some 0, holder := 1 })

/-- CLEAR_OPERANDS before it has taken an engine. -/
def clearJob : Job := { job 0x04F0 with units := [] }

/-- RANDOM for more bytes than one request of the DRBG gives. -/
def longRand : Job := job 0x0601 1 0 (ptrs 0 65537)

/-- A FINISH whose verify data is right. -/
def finMsg : Bytes :=
  let s := ssnSt (ssn 0) base
  [0x13, 0xE5, 0, 0] ++ spdmMac s (finishedKey s (ssn 0).keysRx) (spdmHash s ((ssn 0).trans ++ [0x13, 0xE5, 0, 0]))

/-- The first line of hearth DDR, and a state whose core 0 holds it. -/
def memLine : CacheLine := { line := 0x20000000, data := zeros 64 }

def l1St : State := waitSt.modCaches 0 (fun c => { c with l1d := [(0, [memLine])] })

theorem reset_fits : State.reset.chim.fuses.Fits := by
  intro w
  show Tab.getD [(1, 32), (2, 32)] w 0 ≤ 32
  simp only [Tab.getD, Tab.find?]
  repeat' split
  all_goals decide

/-- An inner image of four bytes, signed (RSASSA-PSS with SHA-512) under a modulus that is one prime, and a part whose fuse names that
key. -/
def imgPub : Bytes := toBe 512 (2 ^ 4096 - 2549)

def imgSig : Bytes :=
  [ 0x3F7D9E37EDF41B7072C5176A1FA47731675939539EEA07A60F319B9065725697,
    0x4170E0779AF3E5501029AE151368E31D1F7CDDA230B7A246B634FDBFDC2E8200,
    0xC02937056B032BC04283B531D57701ED899A840DDB99D4BAC759372B51424595,
    0xECBCB0C0E39D1DA4AD5F0AA91D01C9FBA4FE7739159B1A96B901E5F6BD7317D4,
    0xF19472F7EE4DA6BE8D3ADFFC3618A7B5E531E161043FD68C03DCCC33226FBA20,
    0xBCBB162E4E34DB87E047458818C93ACDA5547B6D97FB734E44A8DD4B10B490A5,
    0xC12D2EE2CBD96ABCFD1A9A75BE5C48AA7DF15787898371B596151E5A515C286E,
    0x88F7A1CD5C99566BC6570366C0E32E4A2951CBEBCFF5D571B16D141BE8631767,
    0xB138337478F9981AFB790CB6AA35DD7C2CA05E7EB686A94C46B57855B59D82B9,
    0xDC684B5C109ACA3715CB2EB89BAED56DB28A28A16D369AE9D9F75E8EE6EF3E20,
    0xC1A06B87919E53844A6905EB6412253649B851405639C3F7A620BFFD25F3BAB3,
    0xDFC6067CB9064835FF47BA3DFEBAE9BA3945CF2A71F272771E767217D44BBA62,
    0x66F5365226F9D8E2CDD1C65EFB0A707DB4F781B5541675E2E6429BC474B70F72,
    0x097AFC26FEB25B2E96EB0BFBBFC57D1335441C505FEA7CA9D04D475C2C57B0D7,
    0x0DD901C99C70FF1DA27F60B4C9C459DAF22C24D23654F657CC0E8CBCF74F4DFD,
    0x14A28C3240FFE403BF36B29716A856899DBE9D5E3071111D2E6A94CB46814244 ].flatMap (toBe 32)

def imgIn : Bytes :=
  ascii "VXFW" ++ [1, 2, 0, 0] ++ toLe 4 4 ++ zeros 4 ++ zeros 16 ++ sha512 [1, 2, 3, 4] ++ zeros 32 ++ imgPub ++ zeros 512
    ++ imgSig ++ zeros 512 ++ [1, 2, 3, 4]

def imgSt : State :=
  (startSt.modH 0 (fun x => { x with imageInner := some (0, imgIn) })).modChim (fun c =>
    { c with fuses := { c.fuses with vendorFw := sha256 imgPub } })

theorem imgPss : pssOk imgPub imgSig (slice imgIn 0 0x480) = true := by decide +kernel

theorem imgOk : checkImage imgSt kindInner (0 : Fin 16).val ((imgSt.H (0 : Fin 16).val).imageInner.getD (0, [])).2 = none := by
  have e : ((imgSt.H (0 : Fin 16).val).imageInner.getD (0, [])).2 = imgIn := rfl
  rw [e]
  simp only [checkImage]
  rw [if_neg (by decide +kernel), if_neg (by decide +kernel), if_neg (by decide +kernel), if_neg (by decide +kernel),
    if_neg (by decide +kernel)]
  have k : slice imgIn 0x80 512 = imgPub := by decide +kernel
  have g : slice imgIn 0x480 512 = imgSig := by decide +kernel
  rw [k, g, imgPss, if_neg (by decide), if_neg (by decide +kernel), if_neg (by decide +kernel), if_neg (by decide +kernel)]

theorem finMsg_mac : slice finMsg 4 (spdmHashLen (ssnSt (ssn 0) base)) = spdmMac (ssnSt (ssn 0) base)
    (finishedKey (ssnSt (ssn 0) base) (ssn 0).keysRx) (spdmHash (ssnSt (ssn 0) base) ((ssn 0).trans ++ finMsg.take 4)) := by
  decide +kernel

/-- A set message for slot 3 of hearth 0 with the authority and the officers that its slots 255 and 254 name, and a part whose
big-number engines are all held. -/
def upRoster : Bytes := sha256 ([1] ++ zeros 511) ++ zeros 224

def upSt : State :=
  [12, 13, 14, 15].foldl (fun s u => innerHeld u s) (base.modH 0 (fun x =>
    { x with shadow := some {}, slots := [(254, { recipe := sha256 upRoster ++ zeros 32 }), (255, { recipe := sha256 (zeros 512) ++ zeros 32 })] }))

def upMsg : Bytes :=
  (ascii "VXUM" ++ [1, 0, 3, 0] ++ zeros 16) ++ (identityFp upSt ++ (toLe 4 1 ++ zeros 4 ++ zeros 64 ++ zeros 512 ++ ([1] ++ zeros 511)
    ++ upRoster ++ zeros 1024))

def upRd : AdminRead := admPtr 0x0820 2432 96 [] upMsg

theorem slice_mid (a f c : Bytes) (n k : Nat) (ha : a.length = n) (hf : f.length = k) : slice (a ++ (f ++ c)) n k = f := by
  subst ha hf
  simp [slice, zeros]

theorem slice_all (b : Bytes) (n : Nat) (h : b.length = n) : slice b 0 n = b := by
  subst h
  simp [slice, zeros]

theorem upMsg_fp : slice upMsg 0x18 32 = identityFp upSt := slice_mid _ _ _ _ _ (by decide +kernel) (by decide +kernel)

theorem upInp : (req upSt 0 upRd).inp = upMsg := by
  have d : dInLen upRd.desc = 2432 := by decide +kernel
  simp only [req, d]
  exact slice_all _ _ (by decide +kernel)

theorem upByte : byteAt (req upSt 0 upRd).inp 5 = 0 := by
  rw [upInp]
  decide +kernel

theorem upEarly : updateEarly upSt (req upSt 0 upRd).desc (req upSt 0 upRd).inp = none := by
  rw [upInp]
  simp only [updateEarly]
  rw [if_neg (by decide +kernel), if_neg (by decide +kernel), if_neg (by decide +kernel), if_neg (by decide +kernel)]
  have g : ¬(slice upMsg 8 16 ≠ serial16 upSt ∨ slice upMsg 0x18 32 ≠ identityFp upSt) := by
    rintro (h | h)
    · exact h (by decide +kernel)
    · exact h upMsg_fp
  rw [if_neg g, if_neg (by decide +kernel), if_neg (by decide +kernel)]

theorem upOffline : classOffline upSt (byteAt (req upSt 0 upRd).inp 5) 2 = false := by
  rw [upByte]
  decide +kernel

theorem upUnit : freeUnit upSt (byteAt (req upSt 0 upRd).inp 5) 2 = none := by
  rw [upByte]
  decide +kernel

/-- A request for more than it can give at once ends with what it gives. -/
theorem drbgLower_len {h n : Nat} {pr : Bool} {s t : State} {b : Bytes} (e : drbgLower h n pr s = some (b, t)) : b.length ≤ n := by
  simp only [drbgLower, drbgRequest] at e
  repeat' split at e
  all_goals simp only [reduceCtorEq, Option.some.injEq, Prod.mk.injEq] at e
  all_goals exact e.1 ▸ List.length_take_le ..

def longSt : State := drbgOn 0 (withJob longRand)

theorem longDraw : (drbgLower 0 65536 false longSt).isSome = true := by decide +kernel

theorem longShort : ((drbgLower 0 65536 false longSt).get longDraw).1.length < 65537 :=
  Nat.lt_succ_of_le (drbgLower_len (pairOf longDraw))

theorem longRand_at : AtRun longSt (0 : Fin 16).val (0 : Fin 2048).val 0x0601 longRand :=
  ⟨by decide +kernel, by decide +kernel, by decide +kernel, by decide +kernel, by decide +kernel, by decide +kernel⟩

theorem longRandWit : ∃ (h : Fin 16) (j : Fin 2048) (s t : State) (jb : Job) (n : Nat) (b : Bytes), AtRun s h j 0x0601 jb ∧
    n = (if dPtr jb.desc then dOutLen jb.desc else dParam jb.desc % 32) ∧
    drbgLower h (min 65536 (n - jb.rand.length)) ((dParam jb.desc).testBit 8 && jb.rand.isEmpty) s = some (b, t) ∧
    (jb.rand ++ b).length < n := by
  have e : (dParam longRand.desc).testBit 8 = false := by decide +kernel
  have k : dPtr longRand.desc = true := by decide +kernel
  have d : dOutLen longRand.desc = 65537 := by decide +kernel
  have r : longRand.rand = [] := by decide +kernel
  refine ⟨0, 0, longSt, ((drbgLower 0 65536 false longSt).get longDraw).2, longRand, 65537,
    ((drbgLower 0 65536 false longSt).get longDraw).1, longRand_at, by rw [k, d]; rfl, ?_, ?_⟩
  · rw [e, r]
    exact pairOf longDraw
  · rw [r, List.nil_append]
    exact longShort


/-! ### Ill-formed commands -/

/-- A descriptor one byte short. -/
def short : AdminRead := { desc := zeros 127, sglIn := [], sglOut := [], inp := .ok [] }

/-- Pages that do not exist: a fifth page of FUNCTAB, a second DAMPER page, hearth 16. -/
def noPages : List Page := [{ kind := .functab, unit := 0, inst := 4 }, { kind := .damper, unit := 0, inst := 1 }, { kind := .stoker, unit := 16, inst := 0 }]

theorem test_wf_pages_that_do_not_exist :
    noPages.all (fun p => !(Instr.registerWrite p .pf0 0 4 15 0).wf && !(Instr.evtInject p .pf0 1).wf && !(Instr.pageLockSet p .pf0).wf)
      = true := by decide +kernel

theorem test_wf_fetched_descriptor_size :
    [127, 129, 63, 0].all (fun n => !(Instr.descriptorFetch 0 0 true (.ok (zeros n) [] [] [])).wf) = true := by decide +kernel

theorem test_wf_group_descriptor_size :
    [Instr.groupOpen (.admin 0 short), .groupCommit (.admin 0 short), .groupAbort (.admin 0 short), .groupQuery (.admin 0 short),
      .groupEvent (.admin 0 short)].all (fun c => !c.wf) = true := by decide +kernel

theorem test_wf_administration_descriptor_size :
    [Instr.bindVf 0 short, .unbindVf 0 short, .moveVf 0 short, .resetVf 0 short, .setQpGrant 0 short, .setDraught 0 short,
      .setEngineShare 0 short, .setDamperOpen 0 short, .setDamperThrottle 0 short, .setDamperClose 0 short,
      .setDamperCloseWait 0 short, .setCompat 0 short, .setInflight 0 short, .stackDefine 0 short, .slotUpdate 0 short,
      .slotTableLoad 0 short, .ownershipBegin 0 short, .ownershipAuthorise 0 short, .ownershipComplete 0 short,
      .tamperLogExport 0 short, .dumpOpen 0 short, .dumpClear 0 short, .imageLoad 0 short, .hearthStart 0 short,
      .hearthReset 0 short, .lifecycleAdvance 0 short none, .fuseProgram 0 short, .rollbackAdvance 0 short].all (fun c => !c.wf)
      = true := by decide +kernel

/-! ### Functions whose results the standards the spec names give -/

/-- FIPS 197: entries of the substitution table, and a column of the column mix (db 13 53 45 gives 8e 4d a1 bc). -/
theorem test_aes_sbox : [0x00, 0x53, 0xFF].map aesSboxCalc = [0x63, 0xED, 0x16] := by decide +kernel

theorem test_aes_mix : (aesMix [2, 3, 1, 1] ([0xDB, 0x13, 0x53, 0x45] ++ List.replicate 12 0)).take 4 = [0x8E, 0x4D, 0xA1, 0xBC] := by
  decide +kernel

/-- FIPS 180, the digest of "abc". -/
theorem test_sha256 : (sha256 (ascii "abc")).take 8 = [0xBA, 0x78, 0x16, 0xBF, 0x8F, 0x01, 0xCF, 0xEA] := by decide +kernel

/-- The triple cipher under one key three times is the single one; its block is the usual worked example of the standard. -/
theorem test_tdes : tdesEnc ((List.replicate 3 [0x13, 0x34, 0x57, 0x79, 0x9B, 0xBC, 0xDF, 0xF1]).flatten)
    [0x01, 0x23, 0x45, 0x67, 0x89, 0xAB, 0xCD, 0xEF] = [0x85, 0xE8, 0x13, 0x54, 0x0F, 0x0A, 0xB4, 0x05] := by decide +kernel

/-! ### Single commands -/

def after (c : Instr) (s : State) : State := match exec c s with | .next t => t | _ => s

/-- R56: a doorbell of the tail in range moves it. -/
theorem test_doorbell_moves_tail : ((after (.sqTailDoorbell (some 0) 0 (.write 4 15)) base).qp (.vf 0 0)).sqTail = 15 := by decide +kernel

/-- R58: a value not less than the depth, 16 here, puts the pair in error and moves nothing. -/
theorem test_doorbell_out_of_range :
    (let t := after (.sqTailDoorbell (some 0) 0 (.write 4 16)) base
     (t.qp (.vf 0 0)).sqTail = 1 ∧ t.qrd (.vf 0 0) Reg.QP_STATUS_ERROR = 1) := by decide +kernel

/-- R711: PF1 may not write the stoker's mode; the refusal is captured with cause REQUESTER. -/
theorem test_mode_write_refused :
    (let t := after (.stkModeWrite 0 .pf1 0) base
     t.rd (pgH .stoker 0) Reg.STK_CTRL_MODE = 1 ∧ t.flag (pgH .stoker 0) Reg.ERR_CAPTURE3_VALID = true) := by decide +kernel

/-- R578: a trip of the mesh, whose response is QUENCH, leaves no valid owner secret. -/
theorem test_trip_quenches : (after (.tamperTrip [(0, 0)]) (base.modVault (fun v => { v with valid := true }))).chim.vault.valid = false := by
  decide +kernel

/-- R251: the inner world takes a free engine. -/
theorem test_engine_taken : ((after (.pageLockWrite 0 3 (.inner 1) 0xFFF1) base).eng 0 3).holder = 2 := by decide +kernel

/-- R545, R550: a write of a power target without a hold sets it. -/
theorem test_power_target : ((after (.pwrTargetWrite 0 .pf0 2) base).H 0).pwrTarget = 2 := by decide +kernel

/-- A word spells no command: the table gives its rows no bits. -/
theorem test_no_word : Sys2Proof.decodeTableWord 32 0xFFFFFFFF = none := by decide

/-! ### Witnesses of the hypotheses -/

theorem test_witness_StepRunsFront :
    (∃ (c : Instr) (rest : List Instr) (s : State), s.pending = c :: rest) ∧
    (∃ (s : State), s.pending = []) :=
  ⟨by refine ⟨.quenchDone, [], { base with pending := [.quenchDone] }, rfl⟩,
   by refine ⟨base, rfl⟩⟩

theorem test_witness_WellFormedAnswers :
    (∃ (c : Instr) (s : State), c.wf = true) ∧
    (∃ (c : Instr) (s : State), c.wf = false) :=
  ⟨by refine ⟨.quenchDone, base, ?_⟩ <;> decide +kernel,
   by refine ⟨.pageLockSet ⟨.gate, 16, 0⟩ .pf0, base, ?_⟩ <;> decide +kernel⟩

theorem test_witness_ResetState :
    (∃ (h : _), h < 16) ∧
    (∃ (h : _), 16 ≤ h) ∧
    (∃ (v : _), v < 512) :=
  ⟨by refine ⟨15, ?_⟩ <;> decide +kernel,
   by refine ⟨16, ?_⟩ <;> decide +kernel,
   by refine ⟨511, ?_⟩ <;> decide +kernel⟩

theorem test_witness_StepKeepsCanonical :
    ∃ (s t : State), s.Canonical ∧ step s = .next t :=
  by refine ⟨State.reset, State.reset, ⟨rfl, fun _ => rfl, fun _ => rfl, fun _ => rfl⟩, rfl⟩

theorem test_witness_CommandsKeepQueue :
    ∃ (c : Instr) (s t : State), exec c s = .next t :=
  by refine ⟨.perstNDeassert, base, base.modChim (fun c => { c with perst := false }), rfl⟩

theorem test_witness_FusesOnlyGrow :
    ∃ (s t : State), s.chim.fuses.Fits ∧ step s = .next t :=
  by refine ⟨State.reset, State.reset, reset_fits, rfl⟩

theorem test_witness_ResponsesStayGuarded :
    ∃ (s t : State), s.chim.vault.Guarded ∧ step s = .next t :=
  by refine ⟨base, base, (fun _ => by decide +kernel), rfl⟩

theorem test_witness_EventsTouchRecordsOnly :
    ∃ (e : Ev) (u g : Nat) (p : Page) (s : State), s.regs.sorted = true ∧ e.bit < 32 ∧ evPending e u s = true :=
  by refine ⟨evDamperDrained, 0, 1152, pgF .damper, base.orBit (pgH .damper 0) Reg.EVT_STATUS_STATUS evDamperDrained.bit, ?_,
    ?_, ?_⟩ <;> decide +kernel

theorem test_witness_RefusedWritesAreCaptured :
    (∃ (p : Page) (who : Requester) (off data cause : Nat) (s : State), p.kind ≠ .mempath ∧ p.kind ≠ .mpu ∧ s.flag p
      Reg.ERR_CAPTURE3_VALID = true) ∧
    (∃ (p : Page) (who : Requester) (off data cause : Nat) (s t : State), p.kind ≠ .mempath ∧ p.kind ≠ .mpu ∧ s.regs.sorted =
      true ∧ s.flag p Reg.ERR_CAPTURE3_VALID = false ∧ off < 4096 ∧ data < 2 ^ 32 ∧ cause < 16 ∧ t = refuse p who off data cause
      s) :=
  ⟨by refine ⟨pgH .stoker 0, .pf1, 0x040, 1, 8, base.wr (pgH .stoker 0) Reg.ERR_CAPTURE3_VALID 1, ?_, ?_, ?_⟩ <;> decide +kernel,
   by refine ⟨pgH .stoker 0, .vf 511, 4095, 2 ^ 32 - 1, 15, base, _, ?_, ?_, ?_, ?_, ?_, ?_, ?_, rfl⟩ <;> decide +kernel⟩

theorem test_witness_RegisterWrites :
    (∃ (p q : Page) (who : Requester) (off : BitVec 12) (d : Word) (s : State), p.wf = true ∧ q = p.home ∧ isHearthPage q = true
      ∧ s.answers q.unit.val = true ∧ off.toNat % 4 = 0) ∧
    (∃ (p q : Page) (who : Requester) (off : BitVec 12) (d : Word) (s : State), p.wf = true ∧ q = p.home ∧ q.kind ≠ .vfQueue ∧
      q.kind ≠ .msixVf ∧ q.kind ≠ .pbaVf ∧ q.kind ≠ .cfgVf ∧ q.kind ≠ .cfgPf ∧ isHearthPage q = false ∧ s.flueUp = true ∧
      off.toNat % 4 = 0) ∧
    (∃ (p : Page) (who : Requester) (off : BitVec 12) (d : Word) (s : State), p.wf = true ∧ p.kind = .vfQueue ∧ reach (.vf
      p.unit 0) s = .ok ∧ off.toNat % 4 = 0) ∧
    (∃ (p : Page) (who : Requester) (off : BitVec 12) (d : Word) (s : State), p.wf = true ∧ off.toNat % 4 = 0 ∧ (((p.kind =
      .msixVf ∨ p.kind = .pbaVf) ∧ s.flueUp = true ∧ s.vfExists p.unit.val = true) ∨ (p.kind = .cfgVf ∧ flueListens s = true ∧
      s.vfExists p.unit.val = true) ∨ (p.kind = .cfgPf ∧ flueListens s = true))) ∧
    (∃ (p q : Page) (who : Requester) (off : BitVec 12) (n : Fin 9) (b : BitVec 4) (d : Word) (s : State), p.wf = true ∧ q =
      p.home ∧ isHearthPage q = true ∧ s.answers q.unit.val = true ∧ (n ≠ 4 ∨ b ≠ 15 ∨ off.toNat % 4 ≠ 0) ∧ fieldsAt q
      (off.toNat / 4 * 4) ≠ []) ∧
    (∃ (p q : Page) (who : Requester) (off : BitVec 12) (n : Fin 9) (b : BitVec 4) (d : Word) (s : State), p.wf = true ∧ q =
      p.home ∧ isHearthPage q = true ∧ s.answers q.unit.val = false) ∧
    (∃ (p : Page) (who : Requester) (off : BitVec 12) (n : Fin 9) (b : BitVec 4) (d : Word) (s : State), p.wf = false) :=
  ⟨by refine ⟨pgH .stoker 0, _, .pf0, 0xFFC, 1, base, ?_, rfl, ?_, ?_, ?_⟩ <;> decide +kernel,
   by refine ⟨pgF .evtroute 1, _, .pf0, 0, 1, base, ?_, rfl, ?_, ?_, by decide +kernel, ?_, ?_, ?_, ?_, by decide +kernel⟩ <;>
     decide +kernel,
   by refine ⟨pgVf 0, .vf 0, 0x090, 4, base, ?_, ?_, ?_, ?_⟩ <;> decide +kernel,
   by refine ⟨⟨.cfgPf, 0, 1⟩, .pf0, 0, 1, base, ?_, ?_, ?_⟩ <;> decide +kernel,
   by refine ⟨pgH .stoker 0, _, .pf0, 0x040, 8, 15, 1, base, ?_, rfl, ?_, ?_, ?_, ?_⟩ <;> decide +kernel,
   by refine ⟨pgH .stoker 2, _, .pf0, 0x040, 4, 15, 1, base, ?_, rfl, ?_, ?_⟩ <;> decide +kernel,
   by refine ⟨⟨.cipher, 0, 8⟩, .pf0, 0, 4, 15, 1, base, ?_⟩ <;> decide +kernel⟩

theorem test_witness_DoorbellsTakeEffect :
    (∃ (fn : Option (Fin 512)) (off : Nat), ((off % 0x100 ≠ 0 ∧ off % 0x100 ≠ 8) ∨ 0x800 ≤ off ∨ (fn = none ∧ 0x400 ≤ off))) ∧
    (∃ (fn : Option (Fin 512)) (off : BitVec 12) (size : Fin 9) (data : BitVec 64) (s : State), doorbellAt fn off.toNat = none ∧
      s.flueUp = true ∧ (∀ v, fn = some v → s.vfExists v = true)) ∧
    (∃ (fn : Option (Fin 512)) (off : BitVec 12) (t : Queue) (s : State), doorbellAt fn off.toNat = some (t, false) ∧ reach t s
      = .ok) ∧
    (∃ (fn : Option (Fin 512)) (off : BitVec 12) (v : Fin 512) (q : Fin 8) (data : BitVec 64) (s : State), doorbellAt fn
      off.toNat = some (.vf v q, false) ∧ s.flueUp = true ∧ s.vfExists v = true ∧ s.bound v = true ∧ data.toNat < 0x10000 ∧
      data.toNat < s.sqDepth (.vf v q)) ∧
    (∃ (fn : Option (Fin 512)) (off : BitVec 12) (q : Fin 4) (data : BitVec 64) (s : State), doorbellAt fn off.toNat = some
      (.admin q, false) ∧ s.flueUp = true ∧ data.toNat < 0x10000 ∧ data.toNat < s.sqDepth (.admin q)) ∧
    (∃ (fn : Option (Fin 512)) (off : BitVec 12) (t : Queue) (s : State), doorbellAt fn off.toNat = some (t, true) ∧ reach t s =
      .ok) ∧
    (∃ (fn : Option (Fin 512)) (off : BitVec 12) (t : Queue) (data : BitVec 64) (s : State) (k : Nat), doorbellAt fn off.toNat =
      some (t, true) ∧ reach t s = .ok ∧ data.toNat < 0x10000 ∧ data.toNat < s.cqDepth t ∧ k = (data.toNat + s.cqDepth t - (s.qp
      t).cqHead % s.cqDepth t) % s.cqDepth t ∧ k ≤ (s.qp t).occ) :=
  ⟨by refine ⟨none, 0x400, ?_⟩ <;> decide +kernel,
   by refine ⟨some 0, 4, 4, 0, base, ?_, ?_, (fun v h => by cases h; decide +kernel)⟩ <;> decide +kernel,
   by refine ⟨some 0, 0, .vf 0 0, base, ?_, ?_⟩ <;> decide +kernel,
   by refine ⟨some 0, 0, 0, 0, 15, base, ?_, ?_, ?_, ?_, ?_, ?_⟩ <;> decide +kernel,
   by refine ⟨none, 0, 0, 15, base, ?_, ?_, ?_, ?_⟩ <;> decide +kernel,
   by refine ⟨some 0, 8, .vf 0 0, base, ?_, ?_⟩ <;> decide +kernel,
   by refine ⟨some 0, 8, .vf 0 0, 0, base, 0, ?_, ?_, ?_, ?_, rfl, ?_⟩ <;> decide +kernel⟩

theorem test_witness_DoorbellRangeErrors :
    (∃ (fn : Option (Fin 512)) (off : BitVec 12) (t : Queue) (data : BitVec 64) (s : State), doorbellAt fn off.toNat = some (t,
      false) ∧ reach t s = .ok ∧ data.toNat < 0x10000 ∧ s.sqDepth t ≤ data.toNat) ∧
    (∃ (fn : Option (Fin 512)) (off : BitVec 12) (t : Queue) (data : BitVec 64) (s : State), doorbellAt fn off.toNat = some (t,
      true) ∧ reach t s = .ok ∧ data.toNat < 0x10000 ∧ (s.cqDepth t ≤ data.toNat ∨ (s.qp t).occ < (data.toNat + s.cqDepth t -
      (s.qp t).cqHead % s.cqDepth t) % s.cqDepth t)) :=
  ⟨by refine ⟨some 0, 0, .vf 0 0, 16, base, ?_, ?_, ?_, ?_⟩ <;> decide +kernel,
   by refine ⟨some 0, 8, .vf 0 0, 1, base, ?_, ?_, ?_, ?_⟩ <;> decide +kernel⟩

theorem test_witness_DroppedDoorbellsAndUnboundAccesses :
    (∃ (fn : Option (Fin 512)) (off : BitVec 12) (t : Queue) (head : Bool) (size : Fin 9) (data : BitVec 64) (s : State),
      doorbellAt fn off.toNat = some (t, head) ∧ reach t s = .ok ∧ (size ≠ 4 ∨ 0x10000 ≤ data.toNat)) ∧
    (∃ (v : Fin 512) (s t : State) (off : BitVec 12) (q : Fin 8) (head : Bool) (size : Fin 9) (data : BitVec 64), s.flueUp =
      true ∧ s.vfExists v = true ∧ s.bound v = false ∧ (t = raiseFlue evUnboundAccess (ftPage v) { vf := v } (errFlue 96
      (s.modFlue (fun x => { x with unbound := satAdd 32 x.unbound 1 })))) ∧ doorbellAt (some v) off.toNat = some (.vf v q,
      head)) ∧
    (∃ (v : Fin 512) (s t : State) (q : Fin 8), s.flueUp = true ∧ s.vfExists v = true ∧ s.bound v = false ∧ (t = raiseFlue
      evUnboundAccess (ftPage v) { vf := v } (errFlue 96 (s.modFlue (fun x => { x with unbound := satAdd 32 x.unbound 1 }))))) :=
  ⟨by refine ⟨none, 0x308, .admin 3, true, 4, 0x10000, base, ?_, ?_, ?_⟩ <;> decide +kernel,
   by refine ⟨511, base, _, 0x708, 7, true, 4, 0, ?_, ?_, ?_, rfl, ?_⟩ <;> decide +kernel,
   by refine ⟨511, base, _, 0, ?_, ?_, ?_, rfl⟩ <;> decide +kernel⟩

theorem test_witness_QueuePairControl :
    (∃ (v : Fin 512) (q : Fin 8) (s : State), s.regs.sorted = true ∧ reach (.vf v q) s = .ok ∧ s.qrd (.vf v q)
      Reg.QP_CTRL_ENABLE = 0 ∧ q.val < s.ft v Reg.FT_QP_GRANT ∧ (4 ≤ s.qrd (.vf v q) Reg.QP_CFG_SQ_LOG2 ∧ s.qrd (.vf v q)
      Reg.QP_CFG_SQ_LOG2 ≤ 16) ∧ (4 ≤ s.qrd (.vf v q) Reg.QP_CFG_CQ_LOG2 ∧ s.qrd (.vf v q) Reg.QP_CFG_CQ_LOG2 ≤ 16)) ∧
    (∃ (t : Queue) (s : State), reach t s = .ok ∧ s.qrd t Reg.QP_CTRL_ENABLE = 0 ∧ cfgValid t s = false) ∧
    (∃ (q : Fin 4) (s : State), s.regs.sorted = true ∧ s.flueUp = true ∧ s.qrd (.admin q) Reg.QP_CTRL_ENABLE = 0 ∧ (4 ≤ s.qrd
      (.admin q) Reg.QP_CFG_SQ_LOG2 ∧ s.qrd (.admin q) Reg.QP_CFG_SQ_LOG2 ≤ 16) ∧ (4 ≤ s.qrd (.admin q) Reg.QP_CFG_CQ_LOG2 ∧
      s.qrd (.admin q) Reg.QP_CFG_CQ_LOG2 ≤ 16)) ∧
    (∃ (t : Queue) (s : State), s.regs.sorted = true ∧ reach t s = .ok ∧ (s.queueBusy t = true ∨ (s.qp t).reading = true)) ∧
    (∃ (q : Queue) (s : State), s.regs.sorted = true ∧ reach q s = .ok ∧ s.queueBusy q = false ∧ (s.qp q).reading = false) ∧
    (∃ (fn : Option (Fin 512)) (q : Fin 8) (t : Queue) (s : State), pairAt fn q = some t ∧ 0 < (s.qp t).unsignalled ∧ 0 < s.qrd
      t Reg.QP_COAL_TIME) :=
  ⟨by refine ⟨0, 7, (base.qwr (.vf 0 7) Reg.QP_CFG_SQ_LOG2 4).qwr (.vf 0 7) Reg.QP_CFG_CQ_LOG2 16, ?_, ?_, ?_, ?_, ?_, ?_⟩ <;>
     decide +kernel,
   by refine ⟨.vf 0 7, base, ?_, ?_, ?_⟩ <;> decide +kernel,
   by refine ⟨3, (base.qwr (.admin 3) Reg.QP_CFG_SQ_LOG2 16).qwr (.admin 3) Reg.QP_CFG_CQ_LOG2 4, ?_, ?_, ?_, ?_, ?_⟩ <;>
     decide +kernel,
   by refine ⟨.vf 0 0, withJob (job 0x0301), ?_, ?_, ?_⟩ <;> decide +kernel,
   by refine ⟨.vf 0 0, base, ?_, ?_, ?_, ?_⟩ <;> decide +kernel,
   by refine ⟨some 0, 0, .vf 0 0, (base.qwr (.vf 0 0) Reg.QP_COAL_TIME 1).modQp (.vf 0 0) (fun q =>
     { q with unsignalled := 1 }), ?_, ?_, ?_⟩ <;> decide +kernel⟩

theorem test_witness_FetchDescriptor :
    (∃ (v : Fin 512) (q : Fin 8) (s : State) (h : Nat) (desc : Bytes) (a : Bytes) (b : Bytes) (c : Bytes), h = s.ft v
      Reg.FT_HEARTH ∧ s.hostUp = true ∧ s.bound v = true ∧ fetchQueue s (.vf v q) = true ∧ fetchRoom s h v q = true ∧
      damperAdmits s h v = true ∧ bucketHas s v = true ∧ hearthTakes s h = true ∧ s.flue.recorder.waiting = false ∧ desc.length
      = (if (s.H h).compat then 64 else 128)) ∧
    (∃ (v : Fin 512) (q : Fin 8) (s t : State) (h : Nat) (desc : Bytes) (a : Bytes) (b : Bytes) (c : Bytes), h = s.ft v
      Reg.FT_HEARTH ∧ s.hostUp = true ∧ s.bound v = true ∧ (s.qp (.vf v q)).reading = true ∧ (t = s.modQp (.vf v q) (fun x =>
      { x with reading := false })) ∧ desc.length = (if (s.H h).compat then 64 else 128)) :=
  ⟨by refine ⟨0, 0, base, 0, dsc 0x0301, [], [], [], rfl, ?_, ?_, ?_, by decide +kernel, ?_, ?_, ?_, ?_, by decide +kernel⟩ <;>
     decide +kernel,
   by refine ⟨0, 0, base.modQp (.vf 0 0) (fun q => { q with reading := true }), _, 0, dsc 0x0301, [], [], [], rfl, ?_, ?_, ?_,
     rfl, ?_⟩ <;> decide +kernel⟩

theorem test_witness_JobsWaitAndDispatch :
    (∃ (h : Fin 16) (j : Fin 2048) (i : Fin 3) (b : Bytes) (s : State) (jb : Job), s.job? h j = some jb ∧ s.works h = true ∧
      ((s.H h).inner.any (fun e => e.2 == .unwrap j i) = true) ∧ jb.state = .keywait ∧ i.val ∈ jb.awaiting ∧ rKind (dRef jb.desc
      i) ≠ kDdr) ∧
    (∃ (h : Fin 16) (j : Fin 2048) (i : Fin 3) (blob : Dma) (b : Bytes) (s t : State) (jb : Job), s.job? h j = some jb ∧ s.works
      h = true ∧ ((s.H h).inner.any (fun e => e.2 == .unwrap j i) = true) ∧ jb.state = .keywait ∧ i.val ∈ jb.awaiting ∧ rKind
      (dRef jb.desc i) = kDdr ∧ ddrBlob h jb.vf (rAddr (dRef jb.desc i)) s = (t, .ok b)) ∧
    (∃ (h : Fin 16) (us : Nat) (s t : State) (j : Nat) (jb : Job) (ks : _) (un : _), s.works h = true ∧ (t = s.modH h (fun x =>
      { x with jobs := x.jobs.mapVals (fun _ j => if j.state = .ready ∨ j.state = .yielded then { j with waitUs := j.waitUs + us, heldUs := if hobHolds s h then j.heldUs + us else 0 } else j) }))
      ∧ (firstJob t h ((t.H h).jobs.filter (fun p => eligible t h p.1 p.2)) = some (j, jb)) ∧ jb.state = .ready ∧ dispatchChecks
      t h jb = .ok ks ∧ takeable t h jb = some un ∧ drawBytes jb.desc ks = 0) ∧
    (∃ (h : Fin 16) (us : Nat) (s t : State) (j : Nat) (jb : Job) (ks : _) (un : _) (r : _) (u : _), s.works h = true ∧ (t =
      s.modH h (fun x =>
      { x with jobs := x.jobs.mapVals (fun _ j => if j.state = .ready ∨ j.state = .yielded then { j with waitUs := j.waitUs + us, heldUs := if hobHolds s h then j.heldUs + us else 0 } else j) }))
      ∧ (firstJob t h ((t.H h).jobs.filter (fun p => eligible t h p.1 p.2)) = some (j, jb)) ∧ jb.state = .ready ∧ dispatchChecks
      t h jb = .ok ks ∧ takeable t h jb = some un ∧ drawBytes jb.desc ks ≠ 0 ∧ drbgLower h (drawBytes jb.desc ks) false t = some
      (r, u)) ∧
    (∃ (h : Fin 16) (us : Nat) (s t : State) (j : Nat) (jb : Job) (st : _) (code : _), s.works h = true ∧ (t = s.modH h (fun x
      =>
      { x with jobs := x.jobs.mapVals (fun _ j => if j.state = .ready ∨ j.state = .yielded then { j with waitUs := j.waitUs + us, heldUs := if hobHolds s h then j.heldUs + us else 0 } else j) }))
      ∧ (firstJob t h ((t.H h).jobs.filter (fun p => eligible t h p.1 p.2)) = some (j, jb)) ∧ jb.state = .ready ∧ dispatchChecks
      t h jb = .error (st, code)) ∧
    (∃ (h : Fin 16) (us : Nat) (s t : State) (j : Nat) (jb : Job) (un : _), s.works h = true ∧ (t = s.modH h (fun x =>
      { x with jobs := x.jobs.mapVals (fun _ j => if j.state = .ready ∨ j.state = .yielded then { j with waitUs := j.waitUs + us, heldUs := if hobHolds s h then j.heldUs + us else 0 } else j) }))
      ∧ (firstJob t h ((t.H h).jobs.filter (fun p => eligible t h p.1 p.2)) = some (j, jb)) ∧ jb.state = .yielded ∧ firstStop t
      h jb = none ∧ takeable t h jb = some un) ∧
    (∃ (h : Fin 16) (c : Fin 4) (s : State), s.works h = true ∧ (∀ u ∈ classUnits c, 2 ≤ (s.eng h u).holder) ∧ (∃ p ∈ (s.H
      h).jobs, p.2.state = .ready ∧ c.val ∈ jobNeeds s h p.2) ∧ c.val ∉ (s.H h).blocked) ∧
    (∃ (h : Fin 16) (c : Fin 4) (s : State), s.works h = true ∧ (∀ u ∈ classUnits c, 2 ≤ (s.eng h u).holder) ∧ (∃ p ∈ (s.H
      h).jobs, p.2.state = .ready ∧ c.val ∈ jobNeeds s h p.2) ∧ c.val ∈ (s.H h).blocked) ∧
    (∃ (h : Fin 16) (j : Fin 2048) (s : State) (jb : Job) (e : OpDef) (vs : List KeyView), s.job? h j = some jb ∧ s.works h =
      true ∧ drbgServes h s = false ∧ jb.state = .ready ∧ opDef? (dOp jb.desc) = some e ∧ keyChecks s h jb e = .ok vs ∧ 0 <
      drawBytes jb.desc (holdsOf jb.desc vs)) ∧
    (∃ (h : Fin 16) (u : Fin 20) (s : State) (j : Nat) (jb : Job), s.works h = true ∧ mgReady (s.eng h u) = false ∧ (s.eng h
      u).waitDraw = false ∧ (s.eng h u).job = some j ∧ s.job? h j = some jb ∧ jb.state = .running ∧ (maskUnit jb).isSome = true) ∧
    (∃ (h : Fin 16) (s : State), s.works h = true ∧ s.rd (pgH .hob h) Reg.HOB_CTRL_MODE = 2 ∧ (s.H h).batchOpen = false ∧
      ((clamp 1 16 (s.rd (pgH .hob h) Reg.HOB_BATCH_COUNT) ≤ (hobReady s h).length ∨ ∃ j jb, j ∈ hobReady s h ∧ s.job? h j =
      some jb ∧ clamp 1 1000 (s.rd (pgH .hob h) Reg.HOB_BATCH_WAIT) ≤ jb.heldUs))) :=
  ⟨by refine ⟨0, 0, 0, [], base.modH 0 (fun x =>
     { x with jobs := [(0, { state := .keywait, desc := dsc 0x0101, awaiting := [0] })], inner := [(2016, .unwrap 0 0)] }),
     { state := .keywait, desc := dsc 0x0101, awaiting := [0] }, ?_, ?_, ?_, ?_, ?_, ?_⟩ <;> decide +kernel,
   waitSt_blob.elim (fun p hp => ⟨0, 0, 0, .ok [], p.2, waitSt, p.1, waitJob, by decide +kernel, by decide +kernel,
     by decide +kernel, by decide +kernel, by decide +kernel, by decide +kernel, hp⟩),
   by refine ⟨0, 5, readyJob (dsc 0x0301 1), _, 0, { state := .ready, desc := dsc 0x0301 1, waitUs := 5 }, _, [8], ?_, rfl, ?_,
     ?_, okOf (by decide +kernel), ?_, ?_⟩ <;> decide +kernel,
   by refine ⟨0, 5, drbgOn 0 (readyJob genDesc), _, 0, { state := .ready, desc := genDesc, waitUs := 5 }, _, [8], _, _, ?_, rfl,
     ?_, ?_, okOf (by decide +kernel), ?_, ?_, pairOf (by decide +kernel)⟩ <;> decide +kernel,
   by refine ⟨0, 5, readyJob (dsc 0x0201 0 0 0 0 [byte kCache]), _, 0,
     { state := .ready, desc := dsc 0x0201 0 0 0 0 [byte kCache], waitUs := 5 }, _, _, ?_, rfl, ?_, ?_, errOf
     (by decide +kernel)⟩ <;> decide +kernel,
   by refine ⟨0, 5, (withJob yieldJob).modEng 0 0 (fun e => { e with holder := 0 }), _, 0, { yieldJob with waitUs := 5 }, [0],
     ?_, rfl, ?_, ?_, ?_, ?_⟩ <;> decide +kernel,
   by refine ⟨0, 1, lockedHash (readyJob (dsc 0x0301 1)), ?_, ?_, ?_, ?_⟩ <;> decide +kernel,
   by refine ⟨0, 1, (lockedHash (readyJob (dsc 0x0301 1))).modH 0 (fun x => { x with blocked := [1] }), ?_, ?_, ?_, ?_⟩ <;>
     decide +kernel,
   by refine ⟨0, 0, readyJob genDesc, { state := .ready, desc := genDesc }, (opDef? 0x0103).get (by decide +kernel), [], ?_, ?_,
     ?_, ?_, ?_, isOk (by decide +kernel), ?_⟩ <;> decide +kernel,
   by refine ⟨0, 0, (withJob (job 0x0201)).modEng 0 0 (fun e => { e with mg := {} }), 0, job 0x0201, ?_, ?_, ?_, ?_, ?_, ?_, ?_⟩
     <;> decide +kernel,
   by refine ⟨0, ((readyJob (dsc 0x0501)).wr (pgH .hob 0) Reg.HOB_CTRL_MODE 2).wr (pgH .hob 0) Reg.HOB_BATCH_COUNT 1, ?_, ?_,
     ?_, Or.inl (by decide +kernel)⟩ <;> decide +kernel⟩

theorem test_witness_JobEndsYieldsAndCompletes :
    (∃ (h : Fin 16) (u : Fin 20) (inv : Bool) (s : State) (j : Nat) (jb : Job), (s.eng h u).job = some j ∧ s.job? h j = some jb
      ∧ s.works h = true ∧ s.damper jb.vf ≠ dampResetting ∧ jb.state = .running ∧ jb.ran = true ∧ (∀ w ∈ jb.units, (s.eng h
      w).saving = false ∧ (s.eng h w).restoring = false ∧ (s.eng h w).paused = false) ∧ (isolating s && jb.newKey.isSome) =
      false ∧ ((isBn u = true → inv = true))) ∧
    (∃ (h : Fin 16) (u : Fin 20) (inv : Bool) (s : State) (j : Nat) (jb : Job), (s.eng h u).job = some j ∧ s.job? h j = some jb
      ∧ s.works h = true ∧ s.damper jb.vf ≠ dampResetting ∧ jb.state = .running ∧ jb.ran = true ∧ (∀ w ∈ jb.units, (s.eng h
      w).saving = false ∧ (s.eng h w).restoring = false ∧ (s.eng h w).paused = false) ∧ (isolating s && jb.newKey.isSome) =
      false ∧ isBn u = true ∧ inv = false) ∧
    (∃ (h : Fin 16) (u : Fin 20) (inv : Bool) (s : State), (s.eng h u).job = none) ∧
    (∃ (h : Fin 16) (j : Fin 2048) (s : State) (jb : Job), s.job? h j = some jb ∧ s.hostUp = true ∧ jb.state = .completing ∧
      s.damper jb.vf ≠ dampResetting ∧ behindGroup s h j jb = false ∧ controlWaits s h jb j = false) ∧
    (∃ (h : Fin 16) (n : Fin 4) (s t : State) (j : Nat) (jb : Job), (s.eng h (12 + n)).job = some j ∧ s.job? h j = some jb ∧
      s.works h = true ∧ (s.eng h (12 + n)).yieldReq = true ∧ jb.state = .running ∧ canYield jb = true ∧ (s.eng h (12 +
      n)).paused = false ∧ (s.eng h (12 + n)).scrubbing = false ∧ (t = (s.modJob h j (fun x =>
      { x with passed := x.passed + 1 })).wr (pgU h (12 + n)) Reg.BN_YIELD_PASSED (min (jb.passed + 1) 0xFFFF))) ∧
    (∃ (h : Fin 16) (n : Fin 4) (s t : State) (j : Nat) (jb : Job) (rd : RestoreRead), (s.eng h (12 + n)).job = some j ∧ s.job?
      h j = some jb ∧ s.works h = true ∧ (s.eng h (12 + n)).restoring = true ∧ (s.eng h (12 + n)).scrubbing = false ∧ (t =
      freeSaves h j (s.modEng h (12 + n) (fun e => { e with restoring := false }))) ∧ rd ≠ .ok) ∧
    (∃ (h : Fin 16) (b : Fin 4) (s : State), s.up h = true ∧ (s.eng h (16 + b)).turnover = true ∧ mgReady (s.eng h (16 + b)) =
      true) :=
  ⟨by refine ⟨0, 0, true, withJob { job 0x0201 with ran := true }, 0, { job 0x0201 with ran := true }, ?_, ?_, ?_, ?_, ?_, ?_,
     ?_, ?_, ?_⟩ <;> decide +kernel,
   by refine ⟨0, 12, false, bnRanSt, 0, { bnJob with ran := true }, ?_, ?_, ?_, ?_, by decide +kernel, ?_, ?_, ?_, ?_, rfl⟩ <;>
     decide +kernel,
   by refine ⟨0, 19, true, base, ?_⟩ <;> decide +kernel,
   by refine ⟨0, 0, withJob { job 0x0201 with state := .completing }, { job 0x0201 with state := .completing }, ?_, ?_, ?_, ?_,
     ?_, ?_⟩ <;> decide +kernel,
   by refine ⟨0, 0, bnJobSt, _, 0, bnJob, ?_, ?_, ?_, ?_, ?_, ?_, ?_, ?_, rfl⟩ <;> decide +kernel,
   by refine ⟨0, 0, bnJobSt.modEng 0 12 (fun e => { e with restoring := true }), _, 0, bnJob, RestoreRead.poison, ?_, ?_, ?_,
     ?_, ?_, rfl, ?_⟩ <;> decide +kernel,
   by refine ⟨0, 3, base.modEng 0 19 (fun e => { e with turnover := true, mg := { seeded := true } }), ?_, ?_, ?_⟩ <;>
     decide +kernel⟩

theorem test_witness_KeyJobsRun :
    (∃ (h : Fin 16) (j : Fin 2048) (s : State) (jb : Job) (i : Nat), AtRun s h j 0x0101 jb ∧ (key0 jb).use = .cache i) ∧
    (∃ (h : Fin 16) (j : Fin 2048) (s : State) (jb : Job) (w : Nat) (r : SlotRec), AtRun s h j 0x0102 jb ∧ (key1 jb).use =
      .fixed w ∧ (key1 jb).slot = some r) ∧
    (∃ (h : Fin 16) (j : Fin 2048) (s : State) (jb : Job), AtRun s h j 0x0103 jb) ∧
    (∃ (h : Fin 16) (j : Fin 2048) (s : State) (jb : Job) (e : KeyEntry), AtRun s h j 0x0104 jb ∧ jb.joined = false ∧ (s.H
      h).cache.find? (rIndex (dRef jb.desc 0)) = some e ∧ e.fp = (key0 jb).fp) ∧
    (∃ (h : Fin 16) (j : Fin 2048) (s : State) (jb : Job) (e : KeyEntry), AtRun s h j 0x0104 jb ∧ jb.joined = true ∧ (s.H
      h).cache.find? (rIndex (dRef jb.desc 0)) = some e ∧ e.fp = (key0 jb).fp) ∧
    (∃ (h : Fin 16) (j : Fin 2048) (s : State) (jb : Job) (i : Nat) (e : KeyEntry), AtRun s h j 0x0105 jb ∧ (key0 jb).use =
      .cache i ∧ (s.H h).cache.find? i = some e) ∧
    (∃ (h : Fin 16) (j : Fin 2048) (s : State) (jb : Job) (i : Nat) (r : SlotRec), AtRun s h j 0x0105 jb ∧ (key0 jb).use =
      .fixed i ∧ (key0 jb).slot = some r) ∧
    (∃ (h : Fin 16) (j : Fin 2048) (inp : Dma) (s : State) (jb : Job) (b : Bytes), AtRun s h j 0x0106 jb ∧ InputIs s jb inp b) ∧
    (∃ (h : Fin 16) (j : Fin 2048) (s : State) (jb : Job), AtRun s h j 0x0107 jb) ∧
    (∃ (h : Fin 16) (j : Fin 2048) (inp : Dma) (s : State) (jb : Job) (b : Bytes), AtRun s h j 0x0108 jb ∧ InputIs s jb inp b) ∧
    (∃ (h : Fin 16) (j : Fin 2048) (s : State) (jb : Job), AtRun s h j 0x0110 jb ∧ hearthRoot (s.H h) = none) ∧
    (∃ (h : Fin 16) (j : Fin 2048) (inp : Dma) (s : State) (jb : Job) (b : Bytes), AtRun s h j 0x0111 jb ∧ InputIs s jb inp b) ∧
    (∃ (h : Fin 16) (j : Fin 2048) (inp : Dma) (s : State) (jb : Job) (b : Bytes), AtRun s h j 0x0112 jb ∧ InputIs s jb inp b) ∧
    (∃ (h : Fin 16) (j : Fin 2048) (inp : Dma) (s : State) (jb : Job) (b : Bytes), AtRun s h j 0x0120 jb ∧ InputIs s jb inp b) ∧
    (∃ (h : Fin 16) (j : Fin 2048) (inp : Dma) (s : State) (jb : Job) (b : Bytes), AtRun s h j 0x0121 jb ∧ InputIs s jb inp b) :=
  ⟨by refine ⟨0, 0, withJob { job 0x0101 with keys := [{ use := .cache 7 }] },
     { job 0x0101 with keys := [{ use := .cache 7 }] }, 7, ⟨by decide +kernel, by decide +kernel, by decide +kernel,
     by decide +kernel, by decide +kernel, by decide +kernel⟩, ?_⟩ <;> decide +kernel,
   by refine ⟨0, 0, slotSt 3 (fixedJob 0x0102 3), fixedJob 0x0102 3, 3, {}, ⟨by decide +kernel, by decide +kernel,
     by decide +kernel, by decide +kernel, by decide +kernel, by decide +kernel⟩, ?_, ?_⟩ <;> decide +kernel,
   by refine ⟨0, 0, withJob (job 0x0103), job 0x0103, ⟨by decide +kernel, by decide +kernel, by decide +kernel,
     by decide +kernel, by decide +kernel, by decide +kernel⟩⟩,
   by refine ⟨0, 0, (withJob (job 0x0104)).modH 0 (fun x => { x with cache := [(0, {})] }), job 0x0104, {}, ⟨by decide +kernel,
     by decide +kernel, by decide +kernel, by decide +kernel, by decide +kernel, by decide +kernel⟩, ?_, ?_, ?_⟩ <;>
     decide +kernel,
   by refine ⟨0, 0, (withJob { job 0x0104 with joined := true, group := 1 }).modH 0 (fun x => { x with cache := [(0, {})] }),
     { job 0x0104 with joined := true, group := 1 }, {}, ⟨by decide +kernel, by decide +kernel, by decide +kernel,
     by decide +kernel, by decide +kernel, by decide +kernel⟩, ?_, ?_, ?_⟩ <;> decide +kernel,
   by refine ⟨0, 0, (withJob { job 0x0105 with keys := [{ use := .cache 8191 }] }).modH 0 (fun x =>
     { x with cache := [(8191, {})] }), { job 0x0105 with keys := [{ use := .cache 8191 }] }, 8191, {}, ⟨by decide +kernel,
     by decide +kernel, by decide +kernel, by decide +kernel, by decide +kernel, by decide +kernel⟩, ?_, ?_⟩ <;> decide +kernel,
   by refine ⟨0, 0, slotSt 253 { job 0x0105 with keys := [{ use := .fixed 253, slot := some {} }] },
     { job 0x0105 with keys := [{ use := .fixed 253, slot := some {} }] }, 253, {}, ⟨by decide +kernel, by decide +kernel,
     by decide +kernel, by decide +kernel, by decide +kernel, by decide +kernel⟩, ?_, ?_⟩ <;> decide +kernel,
   by refine ⟨0, 0, .error, withJob (job 0x0106), job 0x0106, [], ⟨by decide +kernel, by decide +kernel, by decide +kernel,
     by decide +kernel, by decide +kernel, by decide +kernel⟩, Or.inl ⟨by decide +kernel, by decide +kernel⟩⟩,
   by refine ⟨0, 0, withJob (job 0x0107), job 0x0107, ⟨by decide +kernel, by decide +kernel, by decide +kernel,
     by decide +kernel, by decide +kernel, by decide +kernel⟩⟩,
   by refine ⟨0, 0, .error, withJob (job 0x0108), job 0x0108, [], ⟨by decide +kernel, by decide +kernel, by decide +kernel,
     by decide +kernel, by decide +kernel, by decide +kernel⟩, Or.inl ⟨by decide +kernel, by decide +kernel⟩⟩,
   by refine ⟨0, 0, withJob (job 0x0110), job 0x0110, ⟨by decide +kernel, by decide +kernel, by decide +kernel,
     by decide +kernel, by decide +kernel, by decide +kernel⟩, ?_⟩ <;> decide +kernel,
   by refine ⟨0, 0, .ok (zeros 64), withJob (job 0x0111 1 0 (ptrs 32 0)), job 0x0111 1 0 (ptrs 32 0), zeros 32,
     ⟨by decide +kernel, by decide +kernel, by decide +kernel, by decide +kernel, by decide +kernel, by decide +kernel⟩, Or.inr
     (Or.inr ⟨by decide +kernel, by decide +kernel, rfl, zeros 64, rfl, by decide +kernel⟩)⟩,
   by refine ⟨0, 0, .error, withJob (job 0x0112), job 0x0112, [], ⟨by decide +kernel, by decide +kernel, by decide +kernel,
     by decide +kernel, by decide +kernel, by decide +kernel⟩, Or.inl ⟨by decide +kernel, by decide +kernel⟩⟩,
   by refine ⟨0, 0, .error, withJob (job 0x0120), job 0x0120, [], ⟨by decide +kernel, by decide +kernel, by decide +kernel,
     by decide +kernel, by decide +kernel, by decide +kernel⟩, Or.inl ⟨by decide +kernel, by decide +kernel⟩⟩,
   by refine ⟨0, 0, .error, withJob (job 0x0121), job 0x0121, [], ⟨by decide +kernel, by decide +kernel, by decide +kernel,
     by decide +kernel, by decide +kernel, by decide +kernel⟩, Or.inl ⟨by decide +kernel, by decide +kernel⟩⟩⟩

theorem test_witness_CipherHashAndRandomJobsRun :
    (∃ (h : Fin 16) (j : Fin 2048) (inp : Dma) (s : State) (jb : Job) (b : Bytes), AtRun s h j 0x0201 jb ∧ InputIs s jb inp b ∧
      dPtr jb.desc = true) ∧
    (∃ (h : Fin 16) (j : Fin 2048) (inp : Dma) (s : State) (jb : Job) (b : Bytes), AtRun s h j 0x0201 jb ∧ InputIs s jb inp b ∧
      dPtr jb.desc = false) ∧
    (∃ (h : Fin 16) (j : Fin 2048) (inp : Dma) (s : State) (jb : Job) (b : Bytes), AtRun s h j 0x0202 jb ∧ InputIs s jb inp b) ∧
    (∃ (h : Fin 16) (j : Fin 2048) (inp : Dma) (s : State) (jb : Job) (b : Bytes), AtRun s h j 0x0301 jb ∧ InputIs s jb inp b) ∧
    (∃ (h : Fin 16) (j : Fin 2048) (inp : Dma) (s : State) (jb : Job) (b : Bytes), AtRun s h j 0x0302 jb ∧ InputIs s jb inp b) ∧
    (∃ (h : Fin 16) (j : Fin 2048) (inp : Dma) (s : State) (jb : Job) (b : Bytes), AtRun s h j 0x0303 jb ∧ InputIs s jb inp b) ∧
    (∃ (h : Fin 16) (j : Fin 2048) (inp : Dma) (s : State) (jb : Job) (b : Bytes), AtRun s h j 0x0304 jb ∧ InputIs s jb inp b ∧
      dPtr jb.desc = false) ∧
    (∃ (h : Fin 16) (j : Fin 2048) (inp : Dma) (s : State) (jb : Job) (b : Bytes), AtRun s h j 0x0304 jb ∧ InputIs s jb inp b ∧
      dPtr jb.desc = true) ∧
    (∃ (h : Fin 16) (j : Fin 2048) (s t : State) (jb : Job) (n : Nat) (b : Bytes), AtRun s h j 0x0601 jb ∧ n = (if dPtr jb.desc
      then dOutLen jb.desc else dParam jb.desc % 32) ∧ drbgLower h (min 65536 (n - jb.rand.length)) ((dParam jb.desc).testBit 8
      && jb.rand.isEmpty) s = some (b, t) ∧ n ≤ (jb.rand ++ b).length) ∧
    (∃ (h : Fin 16) (j : Fin 2048) (s t : State) (jb : Job) (n : Nat) (b : Bytes), AtRun s h j 0x0601 jb ∧ n = (if dPtr jb.desc
      then dOutLen jb.desc else dParam jb.desc % 32) ∧ drbgLower h (min 65536 (n - jb.rand.length)) ((dParam jb.desc).testBit 8
      && jb.rand.isEmpty) s = some (b, t) ∧ (jb.rand ++ b).length < n) ∧
    (∃ (h : Fin 16) (j : Fin 2048) (s : State) (jb : Job), AtRun s h j 0x0602 jb) :=
  ⟨by refine ⟨0, 0, .ok (zeros 16), withJob (job 0x0201 1 0 (ptrs 16 16)), job 0x0201 1 0 (ptrs 16 16), zeros 16,
     ⟨by decide +kernel, by decide +kernel, by decide +kernel, by decide +kernel, by decide +kernel, by decide +kernel⟩, Or.inr
     (Or.inr ⟨by decide +kernel, by decide +kernel, rfl, zeros 16, rfl, by decide +kernel⟩), ?_⟩ <;> decide +kernel,
   by refine ⟨0, 0, .error, withJob (job 0x0201), job 0x0201, [], ⟨by decide +kernel, by decide +kernel, by decide +kernel,
     by decide +kernel, by decide +kernel, by decide +kernel⟩, Or.inl ⟨by decide +kernel, by decide +kernel⟩, ?_⟩ <;>
     decide +kernel,
   by refine ⟨0, 0, .ok [], withJob (job 0x0202 1), job 0x0202 1, [], ⟨by decide +kernel, by decide +kernel, by decide +kernel,
     by decide +kernel, by decide +kernel, by decide +kernel⟩, Or.inr (Or.inl ⟨by decide +kernel, by decide +kernel, rfl⟩)⟩,
   by refine ⟨0, 0, .error, withJob (job 0x0301), job 0x0301, [], ⟨by decide +kernel, by decide +kernel, by decide +kernel,
     by decide +kernel, by decide +kernel, by decide +kernel⟩, Or.inl ⟨by decide +kernel, by decide +kernel⟩⟩,
   by refine ⟨0, 0, .error, withJob (job 0x0302), job 0x0302, [], ⟨by decide +kernel, by decide +kernel, by decide +kernel,
     by decide +kernel, by decide +kernel, by decide +kernel⟩, Or.inl ⟨by decide +kernel, by decide +kernel⟩⟩,
   by refine ⟨0, 0, .error, withJob (job 0x0303), job 0x0303, [], ⟨by decide +kernel, by decide +kernel, by decide +kernel,
     by decide +kernel, by decide +kernel, by decide +kernel⟩, Or.inl ⟨by decide +kernel, by decide +kernel⟩⟩,
   by refine ⟨0, 0, .error, withJob (job 0x0304), job 0x0304, [], ⟨by decide +kernel, by decide +kernel, by decide +kernel,
     by decide +kernel, by decide +kernel, by decide +kernel⟩, Or.inl ⟨by decide +kernel, by decide +kernel⟩, ?_⟩ <;>
     decide +kernel,
   by refine ⟨0, 0, .ok [], withJob (job 0x0304 1), job 0x0304 1, [], ⟨by decide +kernel, by decide +kernel, by decide +kernel,
     by decide +kernel, by decide +kernel, by decide +kernel⟩, Or.inr (Or.inl ⟨by decide +kernel, by decide +kernel, rfl⟩), ?_⟩
     <;> decide +kernel,
   by refine ⟨0, 0, drbgOn 0 (withJob (job 0x0601)), _, job 0x0601, 0, _, ⟨by decide +kernel, by decide +kernel,
     by decide +kernel, by decide +kernel, by decide +kernel, by decide +kernel⟩, rfl, pairOf (by decide +kernel), ?_⟩ <;>
     decide +kernel,
   longRandWit,
   by refine ⟨0, 0, withJob (job 0x0602), job 0x0602, ⟨by decide +kernel, by decide +kernel, by decide +kernel,
     by decide +kernel, by decide +kernel, by decide +kernel⟩⟩⟩

theorem test_witness_PublicKeyJobsRun :
    (∃ (h : Fin 16) (j : Fin 2048) (inp : Dma) (s : State) (jb : Job) (b : Bytes), AtRun s h j 0x0401 jb ∧ InputIs s jb inp b) ∧
    (∃ (h : Fin 16) (j : Fin 2048) (inp : Dma) (s : State) (jb : Job) (b : Bytes), AtRun s h j 0x0402 jb ∧ InputIs s jb inp b) ∧
    (∃ (h : Fin 16) (j : Fin 2048) (s : State) (jb : Job), AtRun s h j 0x0403 jb) ∧
    (∃ (h : Fin 16) (j : Fin 2048) (inp : Dma) (s : State) (jb : Job) (b : Bytes), AtRun s h j 0x0404 jb ∧ InputIs s jb inp b) ∧
    (∃ (h : Fin 16) (j : Fin 2048) (inp : Dma) (s : State) (jb : Job) (b : Bytes), AtRun s h j 0x0405 jb ∧ InputIs s jb inp b) ∧
    (∃ (h : Fin 16) (j : Fin 2048) (inp : Dma) (s : State) (jb : Job) (b : Bytes), AtRun s h j 0x0406 jb ∧ InputIs s jb inp b) ∧
    (∃ (h : Fin 16) (j : Fin 2048) (inp : Dma) (s : State) (jb : Job) (b : Bytes), AtRun s h j 0x0407 jb ∧ InputIs s jb inp b) ∧
    (∃ (h : Fin 16) (j : Fin 2048) (s t : State) (jb x : Job), AtRun s h j 0x04F0 jb ∧ ((jb.units = [] ∧ t = s ∧ x = jb ∨ ∃ u,
      jb.units.head? = some u ∧ t = clearUnit h j u jb s ∧ t.job? h j = some x)) ∧ nextClear t h x = none) ∧
    (∃ (h : Fin 16) (j : Fin 2048) (s t : State) (jb x : Job) (u : _), AtRun s h j 0x04F0 jb ∧ ((jb.units = [] ∧ t = s ∧ x = jb
      ∨ ∃ u, jb.units.head? = some u ∧ t = clearUnit h j u jb s ∧ t.job? h j = some x)) ∧ nextClear t h x = some u ∧ unitFree t
      h u = true) ∧
    (∃ (h : Fin 16) (j : Fin 2048) (s t : State) (jb x : Job) (u : _), AtRun s h j 0x04F0 jb ∧ ((jb.units = [] ∧ t = s ∧ x = jb
      ∨ ∃ u, jb.units.head? = some u ∧ t = clearUnit h j u jb s ∧ t.job? h j = some x)) ∧ nextClear t h x = some u ∧ unitFree t
      h u = false) :=
  ⟨by refine ⟨0, 0, .error, withJob (job 0x0401), job 0x0401, [], ⟨by decide +kernel, by decide +kernel, by decide +kernel,
     by decide +kernel, by decide +kernel, by decide +kernel⟩, Or.inl ⟨by decide +kernel, by decide +kernel⟩⟩,
   by refine ⟨0, 0, .error, withJob (job 0x0402), job 0x0402, [], ⟨by decide +kernel, by decide +kernel, by decide +kernel,
     by decide +kernel, by decide +kernel, by decide +kernel⟩, Or.inl ⟨by decide +kernel, by decide +kernel⟩⟩,
   by refine ⟨0, 0, withJob (job 0x0403), job 0x0403, ⟨by decide +kernel, by decide +kernel, by decide +kernel,
     by decide +kernel, by decide +kernel, by decide +kernel⟩⟩,
   by refine ⟨0, 0, .error, withJob (job 0x0404), job 0x0404, [], ⟨by decide +kernel, by decide +kernel, by decide +kernel,
     by decide +kernel, by decide +kernel, by decide +kernel⟩, Or.inl ⟨by decide +kernel, by decide +kernel⟩⟩,
   by refine ⟨0, 0, .error, withJob (job 0x0405), job 0x0405, [], ⟨by decide +kernel, by decide +kernel, by decide +kernel,
     by decide +kernel, by decide +kernel, by decide +kernel⟩, Or.inl ⟨by decide +kernel, by decide +kernel⟩⟩,
   by refine ⟨0, 0, .error, withJob (job 0x0406), job 0x0406, [], ⟨by decide +kernel, by decide +kernel, by decide +kernel,
     by decide +kernel, by decide +kernel, by decide +kernel⟩, Or.inl ⟨by decide +kernel, by decide +kernel⟩⟩,
   by refine ⟨0, 0, .error, withJob (job 0x0407), job 0x0407, [], ⟨by decide +kernel, by decide +kernel, by decide +kernel,
     by decide +kernel, by decide +kernel, by decide +kernel⟩, Or.inl ⟨by decide +kernel, by decide +kernel⟩⟩,
   by refine ⟨0, 0, withJob clearJob, _, clearJob, _, ⟨by decide +kernel, by decide +kernel, by decide +kernel,
     by decide +kernel, by decide +kernel, by decide +kernel⟩, Or.inl ⟨rfl, rfl, rfl⟩, ?_⟩ <;> decide +kernel,
   by refine ⟨0, 0, (withJob clearJob).modEng 0 13 (fun e => { e with lastOwner := 5 }), _, clearJob, _, 13, ⟨by decide +kernel,
     by decide +kernel, by decide +kernel, by decide +kernel, by decide +kernel, by decide +kernel⟩, Or.inl ⟨rfl, rfl, rfl⟩, ?_,
     ?_⟩ <;> decide +kernel,
   by refine ⟨0, 0, (withJob clearJob).modEng 0 13 (fun e => { e with lastOwner := 5, holder := 2 }), _, clearJob, _, 13,
     ⟨by decide +kernel, by decide +kernel, by decide +kernel, by decide +kernel, by decide +kernel, by decide +kernel⟩, Or.inl
     ⟨rfl, rfl, rfl⟩, ?_, ?_⟩ <;> decide +kernel⟩

theorem test_witness_PaymentJobsRun :
    (∃ (h : Fin 16) (j : Fin 2048) (s : State) (jb : Job), AtRun s h j 0x0501 jb) ∧
    (∃ (h : Fin 16) (j : Fin 2048) (s : State) (jb : Job), AtRun s h j 0x0502 jb) ∧
    (∃ (h : Fin 16) (j : Fin 2048) (s : State) (jb : Job), AtRun s h j 0x0503 jb) ∧
    (∃ (h : Fin 16) (j : Fin 2048) (s : State) (jb : Job), AtRun s h j 0x0510 jb) ∧
    (∃ (h : Fin 16) (j : Fin 2048) (s : State) (jb : Job), AtRun s h j 0x0511 jb) ∧
    (∃ (h : Fin 16) (j : Fin 2048) (inp : Dma) (s : State) (jb : Job) (b : Bytes), AtRun s h j 0x0520 jb ∧ InputIs s jb inp b) ∧
    (∃ (h : Fin 16) (j : Fin 2048) (inp : Dma) (s : State) (jb : Job) (b : Bytes), AtRun s h j 0x0521 jb ∧ InputIs s jb inp b) ∧
    (∃ (h : Fin 16) (j : Fin 2048) (inp : Dma) (s : State) (jb : Job) (b : Bytes), AtRun s h j 0x0530 jb ∧ InputIs s jb inp b) :=
  ⟨by refine ⟨0, 0, withJob (job 0x0501), job 0x0501, ⟨by decide +kernel, by decide +kernel, by decide +kernel,
     by decide +kernel, by decide +kernel, by decide +kernel⟩⟩,
   by refine ⟨0, 0, withJob (job 0x0502), job 0x0502, ⟨by decide +kernel, by decide +kernel, by decide +kernel,
     by decide +kernel, by decide +kernel, by decide +kernel⟩⟩,
   by refine ⟨0, 0, withJob (job 0x0503), job 0x0503, ⟨by decide +kernel, by decide +kernel, by decide +kernel,
     by decide +kernel, by decide +kernel, by decide +kernel⟩⟩,
   by refine ⟨0, 0, withJob (job 0x0510), job 0x0510, ⟨by decide +kernel, by decide +kernel, by decide +kernel,
     by decide +kernel, by decide +kernel, by decide +kernel⟩⟩,
   by refine ⟨0, 0, withJob (job 0x0511), job 0x0511, ⟨by decide +kernel, by decide +kernel, by decide +kernel,
     by decide +kernel, by decide +kernel, by decide +kernel⟩⟩,
   by refine ⟨0, 0, .error, withJob (job 0x0520), job 0x0520, [], ⟨by decide +kernel, by decide +kernel, by decide +kernel,
     by decide +kernel, by decide +kernel, by decide +kernel⟩, Or.inl ⟨by decide +kernel, by decide +kernel⟩⟩,
   by refine ⟨0, 0, .error, withJob (job 0x0521), job 0x0521, [], ⟨by decide +kernel, by decide +kernel, by decide +kernel,
     by decide +kernel, by decide +kernel, by decide +kernel⟩, Or.inl ⟨by decide +kernel, by decide +kernel⟩⟩,
   by refine ⟨0, 0, .error, withJob (job 0x0530), job 0x0530, [], ⟨by decide +kernel, by decide +kernel, by decide +kernel,
     by decide +kernel, by decide +kernel, by decide +kernel⟩, Or.inl ⟨by decide +kernel, by decide +kernel⟩⟩⟩

theorem test_witness_JobFunctionFrame :
    (∃ (s : State) (h j : Nat) (jb : Job) (b : Bytes) (r : Ran) (k : Nat), s.job? h j = some jb ∧ jb.units ≠ [] ∧ k ≠ h) ∧
    (∃ (s : State) (h j : Nat) (jb : Job) (b : Bytes) (r : Ran) (i : Nat), s.job? h j = some jb ∧ jb.units ≠ [] ∧ i ≠ j) ∧
    (∃ (s : State) (h j : Nat) (jb : Job) (b : Bytes) (r : Ran) (u : Nat), s.job? h j = some jb ∧ jb.units ≠ []) :=
  ⟨by refine ⟨withJob (job 0x0201), 0, 0, job 0x0201, [], {}, 1, ?_, ?_, ?_⟩ <;> decide +kernel,
   by refine ⟨withJob (job 0x0201), 0, 0, job 0x0201, [], {}, 1, ?_, ?_, ?_⟩ <;> decide +kernel,
   by refine ⟨withJob (job 0x0201), 0, 0, job 0x0201, [], {}, 0, ?_, ?_⟩ <;> decide +kernel⟩

theorem test_witness_EngineLocksAndScrubs :
    (∃ (h u : Fin 16) (who : Requester) (data : Word) (s w : State), s.answers h = true ∧ w = wakeHearth h s ∧ (isInner who =
      true ∧ data.toNat % 65536 = 0xFFF1 ∨ isOuter who = true ∧ data.toNat % 65536 = 0xFFF2) ∧ (w.eng h u).scrubbing = false ∧
      w.blockRun h u = true ∧ (w.eng h u).katPending = false ∧ (w.eng h u).katRunning = false ∧ (w.eng h u).holder = 0 ∧ ((w.eng
      h u).offline = false ∨ isInner who = true)) ∧
    (∃ (h u : Fin 16) (who : Requester) (data : Word) (s w : State), s.answers h = true ∧ w = wakeHearth h s ∧ (isInner who =
      true ∧ data.toNat % 65536 = 0xFFF1 ∨ isOuter who = true ∧ data.toNat % 65536 = 0xFFF2) ∧ (w.eng h u).scrubbing = false ∧
      w.blockRun h u = true ∧ (w.eng h u).katPending = false ∧ (w.eng h u).katRunning = false ∧ (w.eng h u).holder ≠ 0 ∧ (w.eng
      h u).holder ≠ (if isInner who then 2 else 3) ∧ (w.eng h u).reservedBy = 0) ∧
    (∃ (h u : Fin 16) (who : Requester) (data : Word) (s w : State), s.answers h = true ∧ w = wakeHearth h s ∧ (isInner who =
      true ∨ isOuter who = true) ∧ data.toNat % 65536 = 0 ∧ (w.eng h u).scrubbing = false ∧ (w.eng h u).holder = (if isInner who
      then 2 else 3) ∧ (w.eng h u).busy = false) ∧
    (∃ (h u : Fin 16) (who : Requester) (data : Word) (s w : State), s.answers h = true ∧ w = wakeHearth h s ∧ isInner who =
      false ∧ isOuter who = false) ∧
    (∃ (h : Fin 16) (u : Fin 20) (s : State), (s.eng h u).scrubbing = true ∧ isBurner u = false ∧ isBn u = false) ∧
    (∃ (h : Fin 16) (u : Fin 20) (s : State), (s.eng h u).scrubbing = true ∧ isBn u = true) ∧
    (∃ (h : Fin 16) (n : Fin 4) (s : State), (s.eng h (12 + n)).clearing = true ∧ (s.eng h (12 + n)).scrubbing = true) ∧
    (∃ (h : Fin 16) (n : Fin 4) (s : State), (s.eng h (12 + n)).clearing = true ∧ (s.eng h (12 + n)).scrubbing = false) :=
  ⟨by refine ⟨0, 15, .inner 0, 0xFFF1, base, _, ?_, rfl, ?_, ?_, ?_, ?_, ?_, ?_, ?_⟩ <;> decide +kernel,
   by refine ⟨0, 15, .outer 0, 0xFFF2, innerHeld 15 base, _, ?_, rfl, ?_, ?_, by decide +kernel, ?_, ?_, ?_, ?_,
     by decide +kernel⟩ <;> decide +kernel,
   by refine ⟨0, 15, .inner 3, 0, innerHeld 15 base, _, ?_, rfl, ?_, ?_, ?_, ?_, ?_⟩ <;> decide +kernel,
   by refine ⟨0, 15, .pf0, 0, base, _, ?_, rfl, ?_, ?_⟩ <;> decide +kernel,
   by refine ⟨0, 11, base.modEng 0 11 (fun e => { e with scrubbing := true }), ?_, ?_, ?_⟩ <;> decide +kernel,
   by refine ⟨0, 12, base.modEng 0 12 (fun e => { e with scrubbing := true }), ?_, ?_⟩ <;> decide +kernel,
   by refine ⟨0, 0, base.modEng 0 12 (fun e => { e with scrubbing := true, clearing := true }), ?_, ?_⟩ <;> decide +kernel,
   by refine ⟨0, 3, base.modEng 0 15 (fun e => { e with clearing := true }), ?_, ?_⟩ <;> decide +kernel⟩

theorem test_witness_DirectUse :
    (∃ (h : Fin 16) (n : Fin 8) (who : Requester) (s w : State) (vs : List KeyView), s.answers h = true ∧ w = wakeHearth h s ∧
      holderFault w h n who = none ∧ (w.eng h n).busy = false ∧ (w.eng h n).clearing = false ∧ symKeys w h n (isOuter who) = .ok
      vs) ∧
    (∃ (h : Fin 16) (n : Fin 4) (who : Requester) (s w : State) (vs : List KeyView), s.answers h = true ∧ w = wakeHearth h s ∧
      holderFault w h (8 + n) who = none ∧ (w.eng h (8 + n)).busy = false ∧ (w.eng h (8 + n)).clearing = false ∧ symKeys w h (8
      + n) (isOuter who) = .ok vs) ∧
    (∃ (h : Fin 16) (n : Fin 4) (who : Requester) (s w : State) (vs : List KeyView), s.answers h = true ∧ w = wakeHearth h s ∧
      holderFault w h (12 + n) who = none ∧ (w.eng h (12 + n)).busy = false ∧ (w.eng h (12 + n)).clearing = false ∧ bnKeys w h n
      (isOuter who) = .ok vs) ∧
    (∃ (h : Fin 16) (n : Fin 8) (who : Requester) (s w : State) (st : Nat), s.answers h = true ∧ w = wakeHearth h s ∧
      holderFault w h n who = none ∧ (w.eng h n).busy = false ∧ (w.eng h n).clearing = false ∧ symKeys w h n (isOuter who) =
      .error st) ∧
    (∃ (h : Fin 16) (n : Fin 4) (who : Requester) (s w : State), s.answers h = true ∧ w = wakeHearth h s ∧ holderFault w h (12 +
      n) who = none ∧ (w.eng h (12 + n)).busy = false ∧ (w.eng h (12 + n)).clearing = false) ∧
    (∃ (h : Fin 16) (n : Fin 4) (who : Requester) (s w : State) (p : Page) (a : Nat), s.answers h = true ∧ w = wakeHearth h s ∧
      p = pgU h (12 + n) ∧ a = w.rd p Reg.BN_WIN_ADDR_WORD ∧ holderFault w h (12 + n) who = none ∧ (w.eng h (12 + n)).busy =
      false ∧ (w.eng h (12 + n)).clearing = false ∧ (opLine w h n (a / 8)).secret = false) ∧
    (∃ (h : Fin 16) (n : Fin 4) (who : Requester) (s w : State) (p : Page) (a : Nat), s.answers h = true ∧ w = wakeHearth h s ∧
      p = pgU h (12 + n) ∧ a = w.rd p Reg.BN_WIN_ADDR_WORD ∧ holderFault w h (12 + n) who = none ∧ (w.eng h (12 + n)).busy =
      false ∧ (w.eng h (12 + n)).clearing = false ∧ (opLine w h n (a / 8)).secret = true) ∧
    (∃ (h : Fin 16) (n : Fin 4) (who : Requester) (data : Word) (s w : State) (p : Page) (a : Nat), s.answers h = true ∧ w =
      wakeHearth h s ∧ p = pgU h (12 + n) ∧ a = w.rd p Reg.BN_WIN_ADDR_WORD ∧ holderFault w h (12 + n) who = none ∧ (w.eng h (12
      + n)).busy = false ∧ (w.eng h (12 + n)).clearing = false) :=
  ⟨by refine ⟨0, 0, .inner 0, ceSt, _, _, ?_, rfl, ?_, ?_, ?_, okOf (by decide +kernel)⟩ <;> decide +kernel,
   by refine ⟨0, 0, .inner 0, (innerHeld 8 base).wr (pgU 0 8) Reg.CE_MODE_MODE 1, _, _, ?_, rfl, ?_, ?_, ?_, okOf
     (by decide +kernel)⟩ <;> decide +kernel,
   by refine ⟨0, 0, .inner 0, bnSt, _, _, ?_, rfl, ?_, ?_, ?_, okOf (by decide +kernel)⟩ <;> decide +kernel,
   by refine ⟨0, 0, .inner 0, innerHeld 0 base, _, _, ?_, rfl, ?_, ?_, ?_, errOf (by decide +kernel)⟩ <;> decide +kernel,
   by refine ⟨0, 3, .inner 0, innerHeld 15 base, _, ?_, rfl, ?_, ?_, ?_⟩ <;> decide +kernel,
   by refine ⟨0, 0, .inner 0, innerHeld 12 base, _, _, _, ?_, rfl, rfl, rfl, ?_, ?_, ?_, ?_⟩ <;> decide +kernel,
   by refine ⟨0, 0, .inner 0, putLine 0 0 0 { data := zeros 64, secret := true } (innerHeld 12 base), _, _, _, ?_, rfl, rfl,
     rfl, ?_, ?_, ?_, ?_⟩ <;> decide +kernel,
   by refine ⟨0, 0, .inner 0, 0xFFFFFFFF, innerHeld 12 base, _, _, _, ?_, rfl, rfl, rfl, ?_, ?_, ?_⟩ <;> decide +kernel⟩

theorem test_witness_EngineMaintenance :
    (∃ (h : Fin 16) (u : Fin 20) (who : Requester) (s w : State), s.answers h = true ∧ w = wakeHearth h s ∧ (w.eng h
      u).scrubbing = false ∧ mgrOrInner who = true ∧ (w.eng h u).katRunning = false ∧ w.blockState h u ≠ 2) ∧
    (∃ (h : Fin 16) (u : Fin 20) (who : Requester) (s w : State), s.answers h = true ∧ w = wakeHearth h s ∧ (w.eng h
      u).scrubbing = false ∧ mgrOrInner who = false) ∧
    (∃ (h : Fin 16) (u : Fin 20) (s : State), s.up h = true ∧ katPeriod s h u ≠ 0 ∧ (s.eng h u).katRunning = false ∧
      s.blockState h u ≠ 2) ∧
    (∃ (h : Fin 16) (u : Fin 20) (s : State), s.up h = true ∧ (s.eng h u).katPending = true ∧ (s.eng h u).holder = 0 ∧ (s.eng h
      u).busy = false ∧ (s.eng h u).turnover = false ∧ mgReady (s.eng h u) = true ∧ ((isBurner u = true → ∀ v ∈ [16, 17, 18,
      19], (s.eng h v).katRunning = false)) ∧ (s.blockState h u = 0 ∨ s.blockState h u = 3) ∧ ((s.H h).inner.lowestFree
      hostEntries 2048).isSome = true) ∧
    (∃ (h : Fin 16) (u : Fin 20) (s : State), (s.eng h u).katRunning = true ∧ (s.eng h u).scrubbing = false) ∧
    (∃ (h : Fin 16) (u : Fin 20) (s t : State), (s.eng h u).katRunning = true ∧ (s.eng h u).scrubbing = false ∧ (t = errCtr h
      208 (fillInner h (releaseLock h u (s.modEng h u (fun e =>
      { e with katRunning := false, katReturns := false, offline := true, turnover := isBurner u })))))) ∧
    (∃ (h : Fin 16) (u : Fin 20) (s : State), s.up h = true ∧ (s.eng h u).mg.seeded = true ∧ (s.eng h u).mg.stalled = false ∧
      (s.eng h u).mg.prefetched = true) ∧
    (∃ (h : Fin 16) (u : Fin 20) (s : State), s.up h = true ∧ (s.eng h u).mg.seeded = true ∧ (s.eng h u).mg.stalled = false ∧
      (s.eng h u).mg.prefetched = false ∧ s.rd (entPage h) Reg.ENT_CTRL_POLICY ≠ 0 ∧ (s.eng h u).mg.grace < 16) ∧
    (∃ (h : Fin 16) (u : Fin 20) (s : State), s.up h = true ∧ (s.eng h u).mg.seeded = true ∧ (s.eng h u).mg.stalled = false ∧
      (s.eng h u).mg.prefetched = false ∧ (s.rd (entPage h) Reg.ENT_CTRL_POLICY = 0 ∨ 16 ≤ (s.eng h u).mg.grace)) ∧
    (∃ (h : Fin 16) (u : Fin 20) (s : State), s.up h = true ∧ (s.eng h u).mg.prefetched = false) ∧
    (∃ (h : Fin 16) (u : Fin 20) (s t r : State) (b : Bytes), s.up h = true ∧ s.blockState h u ≠ 2 ∧ ((s.eng h u).mg.seeded =
      false ∨ (s.eng h u).mg.stalled = true ∨ (s.eng h u).mg.requested = true ∧ (s.eng h u).mg.prefetched = false) ∧ (((s.H
      h).cacheMg.seeded = true ∧ t = s ∨ (s.H h).cacheMg.seeded = false ∧ ∃ c t', drbgRequest h 48 false s = some (c, t') ∧ t =
      t'.modH h (fun x => { x with cacheMg := x.cacheMg.seed c }))) ∧ drbgRequest h 48 false t = some (b, r)) :=
  ⟨by refine ⟨0, 19, .pf0, base, _, ?_, rfl, ?_, ?_, ?_, ?_⟩ <;> decide +kernel,
   by refine ⟨0, 19, .pf1, base, _, ?_, rfl, ?_, ?_⟩ <;> decide +kernel,
   by refine ⟨0, 0, base.wr (pgU 0 0) Reg.KAT_CTRL_PERIOD 1, ?_, ?_, ?_, ?_⟩ <;> decide +kernel,
   by refine ⟨0, 16, base.modEng 0 16 (fun e => { e with katPending := true, mg := { seeded := true } }), ?_, ?_, ?_, ?_, ?_,
     ?_, ?_, ?_, ?_⟩ <;> decide +kernel,
   by refine ⟨0, 0, base.modEng 0 0 (fun e => { e with katRunning := true }), ?_, ?_⟩ <;> decide +kernel,
   by refine ⟨0, 19, base.modEng 0 19 (fun e => { e with katRunning := true }), _, ?_, ?_, rfl⟩ <;> decide +kernel,
   by refine ⟨0, 0, base.modEng 0 0 (fun e => { e with mg := { seeded := true, prefetched := true } }), ?_, ?_, ?_, ?_⟩ <;>
     decide +kernel,
   by refine ⟨0, 0, (base.modEng 0 0 (fun e => { e with mg := { seeded := true, grace := 15 } })).wr (entPage 0)
     Reg.ENT_CTRL_POLICY 1, ?_, ?_, ?_, ?_, ?_, ?_⟩ <;> decide +kernel,
   by refine ⟨0, 0, (base.modEng 0 0 (fun e => { e with mg := { seeded := true } })).wr (entPage 0) Reg.ENT_CTRL_POLICY 0, ?_,
     ?_, ?_, ?_, ?_⟩ <;> decide +kernel,
   by refine ⟨0, 0, base, ?_, ?_⟩ <;> decide +kernel,
   by refine ⟨0, 0, (drbgOn 0 base).modH 0 (fun x => { x with cacheMg := { seeded := true } }), _, _, _, ?_, ?_, ?_, Or.inl
     ⟨by decide +kernel, rfl⟩, pairOf (by decide +kernel)⟩ <;> decide +kernel⟩

theorem test_witness_StokerAndHobRegisters :
    (∃ (h : Fin 16) (who : Requester) (data : Word) (s w : State), s.answers h = true ∧ w = wakeHearth h s ∧ mgrOrInner who =
      true ∧ data.toNat % 4 ≠ 3) ∧
    (∃ (h : Fin 16) (who : Requester) (data : Word) (s w : State), s.answers h = true ∧ w = wakeHearth h s ∧ mgrOrInner who =
      false) ∧
    (∃ (h : Fin 16) (who : Requester) (data : Word) (s w : State), s.answers h = true ∧ w = wakeHearth h s ∧ w.variant.hob =
      true ∧ mgrOrInner who = true ∧ data.toNat % 4 = 2 ∧ w.rd (pgH .hob h) Reg.HOB_CTRL_MODE ≠ 2) ∧
    (∃ (h : Fin 16) (who : Requester) (data : Word) (s w : State), s.answers h = true ∧ w = wakeHearth h s ∧ w.variant.hob =
      true ∧ mgrOrInner who = true ∧ data.toNat % 4 = 1 ∧ w.rd (pgH .hob h) Reg.HOB_CTRL_MODE ≠ 1) ∧
    (∃ (h : Fin 16) (who : Requester) (data : Word) (s w : State), s.answers h = true ∧ w = wakeHearth h s ∧ w.variant.hob =
      true ∧ mgrOrInner who = true ∧ (data.toNat % 4 = 0 ∨ data.toNat % 4 = 3) ∧ w.rd (pgH .hob h) Reg.HOB_CTRL_MODE ≠
      data.toNat % 4) ∧
    (∃ (h : Fin 16) (who : Requester) (s w : State), s.answers h = true ∧ w = wakeHearth h s ∧ w.variant.hob = true ∧ mgrOrInner
      who = true) ∧
    (∃ (h : Fin 16) (n : Fin 4) (who : Requester) (data : Word) (s w : State) (es : List Nat), s.answers h = true ∧ w =
      wakeHearth h s ∧ w.variant.hob = true ∧ mgrOrInner who = true ∧ data.toNat % 2 = 1 ∧ (es = (List.range 16).map (fun i =>
      bits (w.rd (pgH .hob h) (Reg.DT_LO_ENTRIES_LO n) + w.rd (pgH .hob h) (Reg.DT_HI_ENTRIES_HI n) * 2 ^ 32) (4 * i) 4)) ∧ (∀ e
      ∈ es, e ≤ 9) ∧ (∀ d, d < 10 → d ∈ es)) ∧
    (∃ (h : Fin 16) (n : Fin 4) (who : Requester) (data : Word) (s w : State) (es : List Nat), s.answers h = true ∧ w =
      wakeHearth h s ∧ w.variant.hob = true ∧ mgrOrInner who = true ∧ data.toNat % 2 = 1 ∧ (es = (List.range 16).map (fun i =>
      bits (w.rd (pgH .hob h) (Reg.DT_LO_ENTRIES_LO n) + w.rd (pgH .hob h) (Reg.DT_HI_ENTRIES_HI n) * 2 ^ 32) (4 * i) 4)) ∧ ((∃
      e ∈ es, 9 < e) ∨ (∃ d, d < 10 ∧ d ∉ es))) :=
  ⟨by refine ⟨0, .pf0, 2, base, _, ?_, rfl, ?_, ?_⟩ <;> decide +kernel,
   by refine ⟨0, .vf 0, 2, base, _, ?_, rfl, ?_⟩ <;> decide +kernel,
   by refine ⟨0, .pf0, 2, base, _, ?_, rfl, ?_, ?_, ?_, ?_⟩ <;> decide +kernel,
   by refine ⟨0, .pf0, 1, base, _, ?_, rfl, ?_, ?_, ?_, ?_⟩ <;> decide +kernel,
   by refine ⟨0, .pf0, 3, base, _, ?_, rfl, ?_, ?_, ?_, ?_⟩ <;> decide +kernel,
   by refine ⟨0, .pf0, base, _, ?_, rfl, ?_, ?_⟩ <;> decide +kernel,
   by refine ⟨0, 0, .pf0, 1, (base.wr (pgH .hob 0) (Reg.DT_LO_ENTRIES_LO 0) 0x76543210).wr (pgH .hob 0) (Reg.DT_HI_ENTRIES_HI 0)
     0x00000098, _, _, ?_, rfl, ?_, ?_, ?_, rfl, ?_, ?_⟩ <;> decide +kernel,
   by refine ⟨0, 3, .pf0, 1, (base.wr (pgH .hob 0) (Reg.DT_LO_ENTRIES_LO 3) 0x7654321A).wr (pgH .hob 0) (Reg.DT_HI_ENTRIES_HI 3)
     0x00000098, _, _, ?_, rfl, ?_, ?_, ?_, rfl, ?_⟩ <;> decide +kernel⟩

theorem test_witness_GroupControl :
    (∃ (src : GroupSrc) (s : State) (h : Nat) (vf : Option Nat) (d : Bytes) (ref : CtlRef) (id : Nat), CtlAt s 0x0701 h vf d ref
      src ∧ (s.H h).groups.length < 32 ∧ journalTotal (s.H h) < 1024 ∧ byteAt (dOperands d) 0 = 0 ∧ id = nextGroupId (s.H h) 33
      (s.H h).nextGroup) ∧
    (∃ (src : GroupSrc) (s : State) (h : Nat) (vf : Option Nat) (d : Bytes) (ref : CtlRef) (id st parts tag : Nat), CtlAt s
      0x0701 h vf d ref src ∧ (s.H h).groups.length < 32 ∧ journalTotal (s.H h) < 1024 ∧ byteAt (dOperands d) 0 ≠ 0 ∧ id =
      nextGroupId (s.H h) 33 (s.H h).nextGroup ∧ st = byteAt (dOperands d) 2 ∧ parts = fieldLe (dOperands d) 4 2 ∧ tag = fieldLe
      (dOperands d) 8 4 ∧ memberFits s h vf st parts = true ∧ s.gang? st tag = none ∧ s.decision? 2 st tag = none ∧
      s.flue.gangs.length < 64) ∧
    (∃ (src : GroupSrc) (s : State) (h : Nat) (vf : Option Nat) (d : Bytes) (ref : CtlRef) (g : Group), CtlAt s 0x0702 h vf d
      ref src ∧ s.group? h (dGroup d) = some g ∧ g.vf = vf ∧ g.state = .opened ∧ g.commit = none ∧ g.actions.length ≤ fieldLe
      (dOperands d) 0 2 ∧ g.gang = none) ∧
    (∃ (src : GroupSrc) (s : State) (h : Nat) (vf : Option Nat) (d : Bytes) (ref : CtlRef) (g : Group), CtlAt s 0x0702 h vf d
      ref src ∧ s.group? h (dGroup d) = some g ∧ g.vf = vf ∧ (g.state = .opened ∨ g.state = .doomed) ∧ g.commit = none ∧ fieldLe
      (dOperands d) 0 2 < g.actions.length) ∧
    (∃ (src : GroupSrc) (s : State) (h : Nat) (vf : Option Nat) (d : Bytes) (ref : CtlRef) (g : Group), CtlAt s 0x0703 h vf d
      ref src ∧ s.group? h (dGroup d) = some g ∧ g.vf = vf ∧ g.state ≠ .committing ∧ g.state ≠ .rollingBack ∧ g.abort = none ∧
      decided s h (dGroup d) g = false) ∧
    (∃ (src : GroupSrc) (s : State) (h : Nat) (vf : Option Nat) (d : Bytes) (ref : CtlRef) (g : Group), CtlAt s 0x0704 h vf d
      ref src ∧ s.group? h (dGroup d) = some g ∧ g.vf = vf) ∧
    (∃ (src : GroupSrc) (s : State) (h : Nat) (vf : Option Nat) (d : Bytes) (ref : CtlRef), CtlAt s 0x0702 h vf d ref src ∧ (∀
      g, s.group? h (dGroup d) = some g → g.vf ≠ vf)) ∧
    (∃ (src : GroupSrc) (s : State) (h : Nat) (vf : Option Nat) (d : Bytes) (ref : CtlRef), CtlAt s 0x0703 h vf d ref src ∧ (∀
      g, s.group? h (dGroup d) = some g → g.vf ≠ vf)) ∧
    (∃ (src : GroupSrc) (s : State) (h : Nat) (vf : Option Nat) (d : Bytes) (ref : CtlRef), CtlAt s 0x0704 h vf d ref src ∧ (∀
      g, s.group? h (dGroup d) = some g → g.vf ≠ vf)) ∧
    (∃ (h : Fin 16) (j : Fin 2048) (s : State) (jb : Job), s.job? h j = some jb ∧ s.works h = true ∧ jb.state = .ready ∧ dOp
      jb.desc = 0x0705 ∧ fenceHolds s h j jb = false ∧ jb.joined = true) ∧
    (∃ (q : Fin 4) (rd : AdminRead) (r : AdminReq) (s t : State) (h : Nat), AdminAt s 0x0705 q rd r ∧ adminGroupHearth s rd.desc
      = some h ∧ joinGroup h (dGroup rd.desc) (.admin r.key) none 1 false (adminFrom r s) = (t, .joined)) :=
  ⟨by refine ⟨.job 0 0, readyJob (dsc 0x0701), 0, some 0, dsc 0x0701, .job 0, _, ctlAt (readyJob (dsc 0x0701)) 0x0701 0 0
     { state := .ready, desc := dsc 0x0701 } (by decide +kernel) (by decide +kernel), ?_, ?_, ?_, rfl⟩ <;> decide +kernel,
   by refine ⟨.job 0 0, stackSt (readyJob gangOpen), 0, some 0, gangOpen, .job 0, _, _, _, _, ctlAt (stackSt (readyJob
     gangOpen)) 0x0701 0 0 { state := .ready, desc := gangOpen } (by decide +kernel) (by decide +kernel), ?_, ?_, ?_, rfl, rfl,
     rfl, rfl, ?_, by decide +kernel, ?_, ?_⟩ <;> decide +kernel,
   by refine ⟨.job 0 0, grp vfGroup (readyJob (dsc 0x0702 0 1)), 0, some 0, dsc 0x0702 0 1, .job 0, vfGroup, ctlAt (grp vfGroup
     (readyJob (dsc 0x0702 0 1))) 0x0702 0 0 { state := .ready, desc := dsc 0x0702 0 1 } (by decide +kernel)
     (by decide +kernel), ?_, ?_, ?_, ?_, ?_, ?_⟩ <;> decide +kernel,
   by refine ⟨.job 0 0, grp { vfGroup with actions := [{ ref := .job 1 }] } (readyJob (dsc 0x0702 0 1)), 0, some 0, dsc 0x0702 0
     1, .job 0, { vfGroup with actions := [{ ref := .job 1 }] }, ctlAt (grp { vfGroup with actions := [{ ref := .job 1 }] }
     (readyJob (dsc 0x0702 0 1))) 0x0702 0 0 { state := .ready, desc := dsc 0x0702 0 1 } (by decide +kernel)
     (by decide +kernel), ?_, ?_, ?_, ?_, ?_⟩ <;> decide +kernel,
   by refine ⟨.job 0 0, grp vfGroup (readyJob (dsc 0x0703 0 1)), 0, some 0, dsc 0x0703 0 1, .job 0, vfGroup, ctlAt (grp vfGroup
     (readyJob (dsc 0x0703 0 1))) 0x0703 0 0 { state := .ready, desc := dsc 0x0703 0 1 } (by decide +kernel)
     (by decide +kernel), ?_, ?_, ?_, ?_, ?_, ?_⟩ <;> decide +kernel,
   by refine ⟨.job 0 0, grp vfGroup (readyJob (dsc 0x0704 0 1)), 0, some 0, dsc 0x0704 0 1, .job 0, vfGroup, ctlAt (grp vfGroup
     (readyJob (dsc 0x0704 0 1))) 0x0704 0 0 { state := .ready, desc := dsc 0x0704 0 1 } (by decide +kernel)
     (by decide +kernel), ?_, ?_⟩ <;> decide +kernel,
   by refine ⟨.job 0 0, readyJob (dsc 0x0702 0 1), 0, some 0, dsc 0x0702 0 1, .job 0, ctlAt (readyJob (dsc 0x0702 0 1)) 0x0702 0
     0 { state := .ready, desc := dsc 0x0702 0 1 } (by decide +kernel) (by decide +kernel), allOf (by decide +kernel)⟩,
   by refine ⟨.job 0 0, grp {} (readyJob (dsc 0x0703 0 1)), 0, some 0, dsc 0x0703 0 1, .job 0, ctlAt (grp {} (readyJob (dsc
     0x0703 0 1))) 0x0703 0 0 { state := .ready, desc := dsc 0x0703 0 1 } (by decide +kernel) (by decide +kernel), allOf
     (by decide +kernel)⟩,
   by refine ⟨.job 0 0, readyJob (dsc 0x0704 0 1), 0, some 0, dsc 0x0704 0 1, .job 0, ctlAt (readyJob (dsc 0x0704 0 1)) 0x0704 0
     0 { state := .ready, desc := dsc 0x0704 0 1 } (by decide +kernel) (by decide +kernel), allOf (by decide +kernel)⟩,
   by refine ⟨0, 0, base.modH 0 (fun x => { x with jobs := [(0, { state := .ready, desc := dsc 0x0705, joined := true })] }),
     { state := .ready, desc := dsc 0x0705, joined := true }, ?_, ?_, ?_, ?_, ?_, ?_⟩ <;> decide +kernel,
   by refine ⟨0, adm 0x0705 [1, 2, 3] 3 1, req (grp {} base) 0 (adm 0x0705 [1, 2, 3] 3 1), grp {} base, _, 0, adminAt _ _ _ _ _
     rfl (by decide +kernel), ?_, Prod.ext rfl (by decide +kernel)⟩ <;> decide +kernel⟩

theorem test_witness_LocalGroupsResolve :
    (∃ (h : Fin 16) (g : BitVec 16) (s : State) (x : Group), s.group? h g.toNat = some x ∧ s.works h = true ∧ x.gang = none ∧
      x.complete = true ∧ countedSlots x = []) ∧
    (∃ (h : Fin 16) (g : BitVec 16) (s t : State) (x : Group), s.group? h g.toNat = some x ∧ s.works h = true ∧ x.gang = none ∧
      x.complete = true ∧ countedSlots x ≠ [] ∧ s.decision? 1 h g.toNat = none ∧ recordDecision 1 h g.toNat (2 ^ h.val)
      (groupOwner s x) [(h.val, countedSlots x)] [(h.val, x.actions.length)] s = some t) ∧
    (∃ (h : Fin 16) (g : BitVec 16) (s : State) (x : Group) (r : Nat) (d : Decision), s.group? h g.toNat = some x ∧ s.works h =
      true ∧ x.gang = none ∧ x.complete = true ∧ countedSlots x ≠ [] ∧ s.decision? 1 h g.toNat = some (r, d) ∧ d.state = 2) ∧
    (∃ (h : Fin 16) (g : BitVec 16) (s : State) (x : Group), s.group? h g.toNat = some x ∧ s.works h = true ∧ x.state =
      .rollingBack) ∧
    (∃ (h : Fin 16) (g : BitVec 16) (s : State) (x : Group), s.group? h g.toNat = some x ∧ s.works h = true ∧ x.state = .opened
      ∧ max 1 (s.rd (pgH .group h) Reg.GRP_CTRL_IDLE_LIMIT) ≤ x.idleMs ∧ decided s h g.toNat x = false) :=
  ⟨by refine ⟨0, 1, grp { state := .sealed, count := some 0 } base, { state := .sealed, count := some 0 }, ?_, ?_, ?_, ?_, ?_⟩
     <;> decide +kernel,
   by refine ⟨0, 1, grp slotGroup base, _, slotGroup, ?_, ?_, ?_, ?_, ?_, ?_, someOf (by decide +kernel)⟩ <;> decide +kernel,
   by refine ⟨0, 1, (grp slotGroup base).modChim (fun c =>
     { c with vault := { c.vault with records := [(0, { slotDec with state := 2 })] } }), slotGroup, 0,
     { slotDec with state := 2 }, ?_, ?_, ?_, ?_, ?_, ?_, ?_⟩ <;> decide +kernel,
   by refine ⟨0, 1, grp { state := .rollingBack } base, { state := .rollingBack }, ?_, ?_, ?_⟩ <;> decide +kernel,
   by refine ⟨0, 1, grp { idleMs := 70000 } base, { idleMs := 70000 }, ?_, ?_, ?_, ?_, ?_⟩ <;> decide +kernel⟩

theorem test_witness_GroupEffects :
    (∃ (h : Nat) (a : Action) (i : Nat) (e : KeyEntry) (s : State) (k : _), a.insert = some i ∧ a.evict = none ∧ a.slot = none ∧
      (s.H h).cache.find? i = some e ∧ e.state = .pending ∧ k ≠ i) ∧
    (∃ (x : Hearth) (a : Action) (i : Nat) (k : _), x.cache.sorted = true ∧ a.insert = some i ∧ a.evict = none ∧ a.uses = [] ∧ k
      ≠ i) ∧
    (∃ (x : Hearth) (a : Action) (i : Nat) (e : KeyEntry) (k : _), a.insert = none ∧ a.evict = some i ∧ a.uses = [] ∧
      x.cache.find? i = some e ∧ k ≠ i) ∧
    (∃ (x : Hearth) (a : Action) (i : Nat) (e : KeyEntry), a.insert = none ∧ a.evict = none ∧ a.uses = [i] ∧ x.cache.find? i =
      some e) :=
  ⟨by refine ⟨0, { ref := .job 0, insert := some 0 }, 0, { state := .pending }, base.modH 0 (fun x =>
     { x with cache := [(0, { state := .pending })] }), 1, ?_, ?_, ?_, ?_, ?_, ?_⟩ <;> decide +kernel,
   by refine ⟨{}, { ref := .job 0, insert := some 8191 }, 8191, 0, ?_, ?_, ?_, ?_, ?_⟩ <;> decide +kernel,
   by refine ⟨{ cache := [(0, {})] }, { ref := .job 0, evict := some 0 }, 0, {}, 1, ?_, ?_, ?_, ?_, ?_⟩ <;> decide +kernel,
   by refine ⟨{ cache := [(8191, {})] }, { ref := .job 0, uses := [8191] }, 8191, {}, ?_, ?_, ?_, ?_⟩ <;> decide +kernel⟩

theorem test_witness_GangsResolve :
    (∃ (h : Fin 16) (g : BitVec 16) (s : State) (x : Group) (r : GangRef), s.group? h g.toNat = some x ∧ x.gang = some r ∧
      s.flueUp = true ∧ s.works h = true ∧ x.complete = true) ∧
    (∃ (st : Fin 32) (tag : Word) (s : State) (x : Gang), s.gang? st tag.toNat = some x ∧ s.flueUp = true ∧ x.state =
      .preparing) ∧
    (∃ (k : Fin 16) (s : State) (d : Decision), s.chim.vault.records.find? k.val = some d ∧ d.state = 1 ∧ s.chim.por = false ∧
      s.chim.main = true ∧ d.kind = 2) ∧
    (∃ (k : Fin 16) (s : State) (d : Decision), s.chim.vault.records.find? k.val = some d ∧ d.state = 1 ∧ s.chim.por = false ∧
      s.chim.main = true ∧ d.kind = 1) ∧
    (∃ (h : Fin 16) (g : BitVec 16) (s : State) (x : Group) (r : GangRef) (y : Gang), s.group? h g.toNat = some x ∧ x.gang =
      some r ∧ s.gang? r.stack r.tag = some y ∧ y.state = .committed ∧ s.flueUp = true ∧ s.works h = true ∧ x.state = .prepared) ∧
    (∃ (h : Fin 16) (g : BitVec 16) (s : State) (x : Group) (r : GangRef) (y : Gang), s.group? h g.toNat = some x ∧ x.gang =
      some r ∧ s.gang? r.stack r.tag = some y ∧ y.state = .aborting ∧ s.flueUp = true ∧ s.works h = true) :=
  ⟨by refine ⟨0, 1, gangSt .forming .sealed, gangGroup .sealed, { stack := 0, tag := 7, parts := 3 }, ?_, ?_, ?_, ?_, ?_⟩ <;>
     decide +kernel,
   by refine ⟨0, 7, gangSt .preparing .prepared, gang .preparing, ?_, ?_, ?_⟩ <;> decide +kernel,
   by refine ⟨0, recSt { slotDec with kind := 2 }, { slotDec with kind := 2 }, ?_, ?_, ?_, ?_, ?_⟩ <;> decide +kernel,
   by refine ⟨0, recSt slotDec, slotDec, ?_, ?_, ?_, ?_, ?_⟩ <;> decide +kernel,
   by refine ⟨0, 1, gangSt .committed .prepared, gangGroup .prepared, { stack := 0, tag := 7, parts := 3 }, gang .committed, ?_,
     ?_, ?_, ?_, ?_, ?_, ?_⟩ <;> decide +kernel,
   by refine ⟨0, 1, gangSt .aborting .prepared, gangGroup .prepared, { stack := 0, tag := 7, parts := 3 }, gang .aborting, ?_,
     ?_, ?_, ?_, ?_, ?_⟩ <;> decide +kernel⟩

theorem test_witness_CountingIsExact :
    (∃ (r : Nat) (v : Vault) (d : Decision) (i : Nat) (e : ApplyEntry) (k : Nat), v.records.find? r = some d ∧ d.state = 1 ∧
      v.applies = [(i, e)] ∧ e.record = r ∧ e.progress = 0 ∧ e.slots.Nodup ∧ k ∈ e.slots) ∧
    (∃ (r : Nat) (v : Vault) (d : Decision) (i : Nat) (e : ApplyEntry) (n : _), v.records.find? r = some d ∧ d.state = 1 ∧
      v.applies = [(i, e)] ∧ e.record = r ∧ e.progress = 0 ∧ e.slots.Nodup ∧ (∀ k ∈ e.slots, n ≠ e.hearth * 256 + k)) ∧
    (∃ (r : Nat) (v : Vault) (d : Decision), v.records.find? r = some d ∧ d.state = 1) ∧
    (∃ (r : Nat) (v : Vault) (d : Decision), v.records.find? r = some d ∧ d.state ≠ 1) :=
  ⟨by refine ⟨0, countVault, slotDec, 31, { hearth := 15, record := 0, reissue := 0, slots := [3, 253] }, 253, ?_, ?_, ?_, ?_,
     ?_, ?_, ?_⟩ <;> decide +kernel,
   by refine ⟨0, countVault, slotDec, 31, { hearth := 15, record := 0, reissue := 0, slots := [3, 253] }, 0, ?_, ?_, ?_, ?_, ?_,
     ?_, ?_⟩ <;> decide +kernel,
   by refine ⟨0, countVault, slotDec, ?_, ?_⟩ <;> decide +kernel,
   by refine ⟨0, { countVault with records := [(0, { slotDec with state := 2 })] }, { slotDec with state := 2 }, ?_, ?_⟩ <;>
     decide +kernel⟩

theorem test_witness_BindVfSetsDefaults :
    ∃ (q : Fin 4) (rd : AdminRead) (r : AdminReq) (s : State) (v h owner grant infl p : Nat), s.regs.sorted = true ∧ AdminAt s
      0x0801 q rd r ∧ v = oHalf r 0 ∧ h = oByte r 2 ∧ owner = oHalf r 4 ∧ grant = oByte r 6 ∧ infl = oHalf r 8 ∧ v <
      s.flue.numVfs ∧ v < 512 ∧ s.bound v = false ∧ h < 16 ∧ s.enabled h = true ∧ (1 ≤ owner ∧ owner < 0xFF00) ∧ (1 ≤ infl ∧
      infl ≤ 2016) ∧ (lcState s = lcVendorTest ∨ lcState s = lcOwned ∨ lcState s = lcOperational) ∧ s.hState h ≠ hsFatal ∧ (s.H
      h).needStart = false ∧ freePosition s h = some p ∧ roomAt s h v grant = true :=
  by refine ⟨0, (adm 0x0801 [255, 1, 15, 0, 0xFF, 0xFE, 8, 0, 0xE0, 7, 0, 0] 12), req (base.setHState 15 hsStarted) 0 (adm
    0x0801 [255, 1, 15, 0, 0xFF, 0xFE, 8, 0, 0xE0, 7, 0, 0] 12), (base.setHState 15 hsStarted), _, _, _, _, _, 0, ?_, adminAt _
    _ _ _ _ rfl (by decide +kernel), rfl, rfl, rfl, rfl, rfl, ?_, ?_, by decide +kernel, ?_, ?_, ?_, ?_, by decide +kernel, ?_,
    ?_, ?_, ?_⟩ <;> decide +kernel

theorem test_witness_VfAdministration :
    (∃ (q : Fin 4) (rd : AdminRead) (r : AdminReq) (s : State) (v : Nat), AdminAt s 0x0802 q rd r ∧ v = oHalf r 0 ∧ v <
      s.flue.numVfs ∧ v < 512 ∧ s.bound v = true ∧ s.damper v = dampDrained ∧ s.ft v Reg.FT_TDI_LOCKED ≠ 1) ∧
    (∃ (q : Fin 4) (rd : AdminRead) (r : AdminReq) (s : State) (v tgt p : Nat), AdminAt s 0x0803 q rd r ∧ v = oHalf r 0 ∧ v <
      s.flue.numVfs ∧ v < 512 ∧ s.bound v = true ∧ s.damper v = dampDrained ∧ s.ft v Reg.FT_TDI_LOCKED ≠ 1 ∧ tgt = oByte r 2 ∧
      tgt < 16 ∧ s.enabled tgt = true ∧ s.hState tgt ≠ hsFatal ∧ tgt ≠ s.ft v Reg.FT_HEARTH ∧ roomAt s tgt v (s.ft v
      Reg.FT_QP_GRANT) = true ∧ ((s.H tgt).compat = (s.H (s.ft v Reg.FT_HEARTH)).compat ∨ anyEnabled s v = false) ∧ freePosition
      s tgt = some p) ∧
    (∃ (q : Fin 4) (rd : AdminRead) (r : AdminReq) (s : State) (v : Nat), AdminAt s 0x0804 q rd r ∧ v = oHalf r 0 ∧ v <
      s.flue.numVfs ∧ v < 512 ∧ s.bound v = true ∧ s.damper v = dampDrained ∧ s.ft v Reg.FT_TDI_LOCKED ≠ 1) ∧
    (∃ (q : Fin 4) (rd : AdminRead) (r : AdminReq) (s : State) (v n : Nat), AdminAt s 0x0805 q rd r ∧ v = oHalf r 0 ∧ v <
      s.flue.numVfs ∧ v < 512 ∧ s.bound v = true ∧ s.ft v Reg.FT_TDI_LOCKED ≠ 1 ∧ n = oByte r 2 ∧ roomAt s (s.ft v
      Reg.FT_HEARTH) v n = true ∧ (∀ k : Fin 8, n ≤ k.val → s.qrd (.vf (Fin.ofNat 512 v) k) Reg.QP_STATUS_ACTIVE ≠ 1)) ∧
    (∃ (q : Fin 4) (rd : AdminRead) (r : AdminReq) (s : State) (v w rate b : Nat), AdminAt s 0x0806 q rd r ∧ v = oHalf r 0 ∧ v <
      s.flue.numVfs ∧ v < 512 ∧ s.bound v = true ∧ w = oHalf r 2 ∧ rate = oHalf r 4 ∧ b = oHalf r 6 ∧ (1 ≤ w ∧ w ≤ 1023) ∧ rate
      ≤ 1023 ∧ (1 ≤ b ∧ b ≤ 4095)) ∧
    (∃ (q : Fin 4) (rd : AdminRead) (r : AdminReq) (s : State) (v : Nat), AdminAt s 0x0807 q rd r ∧ v = oHalf r 0 ∧ v <
      s.flue.numVfs ∧ v < 512 ∧ s.bound v = true ∧ oByte r 2 ≤ 8 ∧ oByte r 3 ≤ 4 ∧ oByte r 4 ≤ 4 ∧ oByte r 5 ≤ 4) ∧
    (∃ (q : Fin 4) (rd : AdminRead) (r : AdminReq) (s : State) (h : Nat), AdminAt s 0x0809 q rd r ∧ h = oByte r 0 ∧ s.enabled h
      = true ∧ oByte r 1 ≤ 1 ∧ (s.H h).compatLock = false ∧ (∀ v ∈ s.boundVfs h, s.ft v Reg.FT_TDI_LOCKED ≠ 1)) ∧
    (∃ (q : Fin 4) (rd : AdminRead) (r : AdminReq) (s : State) (v n : Nat), AdminAt s 0x080A q rd r ∧ v = oHalf r 0 ∧ v <
      s.flue.numVfs ∧ v < 512 ∧ s.bound v = true ∧ n = oHalf r 2 ∧ (1 ≤ n ∧ n ≤ 2016)) ∧
    (∃ (q : Fin 4) (rd : AdminRead) (r : AdminReq) (s : State) (k : Nat), AdminAt s 0x080B q rd r ∧ k = oByte r 0 ∧ k ≤ 31 ∧
      undecidedGang s k = false ∧ oByte r 1 = 0) ∧
    (∃ (q : Fin 4) (rd : AdminRead) (r : AdminReq) (s : State) (k owner mask : Nat), AdminAt s 0x080B q rd r ∧ k = oByte r 0 ∧ k
      ≤ 31 ∧ undecidedGang s k = false ∧ oByte r 1 = 1 ∧ owner = oHalf r 2 ∧ mask = oHalf r 4 ∧ 2 ≤ ((List.range 16).filter
      (mask.testBit ·)).length ∧ (∀ h, h < 16 → mask.testBit h = true → s.enabled h = true ∧ ∃ v ∈ s.boundVfs h, s.ft v
      Reg.FT_OWNER_ID = owner)) :=
  ⟨by refine ⟨0, (adm 0x0802 [] 2), req (dampSt dampDrained) 0 (adm 0x0802 [] 2), (dampSt dampDrained), _, adminAt _ _ _ _ _ rfl
     (by decide +kernel), rfl, ?_, ?_, ?_, ?_, ?_⟩ <;> decide +kernel,
   by refine ⟨0, (adm 0x0803 [0, 0, 1] 4), req (dampSt dampDrained) 0 (adm 0x0803 [0, 0, 1] 4), (dampSt dampDrained), _, _, 0,
     adminAt _ _ _ _ _ rfl (by decide +kernel), rfl, ?_, ?_, by decide +kernel, ?_, ?_, rfl, ?_, by decide +kernel, ?_, ?_, ?_,
     ?_, by decide +kernel⟩ <;> decide +kernel,
   by refine ⟨0, (adm 0x0804 [] 2), req (dampSt dampDrained) 0 (adm 0x0804 [] 2), (dampSt dampDrained), _, adminAt _ _ _ _ _ rfl
     (by decide +kernel), rfl, ?_, ?_, ?_, ?_, ?_⟩ <;> decide +kernel,
   by refine ⟨0, (adm 0x0805 [0, 0, 3] 4), req (base.qwr (.vf 0 0) Reg.QP_CTRL_ENABLE 0) 0 (adm 0x0805 [0, 0, 3] 4), (base.qwr
     (.vf 0 0) Reg.QP_CTRL_ENABLE 0), _, _, adminAt _ _ _ _ _ rfl (by decide +kernel), rfl, ?_, ?_, ?_, ?_, rfl, ?_, ?_⟩ <;>
     decide +kernel,
   by refine ⟨0, (adm 0x0806 [0, 0, 0xFF, 3, 0xFF, 3, 0xFF, 0xF] 8), req base 0 (adm 0x0806 [0, 0, 0xFF, 3, 0xFF, 3, 0xFF, 0xF]
     8), base, _, _, _, _, adminAt _ _ _ _ _ rfl (by decide +kernel), rfl, ?_, ?_, by decide +kernel, rfl, rfl, rfl, ?_,
     by decide +kernel, ?_⟩ <;> decide +kernel,
   by refine ⟨0, (adm 0x0807 [0, 0, 8, 4, 4, 4] 6), req base 0 (adm 0x0807 [0, 0, 8, 4, 4, 4] 6), base, _, adminAt _ _ _ _ _ rfl
     (by decide +kernel), rfl, ?_, ?_, ?_, ?_, ?_, ?_, ?_⟩ <;> decide +kernel,
   by refine ⟨0, (adm 0x0809 [15, 1] 2), req base 0 (adm 0x0809 [15, 1] 2), base, _, adminAt _ _ _ _ _ rfl (by decide +kernel),
     rfl, ?_, ?_, ?_, ?_⟩ <;> decide +kernel,
   by refine ⟨0, (adm 0x080A [0, 0, 0xE0, 7] 4), req base 0 (adm 0x080A [0, 0, 0xE0, 7] 4), base, _, _, adminAt _ _ _ _ _ rfl
     (by decide +kernel), rfl, ?_, ?_, ?_, rfl, ?_⟩ <;> decide +kernel,
   by refine ⟨0, (adm 0x080B [31] 8), req base 0 (adm 0x080B [31] 8), base, _, adminAt _ _ _ _ _ rfl (by decide +kernel), rfl,
     ?_, ?_, ?_⟩ <;> decide +kernel,
   by refine ⟨0, (adm 0x080B [31, 1, 5, 0, 3, 0] 8), req ((base.setFt 1 Reg.FT_BOUND 1).setFt 1 Reg.FT_OWNER_ID 5 |> fun s =>
     s.setFt 1 Reg.FT_HEARTH 1) 0 (adm 0x080B [31, 1, 5, 0, 3, 0] 8), ((base.setFt 1 Reg.FT_BOUND 1).setFt 1 Reg.FT_OWNER_ID 5
     |> fun s => s.setFt 1 Reg.FT_HEARTH 1), _, _, _, adminAt _ _ _ _ _ rfl (by decide +kernel), rfl, ?_, ?_, ?_, rfl, rfl, ?_,
     ?_⟩ <;> decide +kernel⟩

theorem test_witness_DamperAndQuiescence :
    (∃ (q : Fin 4) (rd : AdminRead) (r : AdminReq) (s : State) (v : Nat), AdminAt s 0x0808 q rd r ∧ v = oHalf r 0 ∧ v <
      s.flue.numVfs ∧ v < 512 ∧ s.bound v = true ∧ oByte r 2 = 0 ∧ (s.damper v = dampOpen ∨ s.damper v = dampThrottled ∨
      s.damper v = dampDrained)) ∧
    (∃ (q : Fin 4) (rd : AdminRead) (r : AdminReq) (s : State) (v : Nat), AdminAt s 0x0808 q rd r ∧ v = oHalf r 0 ∧ v <
      s.flue.numVfs ∧ v < 512 ∧ s.bound v = true ∧ oByte r 2 = 0 ∧ s.damper v = dampClosing) ∧
    (∃ (q : Fin 4) (rd : AdminRead) (r : AdminReq) (s : State) (v : Nat), AdminAt s 0x0808 q rd r ∧ v = oHalf r 0 ∧ v <
      s.flue.numVfs ∧ v < 512 ∧ s.bound v = true ∧ oByte r 2 = 1 ∧ (s.damper v = dampOpen ∨ s.damper v = dampThrottled) ∧ 1 ≤
      oHalf r 4 ∧ oHalf r 4 ≤ s.ft v Reg.FT_INFLIGHT_MAX) ∧
    (∃ (q : Fin 4) (rd : AdminRead) (r : AdminReq) (s : State) (v : Nat), AdminAt s 0x0808 q rd r ∧ v = oHalf r 0 ∧ v <
      s.flue.numVfs ∧ v < 512 ∧ s.bound v = true ∧ oByte r 2 = 1 ∧ (s.damper v = dampClosing ∨ s.damper v = dampDrained ∨
      s.damper v = dampResetting) ∧ 1 ≤ oHalf r 4 ∧ oHalf r 4 ≤ s.ft v Reg.FT_INFLIGHT_MAX) ∧
    (∃ (q : Fin 4) (rd : AdminRead) (r : AdminReq) (s : State) (v : Nat), AdminAt s 0x0808 q rd r ∧ v = oHalf r 0 ∧ v <
      s.flue.numVfs ∧ v < 512 ∧ s.bound v = true ∧ oByte r 2 = 2 ∧ (s.damper v = dampOpen ∨ s.damper v = dampThrottled)) ∧
    (∃ (q : Fin 4) (rd : AdminRead) (r : AdminReq) (s : State) (v : Nat), AdminAt s 0x0808 q rd r ∧ v = oHalf r 0 ∧ v <
      s.flue.numVfs ∧ v < 512 ∧ s.bound v = true ∧ oByte r 2 = 2 ∧ (s.damper v = dampClosing ∨ s.damper v = dampDrained)) ∧
    (∃ (q : Fin 4) (rd : AdminRead) (r : AdminReq) (s : State) (v : Nat), AdminAt s 0x0808 q rd r ∧ v = oHalf r 0 ∧ v <
      s.flue.numVfs ∧ v < 512 ∧ s.bound v = true ∧ oByte r 2 = 3 ∧ s.damper v = dampDrained) ∧
    (∃ (q : Fin 4) (rd : AdminRead) (r : AdminReq) (s : State) (v : Nat), AdminAt s 0x0808 q rd r ∧ v = oHalf r 0 ∧ v <
      s.flue.numVfs ∧ v < 512 ∧ s.bound v = true ∧ oByte r 2 = 3 ∧ s.damper v = dampClosing) ∧
    (∃ (q : Fin 4) (rd : AdminRead) (r : AdminReq) (s : State) (v : Nat), AdminAt s 0x0808 q rd r ∧ v = oHalf r 0 ∧ v <
      s.flue.numVfs ∧ v < 512 ∧ s.bound v = true ∧ oByte r 2 = 3 ∧ (s.damper v = dampOpen ∨ s.damper v = dampThrottled)) ∧
    (∃ (q : Fin 4) (rd : AdminRead) (r : AdminReq) (s : State) (v : Nat), AdminAt s 0x0808 q rd r ∧ v = oHalf r 0 ∧ v <
      s.flue.numVfs ∧ v < 512 ∧ s.bound v = true ∧ s.damper v = dampResetting ∧ oByte r 2 = 0) ∧
    (∃ (q : Fin 4) (rd : AdminRead) (r : AdminReq) (s : State) (v : Nat), AdminAt s 0x0808 q rd r ∧ v = oHalf r 0 ∧ v <
      s.flue.numVfs ∧ v < 512 ∧ s.bound v = true ∧ s.damper v = dampResetting ∧ oByte r 2 = 2) ∧
    (∃ (q : Fin 4) (rd : AdminRead) (r : AdminReq) (s : State) (v : Nat), AdminAt s 0x0808 q rd r ∧ v = oHalf r 0 ∧ v <
      s.flue.numVfs ∧ v < 512 ∧ s.bound v = true ∧ s.damper v = dampResetting ∧ oByte r 2 = 3) ∧
    (∃ (op : Nat) (q : Fin 4) (rd : AdminRead) (r : AdminReq) (s : State) (v st : Nat) (c : Instr), (op, c) ∈ [(0x0802,
      Instr.unbindVf q rd), (0x0803, Instr.moveVf q rd), (0x0804, Instr.resetVf q rd)] ∧ AdminAt s op q rd r ∧ v = oHalf r 0 ∧
      ((s.flue.numVfs ≤ v ∨ 512 ≤ v ∨ op = 0x0803 ∧ s.enabled (oByte r 2) = false))) ∧
    (∃ (op : Nat) (q : Fin 4) (rd : AdminRead) (r : AdminReq) (s : State) (v st : Nat) (c : Instr), (op, c) ∈ [(0x0802,
      Instr.unbindVf q rd), (0x0803, Instr.moveVf q rd), (0x0804, Instr.resetVf q rd)] ∧ AdminAt s op q rd r ∧ v = oHalf r 0 ∧ v
      < s.flue.numVfs ∧ v < 512 ∧ (op ≠ 0x0803 ∨ s.enabled (oByte r 2) = true) ∧ (s.bound v = false ∧ st = stNotBound ∨ s.bound
      v = true ∧ s.damper v ≠ dampDrained ∧ st = stNotQuiesced ∨ s.bound v = true ∧ s.damper v = dampDrained ∧ s.ft v
      Reg.FT_TDI_LOCKED = 1 ∧ st = stTdiLocked)) :=
  ⟨by refine ⟨0, (adm 0x0808 [] 8), req base 0 (adm 0x0808 [] 8), base, _, adminAt _ _ _ _ _ rfl (by decide +kernel), rfl, ?_,
     ?_, ?_, ?_, ?_⟩ <;> decide +kernel,
   by refine ⟨0, (adm 0x0808 [] 8), req (dampSt dampClosing) 0 (adm 0x0808 [] 8), (dampSt dampClosing), _, adminAt _ _ _ _ _ rfl
     (by decide +kernel), rfl, ?_, ?_, ?_, ?_, ?_⟩ <;> decide +kernel,
   by refine ⟨0, (adm 0x0808 [0, 0, 1, 0, 16] 8), req base 0 (adm 0x0808 [0, 0, 1, 0, 16] 8), base, _, adminAt _ _ _ _ _ rfl
     (by decide +kernel), rfl, ?_, ?_, ?_, ?_, ?_, ?_, ?_⟩ <;> decide +kernel,
   by refine ⟨0, (adm 0x0808 [0, 0, 1, 0, 1] 8), req (dampSt dampResetting) 0 (adm 0x0808 [0, 0, 1, 0, 1] 8), (dampSt
     dampResetting), _, adminAt _ _ _ _ _ rfl (by decide +kernel), rfl, ?_, ?_, ?_, ?_, ?_, ?_, ?_⟩ <;> decide +kernel,
   by refine ⟨0, (adm 0x0808 [0, 0, 2] 8), req (dampSt dampThrottled) 0 (adm 0x0808 [0, 0, 2] 8), (dampSt dampThrottled), _,
     adminAt _ _ _ _ _ rfl (by decide +kernel), rfl, ?_, ?_, ?_, ?_, ?_⟩ <;> decide +kernel,
   by refine ⟨0, (adm 0x0808 [0, 0, 2] 8), req (dampSt dampDrained) 0 (adm 0x0808 [0, 0, 2] 8), (dampSt dampDrained), _, adminAt
     _ _ _ _ _ rfl (by decide +kernel), rfl, ?_, ?_, ?_, ?_, ?_⟩ <;> decide +kernel,
   by refine ⟨0, (adm 0x0808 [0, 0, 3] 8), req (dampSt dampDrained) 0 (adm 0x0808 [0, 0, 3] 8), (dampSt dampDrained), _, adminAt
     _ _ _ _ _ rfl (by decide +kernel), rfl, ?_, ?_, ?_, ?_, ?_⟩ <;> decide +kernel,
   by refine ⟨0, (adm 0x0808 [0, 0, 3] 8), req (dampSt dampClosing) 0 (adm 0x0808 [0, 0, 3] 8), (dampSt dampClosing), _, adminAt
     _ _ _ _ _ rfl (by decide +kernel), rfl, ?_, ?_, ?_, ?_, ?_⟩ <;> decide +kernel,
   by refine ⟨0, (adm 0x0808 [0, 0, 3] 8), req base 0 (adm 0x0808 [0, 0, 3] 8), base, _, adminAt _ _ _ _ _ rfl
     (by decide +kernel), rfl, ?_, ?_, ?_, ?_, ?_⟩ <;> decide +kernel,
   by refine ⟨0, (adm 0x0808 [] 8), req (dampSt dampResetting) 0 (adm 0x0808 [] 8), (dampSt dampResetting), _, adminAt _ _ _ _ _
     rfl (by decide +kernel), rfl, ?_, ?_, ?_, ?_, ?_⟩ <;> decide +kernel,
   by refine ⟨0, (adm 0x0808 [0, 0, 2] 8), req (dampSt dampResetting) 0 (adm 0x0808 [0, 0, 2] 8), (dampSt dampResetting), _,
     adminAt _ _ _ _ _ rfl (by decide +kernel), rfl, ?_, ?_, ?_, ?_, ?_⟩ <;> decide +kernel,
   by refine ⟨0, (adm 0x0808 [0, 0, 3] 8), req (dampSt dampResetting) 0 (adm 0x0808 [0, 0, 3] 8), (dampSt dampResetting), _,
     adminAt _ _ _ _ _ rfl (by decide +kernel), rfl, ?_, ?_, ?_, ?_, ?_⟩ <;> decide +kernel,
   by refine ⟨0x0802, 0, (adm 0x0802 [0, 2] 2), req base 0 (adm 0x0802 [0, 2] 2), base, 512, stBadDescriptor, .unbindVf 0 (adm
     0x0802 [0, 2] 2), ?_, adminAt _ _ _ _ _ rfl (by decide +kernel), rfl, ?_⟩ <;> decide +kernel,
   by refine ⟨0x0802, 0, (adm 0x0802 [] 2), req base 0 (adm 0x0802 [] 2), base, _, stNotQuiesced, .unbindVf 0 (adm 0x0802 [] 2),
     ?_, adminAt _ _ _ _ _ rfl (by decide +kernel), rfl, ?_, ?_, ?_, ?_⟩ <;> decide +kernel⟩

theorem test_witness_SlotAndOwnershipCommands :
    (∃ (q : Fin 4) (rd : AdminRead) (r : AdminReq) (s : State), AdminAt s 0x0820 q rd r ∧ updateEarly s r.desc r.inp = none ∧
      classOffline s (byteAt r.inp 5) 2 = false ∧ freeUnit s (byteAt r.inp 5) 2 = none ∧ dPtr rd.desc = true ∧ dInLen rd.desc ≠
      0) ∧
    (∃ (q : Fin 4) (rd : AdminRead) (r : AdminReq) (s t : State) (h n : Nat), AdminAt s 0x0820 q rd r ∧ updateWaits s rd = false
      ∧ dGroup r.desc = 0 ∧ h = byteAt r.inp 5 ∧ n = byteAt r.inp 6 ∧ t = updateEngine (adminFrom r s) r.desc r.inp ∧ isolating
      t = false ∧ slotHeld t h n = false) ∧
    (∃ (q : Fin 4) (rd : AdminRead) (r : AdminReq) (s t u : State) (h n g : Nat), AdminAt s 0x0820 q rd r ∧ updateWaits s rd =
      false ∧ g = dGroup r.desc ∧ g ≠ 0 ∧ 6 ≤ dInLen r.desc ∧ h = byteAt r.inp 5 ∧ n = byteAt r.inp 6 ∧ t = updateEngine
      (adminFrom r s) r.desc r.inp ∧ joinGroup h g (.admin r.key) none 2 true t = (u, .joined) ∧ isolating t = false ∧ slotHeld
      u h n = false) ∧
    (∃ (q : Fin 4) (rd : AdminRead) (r : AdminReq) (s t u : State) (h g st : Nat), AdminAt s 0x0820 q rd r ∧ updateWaits s rd =
      false ∧ g = dGroup r.desc ∧ g ≠ 0 ∧ 6 ≤ dInLen r.desc ∧ h = byteAt r.inp 5 ∧ t = updateEngine (adminFrom r s) r.desc r.inp
      ∧ joinGroup h g (.admin r.key) none 2 true t = (u, .refused st) ∧ isolating t = false) ∧
    (∃ (q : Fin 4) (rd : AdminRead) (r : AdminReq) (s : State) (h : Nat) (good : List Bytes), AdminAt s 0x0821 q rd r ∧
      slotTableLen s rd.desc = none ∧ h = pHearth r.desc ∧ s.works h = true ∧ isolating s = false ∧ good = (chunks 96
      r.inp).filter (recordAccepted s h)) ∧
    (∃ (q : Fin 4) (rd : AdminRead) (r : AdminReq) (s t u : State) (c : Bytes), AdminAt s 0x0822 q rd r ∧ (t = (adminFrom r
      s).modFlue (fun x => { x with ceremony := none })) ∧ s.works 0 = true ∧ drbgRequest 0 32 false t = some (c, u)) ∧
    (∃ (q : Fin 4) (rd : AdminRead) (r : AdminReq) (s : State) (c : Ceremony), AdminAt s 0x0823 q rd r ∧ dInLen rd.desc = 1176 ∧
      s.flue.ceremony = some c) ∧
    (∃ (q : Fin 4) (rd : AdminRead) (r : AdminReq) (s t : State) (c : Ceremony) (es : List (Nat × Bytes)) (own : Bytes), AdminAt
      s 0x0824 q rd r ∧ dInLen rd.desc = 0 ∧ 280 + s.variant.hearths * 192 ≤ dOutLen rd.desc ∧ s.flue.ceremony = some c ∧ 2 ≤
      c.accepted.length ∧ ceremonyAllowed s = true ∧ drawEmbers s.hearthList (adminFrom r s) = some (es, own, t)) ∧
    (∃ (q : Fin 4) (rd : AdminRead) (r : AdminReq) (s : State) (c : Ceremony), AdminAt s 0x0824 q rd r ∧ dInLen rd.desc = 0 ∧
      280 + s.variant.hearths * 192 ≤ dOutLen rd.desc ∧ s.flue.ceremony = some c ∧ (c.accepted.length < 2 ∨ ceremonyAllowed s =
      false)) ∧
    (∃ (s : State) (c : Ceremony), s.flue.ceremony = some c ∧ c.started + 600000 ≤ s.now) ∧
    (∃ (s : State) (c : Ceremony), s.flue.ceremony = some c ∧ s.now < c.started + 600000) :=
  ⟨by refine ⟨0, upRd, req upSt 0 upRd, upSt, adminAt _ _ _ _ _ rfl (by decide +kernel), upEarly, upOffline, upUnit, ?_, ?_⟩ <;>
     decide +kernel,
   by refine ⟨0, (admPtr 0x0820 8 0 [] (zeros 8) 0), req base 0 (admPtr 0x0820 8 0 [] (zeros 8) 0), base, _, _, _, adminAt _ _ _
     _ _ rfl (by decide +kernel), ?_, ?_, rfl, rfl, rfl, ?_, ?_⟩ <;> decide +kernel,
   by refine ⟨0, (admPtr 0x0820 8 0 [] (zeros 8) 1), req (grp {} base) 0 (admPtr 0x0820 8 0 [] (zeros 8) 1), (grp {} base), _,
     _, 0, 0, 1, adminAt _ _ _ _ _ rfl (by decide +kernel), ?_, rfl, ?_, by decide +kernel, rfl, rfl, rfl, Prod.ext rfl
     (by decide +kernel), by decide +kernel, ?_⟩ <;> decide +kernel,
   by refine ⟨0, (admPtr 0x0820 8 0 [] (zeros 8) 1), req base 0 (admPtr 0x0820 8 0 [] (zeros 8) 1), base, _, _, 0, 1,
     stGroupUnknown, adminAt _ _ _ _ _ rfl (by decide +kernel), ?_, rfl, ?_, ?_, rfl, rfl, Prod.ext rfl (by decide +kernel), ?_⟩
     <;> decide +kernel,
   by refine ⟨0, (admPtr 0x0821 0 32 [] [] 0), req base 0 (admPtr 0x0821 0 32 [] [] 0), base, _, _, adminAt _ _ _ _ _ rfl
     (by decide +kernel), ?_, rfl, ?_, ?_, rfl⟩ <;> decide +kernel,
   by refine ⟨0, (admPtr 0x0822 792 32 [] (zeros 792) 0), req (drbgOn 0 base) 0 (admPtr 0x0822 792 32 [] (zeros 792) 0), (drbgOn
     0 base), _, _, _, adminAt _ _ _ _ _ rfl (by decide +kernel), rfl, ?_, pairOf (by decide +kernel)⟩ <;> decide +kernel,
   by refine ⟨0, (admPtr 0x0823 1176 0 [] (zeros 1176) 0), req (ceremonySt 0 base) 0 (admPtr 0x0823 1176 0 [] (zeros 1176) 0),
     (ceremonySt 0 base), { request := zeros 792, challenge := zeros 32, started := 0 }, adminAt _ _ _ _ _ rfl
     (by decide +kernel), ?_, ?_⟩ <;> decide +kernel,
   (tripleOf (by decide +kernel)).elim (fun p hp => ⟨0, (admPtr 0x0824 0 4000 [] [] 0), req commitSt 0 (admPtr 0x0824 0 4000 []
     [] 0), commitSt, p.2.2, { request := zeros 792, challenge := zeros 32, started := 0, accepted := [(0, []), (1, [])] }, p.1,
     p.2.1, adminAt _ _ _ _ _ rfl (by decide +kernel), by decide +kernel, by decide +kernel, by decide +kernel,
     by decide +kernel, by decide +kernel, hp⟩),
   by refine ⟨0, (admPtr 0x0824 0 4000 [] [] 0), req (ceremonySt 1 base) 0 (admPtr 0x0824 0 4000 [] [] 0), (ceremonySt 1 base),
     { request := zeros 792, challenge := zeros 32, started := 0, accepted := [(0, [])] }, adminAt _ _ _ _ _ rfl
     (by decide +kernel), ?_, ?_, ?_, ?_⟩ <;> decide +kernel,
   by refine ⟨(ceremonySt 0 base).modVault (fun v => { v with opTime := 600000 }),
     { request := zeros 792, challenge := zeros 32, started := 0 }, ?_, ?_⟩ <;> decide +kernel,
   by refine ⟨(ceremonySt 0 base).modVault (fun v => { v with opTime := 599999 }),
     { request := zeros 792, challenge := zeros 32, started := 0 }, ?_, ?_⟩ <;> decide +kernel⟩

theorem test_witness_HearthStartAndReset :
    (∃ (q : Fin 4) (rd : AdminRead) (r : AdminReq) (s : State) (h : Nat), AdminAt s 0x0810 q rd r ∧ h = pHearth r.desc ∧
      s.enabled h = true ∧ s.live h = true ∧ s.flag (pgF .flueBoot) (Reg.HEARTH_STATE_OUTER h) = false) ∧
    (∃ (q : Fin 4) (rd : AdminRead) (r : AdminReq) (s : State) (h : Nat), AdminAt s 0x0811 q rd r ∧ h = pHearth r.desc ∧
      s.enabled h = true ∧ lcState s ≠ lcBlank ∧ lcState s ≠ lcDecommissioned ∧ (s.hState h = hsReset ∨ s.hState h = hsFailed ∨
      s.hState h = hsOff)) ∧
    (∃ (q : Fin 4) (rd : AdminRead) (r : AdminReq) (s : State) (h : Nat), AdminAt s 0x0811 q rd r ∧ h = pHearth r.desc ∧
      s.enabled h = true ∧ lcState s ≠ lcBlank ∧ lcState s ≠ lcDecommissioned ∧ s.hState h = hsFatal) ∧
    (∃ (h : Fin 16) (s t : State) (img : Bytes), s.hState h = hsStarting ∧ s.up h = true ∧ img = ((s.H h).imageInner.getD (0,
      [])).2 ∧ classUp s h 1 = true ∧ classUp s h 2 = true ∧ checkImage s kindInner h img = none ∧ (∀ u ∈ hobUnits s, settled s
      h u = true) ∧ s.memReady h = true ∧ (s.H h).ent.drbg ≠ .uninstantiated ∧ (lateShadow h s).chim.vault.rngGens.getD (h * 8)
      0 ≠ 0xFFFFFFFF ∧ startRange0 h (lateShadow h s) = some t) ∧
    (∃ (h : Fin 16) (s : State) (img : Bytes) (st : Nat), s.hState h = hsStarting ∧ s.up h = true ∧ img = ((s.H
      h).imageInner.getD (0, [])).2 ∧ classUp s h 1 = true ∧ classUp s h 2 = true ∧ checkImage s kindInner h img = some st) ∧
    (∃ (h : Fin 16) (s : State), s.hState h = hsStarting ∧ s.up h = true ∧ (classDown s h 1 = true ∨ classDown s h 2 = true)) ∧
    (∃ (q : Fin 4) (rd : AdminRead) (r : AdminReq) (s : State) (h : Nat), AdminAt s 0x0812 q rd r ∧ h = oByte r 0 ∧ s.enabled h
      = true ∧ (dParam r.desc % 2 = 1 ∨ (∀ v ∈ s.boundVfs h, s.damper v = dampDrained))) :=
  ⟨by refine ⟨0, (admPtr 0x0810 64 0 [] (zeros 64) 0), req base 0 (admPtr 0x0810 64 0 [] (zeros 64) 0), base, _, adminAt _ _ _ _
     _ rfl (by decide +kernel), rfl, ?_, ?_, ?_⟩ <;> decide +kernel,
   by refine ⟨0, (admPtr 0x0811 64 0 [] (zeros 64) 0), req (base.setHState 0 hsReset) 0 (admPtr 0x0811 64 0 [] (zeros 64) 0),
     (base.setHState 0 hsReset), _, adminAt _ _ _ _ _ rfl (by decide +kernel), rfl, ?_, ?_, ?_, ?_⟩ <;> decide +kernel,
   by refine ⟨0, (admPtr 0x0811 64 0 [] (zeros 64) 0), req (base.setHState 0 hsFatal) 0 (admPtr 0x0811 64 0 [] (zeros 64) 0),
     (base.setHState 0 hsFatal), _, adminAt _ _ _ _ _ rfl (by decide +kernel), rfl, ?_, ?_, ?_, ?_⟩ <;> decide +kernel,
   by refine ⟨0, imgSt, _, _, ?_, ?_, rfl, ?_, by decide +kernel, imgOk, ?_, ?_, ?_, by decide +kernel, someOf
     (by decide +kernel)⟩ <;> decide +kernel,
   by refine ⟨0, startSt, _, _, ?_, ?_, rfl, ?_, ?_, someOf (by decide +kernel)⟩ <;> decide +kernel,
   by refine ⟨0, allOffline startSt, ?_, ?_, ?_⟩ <;> decide +kernel,
   by refine ⟨0, (adm 0x0812 [0] 1 0 1), req base 0 (adm 0x0812 [0] 1 0 1), base, _, adminAt _ _ _ _ _ rfl (by decide +kernel),
     rfl, ?_, ?_⟩ <;> decide +kernel⟩

theorem test_witness_LifecycleFusesAndDumps :
    (∃ (q : Fin 4) (rd : AdminRead) (r : AdminReq) (s : State), AdminAt s 0x0850 q rd r ∧ dInLen rd.desc = 2368 ∧
      s.chim.quenching = false) ∧
    (∃ (q : Fin 4) (rd : AdminRead) (r : AdminReq) (s : State) (n : Nat), AdminAt s 0x0850 q rd r ∧ dInLen rd.desc = 2368 ∧
      s.chim.quenching = false) ∧
    (∃ (q : Fin 4) (rd : AdminRead) (r : AdminReq) (s : State) (v : Nat), AdminAt s 0x0851 q rd r ∧ (lcState s = lcVendorTest ∨
      lcState s = lcProvisioned) ∧ hotterThan s 340 = false ∧ v = fieldLe (dOperands r.desc) 4 4 ∧ oByte r 0 = 1 ∧ v < 2 ^ 10) ∧
    (∃ (q : Fin 4) (rd : AdminRead) (r : AdminReq) (s : State) (v : Nat), AdminAt s 0x0851 q rd r ∧ (lcState s = lcVendorTest ∨
      lcState s = lcProvisioned) ∧ hotterThan s 340 = false ∧ v = fieldLe (dOperands r.desc) 4 4 ∧ oByte r 0 = 2 ∧
      s.variant.hearths ≠ 0 ∧ v < 2 ^ s.variant.hearths) ∧
    (∃ (q : Fin 4) (rd : AdminRead) (r : AdminReq) (s : State) (k v : Nat), AdminAt s 0x0852 q rd r ∧ k = oByte r 0 + 1 ∧ v =
      oByte r 1 ∧ k ≤ 3 ∧ arbValue s.chim.fuses k < v ∧ v ≤ 128 ∧ runningSvns s k ≠ [] ∧ (∀ x ∈ runningSvns s k, v ≤ x)) ∧
    (∃ (h : Fin 16) (s : State) (b : Nat) (root : Bytes), (s.H h).fatal.isSome = true ∧ (s.H h).dump.handler = true ∧ s.up h =
      true ∧ (s.H h).dump.base = some b ∧ hearthRoot (s.H h) = some root ∧ s.memReady h = true ∧ isolating s = false) ∧
    (∃ (h : Fin 16) (s : State) (b : Nat) (root : Bytes), (s.H h).fatal.isSome = true ∧ (s.H h).dump.handler = true ∧ s.up h =
      true ∧ (s.H h).dump.base = some b ∧ hearthRoot (s.H h) = some root ∧ s.memReady h = true ∧ isolating s = true) ∧
    (∃ (h : Fin 16) (s : State), (s.H h).fatal.isSome = true ∧ (s.H h).dump.handler = true ∧ s.up h = true ∧ (s.H h).dump.base =
      none) ∧
    (∃ (q : Fin 4) (rd : AdminRead) (r : AdminReq) (s : State) (h : Nat) (root k : Bytes), AdminAt s 0x0840 q rd r ∧ dInLen
      rd.desc = 0 ∧ h = pHearth r.desc ∧ openCheck s h (dOutLen r.desc) = .ok root ∧ k = dumpKeyOf root h) ∧
    (∃ (q : Fin 4) (rd : AdminRead) (r : AdminReq) (s : State) (h st : Nat), AdminAt s 0x0840 q rd r ∧ dInLen rd.desc = 0 ∧ h =
      pHearth r.desc ∧ openCheck s h (dOutLen r.desc) = .error st) ∧
    (∃ (q : Fin 4) (rd : AdminRead) (r : AdminReq) (s : State) (h b : Nat), AdminAt s 0x0841 q rd r ∧ h = oByte r 0 ∧ s.enabled
      h = true ∧ (s.H h).dump.handler = false ∧ (s.H h).dump.base = some b) ∧
    (∃ (q : Fin 4) (rd : AdminRead) (r : AdminReq) (s : State) (k : Bytes), AdminAt s 0x0830 q rd r ∧ dInLen rd.desc = 0 ∧
      (tamperLogBody s).length + 16 ≤ dOutLen r.desc ∧ vaultRecordKey s = some k) ∧
    (∃ (q : Fin 4) (rd : AdminRead) (r : AdminReq) (s : State), AdminAt s 0x0830 q rd r ∧ dInLen rd.desc = 0 ∧ (tamperLogBody
      s).length + 16 ≤ dOutLen r.desc ∧ vaultRecordKey s = none) :=
  ⟨by refine ⟨0, (admPtr 0x0850 2368 0 [] (zeros 2368) 0), req base 0 (admPtr 0x0850 2368 0 [] (zeros 2368) 0), base, adminAt _
     _ _ _ _ rfl (by decide +kernel), ?_, ?_⟩ <;> decide +kernel,
   by refine ⟨0, (admPtr 0x0850 2368 0 [] (zeros 2368) 0), req base 0 (admPtr 0x0850 2368 0 [] (zeros 2368) 0), base, 0, adminAt
     _ _ _ _ _ rfl (by decide +kernel), ?_, ?_⟩ <;> decide +kernel,
   by refine ⟨0, (adm 0x0851 [1, 0, 0, 0, 0xFF, 3, 0, 0] 8), req base 0 (adm 0x0851 [1, 0, 0, 0, 0xFF, 3, 0, 0] 8), base, _,
     adminAt _ _ _ _ _ rfl (by decide +kernel), ?_, ?_, rfl, ?_, ?_⟩ <;> decide +kernel,
   by refine ⟨0, (adm 0x0851 [2, 0, 0, 0, 0xFF, 0xFF, 0, 0] 8), req base 0 (adm 0x0851 [2, 0, 0, 0, 0xFF, 0xFF, 0, 0] 8), base,
     _, adminAt _ _ _ _ _ rfl (by decide +kernel), ?_, ?_, rfl, ?_, ?_, ?_⟩ <;> decide +kernel,
   by refine ⟨0, (adm 0x0852 [0, 5] 2), req (base.wr bootPage Reg.BOOT_SVN_FLUE 5) 0 (adm 0x0852 [0, 5] 2), (base.wr bootPage
     Reg.BOOT_SVN_FLUE 5), _, _, adminAt _ _ _ _ _ rfl (by decide +kernel), rfl, rfl, ?_, ?_, ?_, ?_, ?_⟩ <;> decide +kernel,
   by refine ⟨0, dumpSt (fun x => { x with fatal := some 1, dump := { x.dump with handler := true } }), 0x1000, [], ?_, ?_, ?_,
     ?_, ?_, ?_, ?_⟩ <;> decide +kernel,
   by refine ⟨0, (dumpSt (fun x => { x with fatal := some 1, dump := { base := some 0x1000, handler := true } })).modVault (fun
     v => { v with level := 2 }), 0x1000, _, ?_, ?_, ?_, ?_, someOf (by decide +kernel), ?_, ?_⟩ <;> decide +kernel,
   by refine ⟨0, dumpSt (fun x => { x with fatal := some 1, dump := { handler := true } }), ?_, ?_, ?_, ?_⟩ <;> decide +kernel,
   by refine ⟨0, (admPtr 0x0840 0 0xB7000 [] [] 0), req (dumpSt (fun x => { x with mem := { ddr := dumpHead } })) 0 (admPtr
     0x0840 0 0xB7000 [] [] 0), (dumpSt (fun x => { x with mem := { ddr := dumpHead } })), _, _, _, adminAt _ _ _ _ _ rfl
     (by decide +kernel), ?_, rfl, okOf (by decide +kernel), rfl⟩ <;> decide +kernel,
   by refine ⟨0, (admPtr 0x0840 0 0xB7000 [] [] 0), req base 0 (admPtr 0x0840 0 0xB7000 [] [] 0), base, _, _, adminAt _ _ _ _ _
     rfl (by decide +kernel), ?_, rfl, errOf (by decide +kernel)⟩ <;> decide +kernel,
   by refine ⟨0, (adm 0x0841 [0] 1), req (dumpSt id) 0 (adm 0x0841 [0] 1), (dumpSt id), _, 0x1000, adminAt _ _ _ _ _ rfl
     (by decide +kernel), rfl, ?_, ?_, ?_⟩ <;> decide +kernel,
   by refine ⟨0, (admPtr 0x0830 0 1000 [] [] 0), req (base.modVault (fun v => { v with valid := true })) 0 (admPtr 0x0830 0 1000
     [] [] 0), (base.modVault (fun v => { v with valid := true })), _, adminAt _ _ _ _ _ rfl (by decide +kernel), ?_, ?_, someOf
     (by decide +kernel)⟩ <;> decide +kernel,
   by refine ⟨0, (admPtr 0x0830 0 80 [] [] 0), req base 0 (admPtr 0x0830 0 80 [] [] 0), base, adminAt _ _ _ _ _ rfl
     (by decide +kernel), ?_, ?_, ?_⟩ <;> decide +kernel⟩

theorem test_witness_LinkAndFunctionResets :
    (∃ (v : Fin 512) (s : State), s.vfExists v = true ∧ s.bound v = true ∧ s.damper v ≠ dampResetting ∧ groupsOf s (s.ft v
      Reg.FT_HEARTH) (some v.val) = [] ∧ (∀ p ∈ (s.H (s.ft v Reg.FT_HEARTH)).jobs, p.2.vf ≠ v.val) ∧ s.up (s.ft v Reg.FT_HEARTH)
      = false ∧ s.regs.sorted = true) ∧
    (∃ (v : Fin 512) (s : State), s.vfExists v = true ∧ s.damper v = dampResetting) ∧
    (∃ (v : Fin 512) (s : State) (mine : List (Nat × Job)), s.damper v = dampResetting ∧ (mine = (s.H (s.ft v
      Reg.FT_HEARTH)).jobs.filter (fun p => p.2.vf == v.val)) ∧ (∀ p ∈ mine, p.2.state ≠ .held ∧ (p.2.state = .running → ∀ u ∈
      p.2.units, isBurner u = false))) ∧
    (∃ (rate width : Fin 4) (flit : Bool) (s : State), s.regs.sorted = true ∧ flueListens s = true ∧ s.chim.perst = false ∧
      rate.val ≠ 3 ∧ width.val < 2 ∧ ((rate.val = 2 → flit = true))) ∧
    (∃ (rate width : Fin 4) (flit : Bool) (s : State), flueListens s = true ∧ s.chim.perst = false ∧ (rate.val = 3 ∨ 2 ≤
      width.val ∨ rate.val = 2 ∧ flit = false)) ∧
    (∃ (s : State), flueListens s = true ∧ s.chim.perst = false) ∧
    (∃ (b : Bool) (s : State), flueListens s = true) ∧
    (∃ (k : Fin 3) (s : State), s.regs.sorted = true ∧ s.flag linkPage Reg.LINK_STATUS_UP = true) ∧
    (∃ (s : State), s.regs.sorted = true) :=
  ⟨by refine ⟨0, base.setHState 0 hsOff, ?_, ?_, ?_, ?_, ?_, ?_, ?_⟩ <;> decide +kernel,
   by refine ⟨0, dampSt dampResetting, ?_, ?_⟩ <;> decide +kernel,
   by refine ⟨0, dampSt dampResetting, _, ?_, rfl, ?_⟩ <;> decide +kernel,
   by refine ⟨2, 1, true, base, ?_, ?_, ?_, ?_, ?_, ?_⟩ <;> decide +kernel,
   by refine ⟨3, 0, true, base, ?_, ?_, ?_⟩ <;> decide +kernel,
   by refine ⟨base, ?_, ?_⟩ <;> decide +kernel,
   by refine ⟨true, base, ?_⟩ <;> decide +kernel,
   by refine ⟨0, base.wr linkPage Reg.LINK_STATUS_UP 1, ?_, ?_⟩ <;> decide +kernel,
   by refine ⟨base, ?_⟩ <;> decide +kernel⟩

theorem test_witness_FlueBootAndRestart :
    (∃ (b : Bytes) (s : State), flueListens s = true ∧ (s.bootState = stRomWait ∨ s.bootState = stRejected)) ∧
    (∃ (i : Dma) (s : State), flueListens s = true ∧ s.bootState ≠ stRomWait ∧ s.bootState ≠ stRejected) ∧
    (∃ (s : State), flueListens s = true ∧ s.bootState = stLoading ∧ s.flue.bootErr = false) ∧
    (∃ (s : State), flueListens s = true ∧ s.bootState = stLoading ∧ s.flue.bootErr = true) ∧
    (∃ (s : State), flueListens s = true ∧ s.flueUp = true) ∧
    (∃ (who : Requester) (i : Dma) (fusing : Bool) (s : State), flueListens s = true ∧ s.flueUp = true ∧ who ≠ .pf0) :=
  ⟨by refine ⟨[], base.wr bootPage Reg.BOOT_STATUS_STATE stRejected, ?_, ?_⟩ <;> decide +kernel,
   by refine ⟨.error, base, ?_, ?_, ?_⟩ <;> decide +kernel,
   by refine ⟨base.wr bootPage Reg.BOOT_STATUS_STATE stLoading, ?_, ?_, ?_⟩ <;> decide +kernel,
   by refine ⟨(base.wr bootPage Reg.BOOT_STATUS_STATE stLoading).modFlue (fun f => { f with bootErr := true }), ?_, ?_, ?_⟩ <;>
     decide +kernel,
   by refine ⟨base, ?_, ?_⟩ <;> decide +kernel,
   by refine ⟨.pf1, .error, false, base, ?_, ?_, ?_⟩ <;> decide +kernel⟩

theorem test_witness_IdeAndTdisp :
    (∃ (i : Fin 8) (rid : Fin 514) (m : Bytes) (s : State) (x : Session), s.flueUp = true ∧ s.session? i = some x ∧ x.phase = 1
      ∧ byteAt m 0 = 0) ∧
    (∃ (i : Fin 8) (rid : Fin 514) (m : Bytes) (s : State) (x : Session), s.flueUp = true ∧ s.session? i = some x ∧ x.phase = 1
      ∧ byteAt m 0 = 2) ∧
    (∃ (i : Fin 8) (rid : Fin 514) (m : Bytes) (s : State) (x : Session), s.flueUp = true ∧ s.session? i = some x ∧ x.phase = 1
      ∧ (byteAt m 0 = 4 ∨ byteAt m 0 = 5) ∧ keyStatus s rid m = 0) ∧
    (∃ (i : Nat) (m : Bytes) (s : State) (x : Session), s.session? i = some x) ∧
    (∃ (rid : Nat) (m : Bytes) (s : State) (k : _), m.length = 47 ∧ keyStatus s rid m = 0 ∧ k ≠ byteAt m 3) ∧
    (∃ (n : Fin 65) (s : State) (x : IdeStream), s.flueUp = true ∧ s.flue.ide.find? n.val = some x ∧ x.secure = true ∧ n.val ≠
      0) ∧
    (∃ (n : Fin 65) (s : State) (x : IdeStream), s.flueUp = true ∧ s.flue.ide.find? n.val = some x ∧ (x.secure = false ∨ n.val =
      0)) ∧
    (∃ (i : Fin 8) (v : Fin 512) (s : State) (x : Session) (m : Bytes), s.flueUp = true ∧ s.session? i = some x ∧ x.phase = 1 ∧
      s.vfExists v = true ∧ m.length = 20 ∧ (s.vf v).tdi = .unlocked ∧ s.bound v = true ∧ s.damper v ≠ dampResetting ∧
      onSecureStream s v = true) ∧
    (∃ (i : Fin 8) (v : Fin 512) (s : State) (x : Session) (m : Bytes), s.flueUp = true ∧ s.session? i = some x ∧ x.phase = 1 ∧
      s.vfExists v = true ∧ m.length = 20 ∧ (s.vf v).tdi = .unlocked ∧ s.bound v = true ∧ s.damper v = dampResetting) ∧
    (∃ (i : Fin 8) (v : Fin 512) (s : State) (x : Session) (m : Bytes), s.flueUp = true ∧ s.session? i = some x ∧ x.phase = 1 ∧
      s.vfExists v = true ∧ m.length = 20 ∧ (s.vf v).tdi = .unlocked ∧ (s.bound v = false ∨ s.damper v ≠ dampResetting ∧
      onSecureStream s v = false)) ∧
    (∃ (i : Fin 8) (v : Fin 512) (s : State) (x : Session) (m : Bytes), s.flueUp = true ∧ s.session? i = some x ∧ x.phase = 1 ∧
      s.vfExists v = true ∧ m.length = 20 ∧ (s.vf v).tdi ≠ .unlocked) ∧
    (∃ (i : Fin 8) (v : Fin 512) (s : State) (x : Session) (nonce : Bytes), s.flueUp = true ∧ s.session? i = some x ∧ x.phase =
      1 ∧ s.vfExists v = true ∧ (s.vf v).tdi = .locked ∧ nonce = (s.vf v).tdiNonce) ∧
    (∃ (i : Fin 8) (v : Fin 512) (s : State) (x : Session) (nonce : Bytes), s.flueUp = true ∧ s.session? i = some x ∧ x.phase =
      1 ∧ s.vfExists v = true ∧ (s.vf v).tdi ≠ .locked) ∧
    (∃ (i : Fin 8) (v : Fin 512) (s : State) (x : Session) (off len : BitVec 16), s.flueUp = true ∧ s.session? i = some x ∧
      x.phase = 1 ∧ s.vfExists v = true ∧ ((s.vf v).tdi = .locked ∨ (s.vf v).tdi = .run) ∧ off.toNat < (interfaceReport s
      v).length) ∧
    (∃ (v : Fin 512) (s : State) (t : TdiState) (nonce : Bytes), s.regs.sorted = true) :=
  ⟨by refine ⟨0, 0, [0], ssnSt (ssn 1) base, ssn 1, ?_, ?_, ?_, ?_⟩ <;> decide +kernel,
   by refine ⟨0, 513, [2] ++ zeros 46, ssnSt (ssn 1) base, ssn 1, ?_, ?_, ?_, ?_⟩ <;> decide +kernel,
   by refine ⟨7, 0, [4], base.modFlue (fun f => { f with spdm := { sessions := [(7, ssn 1)] } }), ssn 1, ?_, ?_, ?_, ?_, ?_⟩ <;>
     decide +kernel,
   by refine ⟨0, zeros 20, ssnSt (ssn 1) base, ssn 1, ?_⟩ <;> decide +kernel,
   by refine ⟨0, [2, 0, 0, 64] ++ zeros 43, base, 0, ?_, ?_, ?_⟩ <;> decide +kernel,
   by refine ⟨1, ideSt base, { rid := 2, secure := true }, ?_, ?_, ?_, ?_⟩ <;> decide +kernel,
   by refine ⟨0, base.modFlue (fun f => { f with ide := [(0, { secure := true })] }), { secure := true }, ?_, ?_, ?_⟩ <;>
     decide +kernel,
   by refine ⟨0, 0, tdiSt .unlocked, ssn 1, zeros 20, ?_, ?_, ?_, ?_, ?_, ?_, ?_, ?_, ?_⟩ <;> decide +kernel,
   by refine ⟨0, 0, (tdiSt .unlocked).setDamper 0 dampResetting, ssn 1, zeros 20, ?_, ?_, ?_, ?_, ?_, ?_, ?_, ?_⟩ <;>
     decide +kernel,
   by refine ⟨0, 511, tdiSt .unlocked, ssn 1, zeros 20, ?_, ?_, ?_, ?_, ?_, ?_, ?_⟩ <;> decide +kernel,
   by refine ⟨0, 0, tdiSt .run, ssn 1, zeros 20, ?_, ?_, ?_, ?_, ?_, ?_⟩ <;> decide +kernel,
   by refine ⟨0, 0, tdiSt .locked, ssn 1, _, ?_, ?_, ?_, ?_, ?_, rfl⟩ <;> decide +kernel,
   by refine ⟨0, 0, tdiSt .error, ssn 1, [], ?_, ?_, ?_, ?_, ?_⟩ <;> decide +kernel,
   by refine ⟨0, 0, tdiSt .run, ssn 1, 0, 0xFFFF, ?_, ?_, ?_, ?_, ?_, ?_⟩ <;> decide +kernel,
   by refine ⟨511, base, .locked, zeros 32, ?_⟩ <;> decide +kernel⟩

theorem test_witness_SpdmMessages :
    (∃ (m : Bytes) (s : State), s.flueUp = true ∧ byteAt m 0 = 0x10 ∧ byteAt m 1 = 0x84 ∧ 4 ≤ m.length) ∧
    (∃ (m : Bytes) (s : State), s.flueUp = true ∧ byteAt m 0 = 0x13 ∧ byteAt m 1 = 0xE1 ∧ 20 ≤ m.length ∧
      s.flue.spdm.versionDone = true ∧ s.flue.spdm.capsDone = false) ∧
    (∃ (m : Bytes) (s : State), s.flueUp = true ∧ byteAt m 0 = 0x13 ∧ byteAt m 1 = 0xE3 ∧ 32 ≤ m.length ∧ s.flue.spdm.capsDone =
      true ∧ s.flue.spdm.algsDone = false ∧ (fieldLe m 8 4).testBit 5 = true ∧ (fieldLe m 12 4).testBit 2 = true) ∧
    (∃ (m : Bytes) (s : State), s.flueUp = true ∧ byteAt m 0 = 0x13 ∧ byteAt m 1 = 0xE3 ∧ 32 ≤ m.length ∧ s.flue.spdm.capsDone =
      true ∧ s.flue.spdm.algsDone = false ∧ (fieldLe m 8 4).testBit 5 = false ∧ (fieldLe m 8 4).testBit 7 = true ∧ (fieldLe m 12
      4).testBit 1 = true) ∧
    (∃ (m : Bytes) (s : State), s.flueUp = true ∧ byteAt m 0 = 0x13 ∧ byteAt m 1 = 0x81 ∧ 4 ≤ m.length ∧ s.flue.spdm.algsDone =
      true) ∧
    (∃ (m : Bytes) (s : State) (slot n : Nat), s.flueUp = true ∧ byteAt m 0 = 0x13 ∧ byteAt m 1 = 0x82 ∧ 8 ≤ m.length ∧
      s.flue.spdm.algsDone = true ∧ slot = byteAt m 2 % 16 ∧ slot ≤ 1 ∧ lcState s ≠ lcDecommissioned ∧ pairReady s slot = true ∧
      byteAt m 3 % 2 = 0 ∧ n = min (fieldLe m 6 2) ((Config.certChain slot).length - fieldLe m 4 2)) ∧
    (∃ (m : Bytes) (s : State) (slot : Nat), s.flueUp = true ∧ byteAt m 0 = 0x13 ∧ byteAt m 1 = 0x82 ∧ 8 ≤ m.length ∧
      s.flue.spdm.algsDone = true ∧ slot = byteAt m 2 % 16 ∧ slot ≤ 1 ∧ lcState s ≠ lcDecommissioned ∧ pairReady s slot = false) ∧
    (∃ (m : Bytes) (s : State) (slot : Nat), s.flueUp = true ∧ byteAt m 0 = 0x13 ∧ byteAt m 1 = 0x83 ∧ 44 ≤ m.length ∧
      s.flue.spdm.algsDone = true ∧ slot = byteAt m 2 ∧ slot = signSlot s ∧ (byteAt m 3 = 0 ∨ byteAt m 3 = 1 ∨ byteAt m 3 =
      0xFF) ∧ lcState s ≠ lcDecommissioned ∧ pairReady s slot = true) ∧
    (∃ (m : Bytes) (s : State) (op : Nat), s.flueUp = true ∧ byteAt m 0 = 0x13 ∧ byteAt m 1 = 0xE0 ∧ 12 ≤ m.length ∧
      s.flue.spdm.algsDone = true ∧ byteAt m 2 % 2 = 0 ∧ op = byteAt m 3 ∧ op ≠ 0xFF ∧ op ∈ measIndexes s) ∧
    (∃ (m : Bytes) (s : State) (i : Nat), s.flueUp = true ∧ byteAt m 0 = 0x13 ∧ byteAt m 1 = 0xE4 ∧ 138 ≤ m.length ∧
      s.flue.spdm.algsDone = true ∧ byteAt m 3 = signSlot s ∧ pairReady s (byteAt m 3) = true ∧ p384.on (pointOf p384 (slice m
      40 96)) = true ∧ (byteAt m 2 = 0 ∨ byteAt m 2 = 1 ∨ byteAt m 2 = 0xFF) ∧ s.flue.spdm.sessions.lowestFree 0 8 = some i) ∧
    (∃ (m : Bytes) (s : State), s.flueUp = true ∧ byteAt m 0 = 0x13 ∧ byteAt m 1 = 0xE4 ∧ 138 ≤ m.length ∧ s.flue.spdm.algsDone
      = true ∧ byteAt m 3 = signSlot s ∧ pairReady s (byteAt m 3) = true ∧ p384.on (pointOf p384 (slice m 40 96)) = true ∧
      (byteAt m 2 = 0 ∨ byteAt m 2 = 1 ∨ byteAt m 2 = 0xFF) ∧ s.flue.spdm.sessions.lowestFree 0 8 = none) ∧
    (∃ (i : Fin 8) (m : Bytes) (s : State) (x : Session), s.flueUp = true ∧ s.session? i = some x ∧ x.phase = 0 ∧ byteAt m 0 =
      0x13 ∧ byteAt m 1 = 0xE5 ∧ 4 + spdmHashLen s ≤ m.length ∧ slice m 4 (spdmHashLen s) = spdmMac s (finishedKey s x.keysRx)
      (spdmHash s (x.trans ++ m.take 4))) ∧
    (∃ (i : Fin 8) (m : Bytes) (s : State) (x : Session), s.flueUp = true ∧ s.session? i = some x ∧ x.phase = 0 ∧ byteAt m 0 =
      0x13 ∧ byteAt m 1 = 0xE5 ∧ 4 + spdmHashLen s ≤ m.length ∧ slice m 4 (spdmHashLen s) ≠ spdmMac s (finishedKey s x.keysRx)
      (spdmHash s (x.trans ++ m.take 4))) ∧
    (∃ (i : Fin 8) (m : Bytes) (s : State) (x : Session), s.flueUp = true ∧ s.session? i = some x ∧ x.phase = 1 ∧ byteAt m 0 =
      0x13 ∧ 4 ≤ m.length ∧ byteAt m 1 = 0xE8) ∧
    (∃ (i : Fin 8) (m : Bytes) (s : State) (x : Session), s.flueUp = true ∧ s.session? i = some x ∧ x.phase = 1 ∧ byteAt m 0 =
      0x13 ∧ 4 ≤ m.length ∧ byteAt m 1 = 0xEC) ∧
    (∃ (i : Fin 8) (m : Bytes) (s : State) (x : Session), s.flueUp = true ∧ s.session? i = some x ∧ x.phase = 1 ∧ byteAt m 0 =
      0x13 ∧ 4 ≤ m.length ∧ byteAt m 1 = 0xE9 ∧ byteAt m 2 = 1 ∧ x.pendRx = [] ∧ x.pendTx = []) ∧
    (∃ (i : Fin 8) (m : Bytes) (s : State) (x : Session), s.flueUp = true ∧ s.session? i = some x ∧ x.phase = 1 ∧ byteAt m 0 =
      0x13 ∧ 4 ≤ m.length ∧ byteAt m 1 = 0xE9 ∧ byteAt m 2 = 2 ∧ x.pendRx = [] ∧ x.pendTx = []) ∧
    (∃ (i : Fin 8) (m : Bytes) (s : State) (x : Session), s.flueUp = true ∧ s.session? i = some x ∧ x.phase = 1 ∧ byteAt m 0 =
      0x13 ∧ 4 ≤ m.length ∧ byteAt m 1 = 0xE9 ∧ byteAt m 2 = 3 ∧ (x.pendRx ≠ [] ∨ x.pendTx ≠ [])) :=
  ⟨by refine ⟨[0x10, 0x84, 0, 0], base, ?_, ?_, ?_, ?_⟩ <;> decide +kernel,
   by refine ⟨[0x13, 0xE1] ++ zeros 18, base.modFlue (fun f => { f with spdm := { versionDone := true } }), ?_, ?_, ?_, ?_, ?_,
     ?_⟩ <;> decide +kernel,
   by refine ⟨[0x13, 0xE3] ++ zeros 6 ++ [0x20, 0, 0, 0, 4, 0, 0, 0] ++ zeros 16, base.modFlue (fun f =>
     { f with spdm := { capsDone := true } }), ?_, ?_, ?_, ?_, ?_, ?_, ?_, ?_⟩ <;> decide +kernel,
   by refine ⟨[0x13, 0xE3] ++ zeros 6 ++ [0x80, 0, 0, 0, 2, 0, 0, 0] ++ zeros 16, base.modFlue (fun f =>
     { f with spdm := { capsDone := true } }), ?_, ?_, ?_, ?_, ?_, ?_, ?_, ?_, ?_⟩ <;> decide +kernel,
   by refine ⟨[0x13, 0x81, 0, 0], spdmSt, ?_, ?_, ?_, ?_, ?_⟩ <;> decide +kernel,
   by refine ⟨[0x13, 0x82, 1, 0, 0, 0, 0xFF, 0xFF], spdmSt, _, _, ?_, ?_, ?_, ?_, by decide +kernel, rfl, ?_, ?_, ?_,
     by decide +kernel, rfl⟩ <;> decide +kernel,
   by refine ⟨[0x13, 0x82, 0, 0, 0, 0, 0xFF, 0xFF], spdmSt, _, ?_, ?_, ?_, ?_, ?_, rfl, ?_, ?_, ?_⟩ <;> decide +kernel,
   by refine ⟨[0x13, 0x83, 1, 0xFF] ++ zeros 40, spdmSt, _, ?_, ?_, ?_, ?_, by decide +kernel, rfl, rfl, ?_, ?_,
     by decide +kernel⟩ <;> decide +kernel,
   by refine ⟨[0x13, 0xE0, 0, 0x2F] ++ zeros 8, spdmSt, _, ?_, ?_, ?_, ?_, ?_, ?_, rfl, ?_, ?_⟩ <;> decide +kernel,
   by refine ⟨[0x13, 0xE4, 0, 1] ++ zeros 36 ++ p384G ++ zeros 4, spdmSt, 0, ?_, ?_, ?_, ?_, by decide +kernel, ?_, ?_, ?_, ?_,
     by decide +kernel⟩ <;> decide +kernel,
   by refine ⟨[0x13, 0xE4, 0, 1] ++ zeros 36 ++ p384G ++ zeros 4, spdmSt.modFlue (fun f =>
     { f with spdm := { f.spdm with sessions := fullSessions } }), ?_, ?_, ?_, ?_, by decide +kernel, ?_, ?_, ?_, ?_,
     by decide +kernel⟩ <;> decide +kernel,
   by refine ⟨0, finMsg, ssnSt (ssn 0) base, ssn 0, ?_, ?_, ?_, ?_, ?_, ?_, finMsg_mac⟩ <;> decide +kernel,
   by refine ⟨0, [0x13, 0xE5, 0, 0] ++ zeros 64, ssnSt (ssn 0) base, ssn 0, ?_, ?_, ?_, ?_, ?_, ?_, ?_⟩ <;> decide +kernel,
   by refine ⟨0, [0x13, 0xE8, 0, 0], ssnSt (ssn 1) base, ssn 1, ?_, ?_, ?_, ?_, ?_, ?_⟩ <;> decide +kernel,
   by refine ⟨0, [0x13, 0xEC, 0, 0], ssnSt (ssn 1) base, ssn 1, ?_, ?_, ?_, ?_, ?_, ?_⟩ <;> decide +kernel,
   by refine ⟨0, [0x13, 0xE9, 1, 0], ssnSt (ssn 1) base, ssn 1, ?_, ?_, ?_, ?_, ?_, ?_, ?_, ?_, ?_⟩ <;> decide +kernel,
   by refine ⟨0, [0x13, 0xE9, 2, 0], ssnSt (ssn 1) base, ssn 1, ?_, ?_, ?_, ?_, ?_, ?_, ?_, ?_, ?_⟩ <;> decide +kernel,
   by refine ⟨0, [0x13, 0xE9, 3, 0], ssnSt { phase := 1, pendTx := zeros 64 } base, { phase := 1, pendTx := zeros 64 }, ?_, ?_,
     ?_, ?_, ?_, ?_, ?_, ?_⟩ <;> decide +kernel⟩

theorem test_witness_BankingKeepsKeys :
    (∃ (x : Shared) (r : Bytes), x.s.length = 64 ∧ x.m.length = 64 ∧ r.length = 64) ∧
    (∃ (s : State), bankDue s = true ∧ s.chim.vault.intact = true ∧ s.chim.main = false ∧ s.chim.vault.embers.sorted = true) ∧
    (∃ (s t : State) (dry : Bool), bankDue s = true ∧ s.chim.vault.intact = true ∧ s.chim.main = true ∧ bankEmbers true s = (t,
      dry)) ∧
    (∃ (s : State), (bankDue s = false ∨ s.chim.vault.intact = false)) ∧
    (∃ (h : Nat) (s : State) (i : Nat) (e : KeyEntry), (s.H h).cache.sorted = true ∧ (s.H h).cache.find? i = some e ∧
      e.shareA.length = e.shareB.length) :=
  ⟨by refine ⟨{ s := zeros 64, m := zeros 64 }, zeros 64, ?_, ?_, ?_⟩ <;> decide +kernel,
   by refine ⟨(base.modChim (fun c => { c with main := false })).modVault (fun v =>
     { v with sinceBank := 2 ^ 40, embers := [(0, {})] }), ?_, ?_, ?_, ?_⟩ <;> decide +kernel,
   by refine ⟨base.modVault (fun v => { v with sinceBank := 2 ^ 40 }), _, _, ?_, ?_, ?_, Prod.ext rfl rfl⟩ <;> decide +kernel,
   by refine ⟨base, ?_⟩ <;> decide +kernel,
   by refine ⟨0, base.modH 0 (fun x => { x with cache := [(8191, { shareA := zeros 32, shareB := zeros 32 })] }), 8191,
     { shareA := zeros 32, shareB := zeros 32 }, ?_, ?_, ?_⟩ <;> decide +kernel⟩

theorem test_witness_VaultAndKeyCacheCommands :
    (∃ (d : Word) (s : State), s.flueUp = true ∧ s.flag vaultPage Reg.PAGE_CTRL_LOCK = false) ∧
    (∃ (who : Requester) (d : Word) (s : State), s.flueUp = true ∧ who ≠ .pf0) ∧
    (∃ (d : Word) (s : State), s.flueUp = true ∧ s.flag vaultPage Reg.PAGE_CTRL_LOCK = true) ∧
    (∃ (h : Fin 16) (s : State), (s.H h).reloading = true ∧ isolating s = false ∧ (s.H h).needStart = false) ∧
    (∃ (h : Fin 16) (s : State), (s.H h).reloading = true ∧ isolating s = false ∧ (s.H h).needStart = true) ∧
    (∃ (h : Fin 16) (s t : State), s.up h = true ∧ (s.H h).bankWait = true ∧ cacheMgReady h s = some t ∧ (s.H h).bankDeferred =
      true) ∧
    (∃ (h : Fin 16) (s : State), s.up h = true ∧ (s.H h).bankWait = true ∧ cacheMgReady h s = none) ∧
    (∃ (h : Nat) (s t : State) (b : Bytes), drbgRequest h 48 false s = some (b, t)) ∧
    (∃ (h : Fin 16) (who : Requester) (s w : State), s.answers h = true ∧ w = wakeHearth h s ∧ isInner who = true) ∧
    (∃ (h : Fin 16) (who : Requester) (s w : State), s.answers h = true ∧ w = wakeHearth h s ∧ isInner who = false) ∧
    (∃ (b : Bool) (s : State), s.flueUp = true ∧ s.chim.fuses.seed.isSome = true) :=
  ⟨by refine ⟨60, base, ?_, ?_⟩ <;> decide +kernel,
   by refine ⟨.inner 0, 60, base, ?_, ?_⟩ <;> decide +kernel,
   by refine ⟨60, base.wr vaultPage Reg.PAGE_CTRL_LOCK 1, ?_, ?_⟩ <;> decide +kernel,
   by refine ⟨0, base.modH 0 (fun x => { x with reloading := true }), ?_, ?_, ?_⟩ <;> decide +kernel,
   by refine ⟨0, base.modH 0 (fun x => { x with reloading := true, needStart := true }), ?_, ?_, ?_⟩ <;> decide +kernel,
   by refine ⟨0, (drbgOn 0 base).modH 0 (fun x => { x with bankWait := true, bankDeferred := true }), _, ?_, ?_, someOf
     (by decide +kernel), ?_⟩ <;> decide +kernel,
   by refine ⟨0, base.modH 0 (fun x => { x with bankWait := true }), ?_, ?_, ?_⟩ <;> decide +kernel,
   by refine ⟨0, drbgOn 0 base, _, _, pairOf (by decide +kernel)⟩,
   by refine ⟨0, .inner 0, base, _, ?_, rfl, ?_⟩ <;> decide +kernel,
   by refine ⟨0, .outer 0, base, _, ?_, rfl, ?_⟩ <;> decide +kernel,
   by refine ⟨true, base, ?_, ?_⟩ <;> decide +kernel⟩

theorem test_witness_OperatingTime :
    (∃ (s : State), s.chim.vault.intact = true) ∧
    (∃ (s : State), s.chim.vault.intact = false) :=
  ⟨by refine ⟨base, ?_⟩ <;> decide +kernel,
   by refine ⟨base.modVault (fun v => { v with intact := false }), ?_⟩ <;> decide +kernel⟩

theorem test_witness_HealthTests :
    ∃ (t : PairTest) (b : Nat), t.pos < 1024 ∧ t.pos = 0 :=
  by refine ⟨{}, 1, ?_, ?_⟩ <;> decide +kernel

theorem test_witness_EntropyAndDrbg :
    (∃ (h : Fin 16) (bits rings : BitVec 64) (s t : State), s.up h = true ∧ (s.H h).power = 0 ∧ ((s.ent h).source ≠ .starting ∨
      (s.ent h).testing ≠ 0) ∧ (t = (List.range 64).foldl (fun s p => samplePair h p (b2n (bits.toNat.testBit p))
      (rings.toNat.testBit p) s) s)) ∧
    (∃ (h : Fin 16) (bits rings : BitVec 64) (s : State), (s.up h = false ∨ (s.H h).power ≠ 0)) ∧
    (∃ (h : Fin 16) (s : State), s.up h = true ∧ (s.H h).power = 0 ∧ (s.ent h).source = .healthy ∧ 768 ≤ (s.ent h).collN ∧
      (s.ent h).pool.length < 5) ∧
    (∃ (h : Fin 16) (s : State), s.up h = true ∧ (s.ent h).testing = 1 ∧ 4096 ≤ (s.ent h).testPos) ∧
    (∃ (h : Fin 16) (who : Requester) (s w : State), s.answers h = true ∧ w = wakeHearth h s ∧ mgrOrInner who = true ∧ (w.ent
      h).source = .failed) ∧
    (∃ (h : Fin 16) (who : Requester) (s w : State), s.answers h = true ∧ w = wakeHearth h s ∧ mgrOrInner who = true ∧ (w.ent
      h).source = .healthy) ∧
    (∃ (h : Fin 16) (who : Requester) (s w : State), s.answers h = true ∧ w = wakeHearth h s ∧ mgrOrInner who = true ∧ (w.ent
      h).source ≠ .failed) ∧
    (∃ (h : Fin 16) (who : Requester) (s w : State), s.answers h = true ∧ w = wakeHearth h s ∧ mgrOrInner who = true ∧ (w.ent
      h).source ≠ .healthy) ∧
    (∃ (h : Fin 16) (s : State), s.up h = true ∧ (s.ent h).testing = 3 ∧ 4096 ≤ (s.ent h).testPos) ∧
    (∃ (h : Fin 16) (s t : State), s.up h = true ∧ (s.ent h).testing = 2 ∧ 4096 ≤ (s.ent h).testPos ∧ (s.ent h).testFails = 0 ∧
      (t = s.modEnt h (fun e =>
      { e with testing := 0, removed := 0, under := 0, testFails := 0, source := .healthy, coll := 0, collN := 0, pool := [], tests := [] }))) ∧
    (∃ (h : Fin 16) (s : State) (kv : Bytes × Bytes), s.up h = true ∧ (s.ent h).drbg = .uninstantiated ∧ (s.ent h).source =
      .healthy ∧ 5 ≤ (s.ent h).pool.length ∧ kv = drbgUpdate (zeros 32) (zeros 16) (drbgDf (((s.ent h).pool.take 4).flatten ++
      (padTo 16 s.chim.fuses.serial ++ [byte h] ++ zeros 15)))) ∧
    (∃ (h : Fin 16) (n : Nat) (s t : State) (b : Bytes), s.up h = true ∧ 1 ≤ n ∧ n ≤ 65536 ∧ seedWaits (s.H h) = false ∧
      drbgRequest h n false s = some (b, t)) ∧
    (∃ (h : Fin 16) (n : Nat) (s : State), (seedWaits (s.H h) = true ∨ drbgRequest h n false s = none)) ∧
    (∃ (h : Fin 16) (s : State), s.up h = true ∧ (s.ent h).drbg ≠ .uninstantiated ∧ canReseed (s.ent h) = true ∧ (s.reseedPeriod
      h ≤ (s.ent h).requests ∨ (s.ent h).drbg = .holdover ∨ (s.ent h).drbg = .stopped)) ∧
    (∃ (h : Fin 16) (who : Requester) (d : Word) (s w : State), s.answers h = true ∧ w = wakeHearth h s ∧ mgrOrInner who = true) ∧
    (∃ (h : Fin 16) (who : Requester) (s w : State), s.answers h = true ∧ w = wakeHearth h s ∧ isInner who = true ∧ 4 ≤ (w.ent
      h).bufIn.length) ∧
    (∃ (h : Fin 16) (who : Requester) (s w : State), s.answers h = true ∧ w = wakeHearth h s ∧ isOuter who = true ∧ 4 ≤ (w.ent
      h).bufOut.length) ∧
    (∃ (h : Fin 16) (who : Requester) (s w : State), s.answers h = true ∧ w = wakeHearth h s ∧ isInner who = true ∧ (w.ent
      h).bufIn.length < 4) ∧
    (∃ (h : Fin 16) (who : Requester) (s w : State), s.answers h = true ∧ w = wakeHearth h s ∧ isInner who = false) ∧
    (∃ (h : Fin 16) (who : Requester) (s w : State), (∀ v, who ≠ .vf v) ∧ s.answers h = true ∧ w = wakeHearth h s ∧ inVendorTest
      w = true ∧ 32 ≤ (w.ent h).rawN) ∧
    (∃ (h : Fin 16) (who : Requester) (s w : State), (∀ v, who ≠ .vf v) ∧ s.answers h = true ∧ w = wakeHearth h s ∧ inVendorTest
      w = false) :=
  ⟨by refine ⟨0, 0xFFFF, 1, entSt id, _, ?_, ?_, ?_, rfl⟩ <;> decide +kernel,
   by refine ⟨15, 0, 0, base, ?_⟩ <;> decide +kernel,
   by refine ⟨0, entSt (fun e => { e with collN := 768, pool := [] }), ?_, ?_, ?_, ?_, ?_⟩ <;> decide +kernel,
   by refine ⟨0, entSt (fun e => { e with testing := 1, testPos := 4096 }), ?_, ?_, ?_⟩ <;> decide +kernel,
   by refine ⟨0, .pf0, entSt (fun e => { e with source := .failed }), _, ?_, rfl, ?_, ?_⟩ <;> decide +kernel,
   by refine ⟨0, .pf0, entSt id, _, ?_, rfl, ?_, ?_⟩ <;> decide +kernel,
   by refine ⟨0, .inner 0, entSt id, _, ?_, rfl, ?_, ?_⟩ <;> decide +kernel,
   by refine ⟨0, .inner 3, base, _, ?_, rfl, ?_, ?_⟩ <;> decide +kernel,
   by refine ⟨0, entSt (fun e => { e with testing := 3, testPos := 4096 }), ?_, ?_, ?_⟩ <;> decide +kernel,
   by refine ⟨0, entSt (fun e => { e with testing := 2, testPos := 4096 }), _, ?_, ?_, ?_, ?_, rfl⟩ <;> decide +kernel,
   by refine ⟨0, entSt (fun e => { e with drbg := .uninstantiated }), _, ?_, ?_, ?_, ?_, rfl⟩ <;> decide +kernel,
   by refine ⟨0, 1, entSt id, _, _, ?_, ?_, ?_, ?_, pairOf (by decide +kernel)⟩ <;> decide +kernel,
   by refine ⟨0, 1, base, ?_⟩ <;> decide +kernel,
   by refine ⟨0, entSt (fun e => { e with drbg := .stopped }), ?_, ?_, ?_, ?_⟩ <;> decide +kernel,
   by refine ⟨0, .pf0, 3, base, _, ?_, rfl, ?_⟩ <;> decide +kernel,
   by refine ⟨0, .inner 0, entSt (fun e => { e with bufIn := zeros 4 }), _, ?_, rfl, ?_, ?_⟩ <;> decide +kernel,
   by refine ⟨0, .outer 0, entSt (fun e => { e with bufOut := zeros 4 }), _, ?_, rfl, ?_, ?_⟩ <;> decide +kernel,
   by refine ⟨0, .inner 0, entSt (fun e => { e with bufIn := zeros 3 }), _, ?_, rfl, ?_, ?_⟩ <;> decide +kernel,
   by refine ⟨0, .outer 0, base, _, ?_, rfl, ?_⟩ <;> decide +kernel,
   by refine ⟨0, .pf0, entSt (fun e => { e with rawN := 32 }), _, (fun _ h => nomatch h), ?_, rfl, ?_, ?_⟩ <;> decide +kernel,
   by refine ⟨0, .pf0, lcSt 4 base, _, (fun _ h => nomatch h), ?_, rfl, ?_⟩ <;> decide +kernel⟩

theorem test_witness_MemoryPathCommands :
    (∃ (h : Fin 16) (who : Requester) (s w : State), s.answers h = true ∧ w = wakeHearth h s ∧ mgrOrInner who = true ∧
      w.memState h = 0) ∧
    (∃ (h : Fin 16) (who : Requester) (s w : State), s.answers h = true ∧ w = wakeHearth h s ∧ mgrOrInner who = true ∧
      w.memState h ≠ 0) ∧
    (∃ (h : Fin 16) (s : State), s.regs.sorted = true ∧ s.memState h = 1 ∧ s.up h = true ∧ cfgGib s h < 2 ^ 6) ∧
    (∃ (h : Fin 16) (off : BitVec 35) (c : LineCheck) (s : State), s.up h = true ∧ s.memReady h = true ∧ s.flag (memPage h)
      Reg.MEM_CTRL_SCRUB_EN = true ∧ off.toNat < s.memCap h) ∧
    (∃ (h : Fin 16) (r : Fin 8) (who : Requester) (s w : State) (c : Nat), s.answers h = true ∧ w = wakeHearth h s ∧ r.val ≠ 0 ∧
      mgrOrInner who = true ∧ initCode w h r = some c) ∧
    (∃ (h : Fin 16) (r : Fin 8) (who : Requester) (s w : State), s.answers h = true ∧ w = wakeHearth h s ∧ r.val ≠ 0 ∧
      mgrOrInner who = true ∧ initCode w h r = none ∧ (regRange w h r).mode ≠ 0 ∧ w.regs.sorted = true) ∧
    (∃ (h : Fin 16) (r : Fin 8) (s : State), s.up h = true ∧ s.rangeState h r = rsInit) ∧
    (∃ (h : Fin 16) (s : State) (a : Nat × Nat) (l : List (Nat × Nat)), s.up h = true ∧ (s.H h).mem.reenc = a :: l) ∧
    (∃ (h : Fin 16) (who : Requester) (s w : State), s.answers h = true ∧ w = wakeHearth h s ∧ mgrOrInner who = true ∧ goCode w
      h = none) ∧
    (∃ (h : Fin 16) (who : Requester) (s w : State) (c : Nat), s.answers h = true ∧ w = wakeHearth h s ∧ mgrOrInner who = true ∧
      goCode w h = some c) ∧
    (∃ (h : Fin 16) (who : Requester) (s w : State), s.answers h = true ∧ w = wakeHearth h s ∧ mgrOrInner who = true ∧ w.flag
      (memPage h) Reg.OWN_STATUS_SYNC_BUSY = false) ∧
    (∃ (h : Fin 16) (s t : State), s.up h = true ∧ s.flag (memPage h) Reg.OWN_STATUS_SYNC_BUSY = true ∧ (t = ((s.H
      h).mem.transit.foldl (fun s c => (List.range c.count).foldl (fun s i => setOwner h (c.page + i) c.entry s) s) s).modMem h
      (fun m => { m with pending := [], transit := [] }))) ∧
    (∃ (h page entry : Nat) (s : State) (p : _), (s.H h).mem.owners.sorted = true ∧ s.ownEntry h page % 2 ^ 17 = entry % 2 ^ 17
      ∧ p ≠ page) ∧
    (∃ (h : Fin 16) (m : Fin 26) (who : Requester) (s w : State), s.answers h = true ∧ w = wakeHearth h s ∧ mpuWriter m who =
      true ∧ (∀ i, i < 16 → regionBad (shadowRegion w h m i) = false)) ∧
    (∃ (h : Fin 16) (m : Fin 26) (s : State), s.up h = true ∧ ((s.H h).mem.mpus.getD m {}).syncing = true ∧ s.regs.sorted =
      true) :=
  ⟨by refine ⟨0, .pf0, base, _, ?_, rfl, ?_, ?_⟩ <;> decide +kernel,
   by refine ⟨0, .inner 0, waitSt, _, ?_, rfl, ?_, ?_⟩ <;> decide +kernel,
   by refine ⟨0, base.wr (memPage 0) Reg.MEM_STATUS_STATE 1, ?_, ?_, ?_, ?_⟩ <;> decide +kernel,
   by refine ⟨0, 0x3FFFFFFF, .clean, waitSt.wr (memPage 0) Reg.MEM_CTRL_SCRUB_EN 1, ?_, ?_, ?_, ?_⟩ <;> decide +kernel,
   by refine ⟨0, 1, .pf0, waitSt, _, _, ?_, rfl, ?_, ?_, someOf (by decide +kernel)⟩ <;> decide +kernel,
   by refine ⟨0, 1, .pf0, rngSt.modH 0 (fun x => { x with mem := {} }), _, ?_, rfl, ?_, ?_, ?_, ?_, ?_⟩ <;> decide +kernel,
   by refine ⟨0, 7, base.wr (memPage 0) (Reg.RNG_STATUS_STATE 7) rsInit, ?_, ?_⟩ <;> decide +kernel,
   by refine ⟨0, base.modH 0 (fun x => { x with mem := { reenc := [(1, 3)] } }), (1, 3), [], ?_, ?_⟩ <;> decide +kernel,
   by refine ⟨0, .pf0, ownSt, _, ?_, rfl, ?_, ?_⟩ <;> decide +kernel,
   by refine ⟨0, .pf0, waitSt.wr (memPage 0) Reg.OWN_STATUS_SYNC_BUSY 1, _, _, ?_, rfl, ?_, someOf (by decide +kernel)⟩ <;>
     decide +kernel,
   by refine ⟨0, .inner 0, base, _, ?_, rfl, ?_, ?_⟩ <;> decide +kernel,
   by refine ⟨0, base.wr (memPage 0) Reg.OWN_STATUS_SYNC_BUSY 1, _, ?_, ?_, rfl⟩ <;> decide +kernel,
   by refine ⟨0, 0, 5 + 2 ^ 16, waitSt, 1, ?_, ?_, ?_⟩ <;> decide +kernel,
   by refine ⟨0, 25, .inner 0, base, _, ?_, rfl, ?_, ?_⟩ <;> decide +kernel,
   by refine ⟨0, 25, base.modH 0 (fun x => { x with mem := { mpus := [(25, { syncing := true })] } }), ?_, ?_, ?_⟩ <;>
     decide +kernel⟩

theorem test_witness_MemoryAccessAnswers :
    (∃ (h : Fin 16) (m : Fin 26) (k : AccessKind) (mm : Bool) (a : BitVec 48) (n : Fin 65) (d : Bytes) (c : LineCheck) (s :
      State) (q : Req), m.val ≠ 25 ∧ s.up h = true ∧ n.val ≠ 0 ∧ masterReq s h m mm (kindCode k) = some q) ∧
    (∃ (h : Fin 16) (k : AccessKind) (mm : Bool) (a : BitVec 48) (n : Fin 65) (d : Bytes) (c : LineCheck) (s w : State) (q :
      Req), (w = onHearth h (fun s => s) s) ∧ w.up h = true ∧ n.val ≠ 0 ∧ masterReq w h 25 mm (kindCode k) = some q) ∧
    (∃ (h : Nat) (q : Req) (off n : Nat) (d : Bytes) (s : State), s.memInner h ≤ off ∧ innerAllows (innerArea (off - s.memInner
      h)) q = false) ∧
    (∃ (h : Nat) (q : Req) (off n : Nat) (d : Bytes) (s : State), off < s.memInner h ∧ s.rangeAt h off = none ∧ passesAll
      q.master = false ∧ s.poisoned h (s.memInner h + off / 4096 * 4) = false ∧ (∀ o ∈ (s.H h).mem.transit, ¬ (o.page ≤ off /
      4096 ∧ off / 4096 < o.page + o.count)) ∧ ownAllows (s.ownEntry h (off / 4096)) q.ident q.writes q.fetches = false) ∧
    (∃ (h : Nat) (q : Req) (off n : Nat) (s : State), off < s.memInner h ∧ s.rangeAt h off = none ∧ passesAll q.master = false ∧
      s.poisoned h (s.memInner h + off / 4096 * 4) = false ∧ s.poisoned h off = false ∧ q.writes = false ∧ (∀ o ∈ (s.H
      h).mem.transit, ¬ (o.page ≤ off / 4096 ∧ off / 4096 < o.page + o.count)) ∧ ownAllows (s.ownEntry h (off / 4096)) q.ident
      q.writes q.fetches = true ∧ (s.H h).ctrs.getD 159 0 + 1 < 2 ^ 64) :=
  ⟨by refine ⟨0, 0, .read, true, 0x800000000, 64, zeros 64, .clean, waitSt, _, ?_, ?_, ?_, someOf (by decide +kernel)⟩ <;>
     decide +kernel,
   by refine ⟨0, .read, true, 0, 1, [], .clean, waitSt, _, _, rfl, ?_, ?_, someOf (by decide +kernel)⟩ <;> decide +kernel,
   by refine ⟨0, { master := 0, outer := true }, 1006632960, 64, [], waitSt, ?_, ?_⟩ <;> decide +kernel,
   by refine ⟨0, { master := 0, outer := true, ident := 0xFFF2 }, 4096, 64, [], waitSt, ?_, ?_, ?_, ?_, ?_, ?_⟩ <;>
     decide +kernel,
   by refine ⟨0, { master := 4, ident := 5 }, 0, 64, waitSt, ?_, ?_, ?_, ?_, ?_, ?_, ?_, ?_, ?_⟩ <;> decide +kernel⟩

theorem test_witness_MemoryReadsBackWrites :
    ∃ (m : List Host.Cell) (a : Nat) (d : Bytes) (b : _), Memory.wf m = true ∧ (b < a ∨ a + d.length ≤ b) :=
  by refine ⟨[], 0, [1], 1, ?_, ?_⟩ <;> decide +kernel

theorem test_witness_CachesServeTheirWorld :
    (∃ (h : Nat) (q : Req) (a n : Nat) (d : Bytes) (c : LineCheck) (s : State), (isCoreMaster q.master = false ∧ q.master ≠ 22 ∨
      cacheAttr s h q a < 2)) ∧
    (∃ (h : Nat) (c : CacheLine) (s : State), (l2Group s h c.line c.outer).lines.length ≤ l2Ways c.outer) ∧
    (∃ (h : Nat) (q : Req) (a n : Nat) (d : Bytes) (c : LineCheck) (s : State) (x : CacheLine), cacheable s h q a = true ∧
      q.master ≠ 22 ∧ q.writes = false ∧ checkAccess h q a c s = (s, none) ∧ lineIn (l1Of s h q.master q.fetches) (a / 64)
      q.outer = some x) ∧
    (∃ (h : Nat) (q : Req) (a n : Nat) (d : Bytes) (c : LineCheck) (s : State), cacheable s h q a = true ∧ q.master = 22 ∧ (∀ k,
      k < 4 → ∀ x, lineIn (l1Of s h k false) (a / 64) q.outer = some x → x.dirty = false) ∧ l2Find s h (a / 64) q.outer = none) ∧
    (∃ (h : Nat) (q : Req) (a n : Nat) (d : Bytes) (c : LineCheck) (s : State) (x : _), cacheable s h q a = true ∧ q.master = 22
      ∧ (∀ k, k < 4 → ∀ x, lineIn (l1Of s h k false) (a / 64) q.outer = some x → x.dirty = false) ∧ l2Find s h (a / 64) q.outer
      = some x ∧ q.writes = false ∧ checkAccess h q a c s = (s, none)) ∧
    (∃ (h c : Nat) (s : State), (∀ x ∈ l1Of s h c false, x.dirty = false) ∧ (s.H h).caches.l1d.sorted = true ∧ (s.H
      h).caches.l1i.sorted = true) :=
  ⟨by refine ⟨0, { master := 4 }, 0, 64, [], .clean, base, ?_⟩ <;> decide +kernel,
   by refine ⟨0, { line := 5, outer := true }, base, ?_⟩ <;> decide +kernel,
   by refine ⟨0, { master := 0, ident := 5 }, 0x800000000, 64, [], .clean, l1St, memLine, ?_, ?_, ?_, ?_, ?_⟩ <;> decide +kernel,
   by refine ⟨0, { master := 22, ident := 5 }, 0x800000000, 64, [], .clean, waitSt, ?_, ?_, (fun k _ x h => nomatch h), ?_⟩ <;>
     decide +kernel,
   by refine ⟨0, { master := 22, ident := 5 }, 0x800000000, 64, [], .clean, l2Put 0 memLine waitSt, memLine, ?_, ?_, (fun k _ x
     h => nomatch h), ?_, ?_, ?_⟩ <;> decide +kernel,
   by refine ⟨0, 0, base, ?_, ?_, ?_⟩ <;> decide +kernel⟩

theorem test_witness_TransitRegisters :
    ∃ (s : State) (h c n : Nat) (x : Core) (i : _), x.regs.length = 31 ∧ i < 31 :=
  by refine ⟨base, 0, 0, 0, { regs := List.replicate 31 0 }, 30, ?_, ?_⟩ <;> decide +kernel

theorem test_witness_WorldsFatalAndDebug :
    (∃ (h : Fin 16) (c : Fin 4) (v : Byte) (s : State), coreRuns s h c = true ∧ transitOpen (s.core h c) .call = true) ∧
    (∃ (h : Fin 16) (c : Fin 4) (v : Byte) (s : State), coreRuns s h c = true ∧ transitOpen (s.core h c) .ret = true) ∧
    (∃ (h : Fin 16) (c : Fin 4) (v : Byte) (s : State), coreRuns s h c = true ∧ transitOpen (s.core h c) .resume = true) ∧
    (∃ (h : Fin 16) (c : Fin 4) (v : Byte) (s : State), coreRuns s h c = true ∧ transitOpen (s.core h c) .dispatch = true) ∧
    (∃ (h : Fin 16) (c : Fin 4) (v : Byte) (s : State), coreRuns s h c = true ∧ transitOpen (s.core h c) .call = false) ∧
    (∃ (h : Fin 16) (c : Fin 4) (v : Byte) (s : State), coreRuns s h c = true ∧ transitOpen (s.core h c) .ret = false) ∧
    (∃ (h : Fin 16) (c : Fin 4) (s : State), s.up h = true ∧ (c.val = 0 ∨ (s.core h c).released = true) ∧ (s.core h c).transit =
      none ∧ (s.core h c).world = .outer ∧ s.rd (gatePage h) Reg.GATE_IRQ_CORE = c.val) ∧
    (∃ (h : Fin 16) (c : Fin 4) (d : Word) (s : State), coreRuns s h c = true ∧ opOfCode (d.toNat % 8) = none) ∧
    (∃ (h : Fin 16) (c : Fin 4) (s : State) (op : WorldOp) (n : Nat), s.up h = true ∧ (s.core h c).transit = some (op, n)) ∧
    (∃ (h : Fin 16) (c : Fin 4) (who : Requester) (s w : State), s.answers h = true ∧ w = wakeHearth h s ∧ isInner who = true ∧
      c.val ≠ 0 ∧ (w.core h c).released = false) ∧
    (∃ (h : Fin 16) (s : State) (c : Fin 4), s.works h = true ∧ (s.core h c).world = .inner) ∧
    (∃ (s t u : State) (h : Nat) (b : Bytes), s.flueUp = true ∧ t = s.wr dbgPage Reg.DBG_STATUS_CHALLENGE_OPEN 0 ∧ h0Hearth t =
      some h ∧ drbgRequest h 32 false t = some (b, u)) ∧
    (∃ (s : State), s.flueUp = true ∧ s.flag dbgPage Reg.DBG_STATUS_BUSY = false) ∧
    (∃ (s : State), s.flueUp = true ∧ s.flag dbgPage Reg.DBG_STATUS_BUSY = true) ∧
    (∃ (d : Word) (s : State), s.flueUp = true) ∧
    (∃ (who : Requester) (d : Word) (s : State), s.flueUp = true ∧ who ≠ .pf1) ∧
    (∃ (h : Fin 16) (s : State), (s.H h).dbgExpiry ≠ 0 ∧ (s.H h).dbgExpiry ≤ s.now) ∧
    (∃ (h : Fin 16) (s : State), ((s.H h).dbgExpiry = 0 ∨ s.now < (s.H h).dbgExpiry)) ∧
    (∃ (h : Fin 16) (c : Fin 4) (s : State), s.flueUp = true ∧ coreRuns s h c = true ∧ invasive s h c = true) ∧
    (∃ (h : Fin 16) (c : Fin 4) (s : State), s.flueUp = true ∧ invasive s h c = false) ∧
    (∃ (h : Fin 16) (c : Fin 4) (s : State), s.flueUp = true ∧ s.up h = true ∧ (s.core h c).halted = true ∧ invasive s h c =
      true ∧ (s.H h).fatal = none) :=
  ⟨by refine ⟨0, 0, 0, coreSt (fun c => { c with world := .outer }), ?_, ?_⟩ <;> decide +kernel,
   by refine ⟨0, 0, 0, coreSt (fun c => { c with callOpen := true }), ?_, ?_⟩ <;> decide +kernel,
   by refine ⟨0, 0, 0, coreSt (fun c => { c with banked := true }), ?_, ?_⟩ <;> decide +kernel,
   by refine ⟨0, 0, 0, base, ?_, ?_⟩ <;> decide +kernel,
   by refine ⟨0, 0, 0, base, ?_, ?_⟩ <;> decide +kernel,
   by refine ⟨0, 0, 0, base, ?_, ?_⟩ <;> decide +kernel,
   by refine ⟨0, 0, coreSt (fun c => { c with world := .outer }), ?_, ?_, ?_, ?_, ?_⟩ <;> decide +kernel,
   by refine ⟨0, 0, 5, base, ?_, ?_⟩ <;> decide +kernel,
   by refine ⟨0, 0, coreSt (fun c => { c with transit := some (.call, 7) }), .call, 7, ?_, ?_⟩ <;> decide +kernel,
   by refine ⟨0, 3, .inner 0, base, _, ?_, rfl, ?_, ?_, ?_⟩ <;> decide +kernel,
   by refine ⟨0, base, 0, ?_, ?_⟩ <;> decide +kernel,
   by refine ⟨drbgOn 0 base, _, _, _, _, ?_, rfl, someOf (by decide +kernel), pairOf (by decide +kernel)⟩ <;> decide +kernel,
   by refine ⟨base, ?_, ?_⟩ <;> decide +kernel,
   by refine ⟨base.wr dbgPage Reg.DBG_STATUS_BUSY 1, ?_, ?_⟩ <;> decide +kernel,
   by refine ⟨0, base, ?_⟩ <;> decide +kernel,
   by refine ⟨.pf0, 0, base, ?_, ?_⟩ <;> decide +kernel,
   by refine ⟨0, (base.modH 0 (fun x => { x with dbgExpiry := 5 })).modVault (fun v => { v with opTime := 5 }), ?_, ?_⟩ <;>
     decide +kernel,
   by refine ⟨0, base.modH 0 (fun x => { x with dbgExpiry := 5 }), ?_⟩ <;> decide +kernel,
   by refine ⟨0, 0, base.modH 0 (fun x => { x with enables := 8 }), ?_, ?_, ?_⟩ <;> decide +kernel,
   by refine ⟨0, 0, base, ?_, ?_⟩ <;> decide +kernel,
   by refine ⟨0, 0, (coreSt (fun c => { c with halted := true })).modH 0 (fun x => { x with enables := 8 }), ?_, ?_, ?_, ?_, ?_⟩
     <;> decide +kernel⟩

theorem test_witness_PowerAndProfiles :
    (∃ (h : Fin 16) (who : Requester) (d : Word) (s w : State) (v : Nat), s.answers h = true ∧ w = wakeHearth h s ∧ mgrOrInner
      who = true ∧ v = bits d.toNat 0 2 ∧ (v < 2 ∨ isInner who = true ∨ holds? (setFields (powerPage h) [(Reg.PWR_CTRL_TARGET,
      v)] w) h 20 = false)) ∧
    (∃ (h : Fin 16) (who : Requester) (d : Word) (s w : State), s.answers h = true ∧ w = wakeHearth h s ∧ mgrOrInner who =
      false) ∧
    (∃ (h : Fin 16) (s : State), s.up h = true ∧ (s.H h).power = 0 ∧ (s.H h).pwrTarget = 1 ∧ jobsQuiet (s.H h) = true) ∧
    (∃ (h : Fin 16) (s : State), (s.H h).power = 1) ∧
    (∃ (h : Fin 16) (s : State), s.up h = true ∧ (s.H h).pwrTarget = 2 ∧ jobsQuiet (s.H h) = true ∧ memQuiet s h = true) ∧
    (∃ (h : Fin 16) (s : State), (s.H h).power = 2 ∧ (s.H h).pwrTarget ≤ 1) ∧
    (∃ (k : Nat), 1 ≤ k) ∧
    (∃ (h b : Nat) (s : State), s.up h = true) ∧
    (∃ (h b : Nat) (s : State), s.up h = false ∧ s.answers h = false) ∧
    (∃ (h b : Nat) (s : State), s.up h = false ∧ s.answers h = true ∧ s.hearths.sorted = true) ∧
    (∃ (h k : Nat) (s : State), s.up h = true ∧ 0 < k ∧ (s.H h).cross = []) ∧
    (∃ (h k : Nat) (s : State), s.up h = true ∧ 0 < k ∧ (s.H h).cross = [(0,
      { inFlight := 1, pending := k, overflow := false })]) ∧
    (∃ (h k : Nat) (s : State), s.up h = true ∧ 0 < k ∧ (s.H h).cross = [(0,
      { inFlight := 1, pending := k, overflow := true })]) ∧
    (∃ (h : Fin 16) (s : State), s.regs.sorted = true ∧ s.enabled h = true ∧ s.live h = true ∧ s.up h = true ∧ (s.H h).pwrTarget
      = 3 ∧ jobsQuiet (s.H h) = true ∧ memQuiet s h = true ∧ quiesced s h = true ∧ (∀ r, r < 8 → s.rangeState h r = rsOff)) ∧
    (∃ (h : Fin 16) (s : State), jobsQuiet (s.H h) = false) ∧
    (∃ (h : Fin 16) (who : Requester) (d : Word) (s w : State), s.answers h = true ∧ w = wakeHearth h s ∧ mgrOrInner who = true
      ∧ bits d.toNat 2 2 = 3) ∧
    (∃ (h : Fin 16) (who : Requester) (d : Word) (s w : State), s.answers h = true ∧ w = wakeHearth h s ∧ mgrOrInner who = true
      ∧ bits d.toNat 2 2 < 3 ∧ ((bits d.toNat 2 2 = (w.H h).profile ∧ (w.H h).transition = false))) ∧
    (∃ (h : Fin 16) (who : Requester) (d : Word) (s w : State), s.answers h = true ∧ w = wakeHearth h s ∧ mgrOrInner who = true
      ∧ bits d.toNat 2 2 < 3 ∧ (¬(bits d.toNat 2 2 = (w.H h).profile ∧ (w.H h).transition = false))) ∧
    (∃ (h : Fin 16) (s : State), (s.H h).transition = true) ∧
    (∃ (h : Fin 16) (hi : Bool) (who : Requester) (d : Word) (s w : State), s.answers h = true ∧ w = wakeHearth h s ∧
      (mgrOrInner who || (isOuter who && w.flag (powerPage h) Reg.PWR_CTRL_OUTER_REQ)) = true) ∧
    (∃ (h : Fin 16) (hi : Bool) (who : Requester) (d : Word) (s w : State), s.answers h = true ∧ w = wakeHearth h s ∧
      (mgrOrInner who || (isOuter who && w.flag (powerPage h) Reg.PWR_CTRL_OUTER_REQ)) = false) ∧
    (∃ (h : Nat) (b v : Nat) (who : Requester) (s : State), v ≠ 0 ∧ (isInner who = true ∨ holds? s h b = false) ∧ s.blockState h
      b ≠ v) ∧
    (∃ (h : Fin 16) (b : Fin 20) (s : State), s.up h = true ∧ s.blockState h b = 3 ∧ blockIdle (s.eng h b) = true ∧ blockReq s h
      b ≠ 2) ∧
    (∃ (h : Fin 16) (b : Fin 20) (s : State), s.up h = true ∧ s.blockState h b = 3 ∧ blockIdle (s.eng h b) = true ∧ blockReq s h
      b = 2) ∧
    (∃ (h : Fin 16) (b : Fin 20) (s : State), s.up h = true ∧ s.blockState h b = 4) ∧
    (∃ (h : Fin 16) (who : Requester) (d : Word) (s w t : State), s.answers h = true ∧ w = wakeHearth h s ∧ isInner who = true ∧
      t = setFields (powerPage h) [(Reg.PWR_HOLD_HOLD, d.toNat)] w) ∧
    (∃ (h : Fin 16) (who : Requester) (d : Word) (s w : State), s.answers h = true ∧ w = wakeHearth h s ∧ isInner who = false) :=
  ⟨by refine ⟨0, .pf0, 1, base, _, _, ?_, rfl, ?_, rfl, ?_⟩ <;> decide +kernel,
   by refine ⟨0, .pf1, 1, base, _, ?_, rfl, ?_⟩ <;> decide +kernel,
   by refine ⟨0, base, ?_, ?_, ?_, ?_⟩ <;> decide +kernel,
   by refine ⟨0, base.modH 0 (fun x => { x with power := 1 }), ?_⟩ <;> decide +kernel,
   by refine ⟨0, base.modH 0 (fun x => { x with pwrTarget := 2 }), ?_, ?_, ?_, ?_⟩ <;> decide +kernel,
   by refine ⟨0, base.modH 0 (fun x => { x with power := 2 }), ?_, ?_⟩ <;> decide +kernel,
   by refine ⟨1, ?_⟩ <;> decide +kernel,
   by refine ⟨0, 0, base, ?_⟩ <;> decide +kernel,
   by refine ⟨2, 0, base, ?_, ?_⟩ <;> decide +kernel,
   by refine ⟨0, 0, base.modH 0 (fun x => { x with power := 2 }), ?_, ?_, ?_⟩ <;> decide +kernel,
   by refine ⟨0, 1, base, ?_, ?_, ?_⟩ <;> decide +kernel,
   by refine ⟨0, 255, base.modH 0 (fun x => { x with cross := [(0, { inFlight := 1, pending := 255, overflow := false })] }),
     ?_, ?_, ?_⟩ <;> decide +kernel,
   by refine ⟨0, 255, base.modH 0 (fun x => { x with cross := [(0, { inFlight := 1, pending := 255, overflow := true })] }), ?_,
     ?_, ?_⟩ <;> decide +kernel,
   by refine ⟨1, base.modH 1 (fun x => { x with pwrTarget := 3 }), ?_, ?_, ?_, ?_, ?_, ?_, ?_, ?_, ?_⟩ <;> decide +kernel,
   by refine ⟨0, withJob (job 0x0201), ?_⟩ <;> decide +kernel,
   by refine ⟨0, .pf0, 12, base, _, ?_, rfl, ?_, ?_⟩ <;> decide +kernel,
   by refine ⟨0, .pf0, 0, base, _, ?_, rfl, ?_, ?_, ?_⟩ <;> decide +kernel,
   by refine ⟨0, .pf0, 8, base, _, ?_, rfl, ?_, ?_, ?_⟩ <;> decide +kernel,
   by refine ⟨0, base.modH 0 (fun x => { x with transition := true }), ?_⟩ <;> decide +kernel,
   by refine ⟨0, true, .pf0, 0, base, _, ?_, rfl, ?_⟩ <;> decide +kernel,
   by refine ⟨0, true, .outer 0, 0, base, _, ?_, rfl, ?_⟩ <;> decide +kernel,
   by refine ⟨0, 0, 1, .pf0, base, ?_, ?_, ?_⟩ <;> decide +kernel,
   by refine ⟨0, 0, base.modH 0 (fun x => { x with blocks := [(0, 3)] }), ?_, ?_, ?_, ?_⟩ <;> decide +kernel,
   by refine ⟨0, 0, (base.modH 0 (fun x => { x with blocks := [(0, 3)] })).wr (powerPage 0) Reg.PWR_BLK_REQ_LO_REQ 2, ?_, ?_,
     ?_, ?_⟩ <;> decide +kernel,
   by refine ⟨0, 19, base.modH 0 (fun x => { x with blocks := [(19, 4)] }), ?_, ?_⟩ <;> decide +kernel,
   by refine ⟨0, .inner 0, 0xFFFFFFFF, base, _, _, ?_, rfl, ?_, rfl⟩ <;> decide +kernel,
   by refine ⟨0, .pf0, 1, base, _, ?_, rfl, ?_⟩ <;> decide +kernel⟩

theorem test_witness_TripIsLogged :
    (∃ (n : Fin 30) (v : BitVec 32) (s : State), s.chim.vault.intact = true ∧ regimeOf s.chim = .standby ∧ n.val < 28 ∧ canTrip
      s n = true ∧ tripMet s.variant n v.toNat = true ∧ respAt s.chim.vault.resp n ≤ 1 ∧ s.chim.vault.log.length < 252) ∧
    (∃ (v : Variant) (q : Nat), q < 4096) ∧
    (∃ (n : Fin 30) (v : BitVec 32) (s : State), s.chim.vault.intact = true ∧ (n.val = 14 ∨ n.val = 15) ∧ canTrip s n = true ∧
      tripMet s.variant n v.toNat = false ∧ regimeOf s.chim ≠ .battery) :=
  ⟨by refine ⟨3, 77, (base.modChim (fun c => { c with main := false })).modVault (fun v => { v with resp := 0 }), ?_, ?_, ?_,
     ?_, ?_, ?_, ?_⟩ <;> decide +kernel,
   by refine ⟨{}, 0, ?_⟩ <;> decide +kernel,
   by refine ⟨14, 0, base, ?_, ?_, ?_, ?_, ?_⟩ <;> decide +kernel⟩

theorem test_witness_QuenchLeavesNoKey :
    (∃ (s : State), s.chim.main = true) ∧
    (∃ (s : State) (h : Nat), s.chim.main = true) ∧
    (∃ (s : State), s.chim.main = false) :=
  ⟨by refine ⟨base, ?_⟩ <;> decide +kernel,
   by refine ⟨base, 15, ?_⟩ <;> decide +kernel,
   by refine ⟨base.modChim (fun c => { c with main := false }), ?_⟩ <;> decide +kernel⟩

theorem test_witness_TamperCommands :
    (∃ (l : List (Fin 30 × BitVec 32)) (s : State), s.chim.vault.intact = true ∧ regimeOf s.chim = .battery) ∧
    (∃ (s : State), s.chim.quenching = true) ∧
    (∃ (s : State), s.flueUp = true ∧ s.chim.vault.locked = false) ∧
    (∃ (s : State), s.flueUp = true ∧ s.chim.vault.locked = true) ∧
    (∃ (s : State), s.flueUp = true ∧ s.chim.vault.sticky = 0 ∧ s.chim.quenching = false) ∧
    (∃ (s : State), s.flueUp = true ∧ (s.chim.vault.sticky ≠ 0 ∨ s.chim.quenching = true)) ∧
    (∃ (s : State) (hi : Bool) (d : Word), s.flueUp = true) ∧
    (∃ (s : State) (d : Word), s.flueUp = true) ∧
    (∃ (who : Requester) (s : State), s.flueUp = true ∧ who ≠ .pf0) ∧
    (∃ (h : Fin 16) (who : Requester) (s : State), isInner who = true ∧ s.up h = true) ∧
    (∃ (h : Fin 16) (who : Requester) (s : State), isInner who = false ∧ (s.flueUp = true ∨ s.up h = true)) :=
  ⟨by refine ⟨[(3, 0)], base.modChim (fun c => { c with main := false, supply := .vbat }), ?_, ?_⟩ <;> decide +kernel,
   by refine ⟨base.modChim (fun c => { c with quenching := true }), ?_⟩ <;> decide +kernel,
   by refine ⟨base, ?_, ?_⟩ <;> decide +kernel,
   by refine ⟨base.modVault (fun v => { v with locked := true }), ?_, ?_⟩ <;> decide +kernel,
   by refine ⟨base, ?_, ?_, ?_⟩ <;> decide +kernel,
   by refine ⟨base.modVault (fun v => { v with sticky := 1 }), ?_, ?_⟩ <;> decide +kernel,
   by refine ⟨base, true, 0, ?_⟩ <;> decide +kernel,
   by refine ⟨base, 0, ?_⟩ <;> decide +kernel,
   by refine ⟨.pf1, base, ?_, ?_⟩ <;> decide +kernel,
   by refine ⟨0, .inner 0, base, ?_, ?_⟩ <;> decide +kernel,
   by refine ⟨0, .pf0, base, ?_, ?_⟩ <;> decide +kernel⟩

theorem test_witness_ResponseNeverBelowMinimum :
    (∃ (n v : Nat) (s : State) (b : Bool), n < 30 ∧ v < 4 ∧ (∀ k, k < 30 → minResp k ≤ respAt s.chim.vault.resp k) ∧
      s.chim.active.testBit n = false ∧ s.chim.vault.locked = true) ∧
    (∃ (n v : Nat) (s : State) (b : Bool) (k : _), n < 30 ∧ v < 4 ∧ (∀ k, k < 30 → minResp k ≤ respAt s.chim.vault.resp k) ∧
      s.chim.active.testBit n = false ∧ k < 30 ∧ k ≠ n) :=
  ⟨by refine ⟨29, 0, base.modVault (fun v => { v with locked := true }), true, ?_, ?_, ?_, ?_, ?_⟩ <;> decide +kernel,
   by refine ⟨29, 3, base, false, 28, ?_, ?_, ?_, ?_, ?_, ?_⟩ <;> decide +kernel⟩

theorem test_witness_SuppliesAndPor :
    (∃ (s : State), s.chim.main = true ∧ s.chim.por = false) ∧
    (∃ (s : State), s.chim.main = false ∧ regimeOf s.chim ≠ .dead) ∧
    (∃ (s : State), s.chim.main = true ∧ s.chim.por = true) ∧
    (∃ (x : Supply) (s : State), s.chim.supply ≠ x ∧ s.chim.holding = false ∧ x ≠ .none) ∧
    (∃ (s : State), s.chim.supply ≠ .none ∧ s.chim.holding = false ∧ s.chim.main = false) ∧
    (∃ (s : State), s.chim.holding = true) :=
  ⟨by refine ⟨base, ?_, ?_⟩ <;> decide +kernel,
   by refine ⟨base.modChim (fun c => { c with main := false }), ?_, ?_⟩ <;> decide +kernel,
   by refine ⟨base.modChim (fun c => { c with por := true }), ?_, ?_⟩ <;> decide +kernel,
   by refine ⟨.vbat, base, ?_, ?_, ?_⟩ <;> decide +kernel,
   by refine ⟨base.modChim (fun c => { c with main := false }), ?_, ?_, ?_⟩ <;> decide +kernel,
   by refine ⟨base.modChim (fun c => { c with holding := true }), ?_⟩ <;> decide +kernel⟩

theorem test_witness_SnapshotsRecordersAndPages :
    (∃ (d : Word) (s : State), s.flueUp = true ∧ d.toNat % 2 = 1 ∧ s.flag ctrPage Reg.SNAP_STATUS_BUSY = false) ∧
    (∃ (d : Word) (s : State), s.flueUp = true ∧ d.toNat % 2 = 1 ∧ s.flag ctrPage Reg.SNAP_STATUS_BUSY = true) ∧
    (∃ (s : State), s.flueUp = true ∧ s.rd ctrPage Reg.SNAP_CTRL_PERIOD ≠ 0 ∧ s.flag ctrPage Reg.SNAP_STATUS_BUSY = false) ∧
    (∃ (s : State), s.flueUp = true ∧ s.rd ctrPage Reg.SNAP_CTRL_PERIOD ≠ 0 ∧ s.flag ctrPage Reg.SNAP_STATUS_BUSY = true) ∧
    (∃ (s t : State) (e : Nat), s.flueUp = true ∧ s.flag ctrPage Reg.SNAP_STATUS_BUSY = true ∧ s.flue.snapOwed = false ∧ e =
      s.rd ctrPage Reg.SNAP_STATUS_EPOCH ∧ (t = latchFlue flueLink ((s.hearthList.filter (fun h => (s.rd ctrPage
      Reg.SNAP_DELIVERED_HEARTHS).testBit h && takesMark s h)).foldl (fun s h => latchHearth h e s) s)) ∧ t.flue.snapOwed =
      false) ∧
    (∃ (e : _), e < 0x10000 ∧ e < 0xFFFF) ∧
    (∃ (h : Fin 16) (who : Requester) (s w : State) (p : Page) (c : Nat), s.answers h = true ∧ w = wakeHearth h s ∧ p = recPage
      (some h.val) ∧ c = freezerCode who ∧ c ≠ 0 ∧ w.flag p Reg.EVR_STATUS_FROZEN = false) ∧
    (∃ (h : Fin 16) (who : Requester) (s w : State) (p : Page) (c : Nat), s.answers h = true ∧ w = wakeHearth h s ∧ p = recPage
      (some h.val) ∧ c = freezerCode who ∧ c ≠ 0 ∧ w.flag p Reg.EVR_STATUS_FROZEN = true ∧ (c = 2 ∨ c = w.rd p
      Reg.EVR_STATUS_FREEZER)) ∧
    (∃ (h : Fin 16) (who : Requester) (s w : State) (p : Page) (c : Nat), s.answers h = true ∧ w = wakeHearth h s ∧ p = recPage
      (some h.val) ∧ c = freezerCode who ∧ c ≠ 0 ∧ w.flag p Reg.EVR_STATUS_FROZEN = true ∧ c ≠ 2 ∧ c ≠ w.rd p
      Reg.EVR_STATUS_FREEZER) ∧
    (∃ (who : Requester) (s : State) (c : Nat), s.flueUp = true ∧ c = freezerCode who ∧ (c = 1 ∨ c = 3) ∧ s.flag (recPage none)
      Reg.EVR_STATUS_FROZEN = false) ∧
    (∃ (h : Fin 16) (who : Requester) (q : Word) (s w : State) (z : List Slotted), s.answers h = true ∧ w = wakeHearth h s ∧
      (who = .pf1 ∨ isInner who = true) ∧ ackZone q.toNat (w.recorder (some h.val)).reserved = some z) ∧
    (∃ (h : Fin 16) (who : Requester) (q : Word) (s w : State), s.answers h = true ∧ w = wakeHearth h s ∧ (who = .pf1 ∨ isInner
      who = true) ∧ ackZone q.toNat (w.recorder (some h.val)).reserved = none) ∧
    (∃ (p : Page) (d : Word) (s w : State), p.regWf = true ∧ p.home = p ∧ isHearthPage p = true ∧ s.enabled p.unit.val = true ∧
      s.answers p.unit.val = true ∧ w = wakeHearth p.unit.val s ∧ (w.H p.unit.val).enables.testBit 1 = true) ∧
    (∃ (p : Page) (d : Word) (s : State), p.regWf = true ∧ p.home = p ∧ isHearthPage p = false ∧ p.kind ≠ .vfQueue ∧ s.flueUp =
      true ∧ inVendorTest s = true) ∧
    (∃ (p : Page) (s w : State) (c : Fin 4), p.regWf = true ∧ (p.kind = .gate ∨ p.kind = .mempath) ∧ s.enabled p.unit.val = true
      ∧ s.answers p.unit.val = true ∧ w = wakeHearth p.unit.val s) ∧
    (∃ (p : Page) (who : Requester) (s : State), p.regWf = true ∧ p.kind = .vault ∧ s.flueUp = true ∧ who = .pf0) ∧
    (∃ (p : Page) (who : Requester) (s : State), p.regWf = true ∧ p.kind = .vault ∧ s.flueUp = true ∧ who ≠ .pf0) ∧
    (∃ (h u : Fin 16) (who : Requester) (s w : State), s.answers h = true ∧ w = wakeHearth h s ∧ isInner who = true ∧ (w.eng h
      u).holder = 0 ∧ (w.eng h u).busy = false ∧ (w.eng h u).scrubbing = false ∧ w.regs.sorted = true) ∧
    (∃ (h u : Fin 16) (who : Requester) (s w : State), s.answers h = true ∧ w = wakeHearth h s ∧ isInner who = true ∧ ((w.eng h
      u).holder ≠ 0 ∨ (w.eng h u).busy = true ∨ (w.eng h u).scrubbing = true)) :=
  ⟨by refine ⟨1, base, ?_, ?_, ?_⟩ <;> decide +kernel,
   by refine ⟨1, base.wr ctrPage Reg.SNAP_STATUS_BUSY 1, ?_, ?_, ?_⟩ <;> decide +kernel,
   by refine ⟨base.wr ctrPage Reg.SNAP_CTRL_PERIOD 1, ?_, ?_, ?_⟩ <;> decide +kernel,
   by refine ⟨(base.wr ctrPage Reg.SNAP_CTRL_PERIOD 1).wr ctrPage Reg.SNAP_STATUS_BUSY 1, ?_, ?_, ?_⟩ <;> decide +kernel,
   by refine ⟨base.wr ctrPage Reg.SNAP_STATUS_BUSY 1, _, _, ?_, ?_, ?_, rfl, rfl, ?_⟩ <;> decide +kernel,
   by refine ⟨0, ?_, ?_⟩ <;> decide +kernel,
   by refine ⟨0, .pf1, base, _, _, _, ?_, rfl, rfl, rfl, ?_, ?_⟩ <;> decide +kernel,
   by refine ⟨0, .inner 0, base.wr (recPage (some 0)) Reg.EVR_STATUS_FROZEN 1, _, _, _, ?_, rfl, rfl, rfl, ?_, ?_, ?_⟩ <;>
     decide +kernel,
   by refine ⟨0, .pf0, (base.wr (recPage (some 0)) Reg.EVR_STATUS_FROZEN 1).wr (recPage (some 0)) Reg.EVR_STATUS_FREEZER 1, _,
     _, _, ?_, rfl, rfl, rfl, ?_, ?_, ?_, ?_⟩ <;> decide +kernel,
   by refine ⟨.pf0, base, _, ?_, rfl, ?_, ?_⟩ <;> decide +kernel,
   by refine ⟨0, .pf1, 5, base.modH 0 (fun x =>
     { x with recorder := { reserved := [{ slots := [0], entry := { seq := 5 } }] } }), _, [], ?_, rfl, ?_, ?_⟩ <;>
     decide +kernel,
   by refine ⟨0, .inner 0, 5, base, _, ?_, rfl, ?_, ?_⟩ <;> decide +kernel,
   by refine ⟨pgH .stoker 0, 1, base.modH 0 (fun x => { x with enables := 2 }), _, ?_, ?_, ?_, ?_, ?_, rfl, ?_⟩ <;>
     decide +kernel,
   by refine ⟨pgF .damper, 1, base, ?_, ?_, ?_, ?_, ?_, ?_⟩ <;> decide +kernel,
   by refine ⟨pgH .gate 0, base, _, 0, ?_, ?_, ?_, ?_, rfl⟩ <;> decide +kernel,
   by refine ⟨vaultPage, .pf0, base, ?_, ?_, ?_, rfl⟩ <;> decide +kernel,
   by refine ⟨vaultPage, .pf1, base, ?_, ?_, ?_, ?_⟩ <;> decide +kernel,
   by refine ⟨0, 0, .inner 0, base, _, ?_, rfl, ?_, ?_, ?_, ?_, ?_⟩ <;> decide +kernel,
   by refine ⟨0, 0, .inner 0, innerHeld 0 base, _, ?_, rfl, ?_, ?_⟩ <;> decide +kernel⟩

end Sys2Proof.Tests
end

section
/-! Doorbell writes: the index that a queue pair takes or refuses (R56 to R58). -/

namespace Sys2Proof.Machine

/-- A write of four bytes with a zero upper half, to a queue pair within reach, passes on its index (R57). -/
theorem doorbell_write_of_reach {t : Queue} {data : BitVec 64} {s : State} (last : Nat) (f : Nat → State → State)
    (hr : reach t s = .ok) (hd : data.toNat < 0x10000) : doorbell t (.write 4 data) last f s = f data.toNat s := by
  have hpass : ¬((4 : Fin 9).val ≠ 4 ∨ 0x10000 ≤ data.toNat) := by
    rintro (h | h)
    · exact h rfl
    · omega
  simp only [doorbell, hr, if_neg hpass]

theorem exec_sqTailDoorbell_eq (fn : Option (Fin 512)) (off : BitVec 12) (acc : DoorAccess) (s : State) :
    exec (.sqTailDoorbell fn off acc) s = execSqTailDoorbell fn off acc s := rfl

theorem exec_cqHeadDoorbell_eq (fn : Option (Fin 512)) (off : BitVec 12) (acc : DoorAccess) (s : State) :
    exec (.cqHeadDoorbell fn off acc) s = execCqHeadDoorbell fn off acc s := rfl

theorem exec_sqTailDoorbell_write {fn : Option (Fin 512)} {off : BitVec 12} {t : Queue} {data : BitVec 64} {s : State}
    (ht : doorbellAt fn off.toNat = some (t, false)) (hr : reach t s = .ok) (hd : data.toNat < 0x10000) :
    exec (.sqTailDoorbell fn off (.write 4 data)) s = .next (acceptTail t data.toNat s) := by
  simp only [exec_sqTailDoorbell_eq, execSqTailDoorbell, ht, doSqTail, doorbell_write_of_reach _ _ hr hd]

theorem exec_cqHeadDoorbell_write {fn : Option (Fin 512)} {off : BitVec 12} {t : Queue} {data : BitVec 64} {s : State}
    (ht : doorbellAt fn off.toNat = some (t, true)) (hr : reach t s = .ok) (hd : data.toNat < 0x10000) :
    exec (.cqHeadDoorbell fn off (.write 4 data)) s = .next (acceptHead t data.toNat s) := by
  simp only [exec_cqHeadDoorbell_eq, execCqHeadDoorbell, ht, doCqHead, doorbell_write_of_reach _ _ hr hd]

theorem acceptTail_of_depth_le {t : Queue} {n : Nat} {s : State} (h : s.sqDepth t ≤ n) :
    acceptTail t n s = qpError t errDoorbell s := if_pos h

theorem acceptHead_of_outside {t : Queue} {n : Nat} {s : State}
    (h : s.cqDepth t ≤ n ∨ (s.qp t).occ < (n + s.cqDepth t - (s.qp t).cqHead % s.cqDepth t) % s.cqDepth t) :
    acceptHead t n s = qpError t errCqHead s := if_pos h

/-- Settles O13: the write reaches the acceptance of the index, and its range check puts the queue pair into error (R58). -/
theorem doorbellRangeErrors : Obligations.DoorbellRangeErrors := by
  unfold Obligations.DoorbellRangeErrors
  refine ⟨fun fn off t data s ht hr hd hn => ?_, fun fn off t data s ht hr hd hn => ?_⟩
  · rw [exec_sqTailDoorbell_write ht hr hd, acceptTail_of_depth_le hn, qpError, errDoorbell]
  · rw [exec_cqHeadDoorbell_write ht hr hd, acceptHead_of_outside hn, qpError, errCqHead]

end Sys2Proof.Machine
end

section
/-! The fields of the function table, 128 bits an entry (R52), and the entry that BIND_VF leaves (R109). -/

namespace Sys2Proof.Machine

/-! ### Function-table entries -/

/-- The place of a field in the first entry of its page. -/
def ftBit (f : Nat → Fld) : Nat := (f 0).off * 8 + (f 0).lo

/-- The field stands at the same place within every entry. -/
def InEntry (f : Nat → Fld) : Prop :=
  (512 ≤ ftBit f ∧ ftBit f < 640) ∧ ∀ i, (f i).off * 8 + (f i).lo = 128 * i + ftBit f

theorem ftPage_ne {v w : Nat} (hv : v < 512) (hw : w < 512) (h : w / 128 ≠ v / 128) : ftPage w ≠ ftPage v := by
  intro e
  have hi := congrArg (fun p => p.inst.val) e
  simp only [ftPage, pgF, Fin.val_ofNat] at hi
  omega

/-- Another field of the entry, or a field of another VF's, is another register. -/
theorem regKey_ft_ne {v w : Nat} {f g : Nat → Fld} (hf : InEntry f) (hg : InEntry g) (hv : v < 512) (hw : w < 512)
    (h : w ≠ v ∨ ftBit g ≠ ftBit f) : regKey (ftPage w) (g (w % 128)) ≠ regKey (ftPage v) (f (v % 128)) := by
  by_cases hp : w / 128 = v / 128
  · apply regKey_ne_bits
    rw [hf.2, hg.2]
    obtain ⟨⟨hf0, hf1⟩, -⟩ := hf
    obtain ⟨⟨hg0, hg1⟩, -⟩ := hg
    omega
  · exact regKey_ne_page _ _ _ _ (ftPage_ne hv hw hp)

theorem State.ft_setFt (s : State) (v : Nat) (f : Nat → Fld) (x : Nat) (hs : s.regs.Rising) :
    (s.setFt v f x).ft v f = x % 2 ^ (f (v % 128)).w := State.rd_wr _ _ _ _ hs

theorem State.ft_setFt_ne (s : State) {v w : Nat} {f g : Nat → Fld} (x : Nat) (hf : InEntry f) (hg : InEntry g)
    (hv : v < 512) (hw : w < 512) (h : w ≠ v ∨ ftBit g ≠ ftBit f) : (s.setFt v f x).ft w g = s.ft w g :=
  State.rd_wr_ne _ _ _ _ _ _ (regKey_ft_ne hf hg hv hw h)

@[simp] theorem State.modVf_ft (s : State) (v : Nat) (x : Vf → Vf) (w : Nat) (f : Nat → Fld) :
    (s.modVf v x).ft w f = s.ft w f := rfl

/-- The fields of a VF's entry set in turn. -/
def State.setFields (v : Nat) : List ((Nat → Fld) × Nat) → State → State
  | [], s => s
  | e :: l, s => State.setFields v l (s.setFt v e.1 e.2)

/-- A field that the list does not name, or of another VF, is left alone. -/
theorem State.ft_setFields_ne {v w : Nat} {g : Nat → Fld} (hg : InEntry g) (hv : v < 512) (hw : w < 512)
    (l : List ((Nat → Fld) × Nat)) (s : State) (hl : ∀ e ∈ l, InEntry e.1) (h : w ≠ v ∨ ftBit g ∉ l.map (fun e => ftBit e.1)) :
    (State.setFields v l s).ft w g = s.ft w g := by
  induction l generalizing s with
  | nil => rfl
  | cons e l ih =>
    rw [List.forall_mem_cons] at hl
    rw [List.map_cons, List.mem_cons, not_or] at h
    calc (State.setFields v (e :: l) s).ft w g
        = (s.setFt v e.1 e.2).ft w g := ih _ hl.2 (h.imp_right And.right)
      _ = s.ft w g := s.ft_setFt_ne _ hl.1 hg hv hw (h.imp_right And.left)

/-- Fields at distinct places read back what was set, where it fits them. -/
theorem State.ft_setFields {v : Nat} (hv : v < 512) (l : List ((Nat → Fld) × Nat)) (s : State) (hs : s.regs.Rising)
    (hl : ∀ e ∈ l, InEntry e.1) (hd : (l.map (fun e => ftBit e.1)).Nodup) (hx : ∀ e ∈ l, ∀ i, e.2 < 2 ^ (e.1 i).w) :
    ∀ e ∈ l, (State.setFields v l s).ft v e.1 = e.2 := by
  induction l generalizing s with
  | nil => simp
  | cons a l ih =>
    simp only [List.forall_mem_cons] at hl hx ⊢
    obtain ⟨hal, hd⟩ := List.nodup_cons.1 hd
    refine ⟨?_, ih _ (State.setFt_rising _ _ _ _ hs) hl.2 hd hx.2⟩
    calc (State.setFields v (a :: l) s).ft v a.1
        = (s.setFt v a.1 a.2).ft v a.1 := State.ft_setFields_ne hl.1 hv hv l _ hl.2 (.inr hal)
      _ = a.2 % 2 ^ (a.1 (v % 128)).w := s.ft_setFt _ _ _ hs
      _ = a.2 := Nat.mod_eq_of_lt (hx.1 _)

/-! ### What BIND_VF leaves -/

/-- The fields of the entry that BIND_VF sets, and their values (R109). -/
def bindFields (h owner grant infl : Nat) : List ((Nat → Fld) × Nat) :=
  [(Reg.FT_HEARTH, h), (Reg.FT_BOUND, 1), (Reg.FT_DAMPER, dampOpen), (Reg.FT_OWNER_ID, owner), (Reg.FT_QP_GRANT, grant),
   (Reg.FT_INFLIGHT_MAX, infl), (Reg.FT_DRAUGHT_WEIGHT, 1), (Reg.FT_DRAUGHT_RATE, 0), (Reg.FT_DRAUGHT_BURST, 64),
   (Reg.FT_SHARE_CIPHER, 8), (Reg.FT_SHARE_HASH, 4), (Reg.FT_SHARE_BIGNUM, 4), (Reg.FT_SHARE_BURNER, 4)]

theorem bindEntry_eq_setFields (v h owner grant infl : Nat) (s : State) :
    bindEntry v h owner grant infl s = State.setFields v (bindFields h owner grant infl) s := rfl

theorem bindFields_inEntry (h owner grant infl : Nat) : ∀ e ∈ bindFields h owner grant infl, InEntry e.1 := by
  simp +arith [bindFields, InEntry, ftBit, Reg.FT_HEARTH, Reg.FT_BOUND, Reg.FT_DAMPER, Reg.FT_OWNER_ID, Reg.FT_QP_GRANT,
    Reg.FT_INFLIGHT_MAX, Reg.FT_DRAUGHT_WEIGHT, Reg.FT_DRAUGHT_RATE, Reg.FT_DRAUGHT_BURST, Reg.FT_SHARE_CIPHER,
    Reg.FT_SHARE_HASH, Reg.FT_SHARE_BIGNUM, Reg.FT_SHARE_BURNER]

theorem bindFields_places (h owner grant infl : Nat) : (bindFields h owner grant infl).map (fun e => ftBit e.1) =
    [512, 516, 517, 528, 544, 560, 576, 586, 596, 608, 612, 616, 620] := by
  simp only [bindFields, List.map_cons, List.map_nil]
  rfl

theorem bindFields_apart (h owner grant infl : Nat) :
    ((bindFields h owner grant infl).map (fun e => ftBit e.1)).Nodup := by
  rw [bindFields_places]
  decide

theorem bindFields_fit {h owner grant infl : Nat} (hh : h < 16) (ho : owner < 0xFF00) (hg : grant ≤ 8) (hi : infl ≤ 2016) :
    ∀ e ∈ bindFields h owner grant infl, ∀ i, e.2 < 2 ^ (e.1 i).w := by
  have owner16 : owner < 65536 := by omega
  have grant4 : grant < 16 := by omega
  have infl11 : infl < 2048 := by omega
  simp [bindFields, dampOpen, hh, owner16, grant4, infl11, Reg.FT_HEARTH, Reg.FT_BOUND, Reg.FT_DAMPER, Reg.FT_OWNER_ID,
    Reg.FT_QP_GRANT, Reg.FT_INFLIGHT_MAX, Reg.FT_DRAUGHT_WEIGHT, Reg.FT_DRAUGHT_RATE, Reg.FT_DRAUGHT_BURST,
    Reg.FT_SHARE_CIPHER, Reg.FT_SHARE_HASH, Reg.FT_SHARE_BIGNUM, Reg.FT_SHARE_BURNER]

theorem ftPage_ne_kpPage (v h : Nat) : ftPage v ≠ kpPage h := by
  intro e
  exact absurd (congrArg Page.kind e) (by simp [ftPage, kpPage, pgF, pgH])

/-- A position taken stands in the hearth's key-policy page: the function table is unchanged (R177). -/
theorem takePosition_ft (h v owner p : Nat) (s : State) (w : Nat) (f : Nat → Fld) :
    (takePosition h v owner p s).ft w f = s.ft w f := by
  simp [takePosition, State.ft, State.rd_wr_page, ftPage_ne_kpPage]

@[simp] theorem takePosition_posOf (h v owner p : Nat) (s : State) : (takePosition h v owner p s).posOf v = p := by
  simp [takePosition, State.posOf, State.vf, State.modVf]

/-- The part after BIND_VF has acted, at position `p` of the hearth. -/
def afterBind (v h owner grant infl p : Nat) (s : State) : State :=
  takePosition h v owner p ((bindEntry v h owner grant infl s).modVf v (fun _ => { tokens := 64 }))

theorem afterBind_ft (v h owner grant infl p : Nat) (s : State) (w : Nat) (f : Nat → Fld) :
    (afterBind v h owner grant infl p s).ft w f = (State.setFields v (bindFields h owner grant infl) s).ft w f := by
  rw [afterBind, takePosition_ft, State.modVf_ft, bindEntry_eq_setFields]

@[simp] theorem afterBind_posOf (v h owner grant infl p : Nat) (s : State) : (afterBind v h owner grant infl p s).posOf v = p :=
  takePosition_posOf _ _ _ _ _

@[simp] theorem afterBind_hearths (v h owner grant infl p : Nat) (s : State) :
    (afterBind v h owner grant infl p s).hearths = s.hearths := by simp [afterBind, takePosition, bindEntry]

@[simp] theorem afterBind_chim (v h owner grant infl p : Nat) (s : State) :
    (afterBind v h owner grant infl p s).chim = s.chim := by simp [afterBind, takePosition, bindEntry]

@[simp] theorem afterBind_out (v h owner grant infl p : Nat) (s : State) :
    (afterBind v h owner grant infl p s).out = s.out := by simp [afterBind, takePosition, bindEntry]

/-- What BIND_VF asks of the state (R108, R561): an unbound VF, a hearth that may take it with room for its grant, the free position
`p`, and a lifecycle state that allows it. -/
structure MayBind (s : State) (v h grant p : Nat) : Prop where
  unbound   : s.bound v = false
  notFatal  : s.hState h ≠ hsFatal
  started   : (s.H h).needStart = false
  lifecycle : lcState s = lcVendorTest ∨ lcState s = lcOwned ∨ lcState s = lcOperational
  position  : freePosition s h = some p
  room      : roomAt s h v grant = true

/-- The consumption of the descriptor leaves what BIND_VF asks. -/
theorem MayBind.adminFrom {s : State} {v h grant p : Nat} (m : MayBind s v h grant p) (r : AdminReq) :
    MayBind (adminFrom r s) v h grant p :=
  ⟨m.unbound, m.notFatal, m.started, m.lifecycle, m.position, m.room⟩

theorem MayBind.grant_le {s : State} {v h grant p : Nat} (m : MayBind s v h grant p) : grant ≤ 8 := by
  have room := m.room
  simp only [roomAt, Bool.and_eq_true, decide_eq_true_eq] at room
  exact room.1.1

theorem bindVf_of_mayBind {v p : Nat} {r : AdminReq} {s : State} (m : MayBind s v (oByte r 2) (oByte r 6) p) :
    bindVf v r s = (afterBind v (oByte r 2) (oHalf r 4) (oByte r 6) (oHalf r 8) p s, admOk) := by
  obtain ⟨unbound, notFatal, started, lifecycle, position, room⟩ := m
  have hgo : ¬(s.bound v = true ∨ s.hState (oByte r 2) = hsFatal ∨ (s.H (oByte r 2)).needStart = true
      ∨ ¬(lcState s = lcVendorTest ∨ lcState s = lcOwned ∨ lcState s = lcOperational)) := by
    simp [unbound, notFatal, started, lifecycle]
  simp only [bindVf, if_neg hgo, position, room, Bool.not_true, Bool.false_eq_true, if_false, afterBind]

theorem ownVf_badBind_none {s : State} {d : Bytes} (hv : dHalf d 0 < s.flue.numVfs ∧ dHalf d 0 < 512)
    (he : s.enabled (dByte d 2) = true) (ho : 1 ≤ dHalf d 4 ∧ dHalf d 4 < 0xFF00) (hi : 1 ≤ dHalf d 8 ∧ dHalf d 8 ≤ 2016) :
    ownVf badBind s d = none := by
  have hgood : badBind s d = false := by
    simp only [badBind, he, Bool.not_true, Bool.false_or, Bool.or_eq_false_iff, beq_eq_false_iff_ne, decide_eq_false_iff_not]
    omega
  simp [ownVf, ownRange, hgood, hv]

theorem afterBind_ft_mem {v h owner grant infl : Nat} (p : Nat) {s : State} (hs : s.regs.Rising) (hv : v < 512) (hh : h < 16)
    (ho : owner < 0xFF00) (hg : grant ≤ 8) (hi : infl ≤ 2016) :
    ∀ e ∈ bindFields h owner grant infl, (afterBind v h owner grant infl p s).ft v e.1 = e.2 := by
  intro e he
  rw [afterBind_ft]
  exact State.ft_setFields hv _ s hs (bindFields_inEntry _ _ _ _) (bindFields_apart _ _ _ _) (bindFields_fit hh ho hg hi) e he

theorem afterBind_ft_other {v w : Nat} (h owner grant infl p : Nat) (s : State) (hv : v < 512) (hw : w < 512) (hne : w ≠ v) :
    ∀ e ∈ bindFields h owner grant infl, (afterBind v h owner grant infl p s).ft w e.1 = s.ft w e.1 := by
  intro e he
  rw [afterBind_ft]
  exact State.ft_setFields_ne (bindFields_inEntry _ _ _ _ e he) hv hw _ s (bindFields_inEntry _ _ _ _) (.inl hne)

theorem exec_bindVf_of_mayBind {q : Fin 4} {rd : AdminRead} {r : AdminReq} {s : State} {p : Nat} (a : AdminAt s 0x0801 q rd r)
    (hown : ownVf badBind s r.desc = none) (m : MayBind s (oHalf r 0) (oByte r 2) (oByte r 6) p) :
    exec (.bindVf q rd) s = .next (adminDone r stOK [] []
      (afterBind (oHalf r 0) (oByte r 2) (oHalf r 4) (oByte r 6) (oHalf r 8) p (adminFrom r s))) :=
  calc exec (.bindVf q rd) s
      = .next (adminEnd r (bindVf (oHalf r 0) r (adminFrom r s))) := adminRow_of a (a.desc ▸ hown)
    _ = _ := by rw [bindVf_of_mayBind (m.adminFrom r)]; rfl

/-- Settles O33: BIND_VF sets the 13 fields of the VF's entry, each another register than those of the other entries and of the
key-policy page, and each wide enough for its value (R109). -/
theorem bindVfSetsDefaults : Obligations.BindVfSetsDefaults := by
  unfold Obligations.BindVfSetsDefaults
  rintro q rd r s v h owner grant infl p hs a rfl rfl rfl rfl rfl hvn hv hb hh he ho hi hl hf hn hp hr
  have m : MayBind s (oHalf r 0) (oByte r 2) (oByte r 6) p := ⟨hb, hf, hn, hl, hp, hr⟩
  have hrise : (adminFrom r s).regs.Rising := (Tab.sorted_iff _).1 hs
  have hset := afterBind_ft_mem p hrise hv hh ho.2 m.grant_le hi.2
  simp only [bindFields, List.forall_mem_cons] at hset
  obtain ⟨hHearth, hBound, hDamper, hOwner, hGrant, hInflight, hWeight, hRate, hBurst, hCipher, hHash, hBignum, hBurner, -⟩ := hset
  have hown : ownVf badBind s r.desc = none := ownVf_badBind_none ⟨hvn, hv⟩ he ho hi
  refine ⟨_, exec_bindVf_of_mayBind a hown m, ?_, hHearth, hOwner, hGrant, hInflight,
    hDamper, hWeight, hRate, hBurst, hCipher, hHash, hBignum, hBurner, ?_, ?_, ?_, ?_, ?_⟩
  · rw [State.bound, hBound]; rfl
  · rw [afterBind_posOf]
  · rw [afterBind_hearths, adminFrom_hearths]
  · rw [afterBind_chim, adminFrom_chim]
  · rw [afterBind_out, adminFrom_out]
  · intro w hw hne
    have hother := afterBind_ft_other (oByte r 2) (oHalf r 4) (oByte r 6) (oHalf r 8) p (adminFrom r s) hv hw hne
    rw [adminFrom_ft] at hother
    simpa only [bindFields, List.forall_mem_cons, List.not_mem_nil, false_imp_iff, implies_true] using hother

end Sys2Proof.Machine
end

section
/-! The integer registers and the pc that a world transit passes, clears, banks and restores (R524, R525). -/

namespace Sys2Proof.Machine

theorem keepRegs_getD (keep : Nat → Bool) (r : List (BitVec 64)) {i : Nat} (hi : i < 31) :
    (keepRegs keep r).getD i 0 = if keep (i + 1) then r.getD i 0 else 0 := by
  simp [keepRegs, hi]

/-- A transit that admits every register leaves a full register file as it is. -/
theorem keepRegs_true {r : List (BitVec 64)} (hr : r.length = 31) : keepRegs (fun _ => true) r = r := by
  apply List.ext_getElem
  · simp [keepRegs, hr]
  · intro i _ hi
    simp [keepRegs, hi]

theorem crossWorld_call_getD (s : State) (h c n : Nat) (x : Core) {i : Nat} (hi : i < 31) :
    (crossWorld s h c .call n x).regs.getD i 0 = if 10 ≤ i + 1 ∧ i + 1 ≤ 15 then x.regs.getD i 0 else 0 := by
  have hkeep := keepRegs_getD (fun i => decide (10 ≤ i ∧ i ≤ 15)) x.regs hi
  simpa only [crossWorld, decide_eq_true_eq] using hkeep

/-- x10 and x11 alone pass into the outer world (R525). -/
theorem keepRegs_results_getD (r : List (BitVec 64)) {i : Nat} (hi : i < 31) :
    (keepRegs (fun i => i == 10 || i == 11) r).getD i 0 = if i + 1 = 10 ∨ i + 1 = 11 then r.getD i 0 else 0 := by
  simpa only [Bool.or_eq_true, beq_iff_eq] using keepRegs_getD (fun i => i == 10 || i == 11) r hi

theorem crossWorld_interrupt_getD (s : State) (h c n : Nat) (x : Core) {i : Nat} (hi : i < 31) :
    (crossWorld s h c .interrupt n x).regs.getD i 0 = 0 :=
  keepRegs_getD (fun _ => false) x.regs hi

theorem crossWorld_interrupt_bank (s : State) (h c n : Nat) {x : Core} (hx : x.regs.length = 31) :
    (crossWorld s h c .interrupt n x).bank = x.regs ++ [x.pc] :=
  congrArg (· ++ [x.pc]) (keepRegs_true hx)

/-- RESUME takes the registers and the pc from the bank that an INTERRUPT fills. -/
theorem crossWorld_resume_of_bank (s : State) (h c n : Nat) {y : Core} {r : List (BitVec 64)} {pc : BitVec 64}
    (hr : r.length = 31) (hb : y.bank = r ++ [pc]) :
    (crossWorld s h c .resume n y).regs = r ∧ (crossWorld s h c .resume n y).pc = pc := by
  constructor
  · calc y.bank.take 31 = (r ++ [pc]).take r.length := by rw [hb, hr]
      _ = r := List.take_left
  · calc y.bank.getD 31 0 = (r ++ [pc]).getD r.length 0 := by rw [hb, hr]
      _ = pc := by simp

/-- Settles O52: each transit's row of R524; a RESUME after an INTERRUPT gives back what the bank holds. -/
theorem transitRegisters : Obligations.TransitRegisters := by
  unfold Obligations.TransitRegisters
  intro s h c n x hx
  have hbank := crossWorld_interrupt_bank s h c n hx
  obtain ⟨hregs, hpc⟩ := crossWorld_resume_of_bank s h c n hx hbank
  refine ⟨⟨rfl, rfl, ?call⟩, ⟨rfl, rfl, ?ret⟩, ⟨rfl, rfl, ?dispatch⟩, ⟨rfl, rfl, hbank, ?interrupt⟩, hregs, hpc, rfl⟩
  case call => exact fun i hi => crossWorld_call_getD s h c n x hi
  case ret => exact fun i hi => keepRegs_results_getD x.regs hi
  case dispatch => exact fun i hi => keepRegs_results_getD x.regs hi
  case interrupt => exact fun i hi => crossWorld_interrupt_getD s h c n x hi

end Sys2Proof.Machine
end

section
/-! What every command has in common: the effects of each (`Keeps`), and the answer of each. -/

namespace Sys2Proof.Machine

/-- Whatever the command, what it leaves comes from its state by effects of commands. -/
theorem exec_keeps {a s : State} (k : Keeps a s) : ∀ (c : Instr) (t : State), exec c s = .next t → Keeps a t := by
  intro c t e
  exact match c, e with
  | .sqTailDoorbell .., e => execSqTailDoorbell_keeps k t e
  | .cqHeadDoorbell .., e => execCqHeadDoorbell_keeps k t e
  | .unboundVfAccess .., e => execUnboundVfAccess_keeps k t e
  | .qpEnable .., e => execQpEnable_keeps k t e
  | .qpDisable .., e => execQpDisable_keeps k t e
  | .descriptorFetch .., e => execDescriptorFetch_keeps k t e
  | .keywaitUnwrapDone .., e => execKeywaitUnwrapDone_keeps k t e
  | .jobDispatch .., e => execJobDispatch_keeps k t e
  | .engineJobEnd .., e => execEngineJobEnd_keeps k t e
  | .completionWritten .., e => execCompletionWritten_keeps k t e
  | .qpCoalTimeout .., e => execQpCoalTimeout_keeps k t e
  | .stkClassBlocked .., e => execStkClassBlocked_keeps k t e
  | .entropyWaitTimeout .., e => execEntropyWaitTimeout_keeps k t e
  | .yieldPointSaveDone .., e => execYieldPointSaveDone_keeps k t e
  | .jobResumeRestoreDone .., e => execJobResumeRestoreDone_keeps k t e
  | .hobBatchRelease .., e => execHobBatchRelease_keeps k t e
  | .turnoverEnd .., e => execTurnoverEnd_keeps k t e
  | .lockScrubDone .., e => execLockScrubDone_keeps k t e
  | .operandClearDone .., e => execOperandClearDone_keeps k t e
  | .pageLockWrite .., e => execPageLockWrite_keeps k t e
  | .ceStart .., e => execCeStart_keeps k t e
  | .heStart .., e => execHeStart_keeps k t e
  | .bnStart .., e => execBnStart_keeps k t e
  | .bnClear .., e => execBnClear_keeps k t e
  | .bnWindowAccess .., e => execBnWindowAccess_keeps k t e
  | .katReq .., e => execKatReq_keeps k t e
  | .katPeriodExpiry .., e => execKatPeriodExpiry_keeps k t e
  | .katStart .., e => execKatStart_keeps k t e
  | .katDone .., e => execKatDone_keeps k t e
  | .mgReseedDue .., e => execMgReseedDue_keeps k t e
  | .mgPrefetch .., e => execMgPrefetch_keeps k t e
  | .mgSeedArrival .., e => execMgSeedArrival_keeps k t e
  | .stkModeWrite .., e => execStkModeWrite_keeps k t e
  | .hobModeWrite .., e => execHobModeWrite_keeps k t e
  | .pinfailClr .., e => execPinfailClr_keeps k t e
  | .dtValidWrite .., e => execDtValidWrite_keeps k t e
  | .keyUnwrap .., e => execKeyUnwrap_keeps k t e
  | .keyWrap .., e => execKeyWrap_keeps k t e
  | .keyGenerate .., e => execKeyGenerate_keeps k t e
  | .keyEvict .., e => execKeyEvict_keeps k t e
  | .keyInfo .., e => execKeyInfo_keeps k t e
  | .keyDerive .., e => execKeyDerive_keeps k t e
  | .keyExportKw .., e => execKeyExportKw_keeps k t e
  | .keyImportKw .., e => execKeyImportKw_keeps k t e
  | .transportCert .., e => execTransportCert_keeps k t e
  | .keyExportTransport .., e => execKeyExportTransport_keeps k t e
  | .keyImportTransport .., e => execKeyImportTransport_keeps k t e
  | .keyblockImport .., e => execKeyblockImport_keeps k t e
  | .keyblockExport .., e => execKeyblockExport_keeps k t e
  | .encrypt .., e => execEncrypt_keeps k t e
  | .decrypt .., e => execDecrypt_keeps k t e
  | .hash .., e => execHash_keeps k t e
  | .xof .., e => execXof_keeps k t e
  | .macGenerate .., e => execMacGenerate_keeps k t e
  | .macVerify .., e => execMacVerify_keeps k t e
  | .pkSign .., e => execPkSign_keeps k t e
  | .pkVerify .., e => execPkVerify_keeps k t e
  | .pkPublic .., e => execPkPublic_keeps k t e
  | .keyAgree .., e => execKeyAgree_keeps k t e
  | .kemEncaps .., e => execKemEncaps_keeps k t e
  | .kemDecaps .., e => execKemDecaps_keeps k t e
  | .rsaOaepImport .., e => execRsaOaepImport_keeps k t e
  | .clearOperands .., e => execClearOperands_keeps k t e
  | .pinTranslate .., e => execPinTranslate_keeps k t e
  | .pinVerify .., e => execPinVerify_keeps k t e
  | .pinValueCalc .., e => execPinValueCalc_keeps k t e
  | .cardValueGenerate .., e => execCardValueGenerate_keeps k t e
  | .cardValueVerify .., e => execCardValueVerify_keeps k t e
  | .payMacGenerate .., e => execPayMacGenerate_keeps k t e
  | .payMacVerify .., e => execPayMacVerify_keeps k t e
  | .emvCryptogram .., e => execEmvCryptogram_keeps k t e
  | .randomGenerate .., e => execRandomGenerate_keeps k t e
  | .entropyStatus .., e => execEntropyStatus_keeps k t e
  | .groupOpen .., e => execGroupOpen_keeps k t e
  | .groupCommit .., e => execGroupCommit_keeps k t e
  | .groupAbort .., e => execGroupAbort_keeps k t e
  | .groupQuery .., e => execGroupQuery_keeps k t e
  | .groupEvent .., e => execGroupEvent_keeps k t e
  | .groupCommitApply .., e => execGroupCommitApply_keeps k t e
  | .groupRollback .., e => execGroupRollback_keeps k t e
  | .groupIdleTimeout .., e => execGroupIdleTimeout_keeps k t e
  | .gangVote .., e => execGangVote_keeps k t e
  | .gangTimeout .., e => execGangTimeout_keeps k t e
  | .vaultStepDone .., e => execVaultStepDone_keeps k t e
  | .gangCommitMsg .., e => execGangCommitMsg_keeps k t e
  | .gangAbortMsg .., e => execGangAbortMsg_keeps k t e
  | .bindVf .., e => execBindVf_keeps k t e
  | .unbindVf .., e => execUnbindVf_keeps k t e
  | .moveVf .., e => execMoveVf_keeps k t e
  | .resetVf .., e => execResetVf_keeps k t e
  | .setQpGrant .., e => execSetQpGrant_keeps k t e
  | .setDraught .., e => execSetDraught_keeps k t e
  | .setEngineShare .., e => execSetEngineShare_keeps k t e
  | .setDamperOpen .., e => execSetDamperOpen_keeps k t e
  | .setDamperThrottle .., e => execSetDamperThrottle_keeps k t e
  | .setDamperClose .., e => execSetDamperClose_keeps k t e
  | .setDamperCloseWait .., e => execSetDamperCloseWait_keeps k t e
  | .setCompat .., e => execSetCompat_keeps k t e
  | .setInflight .., e => execSetInflight_keeps k t e
  | .stackDefine .., e => execStackDefine_keeps k t e
  | .slotUpdate .., e => execSlotUpdate_keeps k t e
  | .slotTableLoad .., e => execSlotTableLoad_keeps k t e
  | .ownershipBegin .., e => execOwnershipBegin_keeps k t e
  | .ownershipAuthorise .., e => execOwnershipAuthorise_keeps k t e
  | .ownershipComplete .., e => execOwnershipComplete_keeps k t e
  | .ceremonyExpiry, e => execCeremonyExpiry_keeps k t e
  | .tamperLogExport .., e => execTamperLogExport_keeps k t e
  | .dumpOpen .., e => execDumpOpen_keeps k t e
  | .dumpClear .., e => execDumpClear_keeps k t e
  | .imageLoad .., e => execImageLoad_keeps k t e
  | .hearthStart .., e => execHearthStart_keeps k t e
  | .hearthStarted .., e => execHearthStarted_keeps k t e
  | .hearthReset .., e => execHearthReset_keeps k t e
  | .lifecycleAdvance .., e => execLifecycleAdvance_keeps k t e
  | .fuseProgram .., e => execFuseProgram_keeps k t e
  | .rollbackAdvance .., e => execRollbackAdvance_keeps k t e
  | .vfFlr .., e => execVfFlr_keeps k t e
  | .flrAbortDone .., e => execFlrAbortDone_keeps k t e
  | .pf0Flr, e => execPf0Flr_keeps k t e
  | .vfEnableClear, e => execVfEnableClear_keeps k t e
  | .hotReset, e => execHotReset_keeps k t e
  | .linkDown, e => execLinkDown_keeps k t e
  | .linkTrained .., e => execLinkTrained_keeps k t e
  | .perstNAssert, e => execPerstNAssert_keeps k t e
  | .pf0PowerState .., e => execPf0PowerState_keeps k t e
  | .ideKm .., e => execIdeKm_keeps k t e
  | .ideStreamInsecure .., e => execIdeStreamInsecure_keeps k t e
  | .getTdispVersion .., e => execGetTdispVersion_keeps k t e
  | .getTdispCapabilities .., e => execGetTdispCapabilities_keeps k t e
  | .lockInterface .., e => execLockInterface_keeps k t e
  | .getDeviceInterfaceReport .., e => execGetDeviceInterfaceReport_keeps k t e
  | .getDeviceInterfaceState .., e => execGetDeviceInterfaceState_keeps k t e
  | .startInterface .., e => execStartInterface_keeps k t e
  | .stopInterface .., e => execStopInterface_keeps k t e
  | .getVersion .., e => execGetVersion_keeps k t e
  | .getCapabilities .., e => execGetCapabilities_keeps k t e
  | .negotiateAlgorithms .., e => execNegotiateAlgorithms_keeps k t e
  | .getDigests .., e => execGetDigests_keeps k t e
  | .getCertificate .., e => execGetCertificate_keeps k t e
  | .challenge .., e => execChallenge_keeps k t e
  | .getMeasurements .., e => execGetMeasurements_keeps k t e
  | .keyExchange .., e => execKeyExchange_keeps k t e
  | .finish .., e => execFinish_keeps k t e
  | .keyUpdate .., e => execKeyUpdate_keeps k t e
  | .heartbeat .., e => execHeartbeat_keeps k t e
  | .endSession .., e => execEndSession_keeps k t e
  | .identityKeyReady .., e => execIdentityKeyReady_keeps k t e
  | .emberBanking, e => execEmberBanking_keeps k t e
  | .bankPeriodWrite .., e => execBankPeriodWrite_keeps k t e
  | .shadowReloadDone .., e => execShadowReloadDone_keeps k t e
  | .kcBankPass .., e => execKcBankPass_keeps k t e
  | .kcBankRetry .., e => execKcBankRetry_keeps k t e
  | .kcFlush .., e => execKcFlush_keeps k t e
  | .rawSample .., e => execRawSample_keeps k t e
  | .conditionerBlock .., e => execConditionerBlock_keeps k t e
  | .startupTestDone .., e => execStartupTestDone_keeps k t e
  | .drbgInstantiate .., e => execDrbgInstantiate_keeps k t e
  | .drbgGenerate .., e => execDrbgGenerate_keeps k t e
  | .drbgReseed .., e => execDrbgReseed_keeps k t e
  | .entRestart .., e => execEntRestart_keeps k t e
  | .entRetest .., e => execEntRetest_keeps k t e
  | .entTestDone .., e => execEntTestDone_keeps k t e
  | .entPolicyWrite .., e => execEntPolicyWrite_keeps k t e
  | .entDataRead .., e => execEntDataRead_keeps k t e
  | .entRawRead .., e => execEntRawRead_keeps k t e
  | .memoryAccess .., e => execMemoryAccess_keeps k t e
  | .memInit .., e => execMemInit_keeps k t e
  | .memTrainingDone .., e => execMemTrainingDone_keeps k t e
  | .patrolScrub .., e => execPatrolScrub_keeps k t e
  | .rngInit .., e => execRngInit_keeps k t e
  | .memRangeReady .., e => execMemRangeReady_keeps k t e
  | .reencryptionDone .., e => execReencryptionDone_keeps k t e
  | .ownGo .., e => execOwnGo_keeps k t e
  | .ownershipSync .., e => execOwnershipSync_keeps k t e
  | .ownershipSyncDone .., e => execOwnershipSyncDone_keeps k t e
  | .mpuSync .., e => execMpuSync_keeps k t e
  | .mpuSyncDone .., e => execMpuSyncDone_keeps k t e
  | .gateCall .., e => execGateCall_keeps k t e
  | .gateReturn .., e => execGateReturn_keeps k t e
  | .gateResume .., e => execGateResume_keeps k t e
  | .gateDispatch .., e => execGateDispatch_keeps k t e
  | .gateInterrupt .., e => execGateInterrupt_keeps k t e
  | .gateFault .., e => execGateFault_keeps k t e
  | .gateTransitDone .., e => execGateTransitDone_keeps k t e
  | .coreRelease .., e => execCoreRelease_keeps k t e
  | .firmwareFatal .., e => execFirmwareFatal_keeps k t e
  | .coreLockup .., e => execCoreLockup_keeps k t e
  | .dumpWriteDone .., e => execDumpWriteDone_keeps k t e
  | .dbgNewChallenge .., e => execDbgNewChallenge_keeps k t e
  | .dbgSubmit .., e => execDbgSubmit_keeps k t e
  | .dbgTokenCheckDone, e => execDbgTokenCheckDone_keeps k t e
  | .dbgRevoke .., e => execDbgRevoke_keeps k t e
  | .dbgExpiry .., e => execDbgExpiry_keeps k t e
  | .pwrTargetWrite .., e => execPwrTargetWrite_keeps k t e
  | .h1Entry .., e => execH1Entry_keeps k t e
  | .h1Wake .., e => execH1Wake_keeps k t e
  | .h2Entry .., e => execH2Entry_keeps k t e
  | .h2ExitDone .., e => execH2ExitDone_keeps k t e
  | .h3Entry .., e => execH3Entry_keeps k t e
  | .profileWrite .., e => execProfileWrite_keeps k t e
  | .pwrProfileDone .., e => execPwrProfileDone_keeps k t e
  | .flattenWrite .., e => execFlattenWrite_keeps k t e
  | .pwrBlkReqWrite .., e => execPwrBlkReqWrite_keeps k t e
  | .blockPowerDone .., e => execBlockPowerDone_keeps k t e
  | .pwrHoldWrite .., e => execPwrHoldWrite_keeps k t e
  | .tamperTrip .., e => execTamperTrip_keeps k t e
  | .quenchDone, e => execQuenchDone_keeps k t e
  | .tmpTrigger .., e => execTmpTrigger_keeps k t e
  | .tmpFwTrigger .., e => execTmpFwTrigger_keeps k t e
  | .tmpRelease .., e => execTmpRelease_keeps k t e
  | .tmpLock .., e => execTmpLock_keeps k t e
  | .tmpRespWrite .., e => execTmpRespWrite_keeps k t e
  | .tmpStickyClear .., e => execTmpStickyClear_keeps k t e
  | .batterySample .., e => execBatterySample_keeps k t e
  | .supplySwitch .., e => execSupplySwitch_keeps k t e
  | .mainPowerLoss, e => execMainPowerLoss_keeps k t e
  | .porNAssert, e => execPorNAssert_keeps k t e
  | .porNDeassert, e => execPorNDeassert_keeps k t e
  | .opTimeTick, e => execOpTimeTick_keeps k t e
  | .bootGo .., e => execBootGo_keeps k t e
  | .flueImageCheckDone, e => execFlueImageCheckDone_keeps k t e
  | .bootRestart .., e => execBootRestart_keeps k t e
  | .flueFault, e => execFlueFault_keeps k t e
  | .snapGo .., e => execSnapGo_keeps k t e
  | .snapPeriodExpiry, e => execSnapPeriodExpiry_keeps k t e
  | .snapshotLatch, e => execSnapshotLatch_keeps k t e
  | .evtInject .., e => execEvtInject_keeps k t e
  | .evrFreeze .., e => execEvrFreeze_keeps k t e
  | .evrUnfreeze .., e => execEvrUnfreeze_keeps k t e
  | .evrAck .., e => execEvrAck_keeps k t e
  | .softReset .., e => execSoftReset_keeps k t e
  | .pageLockSet .., e => execPageLockSet_keeps k t e
  | .registerWrite .., e => execRegisterWrite_keeps k t e
  | .mainPowerReturn, e => execMainPowerReturn_keeps k t e
  | .perstNDeassert, e => execPerstNDeassert_keeps k t e
  | .aspmL1Entry .., e => execAspmL1Entry_keeps k t e
  | .l1Exit, e => execL1Exit_keeps k t e
  | .detectorCleared .., e => execDetectorCleared_keeps k t e
  | .vbatRestored, e => execVbatRestored_keeps k t e
  | .vaultHoldExpiry, e => execVaultHoldExpiry_keeps k t e
  | .debugHalt .., e => execDebugHalt_keeps k t e
  | .debugResume .., e => execDebugResume_keeps k t e

/-- A step takes the front of the queue, and all else comes from the state by effects of commands. -/
theorem step_keeps {s t : State} (e : step s = .next t) : ∃ rest, Keeps { s with pending := rest } t := by
  unfold step at e
  split at e
  · cases e; exact ⟨_, .refl _⟩
  · exact ⟨_, exec_keeps (.refl _) _ _ e⟩

theorem State.Canonical.of_keeps {s t : State} (h : s.Canonical) (k : Keeps s t) : t.Canonical :=
  ⟨(Tab.sorted_iff _).2 (k.regs ((Tab.sorted_iff _).1 h.regs)), fun i => (k.hearths i).ddr (h.ddr i),
    fun i => (k.hearths i).tcmIn (h.tcmIn i), fun i => (k.hearths i).tcmOut (h.tcmOut i)⟩

/-- Settles O4: the tables' form does not depend on the queue, and every command keeps it. -/
theorem stepKeepsCanonical : Obligations.StepKeepsCanonical := by
  unfold Obligations.StepKeepsCanonical
  intro s t h e
  obtain ⟨rest, k⟩ := step_keeps e
  have h' : State.Canonical { s with pending := rest } := ⟨h.regs, h.ddr, h.tcmIn, h.tcmOut⟩
  exact h'.of_keeps k

/-- Settles O5, by the effects that all commands share. -/
theorem commandsKeepQueue : Obligations.CommandsKeepQueue := by
  unfold Obligations.CommandsKeepQueue
  intro c s t e
  have k := exec_keeps (.refl s) c t e
  exact ⟨k.pending, k.variant, k.free, k.out⟩

/-- Settles O6, by the effects on the fuses that all commands share. -/
theorem fusesOnlyGrow : Obligations.FusesOnlyGrow := by
  unfold Obligations.FusesOnlyGrow
  intro s t h e
  obtain ⟨rest, k⟩ := step_keeps e
  exact k.chim.fuses h

/-- Settles O7, by the effects on the vault that all commands share. -/
theorem responsesStayGuarded : Obligations.ResponsesStayGuarded := by
  unfold Obligations.ResponsesStayGuarded
  intro s t h e
  obtain ⟨rest, k⟩ := step_keeps e
  exact k.chim.vault h

/-! ### The answer of a command -/

/-- A next state where the command is well formed, and the fault otherwise. -/
def Answers (wf : Bool) (x : Result) : Prop := (wf = true → ∃ t, x = .next t) ∧ (wf = false → x = .fault .illFormed)

theorem answers_next (t : State) : Answers true (.next t) := ⟨fun _ => ⟨t, rfl⟩, fun h => nomatch h⟩

theorem answers_ite (b : Bool) (t : State) : Answers b (if b then .next t else .fault .illFormed) := by
  cases b <;> simp [Answers]

theorem answers_adminRow (op : Nat) (q : Fin 4) (rd : AdminRead) (own : State → Bytes → Option Nat)
    (body : AdminReq → State → State × Adm) (s : State) : Answers rd.wf (adminRow op q rd own body s) := answers_ite _ _

/-- A row that leaves a well-formed descriptor at the head of its queue in some case. -/
theorem answers_waiting {wf : Bool} {p : Prop} [Decidable p] (s : State) {x : Result} (h : Answers wf x) :
    Answers wf (if wf = true ∧ p then .next s else x) := by
  split
  · rename_i c; rw [c.1]; exact answers_next s
  · exact h

theorem answers_groupRow (op : Nat) (f : GroupOp) (src : GroupSrc) (s : State) : Answers src.wf (groupRow op f src s) := by
  cases src with
  | job h j => exact answers_next _
  | admin q rd => exact answers_adminRow ..

theorem answers_groupEvent (src : GroupSrc) (s : State) : Answers src.wf (execGroupEvent src s) := by
  cases src with
  | job h j => exact answers_next _
  | admin q rd => exact answers_adminRow ..

theorem answers_descriptorFetch (v : Fin 512) (q : Fin 8) (issued : Bool) (rd : FetchRead) (s : State) :
    Answers rd.wf (execDescriptorFetch v q issued rd s) := by
  unfold execDescriptorFetch
  cases rd.wf <;> simp [Answers]

theorem exec_answers (c : Instr) (s : State) : Answers c.wf (exec c s) := by
  cases c with
  | descriptorFetch => exact answers_descriptorFetch ..
  | groupOpen | groupCommit | groupAbort | groupQuery => exact answers_groupRow ..
  | groupEvent => exact answers_groupEvent ..
  | setDamperOpen | setDamperThrottle | setDamperClose | setDamperCloseWait | slotUpdate => exact answers_waiting s (answers_adminRow ..)
  | bindVf | unbindVf | moveVf | resetVf | setQpGrant | setDraught | setEngineShare | setCompat | setInflight | stackDefine | slotTableLoad | ownershipBegin | ownershipAuthorise | ownershipComplete | tamperLogExport | dumpOpen | dumpClear | imageLoad | hearthStart | hearthReset | fuseProgram | rollbackAdvance => exact answers_adminRow ..
  | lifecycleAdvance | evtInject | pageLockSet | registerWrite => exact answers_ite _ _
  | _ => exact answers_next _

/-- Settles O2, by the rows that each command's answer is one of. -/
theorem wellFormedAnswers : Obligations.WellFormedAnswers := by
  unfold Obligations.WellFormedAnswers
  exact exec_answers

/-! ### The front of the queue, and the part after reset -/

/-- Settles O1. -/
theorem stepRunsFront : Obligations.StepRunsFront := by
  unfold Obligations.StepRunsFront
  constructor
  · intro c rest s h; simp only [step, h]
  · intro s h; simp only [step, h]

theorem reset_rd (p : Page) (f : Fld) : State.reset.rd p f = f.reset := rfl

/-- The lifecycle words of a part as delivered: two blown whole. -/
theorem start_fits : Fuses.start.Fits := by
  intro w
  by_cases h : w = 1 ∨ w = 2
  · rcases h with rfl | rfl <;> decide
  · rw [not_or] at h
    have hw : Tab.find? Fuses.start.lcWords w = none := by
      simp [Fuses.start, Tab.find?, Ne.symm h.1, Ne.symm h.2]
    simp [Tab.getD, hw]

/-- Settles O3: after reset the register file is empty, and so is every table. -/
theorem resetState : Obligations.ResetState := by
  unfold Obligations.ResetState
  refine ⟨rfl, rfl, reset_rd, fun h hh => ?here, fun h hh => ?absent, fun v _ => rfl, rfl, rfl, fun h => ⟨rfl, rfl, rfl⟩,
    ⟨rfl, fun _ => rfl, fun _ => rfl, fun _ => rfl⟩, start_fits, fun h => nomatch h⟩
  case here => exact if_pos (decide_eq_true hh)
  case absent => exact if_neg (fun e => absurd (of_decide_eq_true e) (Nat.not_lt.2 hh))

end Sys2Proof.Machine
end

section
/-! Several fields of one page written in turn: what they read back. -/

namespace Sys2Proof.Machine

/-- The place of a field in its page. -/
def Fld.place (f : Fld) : Nat := (f.off * 8 + f.lo) % 32768

/-- Fields of a page written in turn. -/
def State.wrs (p : Page) (l : List (Fld × Nat)) (s : State) : State := l.foldl (fun a e => a.wr p e.1 e.2) s

theorem State.wrs_cons (p : Page) (e : Fld × Nat) (l : List (Fld × Nat)) (s : State) :
    State.wrs p (e :: l) s = State.wrs p l (s.wr p e.1 e.2) := rfl

/-- Register writes change the register file alone. -/
theorem State.wrs_rest (p : Page) (l : List (Fld × Nat)) (s : State) :
    State.wrs p l s = { s with regs := (State.wrs p l s).regs } := by
  induction l generalizing s with
  | nil => rfl
  | cons e l ih => rw [State.wrs_cons, ih]; rfl

theorem State.wrs_rising (p : Page) (l : List (Fld × Nat)) (s : State) (hs : s.regs.Rising) : (State.wrs p l s).regs.Rising := by
  induction l generalizing s with
  | nil => exact hs
  | cons e l ih => exact ih _ (State.wr_rising s p e.1 e.2 hs)

/-- A field at a place that no write names is left alone. -/
theorem State.rd_wrs_ne (p q : Page) (g : Fld) (l : List (Fld × Nat)) (s : State)
    (h : q ≠ p ∨ ∀ e ∈ l, g.place ≠ e.1.place) : (State.wrs p l s).rd q g = s.rd q g := by
  induction l generalizing s with
  | nil => rfl
  | cons e l ih =>
    have hl : q ≠ p ∨ ∀ e ∈ l, g.place ≠ e.1.place := h.imp_right (fun h x hx => h x (List.mem_cons_of_mem _ hx))
    rw [State.wrs_cons, ih _ hl]
    rcases h with h | h
    · exact State.rd_wr_page _ _ _ _ _ _ h
    · exact State.rd_wr_bits _ _ _ _ _ _ (h e List.mem_cons_self)

/-- Fields at distinct places read back what was written, in their widths. -/
theorem State.rd_wrs (p : Page) (l : List (Fld × Nat)) (s : State) (hs : s.regs.Rising)
    (hd : (l.map (fun e => e.1.place)).Nodup) : ∀ e ∈ l, (State.wrs p l s).rd p e.1 = e.2 % 2 ^ e.1.w := by
  induction l generalizing s with
  | nil => simp
  | cons a l ih =>
    obtain ⟨ha, hd⟩ := List.nodup_cons.1 hd
    rw [List.forall_mem_cons]
    refine ⟨?_, ih _ (State.wr_rising _ _ _ _ hs) hd⟩
    have apart : ∀ e ∈ l, a.1.place ≠ e.1.place := fun e he eq => ha (List.mem_map.2 ⟨e, he, eq.symm⟩)
    rw [State.wrs_cons, State.rd_wrs_ne p p a.1 l _ (.inr apart), State.rd_wr _ _ _ _ hs]

end Sys2Proof.Machine
end

section
/-! Captures of refused register accesses (R711, R714). -/

namespace Sys2Proof.Machine

/-- What a page of the generic format captures of a refused access (R711). -/
def capturedFields (who : Requester) (off data ident : Nat) (read : Bool) (gen cause : Nat) : List (Fld × Nat) :=
  [(Reg.ERR_CAPTURE0_OFFSET, off), (Reg.ERR_CAPTURE0_REQUESTER, reqCode who), (Reg.ERR_CAPTURE0_CORE, reqCore who),
   (Reg.ERR_CAPTURE0_READ, b2n read), (Reg.ERR_CAPTURE1_DATA, data), (Reg.ERR_CAPTURE2_VF, reqVf who),
   (Reg.ERR_CAPTURE2_IDENTITY, ident), (Reg.ERR_CAPTURE3_GEN, gen), (Reg.ERR_CAPTURE3_CAUSE, cause), (Reg.ERR_CAPTURE3_VALID, 1)]

/-- A page of another format captures nothing here; a capture that is held is only counted; the first one is taken. -/
theorem capture_cases (p : Page) (who : Requester) (off data ident : Nat) (read : Bool) (cause : Nat) (s : State) :
    ((p.kind = .mempath ∨ p.kind = .mpu) ∧ capture p who off data ident read cause s = s) ∨
    (¬(p.kind = .mempath ∨ p.kind = .mpu) ∧ s.flag p Reg.ERR_CAPTURE3_VALID = true ∧
      capture p who off data ident read cause s = s.bump p Reg.ERR_COUNT_COUNT) ∨
    (¬(p.kind = .mempath ∨ p.kind = .mpu) ∧ s.flag p Reg.ERR_CAPTURE3_VALID = false ∧
      ∃ gen, capture p who off data ident read cause s = State.wrs p (capturedFields who off data ident read gen cause) s) := by
  unfold capture
  by_cases hk : p.kind = .mempath ∨ p.kind = .mpu
  · exact .inl ⟨hk, if_pos hk⟩
  · rw [if_neg hk]
    cases hv : s.flag p Reg.ERR_CAPTURE3_VALID
    · exact .inr (.inr ⟨hk, rfl, _, rfl⟩)
    · exact .inr (.inl ⟨hk, rfl, rfl⟩)

theorem capture_rest (p : Page) (who : Requester) (off data ident : Nat) (read : Bool) (cause : Nat) (s : State) :
    capture p who off data ident read cause s = { s with regs := (capture p who off data ident read cause s).regs } := by
  rcases capture_cases p who off data ident read cause s with ⟨-, e⟩ | ⟨-, -, e⟩ | ⟨-, -, gen, e⟩
  · rw [e]
  · rw [e]; rfl
  · rw [e]; exact State.wrs_rest ..

theorem refuse_rest (p : Page) (who : Requester) (off data cause : Nat) (s : State) :
    refuse p who off data cause s = { s with regs := (refuse p who off data cause s).regs } := capture_rest ..

theorem refuse_of_valid {p : Page} (who : Requester) (off data cause : Nat) {s : State} (hk : ¬(p.kind = .mempath ∨ p.kind = .mpu))
    (hv : s.flag p Reg.ERR_CAPTURE3_VALID = true) : refuse p who off data cause s = s.bump p Reg.ERR_COUNT_COUNT := by
  rw [refuse, capture, if_neg hk, if_pos hv]

theorem capturedFields_apart (who : Requester) (off data ident : Nat) (read : Bool) (gen cause : Nat) :
    ((capturedFields who off data ident read gen cause).map (fun e => e.1.place)).Nodup := by
  simp only [capturedFields, List.map_cons, List.map_nil]
  decide

theorem reqCode_lt (who : Requester) : reqCode who < 2 ^ 3 := by cases who <;> simp [reqCode]
theorem reqCore_lt (who : Requester) : reqCore who < 2 ^ 2 := by cases who <;> simp [reqCore]
theorem reqVf_lt (who : Requester) : reqVf who < 2 ^ 9 := by cases who <;> simp [reqVf]
theorem reqIdentity_lt (who : Requester) : reqIdentity who < 2 ^ 16 := by cases who <;> simp [reqIdentity]

/-- Settles O10: the captured fields stand at distinct places and are wide enough for what is captured. -/
theorem refusedWritesAreCaptured : Obligations.RefusedWritesAreCaptured := by
  unfold Obligations.RefusedWritesAreCaptured
  refine ⟨refuse_rest, fun p who off data cause s h1 h2 hv => ?counted, ?captured⟩
  case counted => exact refuse_of_valid who off data cause (not_or.2 ⟨h1, h2⟩) hv
  case captured =>
    rintro p who off data cause s t h1 h2 hs hv ho hd hc rfl
    rcases capture_cases p who off data (reqIdentity who) false cause s with ⟨hk, -⟩ | ⟨-, hv', -⟩ | ⟨-, -, gen, e⟩
    · exact absurd hk (not_or.2 ⟨h1, h2⟩)
    · rw [hv] at hv'; exact absurd hv' (by decide)
    · have back := State.rd_wrs p _ s ((Tab.sorted_iff _).1 hs) (capturedFields_apart who off data (reqIdentity who) false gen cause)
      rw [← e] at back
      simp only [capturedFields, List.forall_mem_cons] at back
      obtain ⟨hOffset, hReq, hCore, hRead, hData, hVf, hIdent, -, hCause, hValid, -⟩ := back
      exact ⟨hValid, hOffset.trans (Nat.mod_eq_of_lt ho), hReq.trans (Nat.mod_eq_of_lt (reqCode_lt who)),
        hCore.trans (Nat.mod_eq_of_lt (reqCore_lt who)), hRead, hData.trans (Nat.mod_eq_of_lt hd),
        hVf.trans (Nat.mod_eq_of_lt (reqVf_lt who)), hIdent.trans (Nat.mod_eq_of_lt (reqIdentity_lt who)),
        hCause.trans (Nat.mod_eq_of_lt hc)⟩

end Sys2Proof.Machine
end

section
/-! Events of the flue and the chimney: what a raise changes (R637 to R646, R654). -/

namespace Sys2Proof.Machine

def Output.IsMessage (o : Output) : Prop := ∃ f v a d, o = .msix f v a d

/-- From `s` to `t` registers, the flue recorder and the flue's counters may change, and messages leave. -/
structure EventFrame (s t : State) : Prop where
  hearths : t.hearths = s.hearths
  chim    : t.chim = s.chim
  variant : t.variant = s.variant
  pending : t.pending = s.pending
  free    : t.freeCtr = s.freeCtr
  flue    : { t.flue with recorder := {}, ctrs := [] } = { s.flue with recorder := {}, ctrs := [] }
  out     : ∃ l, t.out = s.out ++ l ∧ ∀ o ∈ l, o.IsMessage

theorem EventFrame.regs {s t : State} (e : t = { s with regs := t.regs }) : EventFrame s t := by
  rw [e]
  exact ⟨rfl, rfl, rfl, rfl, rfl, rfl, [], by simp, by simp⟩

theorem EventFrame.refl (s : State) : EventFrame s s := .regs rfl

theorem EventFrame.trans {r s t : State} (a : EventFrame r s) (b : EventFrame s t) : EventFrame r t := by
  obtain ⟨l, hl, ml⟩ := a.out
  obtain ⟨m, hm, mm⟩ := b.out
  refine ⟨b.hearths.trans a.hearths, b.chim.trans a.chim, b.variant.trans a.variant, b.pending.trans a.pending,
    b.free.trans a.free, b.flue.trans a.flue, l ++ m, by rw [hm, hl, List.append_assoc], ?_⟩
  intro o ho
  exact (List.mem_append.1 ho).elim (ml o) (mm o)

theorem EventFrame.wr (s : State) (p : Page) (f : Fld) (v : Nat) : EventFrame s (s.wr p f v) := .regs rfl

theorem EventFrame.orBit (s : State) (p : Page) (f : Fld) (i : Nat) : EventFrame s (s.orBit p f i) := .regs rfl

theorem EventFrame.bump (s : State) (p : Page) (f : Fld) : EventFrame s (s.bump p f) := .regs rfl

theorem EventFrame.setRecorder (s : State) (r : Recorder) : EventFrame s (s.setRecorder none r) :=
  ⟨rfl, rfl, rfl, rfl, rfl, rfl, [], by simp [State.setRecorder], by simp⟩

theorem EventFrame.ite {c : Prop} [Decidable c] {r s t : State} (a : EventFrame r s) (b : EventFrame r t) :
    EventFrame r (if c then s else t) := by split <;> assumption

theorem EventFrame.foldl {α : Type} {f : State → α → State} (hf : ∀ s x, EventFrame s (f s x)) (l : List α) (s : State) :
    EventFrame s (l.foldl f s) := by
  induction l generalizing s with
  | nil => exact .refl s
  | cons x l ih => exact (hf s x).trans (ih _)

theorem EventFrame.emit (s : State) (fn : Func) (v a d : Nat) : EventFrame s (s.emit (.msix fn v a d)) :=
  ⟨rfl, rfl, rfl, rfl, rfl, rfl, [.msix fn v a d], rfl, by simp [Output.IsMessage]⟩

theorem EventFrame.sendMsix (fn : Func) (v : Nat) (s : State) : EventFrame s (sendMsix fn v s) :=
  .ite (.orBit ..) (.emit ..)

theorem EventFrame.sendMessages (g : Nat) (s : State) : EventFrame s (sendMessages g s) := by
  have h0 : EventFrame s (if s.flag (routePage g) (Reg.RT_PF0_EN (routeIdx g)) then
      Machine.sendMsix .pf0 (s.rd (routePage g) (Reg.RT_PF0_VECTOR (routeIdx g))) s else s) := .ite (.sendMsix ..) (.refl s)
  exact .ite (h0.trans (.sendMsix ..)) h0

theorem EventFrame.raiseBit (e : Ev) (u g : Nat) (p : Page) (s : State) : EventFrame s (raiseBit e u g p s) :=
  .ite (.orBit ..) ((EventFrame.orBit ..).trans (.sendMessages ..))

theorem EventFrame.record (r : Rec) (s : State) : EventFrame s (record none r s).1 := by
  unfold Machine.record
  dsimp only
  split
  · exact .refl s
  · split
    · split
      · exact (EventFrame.wr ..).trans (.setRecorder ..)
      · split
        · exact (EventFrame.wr ..).trans (.bump ..)
        · exact (((((EventFrame.wr ..).trans (.wr ..)).trans (.wr ..)).trans (.wr ..)).trans (.wr ..)).trans (.setRecorder ..)
    · split
      · exact (EventFrame.wr ..).trans (.setRecorder ..)
      · exact (EventFrame.wr ..).trans (.bump ..)
      · exact .wr ..

theorem EventFrame.raiseQuiet (e : Ev) (s : State) : EventFrame s (raiseQuiet none e s) := by
  unfold Machine.raiseQuiet
  exact .ite (.raiseBit ..) ((EventFrame.raiseBit ..).trans (.record ..))

theorem EventFrame.raiseFollow (s : State) (e : Ev) : EventFrame s (raiseFollow none s e) := by
  unfold Machine.raiseFollow
  have h : ∀ r, EventFrame s (Machine.record none r (Machine.raiseBit e 0 e.n (recPage none) s)).1 := fun r =>
    (EventFrame.raiseBit ..).trans (.record r _)
  exact .ite (h _) ((h _).trans (.foldl (fun s e => .raiseQuiet e s) _ _))

theorem EventFrame.raiseFlue (e : Ev) (p : Page) (i : Info) (s : State) : EventFrame s (raiseFlue e p i s) := by
  unfold Machine.raiseFlue
  have h : ∀ r l, EventFrame s (List.foldl (Machine.raiseFollow none) (Machine.record none r (Machine.raiseBit e 0 e.n p s)).1 l) :=
    fun r l => ((EventFrame.raiseBit ..).trans (.record r _)).trans (.foldl EventFrame.raiseFollow l _)
  refine .ite (.ite ?_ ?_) (h _ _)
  · exact .ite ((h _ _).trans (.setRecorder ..)) (((h _ _).trans (.setRecorder ..)).trans (.raiseBit ..))
  · exact ((h _ _).trans (.bump ..)).trans (.raiseQuiet ..)

/-! ### The status bit -/

/-- A bit that is clear can be added: the bits above it and below it stay. -/
theorem testBit_add_two_pow {v i : Nat} (h : v.testBit i = false) (j : Nat) :
    (v + 2 ^ i).testBit j = (decide (j = i) || v.testBit j) := by
  rcases Nat.lt_trichotomy j i with hj | rfl | hj
  · rw [Nat.add_comm, Nat.testBit_two_pow_add_gt hj]; simp [Nat.ne_of_lt hj]
  · rw [Nat.add_comm, Nat.testBit_two_pow_add_eq, h]; simp
  · have low : v % 2 ^ (i + 1) = v % 2 ^ i := by
      have hb : v / 2 ^ i % 2 = 0 := by simpa [Nat.testBit_eq_decide_div_mod_eq] using h
      rw [Nat.pow_succ, Nat.mod_mul, hb]; simp
    have fits : v % 2 ^ i + 2 ^ i < 2 ^ (i + 1) := by
      have := Nat.mod_lt v (Nat.two_pow_pos i)
      rw [Nat.pow_succ]; omega
    have split := Nat.div_add_mod v (2 ^ (i + 1))
    rw [low] at split
    have lt : v % 2 ^ i < 2 ^ (i + 1) := by omega
    rw [← split, Nat.add_assoc, Nat.testBit_two_pow_mul_add _ fits, Nat.testBit_two_pow_mul_add _ lt]
    simp [Nat.ne_of_gt hj, Nat.not_lt.2 hj]

theorem testBit_setBit (v i j : Nat) : (setBit v i true).testBit j = (decide (j = i) || v.testBit j) := by
  unfold setBit
  cases h : v.testBit i
  · simpa using testBit_add_two_pow h j
  · by_cases e : j = i
    · subst e; simpa using h
    · simp [e]

/-- A bit that is set in a field of 32 bits stays set when a bit of any such field is set. -/
theorem testBit_orBit {s : State} {p q : Page} {f g : Fld} {i j : Nat} (hs : s.regs.Rising) (hf : f.w = 32) (hg : g.reset = f.reset)
    (hj : j < 32) (h : (regKey q g = regKey p f ∧ j = i) ∨ (s.rd q g).testBit j = true) :
    ((s.orBit p f i).rd q g).testBit j = true := by
  by_cases hk : regKey q g = regKey p f
  · have same : ∀ t : State, t.rd q g = t.rd p f := fun t => by rw [State.rd, State.rd, hk, hg]
    rw [same] at h
    rw [same, State.orBit, State.rd_wr _ _ _ _ hs, hf, Nat.testBit_mod_two_pow, testBit_setBit]
    rcases h with ⟨-, rfl⟩ | h <;> simp [*]
  · rw [State.orBit, State.rd_wr_ne _ _ _ _ _ _ hk]
    exact h.resolve_left (fun x => hk x.1)

/-- A page's status bit, in a register file in canonical form. -/
structure StatusSet (p : Page) (j : Nat) (s : State) : Prop where
  rising : s.regs.Rising
  set    : (s.rd p Reg.EVT_STATUS_STATUS).testBit j = true

theorem StatusSet.sendMsix {p : Page} {j : Nat} {s : State} (h : StatusSet p j s) (hj : j < 32) (fn : Func) (v : Nat) :
    StatusSet p j (sendMsix fn v s) := by
  unfold Machine.sendMsix
  dsimp only
  split
  · exact ⟨State.orBit_rising _ _ _ _ h.rising, testBit_orBit h.rising rfl rfl hj (.inr h.set)⟩
  · exact ⟨by simpa using h.rising, by simpa using h.set⟩

theorem StatusSet.sendMessages {p : Page} {j : Nat} {s : State} (h : StatusSet p j s) (hj : j < 32) (g : Nat) :
    StatusSet p j (sendMessages g s) := by
  unfold Machine.sendMessages
  dsimp only
  split <;> split
  · exact (h.sendMsix hj _ _).sendMsix hj _ _
  · exact h.sendMsix hj _ _
  · exact h.sendMsix hj _ _
  · exact h

theorem raiseBit_statusSet {e : Ev} (u g : Nat) (p : Page) {s : State} (hs : s.regs.Rising) (he : e.bit < 32) :
    StatusSet p e.bit (raiseBit e u g p s) := by
  have h : StatusSet p e.bit (s.orBit p Reg.EVT_STATUS_STATUS e.bit) :=
    ⟨State.orBit_rising _ _ _ _ hs, testBit_orBit hs rfl rfl he (.inl ⟨rfl, rfl⟩)⟩
  unfold raiseBit
  dsimp only
  split
  · exact h
  · exact h.sendMessages he _

theorem raiseBit_of_pending {e : Ev} {u : Nat} (g : Nat) (p : Page) {s : State} (h : evPending e u s = true) :
    raiseBit e u g p s = s.orBit p Reg.EVT_STATUS_STATUS e.bit := if_pos h

/-- Settles O9, by the frame that each part of a raise keeps. -/
theorem eventsTouchRecordsOnly : Obligations.EventsTouchRecordsOnly := by
  unfold Obligations.EventsTouchRecordsOnly
  refine ⟨fun e p i s => ?frame, fun e u g p s hs he => ⟨?bit, fun h => ?quiet⟩⟩
  case frame =>
    have h := EventFrame.raiseFlue e p i s
    exact ⟨h.hearths, h.chim, h.variant, h.pending, h.free, h.flue, h.out⟩
  case bit => exact (raiseBit_statusSet u g p ((Tab.sorted_iff _).1 hs) he).set
  case quiet => rw [raiseBit_of_pending g p h]; rfl

end Sys2Proof.Machine
end

section
/-! Byte strings: lengths, and fields of a string that is put together from parts. -/

namespace Sys2Proof.Machine

@[simp] theorem length_toLe (n v : Nat) : (toLe n v).length = n := by
  induction n generalizing v with
  | zero => rfl
  | succ n ih => simp [toLe, ih]

@[simp] theorem length_zeros (n : Nat) : (zeros n).length = n := List.length_replicate

@[simp] theorem length_slice (b : Bytes) (off len : Nat) : (slice b off len).length = len := by
  simp only [slice, List.length_append, length_zeros, List.length_take]
  omega

theorem leNat_toLe (n v : Nat) : leNat (toLe n v) = v % 256 ^ n := by
  induction n generalizing v with
  | zero => simp [toLe, leNat, Nat.mod_one]
  | succ n ih =>
    rw [toLe, leNat, ih, Nat.pow_succ', Nat.mod_mul]
    simp [byte]

/-- A field that stands whole in the string. -/
theorem slice_append_mid (a f c : Bytes) {off len : Nat} (ha : a.length = off) (hf : f.length = len) :
    slice (a ++ (f ++ c)) off len = f := by
  subst ha hf
  simp [slice, zeros]

/-- A number written little-endian into a string is the field that stands there. -/
theorem fieldLe_append_toLe (a c : Bytes) {off : Nat} (n v : Nat) (ha : a.length = off) :
    fieldLe (a ++ (toLe n v ++ c)) off n = v % 256 ^ n := by
  rw [fieldLe, slice_append_mid a (toLe n v) c ha (length_toLe n v), leNat_toLe]

theorem byteAt_append (a c : Bytes) {off : Nat} (x : Byte) (ha : a.length = off) : byteAt (a ++ (x :: c)) off = x.toNat := by
  subst ha
  simp [byteAt]

end Sys2Proof.Machine
end

section
/-! Completion entries: their bytes, and the write, the tail and the message of one completion (R76 to R86). -/

namespace Sys2Proof.Machine

/-! ### Queue pairs under updates -/

@[simp] theorem State.qp_modQp (s : State) (t : Queue) (f : Qp → Qp) : (s.modQp t f).qp t = f (s.qp t) := by
  cases t <;> simp [State.modQp, State.qp]

@[simp] theorem State.qp_emit (s : State) (o : Output) (t : Queue) : (s.emit o).qp t = s.qp t := by
  cases o <;> cases t <;> rfl

@[simp] theorem State.qp_orBit (s : State) (p : Page) (f : Fld) (i : Nat) (t : Queue) : (s.orBit p f i).qp t = s.qp t := by
  cases t <;> rfl

@[simp] theorem qp_sendMsix (fn : Func) (v : Nat) (s : State) (t : Queue) : (sendMsix fn v s).qp t = s.qp t := by
  unfold sendMsix; dsimp only; split <;> simp

@[simp] theorem State.flag_emit (s : State) (o : Output) (p : Page) (f : Fld) : (s.emit o).flag p f = s.flag p f := by
  simp [State.flag]

@[simp] theorem State.flag_modQp (s : State) (t : Queue) (g : Qp → Qp) (p : Page) (f : Fld) :
    (s.modQp t g).flag p f = s.flag p f := by
  simp [State.flag]

@[simp] theorem State.qrd_emit (s : State) (o : Output) (t : Queue) (f : Nat → Fld) : (s.emit o).qrd t f = s.qrd t f := by
  simp [State.qrd]

@[simp] theorem State.qrd_modQp (s : State) (t u : Queue) (g : Qp → Qp) (f : Nat → Fld) :
    (s.modQp t g).qrd u f = s.qrd u f := by
  simp [State.qrd]

/-! ### One message -/

/-- The address of a vector's message and its data, in its MSI-X table entry. -/
def msixAddr (fn : Func) (v : Nat) (s : State) : Nat :=
  s.rd (msixPage fn v) (Reg.MSIX_ADDR_HI (v % 256)) * 2 ^ 32 + s.rd (msixPage fn v) (Reg.MSIX_ADDR_LO (v % 256)) * 4

/-- The vector's table entry is masked. -/
def vectorMasked (fn : Func) (v : Nat) (s : State) : Bool := s.flag (msixPage fn v) (Reg.MSIX_MASK (v % 256))

theorem sendMsix_of_masked {fn : Func} {v : Nat} {s : State} (h : vectorMasked fn v s = true) :
    sendMsix fn v s = s.orBit (pbaPage fn) (Reg.MSIX_PENDING (v / 32)) (v % 32) := if_pos h

theorem sendMsix_of_unmasked {fn : Func} {v : Nat} {s : State} (h : vectorMasked fn v s = false) :
    sendMsix fn v s =
      s.emit (.msix fn v (msixAddr fn v s) (s.rd (msixPage fn v) (Reg.MSIX_DATA (v % 256)))) :=
  if_neg (by simpa [vectorMasked] using h)

/-- A vector raised changes registers, or the outputs and the count of messages. -/
theorem sendMsix_kept (fn : Func) (v : Nat) (s : State) :
    (sendMsix fn v s).hearths = s.hearths ∧ (sendMsix fn v s).chim = s.chim := by
  cases h : vectorMasked fn v s
  · simp [sendMsix_of_unmasked h]
  · simp [sendMsix_of_masked h]

/-! ### One completion -/

/-- The queue pair after a completion entry is written at its tail (R76, R78). -/
def Qp.posted (q : Qp) (wrap : Bool) : Qp :=
  { q with cqTail := if wrap then 0 else q.cqTail + 1, phase := q.phase != wrap, seq := (q.seq + 1) % 2 ^ 32, occ := q.occ + 1 }

/-- The tail stands at the last entry of the completion queue. -/
def State.wraps (s : State) (t : Queue) : Bool := decide (s.cqDepth t ≤ (s.qp t).cqTail + 1)

/-- The write of a completion entry. -/
def entryWrite (t : Queue) (e : Entry) (s : State) : Output :=
  .hostWrite (qFunc t) false (s.cqBase t + 32 * (s.qp t).cqTail) (entryBytes e (s.qp t).sqHead (s.qp t).seq (s.qp t).phase)

/-- The part after the write of a completion entry, before its interrupt. -/
def entryWritten (t : Queue) (e : Entry) (s : State) : State := (s.emit (entryWrite t e s)).modQp t (fun q => q.posted (s.wraps t))

/-- The interrupt of a completion that is not suppressed is due, with none to coalesce with (R86). -/
def interruptDue (t : Queue) (s : State) : Bool := decide (s.qrd t Reg.QP_COAL_COUNT ≤ (s.qp t).unsignalled + 1)

/-- The interrupt of a completion: none, a count towards the coalescing limit, or the vector (R86). -/
theorem postCompletion_cases (t : Queue) (e : Entry) (sup : Bool) (s : State) :
    (sup = true ∧ postCompletion t e sup s = entryWritten t e s) ∨
    (sup = false ∧ interruptDue t s = false ∧ postCompletion t e sup s =
      (entryWritten t e s).modQp t (fun q => { q with unsignalled := (s.qp t).unsignalled + 1 })) ∨
    (sup = false ∧ interruptDue t s = true ∧ postCompletion t e sup s = raiseVector t (entryWritten t e s)) := by
  cases sup
  · by_cases h : (s.qp t).unsignalled + 1 < s.qrd t Reg.QP_COAL_COUNT
    · exact .inr (.inl ⟨rfl, by simpa [interruptDue] using h, if_pos h⟩)
    · exact .inr (.inr ⟨rfl, by simpa [interruptDue] using h, if_neg h⟩)
  · exact .inl ⟨rfl, rfl⟩

/-- The interrupt aside, a completion leaves its queue pair as the entry's write leaves it, and hearths and chimney alone. -/
theorem postCompletion_kept (t : Queue) (e : Entry) (sup : Bool) (s : State) :
    (∃ n, (postCompletion t e sup s).qp t = { (s.qp t).posted (s.wraps t) with unsignalled := n }) ∧
    (postCompletion t e sup s).hearths = s.hearths ∧ (postCompletion t e sup s).chim = s.chim := by
  rcases postCompletion_cases t e sup s with ⟨-, h⟩ | ⟨-, -, h⟩ | ⟨-, -, h⟩
  · rw [h]; exact ⟨⟨((s.qp t).posted (s.wraps t)).unsignalled, by simp [entryWritten]⟩, by simp [entryWritten]⟩
  · rw [h]; exact ⟨⟨_, by simp [entryWritten]; rfl⟩, by simp [entryWritten]⟩
  · rw [h, raiseVector]
    refine ⟨⟨0, by simp [entryWritten]⟩, ?_, ?_⟩
    · rw [(sendMsix_kept ..).1]; simp [entryWritten]
    · rw [(sendMsix_kept ..).2]; simp [entryWritten]

/-- The vector of a queue pair. -/
def State.vectorOf (s : State) (t : Queue) : Nat := s.qrd t Reg.QP_CFG_VECTOR

/-- The messages that the interrupt of a completion sends. -/
def completionMessages (t : Queue) (sup : Bool) (s : State) : List Output :=
  if sup = false ∧ interruptDue t s = true ∧ vectorMasked (qFunc t) (s.vectorOf t) s = false then
    [.msix (qFunc t) (s.vectorOf t) (msixAddr (qFunc t) (s.vectorOf t) s)
      (s.rd (msixPage (qFunc t) (s.vectorOf t)) (Reg.MSIX_DATA (s.vectorOf t % 256)))]
  else []

/-- The vector of a queue pair whose completion entry is written, in the registers from before. -/
theorem raiseVector_entryWritten (t : Queue) (e : Entry) (s : State) :
    ∃ u : State, u.out = s.out ++ [entryWrite t e s] ∧ u.regs = s.regs ∧
      raiseVector t (entryWritten t e s) = sendMsix (qFunc t) (s.vectorOf t) u :=
  ⟨(entryWritten t e s).modQp t (fun q => { q with unsignalled := 0 }), by simp [entryWritten], by simp [entryWritten],
    by simp [raiseVector, entryWritten, State.vectorOf]⟩

theorem vectorMasked_congr {s u : State} (h : u.regs = s.regs) (fn : Func) (v : Nat) : vectorMasked fn v u = vectorMasked fn v s := by
  simp only [vectorMasked, State.flag, State.rd_congr h]

theorem postCompletion_out (t : Queue) (e : Entry) (sup : Bool) (s : State) :
    (postCompletion t e sup s).out = s.out ++ [entryWrite t e s] ++ completionMessages t sup s := by
  rcases postCompletion_cases t e sup s with ⟨hs, h⟩ | ⟨hs, hd, h⟩ | ⟨hs, hd, h⟩
  · rw [h, completionMessages, if_neg (by simp [hs])]; simp [entryWritten]
  · rw [h, completionMessages, if_neg (by simp [hd])]; simp [entryWritten]
  · obtain ⟨u, ho, hr, hu⟩ := raiseVector_entryWritten t e s
    have hm := vectorMasked_congr hr (qFunc t) (s.vectorOf t)
    rw [h, hu, completionMessages]
    cases hv : vectorMasked (qFunc t) (s.vectorOf t) s
    · rw [if_pos ⟨hs, hd, rfl⟩, sendMsix_of_unmasked (hm.trans hv), State.emit_out, ho]
      simp only [msixAddr, State.rd_congr hr]
    · rw [if_neg (by simp), sendMsix_of_masked (hm.trans hv), State.orBit_out, ho, List.append_nil]

theorem postCompletion_regs {t : Queue} {s : State} (e : Entry) (sup : Bool)
    (hv : vectorMasked (qFunc t) (s.vectorOf t) s = false) : (postCompletion t e sup s).regs = s.regs := by
  rcases postCompletion_cases t e sup s with ⟨-, h⟩ | ⟨-, -, h⟩ | ⟨-, -, h⟩
  · rw [h]; simp [entryWritten]
  · rw [h]; simp [entryWritten]
  · obtain ⟨u, -, hr, hu⟩ := raiseVector_entryWritten t e s
    rw [h, hu, sendMsix_of_unmasked ((vectorMasked_congr hr _ _).trans hv), State.emit_regs, hr]

/-! ### The bytes of an entry -/

/-- The flags of an entry: the phase is the lowest bit. -/
def entryFlags (e : Entry) (phase : Bool) : Nat :=
  b2n phase + (if e.compat then 0 else 2 * b2n e.nonce) + 4 * b2n e.hasRes + (if e.compat then 0 else 8 * b2n e.group)

/-- The bytes of an entry ahead of the submission queue's head, its flags and its sequence number. -/
theorem entryBytes_eq (e : Entry) (hd sq : Nat) (ph : Bool) : entryBytes e hd sq ph =
    toLe 4 e.tag ++ (toLe 2 (if e.compat then status8 e.status else e.status) ++ (toLe 2 hd ++ (toLe 3 e.len ++
      (byte (entryFlags e ph) :: (toLe 4 sq ++ slice e.result 0 16))))) := by
  simp [entryBytes, entryFlags]

theorem byte_entryFlags_testBit (e : Entry) (ph : Bool) : (byte (entryFlags e ph)).toNat.testBit 0 = ph := by
  have low : entryFlags e ph % 2 = b2n ph := by
    have : b2n ph < 2 := by cases ph <;> decide
    unfold entryFlags
    split <;> omega
  simp only [byte, BitVec.toNat_ofNat, Nat.testBit_zero, Nat.mod_mod_of_dvd _ (by decide : 2 ∣ 2 ^ 8), low]
  cases ph <;> rfl

theorem entryBytes_fields (e : Entry) (hd sq : Nat) (ph : Bool) :
    (entryBytes e hd sq ph).length = 32 ∧ (byteAt (entryBytes e hd sq ph) 11).testBit 0 = ph ∧
    fieldLe (entryBytes e hd sq ph) 0 4 = e.tag % 2 ^ 32 ∧ fieldLe (entryBytes e hd sq ph) 6 2 = hd % 2 ^ 16 ∧
    fieldLe (entryBytes e hd sq ph) 12 4 = sq % 2 ^ 32 := by
  refine ⟨by simp [entryBytes], ?flags, ?tag, ?head, ?seq⟩
  case flags =>
    rw [entryBytes_eq, ← List.append_assoc, ← List.append_assoc, ← List.append_assoc, byteAt_append _ _ _ (by simp)]
    exact byte_entryFlags_testBit e ph
  case tag => rw [entryBytes_eq]; exact fieldLe_append_toLe [] _ 4 e.tag rfl
  case head => rw [entryBytes_eq, ← List.append_assoc]; exact fieldLe_append_toLe _ _ 2 hd (by simp)
  case seq =>
    rw [entryBytes_eq, ← List.append_assoc, ← List.append_assoc, ← List.append_assoc, List.append_cons]
    exact fieldLe_append_toLe _ _ 4 sq (by simp)

/-- Settles O8: the write of the entry, then the message that coalescing and the mask allow. -/
theorem completionEntryWritten : Obligations.CompletionEntryWritten := by
  unfold Obligations.CompletionEntryWritten
  refine ⟨entryBytes_fields, fun t e sup s => ?entry, fun q tag status g sup res out dst s => ?admin⟩
  case entry =>
    obtain ⟨⟨n, hq⟩, hh, hc⟩ := postCompletion_kept t e sup s
    refine ⟨completionMessages t sup s, ?shape, postCompletion_out t e sup s, ?suppressed, ?due, ?tail, ?phase,
      by rw [hq]; rfl, by rw [hq]; rfl, postCompletion_regs e sup, hh, hc⟩
    case shape =>
      unfold completionMessages
      split
      · exact .inr ⟨_, _, rfl⟩
      · exact .inl rfl
    case suppressed => intro h; simp [completionMessages, h]
    case due =>
      intro h hd
      have hd : interruptDue t s = true := by simpa [interruptDue] using hd
      simp [completionMessages, h, hd, vectorMasked, State.vectorOf]
    case tail => rw [hq]; simp [Qp.posted, State.wraps]
    case phase =>
      rw [hq]
      by_cases hw : s.cqDepth t ≤ (s.qp t).cqTail + 1
      · simp [Qp.posted, State.wraps, hw]
      · simp [Qp.posted, State.wraps, hw, Nat.lt_of_not_le hw]
  case admin => exact ⟨_, _, postCompletion_out ..⟩

end Sys2Proof.Machine
end

section
/-! Tables: one lookup after a change of one entry, of every entry, and after a fold of such changes. -/

namespace Sys2Proof.Machine

theorem Tab.find?_upd {α : Type} {t : Tab α} {n : Nat} {x : α} (f : α → α) (h : t.find? n = some x) :
    (t.upd n f).find? n = some (f x) := by simp [Tab.upd, h]

theorem Tab.find?_upd_ne {α : Type} (t : Tab α) {n m : Nat} (f : α → α) (h : m ≠ n) : (t.upd n f).find? m = t.find? m := by
  unfold Tab.upd
  split
  · exact Tab.find?_put_ne t n m _ h
  · rfl

theorem Tab.find?_mapVals {α : Type} (t : Tab α) (f : Nat → α → α) (n : Nat) :
    (t.mapVals f).find? n = (t.find? n).map (f n) := by
  induction t with
  | nil => rfl
  | cons p r ih =>
    obtain ⟨k, v⟩ := p
    simp only [Tab.mapVals, List.map_cons, Tab.find?] at ih ⊢
    split
    · rename_i e; subst e; rfl
    · exact ih

/-- A lookup is a member of the table. -/
theorem Tab.mem_of_find? {α : Type} {t : Tab α} {n : Nat} {x : α} (h : t.find? n = some x) : (n, x) ∈ t := by
  induction t with
  | nil => exact nomatch h
  | cons p r ih =>
    obtain ⟨k, v⟩ := p
    simp only [Tab.find?] at h
    split at h
    · rename_i e; subst e; cases h; exact List.mem_cons_self
    · exact List.mem_cons_of_mem _ (ih h)

/-- In a table of the canonical form every member is a lookup. -/
theorem Tab.Rising.find?_of_mem {α : Type} {t : Tab α} (hs : t.Rising) {n : Nat} {x : α} (h : (n, x) ∈ t) : t.find? n = some x := by
  induction t with
  | nil => exact nomatch h
  | cons p r ih =>
    obtain ⟨k, v⟩ := p
    obtain ⟨hk, hr⟩ := List.pairwise_cons.1 hs
    simp only [Tab.find?]
    rcases List.mem_cons.1 h with e | e
    · cases e; simp
    · rw [if_neg (Nat.ne_of_lt (hk _ e)), ih hr e]

end Sys2Proof.Machine
end

section
/-! What the commit and the rollback of a group make of the keys it holds back (R392, R410), and the counting of a decision
record (R414, R416). -/

namespace Sys2Proof.Machine

/-- The uses of an action that took none. -/
theorem undoAction_of_no_use (x : Hearth) {a : Action} (h : a.uses = []) : (undoAction x a).cache =
    let c := match a.insert with | some i => x.cache.del i | none => x.cache
    match a.evict with | some i => c.upd i (fun e => { e with marked := none }) | none => c := by
  unfold undoAction
  rw [h]
  cases a.insert <;> cases a.evict <;> rfl

theorem undoAction_of_use (x : Hearth) {a : Action} {i : Nat} (hi : a.insert = none) (he : a.evict = none) (hu : a.uses = [i]) :
    (undoAction x a).cache = x.cache.upd i (fun e => { e with uses := e.uses - 1 }) := by
  simp [undoAction, hi, he, hu]

theorem applyAction_of_insert (h : Nat) {a : Action} {i : Nat} (s : State) (hi : a.insert = some i) (he : a.evict = none)
    (hs : a.slot = none) : applyAction h a s =
      s.modH h (fun x => { x with cache := x.cache.upd i (fun e => if e.state = .pending then { e with state := .valid } else e) }) := by
  simp [applyAction, hi, he, hs]

/-- Settles O30, by the table that each action's change leaves. -/
theorem groupEffects : Obligations.GroupEffects := by
  unfold Obligations.GroupEffects
  refine ⟨fun h a i e s hi he hs hf hp => ?commit, fun x a i hc hi he hu => ?inserted, fun x a i e hi he hu hf => ?marked,
    fun x a i e hi he hu hf => ?used⟩
  case commit =>
    rw [applyAction_of_insert h s hi he hs, State.H_modH]
    exact ⟨by simp only [Tab.find?_upd _ hf, hp, if_true], fun k hk => Tab.find?_upd_ne _ _ hk⟩
  case inserted =>
    simp only [undoAction_of_no_use x hu, hi, he]
    exact ⟨Tab.find?_del ((Tab.sorted_iff _).1 hc) i, fun k hk => Tab.find?_del_ne _ _ _ hk⟩
  case marked =>
    simp only [undoAction_of_no_use x hu, hi, he]
    exact ⟨Tab.find?_upd _ hf, fun k hk => Tab.find?_upd_ne _ _ hk⟩
  case used =>
    rw [undoAction_of_use x hi he hu]
    exact Tab.find?_upd _ hf

/-! ### Counting -/

theorem getD_incCounter (c : Tab Nat) (k n : Nat) :
    (incCounter c k).getD n 0 = if n = k then satAdd 32 (c.getD k 0) 1 else c.getD n 0 := by
  unfold incCounter
  split
  · rename_i e; subst e; exact Tab.getD_put ..
  · rename_i e; exact Tab.getD_put_ne _ _ _ _ _ e

/-- Counters at distinct places are each incremented once, and no other one. -/
theorem getD_incCounters (base : Nat) (l : List Nat) (c : Tab Nat) (hl : l.Nodup) (n : Nat) :
    (l.foldl (fun c k => incCounter c (base + k)) c).getD n 0 =
      if ∃ k ∈ l, n = base + k then satAdd 32 (c.getD n 0) 1 else c.getD n 0 := by
  induction l generalizing c with
  | nil => simp
  | cons a l ih =>
    obtain ⟨ha, hl⟩ := List.nodup_cons.1 hl
    rw [List.foldl_cons, ih _ hl, getD_incCounter]
    by_cases hn : n = base + a
    · subst hn
      have hnot : ¬∃ k ∈ l, base + a = base + k := by
        rintro ⟨k, hk, e⟩
        have : a = k := by omega
        exact ha (this ▸ hk)
      rw [if_neg hnot, if_pos rfl, if_pos ⟨a, List.mem_cons_self, rfl⟩]
    · have hrest : (∃ k ∈ a :: l, n = base + k) ↔ ∃ k ∈ l, n = base + k := by simp [hn]
      simp only [hn, if_false, hrest]

theorem countRecord_of_committed {r : Nat} {v : Vault} {d : Decision} (hd : v.records.find? r = some d) (h1 : d.state = 1) :
    countRecord r v = { v with
      counters := (v.applies.filter (fun p => p.2.record == r)).foldl (fun c p => countApply p.2 c) v.counters
      applies := v.applies.mapVals (fun _ e => if e.record = r then { e with progress := e.slots.length } else e)
      records := v.records.put r { d with state := 2 } } := by
  simp [countRecord, hd, h1]

theorem countRecord_of_other {r : Nat} {v : Vault} {d : Decision} (hd : v.records.find? r = some d) (h1 : d.state ≠ 1) :
    countRecord r v = v := by
  simp [countRecord, hd, h1]

/-- Settles O32, by the increments of distinct counters. -/
theorem countingIsExact : Obligations.CountingIsExact := by
  unfold Obligations.CountingIsExact
  refine ⟨fun r v d i e hd h1 ha hr hp hn => ?counted, fun r v d hd h1 => ?state, fun r v d hd h1 => countRecord_of_other hd h1⟩
  case counted =>
    have hc : (countRecord r v).counters = e.slots.foldl (fun c k => incCounter c (e.hearth * 256 + k)) v.counters := by
      rw [countRecord_of_committed hd h1, ha]
      simp [hr, countApply, hp]
    rw [hc]
    refine ⟨fun k hk => ?_, fun n hout => ?_⟩
    · rw [getD_incCounters _ _ _ hn, if_pos ⟨k, hk, rfl⟩]
    · rw [getD_incCounters _ _ _ hn, if_neg]
      rintro ⟨k, hk, e⟩
      exact hout k hk e
  case state => rw [countRecord_of_committed hd h1]; simp

end Sys2Proof.Machine
end

section
/-! The health tests (R434), and bytes of hearth DDR. -/

namespace Sys2Proof.Machine

/-- The repetition count after a bit. -/
def runAfter (t : PairTest) (b : Nat) : Nat := if b = t.last then t.run + 1 else 1

/-- The bits equal to the first of their window, after a bit: it is the first of a new window, or counts in the present one. -/
def countAfter (t : PairTest) (b : Nat) : Nat := if t.pos = 0 then 1 else t.count + (if b = t.first then 1 else 0)

/-- The place of a bit in its window, counted from 1. -/
def placeAfter (t : PairTest) : Nat := if t.pos = 0 then 1 else t.pos + 1

theorem pairTest_eq (t : PairTest) (b : Nat) : pairTest t b =
    ({ last := b, run := runAfter t b, first := if t.pos = 0 then b else t.first, count := countAfter t b,
       pos := if placeAfter t = 1024 then 0 else placeAfter t },
      decide (81 ≤ runAfter t b) || decide (917 ≤ countAfter t b)) := by
  by_cases h : t.pos = 0
  · simp only [pairTest, runAfter, countAfter, placeAfter, if_pos h]; rfl
  · simp only [pairTest, runAfter, countAfter, placeAfter, if_neg h]; rfl

theorem pairTest_fails (t : PairTest) (b : Nat) : (pairTest t b).2 = true ↔ 81 ≤ runAfter t b ∨ 917 ≤ countAfter t b := by
  simp [pairTest_eq]

theorem placeAfter_wraps {t : PairTest} (h : t.pos < 1024) :
    (if placeAfter t = 1024 then 0 else placeAfter t) = (t.pos + 1) % 1024 := by
  unfold placeAfter
  split <;> split <;> omega

/-- Settles O46: the two counts after a bit, against their cutoffs. -/
theorem healthTests : Obligations.HealthTests := by
  unfold Obligations.HealthTests
  intro t b ht
  refine ⟨?fails, by rw [pairTest_eq], by rw [pairTest_eq]; rfl, by rw [pairTest_eq]; exact placeAfter_wraps ht,
    fun h => by rw [pairTest_eq]; exact ⟨if_pos h, if_pos h⟩⟩
  rw [pairTest_fails, runAfter, countAfter]
  constructor
  · rintro (h | h)
    · split at h
      · exact .inl ⟨‹_›, by omega⟩
      · omega
    · split at h
      · omega
      · exact .inr ⟨‹_›, h⟩
  · rintro (⟨h, hr⟩ | ⟨h, hc⟩)
    · rw [if_pos h]; exact .inl (by omega)
    · rw [if_neg h]; exact .inr hc

/-! ### Bytes of hearth DDR -/

/-- A write of bytes leaves every byte outside its span. -/
theorem memGet_memPut_ne (m : List Host.Cell) (a b : Nat) (d : Bytes) (h : b < a ∨ a + d.length ≤ b) :
    memGet (memPut m a d) b = memGet m b := by
  induction d generalizing m a with
  | nil => rfl
  | cons x r ih =>
    rw [List.length_cons] at h
    rw [memPut, ih _ _ (by omega), memGet_memSet_ne _ _ _ _ (by omega)]

theorem memBytes_succ (m : List Host.Cell) (a n : Nat) : memBytes m a (n + 1) = memGet m a :: memBytes m (a + 1) n := by
  simp only [memBytes, List.range_succ_eq_map, List.map_cons, List.map_map, Nat.add_zero]
  congr 1
  apply List.map_congr_left
  intro i _
  rw [Function.comp_apply, Nat.succ_eq_add_one, show a + (i + 1) = a + 1 + i by omega]

theorem memBytes_memPut (m : List Host.Cell) (a : Nat) (d : Bytes) (h : Memory.wf m = true) : memBytes (memPut m a d) a d.length = d := by
  induction d generalizing m a with
  | nil => rfl
  | cons x r ih =>
    rw [memPut, List.length_cons, memBytes_succ, ih _ _ (memSet_wf m a x h), memGet_memPut_ne _ _ _ _ (.inl (Nat.lt_succ_self a)),
      memGet_memSet m a x h]

/-- Settles O50. -/
theorem memoryReadsBackWrites : Obligations.MemoryReadsBackWrites := by
  unfold Obligations.MemoryReadsBackWrites
  exact fun m a d h => ⟨memBytes_memPut m a d h, fun b hb => memGet_memPut_ne m a b d hb⟩

end Sys2Proof.Machine
end

section
/-! A millisecond of operating time (R93, R409, R570, R613). -/

namespace Sys2Proof.Machine

/-- One millisecond more in the vault (R143, R570, R613). -/
def Vault.ticked (v : Vault) : Vault := { v with opTime := min (v.opTime + 1) (2 ^ 44 - 1), sinceBank := v.sinceBank + 1 }

/-- One millisecond more for the groups of a hearth (R409). -/
def Hearth.ticked (x : Hearth) : Hearth := { x with groups := x.groups.mapVals (fun _ g => { g with idleMs := g.idleMs + 1 }) }

theorem doTick_of_intact {s : State} (h : s.chim.vault.intact = true) : doTick s =
    { s with
      chim := { s.chim with vault := s.chim.vault.ticked }
      flue := { s.flue with vfs := s.flue.vfs.mapVals (refill s) }
      hearths := s.hearths.mapVals (fun h x => if s.up h then x.ticked else x) } := by
  simp only [doTick, h]
  rfl

/-- A hearth after a change of every hearth, which leaves an absent one as it is. -/
theorem getD_mapVals {α : Type} (t : Tab α) (f : Nat → α → α) (d : α) (n : Nat) (hf : f n d = d) :
    (t.mapVals f).getD n d = f n (t.getD n d) := by
  unfold Tab.getD
  rw [Tab.find?_mapVals]
  cases t.find? n with
  | none => exact hf.symm
  | some x => rfl

theorem doTick_H {s : State} (hi : s.chim.vault.intact = true) (h : Nat) :
    (doTick s).H h = if s.up h then (s.H h).ticked else s.H h := by
  rw [doTick_of_intact hi]
  refine getD_mapVals s.hearths (fun h x => if s.up h then x.ticked else x) {} h ?_
  split <;> rfl

/-- Settles O45: the three parts of a tick, each a change of every entry of one table. -/
theorem operatingTime : Obligations.OperatingTime := by
  unfold Obligations.OperatingTime
  refine ⟨fun s hi => ⟨doTick s, rfl, ?_⟩, fun s hi => ?lost⟩
  case lost => exact congrArg Host.Outcome.next (if_pos (by simp [hi]))
  refine ⟨?time, ?since, ?regs, ?out, ?queue, fun v x hv => ?tokens, fun h g x hu hg => ?idle, fun h g hu => ?stopped⟩
  case idle =>
    rw [State.group?, doTick_H hi, if_pos hu, Hearth.ticked, Tab.find?_mapVals]
    exact congrArg (Option.map _) hg
  case stopped => rw [State.group?, doTick_H hi, if_neg (by simp [hu]), State.group?]
  case tokens =>
    refine ⟨refill s v x, ?_, rfl, rfl⟩
    rw [doTick_of_intact hi, Tab.find?_mapVals, hv, Option.map_some]
  all_goals simp only [doTick_of_intact hi, Vault.ticked]

end Sys2Proof.Machine
end

section
/-! The run of a job's function: what it gives, and what it leaves alone (R171, R232 to R234, R345). -/

namespace Sys2Proof.Machine

/-- The entry a run leaves, in shares where the job is masked. -/
theorem leave_of_maskOut {x y : Job} (hx : x.outShares = [] ∧ x.resShares = [])
    (h : y = x ∨ ∃ o r, y = { x with outData := [], result := [], outShares := o, resShares := r }
      ∧ o ≠ [] ∧ r ≠ [] ∧ unshare o = x.outData ∧ unshare r = x.result) :
    y.leave.outData = x.outData ∧ y.leave.result = x.result := by
  rcases h with rfl | ⟨o, r, rfl, ho, hr, eo, er⟩
  · simp [Job.leave, hx]
  · simp [Job.leave, ho, hr, eo, er]

/-- The function's run changes the frame of its job, and leaves its job's entry. -/
theorem ran_frame {h j : Nat} {s : State} {x : Job} (f : Job → Job) (e : s.job? h j = some x) (hu : (f x).units = x.units)
    (hne : x.units ≠ []) : RunFrame h j x.units s (ran h j f s) ∧
      ∃ y, (ran h j f s).job? h j = some y ∧ (y = { f x with ran := true } ∨ ∃ o r,
        y = { f x with ran := true, outData := [], result := [], outShares := o, resShares := r }
        ∧ o ≠ [] ∧ r ≠ [] ∧ unshare o = (f x).outData ∧ unshare r = (f x).result) := by
  have e1 := job_modJob (fun x => { f x with ran := true }) e
  obtain ⟨f2, y, e2, hy⟩ := maskOut_frame e1
  obtain ⟨f3, e3⟩ := fillSpan_frame e2
  have hyu : y.units = x.units := by
    rcases hy with rfl | ⟨o, r, rfl, -⟩ <;> exact hu
  have stays : ran h j f s = fillSpan h j (maskOut h j (s.modJob h j (fun x => { f x with ran := true }))) := by
    rw [ran, e3]
    simp [hyu, hne]
  rw [stays]
  rw [hyu] at f3
  simp only [hu] at f2
  exact ⟨((RunFrame.modJob _ s).trans f2).trans f3, y, e3, hy⟩

/-- Settles O23, by the frames of the shares' making and of the run. -/
theorem jobFunctionFrame : Obligations.JobFunctionFrame := by
  unfold Obligations.JobFunctionFrame
  intro s h j jb b r e hne
  obtain ⟨f1, ks, l, e1, hks, hl⟩ := maskIn_frame b e
  obtain ⟨f2, y, e2, hy⟩ := ran_frame (fun x => x.took r) e1 rfl hne
  have f := f1.trans f2
  have rest := f.rest
  obtain ⟨hout, hres⟩ := leave_of_maskOut (x := { Job.took { jb with keys := ks, inShares := l } r with ran := true }) ⟨rfl, rfl⟩ hy
  refine ⟨congrArg (·.regs) rest, congrArg (·.flue) rest, congrArg (·.chim) rest, congrArg (·.out) rest, congrArg (·.variant) rest,
    congrArg (·.pending) rest, f.others, f.jobs, ⟨y, e2, ?entry⟩, f.eng, f.here⟩
  case entry =>
    refine ⟨?_, ?_, hout, hres, ?_⟩
    all_goals rcases hy with rfl | ⟨o, q, rfl, -⟩
    · rfl
    · rfl
    · rfl
    · rfl
    · exact ⟨rfl, rfl, rfl, rfl, rfl, rfl, rfl, rfl, hks, hl⟩
    · exact ⟨rfl, rfl, rfl, rfl, rfl, rfl, rfl, rfl, hks, hl⟩

end Sys2Proof.Machine
end

section
/-! Banking of the embers and of a key cache (R142 to R148): shares change, and what they make stays. -/

namespace Sys2Proof.Machine

/-- The same bytes added to two shares of one length leave what the shares make. -/
theorem xorBytes_both {a b : Bytes} (r : Bytes) (h : a.length = b.length) : xorBytes (xorBytes a r) (xorBytes b r) = xorBytes a b := by
  induction a generalizing b r with
  | nil =>
    cases b with
    | nil => rfl
    | cons y b => exact nomatch h
  | cons x a ih =>
    cases b with
    | nil => exact nomatch h
    | cons y b =>
      cases r with
      | nil => rfl
      | cons z r =>
        simp only [xorBytes, ih r (Nat.succ.inj h)]
        congr 1
        rw [BitVec.xor_comm y z, ← BitVec.xor_assoc, BitVec.xor_assoc x z z, BitVec.xor_self, BitVec.xor_zero]

theorem remask_none_value (x : Shared) : (remask x none).value = x.value := rfl

theorem remask_some_value {x : Shared} (r : Bytes) (h : x.s.length = x.m.length) : (remask x (some r)).value = x.value :=
  xorBytes_both r h

/-! ### Banking without main power -/

/-- The vault after embers of its table are re-masked by their polarity alone. -/
def Vault.repolarised (v : Vault) (l : List (Nat × Shared)) : Vault :=
  { v with embers := l.foldl (fun t p => t.put p.1 (remask p.2 none)) v.embers }

/-- One ember's banking with no randomness. -/
def bankDry (a : State × Bool) (p : Nat × Shared) : State × Bool :=
  (a.1.modVault (fun v => { v with embers := v.embers.put p.1 (remask p.2 none) }), a.2 || true)

theorem foldl_bankDry (l : List (Nat × Shared)) (a : State × Bool) :
    (l.foldl bankDry a).1 = a.1.modVault (fun v => v.repolarised l) := by
  induction l generalizing a with
  | nil => rfl
  | cons p l ih => rw [List.foldl_cons, ih]; rfl

/-- Embers put back in the order of their table each stand where they stood. -/
theorem find?_repolarise {l : List (Nat × Shared)} (hl : Tab.Rising l) (t : Tab Shared) (h : Nat) :
    Tab.find? (l.foldl (fun t p => t.put p.1 (remask p.2 none)) t) h =
      match Tab.find? l h with
      | some x => some (remask x none)
      | none => t.find? h := by
  induction l generalizing t with
  | nil => rfl
  | cons p l ih =>
    obtain ⟨k, x⟩ := p
    obtain ⟨hk, hr⟩ := List.pairwise_cons.1 hl
    rw [List.foldl_cons, ih hr]
    by_cases e : k = h
    · subst e
      have hn : Tab.find? l k = none := Tab.find?_below hk
      simp [hn, Tab.find?]
    · have : Tab.find? ((k, x) :: l) h = Tab.find? l h := by simp [Tab.find?, e]
      rw [this]
      cases Tab.find? l h with
      | some y => rfl
      | none => exact Tab.find?_put_ne _ _ _ _ (Ne.symm e)

/-- What the embers make is what they made. -/
theorem repolarised_values {v : Vault} (hv : v.embers.sorted = true) (h : Nat) :
    ((v.repolarised v.embers).embers.find? h).map Shared.value = (v.embers.find? h).map Shared.value := by
  rw [Vault.repolarised, find?_repolarise ((Tab.sorted_iff _).1 hv)]
  cases v.embers.find? h <;> rfl

/-- The owner ember after its polarity changed, where it is valid. -/
def Vault.ownerTurned (v : Vault) : Vault := if v.valid then { v with owner := remask v.owner none } else v

theorem bankEmbers_false (s : State) : bankEmbers false s =
    if (s.chim.vault.embers.foldl bankDry (s, false)).1.chim.vault.valid then
      ((s.chim.vault.embers.foldl bankDry (s, false)).1.modVault (fun v => { v with owner := remask v.owner none }),
        (s.chim.vault.embers.foldl bankDry (s, false)).2 || true)
    else s.chim.vault.embers.foldl bankDry (s, false) := rfl

theorem bankEmbers_dry (s : State) : (bankEmbers false s).1 =
    s.modVault (fun v => (v.repolarised v.embers).ownerTurned) := by
  rw [bankEmbers_false, foldl_bankDry]
  change (if s.chim.vault.valid = true then _ else _ : State × Bool).1 = s.modVault (fun v => if v.valid then _ else _)
  by_cases hv : s.chim.vault.valid = true
  · simp only [if_pos hv, State.modVault, State.modChim]
  · simp only [if_neg hv, State.modVault, State.modChim, foldl_bankDry]

theorem Vault.ownerTurned_eq (v : Vault) :
    v.ownerTurned = { v with owner := if v.valid then remask v.owner none else v.owner } := by
  unfold Vault.ownerTurned
  split <;> rfl

/-- The vault after a banking with main power off (R143, R145). -/
def Vault.bankedDry (v : Vault) (owed : Bool) : Vault :=
  { v.repolarised v.embers with
    owner := if v.valid then remask v.owner none else v.owner
    sinceBank := 0, polarity := !v.polarity, deferred := true, freshOwed := owed }

theorem doBanking_standby {s : State} (hd : bankDue s = true) (hi : s.chim.vault.intact = true) (hm : s.chim.main = false) :
    doBanking s = s.modVault (fun v => v.bankedDry (v.freshOwed && !drbgThere s)) := by
  have hgo : ¬((!bankDue s) = true ∨ (!s.chim.vault.intact) = true) := by simp [hd, hi]
  simp only [doBanking, if_neg hgo, hm, Bool.not_false, Bool.or_true, if_true, bankEmbers_dry, Vault.ownerTurned_eq]
  rfl

/-! ### Banking with main power -/

theorem doBanking_main {s t : State} {dry : Bool} (hd : bankDue s = true) (hi : s.chim.vault.intact = true)
    (hm : s.chim.main = true) (hb : bankEmbers true s = (t, dry)) : doBanking s =
      let u := t.hearthList.foldl (fun x h => sendPulse h xBankings x)
        ((t.modVault (fun v => { v with sinceBank := 0, polarity := !v.polarity, deferred := dry,
                                        freshOwed := v.freshOwed && !drbgThere s })).wr vaultPage Reg.BANK_LAST_TIME t.now)
      if dry then raiseFlue evVltBankDeferred vaultPage {} u else u := by
  have hgo : ¬((!bankDue s) = true ∨ (!s.chim.vault.intact) = true) := by simp [hd, hi]
  simp only [doBanking, if_neg hgo, hm, hb, Bool.not_true, Bool.or_false, Bool.false_eq_true, if_false]
  rfl

/-! ### The banking pass of a key cache -/

/-- The same key in fresh shares: all else of the entry, and what its shares make, stays. -/
structure Reshared (e f : KeyEntry) : Prop where
  rest  : f = { e with shareA := f.shareA, shareB := f.shareB }
  value : xorBytes f.shareA f.shareB = xorBytes e.shareA e.shareB
  even  : f.shareA.length = f.shareB.length

theorem Reshared.refl {e : KeyEntry} (h : e.shareA.length = e.shareB.length) : Reshared e e := ⟨rfl, rfl, h⟩

/-- Fresh bytes for both shares. -/
theorem Reshared.next {e f : KeyEntry} (h : Reshared e f) (r : Bytes) :
    Reshared e { f with shareA := xorBytes f.shareA r, shareB := xorBytes f.shareB r } :=
  ⟨by rw [h.rest], (xorBytes_both r h.even).trans h.value, by simpa using h.even⟩

/-- One entry of the pass. -/
def reshareEntry (h : Nat) (s : State) (p : Nat × KeyEntry) : State :=
  let (r, g) := (s.H h).cacheMg.draw p.2.shareA.length
  s.modH h (fun x => { x with cacheMg := g, cache := x.cache.upd p.1 (fun e =>
    { e with shareA := xorBytes e.shareA r, shareB := xorBytes e.shareB r }) })

theorem reshareEntry_reshared {h i : Nat} {e f : KeyEntry} {s : State} (p : Nat × KeyEntry)
    (hf : (s.H h).cache.find? i = some f) (hr : Reshared e f) :
    ∃ g, ((reshareEntry h s p).H h).cache.find? i = some g ∧ Reshared e g := by
  unfold reshareEntry
  simp only [State.H_modH]
  by_cases hi : i = p.1
  · subst hi
    exact ⟨_, Tab.find?_upd _ hf, hr.next _⟩
  · exact ⟨f, (Tab.find?_upd_ne _ _ hi).trans hf, hr⟩

theorem foldl_reshareEntry {h i : Nat} {e f : KeyEntry} (l : List (Nat × KeyEntry)) {s : State}
    (hf : (s.H h).cache.find? i = some f) (hr : Reshared e f) :
    ∃ g, ((l.foldl (reshareEntry h) s).H h).cache.find? i = some g ∧ Reshared e g := by
  induction l generalizing s f with
  | nil => exact ⟨f, hf, hr⟩
  | cons p l ih =>
    obtain ⟨g, hg, hrg⟩ := reshareEntry_reshared p hf hr
    exact ih hg hrg

theorem reshare_eq (h : Nat) (s : State) : reshare h s = (s.H h).cache.foldl (reshareEntry h) s := rfl

/-- Settles O43, by the shares that a banking and a pass of the key cache leave. -/
theorem bankingKeepsKeys : Obligations.BankingKeepsKeys := by
  unfold Obligations.BankingKeepsKeys
  refine ⟨fun x r hs hm _ => ⟨remask_some_value r (hs.trans hm.symm), rfl⟩, fun s hd hi hm he => ?standby,
    fun s t dry hd hi hm hb => congrArg Host.Outcome.next (doBanking_main hd hi hm hb), fun s h => ?idle,
    fun h s i e _ hf hl => ?pass⟩
  case standby =>
    refine ⟨_, congrArg Host.Outcome.next (doBanking_standby hd hi hm), rfl, rfl, rfl, ?_, rfl, rfl, rfl, rfl, rfl⟩
    exact fun h => repolarised_values he h
  case idle =>
    refine congrArg Host.Outcome.next (if_pos ?_)
    rcases h with h | h <;> simp [h]
  case pass =>
    rw [reshare_eq]
    obtain ⟨f, hf', hr⟩ := foldl_reshareEntry (s.H h).cache hf (Reshared.refl hl)
    exact ⟨f, hf', hr.value, hr.rest⟩

end Sys2Proof.Machine
end

section
/-! The caches of a hearth (R522, R529, R530; log 143). -/

namespace Sys2Proof.Machine

/-! ### Lines of a cache -/

theorem lineIn_append_of_none {ls : List CacheLine} {c : CacheLine} (h : lineIn ls c.line c.outer = none) :
    lineIn (ls ++ [c]) c.line c.outer = some c := by
  unfold lineIn at h ⊢
  rw [List.find?_append, h]
  simp

/-- A line put in the place of its older copy is found. -/
theorem lineIn_lineSet {ls : List CacheLine} {c o : CacheLine} (h : lineIn ls c.line c.outer = some o) :
    lineIn (lineSet ls c) c.line c.outer = some c := by
  induction ls with
  | nil => exact nomatch h
  | cons x r ih =>
    unfold lineIn lineSet at ih ⊢
    by_cases e : x.line = c.line ∧ x.outer = c.outer
    · simp [e]
    · have hx : (x.line == c.line && x.outer == c.outer) = false := by simpa using e
      rw [lineIn, List.find?_cons_of_neg (by simpa using e)] at h
      rw [List.map_cons, if_neg e, List.find?_cons_of_neg (by simpa using e)]
      exact ih h

/-- A line in the place of another one is found, where there was no copy of it. -/
theorem lineIn_set {ls : List CacheLine} {c : CacheLine} {v : Nat} (h : lineIn ls c.line c.outer = none) (hv : v < ls.length) :
    lineIn (ls.set v c) c.line c.outer = some c := by
  induction ls generalizing v with
  | nil => exact nomatch hv
  | cons x r ih =>
    rw [lineIn, List.find?_eq_none, List.forall_mem_cons] at h
    obtain ⟨hx, hr⟩ := h
    cases v with
    | zero => simp [lineIn]
    | succ v =>
      rw [List.set_cons_succ, lineIn, List.find?_cons_of_neg (by simpa using hx)]
      exact ih (List.find?_eq_none.2 hr) (Nat.lt_of_succ_lt_succ hv)

/-! ### The ways of the L2 -/

theorem l2Ways_pos (outer : Bool) : 0 < l2Ways outer := by cases outer <;> decide

theorem l2Group_l2Store (h line : Nat) (outer : Bool) (g : L2Group) (s : State) : l2Group (l2Store h line outer g s) h line outer = g := by
  simp [l2Group, l2Store, State.modCaches]

/-- The keys of the two worlds' ways differ in their lowest bit. -/
theorem l2Key_world_ne (line other : Nat) (outer : Bool) : l2Key other (!outer) ≠ l2Key line outer := by
  cases outer <;> simp [l2Key, b2n] <;> omega

theorem l2Group_l2Store_other (h line other : Nat) (outer : Bool) (g : L2Group) (s : State) :
    l2Group (l2Store h line outer g s) h other (!outer) = l2Group s h other (!outer) := by
  simp only [l2Group, l2Store, State.modCaches, State.H_modH]
  exact Tab.getD_put_ne _ _ _ _ _ (l2Key_world_ne line other outer)

/-- What the ways hold after a line is brought in, or written. -/
theorem l2Put_group (h : Nat) (c : CacheLine) (s : State) : ∃ ls n, l2Group (l2Put h c s) h c.line c.outer = ⟨ls, n⟩ ∧
    (∃ x, lineIn ls c.line c.outer = some x ∧ x.data = c.data) ∧
    ((l2Group s h c.line c.outer).lines.length ≤ l2Ways c.outer → ls.length ≤ l2Ways c.outer) := by
  unfold l2Put
  dsimp only
  split
  · rename_i o ho
    refine ⟨_, _, l2Group_l2Store .., ⟨{ c with dirty := c.dirty || o.dirty }, ?_, rfl⟩, fun hl => by simpa [lineSet] using hl⟩
    exact lineIn_lineSet (c := { c with dirty := c.dirty || o.dirty }) ho
  · rename_i hn
    split
    · rename_i hroom
      exact ⟨_, _, l2Group_l2Store .., ⟨c, lineIn_append_of_none hn, rfl⟩, fun _ => by rw [List.length_append]; exact hroom⟩
    · rename_i hfull
      have hv := Nat.mod_lt (Config.l2Victim (l2Key c.line c.outer) (l2Group s h c.line c.outer).repl) (l2Ways_pos c.outer)
      exact ⟨_, _, l2Group_l2Store .., ⟨c, lineIn_set hn (Nat.lt_of_lt_of_le hv (Nat.le_of_not_lt hfull)), rfl⟩,
        fun hl => by simpa using hl⟩

/-! ### Accesses -/

theorem lineAccess_past {h : Nat} {q : Req} {a : Nat} {s : State} (n : Nat) (d : Bytes) (c : LineCheck)
    (hc : cacheable s h q a = false) : lineAccess h q a n d c s = fabric h q a n d c [] s := by
  simp [lineAccess, hc]

/-- Where no core's data cache holds a dirty copy of a line, none is cleaned. -/
theorem cleanPeers_of_clean {h line : Nat} {outer : Bool} {s : State}
    (hk : ∀ k, k < 4 → ∀ x, lineIn (l1Of s h k false) line outer = some x → x.dirty = false) : cleanPeers h line outer s = s := by
  unfold cleanPeers
  refine List.foldlRecOn (motive := (· = s)) _ _ rfl (fun t ht k hm => ?_)
  subst ht
  split
  · rename_i x hx
    rw [hk k (List.mem_range.1 hm) x hx]; rfl
  · rfl

/-- A load whose line the core's cache holds. -/
theorem coreCached_hit {h : Nat} {q : Req} {a : Nat} {c : LineCheck} {s : State} {x : CacheLine} (n : Nat) (d : Bytes)
    (hw : q.writes = false) (hk : checkAccess h q a c s = (s, none))
    (hx : lineIn (l1Of s h q.master q.fetches) (a / 64) q.outer = some x) :
    coreCached h q a n d c s = (s, .ok (slice x.data (a % 64) n)) := by
  simp [coreCached, hw, hk, getLine, hx]

theorem flushL1_of_clean {h c : Nat} {s : State} (hd : ∀ x ∈ l1Of s h c false, x.dirty = false) :
    flushL1 h c s = s.modCaches h (fun x => { x with l1d := x.l1d.del c, l1i := x.l1i.del c }) := by
  have : (l1Of s h c false).filter (fun x => x.dirty) = [] := List.filter_eq_nil_iff.2 (fun x hx => by simp [hd x hx])
  rw [flushL1, this]; rfl

theorem Tab.getD_del {α : Type} {t : Tab α} (h : t.sorted = true) (n : Nat) (d : α) : (t.del n).getD n d = d := by
  rw [Tab.getD, Tab.find?_del ((Tab.sorted_iff t).1 h)]; rfl

/-- Settles O51. -/
theorem cachesServeTheirWorld : Obligations.CachesServeTheirWorld := by
  unfold Obligations.CachesServeTheirWorld
  refine ⟨fun h q a n d c s hp => ?past, fun h c s => ?put, ⟨rfl, rfl⟩,
    fun h line other outer g s => ⟨l2Group_l2Store_other .., l2Group_l2Store ..⟩, fun h q a n d c s x hc hm hw hk hx => ?hit,
    fun h q a n d c s hc hm hclean => ?debug, fun h c s hd hsd hsi => ?flush, fun x b => ⟨rfl, rfl, rfl⟩⟩
  case past =>
    refine lineAccess_past n d c ?_
    rcases hp with ⟨h1, h2⟩ | hp
    · simp [cacheable, h1, h2]
    · simp [cacheable, hp]
  case put =>
    obtain ⟨ls, n, hg, hf, hl⟩ := l2Put_group h c s
    rw [l2Find, hg]
    exact ⟨hf, hl⟩
  case hit => simp only [lineAccess, hc, Bool.not_true, Bool.false_eq_true, if_false, hm, coreCached_hit n d hw hk hx]
  case debug =>
    have go : lineAccess h q a n d c s = debugCached h q a n d c s := by simp [lineAccess, hc, hm]
    rw [go, debugCached, cleanPeers_of_clean hclean]
    exact ⟨fun hn => by simp [hn], fun x hx hw hk => by simp [hx, hw, hk]⟩
  case flush =>
    rw [flushL1_of_clean hd]
    simp [l1Of, State.modCaches, Tab.getD_del hsd, Tab.getD_del hsi]

end Sys2Proof.Machine
end

section
/-! Tamper: the log, the pins, trips, responses and the quench (R571 to R605). -/

namespace Sys2Proof.Machine

/-! ### One log entry -/

theorem EventFrame.raiseTamper (n : Nat) (b : Bytes) (s : State) : EventFrame s (raiseTamper n b s) := .ite (.raiseFlue ..) (.refl s)

/-- A log entry leaves, of the chimney, everything but the log itself alone. -/
structure LogFrame (s t : State) : Prop where
  hearths : t.hearths = s.hearths
  chim    : t.chim = { s.chim with vault := { s.chim.vault with
    log := t.chim.vault.log, logSeq := t.chim.vault.logSeq, logDropped := t.chim.vault.logDropped } }
  variant : t.variant = s.variant

theorem LogFrame.events {s t u : State} (a : LogFrame s t) (b : EventFrame t u) : LogFrame s u :=
  ⟨b.hearths.trans a.hearths, by rw [b.chim]; exact a.chim, b.variant.trans a.variant⟩

theorem logEntry_frame (kind source resp flags : Nat) (s : State) : LogFrame s (logEntry kind source resp flags s).1 := by
  unfold logEntry
  dsimp only
  split
  · exact ⟨rfl, rfl, rfl⟩
  · split
    · exact ⟨rfl, rfl, rfl⟩
    · exact .events (t := s.modVault (fun v => { v with logDropped := satAdd 8 v.logDropped 1 })) ⟨rfl, rfl, rfl⟩ (.raiseTamper ..)

/-- An entry where the log has room. -/
theorem logEntry_of_room (kind source resp flags : Nat) {s : State} (h : s.chim.vault.log.length < 252) :
    ∃ e n, (logEntry kind source resp flags s).1 = s.modVault (fun v => { v with log := s.chim.vault.log ++ [e], logSeq := n }) := by
  unfold logEntry
  rw [if_pos h]
  exact ⟨_, _, rfl⟩

/-! ### Responses -/

theorem minResp_lt (n : Nat) (h : n < 30) : minResp n < 4 := by
  have := (by decide : ∀ k, k < 30 → minResp k < 4)
  exact this n h

/-- A field of the response table written, while its detector is clear: nothing, or the response and a log entry. -/
theorem writeResp_resp {n v : Nat} {s : State} (b : Bool) (ha : s.chim.active.testBit n = false) :
    (writeResp n v (s, b)).1.chim.vault.resp = s.chim.vault.resp ∨
    (¬(s.chim.vault.locked = true ∧ max v (minResp n) < respAt s.chim.vault.resp n) ∧
      (writeResp n v (s, b)).1.chim.vault.resp =
        s.chim.vault.resp - respAt s.chim.vault.resp n * 4 ^ n + max v (minResp n) * 4 ^ n) := by
  unfold writeResp
  dsimp only
  split
  · exact .inl rfl
  · split
    · exact .inl rfl
    · rename_i hl
      refine .inr ⟨by simpa using hl, ?_⟩
      have hf := logEntry_frame kResponse n (max v (minResp n)) 0 (s.modVault (fun x =>
        { x with resp := x.resp - respAt s.chim.vault.resp n * 4 ^ n + max v (minResp n) * 4 ^ n }))
      rw [if_neg, hf.chim]
      · rfl
      · rintro ⟨-, hact⟩
        rw [hf.chim] at hact
        exact absurd (hact.symm.trans ha) (by decide)

/-- Settles O58: the written field of the response table, at least the minimum, and every other one. -/
theorem responseNeverBelowMinimum : Obligations.ResponseNeverBelowMinimum := by
  unfold Obligations.ResponseNeverBelowMinimum
  intro n v s b hn hv hmin ha
  have hm := minResp_lt n hn
  rcases writeResp_resp (v := v) b ha with h | ⟨hl, h⟩
  · rw [h]; exact ⟨hmin n hn, fun _ => Nat.le_refl _, fun _ _ _ => rfl⟩
  · have at_ : ∀ k, respAt (writeResp n v (s, b)).1.chim.vault.resp k =
        if k = n then max v (minResp n) else respAt s.chim.vault.resp k := fun k => by rw [h]; exact respAt_set _ _ _ _ (by omega)
    rw [at_ n, if_pos rfl]
    refine ⟨Nat.le_max_right .., fun hlock => ?_, fun k _ hk => by rw [at_ k, if_neg hk]⟩
    exact Nat.le_of_not_lt (fun hlt => hl ⟨hlock, hlt⟩)

/-! ### The quench -/

theorem dropEnables_chim (h m : Nat) (s : State) : (dropEnables h m s).chim = s.chim := by
  unfold dropEnables
  dsimp only
  split
  · rfl
  · exact (EventFrame.raiseFlue ..).chim

theorem dropAllEnables_chim (s : State) : (dropAllEnables s).chim = s.chim :=
  List.foldlRecOn (motive := fun (t : State) => t.chim = s.chim) _ _ rfl (fun _ ht _ _ => (dropEnables_chim ..).trans ht)

theorem quench_of_main {s : State} (hm : s.chim.main = true) : quench s =
    { dropAllEnables (clearVaultKeys s) with
      hearths := (dropAllEnables (clearVaultKeys s)).hearths.mapVals (fun _ x => clearHearthKeys x)
      chim := { (clearVaultKeys s).chim with quenching := true } } := by
  have hc := dropAllEnables_chim (clearVaultKeys s)
  have hm' : (dropAllEnables (clearVaultKeys s)).chim.main = true := by rw [hc]; exact hm
  rw [quench, if_pos hm', State.modChim, hc]

theorem quench_of_off {s : State} (hm : s.chim.main = false) : quench s =
    (dropAllEnables (clearVaultKeys s)).modVault (fun v => { v with quenched := true }) := by
  have hm' : ¬(dropAllEnables (clearVaultKeys s)).chim.main = true := by
    rw [dropAllEnables_chim]; exact fun h => absurd (h.symm.trans hm) (by decide)
  rw [quench, if_neg hm']

/-- Settles O56: the vault is cleared first, and the hearths with it while main power is on. -/
theorem quenchLeavesNoKey : Obligations.QuenchLeavesNoKey := by
  unfold Obligations.QuenchLeavesNoKey
  intro s
  cases hm : s.chim.main
  · rw [quench_of_off hm, State.modVault, State.chim_modChim, dropAllEnables_chim]
    exact ⟨rfl, rfl, rfl, rfl, rfl, rfl, fun h => absurd h (by decide), fun _ => rfl⟩
  · rw [quench_of_main hm]
    refine ⟨rfl, rfl, rfl, rfl, rfl, rfl, fun _ => ⟨rfl, fun h => ?_⟩, fun h => absurd h (by decide)⟩
    have hH : (((dropAllEnables (clearVaultKeys s)).hearths.mapVals (fun _ x => clearHearthKeys x)).getD h {} : Hearth) =
        clearHearthKeys ((dropAllEnables (clearVaultKeys s)).H h) := getD_mapVals _ (fun _ x => clearHearthKeys x) {} h rfl
    simp only [State.H, hH]
    exact ⟨rfl, rfl, rfl, rfl⟩

/-! ### Trips -/

theorem movePin_eq (name : String) (was now : Bool) (s : State) :
    movePin name was now s = { s with out := (movePin name was now s).out } := by
  unfold movePin
  split <;> rfl

/-- The pins change outputs and what the chimney notes of the pins. -/
theorem refreshPins_eq (s : State) : refreshPins s = { s with
    out := (refreshPins s).out
    chim := { s.chim with alarmN := (refreshPins s).chim.alarmN, tamperOut := (refreshPins s).chim.tamperOut } } := by
  unfold refreshPins
  dsimp only
  rw [movePin_eq, movePin_eq]
  rfl

/-- A trip that one source alone makes. -/
theorem tripSet_single {n q : Nat} {s : State} (hn : n < 30) (hc : canTrip s n = true) (ht : tripMet s.variant n q = true) :
    tripSet [(n, q)] s = [n] := by
  have : (fun k => canTrip s k && [(n, q)].any (fun p => p.1 == k && tripMet s.variant k p.2)) = fun k => k == n := by
    funext k
    by_cases h : k = n
    · subst h; simp [hc, ht]
    · have hnk : (n == k) = false := by simpa using Ne.symm h
      simp [hnk, h]
  rw [tripSet, this, List.filter_beq, List.nodup_range.count, if_pos (List.mem_range.2 hn), List.replicate_one]

theorem tripSet_unmet {n q : Nat} {s : State} (ht : tripMet s.variant n q = false) : tripSet [(n, q)] s = [] := by
  refine List.filter_eq_nil_iff.2 (fun k _ => ?_)
  by_cases h : n = k
  · subst h; simp [ht]
  · simp [h]

/-- The trip points against a reading in quarters of a degree (R572). -/
theorem tripMet_temperature (v : Variant) {q : Nat} (hq : q < 4096) :
    (tripMet v 14 q = true ↔ (if v.industrial then 460 else 440) < q ∧ q < 2048) ∧
    (tripMet v 15 q = true ↔ 2048 ≤ q ∧ q + (if v.industrial then 200 else 60) < 4096) := by
  simp only [tripMet, tripPoints, tempOf, Nat.mod_eq_of_lt hq]
  cases v.industrial <;> by_cases h : q < 2048 <;> simp [h] <;> omega

theorem refreshPins_vault (s : State) : (refreshPins s).chim.vault = s.chim.vault := by rw [refreshPins_eq]

theorem ownResp_of_not_battery {n : Nat} {s : State} (hr : regimeOf s.chim ≠ .battery) :
    ownResp s n = (respAt s.chim.vault.resp n, false) := by
  rw [ownResp, if_neg hr]

/-- What a trip of source `n` alone, of response LOG or ALARM, makes of the chimney before it is logged (R575, R589). -/
def noteTrip (n : Nat) (c : Chimney) : Chimney :=
  { c with
    vault := { c.vault with sticky := setBit c.vault.sticky n true, level := max c.vault.level (respAt c.vault.resp n) }
    active := if n < 28 then setBit c.active n true else c.active }

theorem main_of_standby {c : Chimney} (hr : regimeOf c = .standby) : c.main = false := by
  unfold regimeOf at hr
  split at hr
  · cases hr
  · simpa using ‹¬c.main = true›

theorem raiseTamper_of_off {n : Nat} {b : Bytes} {s : State} (hm : s.chim.main = false) : raiseTamper n b s = s :=
  if_neg (by simp [flueListens, hm])

/-- A trip of one source whose response is LOG or ALARM, in STANDBY, isolates nothing and quenches nothing. -/
theorem applyTrips_logged {n : Nat} {s : State} (hr : regimeOf s.chim = .standby)
    (h1 : respAt s.chim.vault.resp n ≤ 1) :
    applyTrips [n] s = refreshPins (logEntry kTrip n (respAt s.chim.vault.resp n) 0 (s.modChim (noteTrip n))).1 := by
  have hb : regimeOf s.chim ≠ .battery := by rw [hr]; decide
  have hm : (logEntry kTrip n (respAt s.chim.vault.resp n) 0 (s.modChim (noteTrip n))).1.chim.main = false := by
    rw [(logEntry_frame ..).chim]; exact main_of_standby hr
  have h2 : ¬2 ≤ respAt s.chim.vault.resp n := by omega
  have h3 : ¬respAt s.chim.vault.resp n = 3 := by omega
  have hlog : logTrips (respAt s.chim.vault.resp n) false [n] (s.modChim (noteTrip n)) =
      (logEntry kTrip n (respAt s.chim.vault.resp n) 0 (s.modChim (noteTrip n))).1 := by
    have ho : ownResp (s.modChim (noteTrip n)) n = (respAt s.chim.vault.resp n, false) := ownResp_of_not_battery hb
    simp only [logTrips, List.foldl_cons, List.foldl_nil, ho]
    exact raiseTamper_of_off hm
  have hn : applyTrips [n] s = refreshPins (logTrips (respAt s.chim.vault.resp n) false [n] (s.modChim (noteTrip n))) := by
    simp only [applyTrips, List.foldl_cons, List.foldl_nil, ownResp_of_not_battery hb, Nat.zero_max, h2, h3, false_and,
      if_false]
    rfl
  rw [hn, hlog]

/-- The readings that TAMPER_TRIP takes of one source outside the BATTERY regime. -/
theorem exec_tamperTrip_single {n : Fin 30} {v : BitVec 32} {s : State} (hi : s.chim.vault.intact = true) (hn : n.val < 28)
    (hr : regimeOf s.chim ≠ .battery) : exec (.tamperTrip [(n, v)]) s = .next (doTrips [(n.val, v.toNat)] s) := by
  show execTamperTrip [(n, v)] s = _
  rw [execTamperTrip, if_pos hi]
  simp [hn, hr]

theorem noteTemp_single {n q : Nat} (s : State) :
    noteTemp [(n, q)] s = if (n = 14 ∨ n = 15) ∧ s.chim.main then s.wr tamperPage Reg.TMP_TEMP_TEMP q else s := rfl

theorem filter_canTrip {n q : Nat} {s : State} (hc : canTrip s n = true) :
    [(n, q)].filter (fun p => canTrip s p.1) = [(n, q)] := by simp [hc]

/-- Settles O55: one log entry, whatever the source, and the trip points of the temperatures. -/
theorem tripIsLogged : Obligations.TripIsLogged := by
  unfold Obligations.TripIsLogged
  refine ⟨fun n v s hi hr hn hc ht h1 hl => ?logged, fun v q hq => tripMet_temperature v hq,
    fun n v s hi hn hc ht hr => ?unmet⟩
  case logged =>
    have hq : doTrips [(n.val, v.toNat)] s = applyTrips [n.val] s := by
      rw [doTrips, tripSet_single n.isLt hc ht, filter_canTrip hc, noteTemp_single, if_neg]
      exact fun h => absurd (h.2.symm.trans (main_of_standby hr)) (by decide)
    refine ⟨_, exec_tamperTrip_single hi hn (by rw [hr]; decide), ?_⟩
    obtain ⟨e, k, he⟩ := logEntry_of_room kTrip n.val (respAt s.chim.vault.resp n.val) 0 (s := s.modChim (noteTrip n.val)) hl
    rw [hq, applyTrips_logged hr h1, he, refreshPins_eq]
    exact ⟨rfl, rfl, List.length_append, rfl, rfl, rfl, rfl, rfl, rfl, rfl⟩
  case unmet =>
    rw [exec_tamperTrip_single hi (by omega) hr, doTrips, tripSet_unmet ht, filter_canTrip hc, noteTemp_single]
    simp only [hn, true_and]
    rfl

end Sys2Proof.Machine
end

section
/-! Register writes by page, size and reach (R711, R716, R717, R732). -/

namespace Sys2Proof.Machine

theorem exec_registerWrite {p : Page} (hp : p.wf = true) (who : Requester) (off : BitVec 12) (n : Fin 9) (b : BitVec 4) (d : Word)
    (s : State) : exec (.registerWrite p who off n b d) s =
      .next (registerWrite p who off.toNat n.val b.toNat d.toNat s) := if_pos hp

/-- A whole word at a word offset goes to its page. -/
theorem registerWrite_word (p : Page) (who : Requester) {off : Nat} (d : Nat) (s : State) (ho : off % 4 = 0) :
    registerWrite p who off 4 15 d s = reachPage p.home (wordWrite p.unit.val p.home who off d) s := by
  rw [registerWrite, if_pos ⟨rfl, rfl, ho⟩]

/-- Any other access breaks R716. -/
theorem registerWrite_part (p : Page) (who : Requester) {off n b : Nat} (d : Nat) (s : State) (h : n ≠ 4 ∨ b ≠ 15 ∨ off % 4 ≠ 0) :
    registerWrite p who off n b d s = reachPage p.home (badSize p.home who off d) s := by
  rw [registerWrite, if_neg]
  rintro ⟨h1, h2, h3⟩
  exact h.elim (· h1) (·.elim (· h2) (· h3))

/-! ### The page is reached -/

/-- The hearths' pages are none of those of the functions. -/
theorem kind_of_isHearthPage {p : Page} (h : isHearthPage p = true) : p.kind ≠ .vfQueue ∧ p.kind ≠ .msixVf ∧ p.kind ≠ .pbaVf ∧
    p.kind ≠ .cfgVf ∧ p.kind ≠ .cfgPf ∧ p.kind.bare = false := by
  have key : ∀ k : PageKind, PageKind.stoker.ctorIdx ≤ k.ctorIdx →
      k ≠ .vfQueue ∧ k ≠ .msixVf ∧ k ≠ .pbaVf ∧ k ≠ .cfgVf ∧ k ≠ .cfgPf ∧ k.bare = false := by
    intro k
    cases k <;> decide
  exact key p.kind (of_decide_eq_true h)

theorem reachPage_onPage {p : Page} (f : State → State) (s : State)
    (h : p.kind ≠ .vfQueue ∧ p.kind ≠ .msixVf ∧ p.kind ≠ .pbaVf ∧ p.kind ≠ .cfgVf ∧ p.kind ≠ .cfgPf) :
    reachPage p f s = onPage p f s := by
  simp [reachPage, h]

theorem enabled_of_answers {s : State} {h : Nat} (ha : s.answers h = true) : s.enabled h = true := by
  refine Decidable.byContradiction (fun he => ?_)
  simp [State.answers, State.hState, he, hsStarting, hsStarted, hsFatal] at ha

/-- A hearth's page is reached after the wake where the hearth answers, and else not (R732). -/
theorem reachPage_hearth {p : Page} (f : State → State) (s : State) (hp : isHearthPage p = true) :
    reachPage p f s = if s.answers p.unit.val then f (wakeHearth p.unit.val s) else s := by
  obtain ⟨h1, h2, h3, h4, h5, -⟩ := kind_of_isHearthPage hp
  rw [reachPage_onPage f s ⟨h1, h2, h3, h4, h5⟩, onPage, if_pos hp, onHearth]
  by_cases ha : s.answers p.unit.val = true
  · rw [if_pos (enabled_of_answers ha)]
  · rw [if_neg ha, ite_self]

theorem reachPage_flue {p : Page} (f : State → State) {s : State} (hp : isHearthPage p = false) (hs : s.flueUp = true)
    (h : p.kind ≠ .vfQueue ∧ p.kind ≠ .msixVf ∧ p.kind ≠ .pbaVf ∧ p.kind ≠ .cfgVf ∧ p.kind ≠ .cfgPf) :
    reachPage p f s = f s := by
  rw [reachPage_onPage f s h, onPage]
  simp [hp, hs]

theorem reachPage_vfQueue {p : Page} (f : State → State) {s : State} (hp : p.kind = .vfQueue)
    (hr : reach (.vf p.unit 0) s = .ok) : reachPage p f s = f s := by
  rw [reachPage, if_pos hp, onQueue, hr]

theorem reachPage_function {p : Page} (f : State → State) {s : State}
    (h : ((p.kind = .msixVf ∨ p.kind = .pbaVf) ∧ s.flueUp = true ∧ s.vfExists p.unit.val = true) ∨
      (p.kind = .cfgVf ∧ flueListens s = true ∧ s.vfExists p.unit.val = true) ∨ (p.kind = .cfgPf ∧ flueListens s = true)) :
    reachPage p f s = f s := by
  rcases h with ⟨hk | hk, h1, h2⟩ | ⟨hk, h1, h2⟩ | ⟨hk, h1⟩ <;> simp [reachPage, *]

/-- The functions' own pages are no pages of the chimney, which alone stand elsewhere. -/
theorem home_of_kind {p : Page} (h : p.kind ≠ .tamper ∧ p.kind ≠ .fuse) : p.home = p := by
  simp [Page.home, h]

/-- Settles O11: the size decides what the page gets, and the page's kind whether it is reached. -/
theorem registerWrites : Obligations.RegisterWrites := by
  unfold Obligations.RegisterWrites
  refine ⟨?hearth, ?flue, ?queue, ?function, ?size, ?silent, fun p who off n b d s hp => if_neg (by simp [hp])⟩
  case hearth =>
    rintro p q who off d s hp rfl hq ha ho
    exact (exec_registerWrite hp ..).trans (congrArg _ ((registerWrite_word p who d.toNat s ho).trans
      ((reachPage_hearth _ s hq).trans (if_pos ha))))
  case flue =>
    rintro p q who off d s hp rfl h1 h2 h3 h4 h5 hq hs ho
    exact (exec_registerWrite hp ..).trans (congrArg _ ((registerWrite_word p who d.toNat s ho).trans
      (reachPage_flue _ hq hs ⟨h1, h2, h3, h4, h5⟩)))
  case queue =>
    intro p who off d s hp hk hr ho
    have hh := home_of_kind (p := p) (by simp [hk])
    have hw := registerWrite_word p who d.toNat s ho
    rw [hh] at hw
    exact (exec_registerWrite hp ..).trans (congrArg _ (hw.trans (reachPage_vfQueue _ hk hr)))
  case function =>
    intro p who off d s hp ho h
    have hh := home_of_kind (p := p) (by rcases h with ⟨hk | hk, -⟩ | ⟨hk, -⟩ | ⟨hk, -⟩ <;> simp [hk])
    have hw := registerWrite_word p who d.toNat s ho
    rw [hh] at hw
    exact (exec_registerWrite hp ..).trans (congrArg _ (hw.trans (reachPage_function _ h)))
  case size =>
    rintro p q who off n b d s hp rfl hq ha hn hf
    have hpart : n.val ≠ 4 ∨ b.toNat ≠ 15 ∨ off.toNat % 4 ≠ 0 :=
      hn.imp (fun h e => h (Fin.ext e)) (Or.imp_left (fun h e => h (BitVec.eq_of_toNat_eq e)))
    rw [exec_registerWrite hp, registerWrite_part _ _ _ _ hpart, reachPage_hearth _ _ hq, if_pos ha, badSize, if_neg]
    obtain ⟨-, -, -, -, -, hbare⟩ := kind_of_isHearthPage hq
    simp [hf, hbare]
  case silent =>
    rintro p q who off n b d s hp rfl hq ha
    have hreach : ∀ f, reachPage p.home f s = s := fun f => (reachPage_hearth f s hq).trans (if_neg (by simp [ha]))
    rw [exec_registerWrite hp, registerWrite, hreach]

end Sys2Proof.Machine
end

section
/-! Doorbells and the control of queue pairs (R48, R56 to R66, R86). -/

namespace Sys2Proof.Machine

/-! ### The offsets of the doorbells -/

theorem doorbellAt_vf (v : Fin 512) (q : Fin 8) : doorbellAt (some v) (0x100 * q.val) = some (.vf v q, false) ∧
    doorbellAt (some v) (0x100 * q.val + 8) = some (.vf v q, true) := by
  have hq := q.isLt
  have h0 : 256 * q.val % 256 = 0 := Nat.mul_mod_right ..
  have h8 : (256 * q.val + 8) % 256 = 8 := by omega
  have d0 : 256 * q.val / 256 = q.val := by omega
  have d8 : (256 * q.val + 8) / 256 = q.val := by omega
  simp [doorbellAt, h0, h8, d0, d8, hq]

theorem doorbellAt_pf0 (q : Fin 4) : doorbellAt none (0x100 * q.val) = some (.admin q, false) ∧
    doorbellAt none (0x100 * q.val + 8) = some (.admin q, true) := by
  have hq := q.isLt
  have h0 : 256 * q.val % 256 = 0 := Nat.mul_mod_right ..
  have h8 : (256 * q.val + 8) % 256 = 8 := by omega
  have d0 : 256 * q.val / 256 = q.val := by omega
  have d8 : (256 * q.val + 8) / 256 = q.val := by omega
  simp [doorbellAt, h0, h8, d0, d8, hq]

theorem doorbellAt_reserved {fn : Option (Fin 512)} {off : Nat}
    (h : (off % 0x100 ≠ 0 ∧ off % 0x100 ≠ 8) ∨ 0x800 ≤ off ∨ (fn = none ∧ 0x400 ≤ off)) : doorbellAt fn off = none := by
  unfold doorbellAt
  dsimp only
  split
  · rfl
  · rename_i hm
    cases fn with
    | none => exact if_neg (by simp at h; omega)
    | some v => exact if_neg (by simp at h; omega)

/-- An access to a reserved offset of a function that is there (R717). -/
theorem reservedDoor_of_there {fn : Option (Fin 512)} (acc : DoorAccess) {s : State} (hs : s.flueUp = true)
    (hv : ∀ v, fn = some v → s.vfExists v = true) : reservedDoor fn acc s = readZero acc s := by
  cases fn with
  | none => simp [reservedDoor, hs]
  | some v => simp [reservedDoor, hs, hv v rfl]

theorem exec_sqTailDoorbell_reserved {fn : Option (Fin 512)} {off : BitVec 12} (acc : DoorAccess) {s : State}
    (hd : doorbellAt fn off.toNat = none) (hs : s.flueUp = true) (hv : ∀ v, fn = some v → s.vfExists v = true) :
    exec (.sqTailDoorbell fn off acc) s = .next (readZero acc s) := by
  rw [exec_sqTailDoorbell_eq, execSqTailDoorbell, hd]
  exact congrArg _ (reservedDoor_of_there acc hs hv)

theorem exec_cqHeadDoorbell_reserved {fn : Option (Fin 512)} {off : BitVec 12} (acc : DoorAccess) {s : State}
    (hd : doorbellAt fn off.toNat = none) (hs : s.flueUp = true) (hv : ∀ v, fn = some v → s.vfExists v = true) :
    exec (.cqHeadDoorbell fn off acc) s = .next (readZero acc s) := by
  rw [exec_cqHeadDoorbell_eq, execCqHeadDoorbell, hd]
  exact congrArg _ (reservedDoor_of_there acc hs hv)

/-! ### Accesses to a doorbell -/

theorem exec_sqTailDoorbell_at {fn : Option (Fin 512)} {off : BitVec 12} {t : Queue} (acc : DoorAccess) (s : State)
    (h : doorbellAt fn off.toNat = some (t, false)) : exec (.sqTailDoorbell fn off acc) s = .next (doSqTail t acc s) := by
  rw [exec_sqTailDoorbell_eq, execSqTailDoorbell, h]

theorem exec_cqHeadDoorbell_at {fn : Option (Fin 512)} {off : BitVec 12} {t : Queue} (acc : DoorAccess) (s : State)
    (h : doorbellAt fn off.toNat = some (t, true)) : exec (.cqHeadDoorbell fn off acc) s = .next (doCqHead t acc s) := by
  rw [exec_cqHeadDoorbell_eq, execCqHeadDoorbell, h]

theorem doorbell_read {t : Queue} {s : State} (last : Nat) (f : Nat → State → State) (hr : reach t s = .ok) :
    doorbell t .read last f s = s.emit (.readData (toLe 4 last)) := by
  simp only [doorbell, hr]

/-- A write of another size, or with bits of its upper half, is counted alone (R57). -/
theorem doorbell_dropped {t : Queue} {size : Fin 9} {data : BitVec 64} {s : State} (last : Nat) (f : Nat → State → State)
    (hr : reach t s = .ok) (h : size ≠ 4 ∨ 0x10000 ≤ data.toNat) : doorbell t (.write size data) last f s =
      errFlue 97 (s.qwr t Reg.QP_STATUS_DROPPED_WRITES (satAdd 8 (s.qrd t Reg.QP_STATUS_DROPPED_WRITES) 1)) := by
  have hd : size.val ≠ 4 ∨ 0x10000 ≤ data.toNat := h.imp_left (fun h e => h (Fin.ext e))
  simp only [doorbell, hr, if_pos hd]

theorem doorbell_unbound {t : Queue} {v : Nat} (acc : DoorAccess) {s : State} (last : Nat) (f : Nat → State → State)
    (hr : reach t s = .unbound v) : doorbell t acc last f s = readZero acc (unboundAccess v s) := by
  simp only [doorbell, hr]

theorem reach_vf_ok {v : Fin 512} {q : Fin 8} {s : State} (hs : s.flueUp = true) (hv : s.vfExists v = true)
    (hb : s.bound v = true) : reach (.vf v q) s = .ok := by
  simp [reach, hs, hv, hb]

theorem reach_vf_unbound {v : Fin 512} {q : Fin 8} {s : State} (hs : s.flueUp = true) (hv : s.vfExists v = true)
    (hb : s.bound v = false) : reach (.vf v q) s = .unbound v := by
  simp [reach, hs, hv, hb]

theorem reach_admin_ok {q : Fin 4} {s : State} (hs : s.flueUp = true) : reach (.admin q) s = .ok := by
  simp [reach, hs]

theorem acceptTail_vf {v : Fin 512} {q : Fin 8} {n : Nat} {s : State} (hn : n < s.sqDepth (.vf v q)) :
    acceptTail (.vf v q) n s = (let h := s.ft v Reg.FT_HEARTH
      autoWake h (addFlue (16 + h) 1 (sendPulse h xDoorbells (s.modQp (.vf v q) (fun x => { x with sqTail := n }))))) := by
  rw [acceptTail, if_neg (Nat.not_le.2 hn)]
  rfl

theorem acceptTail_admin {q : Fin 4} {n : Nat} {s : State} (hn : n < s.sqDepth (.admin q)) :
    acceptTail (.admin q) n s = s.modQp (.admin q) (fun x => { x with sqTail := n }) := by
  rw [acceptTail, if_neg (Nat.not_le.2 hn)]
  rfl

theorem acceptHead_of_inside {t : Queue} {n k : Nat} {s : State} (hn : n < s.cqDepth t)
    (hk : k = (n + s.cqDepth t - (s.qp t).cqHead % s.cqDepth t) % s.cqDepth t) (ho : k ≤ (s.qp t).occ) :
    acceptHead t n s = s.modQp t (fun x => { x with cqHead := n, occ := x.occ - k }) := by
  subst hk
  exact if_neg (by omega)

/-- Settles O12: the offset names the doorbell, and the index is taken where it stands in its range. -/
theorem doorbellsTakeEffect : Obligations.DoorbellsTakeEffect := by
  unfold Obligations.DoorbellsTakeEffect
  refine ⟨doorbellAt_vf, doorbellAt_pf0, fun fn off => doorbellAt_reserved, ?reserved, ?readTail, ?tailVf, ?tailAdmin, ?readHead, ?head⟩
  case reserved =>
    intro fn off size data s hd hs hv
    exact ⟨exec_sqTailDoorbell_reserved .read hd hs hv, exec_cqHeadDoorbell_reserved .read hd hs hv,
      exec_sqTailDoorbell_reserved (.write size data) hd hs hv, exec_cqHeadDoorbell_reserved (.write size data) hd hs hv⟩
  case readTail =>
    intro fn off t s hd hr
    rw [exec_sqTailDoorbell_at _ _ hd, doSqTail, doorbell_read _ _ hr]
  case tailVf =>
    intro fn off v q data s hd hs hv hb h1 h2
    rw [exec_sqTailDoorbell_write hd (reach_vf_ok hs hv hb) h1, acceptTail_vf h2]
  case tailAdmin =>
    intro fn off q data s hd hs h1 h2
    rw [exec_sqTailDoorbell_write hd (reach_admin_ok hs) h1, acceptTail_admin h2]
  case readHead =>
    intro fn off t s hd hr
    rw [exec_cqHeadDoorbell_at _ _ hd, doCqHead, doorbell_read _ _ hr]
  case head =>
    intro fn off t data s k hd hr h1 h2 hk ho
    rw [exec_cqHeadDoorbell_write hd hr h1, acceptHead_of_inside h2 hk ho]

/-- Settles O14: the write that is dropped, and every way to reach an unbound VF's queue registers. -/
theorem droppedDoorbellsAndUnboundAccesses : Obligations.DroppedDoorbellsAndUnboundAccesses := by
  unfold Obligations.DroppedDoorbellsAndUnboundAccesses
  refine ⟨fun fn off t head size data s hd hr h => ?dropped, ?unbound⟩
  case dropped =>
    cases head
    · exact (exec_sqTailDoorbell_at _ _ hd).trans (congrArg _ (doorbell_dropped _ _ hr h))
    · exact (exec_cqHeadDoorbell_at _ _ hd).trans (congrArg _ (doorbell_dropped _ _ hr h))
  case unbound =>
    rintro v s t hs hv hb rfl
    have hr : ∀ q, reach (.vf v q) s = .unbound v := fun q => reach_vf_unbound hs hv hb
    have haccess : ∀ r, exec (.unboundVfAccess ⟨v, r⟩) s = .next (if r then
        (unboundAccess v s).emit (.readData (zeros 4)) else unboundAccess v s) := by
      intro r
      exact congrArg Host.Outcome.next (if_pos (by simp [hs, hv, hb]))
    refine ⟨haccess false, haccess true, fun off q head size data hd => ?_, fun q => ⟨?_, ?_⟩⟩
    · cases head
      · exact ⟨(exec_sqTailDoorbell_at _ _ hd).trans (congrArg _ (doorbell_unbound _ _ _ (hr q))),
          (exec_sqTailDoorbell_at _ _ hd).trans (congrArg _ (doorbell_unbound _ _ _ (hr q)))⟩
      · exact ⟨(exec_cqHeadDoorbell_at _ _ hd).trans (congrArg _ (doorbell_unbound _ _ _ (hr q))),
          (exec_cqHeadDoorbell_at _ _ hd).trans (congrArg _ (doorbell_unbound _ _ _ (hr q)))⟩
    · exact congrArg Host.Outcome.next (by rw [onQueue, hr q]; rfl)
    · exact congrArg Host.Outcome.next (by rw [onQueue, hr q]; rfl)

/-! ### Enabling and disabling -/

theorem qIdx_lt (t : Queue) : qIdx t < 8 := by
  cases t with
  | vf v q => exact q.isLt
  | admin q => exact Nat.lt_of_lt_of_le q.isLt (by decide)

theorem ftPage_ne_qPage (v : Nat) (t : Queue) : ftPage v ≠ qPage t := by
  intro e
  have hk := congrArg Page.kind e
  cases t <;> simp [ftPage, qPage, pgF, pgVf] at hk

/-- The registers of a queue pair are none of the function table's. -/
@[simp] theorem State.ft_qwr (s : State) (t : Queue) (f g : Nat → Fld) (v x : Nat) : (s.qwr t f x).ft v g = s.ft v g :=
  State.rd_wr_page _ _ _ _ _ _ (ftPage_ne_qPage v t)

@[simp] theorem State.qp_qwr (s : State) (t u : Queue) (f : Nat → Fld) (x : Nat) : (s.qwr t f x).qp u = s.qp u := by
  cases u <;> rfl

@[simp] theorem State.queueBusy_qwr (s : State) (t u : Queue) (f : Nat → Fld) (x : Nat) :
    (s.qwr t f x).queueBusy u = s.queueBusy u := by
  cases u with
  | admin q => rfl
  | vf v q => simp only [State.queueBusy, State.ft_qwr, State.qwr_H]

/-- ENABLE reads back what was written, in its one bit. -/
theorem State.qrd_enable_qwr {t : Queue} {s : State} (hs : s.regs.sorted = true) :
    (s.qwr t Reg.QP_CTRL_ENABLE 0).qrd t Reg.QP_CTRL_ENABLE = 0 := State.rd_wr _ _ _ _ ((Tab.sorted_iff _).1 hs)

/-- ENABLE and ACTIVE are different registers. -/
theorem enable_place_ne (i : Nat) (hi : i < 8) :
    ((Reg.QP_CTRL_ENABLE i).off * 8 + (Reg.QP_CTRL_ENABLE i).lo) % 32768 ≠
    ((Reg.QP_STATUS_ACTIVE i).off * 8 + (Reg.QP_STATUS_ACTIVE i).lo) % 32768 := by
  simp only [Reg.QP_CTRL_ENABLE, Reg.QP_STATUS_ACTIVE]
  omega

theorem disableQp_of_busy {t : Queue} {s : State} (h : s.queueBusy t = true ∨ (s.qp t).reading = true) :
    disableQp t s = s.qwr t Reg.QP_CTRL_ENABLE 0 := by
  refine if_pos ?_
  rw [State.queueBusy_qwr, State.qp_qwr]
  exact h.imp id .inl

theorem disableQp_of_rest {t : Queue} {s : State} (hs : s.regs.sorted = true) (hb : s.queueBusy t = false)
    (hr : (s.qp t).reading = false) : disableQp t s = (s.qwr t Reg.QP_CTRL_ENABLE 0).qwr t Reg.QP_STATUS_ACTIVE 0 := by
  refine if_neg ?_
  rw [State.queueBusy_qwr, State.qp_qwr, State.qrd_enable_qwr hs, hb, hr]
  decide

/-- The fields that an enabled queue pair starts with. -/
def enabledFields (i : Nat) : List (Fld × Nat) :=
  [(Reg.QP_CTRL_ENABLE i, 1), (Reg.QP_STATUS_ACTIVE i, 1), (Reg.QP_STATUS_ERROR i, 0), (Reg.QP_STATUS_ERR_CODE i, 0)]

theorem enabledFields_apart {i : Nat} (hi : i < 8) : ((enabledFields i).map (fun e => e.1.place)).Nodup := by
  have m : ∀ a, a < 32768 → a % 32768 = a := fun a => Nat.mod_eq_of_lt
  simp [enabledFields, Fld.place, Reg.QP_CTRL_ENABLE, Reg.QP_STATUS_ACTIVE, Reg.QP_STATUS_ERROR, Reg.QP_STATUS_ERR_CODE]
  omega

/-- An enabled queue pair: its fields, and its indexes at their start. -/
def enabledQp (t : Queue) (s : State) : State := (State.wrs (qPage t) (enabledFields (qIdx t)) s).modQp t (fun _ => {})

theorem enabledQp_rd {t : Queue} {s : State} (hs : s.regs.sorted = true) :
    (enabledQp t s).qrd t Reg.QP_CTRL_ENABLE = 1 ∧ (enabledQp t s).qrd t Reg.QP_STATUS_ACTIVE = 1 ∧
    (enabledQp t s).qrd t Reg.QP_STATUS_ERROR = 0 ∧ (enabledQp t s).qrd t Reg.QP_STATUS_ERR_CODE = 0 := by
  have h := State.rd_wrs (qPage t) (enabledFields (qIdx t)) s ((Tab.sorted_iff _).1 hs) (enabledFields_apart (qIdx_lt t))
  simp only [enabledFields, List.forall_mem_cons] at h
  obtain ⟨h1, h2, h3, h4, -⟩ := h
  simp only [enabledQp, State.qrd_modQp]
  exact ⟨h1, h2, h3, h4⟩

theorem cfgValid_vf {v : Fin 512} {q : Fin 8} {s : State} (hg : q.val < s.ft v Reg.FT_QP_GRANT)
    (h1 : 4 ≤ s.qrd (.vf v q) Reg.QP_CFG_SQ_LOG2 ∧ s.qrd (.vf v q) Reg.QP_CFG_SQ_LOG2 ≤ 16)
    (h2 : 4 ≤ s.qrd (.vf v q) Reg.QP_CFG_CQ_LOG2 ∧ s.qrd (.vf v q) Reg.QP_CFG_CQ_LOG2 ≤ 16) : cfgValid (.vf v q) s = true := by
  simp [cfgValid, hg, h1, h2]

theorem cfgValid_admin {q : Fin 4} {s : State}
    (h1 : 4 ≤ s.qrd (.admin q) Reg.QP_CFG_SQ_LOG2 ∧ s.qrd (.admin q) Reg.QP_CFG_SQ_LOG2 ≤ 16)
    (h2 : 4 ≤ s.qrd (.admin q) Reg.QP_CFG_CQ_LOG2 ∧ s.qrd (.admin q) Reg.QP_CFG_CQ_LOG2 ≤ 16) : cfgValid (.admin q) s = true := by
  simp [cfgValid, h1, h2]

/-- A queue pair that ENABLE takes effect on (R62, R63, R126). -/
theorem enableQp_of_valid {t : Queue} {s : State} (h0 : s.qrd t Reg.QP_CTRL_ENABLE = 0) (hc : cfgValid t s = true) :
    enableQp t s = match qHearth t (enabledQp t s) with
      | some h => (enabledQp t s).modH h (fun x => { x with compatLock := true })
      | none => enabledQp t s := by
  rw [enableQp, if_neg (by omega), if_pos hc]
  rfl

theorem State.modQp_rest (s : State) (t : Queue) (f : Qp → Qp) : s.modQp t f = { s with flue := (s.modQp t f).flue } := by
  cases t <;> rfl

theorem State.qp_modQp_ne (s : State) {t u : Queue} (f : Qp → Qp) (h : u ≠ t) : (s.modQp t f).qp u = s.qp u := by
  cases t with
  | admin q =>
    cases u with
    | vf w r => rfl
    | admin r =>
      have hne : r.val ≠ q.val := fun e => h (by rw [Fin.ext e])
      exact Tab.getD_put_ne _ _ _ _ _ hne
  | vf v q =>
    cases u with
    | admin r => rfl
    | vf w r =>
      have hne : w.val * 8 + r.val ≠ v.val * 8 + q.val := by
        intro e
        have hw : w = v := Fin.ext (by omega)
        have hr : r = q := Fin.ext (by omega)
        exact h (by rw [hw, hr])
      exact Tab.getD_put_ne _ _ _ _ _ hne

theorem enabledQp_rest (t : Queue) (s : State) :
    enabledQp t s = { s with regs := (enabledQp t s).regs, flue := (enabledQp t s).flue } := by
  rw [enabledQp, State.modQp_rest, State.wrs_rest]

theorem enabledQp_qp (t : Queue) (s : State) : (enabledQp t s).qp t = {} := State.qp_modQp ..

theorem enabledQp_qp_ne {t u : Queue} (s : State) (h : u ≠ t) : (enabledQp t s).qp u = s.qp u := by
  rw [enabledQp, State.qp_modQp_ne _ _ h, State.wrs_rest]
  cases u <;> rfl

@[simp] theorem enabledQp_ft (t : Queue) (s : State) (v : Nat) (g : Nat → Fld) : (enabledQp t s).ft v g = s.ft v g := by
  have h : (State.wrs (qPage t) (enabledFields (qIdx t)) s).ft v g = s.ft v g :=
    State.rd_wrs_ne _ _ _ _ _ (.inl (ftPage_ne_qPage v t))
  rw [enabledQp, ← h]
  simp [State.ft]

/-- Settles O15: the configuration decides about ENABLE, and what is under way about ACTIVE. -/
theorem queuePairControl : Obligations.QueuePairControl := by
  unfold Obligations.QueuePairControl
  refine ⟨?enableVf, ?bad, ?enableAdmin, ?disableBusy, ?disable, ?coal⟩
  case enableVf =>
    intro v q s hs hr h0 hg h1 h2
    have hgo := enableQp_of_valid h0 (cfgValid_vf hg h1 h2)
    simp only [qHearth, enabledQp_ft] at hgo
    obtain ⟨he, ha, hx, hc⟩ := enabledQp_rd (t := .vf v q) hs
    have hqp := enabledQp_qp (.vf v q) s
    refine ⟨_, congrArg Host.Outcome.next (by rw [onQueue, hr]), ?_⟩
    rw [hgo]
    have hfields : ∀ w, w = (enabledQp (.vf v q) s).qp (.vf v q) → w.sqTail = 0 ∧ w.sqHead = 0 ∧ w.cqTail = 0 ∧ w.cqHead = 0 ∧
        w.occ = 0 ∧ w.seq = 0 ∧ w.phase = true ∧ w.fence = none := by
      rintro w rfl
      rw [hqp]
      exact ⟨rfl, rfl, rfl, rfl, rfl, rfl, rfl, rfl⟩
    obtain ⟨f1, f2, f3, f4, f5, f6, f7, f8⟩ := hfields _ rfl
    have hrest := enabledQp_rest (.vf v q) s
    refine ⟨he, ha, hx, hc, f1, f2, f3, f4, f5, f6, f7, f8, ?_, fun x hx => enabledQp_qp_ne s hx, ?_, ?_, ?_⟩
    · rw [State.H_modH]
    · rw [State.modH_chim, hrest]
    · rw [State.modH_out, hrest]
    · rw [State.modH_variant, hrest]
  case bad =>
    intro t s hr h0 hc
    refine congrArg Host.Outcome.next ?_
    rw [onQueue, hr]
    show enableQp t s = _
    rw [enableQp, if_neg (by omega), if_neg (by simp [hc])]
    rfl
  case enableAdmin =>
    intro q s hs hf h0 h1 h2
    have hgo : enableQp (.admin q) s = enabledQp (.admin q) s := enableQp_of_valid h0 (cfgValid_admin h1 h2)
    refine ⟨_, congrArg Host.Outcome.next (by rw [onQueue, reach_admin_ok hf]), ?_⟩
    rw [hgo]
    obtain ⟨he, -, -, -⟩ := enabledQp_rd (t := .admin q) hs
    refine ⟨he, enabledQp_qp _ s, ?_, ?_, ?_⟩ <;> rw [enabledQp_rest]
  case disableBusy =>
    intro t s hs hr h
    refine congrArg Host.Outcome.next ?_
    rw [onQueue, hr]
    exact disableQp_of_busy h
  case disable =>
    intro t s hs hr hb hread
    have hrise := (Tab.sorted_iff _).1 hs
    refine ⟨_, congrArg Host.Outcome.next (by rw [onQueue, hr]), ?_⟩
    rw [disableQp_of_rest hs hb hread]
    refine ⟨?_, State.rd_wr _ _ _ _ (State.qwr_rising _ _ _ _ hrise), rfl, rfl, rfl, rfl⟩
    exact (State.rd_wr_bits _ _ _ _ _ _ (enable_place_ne _ (qIdx_lt t))).trans (State.qrd_enable_qwr hs)
  case coal =>
    intro fn q t s ht hu hc
    refine congrArg Host.Outcome.next ?_
    rw [ht]
    exact if_pos ⟨hu, hc⟩

end Sys2Proof.Machine
end

section
/-! Descriptors fetched into the job table (R65, R66, R87). -/

namespace Sys2Proof.Machine

/-- The numbers of a VF and of its queue pair name the queue pair. -/
@[simp] theorem queue_ofNat (v : Fin 512) (q : Fin 8) : Queue.vf (Fin.ofNat 512 v.val) (Fin.ofNat 8 q.val) = .vf v q := by simp

/-- A read that returns a descriptor of the hearth's size, or none, is the fetch that the stoker makes of it. -/
theorem exec_descriptorFetch {v : Fin 512} {q : Fin 8} {issued : Bool} {rd : FetchRead} {s : State}
    (h : ∀ d a b c, rd = .ok d a b c → d.length = (if (s.H (s.ft v Reg.FT_HEARTH)).compat then 64 else 128)) :
    exec (.descriptorFetch v q issued rd) s = .next (doFetch v q issued rd s) := by
  show execDescriptorFetch v q issued rd s = _
  cases rd with
  | error => rfl
  | pending => rfl
  | ok d a b c =>
    have hd := h d a b c rfl
    have hwf : FetchRead.wf (.ok d a b c) = true := by
      rw [FetchRead.wf, hd]
      split <;> rfl
    simp [execDescriptorFetch, hwf, hd]

theorem doFetch_new {v : Fin 512} {q : Fin 8} {s : State} (rd : FetchRead) (hm : mayFetch s v q = true) :
    doFetch v q false rd s = match rd with
      | .pending => (takeToken v s).modQp (.vf v q) (fun x => { x with reading := true })
      | .error => qpError (.vf v q) errFetch (takeToken v s)
      | .ok d a b c => fetchInto (s.ft v Reg.FT_HEARTH) v q (fetchStop s (.vf v q) v false) d a b c (takeToken v s) := by
  simp only [doFetch, Bool.false_eq_true, if_false, hm, Bool.not_true, queue_ofNat] <;> rfl

theorem doFetch_late {v : Fin 512} {q : Fin 8} {s : State} (rd : FetchRead) (hu : s.hostUp = true) (hb : s.bound v = true)
    (hr : (s.qp (.vf v q)).reading = true) :
    doFetch v q true rd s = match rd with
      | .pending => s
      | .error => checkDrain v (restQueue (.vf v q) (qpError (.vf v q) errFetch (s.modQp (.vf v q) (fun x => { x with reading := false }))))
      | .ok d a b c => fetchInto (s.ft v Reg.FT_HEARTH) v q (fetchStop s (.vf v q) v true) d a b c
          (s.modQp (.vf v q) (fun x => { x with reading := false })) := by
  simp only [doFetch, if_true, lateFetch, queue_ofNat, hu, hb, hr, Bool.not_true, Bool.false_eq_true, or_self, if_false] <;> rfl

/-- Settles O16: a new read, and one that returns later. -/
theorem fetchDescriptor : Obligations.FetchDescriptor := by
  unfold Obligations.FetchDescriptor
  refine ⟨?new, ?late⟩
  case new =>
    rintro v q s h rfl hu hb hq hroom hd ht hh hw
    have hm : mayFetch s v q = true := by simp [mayFetch, hu, hb, hq, hroom, hd, ht, hh, hw]
    refine ⟨fun d a b c hl => ?_, ?_, ?_⟩
    · rw [exec_descriptorFetch (by rintro _ _ _ _ ⟨⟩; exact hl), doFetch_new _ hm]
    · rw [exec_descriptorFetch (by rintro _ _ _ _ ⟨⟩), doFetch_new _ hm]; rfl
    · rw [exec_descriptorFetch (by rintro _ _ _ _ ⟨⟩), doFetch_new _ hm]
  case late =>
    rintro v q s t h rfl hu hb hr rfl
    refine ⟨fun d a b c hl => ?_, ?_⟩
    · rw [exec_descriptorFetch (by rintro _ _ _ _ ⟨⟩; exact hl), doFetch_late _ hu hb hr]
    · rw [exec_descriptorFetch (by rintro _ _ _ _ ⟨⟩), doFetch_late _ hu hb hr]; rfl

end Sys2Proof.Machine
end

section
/-! Jobs that wait, and the job that is dispatched (R18 to R26, R196, R331). -/

namespace Sys2Proof.Machine

/-! ### Unwraps -/

/-- An unwrap that is still wanted goes on to its blob. -/
theorem doUnwrapDone_of_lives {h j i : Nat} {blob : Dma} {s : State} {jb : Job} (hj : s.job? h j = some jb) (hw : s.works h = true)
    (hi : (s.H h).inner.any (fun e => e.2 == .unwrap j i) = true) (hk : jb.state = .keywait) (ha : i ∈ jb.awaiting) :
    doUnwrapDone h j i blob s = if rKind (dRef jb.desc i) = kDdr then
        match ddrBlob h jb.vf (rAddr (dRef jb.desc i)) s with
        | (s, .error st) => unwrapFails h j i st s
        | (s, .ok b) => unwrapRef h j i b jb s
      else match blob with
        | .error => unwrapFails h j i stHostDma s
        | .ok b => unwrapRef h j i b jb s := by
  have hl : innerLives (s.H h) (.unwrap j i) = true := by
    have hj' : (s.H h).jobs.find? j = some jb := hj
    simp [innerLives, hj', hk, ha]
  simp only [doUnwrapDone, hj]
  rw [if_neg (by simp [hw, hi, hl])] <;> rfl

/-! ### Dispatch -/

/-- The time that waiting jobs have waited, at the next decision. -/
def waited (h us : Nat) (s : State) : State :=
  s.modH h (fun x => { x with jobs := x.jobs.mapVals (fun _ j =>
    if j.state = .ready ∨ j.state = .yielded then
      { j with waitUs := j.waitUs + us, heldUs := if hobHolds s h then j.heldUs + us else 0 } else j) })

theorem doDispatch_first {h us j : Nat} {jb : Job} {s : State} (hw : s.works h = true)
    (hf : firstJob (waited h us s) h (((waited h us s).H h).jobs.filter (fun p => eligible (waited h us s) h p.1 p.2)) = some (j, jb)) :
    doDispatch h us s = requestYield h (closeBatch h (dispatchOne h j jb (waited h us s))) := by
  rw [doDispatch, if_neg (by simp [hw])]
  show requestYield h (closeBatch h (match firstJob (waited h us s) h (((waited h us s).H h).jobs.filter
    (fun p => eligible (waited h us s) h p.1 p.2)) with
      | some (j, jb) => dispatchOne h j jb (waited h us s)
      | none => waited h us s)) = _
  rw [hf]

theorem dispatchOne_ready {h j : Nat} {jb : Job} {ks : List KeyHold} {un : List Nat} {s : State} (hr : jb.state = .ready)
    (hc : dispatchChecks s h jb = .ok ks) (ht : takeable s h jb = some un) :
    dispatchOne h j jb s = if drawBytes jb.desc ks = 0 then startJob h j jb un ks [] s
      else match drbgLower h (drawBytes jb.desc ks) false s with
        | some (r, s) => startJob h j jb un ks r s
        | none => s := by
  rw [dispatchOne, if_neg (by simp [hr]), hc]
  simp only [ht] <;> rfl

theorem dispatchOne_refused {h j st code : Nat} {jb : Job} {s : State} (hr : jb.state = .ready)
    (hc : dispatchChecks s h jb = .error (st, code)) : dispatchOne h j jb s = stopJob h j st code s := by
  rw [dispatchOne, if_neg (by simp [hr]), hc]

theorem dispatchOne_yielded {h j : Nat} {jb : Job} {un : List Nat} {s : State} (hy : jb.state = .yielded)
    (hf : firstStop s h jb = none) (ht : takeable s h jb = some un) : dispatchOne h j jb s = resumeJob h j jb un s := by
  rw [dispatchOne, if_pos hy, hf, ht]

/-! ### Blocked classes, and randomness that does not come -/

theorem doClassBlocked_of {h c : Nat} {s : State} (hw : s.works h = true) (hd : ∀ u ∈ classUnits c, 2 ≤ (s.eng h u).holder)
    (hj : ∃ p ∈ (s.H h).jobs, p.2.state = .ready ∧ c ∈ jobNeeds s h p.2) :
    doClassBlocked h c s = (let t := s.wr (pgH .stoker h) Reg.STK_STATUS_CLASS_BLOCKED 1
      if (s.H h).blocked.contains c then t
      else raiseH h evClassBlocked (pgH .stoker h) { inst := c, payload := captureBytes (pgH .stoker h) t }
        (t.modH h (fun x => { x with blocked := x.blocked ++ [c] }))) := by
  have hdirect : classDirect s h c = true := List.all_eq_true.2 (fun u hu => decide_eq_true (hd u hu))
  have hwaits : (s.H h).jobs.any (fun p => p.2.state == .ready && (jobNeeds s h p.2).contains c) = true := by
    obtain ⟨p, hp, hr, hc⟩ := hj
    exact List.any_eq_true.2 ⟨p, hp, by simp [hr, hc]⟩
  unfold doClassBlocked
  simp only [hwaits, hw, hdirect, Bool.not_true, Bool.false_eq_true, or_self, if_false] <;> rfl

theorem doEntropyTimeout_ready {h : Nat} {j : Fin 2048} {s : State} {jb : Job} {e : OpDef} {vs : List KeyView}
    (hj : s.job? h j = some jb) (hw : s.works h = true) (hd : drbgServes h s = false) (hr : jb.state = .ready)
    (ho : opDef? (dOp jb.desc) = some e) (hk : keyChecks s h jb e = .ok vs) (hn : 0 < drawBytes jb.desc (holdsOf jb.desc vs)) :
    doEntropyTimeout h (.job j) s = failJob h j stEntropy s := by
  have hd' : (drbgRequest h 1 false s).isSome = false := hd
  have hnot : (JobState.ready == JobState.running) = false := rfl
  simp [doEntropyTimeout, hj, hw, hd', hr, hnot, ho, hk, hn]

theorem doEntropyTimeout_running {h j : Nat} {u : Fin 20} {s : State} {jb : Job} (hw : s.works h = true)
    (hm : mgReady (s.eng h u) = false) (hd : (s.eng h u).waitDraw = false) (he : (s.eng h u).job = some j)
    (hj : s.job? h j = some jb) (hr : jb.state = .running) (hu : (maskUnit jb).isSome = true) :
    doEntropyTimeout h (.unit u) s = settleJob h j (freeSaves h j
      ((releaseUnits h jb.units (countCycles h jb s)).modJob h j
        (fun x => { x with status := stEntropy, newKey := none, ran := true, wipe := pausedOut x }))) := by
  simp [doEntropyTimeout, hm, hw, hd, he, hj, hr, hu]

/-! ### The hob's batches -/

theorem one_le_clamp {hi v : Nat} (h : 1 ≤ hi) : 1 ≤ clamp 1 hi v := by
  unfold clamp
  split
  · exact Nat.le_refl 1
  · split <;> omega

theorem doBatchRelease_of {h : Nat} {s : State} (hw : s.works h = true) (hm : s.rd (pgH .hob h) Reg.HOB_CTRL_MODE = 2)
    (hb : (s.H h).batchOpen = false)
    (hd : clamp 1 16 (s.rd (pgH .hob h) Reg.HOB_BATCH_COUNT) ≤ (hobReady s h).length ∨
      ∃ j jb, j ∈ hobReady s h ∧ s.job? h j = some jb ∧ clamp 1 1000 (s.rd (pgH .hob h) Reg.HOB_BATCH_WAIT) ≤ jb.heldUs) :
    doBatchRelease h s = gateBurners h (s.modH h (fun x => { x with batchOpen := true })) := by
  have hholds : hobHolds s h = true := by simp [hobHolds, hm, hb]
  have hdue : (decide (clamp 1 16 (s.rd (pgH .hob h) Reg.HOB_BATCH_COUNT) ≤ (hobReady s h).length) ||
      (hobReady s h).any (fun j => decide (clamp 1 1000 (s.rd (pgH .hob h) Reg.HOB_BATCH_WAIT) ≤
        ((s.job? h j).map (·.heldUs)).getD 0))) = true := by
    rcases hd with hd | ⟨j, jb, hj, hjob, hheld⟩
    · simp [hd]
    · rw [Bool.or_eq_true]
      exact .inr (List.any_eq_true.2 ⟨j, hj, by simp [hjob, hheld]⟩)
  have hsome : ¬(hobReady s h).isEmpty = true := by
    intro hempty
    rw [List.isEmpty_iff] at hempty
    rcases hd with hd | ⟨j, jb, hj, -⟩
    · exact absurd (Nat.le_trans (one_le_clamp (by decide)) hd) (by simp [hempty])
    · simp [hempty] at hj
  simp only [doBatchRelease, hw, hholds, hdue, and_self, if_true, releaseHob, if_neg hsome]

/-- Settles O17: each waiting job's way on, and the chosen job's. -/
theorem jobsWaitAndDispatch : Obligations.JobsWaitAndDispatch := by
  unfold Obligations.JobsWaitAndDispatch
  refine ⟨?unwrapHost, ?unwrapDdr, ?dispatch, ?blocked, ?again, ?entropyReady, ?entropyRunning, ?batch⟩
  case unwrapHost =>
    intro h j i b s jb hj hw hi hk ha hr
    have hgo := fun blob => doUnwrapDone_of_lives (blob := blob) hj hw hi hk ha
    simp only [if_neg hr] at hgo
    exact ⟨congrArg (fun t => Host.Outcome.next (fillInner h t)) (hgo (.ok b)),
      congrArg (fun t => Host.Outcome.next (fillInner h t)) (hgo .error)⟩
  case unwrapDdr =>
    intro h j i blob b s t jb hj hw hi hk ha hr hb
    have hgo := doUnwrapDone_of_lives (blob := blob) hj hw hi hk ha
    rw [if_pos hr, hb] at hgo
    exact congrArg (fun t => Host.Outcome.next (fillInner h t)) hgo
  case dispatch =>
    rintro h us s t j jb hw rfl hf
    have hfirst := doDispatch_first (us := us) hw hf
    have hexec : ∀ u, dispatchOne h j jb (waited h us s) = u →
        exec (.jobDispatch h us) s = .next (requestYield h (closeBatch h u)) := by
      rintro u rfl
      exact congrArg Host.Outcome.next hfirst
    refine ⟨fun ks un hr hc ht hn => ?_, fun ks un r u hr hc ht hn hd => ?_, fun st code hr hc => ?_, fun un hy hs ht => ?_⟩
    · exact hexec _ ((dispatchOne_ready hr hc ht).trans (if_pos hn))
    · refine hexec _ ((dispatchOne_ready (s := waited h us s) hr hc ht).trans ((if_neg hn).trans ?_))
      have hd' : drbgLower h (drawBytes jb.desc ks) false (waited h us s) = some (r, u) := hd
      rw [hd']
    · exact hexec _ (dispatchOne_refused hr hc)
    · exact hexec _ (dispatchOne_yielded hy hs ht)
  case blocked =>
    intro h c s hw hd hj hc
    exact congrArg Host.Outcome.next ((doClassBlocked_of hw hd hj).trans (if_neg (by simpa using hc)))
  case again =>
    intro h c s hw hd hj hc
    exact congrArg Host.Outcome.next ((doClassBlocked_of hw hd hj).trans (if_pos (by simpa using hc)))
  case entropyReady =>
    intro h j s jb e vs hj hw hd hr ho hk hn
    exact congrArg Host.Outcome.next (doEntropyTimeout_ready hj hw hd hr ho hk hn)
  case entropyRunning =>
    intro h u s j jb hw hm hd he hj hr hu
    exact congrArg Host.Outcome.next (doEntropyTimeout_running hw hm hd he hj hr hu)
  case batch =>
    intro h s hw hm hb hd
    exact congrArg Host.Outcome.next (doBatchRelease_of hw hm hb hd)

end Sys2Proof.Machine
end

section
/-! Jobs that leave their engines, complete, yield and resume (R17, R78, R84, R234, R281, R371 to R377). -/

namespace Sys2Proof.Machine

/-! ### The end of a job on its engines -/

theorem doJobEnd_queued {h u j : Nat} {inv : Bool} {s : State} {jb : Job} (he : (s.eng h u).job = some j)
    (hj : s.job? h j = some jb) (hw : s.works h = true) (hd : s.damper jb.vf ≠ dampResetting) :
    doJobEnd h u inv s = endQueued h u j inv s := by
  simp [doJobEnd, he, hj, hw, hd]

/-- A job that has run on every engine it holds, and whose key isolation does not cut off. -/
theorem endQueued_of {h u j : Nat} {inv : Bool} {s : State} {jb : Job} (hj : s.job? h j = some jb) (hr : jb.state = .running)
    (hran : jb.ran = true) (hu : ∀ w ∈ jb.units, (s.eng h w).saving = false ∧ (s.eng h w).restoring = false ∧ (s.eng h w).paused = false)
    (hcut : (isolating s && jb.newKey.isSome) = false) :
    endQueued h u j inv s =
      (let bad := isBn u && !inv
       let t := freeSaves h j (releaseUnits h jb.units ((fillResult h u jb (if bad then stInvariant else jb.status)
        (countCycles h jb s)).modJob h j Job.leave))
       settleJob h j (countPinFail h jb.leave (if bad then
        let t := t.modJob h j (fun x => { x with status := stInvariant, newKey := none })
        requestKat h u false (raiseH h evBnInvariant (pgU h u) { inst := unitNo u, payload := captureBytes (pgU h u) t } t)
        else t))) := by
  have hany : jb.units.any (fun u => (s.eng h u).saving || (s.eng h u).restoring || (s.eng h u).paused) = false := by
    rw [List.any_eq_false]
    intro w hw
    obtain ⟨h1, h2, h3⟩ := hu w hw
    simp [h1, h2, h3]
  simp only [endQueued, hj]
  rw [if_neg (by simp [hr, hran, hany])]
  simp only [hcut, Bool.false_eq_true, if_false]

theorem doCompletion_of {h j : Nat} {s : State} {jb : Job} (hj : s.job? h j = some jb) (hu : s.hostUp = true)
    (hc : jb.state = .completing) (hd : s.damper jb.vf ≠ dampResetting) (hb : behindGroup s h j jb = false)
    (hw : controlWaits s h jb j = false) : doCompletion h j s = writeCompletion h j s := by
  simp [doCompletion, hj, hu, hc, hd, hb, hw]

/-! ### Yield points -/

theorem doYield_saved {h n j : Nat} {s : State} {jb : Job} (he : (s.eng h (12 + n)).job = some j) (hj : s.job? h j = some jb)
    (hw : s.works h = true) (hy : (s.eng h (12 + n)).yieldReq = true) (hr : jb.state = .running) (hc : canYield jb = true)
    (hp : (s.eng h (12 + n)).paused = false) (hs : (s.eng h (12 + n)).scrubbing = false) :
    doYield h n true s =
      (let t := (s.modJob h j (fun x => { x with passed := x.passed + 1 })).wr (pgU h (12 + n)) Reg.BN_YIELD_PASSED
        (min (jb.passed + 1) 0xFFFF)
       addCtr h 156 1 ((releaseUnits h jb.units (t.wr (pgU h (12 + n)) Reg.BN_YIELD_SLOT
        (((List.range 4).find? (fun i => ((t.H h).saves.getD i {}).job == some j)).getD 0))).modJob h j
          (fun x => { x with state := .yielded, units := [], waitUs := 0 }))) := by
  simp only [doYield, he, hj]
  rw [if_neg (by simp [hw, hy, hr, hc, hp, hs]), if_pos trivial]

theorem doRestore_of {h n j : Nat} {s : State} {jb : Job} (rd : RestoreRead) (he : (s.eng h (12 + n)).job = some j)
    (hj : s.job? h j = some jb) (hw : s.works h = true) (hr : (s.eng h (12 + n)).restoring = true)
    (hs : (s.eng h (12 + n)).scrubbing = false) :
    doRestore h n rd s =
      (let t := freeSaves h j (s.modEng h (12 + n) (fun e => { e with restoring := false }))
       match rd with
       | .ok => if jb.ran then fillSpan h j t else t
       | _ => settleJob h j ((releaseUnits h jb.units (countCycles h jb t)).modJob h j
          (fun x => { x with status := stPoison, newKey := none, ran := true }))) := by
  simp only [doRestore, he, hj]
  rw [if_neg (by simp [hw, hr, hs])] <;> rfl

theorem doTurnover_of {h b : Nat} {s : State} (hu : s.up h = true) (ht : (s.eng h (16 + b)).turnover = true)
    (hm : mgReady (s.eng h (16 + b)) = true) :
    doTurnover h b s = gateBurners h (s.modEng h (16 + b) (fun e => { e with turnover := false })) := by
  simp only [doTurnover]
  rw [if_neg (by simp [hu, ht, hm])]

/-- Settles O18: the end on the engines, the completion, and the save, the restore and the turnover. -/
theorem jobEndsYieldsAndCompletes : Obligations.JobEndsYieldsAndCompletes := by
  unfold Obligations.JobEndsYieldsAndCompletes
  refine ⟨?ends, ?direct, ?completes, ?yields, ?restores, ?turnover⟩
  case ends =>
    intro h u inv s j jb he hj hw hd hr hran hu hcut
    have hgo := (doJobEnd_queued (inv := inv) he hj hw hd).trans (endQueued_of hj hr hran hu hcut)
    refine ⟨fun hinv => ?_, fun hbn hinv => ?_⟩
    · have hgood : (isBn u && !inv) = false := by
        cases hb : isBn u
        · rfl
        · rw [hinv hb]; rfl
      simp only [hgood, Bool.false_eq_true, if_false] at hgo
      exact congrArg Host.Outcome.next hgo
    · have hbad : (isBn u && !inv) = true := by rw [hbn, hinv]; rfl
      simp only [hbad, if_true] at hgo
      exact congrArg Host.Outcome.next hgo
  case direct =>
    intro h u inv s he
    exact congrArg Host.Outcome.next (by simp only [doJobEnd, he])
  case completes =>
    intro h j s jb hj hu hc hd hb hw
    exact congrArg Host.Outcome.next (doCompletion_of hj hu hc hd hb hw)
  case yields =>
    rintro h n s t j jb he hj hw hy hr hc hp hs rfl
    exact congrArg Host.Outcome.next (doYield_saved he hj hw hy hr hc hp hs)
  case restores =>
    rintro h n s t j jb he hj hw hr hs rfl
    refine ⟨congrArg Host.Outcome.next (doRestore_of .ok he hj hw hr hs), fun rd hrd => ?_⟩
    refine congrArg Host.Outcome.next ((doRestore_of rd he hj hw hr hs).trans ?_)
    cases rd with
    | ok => exact absurd rfl hrd
    | _ => rfl
  case turnover =>
    intro h b s hu ht hm
    exact congrArg Host.Outcome.next (doTurnover_of hu ht hm)

end Sys2Proof.Machine
end

section
/-! The functions of the queued opcodes: what each reads of its job does not depend on the shares that its keys stand in. -/

namespace Sys2Proof.Machine

/-- What the functions read of a job as they find it, and of the job that was dispatched. -/
theorem SeenBy.same {jb x : Job} (e : SeenBy jb x) :
    (x.desc = jb.desc ∧ x.vf = jb.vf ∧ x.compat = jb.compat ∧ x.rand = jb.rand ∧ x.nonce = jb.nonce ∧ x.latch = jb.latch ∧
      x.units = jb.units) ∧
    ((Machine.key0 x).mat = (Machine.key0 jb).mat ∧ (Machine.key0 x).attr = (Machine.key0 jb).attr ∧ (Machine.key0 x).use = (Machine.key0 jb).use ∧ (Machine.key0 x).fp = (Machine.key0 jb).fp ∧
      (Machine.key0 x).slot = (Machine.key0 jb).slot ∧ (Machine.key0 x).set = (Machine.key0 jb).set ∧ (Machine.key0 x).uses = (Machine.key0 jb).uses) ∧
    ((Machine.key1 x).mat = (Machine.key1 jb).mat ∧ (Machine.key1 x).attr = (Machine.key1 jb).attr ∧ (Machine.key1 x).use = (Machine.key1 jb).use ∧ (Machine.key1 x).fp = (Machine.key1 jb).fp ∧
      (Machine.key1 x).slot = (Machine.key1 jb).slot ∧ (Machine.key1 x).set = (Machine.key1 jb).set ∧ (Machine.key1 x).uses = (Machine.key1 jb).uses) := by
  refine ⟨?_, e.key0, e.key1⟩
  obtain ⟨ks, l, rfl, -⟩ := e
  exact ⟨rfl, rfl, rfl, rfl, rfl, rfl, rfl⟩

theorem runWith_seen {s : State} {h j op : Nat} {jb : Job} {inp : Dma} {b : Bytes} {f : State → Job → Bytes → Ran} {r : Ran}
    (a : AtRun s h j op jb) (i : InputIs s jb inp b) (hf : ∀ x, SeenBy jb x → f s x b = r) :
    runWith h j op inp f s = afterRun h j b r s := by
  obtain ⟨x, e, he⟩ := runWith_of (f := f) a i
  rw [he, hf x e]

theorem runPlain_seen {s : State} {h j op : Nat} {jb : Job} {f : State → Job → Ran} {r : Ran}
    (a : AtRun s h j op jb) (hf : ∀ x, SeenBy jb x → f s x = r) : runPlain h j op f s = afterRun h j [] r s := by
  obtain ⟨x, e, he⟩ := runPlain_of (f := f) a
  rw [he, hf x e]

theorem SeenBy.heldEntry {jb x : Job} (e : SeenBy jb x) : heldEntry (Machine.key0 x) = heldEntry (Machine.key0 jb) := by
  simp only [Machine.heldEntry, e.same]

theorem SeenBy.jobMac {jb x : Job} (e : SeenBy jb x) (m : Bytes) : jobMac x m = jobMac jb m := by
  simp only [Machine.jobMac, e.same]

theorem SeenBy.cipherJobOf {jb x : Job} (e : SeenBy jb x) (dec : Bool) : cipherJobOf x dec = cipherJobOf jb dec := by
  simp only [Machine.cipherJobOf, e.same]

theorem SeenBy.runCipher {jb x : Job} (e : SeenBy jb x) (dec : Bool) (s : State) (b : Bytes) :
    runCipher dec s x b = runCipher dec s jb b := by
  simp only [Machine.runCipher, e.same, e.cipherJobOf]

theorem SeenBy.madeKey {jb x : Job} (e : SeenBy jb x) (h : Nat) (s : State) (m : Option Bytes) : madeKey h s x m = madeKey h s jb m := by
  simp only [Machine.madeKey, e.same]

theorem SeenBy.pkKey {jb x : Job} (e : SeenBy jb x) (h : Nat) (s : State) (r : PkOut) : pkKey h s x r = pkKey h s jb r := by
  simp only [Machine.pkKey, e.same]

theorem SeenBy.attemptLimit {jb x : Job} (e : SeenBy jb x) (s : State) (h : Nat) : attemptLimit s h x = attemptLimit s h jb := by
  simp only [Machine.attemptLimit, e.same]

theorem SeenBy.runGenerate {jb x : Job} (e : SeenBy jb x) (h : Nat) (s : State) : runGenerate h s x = runGenerate h s jb := by
  simp only [Machine.runGenerate, e.same]

theorem SeenBy.runDerive {jb x : Job} (e : SeenBy jb x) (h : Nat) (s : State) (b : Bytes) : runDerive h s x b = runDerive h s jb b := by
  simp only [Machine.runDerive, e.same]

theorem SeenBy.runCert {jb x : Job} (e : SeenBy jb x) (h : Nat) (s : State) : runCert h s x = runCert h s jb := by
  simp only [Machine.runCert, e.same]

theorem SeenBy.runExportTransport {jb x : Job} (e : SeenBy jb x) (h : Nat) (s : State) (b : Bytes) :
    runExportTransport h s x b = runExportTransport h s jb b := by
  simp only [Machine.runExportTransport, e.same, e.heldEntry]

theorem SeenBy.runImportTransport {jb x : Job} (e : SeenBy jb x) (h : Nat) (s : State) (b : Bytes) :
    runImportTransport h s x b = runImportTransport h s jb b := by
  simp only [Machine.runImportTransport, e.same]

theorem SeenBy.runBlockImport {jb x : Job} (e : SeenBy jb x) (h : Nat) (s : State) (b : Bytes) :
    runBlockImport h s x b = runBlockImport h s jb b := by
  simp only [Machine.runBlockImport, e.same]

theorem SeenBy.runVerify {jb x : Job} (e : SeenBy jb x) (s : State) (b : Bytes) : runVerify s x b = runVerify s jb b := by
  simp only [Machine.runVerify, e.same]

theorem SeenBy.runOaep {jb x : Job} (e : SeenBy jb x) (h : Nat) (s : State) (b : Bytes) : runOaep h s x b = runOaep h s jb b := by
  simp only [Machine.runOaep, e.same, e.pkKey]

end Sys2Proof.Machine
end

section
/-! Key-management, transport and key-block opcodes (R195 to R203, R326 to R329, R769 to R771). -/

namespace Sys2Proof.Machine

theorem runWrap_fixed {jb : Job} {w : Nat} {r : SlotRec} (h : Nat) (s : State) (hu : (key1 jb).use = .fixed w)
    (hs : (key1 jb).slot = some r) : runWrap h s jb =
      { out :=
          if jb.compat ∧ v2Expressible (heldEntry (key0 jb)) then makeBlob2 (heldEntry (key0 jb)) (key0 jb).mat (key1 jb).mat w r
          else makeBlob h (heldEntry (key0 jb)) (setVfs s h (heldEntry (key0 jb))).1 (setVfs s h (heldEntry (key0 jb))).2
            (key0 jb).mat ((dParams jb.desc).take 16) (key1 jb).mat w r
            (if (key0 jb).attr.limit = 0 then 0 else (key0 jb).attr.limit - (key0 jb).uses) } := by
  simp only [runWrap, hu, hs]
  split <;> rfl

theorem SeenBy.runWrap {jb x : Job} (e : SeenBy jb x) (h : Nat) (s : State) : runWrap h s x = runWrap h s jb := by
  simp only [Machine.runWrap, e.same, e.heldEntry]

theorem runInfo_cache {jb : Job} {i : Nat} {e : KeyEntry} (h : Nat) (s : State) (hu : (key0 jb).use = .cache i)
    (he : (s.H h).cache.find? i = some e) : runInfo h s jb = { out := infoBytes e i } := by
  simp only [runInfo, hu, he]

theorem runInfo_fixed {jb : Job} {i : Nat} {r : SlotRec} (h : Nat) (s : State) (hu : (key0 jb).use = .fixed i)
    (hs : (key0 jb).slot = some r) : runInfo h s jb = { out := slotInfo s h i r } := by
  simp only [runInfo, hu, hs]

theorem SeenBy.runInfo {jb x : Job} (e : SeenBy jb x) (h : Nat) (s : State) : runInfo h s x = runInfo h s jb := by
  simp only [Machine.runInfo, e.same]

/-- A job evicts the entry that it was dispatched with. -/
theorem runEvict_of {s : State} {h j : Nat} {jb : Job} {e : KeyEntry} (a : AtRun s h j 0x0104 jb)
    (he : (s.H h).cache.find? (rIndex (dRef jb.desc 0)) = some e) (hf : e.fp = (key0 jb).fp) :
    runEvict h j s = ran h j (fun x => { x with status := stOK }) (if jb.joined then
        (s.modH h (fun x => { x with cache := x.cache.upd (rIndex (dRef jb.desc 0)) (fun e => { e with marked := some jb.group }) })).modGroup
          h jb.group (fun g => g.modAction (.job j) (fun a => { a with evict := some (rIndex (dRef jb.desc 0)) }))
      else freeEntry h (rIndex (dRef jb.desc 0)) s) := by
  simp only [runEvict, runnable_of a, he, hf, ne_eq, not_true_eq_false, if_false]
  split <;> rfl

/-- Settles O19: every function reads its job's keys through their values alone. -/
theorem keyJobsRun : Obligations.KeyJobsRun := by
  unfold Obligations.KeyJobsRun
  refine ⟨?unwrap, ?wrap, ?generate, ?evict, ?evictJoined, ?infoCache, ?infoFixed, ?derive, ?exportKw, ?importKw, ?cert, ?noCert,
    ?exportT, ?importT, ?importB, ?exportB⟩
  case unwrap =>
    intro h j s jb i a hu
    exact congrArg Host.Outcome.next (runPlain_seen a (fun x e => by simp only [runUnwrap, e.same, hu]))
  case wrap =>
    intro h j s jb w r a hu hs
    exact congrArg Host.Outcome.next (runPlain_seen a (fun x e => (e.runWrap h s).trans (runWrap_fixed h s hu hs)))
  case generate =>
    intro h j s jb a
    exact congrArg Host.Outcome.next (runPlain_seen a (fun x e => e.runGenerate h s))
  case evict =>
    intro h j s jb e a hj he hf
    exact congrArg Host.Outcome.next ((runEvict_of a he hf).trans (by rw [hj]; rfl))
  case evictJoined =>
    intro h j s jb e a hj he hf
    exact congrArg Host.Outcome.next ((runEvict_of a he hf).trans (by rw [hj]; rfl))
  case infoCache =>
    intro h j s jb i c a hu hc
    exact congrArg Host.Outcome.next (runPlain_seen a (fun x e => (e.runInfo h s).trans (runInfo_cache h s hu hc)))
  case infoFixed =>
    intro h j s jb i r a hu hs
    exact congrArg Host.Outcome.next (runPlain_seen a (fun x e => (e.runInfo h s).trans (runInfo_fixed h s hu hs)))
  case derive =>
    intro h j inp s jb b a i
    exact congrArg Host.Outcome.next (runWith_seen a i (fun x e => e.runDerive h s b))
  case exportKw =>
    intro h j s jb a
    exact congrArg Host.Outcome.next (runPlain_seen a (fun x e => by simp only [runExportKw, e.same]))
  case importKw =>
    intro h j inp s jb b a i
    exact congrArg Host.Outcome.next (runWith_seen a i (fun x e => by simp only [runImportKw, e.same, e.madeKey]))
  case cert =>
    intro h j s jb a
    exact congrArg Host.Outcome.next (runPlain_seen a (fun x e => e.runCert h s))
  case noCert =>
    intro h j s jb a hr
    exact congrArg Host.Outcome.next (runPlain_seen a (fun x e => by simp only [runCert, hr, Ran.fail]))
  case exportT =>
    intro h j inp s jb b a i
    exact congrArg Host.Outcome.next (runWith_seen a i (fun x e => e.runExportTransport h s b))
  case importT =>
    intro h j inp s jb b a i
    exact congrArg Host.Outcome.next (runWith_seen a i (fun x e => e.runImportTransport h s b))
  case importB =>
    intro h j inp s jb b a i
    exact congrArg Host.Outcome.next (runWith_seen a i (fun x e => e.runBlockImport h s b))
  case exportB =>
    intro h j inp s jb b a i
    exact congrArg Host.Outcome.next (runWith_seen a i (fun x e => by simp only [runBlockExport, e.same]))

end Sys2Proof.Machine
end

section
/-! Cipher, hash, MAC and random opcodes (R218 to R231, R448, R462, R463). -/

namespace Sys2Proof.Machine

theorem runCipher_pointer {jb : Job} (dec : Bool) (s : State) (b : Bytes) (hp : dPtr jb.desc = true) : runCipher dec s jb b =
    { status := (cipherRun (cipherJobOf jb dec) b).status, out := (cipherRun (cipherJobOf jb dec) b).out } := by
  simp only [runCipher, hp, Bool.not_true, Bool.false_eq_true, if_false]

theorem runCipher_inline {jb : Job} (dec : Bool) (s : State) (b : Bytes) (hp : dPtr jb.desc = false) : runCipher dec s jb b =
    { result := some (padTo 16 (cipherRun { alg := (key0 jb).attr.alg, mode := mECB, dec := dec, k1 := (key0 jb).mat } b).out) } := by
  simp only [runCipher, hp, Bool.not_false, if_true]

theorem runMacVer_inline {jb : Job} (s : State) (b : Bytes) (hp : dPtr jb.desc = false) : runMacVer s jb b =
    (let t := macTagLen (dParam jb.desc) (isTdes (key0 jb).attr.alg)
     if jobMac jb (b.take (b.length - t)) = slice (b.drop (b.length - t)) 0 t then {} else { status := stTagMismatch }) := by
  simp only [runMacVer, hp, Bool.false_eq_true, if_false, beq_iff_eq, Ran.fail]

theorem runMacVer_pointer {jb : Job} (s : State) (b : Bytes) (hp : dPtr jb.desc = true) : runMacVer s jb b =
    (if jobMac jb (b.drop (macHead jb.desc)) =
        slice (qTag jb.desc ++ b.take (macHead jb.desc)) 0 (macTagLen (dParam jb.desc) (isTdes (key0 jb).attr.alg))
      then {} else { status := stTagMismatch }) := by
  simp only [runMacVer, hp, if_true, beq_iff_eq, Ran.fail]

theorem SeenBy.runMacVer {jb x : Job} (e : SeenBy jb x) (s : State) (b : Bytes) : runMacVer s x b = runMacVer s jb b := by
  simp only [Machine.runMacVer, e.same, e.jobMac]

/-- One request of a RANDOM_GENERATE that the DRBG serves. -/
theorem runRandom_of {s t : State} {h j : Nat} {jb : Job} {b : Bytes} (a : AtRun s h j 0x0601 jb)
    (hr : randomRequest h jb s = some (b, t)) :
    runRandom h j s = if (jb.rand ++ b).length < randomLen jb.desc then t.modJob h j (fun x => { x with rand := jb.rand ++ b })
      else ran h j (fun x =>
        { x with status := stOK, rand := [], outData := if dPtr jb.desc then jb.rand ++ b else [],
                 result := if dPtr jb.desc then [] else padTo 16 (jb.rand ++ b), hasResult := !dPtr jb.desc }) t := by
  simp only [runRandom, runnable_of a, hr]

/-- Settles O20: the functions of the ciphers, hashes and MACs, and each request of a random one. -/
theorem cipherHashAndRandomJobsRun : Obligations.CipherHashAndRandomJobsRun := by
  unfold Obligations.CipherHashAndRandomJobsRun
  refine ⟨?encrypt, ?encryptInline, ?decrypt, ?hash, ?xof, ?mac, ?verifyInline, ?verify, ?random, ?status⟩
  case encrypt =>
    intro h j inp s jb b a i hp
    exact congrArg Host.Outcome.next (runWith_seen a i (fun x e => (e.runCipher false s b).trans (runCipher_pointer false s b hp)))
  case encryptInline =>
    intro h j inp s jb b a i hp
    exact congrArg Host.Outcome.next (runWith_seen a i (fun x e => (e.runCipher false s b).trans (runCipher_inline false s b hp)))
  case decrypt =>
    intro h j inp s jb b a i
    have hl : decLen s h j = if dPtr jb.desc then cipherOut jb.desc true else 0 := by simp only [decLen, a.here]
    have hgo : (match runnable s h j 0x0202 with
        | some _ => wipeFailed h j (decLen s h j) (runWith h j 0x0202 inp (runCipher true) s)
        | none => s) = wipeFailed h j (decLen s h j) (runWith h j 0x0202 inp (runCipher true) s) := by rw [runnable_of a]
    refine congrArg Host.Outcome.next (Eq.trans hgo ?_)
    rw [hl, runWith_seen a i (fun x e => e.runCipher true s b)]
  case hash =>
    intro h j inp s jb b a i
    exact congrArg Host.Outcome.next (runWith_seen a i (fun x e => by simp only [runHash, e.same]))
  case xof =>
    intro h j inp s jb b a i
    exact congrArg Host.Outcome.next (runWith_seen a i (fun x e => by simp only [runXof, e.same]))
  case mac =>
    intro h j inp s jb b a i
    exact congrArg Host.Outcome.next (runWith_seen a i (fun x e => by simp only [runMacGen, e.same, e.jobMac]))
  case verifyInline =>
    intro h j inp s jb b a i hp
    exact congrArg Host.Outcome.next (runWith_seen a i (fun x e => (e.runMacVer s b).trans (runMacVer_inline s b hp)))
  case verify =>
    intro h j inp s jb b a i hp
    exact congrArg Host.Outcome.next (runWith_seen a i (fun x e => (e.runMacVer s b).trans (runMacVer_pointer s b hp)))
  case random =>
    rintro h j s t jb n b a rfl hr
    have hgo := runRandom_of a hr
    exact ⟨fun hn => congrArg Host.Outcome.next (hgo.trans (if_neg (Nat.not_lt.2 hn))),
      fun hn => congrArg Host.Outcome.next (hgo.trans (if_pos hn))⟩
  case status =>
    intro h j s jb a
    exact congrArg Host.Outcome.next (runPlain_seen a (fun x e => rfl))

end Sys2Proof.Machine
end

section
/-! Public-key and payment opcodes (R290 to R325, R347 to R355, R363, R368, R381). -/

namespace Sys2Proof.Machine

/-- CLEAR_OPERANDS after the engine it holds, where it holds one, has been cleared. -/
theorem runClear_of {s t : State} {h j : Nat} {jb x : Job} (a : AtRun s h j 0x04F0 jb)
    (ht : jb.units = [] ∧ t = s ∧ x = jb ∨ ∃ u, jb.units.head? = some u ∧ t = clearUnit h j u jb s ∧ t.job? h j = some x) :
    runClear h j s = match nextClear t h x with
      | none => ran h j (fun x => { x with status := stOK }) t
      | some u => if unitFree t h u then (takeUnits h j x.vf (fun _ _ => false) [u] t).modJob h j (fun x => { x with units := [u] })
        else t := by
  simp only [runClear, runnable_of a]
  rcases ht with ⟨hu, ht, hx⟩ | ⟨u, hu, ht, hx⟩
  · simp only [hu, List.head?_nil, a.here, Option.getD_some, ht, hx] <;> rfl
  · simp only [hu, ← ht, hx, Option.getD_some] <;> rfl

/-- Settles O21: the public-key functions, and the three ways on of CLEAR_OPERANDS. -/
theorem publicKeyJobsRun : Obligations.PublicKeyJobsRun := by
  unfold Obligations.PublicKeyJobsRun
  refine ⟨?sign, ?verify, ?pub, ?agree, ?encaps, ?decaps, ?oaep, ?clear⟩
  case sign =>
    intro h j inp s jb b a i
    exact congrArg Host.Outcome.next (runWith_seen a i (fun x e => by simp only [runSign, e.same, e.attemptLimit]))
  case verify =>
    intro h j inp s jb b a i
    exact congrArg Host.Outcome.next (runWith_seen a i (fun x e => e.runVerify s b))
  case pub =>
    intro h j s jb a
    exact congrArg Host.Outcome.next (runPlain_seen a (fun x e => by simp only [runPublic, e.same]))
  case agree =>
    intro h j inp s jb b a i
    exact congrArg Host.Outcome.next (runWith_seen a i (fun x e => by simp only [runAgree, e.same, e.pkKey]))
  case encaps =>
    intro h j inp s jb b a i
    exact congrArg Host.Outcome.next (runWith_seen a i (fun x e => by simp only [runEncaps, e.same, e.pkKey]))
  case decaps =>
    intro h j inp s jb b a i
    exact congrArg Host.Outcome.next (runWith_seen a i (fun x e => by simp only [runDecaps, e.same, e.pkKey]))
  case oaep =>
    intro h j inp s jb b a i
    exact congrArg Host.Outcome.next (runWith_seen a i (fun x e => e.runOaep h s b))
  case clear =>
    intro h j s t jb x a ht
    have hgo := runClear_of a ht
    refine ⟨fun hn => ?_, fun u hn hu => ?_, fun u hn hu => ?_⟩ <;> rw [hn] at hgo
    · exact congrArg Host.Outcome.next hgo
    · exact congrArg Host.Outcome.next (hgo.trans (if_pos hu))
    · exact congrArg Host.Outcome.next (hgo.trans (if_neg (by simp [hu])))

/-- Settles O22: the payment functions on the job's keys. -/
theorem paymentJobsRun : Obligations.PaymentJobsRun := by
  unfold Obligations.PaymentJobsRun
  have pin : ∀ {s : State} {jb x : Job} (op : Nat), SeenBy jb x → runPin op s x = ofHob
      (pinRun op (dParam jb.desc) (dOperands jb.desc) jb.latch (key0 jb).mat (key1 jb).mat jb.rand) :=
    fun op e => by simp only [runPin, e.same]
  have card : ∀ {s : State} {jb x : Job} (op : Nat), SeenBy jb x →
      runCard op s x = ofHob (cardRun op (dOperands jb.desc) (key0 jb).mat) :=
    fun op e => by simp only [runCard, e.same]
  have mac : ∀ {s : State} {jb x : Job} {b : Bytes} (op : Nat), SeenBy jb x → runPayMac op s x b = ofHob
      (payMacRun op (dParam jb.desc) (dParams jb.desc) b (key0 jb).attr (key0 jb).mat) :=
    fun op e => by simp only [runPayMac, e.same]
  refine ⟨fun h j s jb a => ?translate, fun h j s jb a => ?verify, fun h j s jb a => ?value, fun h j s jb a => ?cvGen,
    fun h j s jb a => ?cvVer, fun h j inp s jb b a i => ?macGen, fun h j inp s jb b a i => ?macVer, fun h j inp s jb b a i => ?emv⟩
  case translate => exact congrArg Host.Outcome.next (runPlain_seen a (fun x e => pin 0x0501 e))
  case verify => exact congrArg Host.Outcome.next (runPlain_seen a (fun x e => pin 0x0502 e))
  case value => exact congrArg Host.Outcome.next (runPlain_seen a (fun x e => pin 0x0503 e))
  case cvGen => exact congrArg Host.Outcome.next (runPlain_seen a (fun x e => card 0x0510 e))
  case cvVer => exact congrArg Host.Outcome.next (runPlain_seen a (fun x e => card 0x0511 e))
  case macGen => exact congrArg Host.Outcome.next (runWith_seen a i (fun x e => mac 0x0520 e))
  case macVer => exact congrArg Host.Outcome.next (runWith_seen a i (fun x e => mac 0x0521 e))
  case emv => exact congrArg Host.Outcome.next (runWith_seen a i (fun x e => by simp only [runEmv, e.same]))

end Sys2Proof.Machine
end

section
/-! Engine locks, scrubs and clears (R250 to R258, R380). -/

namespace Sys2Proof.Machine

/-- An access to a page of a hearth that answers, after the wake (R732). -/
theorem onHearth_of_answers {h : Nat} {s : State} (f : State → State) (ha : s.answers h = true) :
    onHearth h f s = f (wakeHearth h s) := if_pos ha

/-! ### The lock's writers -/

theorem not_inner_of_outer {who : Requester} (h : isOuter who = true) : isInner who = false := by
  cases who <;> simp [isOuter, isInner] at *

theorem worldCode_of_inner {who : Requester} (h : isInner who = true) : worldCode who = 2 := if_pos h

theorem worldCode_of_outer {who : Requester} (h : isOuter who = true) : worldCode who = 3 := by
  simp [worldCode, not_inner_of_outer h, h]

/-- A world's code by its name. -/
theorem worldCode_of_world {who : Requester} (h : isInner who = true ∨ isOuter who = true) :
    worldCode who = if isInner who then 2 else 3 := by
  rcases h with h | h
  · rw [worldCode_of_inner h, if_pos h]
  · rw [worldCode_of_outer h, not_inner_of_outer h]; rfl

/-- A world writes the lock under its own identity. -/
structure OwnWrite (who : Requester) (id : Nat) : Prop where
  world : isInner who = true ∨ isOuter who = true
  ident : id = worldIdent (worldCode who)
  named : id ≠ 0

theorem OwnWrite.of_identity {who : Requester} {id : Nat}
    (h : isInner who = true ∧ id = 0xFFF1 ∨ isOuter who = true ∧ id = 0xFFF2) : OwnWrite who id := by
  rcases h with ⟨hw, hid⟩ | ⟨hw, hid⟩
  · exact ⟨.inl hw, by rw [worldCode_of_inner hw, hid]; rfl, by omega⟩
  · exact ⟨.inr hw, by rw [worldCode_of_outer hw, hid]; rfl, by omega⟩

theorem worldCode_ne_zero {who : Requester} (h : isInner who = true ∨ isOuter who = true) : worldCode who ≠ 0 := by
  rw [worldCode_of_world h]
  split <;> decide

/-- A world asks for the lock of an engine in rotation that no test waits for: it takes the lock, or the reservation. -/
theorem writeLock_own {h u : Nat} {who : Requester} {data : Nat} {s : State} (o : OwnWrite who (data % 65536))
    (hs : (s.eng h u).scrubbing = false) (hb : s.blockRun h u = true) (hp : (s.eng h u).katPending = false)
    (hr : (s.eng h u).katRunning = false) :
    writeLock h u who data s =
      if (s.eng h u).holder = 0 then
        if (s.eng h u).offline ∧ worldCode who = 3 then capture (pgU h u) who 0x00C data (data % 65536) false cRequester s
        else takeLock h u (worldCode who) (data % 65536) s
      else if (s.eng h u).reservedBy = 0 ∨ (worldCode who = 2 ∧ (s.eng h u).reservedBy = 3) then
        s.modEng h u (fun e => { e with reservedBy := worldCode who })
      else if (s.eng h u).reservedBy = worldCode who then s
      else capture (pgU h u) who 0x00C data (data % 65536) false cState s := by
  obtain ⟨world, ident, named⟩ := o
  have hid : ¬(data % 65536 ≠ 0 ∧ data % 65536 ≠ worldIdent (worldCode who)) := fun h => h.2 ident
  simp only [writeLock, Nat.reducePow, if_neg (worldCode_ne_zero world), if_neg hid, hs, hb, hp, hr,
    if_neg named, Bool.not_true, Bool.false_eq_true, or_self, if_false]

theorem isBurner_of_lt {u : Nat} (h : u < 16) : isBurner u = false := by
  simp [isBurner]; omega

/-- A lock taken of an engine that is no burner. -/
theorem takeLock_engine {h u holder ident : Nat} {s : State} (hu : u < 16) : takeLock h u holder ident s = s.modEng h u (fun e =>
    { e with owner := ident, holder := holder, lastOwner := ident, scrubbing := e.lastOwner != ident, clearing := false }) := by
  simp [takeLock, isBurner_of_lt hu]

/-- A world's release of a lock it holds. -/
theorem writeLock_release {h u : Nat} {who : Requester} {data : Nat} {s : State} (hw : isInner who = true ∨ isOuter who = true)
    (hd : data % 65536 = 0) (hs : (s.eng h u).scrubbing = false) (hh : (s.eng h u).holder = worldCode who)
    (hb : (s.eng h u).busy = false) : writeLock h u who data s = releaseLock h u s := by
  simp only [writeLock, Nat.reducePow, if_neg (worldCode_ne_zero hw), hd, ne_eq, not_true_eq_false, false_and, hs,
    hh, hb, true_or, if_true, Bool.false_eq_true, if_false]

theorem writeLock_stranger {h u : Nat} {who : Requester} {data : Nat} {s : State} (hi : isInner who = false) (ho : isOuter who = false) :
    writeLock h u who data s = capture (pgU h u) who 0x00C data (data % 65536) false cRequester s := by
  have hc : worldCode who = 0 := by simp [worldCode, hi, ho]
  simp only [writeLock, hc, if_true, Nat.reducePow]

/-! ### Lines cleared -/

theorem clearLines_opLine {h n lo k : Nat} {s : State} (m line : Nat) : opLine (clearLines h n lo k s) h m line =
    if opKey n lo ≤ opKey m line ∧ opKey m line < opKey n (lo + k) then {} else opLine s h m line := by
  have hop : ((clearLines h n lo k s).H h).opmem =
      (s.H h).opmem.filter (fun e => !(decide (opKey n lo ≤ e.1 ∧ e.1 < opKey n (lo + k)))) := by
    unfold clearLines
    dsimp only
    split <;> simp [State.modEng]
  simp only [opLine, Tab.getD, hop]
  rw [Tab.find?_filter _ (fun i => !(decide (opKey n lo ≤ i ∧ i < opKey n (lo + k))))]
  by_cases hin : opKey n lo ≤ opKey m line ∧ opKey m line < opKey n (lo + k)
  · simp [hin]
  · simp [hin]

@[simp] theorem State.eng_modEng (s : State) (h u : Nat) (f : Engine → Engine) : (s.modEng h u f).eng h u = f (s.eng h u) := by
  simp [State.eng, State.modEng, Hearth.eng]

@[simp] theorem State.eng_modH_opmem (s : State) (h k u : Nat) (f : Hearth → Tab OpLine) :
    (s.modH h (fun x => { x with opmem := f x })).eng k u = s.eng k u := by
  by_cases e : k = h
  · subst e; simp [State.eng, Hearth.eng]
  · simp [State.eng, State.H_modH_ne _ _ _ _ e]

/-- Of an engine's marks a clear of all its lines leaves those that lie outside operand memory. -/
theorem clearLines_eng (h n : Nat) (s : State) : ∃ l, (clearLines h n 0 2048 s).eng h (12 + n) = { s.eng h (12 + n) with left := l } ∧
    ∀ p ∈ l, 16 ≤ p.1 := by
  unfold clearLines
  dsimp only
  split
  · rename_i he
    rw [State.eng_modH_opmem, List.isEmpty_iff] at he
    rw [State.eng_modH_opmem]
    exact ⟨(s.eng h (12 + n)).left, rfl, by simp [he]⟩
  · rw [State.eng_modEng, State.eng_modH_opmem]
    refine ⟨_, rfl, fun p hp => ?_⟩
    have hp' := (List.mem_filter.1 hp).2
    simp at hp'
    omega

theorem clearLines_rest (h n lo k : Nat) (s : State) : clearLines h n lo k s = { s with hearths := (clearLines h n lo k s).hearths } := by
  unfold clearLines
  dsimp only
  split <;> rfl

theorem clearLines_H_ne {h n lo k : Nat} (s : State) {i : Nat} (hi : i ≠ h) : (clearLines h n lo k s).H i = s.H i := by
  unfold clearLines
  dsimp only
  split <;> simp [State.modEng, State.H_modH_ne _ _ _ _ hi]

@[simp] theorem opLine_modEng (s : State) (h u : Nat) (f : Engine → Engine) (i m line : Nat) :
    opLine (s.modEng h u f) i m line = opLine s i m line := by
  by_cases hi : i = h
  · subst hi; simp [opLine, State.modEng]
  · simp [opLine, State.modEng, State.H_modH_ne _ _ _ _ hi]

/-- The end of an owner-change clear. -/
theorem clearDone_scrub {h n : Nat} {s : State} (hc : (s.eng h (12 + n)).clearing = true) (hs : (s.eng h (12 + n)).scrubbing = true) :
    clearDone h n s = (clearLines h n 0 2048 s).modEng h (12 + n) (fun e => { e with clearing := false, scrubbing := false }) := by
  simp only [clearDone, hc, hs, Bool.not_true, Bool.false_eq_true, if_false, if_true]

/-- Settles O24: the writes of the lock, and the ends of the scrub and of the clear. -/
theorem engineLocksAndScrubs : Obligations.EngineLocksAndScrubs := by
  unfold Obligations.EngineLocksAndScrubs
  refine ⟨?take, ?reserve, ?release, ?stranger, ?scrub, ?scrubBn, ?clear, ?clearOwn⟩
  case take =>
    rintro h u who data s w ha rfl hw hs hb hp hr hh ho
    have o := OwnWrite.of_identity hw
    have hfree : ¬((( wakeHearth h s).eng h u).offline = true ∧ worldCode who = 3) := by
      rintro ⟨h1, h2⟩
      rcases ho with ho | ho
      · exact absurd (ho.symm.trans h1) (by decide)
      · rw [worldCode_of_inner ho] at h2; exact absurd h2 (by decide)
    refine congrArg Host.Outcome.next ((onHearth_of_answers _ ha).trans ((writeLock_own o hs hb hp hr).trans ?_))
    rw [if_pos hh, if_neg hfree, takeLock_engine u.isLt, worldCode_of_world o.world]
  case reserve =>
    rintro h u who data s w ha rfl hw hs hb hp hr hh - hv
    have o := OwnWrite.of_identity hw
    refine congrArg Host.Outcome.next ((onHearth_of_answers _ ha).trans ((writeLock_own o hs hb hp hr).trans ?_))
    rw [if_neg hh, if_pos (.inl hv), worldCode_of_world o.world]
  case release =>
    rintro h u who data s w ha rfl hw hd hs hh hb
    have hh' := hh.trans (worldCode_of_world hw).symm
    exact congrArg Host.Outcome.next ((onHearth_of_answers _ ha).trans (writeLock_release hw hd hs hh' hb))
  case stranger =>
    rintro h u who data s w ha rfl hi ho
    exact congrArg Host.Outcome.next ((onHearth_of_answers _ ha).trans (writeLock_stranger hi ho))
  case scrub =>
    intro h u s hs hbr hbn
    exact congrArg Host.Outcome.next (by simp [scrubDone, hs, hbr, hbn])
  case scrubBn =>
    intro h u s hs hbn
    have hbr : isBurner u = false := isBurner_of_lt (by simp [isBn] at hbn; omega)
    exact congrArg Host.Outcome.next (by simp [scrubDone, hs, hbr, hbn])
  case clear =>
    intro h n s hc hs
    refine ⟨_, congrArg Host.Outcome.next (clearDone_scrub hc hs), fun line hl => ?_, fun k line hk hkn hl => ?_, ?_, ?_, ?_, ?_, ?_,
      fun k hk => ?_⟩
    · rw [opLine_modEng, clearLines_opLine, if_pos]
      simp only [opKey]
      omega
    · rw [opLine_modEng, clearLines_opLine, if_neg]
      simp only [opKey]
      omega
    · obtain ⟨l, he, hl⟩ := clearLines_eng h n s
      exact ⟨l, by rw [State.eng_modEng, he], hl⟩
    · rw [clearLines_rest]; rfl
    · rw [clearLines_rest]; rfl
    · rw [clearLines_rest]; rfl
    · rw [clearLines_rest]; rfl
    · rw [State.modEng, State.H_modH_ne _ _ _ _ hk, clearLines_H_ne _ hk]
  case clearOwn =>
    intro h n s hc hs
    exact congrArg Host.Outcome.next (by simp [clearDone, hc, hs])

end Sys2Proof.Machine
end

section
/-! Direct use of the engines and the operand window (R260 to R263, R346, R383 to R387). -/

namespace Sys2Proof.Machine

/-- START by the holder of a quiet engine's lock: the job starts, or a failed check ends it at once. -/
theorem doStart_of {h u : Nat} {who : Requester} {d : Bytes} {s : State} (ks : Except Nat (List KeyView))
    (hf : holderFault s h u who = none) (hb : (s.eng h u).busy = false) (hc : (s.eng h u).clearing = false) :
    doStart h u who d ks s = match ks with
      | .error st => failStart h u st s
      | .ok vs => startDirect h u d vs s := by
  simp only [doStart, hf, hb, hc, Bool.false_eq_true, or_self, if_false] <;> rfl

theorem doBnClear_of {h n : Nat} {who : Requester} {s : State} (hf : holderFault s h (12 + n) who = none)
    (hb : (s.eng h (12 + n)).busy = false) (hc : (s.eng h (12 + n)).clearing = false) :
    doBnClear h n who s = (((List.range 16).foldl (fun t r =>
      if (s.rd (pgU h (12 + n)) Reg.BN_CLEAR_REGIONS).testBit r then clearLines h n (128 * r) 128 t else t) s).modEng h (12 + n)
        (fun e => { e with clearing := true })) := by
  simp only [doBnClear, hf, hb, hc, Bool.false_eq_true, or_self, if_false]

/-- An access of the window by the holder of a quiet engine's lock (R346, R386). -/
theorem bnWindow_of {h n : Nat} {who : Requester} {hi : Bool} {wr : Option Nat} {s : State}
    (hf : holderFault s h (12 + n) who = none) (hb : (s.eng h (12 + n)).busy = false) (hc : (s.eng h (12 + n)).clearing = false) :
    bnWindow h n who hi wr s =
      (let p := pgU h (12 + n)
       let w := s.rd p Reg.BN_WIN_ADDR_WORD
       match wr with
       | some v => advanceWord p hi (putHalf h n w hi v s)
       | none =>
         let l := opLine s h n (w / 8)
         if l.secret then
           advanceWord p hi ((capture p who (if hi then 0x084 else 0x080) 0 (reqIdentity who) true cRead s).emit (.readData (zeros 4)))
         else advanceWord p hi (s.emit (.readData (slice l.data (w % 8 * 8 + (if hi then 4 else 0)) 4)))) := by
  simp only [bnWindow, hf, hb, hc, Bool.false_eq_true, or_self, if_false] <;> rfl

/-- Settles O25: START of each engine, CLEAR, and the window's accesses. -/
theorem directUse : Obligations.DirectUse := by
  unfold Obligations.DirectUse
  refine ⟨?cipher, ?hash, ?bn, ?failed, ?clear, ?read, ?secret, ?write⟩
  case cipher =>
    rintro h n who s w vs ha rfl hf hb hc hk
    refine congrArg Host.Outcome.next ((onHearth_of_answers _ ha).trans ((doStart_of _ hf hb hc).trans ?_))
    rw [hk]
  case hash =>
    rintro h n who s w vs ha rfl hf hb hc hk
    refine congrArg Host.Outcome.next ((onHearth_of_answers _ ha).trans ((doStart_of _ hf hb hc).trans ?_))
    rw [hk]
  case bn =>
    rintro h n who s w vs ha rfl hf hb hc hk
    refine congrArg Host.Outcome.next ((onHearth_of_answers _ ha).trans ((doStart_of _ hf hb hc).trans ?_))
    rw [hk]
  case failed =>
    rintro h n who s w st ha rfl hf hb hc hk
    have hn : isBn n = false := by
      have := n.isLt
      simp [isBn]; omega
    refine congrArg Host.Outcome.next ((onHearth_of_answers _ ha).trans ((doStart_of _ hf hb hc).trans ?_))
    rw [hk]
    simp [failStart, codeFld, doneFld, hn]
  case clear =>
    rintro h n who s w ha rfl hf hb hc
    exact congrArg Host.Outcome.next ((onHearth_of_answers _ ha).trans (doBnClear_of hf hb hc))
  case read =>
    rintro h n who s w p a ha rfl rfl rfl hf hb hc hs
    have hgo := fun hi => (onHearth_of_answers (bnWindow h n who hi none) ha).trans (bnWindow_of hf hb hc)
    simp only [hs, Bool.false_eq_true, if_false] at hgo
    refine ⟨congrArg Host.Outcome.next (hgo false), congrArg Host.Outcome.next ((hgo true).trans ?_)⟩
    simp [advanceWord]
  case secret =>
    rintro h n who s w p a ha rfl rfl rfl hf hb hc hs
    have hgo := (onHearth_of_answers (bnWindow h n who false none) ha).trans (bnWindow_of hf hb hc)
    simp only [hs, if_true] at hgo
    exact congrArg Host.Outcome.next hgo
  case write =>
    rintro h n who data s w p a ha rfl rfl rfl hf hb hc
    exact congrArg Host.Outcome.next ((onHearth_of_answers (bnWindow h n who false (some data.toNat)) ha).trans (bnWindow_of hf hb hc))

end Sys2Proof.Machine
end

section
/-! Known-answer tests and mask generators (R18, R239 to R244, R270 to R278, R336 to R338, R390). -/

namespace Sys2Proof.Machine

/-! ### Known-answer tests -/

theorem requestKat_of {h u : Nat} {back : Bool} {s : State} (hr : (s.eng h u).katRunning = false) (hb : s.blockState h u ≠ 2) :
    requestKat h u back s = s.modEng h u (fun e =>
      { e with katPending := true, katReturns := e.katReturns || back, reservedBy := if e.reservedBy = 3 then 0 else e.reservedBy }) := by
  simp only [requestKat, hr, hb, Bool.false_eq_true, or_self, if_false]

theorem doKatStart_of {h u : Nat} {s : State} (hu : s.up h = true) (hp : (s.eng h u).katPending = true) (hh : (s.eng h u).holder = 0)
    (hb : (s.eng h u).busy = false) (ht : (s.eng h u).turnover = false) (hm : mgReady (s.eng h u) = true)
    (ho : isBurner u = true → ∀ v ∈ [16, 17, 18, 19], (s.eng h v).katRunning = false)
    (hs : s.blockState h u = 0 ∨ s.blockState h u = 3) (hf : ((s.H h).inner.lowestFree hostEntries 2048).isSome = true) :
    doKatStart h u s = noteJobs h (((takeLock h u 1 0xFFF0 s).modEng h u (fun e =>
      { e with katPending := false, katRunning := true, gated := false })).modH h (fun x => addInner x (.kat u))) := by
  have hother : (isBurner u && [16, 17, 18, 19].any (fun v => (s.eng h v).katRunning)) = false := by
    cases hbu : isBurner u with
    | false => rfl
    | true => rw [Bool.true_and, List.any_eq_false]; exact fun v hv => by simp [ho hbu v hv]
  have hnone : ((s.H h).inner.lowestFree hostEntries 2048).isNone = false := by
    rw [← Option.not_isSome, hf]; rfl
  have hstate : ¬(!decide (s.blockState h u = 0 ∨ s.blockState h u = 3)) = true := by simp [hs]
  unfold doKatStart
  simp only [hother, hu, hp, hh, hb, ht, hm, hnone, hs, decide_true, Bool.not_true, Bool.false_eq_true, ne_eq, not_true_eq_false,
    or_self, if_false] <;> rfl

theorem doKatDone_of {h u : Nat} {pass : Bool} {s : State} (hr : (s.eng h u).katRunning = true) (hs : (s.eng h u).scrubbing = false) :
    doKatDone h u pass s =
      (let t := fillInner h (releaseLock h u (s.modEng h u (fun e =>
        { e with katRunning := false, katReturns := false, offline := !pass || (e.offline && !e.katReturns), turnover := isBurner u })))
       if pass then t
       else raiseH h (if isBurner u then evHobKatFail else evKatFail) (pgU h u)
        { inst := unitNo u, payload := captureBytes (pgU h u) (errCtr h 208 t) } (errCtr h 208 t)) := by
  simp only [doKatDone, hr, hs, Bool.not_true, Bool.false_eq_true, or_self, if_false]

/-! ### Mask generators -/

/-- A reseed that falls due on a generator that runs. -/
theorem doMgReseed_of {h u : Nat} {s : State} (hu : s.up h = true) (hs : (s.eng h u).mg.seeded = true)
    (hl : (s.eng h u).mg.stalled = false) :
    doMgReseed h u s = if (s.eng h u).mg.prefetched then s.modEng h u (fun e => { e with mg := e.mg.switch })
      else if s.flag (entPage h) Reg.ENT_CTRL_POLICY ∧ (s.eng h u).mg.grace < 16 then
        (let t := s.modEng h u (fun e => { e with mg := e.mg.rekey })
         if (s.eng h u).mg.grace = 0 then raiseH h evMgGrace (pgU h u) { inst := unitNo u, payload := captureBytes (pgU h u) s } t else t)
      else mgStop h u s := by
  simp only [doMgReseed, hu, hs, hl, Bool.not_true, Bool.false_eq_true, or_self, if_false]

theorem flag_eq_true_iff {s : State} {p : Page} {f : Fld} : s.flag p f = true ↔ s.rd p f ≠ 0 := by simp [State.flag]

/-- The key cache's generator is seeded, before a unit's. -/
theorem seedCache_of {h : Nat} {s t : State} (ht : (s.H h).cacheMg.seeded = true ∧ t = s ∨ (s.H h).cacheMg.seeded = false ∧
      ∃ c t', drbgRequest h 48 false s = some (c, t') ∧ t = t'.modH h (fun x => { x with cacheMg := x.cacheMg.seed c })) :
    seedCache h s = some t := by
  rcases ht with ⟨hs, rfl⟩ | ⟨hs, c, t', hd, rfl⟩
  · exact if_pos hs
  · simp only [seedCache, hs, Bool.false_eq_true, if_false, hd, Option.map_some]

/-- A seed for a generator: it seeds one that could not mask, and waits in the shadow of one that can. -/
theorem take_seed (e : Engine) (b : Bytes) :
    ({ e with mg := e.mg.take b, paused := e.paused && mgReady e, streamed := e.streamed || (e.busy && !mgReady e) } : Engine) =
      if mgReady e = false then
        { e with mg := { e.mg.seed b with stalled := false, grace := 0 }, paused := false, streamed := e.streamed || e.busy }
      else { e with mg := { e.mg with shadow := b, prefetched := true, requested := false } } := by
  by_cases hr : mgReady e = true
  · have hg : ¬((!e.mg.seeded) = true ∨ e.mg.stalled = true) := by
      simp only [mgReady, Bool.and_eq_true, Bool.not_eq_true'] at hr
      simp [hr]
    simp only [MaskGen.take, if_neg hg, hr, Bool.and_true, Bool.not_true, Bool.and_false, Bool.or_false, Bool.true_eq_false, if_false]
  · rw [Bool.not_eq_true] at hr
    have hg : (!e.mg.seeded) = true ∨ e.mg.stalled = true := by
      cases hs : e.mg.seeded
      · exact .inl rfl
      · right
        simpa [mgReady, hs] using hr
    simp only [MaskGen.take, if_pos hg, hr, Bool.and_false, Bool.not_false, Bool.and_true, if_true]

theorem doMgSeed_of {h u : Nat} {s t r : State} {b : Bytes} (hu : s.up h = true) (hb : s.blockState h u ≠ 2)
    (hw : (s.eng h u).mg.seeded = false ∨ (s.eng h u).mg.stalled = true ∨
      (s.eng h u).mg.requested = true ∧ (s.eng h u).mg.prefetched = false)
    (ht : seedCache h s = some t) (hd : drbgRequest h 48 false t = some (b, r)) :
    doMgSeed h u s = r.modEng h u (fun e =>
      { e with mg := e.mg.take b, paused := e.paused && mgReady e, streamed := e.streamed || (e.busy && !mgReady e) }) := by
  have hwants : (!(s.eng h u).mg.seeded || (s.eng h u).mg.stalled ||
      ((s.eng h u).mg.requested && !(s.eng h u).mg.prefetched)) = true := by
    rcases hw with hw | hw | ⟨h1, h2⟩
    · simp [hw]
    · simp [hw]
    · simp [h1, h2]
  simp only [doMgSeed, hwants, hu, hb, Bool.not_true, Bool.false_eq_true, or_self, if_false, ht, Option.bind_some, hd]

/-- Settles O26: a test's request, start and end, and what a reseed and a seed make of a generator. -/
theorem engineMaintenance : Obligations.EngineMaintenance := by
  unfold Obligations.EngineMaintenance
  refine ⟨?request, ?period, ?start, ?pass, ?fail, ?switch, ?grace, ?stall, ?prefetch, ?seed⟩
  case request =>
    rintro h u who s w ha rfl hs
    refine ⟨fun hw hr hb => ?_, fun hw => ?_⟩
    · refine congrArg Host.Outcome.next ((onHearth_of_answers _ ha).trans ?_)
      simp only [doKatReq, hs, hw, Bool.false_eq_true, if_false, if_true, requestKat_of hr hb, Bool.or_true]
    · refine congrArg Host.Outcome.next ((onHearth_of_answers _ ha).trans ?_)
      simp only [doKatReq, hs, hw, Bool.false_eq_true, if_false] <;> rfl
  case period =>
    intro h u s hu hp hr hb
    refine congrArg Host.Outcome.next ((if_pos ⟨hu, hp⟩).trans ((requestKat_of hr hb).trans ?_))
    simp only [Bool.or_false]
  case start =>
    intro h u s hu hp hh hb ht hm ho hs hf
    exact congrArg Host.Outcome.next (doKatStart_of hu hp hh hb ht hm ho hs hf)
  case pass =>
    intro h u s hr hs
    refine congrArg Host.Outcome.next ((doKatDone_of hr hs).trans ?_)
    simp only [if_true, Bool.not_true, Bool.false_or]
  case fail =>
    rintro h u s t hr hs rfl
    refine congrArg Host.Outcome.next ((doKatDone_of hr hs).trans ?_)
    simp only [Bool.false_eq_true, if_false, Bool.not_false, Bool.true_or]
  case switch =>
    intro h u s hu hs hl hp
    exact congrArg Host.Outcome.next ((doMgReseed_of hu hs hl).trans (if_pos hp))
  case grace =>
    intro h u s hu hs hl hp hpol hg
    refine congrArg Host.Outcome.next ((doMgReseed_of hu hs hl).trans ?_)
    rw [if_neg (by simp [hp]), if_pos ⟨flag_eq_true_iff.2 hpol, hg⟩]
    rfl
  case stall =>
    intro h u s hu hs hl hp hpol
    refine congrArg Host.Outcome.next ((doMgReseed_of hu hs hl).trans ?_)
    rw [if_neg (by simp [hp]), if_neg]
    · rfl
    · rintro ⟨hf, hg⟩
      exact hpol.elim (flag_eq_true_iff.1 hf) (fun h16 => by omega)
  case prefetch =>
    intro h u s hu hp
    exact congrArg Host.Outcome.next (if_pos ⟨hu, by simp [hp]⟩)
  case seed =>
    intro h u s t r b hu hb hw ht hd
    refine congrArg Host.Outcome.next ((doMgSeed_of hu hb hw (seedCache_of ht) hd).trans ?_)
    simp only [take_seed]

end Sys2Proof.Machine
end

section
/-! The mode registers of the stoker and the hob, and the decimalisation tables (R25 to R28, R305, R312, R330 to R332). -/

namespace Sys2Proof.Machine

/-- The sixteen digits of a decimalisation table. -/
def dtDigits (s : State) (h n : Nat) : List Nat := (List.range 16).map (fun i =>
  bits (s.rd (pgH .hob h) (Reg.DT_LO_ENTRIES_LO n) + s.rd (pgH .hob h) (Reg.DT_HI_ENTRIES_HI n) * 2 ^ 32) (4 * i) 4)

theorem doDtValid_set {h n : Nat} {who : Requester} {data : Nat} {s : State} (hv : s.variant.hob = true) (hw : mgrOrInner who = true)
    (hd : data % 2 = 1) : doDtValid h n who data s =
      if (dtDigits s h n).all isDigit && (List.range 10).all (fun d => (dtDigits s h n).contains d) then
        setFields (pgH .hob h) [(Reg.DT_CTRL_VALID n, 1)] s
      else refuse (pgH .hob h) who (0x088 + 16 * n) data cValue s := by
  unfold doDtValid
  simp only [hv, hw, hd, Bool.not_true, Bool.false_eq_true, if_false, true_and]
  change (if (!((dtDigits s h n).all isDigit && (List.range 10).all (fun d => (dtDigits s h n).contains d))) = true then _ else _) = _
  cases (dtDigits s h n).all isDigit && (List.range 10).all (fun d => (dtDigits s h n).contains d) <;> rfl

/-- A table of the ten digits alone, each of them in it (R312). -/
theorem dtGood_iff (es : List Nat) : (es.all isDigit && (List.range 10).all (fun d => es.contains d)) = true ↔
    (∀ e ∈ es, e ≤ 9) ∧ ∀ d, d < 10 → d ∈ es := by
  simp [isDigit, Nat.lt_succ_iff]

/-- Settles O27: the writers, and the values that each register takes. -/
theorem stokerAndHobRegisters : Obligations.StokerAndHobRegisters := by
  unfold Obligations.StokerAndHobRegisters
  refine ⟨?stk, ?stkRefused, ?batch, ?latency, ?refused, ?pinfail, ?good, ?bad⟩
  case stk =>
    rintro h who data s w ha rfl hw hd
    refine congrArg Host.Outcome.next ((onHearth_of_answers _ ha).trans ?_)
    simp only [doStkMode, hw, hd, Bool.not_true, Bool.false_eq_true, if_false]
  case stkRefused =>
    rintro h who data s w ha rfl hw
    refine congrArg Host.Outcome.next ((onHearth_of_answers _ ha).trans ?_)
    simp only [doStkMode, hw, Bool.not_false, if_true] <;> rfl
  case batch =>
    rintro h who data s w ha rfl hv hw hd hm
    refine congrArg Host.Outcome.next ((onHearth_of_answers _ ha).trans ?_)
    simp [doHobMode, hv, hw, hd, Ne.symm hm]
  case latency =>
    rintro h who data s w ha rfl hv hw hd hm
    refine congrArg Host.Outcome.next ((onHearth_of_answers _ ha).trans ?_)
    simp [doHobMode, hv, hw, hd, Ne.symm hm]
  case refused =>
    rintro h who data s w ha rfl hv hw hd hm
    refine congrArg Host.Outcome.next ((onHearth_of_answers _ ha).trans ?_)
    simp only [doHobMode, hv, hw, if_pos hd, if_neg (Ne.symm hm), Bool.not_true, Bool.false_eq_true, if_false] <;> rfl
  case pinfail =>
    rintro h who s w ha rfl hv hw
    refine congrArg Host.Outcome.next ((onHearth_of_answers _ ha).trans ?_)
    simp only [doPinfailClr, hv, hw, Bool.not_true, Bool.false_eq_true, if_false]
  case good =>
    rintro h n who data s w es ha rfl hv hw hd rfl he hall
    refine congrArg Host.Outcome.next ((onHearth_of_answers _ ha).trans ((doDtValid_set hv hw hd).trans ?_))
    exact if_pos ((dtGood_iff _).2 ⟨he, hall⟩)
  case bad =>
    rintro h n who data s w es ha rfl hv hw hd rfl hbad
    refine congrArg Host.Outcome.next ((onHearth_of_answers _ ha).trans ((doDtValid_set hv hw hd).trans ?_))
    refine if_neg (fun hgood => ?_)
    obtain ⟨he, hall⟩ := (dtGood_iff _).1 hgood
    rcases hbad with ⟨e, hmem, h9⟩ | ⟨d, h10, hmem⟩
    · exact absurd (he e hmem) (by omega)
    · exact hmem (hall d h10)

end Sys2Proof.Machine
end

section
/-! Group control opcodes (R398 to R408, R412). -/

namespace Sys2Proof.Machine

/-! ### The state in which a control opcode acts -/

@[simp] theorem ctlFrom_H (s : State) (src : GroupSrc) : (ctlFrom s src).H = s.H := by cases src <;> rfl
@[simp] theorem ctlFrom_ft (s : State) (src : GroupSrc) : (ctlFrom s src).ft = s.ft := by cases src <;> rfl
@[simp] theorem ctlFrom_chim (s : State) (src : GroupSrc) : (ctlFrom s src).chim = s.chim := by cases src <;> rfl
@[simp] theorem ctlFrom_gangs (s : State) (src : GroupSrc) : (ctlFrom s src).flue.gangs = s.flue.gangs := by cases src <;> rfl
@[simp] theorem ctlFrom_stackTab (s : State) (src : GroupSrc) : (ctlFrom s src).flue.stackTab = s.flue.stackTab := by
  cases src <;> rfl

@[simp] theorem ctlFrom_group? (s : State) (src : GroupSrc) (h g : Nat) : (ctlFrom s src).group? h g = s.group? h g := by
  simp [State.group?]

@[simp] theorem ctlFrom_gang? (s : State) (src : GroupSrc) (st tag : Nat) : (ctlFrom s src).gang? st tag = s.gang? st tag := by
  simp [State.gang?]

@[simp] theorem ctlFrom_decision? (s : State) (src : GroupSrc) (k u t : Nat) :
    (ctlFrom s src).decision? k u t = s.decision? k u t := by
  simp [State.decision?]

@[simp] theorem decided_ctlFrom (s : State) (src : GroupSrc) (h gid : Nat) (g : Group) :
    decided (ctlFrom s src) h gid g = decided s h gid g := by
  simp [decided]

@[simp] theorem memberFits_ctlFrom (s : State) (src : GroupSrc) (h : Nat) (vf : Option Nat) (st parts : Nat) :
    memberFits (ctlFrom s src) h vf st parts = memberFits s h vf st parts := by
  simp [memberFits]

/-! ### The two answers of a control opcode -/

theorem groupRow_done {s t : State} {op h : Nat} {vf : Option Nat} {d : Bytes} {ref : CtlRef} {src : GroupSrc} {f : GroupOp}
    {st : Nat} {res : Bytes} (a : CtlAt s op h vf d ref src) (hf : f h vf d ref (ctlFrom s src) = (t, .done st res)) :
    groupRow op f src s = .next (ctlDone st res t src) := by
  rw [groupRow_of a (fun hw => absurd (hw.symm.trans (congrArg Prod.snd hf)) (by simp)), hf]
  rfl

theorem groupRow_wait {s t : State} {op h : Nat} {vf : Option Nat} {d : Bytes} {ref : CtlRef} {src : GroupSrc} {f : GroupOp}
    (a : CtlAt s op h vf d ref src) (hf : f h vf d ref (ctlFrom s src) = (t, .wait))
    (ht : t.flue.nextTag = (ctlFrom s src).flue.nextTag) : groupRow op f src s = .next (ctlWait h t src) := by
  rw [groupRow_of a (fun _ => by rw [hf]; exact ht), hf]
  rfl

/-! ### GROUP_OPEN -/

theorem openGroup_local {s : State} {h : Nat} {vf : Option Nat} {d : Bytes} {ref : CtlRef} (hg : (s.H h).groups.length < 32)
    (hj : journalTotal (s.H h) < 1024) (hm : byteAt (dOperands d) 0 = 0) : openGroup h vf d ref s = addGroup h vf none s := by
  rw [openGroup, if_neg (by omega), if_pos hm]

theorem setBit_zero (h : Nat) : setBit 0 h true = 2 ^ h := by simp [setBit]

theorem openGroup_gang {s : State} {h : Nat} {vf : Option Nat} {d : Bytes} {ref : CtlRef} {st parts tag : Nat}
    (hg : (s.H h).groups.length < 32) (hj : journalTotal (s.H h) < 1024) (hm : byteAt (dOperands d) 0 ≠ 0)
    (hst : st = byteAt (dOperands d) 2) (hp : parts = fieldLe (dOperands d) 4 2) (ht : tag = fieldLe (dOperands d) 8 4)
    (hf : memberFits s h vf st parts = true) (hn : s.gang? st tag = none) (hd : s.decision? 2 st tag = none)
    (hl : s.flue.gangs.length < 64) :
    openGroup h vf d ref s = addGroup h vf (some ⟨st, tag, parts⟩) (s.modFlue (fun x =>
      { x with gangs := x.gangs ++ [{ stack := st, tag := tag, parts := parts, opened := 2 ^ h }] })) := by
  subst hst hp ht
  unfold openGroup
  simp only [if_neg hm, hf, hn, hd, Bool.not_true, Bool.false_eq_true, if_false, Option.isSome_none, setBit_zero]
  rw [if_neg (by omega), if_neg (by omega)]

/-! ### GROUP_COMMIT and GROUP_ABORT -/

theorem onGroup_own {s : State} {h : Nat} {vf : Option Nat} {d : Bytes} {ref : CtlRef} {g : Group} (f : Group → GroupOp)
    (hg : s.group? h (dGroup d) = some g) (hv : g.vf = vf) : onGroup f h vf d ref s = f g h vf d ref s := by
  simp only [onGroup, hg, if_neg (not_not_intro hv)]

theorem onGroup_unknown {s : State} {h : Nat} {vf : Option Nat} {d : Bytes} {ref : CtlRef} (f : Group → GroupOp)
    (hg : ∀ g, s.group? h (dGroup d) = some g → g.vf ≠ vf) : onGroup f h vf d ref s = (s, .done stGroupUnknown []) := by
  unfold onGroup
  cases he : s.group? h (dGroup d) with
  | none => rfl
  | some g => exact if_pos (hg g he)

theorem commitGroup_full {s : State} {h : Nat} {vf : Option Nat} {d : Bytes} {ref : CtlRef} {g : Group} (ho : g.state = .opened)
    (hc : g.commit = none) (hn : g.actions.length ≤ fieldLe (dOperands d) 0 2) (hl : g.gang = none) :
    commitGroup g h vf d ref s = (s.modGroup h (dGroup d) (fun x =>
      { x with commit := some ref, count := some (fieldLe (dOperands d) 0 2),
               state := if x.state = .opened then .sealed else x.state }), .wait) := by
  simp only [commitGroup, ho, hc, hl, Option.isSome_none, Bool.false_eq_true, reduceCtorEq, or_self, if_false,
    if_neg (Nat.not_lt.2 hn)]

theorem commitGroup_short {s : State} {h : Nat} {vf : Option Nat} {d : Bytes} {ref : CtlRef} {g : Group}
    (ho : g.state = .opened ∨ g.state = .doomed) (hc : g.commit = none) (hn : fieldLe (dOperands d) 0 2 < g.actions.length) :
    commitGroup g h vf d ref s = ((startRollback h (dGroup d) s).modGroup h (dGroup d) (fun x =>
      { x with commit := some ref, count := some (fieldLe (dOperands d) 0 2), commitStatus := stState }), .wait) := by
  rcases ho with ho | ho <;>
    simp only [commitGroup, ho, hc, Option.isSome_none, Bool.false_eq_true, reduceCtorEq, or_self, if_false, if_pos hn]

theorem abortGroup_of {s : State} {h : Nat} {vf : Option Nat} {d : Bytes} {ref : CtlRef} {g : Group} (hc : g.state ≠ .committing)
    (hr : g.state ≠ .rollingBack) (ha : g.abort = none) (hd : decided s h (dGroup d) g = false) :
    abortGroup g h vf d ref s = ((startRollback h (dGroup d) s).modGroup h (dGroup d) (fun x => { x with abort := some ref }), .wait) := by
  simp only [abortGroup, hc, hr, ha, hd, Option.isSome_none, Bool.false_eq_true, or_self, if_false]

/-- An event of the flue leaves the keys of held requests. -/
theorem EventFrame.nextTag {s t : State} (e : EventFrame s t) : t.flue.nextTag = s.flue.nextTag := by
  have h := congrArg Flue.nextTag e.flue
  exact h

theorem EventFrame.flagCtr (f : Nat → Fld) (e : Ev) (i : Nat) (s : State) : EventFrame s (flagCtr f e i s) :=
  .ite (.refl s) (.trans (.orBit ..) (.raiseFlue ..))

theorem EventFrame.errFlueReg (p : Page) (f : Fld) (i : Nat) (s : State) : EventFrame s (errFlueReg p f i s) :=
  (EventFrame.bump s p f).trans (.ite (.flagCtr ..) (.refl _))

theorem gangAbort_nextTag (r : GangRef) (h : Nat) (s : State) : (gangAbort r h s).flue.nextTag = s.flue.nextTag := by
  unfold gangAbort
  split
  · rfl
  · split
    · exact (EventFrame.trans (.errFlueReg ..) (.raiseFlue ..)).nextTag
    · rfl

theorem startRollback_nextTag (h gid : Nat) (s : State) : (startRollback h gid s).flue.nextTag = s.flue.nextTag := by
  unfold startRollback
  split
  · rfl
  · split
    · split
      · rfl
      · dsimp only
        split
        · rw [gangAbort_nextTag]; rfl
        · rfl
    · split
      · split
        · rw [gangAbort_nextTag]
        · rfl
      · rfl

/-! ### GROUP_EVENT -/

theorem eventJob_joined {h j : Nat} {s : State} {jb : Job} (hj : s.job? h j = some jb) (hw : s.works h = true)
    (hr : jb.state = .ready) (ho : dOp jb.desc = 0x0705) (hf : fenceHolds s h j jb = false) (hjoin : jb.joined = true) :
    eventJob h j s = finishJob h j stOK (s.modJob h j (fun x => { x with ran := true, result := [], hasResult := false })) := by
  simp [eventJob, groupJob, hj, hw, hr, ho, hf, hjoin]

theorem eventAdmin_joined {r : AdminReq} {s t : State} {h : Nat} (hh : adminGroupHearth s r.desc = some h)
    (hj : joinGroup h (dGroup r.desc) (.admin r.key) none 1 false s = (t, .joined)) :
    eventAdmin r s = (t.modGroup h (dGroup r.desc) (fun g => g.modAction (.admin r.key) (fun a =>
      { a with held := true, event := some ((dOperands r.desc).take (dInline r.desc)) })),
      .hold { r.held with group := dGroup r.desc, hearth := h }) := by
  simp only [eventAdmin, hh, hj]

/-- Settles O28: each opcode's answer, in the state in which it acts. -/
theorem groupControl : Obligations.GroupControl := by
  unfold Obligations.GroupControl
  refine ⟨?openLocal, ?openGang, ?commit, ?commitShort, ?abort, ?query, ?unknown, ?eventJob, ?eventAdmin⟩
  case openLocal =>
    rintro src s h vf d ref id a hg hj hm rfl
    have hgo := openGroup_local (vf := vf) (ref := ref) (s := ctlFrom s src) (by simpa using hg) (by simpa using hj) hm
    refine groupRow_done a (hgo.trans ?_)
    rw [addGroup, ctlFrom_H]
  case openGang =>
    rintro src s h vf d ref id st parts tag a hg hj hm rfl hst hp ht hf hn hd hl
    have hgo := openGroup_gang (ref := ref) (s := ctlFrom s src) (by simpa using hg) (by simpa using hj) hm hst hp ht
      (by simpa using hf) (by simpa using hn) (by simpa using hd) (by simpa using hl)
    refine groupRow_done a (hgo.trans ?_)
    have hH : ∀ k, ((ctlFrom s src).modFlue k).H h = s.H h := fun k => congrFun (ctlFrom_H s src) h
    rw [addGroup, hH]
  case commit =>
    intro src s h vf d ref g a hg hv ho hc hn hl
    exact groupRow_wait a ((onGroup_own commitGroup (by simpa using hg) hv).trans (commitGroup_full ho hc hn hl)) rfl
  case commitShort =>
    intro src s h vf d ref g a hg hv ho hc hn
    exact groupRow_wait a ((onGroup_own commitGroup (by simpa using hg) hv).trans (commitGroup_short ho hc hn))
      (startRollback_nextTag ..)
  case abort =>
    intro src s h vf d ref g a hg hv hc hr ha hd
    exact groupRow_wait a ((onGroup_own abortGroup (by simpa using hg) hv).trans (abortGroup_of hc hr ha (by simpa using hd)))
      (startRollback_nextTag ..)
  case query =>
    intro src s h vf d ref g a hg hv
    exact groupRow_done a (onGroup_own queryGroup (by simpa using hg) hv)
  case unknown =>
    intro src s h vf d ref
    exact ⟨fun a hg => groupRow_done a (onGroup_unknown commitGroup (by simpa using hg)),
      fun a hg => groupRow_done a (onGroup_unknown abortGroup (by simpa using hg)),
      fun a hg => groupRow_done a (onGroup_unknown queryGroup (by simpa using hg))⟩
  case eventJob =>
    intro h j s jb hj hw hr ho hf hjoin
    exact congrArg Host.Outcome.next (eventJob_joined hj hw hr ho hf hjoin)
  case eventAdmin =>
    intro q rd r s t h a hh hj
    have hgo := eventAdmin_joined (r := r) (s := adminFrom r s) (by rw [a.desc]; exact hh) (by rw [a.desc]; exact hj)
    refine (adminRow_of (own := noOwn) a rfl).trans ?_
    rw [hgo, a.desc]
    rfl

end Sys2Proof.Machine
end

section
/-! Local groups and gangs as they resolve (R394, R408 to R420, R427, R429). -/

namespace Sys2Proof.Machine

/-! ### Local groups -/

/-- A complete local group of a hearth that works: at once, or with its decision record. -/
theorem doCommitApply_of {h gid : Nat} {s : State} {x : Group} (hg : s.group? h gid = some x) (hw : s.works h = true)
    (hl : x.gang = none) (hc : x.complete = true) :
    doCommitApply h gid s = match countedSlots x, s.decision? 1 h gid with
      | [], _ => applyGroup h gid s
      | _, some (_, d) => if d.state = 2 then applyGroup h gid s else s
      | ns, none =>
        match recordDecision 1 h gid (2 ^ h) (groupOwner s x) [(h, ns)] [(h, x.actions.length)] s with
        | some s => s
        | none => s.modGroup h gid (fun g =>
          { g with state := .rollingBack, cause := stGroupRolledBack, commitStatus := stGroupLimit }) := by
  simp only [doCommitApply, hg, hw, hl, hc, Bool.not_true, Option.isSome_none, Bool.false_eq_true, or_self, if_false] <;> rfl

theorem doRollback_of {h gid : Nat} {s : State} {x : Group} (hg : s.group? h gid = some x) (hw : s.works h = true)
    (hr : x.state = .rollingBack) : doRollback h gid s = rollbackGroup h gid s := by
  simp [doRollback, hg, hw, hr]

theorem doGroupIdle_of {h gid : Nat} {s : State} {x : Group} (hg : s.group? h gid = some x) (hw : s.works h = true)
    (ho : x.state = .opened) (hi : max 1 (s.rd (pgH .group h) Reg.GRP_CTRL_IDLE_LIMIT) ≤ x.idleMs)
    (hd : decided s h gid x = false) : doGroupIdle h gid s =
      startRollback h gid (raiseH h evGrpIdle (pgH .group h) { vf := gid, owner := groupOwner s x } s) := by
  have hwait : (GroupState.opened == .opened || GroupState.opened == .sealed || GroupState.opened == .doomed) = true := rfl
  simp only [doGroupIdle, hg, hw, ho, hwait, hd, Nat.not_lt.2 hi, Bool.not_true, Bool.false_eq_true,
    or_self, if_false]

/-- Settles O29: the commit, with and without a record, the rollback and the idle limit. -/
theorem localGroupsResolve : Obligations.LocalGroupsResolve := by
  unfold Obligations.LocalGroupsResolve
  refine ⟨?plain, ?record, ?counted, ?rollback, ?idle⟩
  case plain =>
    intro h g s x hg hw hl hc hn
    refine congrArg Host.Outcome.next ((doCommitApply_of hg hw hl hc).trans ?_)
    rw [hn]
  case record =>
    intro h g s t x hg hw hl hc hn hd hr
    refine congrArg Host.Outcome.next ((doCommitApply_of hg hw hl hc).trans ?_)
    cases hs : countedSlots x with
    | nil => exact absurd hs hn
    | cons a l =>
      rw [hs] at hr
      simp only [hd, hr]
  case counted =>
    intro h g s x r d hg hw hl hc hn hd h2
    refine congrArg Host.Outcome.next ((doCommitApply_of hg hw hl hc).trans ?_)
    cases hs : countedSlots x with
    | nil => exact absurd hs hn
    | cons a l => simp only [hd, h2, if_true]
  case rollback =>
    intro h g s x hg hw hr
    exact congrArg Host.Outcome.next (doRollback_of hg hw hr)
  case idle =>
    intro h g s x hg hw ho hi hd
    exact congrArg Host.Outcome.next (doGroupIdle_of hg hw ho hi hd)

/-! ### Gangs -/

theorem doGangVote_of {h gid : Nat} {s : State} {x : Group} {r : GangRef} (hg : s.group? h gid = some x) (hr : x.gang = some r)
    (hf : s.flueUp = true) (hw : s.works h = true) (hc : x.complete = true) :
    doGangVote h gid s = decideGang r (groupOwner s x)
      ((s.modGroup h gid (fun y => { y with state := .prepared })).modGang r.stack r.tag
        (fun y => { y with votes := setBit y.votes h true })) := by
  simp only [doGangVote, hg, hr, hf, hw, hc, Bool.not_true, Bool.false_eq_true, or_self, if_false, if_true] <;> rfl

theorem doGangTimeout_of {st tag : Nat} {s : State} {x : Gang} (hg : s.gang? st tag = some x) (hf : s.flueUp = true)
    (hp : x.state = .preparing) :
    doGangTimeout st tag s = raiseFlue evGangTimeout (pgF .gang) {} (errFlueReg (pgF .gang) Reg.GANG_ABORTS_COUNT 100
      (s.modGang st tag (fun y =>
        { y with state := .aborting, timeout := true, late := (List.range 16).foldl (fun m h => if x.parts.testBit h ∧ !x.votes.testBit h then setBit m h true else m) 0 }))) := by
  simp only [doGangTimeout, hg, hf, hp, Bool.not_true, Bool.false_eq_true, ne_eq, not_true_eq_false, or_self, if_false]

theorem doVaultStep_of {r : Nat} {s : State} {d : Decision} (hd : s.chim.vault.records.find? r = some d) (h1 : d.state = 1)
    (hp : s.chim.por = false) (hm : s.chim.main = true) :
    doVaultStep r s =
      (let t := s.modVault (fun v => freeRecords (countRecord r v))
       if d.kind = 2 then t.modGang d.unit d.tag (fun g => if g.state = .deciding then { g with state := .committed } else g) else t) := by
  simp only [doVaultStep, hd, h1, hp, hm, ne_eq, not_true_eq_false, Bool.not_true, Bool.false_eq_true, or_self, if_false]

/-- Settles O31: the votes, the timer, the record and the two messages. -/
theorem gangsResolve : Obligations.GangsResolve := by
  unfold Obligations.GangsResolve
  refine ⟨?vote, ?timeout, ?record, ?localRecord, ?commit, ?abort⟩
  case vote =>
    intro h g s x r hg hr hf hw hc
    exact congrArg Host.Outcome.next (doGangVote_of hg hr hf hw hc)
  case timeout =>
    intro st tag s x hg hf hp
    exact congrArg Host.Outcome.next (doGangTimeout_of hg hf hp)
  case record =>
    intro k s d hd h1 hp hm hk
    exact congrArg Host.Outcome.next ((doVaultStep_of hd h1 hp hm).trans (if_pos hk))
  case localRecord =>
    intro k s d hd h1 hp hm hk
    exact congrArg Host.Outcome.next ((doVaultStep_of hd h1 hp hm).trans (if_neg (by omega)))
  case commit =>
    intro h g s x r y hg hr hy hc hf hw hp
    exact congrArg Host.Outcome.next (by simp [doGangCommit, hg, hr, hy, hc, hf, hw, hp])
  case abort =>
    intro h g s x r y hg hr hy ha hf hw
    exact congrArg Host.Outcome.next (by simp [doGangAbort, hg, hr, hy, ha, hf, hw])

end Sys2Proof.Machine
end

section
/-! Administration opcodes over the function table: the checks they share, and what each leaves. -/

namespace Sys2Proof.Machine

/-! ### The checks of an administration opcode -/

theorem AdminAt.half {s : State} {op : Nat} {q : Fin 4} {rd : AdminRead} {r : AdminReq} (a : AdminAt s op q rd r) (i : Nat) :
    dHalf rd.desc i = oHalf r i := by rw [dHalf, oHalf, a.desc]

theorem AdminAt.byte {s : State} {op : Nat} {q : Fin 4} {rd : AdminRead} {r : AdminReq} (a : AdminAt s op q rd r) (i : Nat) :
    dByte rd.desc i = oByte r i := by rw [dByte, oByte, a.desc]

/-- An opcode that answers at once. -/
theorem adminRow_done {s t : State} {op st : Nat} {q : Fin 4} {rd : AdminRead} {r : AdminReq} {res out : Bytes}
    {own : State → Bytes → Option Nat} {body : AdminReq → State → State × Adm} (a : AdminAt s op q rd r)
    (l : own s rd.desc = none) (b : body r (adminFrom r s) = (t, .done st res out)) :
    adminRow op q rd own body s = .next (adminDone r st res out t) :=
  (adminRow_of a l).trans (by rw [b] <;> rfl)

/-- An opcode that completes later. -/
theorem adminRow_held {s t : State} {op : Nat} {q : Fin 4} {rd : AdminRead} {r : AdminReq} {x : AdminHeld}
    {own : State → Bytes → Option Nat} {body : AdminReq → State → State × Adm} (a : AdminAt s op q rd r)
    (l : own s rd.desc = none) (b : body r (adminFrom r s) = (t, .hold x)) :
    adminRow op q rd own body s = .next (adminHold r x t) :=
  (adminRow_of a l).trans (by rw [b] <;> rfl)

/-- An opcode whose own checks refuse it (R89): its descriptor is consumed, and nothing else of it is done. -/
theorem adminRow_stop {s : State} {op st : Nat} {q : Fin 4} {rd : AdminRead} {r : AdminReq}
    {own : State → Bytes → Option Nat} (body : AdminReq → State → State × Adm) (a : AdminAt s op q rd r)
    (l : own s rd.desc = some st) :
    adminRow op q rd own body s = .next (adminPost q rd.desc [] st [] [] (adminFrom r s)) := by
  have hw : rd.wf = true := by simp [AdminRead.wf, a.size]
  have hs : adminStop own s rd.desc (listsFit rd.desc (readLists rd.desc rd.sglIn rd.sglOut)) = some st := by
    simp only [adminStop, a.valid, l]
  simp only [adminRow, hw, adminGo, a.ready, a.opcode, a.read, hs, adminFrom, a.queue, a.desc, if_true, Bool.not_true,
    Bool.false_eq_true, if_false, ne_eq, not_true_eq_false]

theorem ownVf_none {bad : State → Bytes → Bool} {s : State} {op : Nat} {q : Fin 4} {rd : AdminRead} {r : AdminReq}
    (a : AdminAt s op q rd r) (hn : oHalf r 0 < s.flue.numVfs) (hv : oHalf r 0 < 512) (hb : bad s rd.desc = false) :
    ownVf bad s rd.desc = none := by
  simp [ownVf, ownRange, a.half, hn, hv, hb]

theorem ownVf_refuses {bad : State → Bytes → Bool} {s : State} {op : Nat} {q : Fin 4} {rd : AdminRead} {r : AdminReq}
    (a : AdminAt s op q rd r) (h : s.flue.numVfs ≤ oHalf r 0 ∨ 512 ≤ oHalf r 0 ∨ bad s rd.desc = true) :
    ownVf bad s rd.desc = some stBadDescriptor := by
  simp [ownVf, ownRange, a.half, or_assoc, h]

theorem ownRange_none {bad : State → Bytes → Bool} {s : State} {d : Bytes} (hb : bad s d = false) : ownRange bad s d = none := by
  simp [ownRange, hb]

theorem boundOp_of {f : Nat → AdminReq → State → State × Adm} {r : AdminReq} {s : State} (hb : s.bound (oHalf r 0) = true) :
    boundOp f r s = f (oHalf r 0) r s := by
  simp only [boundOp, vfOp, hb, if_true]

theorem boundOp_unbound {f : Nat → AdminReq → State → State × Adm} {r : AdminReq} {s : State} (hb : s.bound (oHalf r 0) = false) :
    boundOp f r s = (s, admErr stNotBound) := by
  simp only [boundOp, vfOp, hb, Bool.false_eq_true, if_false]

theorem quiescedOp_of {f : Nat → AdminReq → State → State × Adm} {r : AdminReq} {s : State} (hb : s.bound (oHalf r 0) = true)
    (hd : s.damper (oHalf r 0) = dampDrained) (hl : s.ft (oHalf r 0) Reg.FT_TDI_LOCKED ≠ 1) :
    quiescedOp f r s = f (oHalf r 0) r s := by
  simp only [quiescedOp, boundOp_of hb, hd, hl, ne_eq, not_true_eq_false, if_false]

/-- An opcode that needs a bound VF acts and completes at once. -/
theorem boundRow_done {s t : State} {op st : Nat} {q : Fin 4} {rd : AdminRead} {r : AdminReq} {bad : State → Bytes → Bool}
    {f : Nat → AdminReq → State → State × Adm} (a : AdminAt s op q rd r) (hn : oHalf r 0 < s.flue.numVfs) (hv : oHalf r 0 < 512)
    (hbad : bad s rd.desc = false) (hb : s.bound (oHalf r 0) = true) (e : f (oHalf r 0) r (adminFrom r s) = (t, admErr st)) :
    adminRow op q rd (ownVf bad) (boundOp f) s = .next (adminDone r st [] [] t) :=
  adminRow_done a (ownVf_none a hn hv hbad) ((boundOp_of (s := adminFrom r s) hb).trans e)

/-- An opcode that needs a drained VF acts and completes at once. -/
theorem quiescedRow_done {s t : State} {op : Nat} {q : Fin 4} {rd : AdminRead} {r : AdminReq} {bad : State → Bytes → Bool}
    {f : Nat → AdminReq → State → State × Adm} (a : AdminAt s op q rd r) (hn : oHalf r 0 < s.flue.numVfs) (hv : oHalf r 0 < 512)
    (hbad : bad s rd.desc = false) (hb : s.bound (oHalf r 0) = true) (hd : s.damper (oHalf r 0) = dampDrained)
    (hl : s.ft (oHalf r 0) Reg.FT_TDI_LOCKED ≠ 1) (e : f (oHalf r 0) r (adminFrom r s) = (t, admOk)) :
    adminRow op q rd (ownVf bad) (quiescedOp f) s = .next (adminDone r stOK [] [] t) :=
  adminRow_done a (ownVf_none a hn hv hbad) ((quiescedOp_of (s := adminFrom r s) hb hd hl).trans e)

/-! ### What a VF that leaves or enters a hearth changes -/

/-- Between `s` and `t` only pages of hearths, their state and what the flue keeps for a VF beside its queue pairs differ. -/
structure PolicyFrame (s t : State) : Prop where
  qps    : t.flue.qps = s.flue.qps
  rd     : ∀ p f, isHearthPage p = false → t.rd p f = s.rd p f
  rising : s.regs.Rising → t.regs.Rising

theorem PolicyFrame.refl (s : State) : PolicyFrame s s := ⟨rfl, fun _ _ _ => rfl, id⟩

theorem PolicyFrame.trans {s t u : State} (a : PolicyFrame s t) (b : PolicyFrame t u) : PolicyFrame s u :=
  ⟨b.qps.trans a.qps, fun p f h => (b.rd p f h).trans (a.rd p f h), b.rising ∘ a.rising⟩

theorem PolicyFrame.modH (s : State) (h : Nat) (f : Hearth → Hearth) : PolicyFrame s (s.modH h f) :=
  ⟨rfl, fun _ _ _ => rfl, id⟩

theorem PolicyFrame.modVf (s : State) (v : Nat) (f : Vf → Vf) : PolicyFrame s (s.modVf v f) :=
  ⟨rfl, fun _ _ _ => rfl, id⟩

theorem PolicyFrame.wr (s : State) {p : Page} (hp : isHearthPage p = true) (f : Fld) (v : Nat) : PolicyFrame s (s.wr p f v) :=
  ⟨rfl, fun q g hq => s.rd_wr_page p q f g v (by rintro rfl; rw [hp] at hq; cases hq), s.wr_rising p f v⟩

theorem PolicyFrame.foldl {α : Type} {f : State → α → State} (hf : ∀ s x, PolicyFrame s (f s x)) (l : List α) (s : State) :
    PolicyFrame s (l.foldl f s) := by
  induction l generalizing s with
  | nil => exact .refl s
  | cons x l ih => exact (hf s x).trans (ih _)

theorem PolicyFrame.ite {c : Prop} [Decidable c] {r s t : State} (a : PolicyFrame r s) (b : PolicyFrame r t) :
    PolicyFrame r (if c then s else t) := by
  split
  · exact a
  · exact b

theorem isHearthPage_kpPage (h : Nat) : isHearthPage (kpPage h) = true := rfl

theorem PolicyFrame.endJob (h j st : Nat) (s : State) : PolicyFrame s (endJob h j st s) := by
  unfold Machine.endJob
  cases s.job? h j with
  | none => exact .refl s
  | some jb =>
    dsimp only
    split
    · exact .modH ..
    · cases s.group? h jb.group with
      | none => exact .refl s
      | some g =>
        dsimp only
        split
        · refine .trans (t := _) ?undone ((PolicyFrame.modH _ h _).trans (.modH _ h _))
          split
          · exact .modH ..
          · exact .refl s
        · exact .ite (.trans (.modH s h _) (.modH _ h _)) (.trans (.trans (.modH s h _) (.modH _ h _)) (.modH _ h _))

theorem PolicyFrame.failJob (h j st : Nat) (s : State) : PolicyFrame s (failJob h j st s) :=
  (PolicyFrame.endJob h j st s).trans ((PolicyFrame.modH _ h _).trans (.wr _ rfl _ _))

theorem PolicyFrame.freeEntry (h i : Nat) (s : State) : PolicyFrame s (freeEntry h i s) :=
  (PolicyFrame.modH s h _).trans (.foldl (fun x (p : Nat × Job) => .failJob h p.1 stKeyNotFound x) _ _)

theorem PolicyFrame.kp (s : State) (h : Nat) (f : Fld) (v : Nat) : PolicyFrame s (s.wr (kpPage h) f v) :=
  .wr s (isHearthPage_kpPage h) f v

theorem PolicyFrame.passQuota (h p q n : Nat) (s : State) : PolicyFrame s (passQuota h p q n s) :=
  .trans (.kp s h _ _) (.kp _ h _ _)

theorem PolicyFrame.dropFromEntry (h p : Nat) (gone : Bool) (s : State) (i : Nat) (e : KeyEntry) :
    PolicyFrame s (dropFromEntry h p gone s i e) := by
  unfold Machine.dropFromEntry
  dsimp only
  split
  · exact .freeEntry h i s
  · split
    · exact (PolicyFrame.modH s h _).trans (.passQuota ..)
    · exact .modH ..

theorem PolicyFrame.dropVfKeys (h v : Nat) (gone : Bool) (s : State) : PolicyFrame s (dropVfKeys h v gone s) := by
  unfold Machine.dropVfKeys
  refine PolicyFrame.foldl (fun x e => ?_) _ _
  exact .dropFromEntry ..

theorem PolicyFrame.leavePosition (h p : Nat) (s : State) : PolicyFrame s (leavePosition h p s) :=
  .trans (.trans (.trans (.kp s h _ _) (.kp _ h _ _)) (.kp _ h _ _)) (.kp _ h _ _)

theorem PolicyFrame.takePosition (h v owner p : Nat) (s : State) : PolicyFrame s (takePosition h v owner p s) := by
  unfold Machine.takePosition
  refine .trans ?written (.modVf _ v _)
  exact .trans (.trans (.trans (.trans (.trans (.kp s h _ _) (.kp _ h _ _)) (.kp _ h _ _)) (.kp _ h _ _)) (.kp _ h _ _))
    (.kp _ h _ _)

theorem PolicyFrame.liftCompat (h : Nat) (s : State) : PolicyFrame s (liftCompat h s) := by
  unfold Machine.liftCompat
  split
  · exact .modH ..
  · exact .refl s

theorem PolicyFrame.ft {s t : State} (a : PolicyFrame s t) (v : Nat) (f : Nat → Fld) : t.ft v f = s.ft v f := a.rd _ _ rfl

theorem PolicyFrame.anyEnabled {s t : State} (a : PolicyFrame s t) (v : Nat) : anyEnabled t v = anyEnabled s v := by
  have hq (q : Fin 8) : t.qrd (.vf (Fin.ofNat 512 v) q) Reg.QP_CTRL_ENABLE = s.qrd (.vf (Fin.ofNat 512 v) q) Reg.QP_CTRL_ENABLE :=
    a.rd _ _ rfl
  simp only [Machine.anyEnabled, hq]

theorem anyEnabled_setFt (s : State) (w : Nat) (f : Nat → Fld) (x v : Nat) : anyEnabled (s.setFt w f x) v = anyEnabled s v := by
  have hq (q : Fin 8) : (s.setFt w f x).qrd (.vf (Fin.ofNat 512 v) q) Reg.QP_CTRL_ENABLE
      = s.qrd (.vf (Fin.ofNat 512 v) q) Reg.QP_CTRL_ENABLE := s.rd_wr_page _ _ _ _ _ (ftPage_ne_qPage w _).symm
  simp only [anyEnabled, hq]

/-! ### MOVE_VF -/

/-- The VF placed at position `p` of another hearth. -/
def movedTo (h tgt v p : Nat) (s : State) : State :=
  takePosition tgt v (s.ft v Reg.FT_OWNER_ID) p
    ((leavePosition h (s.posOf v) (dropVfKeys h v true s)).setFt v Reg.FT_HEARTH tgt)

/-- The part after MOVE_VF has acted: a VF with an enabled queue pair locks the compatibility of its new hearth (R126). -/
def afterMove (h tgt v p : Nat) (s : State) : State :=
  let t := movedTo h tgt v p s
  liftCompat h (if anyEnabled t v then t.modH tgt (fun x => { x with compatLock := true }) else t)

theorem leave_frame (h v : Nat) (s : State) : PolicyFrame s (leavePosition h (s.posOf v) (dropVfKeys h v true s)) :=
  (PolicyFrame.dropVfKeys h v true s).trans (.leavePosition ..)

/-- The owner identity that MOVE_VF reads after the keys have left is the one before. -/
theorem moveVf_of {v p : Nat} {r : AdminReq} {s : State} (hr : roomAt s (oByte r 2) v (s.ft v Reg.FT_QP_GRANT) = true)
    (hf : s.hState (oByte r 2) ≠ hsFatal) (hne : oByte r 2 ≠ s.ft v Reg.FT_HEARTH)
    (hc : (s.H (oByte r 2)).compat = (s.H (s.ft v Reg.FT_HEARTH)).compat ∨ anyEnabled s v = false)
    (hp : freePosition s (oByte r 2) = some p) :
    moveVf v r s = (afterMove (s.ft v Reg.FT_HEARTH) (oByte r 2) v p s, admOk) := by
  have hgo : ¬(s.hState (oByte r 2) = hsFatal ∨ oByte r 2 = s.ft v Reg.FT_HEARTH ∨
      ((s.H (oByte r 2)).compat ≠ (s.H (s.ft v Reg.FT_HEARTH)).compat ∧ anyEnabled s v = true)) := by
    rcases hc with hc | hc <;> simp [hf, hne, hc]
  have howner := (leave_frame (s.ft v Reg.FT_HEARTH) v s).ft v Reg.FT_OWNER_ID
  simp only [moveVf, hr, Bool.not_true, Bool.false_eq_true, if_false, if_neg hgo, hp, howner, afterMove, movedTo] <;> rfl

theorem movedTo_frame (h tgt v p : Nat) (s : State) :
    PolicyFrame ((leavePosition h (s.posOf v) (dropVfKeys h v true s)).setFt v Reg.FT_HEARTH tgt) (movedTo h tgt v p s) :=
  .takePosition ..

theorem afterMove_frame (h tgt v p : Nat) (s : State) : PolicyFrame (movedTo h tgt v p s) (afterMove h tgt v p s) := by
  unfold afterMove
  refine .trans (t := _) ?locked (.liftCompat h _)
  split
  · exact .modH ..
  · exact .refl _

theorem movedTo_qps (h tgt v p : Nat) (s : State) : (movedTo h tgt v p s).flue.qps = s.flue.qps :=
  (movedTo_frame h tgt v p s).qps.trans (leave_frame h v s).qps

theorem movedTo_anyEnabled (h tgt v p : Nat) (s : State) : anyEnabled (movedTo h tgt v p s) v = anyEnabled s v :=
  ((movedTo_frame h tgt v p s).anyEnabled v).trans ((anyEnabled_setFt ..).trans ((leave_frame h v s).anyEnabled v))

theorem afterMove_compatLock {h tgt v : Nat} (p : Nat) {s : State} (hne : tgt ≠ h) (he : anyEnabled s v = true) :
    ((afterMove h tgt v p s).H tgt).compatLock = true := by
  rw [afterMove, movedTo_anyEnabled, if_pos he, liftCompat]
  split
  · rw [State.H_modH_ne _ _ _ _ hne, State.H_modH]
  · rw [State.H_modH]

theorem afterMove_hearth {h tgt v : Nat} (p : Nat) {s : State} (hs : s.regs.Rising) (ht : tgt < 16) :
    (afterMove h tgt v p s).ft v Reg.FT_HEARTH = tgt := by
  rw [(afterMove_frame ..).ft, (movedTo_frame ..).ft, State.ft_setFt _ _ _ _ ((leave_frame h v s).rising hs)]
  exact Nat.mod_eq_of_lt ht

/-- Every field that BIND_VF sets beside the hearth. -/
theorem besideHearth {g : Nat → Fld} (hg : g ∈ (bindFields 0 0 0 0).tail.map Prod.fst) :
    InEntry g ∧ ftBit g ≠ ftBit Reg.FT_HEARTH := by
  obtain ⟨e, he, rfl⟩ := List.mem_map.1 hg
  refine ⟨bindFields_inEntry 0 0 0 0 e (List.mem_of_mem_tail he), fun c => ?_⟩
  have hd := (List.nodup_cons.1 (bindFields_apart 0 0 0 0)).1
  exact hd (List.mem_map.2 ⟨e, he, c⟩)

theorem afterMove_ft {h tgt v : Nat} (p : Nat) (s : State) (hv : v < 512) {g : Nat → Fld}
    (hg : g ∈ (bindFields 0 0 0 0).tail.map Prod.fst) : (afterMove h tgt v p s).ft v g = s.ft v g := by
  obtain ⟨hin, hbit⟩ := besideHearth hg
  have hhearth : InEntry Reg.FT_HEARTH := bindFields_inEntry 0 0 0 0 _ List.mem_cons_self
  rw [(afterMove_frame ..).ft, (movedTo_frame ..).ft, State.ft_setFt_ne _ _ hhearth hin hv hv (.inr hbit), (leave_frame h v s).ft]

/-! ### The opcodes that set fields -/

theorem setQpGrant_of {v : Nat} {r : AdminReq} {s : State} (hl : s.ft v Reg.FT_TDI_LOCKED ≠ 1)
    (hr : roomAt s (s.ft v Reg.FT_HEARTH) v (oByte r 2) = true)
    (ha : ∀ k : Fin 8, oByte r 2 ≤ k.val → s.qrd (.vf (Fin.ofNat 512 v) k) Reg.QP_STATUS_ACTIVE ≠ 1) :
    setQpGrant v r s = (s.setFt v Reg.FT_QP_GRANT (oByte r 2), admOk) := by
  have hbusy : ((List.range 8).filter (fun q => decide (oByte r 2 ≤ q))).any (fun q =>
      s.qrd (.vf (Fin.ofNat 512 v) (Fin.ofNat 8 q)) Reg.QP_STATUS_ACTIVE == 1) = false := by
    simp only [List.any_eq_false, List.mem_filter, List.mem_range, decide_eq_true_eq, beq_iff_eq]
    intro k ⟨hk, hn⟩
    exact ha (Fin.ofNat 8 k) (by rwa [Fin.val_ofNat, Nat.mod_eq_of_lt hk])
  simp only [setQpGrant, hbusy, hr, hl, Bool.not_true, Bool.false_eq_true, if_false]

theorem setCompat_of {r : AdminReq} {s : State} (hc : (s.H (oByte r 0)).compatLock = false)
    (hl : ∀ v ∈ s.boundVfs (oByte r 0), s.ft v Reg.FT_TDI_LOCKED ≠ 1) :
    setCompat r s = (s.modH (oByte r 0) (fun x => { x with compat := oByte r 1 == 1 }), admOk) := by
  have hany : (s.boundVfs (oByte r 0)).any (fun v => s.ft v Reg.FT_TDI_LOCKED == 1) = false := by
    simpa only [List.any_eq_false, beq_iff_eq] using hl
  simp only [setCompat, hc, hany, Bool.false_eq_true, or_self, if_false]

theorem stackDefine_delete {r : AdminReq} {s : State} (hg : undecidedGang s (oByte r 0) = false) (hd : oByte r 1 = 0) :
    stackDefine r s = (s.modFlue (fun x => { x with stackTab := x.stackTab.del (oByte r 0) }), admOk) := by
  simp only [stackDefine, hg, hd, Bool.false_eq_true, if_false, if_true]

theorem stackDefine_set {r : AdminReq} {s : State} (hg : undecidedGang s (oByte r 0) = false) (hd : oByte r 1 = 1)
    (h2 : 2 ≤ ((List.range 16).filter ((oHalf r 4).testBit ·)).length)
    (hm : ∀ h, h < 16 → (oHalf r 4).testBit h = true → s.enabled h = true ∧ ∃ v ∈ s.boundVfs h, s.ft v Reg.FT_OWNER_ID = oHalf r 2) :
    stackDefine r s =
      (s.modFlue (fun x => { x with stackTab := x.stackTab.put (oByte r 0) { owner := oHalf r 2, mask := oHalf r 4 } }), admOk) := by
  have howned : ((List.range 16).filter ((oHalf r 4).testBit ·)).any
      (fun h => !((s.boundVfs h).any (fun v => s.ft v Reg.FT_OWNER_ID == oHalf r 2))) = false := by
    simpa using fun h hh hb => (hm h hh hb).2
  have hup : ((List.range 16).filter ((oHalf r 4).testBit ·)).any (fun h => !s.enabled h) = false := by
    simpa using fun h hh hb => (hm h hh hb).1
  simp only [stackDefine, hg, hd, howned, hup, Nat.not_lt.2 h2, Bool.false_eq_true, if_false, or_self, Nat.one_ne_zero]

/-- Settles O34: the checks pass, and each opcode acts on the state that its descriptor has left. MOVE_VF writes no page of the
flue but the VF's hearth in its entry. -/
theorem vfAdministration : Obligations.VfAdministration := by
  unfold Obligations.VfAdministration
  refine ⟨?unbind, ?move, ?reset, ?grant, ?draught, ?share, ?compat, ?inflight, ?delete, ?define⟩
  case unbind =>
    rintro q rd r s v a rfl hn hv hb hd hl
    exact quiescedRow_done a hn hv rfl hb hd hl rfl
  case move =>
    rintro q rd r s v tgt p a rfl hn hv hb hd hl rfl ht he hf hne hr hc hp
    have hbad : badMove s rd.desc = false := by simp only [badMove, a.byte, he, Bool.not_true]
    have hmove : moveVf (oHalf r 0) r (adminFrom r s) =
        (afterMove (s.ft (oHalf r 0) Reg.FT_HEARTH) (oByte r 2) (oHalf r 0) p (adminFrom r s), admOk) :=
      moveVf_of (s := adminFrom r s) ((roomAt_adminFrom ..).trans hr) hf hne (by rwa [anyEnabled_adminFrom])
        ((freePosition_adminFrom ..).trans hp)
    refine ⟨_, quiescedRow_done a hn hv hbad hb hd hl hmove, (afterMove_frame ..).qps.trans (movedTo_qps ..),
      fun he => afterMove_compatLock p hne ((anyEnabled_adminFrom ..).trans he), fun hs => ?_⟩
    have hft {g : Nat → Fld} (hg : g ∈ (bindFields 0 0 0 0).tail.map Prod.fst) :=
      afterMove_ft (h := s.ft (oHalf r 0) Reg.FT_HEARTH) (tgt := oByte r 2) p (adminFrom r s) hv hg
    refine ⟨afterMove_hearth p ((Tab.sorted_iff _).1 hs) ht, ?_, ?_, fun g hg => hft ?_⟩
    · exact (congrArg (· != 0) (hft (by simp [bindFields]))).trans hb
    · exact (hft (by simp [bindFields])).trans hd
    · exact List.Sublist.subset (.cons _ (.cons _ (.cons_cons _ (.cons_cons _ (.cons _ (.refl _)))))) hg
  case reset =>
    rintro q rd r s v a rfl hn hv hb hd hl
    exact quiescedRow_done a hn hv rfl hb hd hl rfl
  case grant =>
    rintro q rd r s v n a rfl hn hv hb hl rfl hr hq
    exact boundRow_done a hn hv rfl hb (setQpGrant_of (s := adminFrom r s) hl ((roomAt_adminFrom ..).trans hr) hq)
  case draught =>
    rintro q rd r s v w rate b a rfl hn hv hb rfl rfl rfl hw hr hbu
    have hbad : badDraught s rd.desc = false := by
      simp only [badDraught, a.half, Bool.or_eq_false_iff, beq_eq_false_iff_ne, decide_eq_false_iff_not]
      omega
    exact boundRow_done a hn hv hbad hb rfl
  case share =>
    rintro q rd r s v a rfl hn hv hb h2 h3 h4 h5
    have hbad : badShare s rd.desc = false := by
      simp only [badShare, a.byte, Bool.or_eq_false_iff, decide_eq_false_iff_not]
      omega
    exact boundRow_done a hn hv hbad hb rfl
  case compat =>
    rintro q rd r s h a rfl he h1 hc hl
    have hbad : badCompat s rd.desc = false := by simp [badCompat, a.byte, he, h1]
    exact adminRow_done a (ownRange_none hbad) (setCompat_of (s := adminFrom r s) hc hl)
  case inflight =>
    rintro q rd r s v n a rfl hn hv hb rfl hi
    have hbad : badInflight s rd.desc = false := by
      simp only [badInflight, a.half, Bool.or_eq_false_iff, beq_eq_false_iff_ne, decide_eq_false_iff_not]
      omega
    exact boundRow_done a hn hv hbad hb rfl
  case delete =>
    rintro q rd r s k a rfl hk hg hd
    have hbad : badStack s rd.desc = false := by simp [badStack, a.byte, hk, hd]
    exact adminRow_done a (ownRange_none hbad) (stackDefine_delete (s := adminFrom r s) ((undecidedGang_adminFrom ..).trans hg) hd)
  case define =>
    rintro q rd r s k owner mask a rfl hk hg hd rfl rfl h2 hm
    have hbad : badStack s rd.desc = false := by simp [badStack, a.byte, hk, hd]
    exact adminRow_done a (ownRange_none hbad) (stackDefine_set (s := adminFrom r s) ((undecidedGang_adminFrom ..).trans hg) hd h2 hm)

/-! ### SET_DAMPER -/

/-- The row of a SET_DAMPER action is the opcode's own. -/
theorem damperRow_of {n : Nat} {q : Fin 4} {rd : AdminRead} {r : AdminReq} {s : State} {f : Nat → AdminReq → State → State × Adm}
    (a : AdminAt s 0x0808 q rd r) (hn : oByte r 2 = n) :
    damperRow n q rd f s = adminRow 0x0808 q rd (ownVf badDamper) (boundOp f) s := by
  have ha : damperAction rd.desc = n := (a.byte 2).trans hn
  simp only [damperRow, ha, ne_eq, not_true_eq_false, false_and, and_false, if_false]

/-- A SET_DAMPER of a bound VF that exists acts and completes at once. -/
theorem damperRow_done {n st : Nat} {q : Fin 4} {rd : AdminRead} {r : AdminReq} {s t : State}
    {f : Nat → AdminReq → State → State × Adm} (a : AdminAt s 0x0808 q rd r) (hnv : oHalf r 0 < s.flue.numVfs)
    (hv : oHalf r 0 < 512) (hb : s.bound (oHalf r 0) = true) (hn : oByte r 2 = n) (hn3 : n ≤ 3)
    (hf : f (oHalf r 0) r (adminFrom r s) = (t, admErr st)) : damperRow n q rd f s = .next (adminDone r st [] [] t) := by
  have hbad : badDamper s rd.desc = false := by simpa [badDamper, damperAction, a.byte, hn] using hn3
  exact (damperRow_of a hn).trans (boundRow_done a hnv hv hbad hb hf)

/-- A CLOSE_WAIT that has to wait. -/
theorem damperRow_held {n : Nat} {q : Fin 4} {rd : AdminRead} {r : AdminReq} {s t : State} {x : AdminHeld}
    {f : Nat → AdminReq → State → State × Adm} (a : AdminAt s 0x0808 q rd r) (hnv : oHalf r 0 < s.flue.numVfs)
    (hv : oHalf r 0 < 512) (hb : s.bound (oHalf r 0) = true) (hn : oByte r 2 = n) (hn3 : n ≤ 3)
    (hf : f (oHalf r 0) r (adminFrom r s) = (t, .hold x)) : damperRow n q rd f s = .next (adminHold r x t) := by
  have hbad : badDamper s rd.desc = false := by simpa [badDamper, damperAction, a.byte, hn] using hn3
  exact (damperRow_of a hn).trans (adminRow_held a (ownVf_none a hnv hv hbad) ((boundOp_of (s := adminFrom r s) hb).trans hf))

theorem damperOpen_resetting {v : Nat} {s : State} (r : AdminReq) (h : s.damper v = dampResetting) :
    damperOpen v r s = (s, admErr stState) := by simp only [damperOpen, h, if_true]

theorem damperOpen_closing {v : Nat} {s : State} (r : AdminReq) (h : s.damper v = dampClosing) :
    damperOpen v r s = (finishWaits v stState (s.setDamper v dampOpen), admOk) := by
  simp only [damperOpen, h, if_true]
  exact if_neg (by decide)

theorem damperOpen_else {v : Nat} {s : State} (r : AdminReq)
    (h : s.damper v = dampOpen ∨ s.damper v = dampThrottled ∨ s.damper v = dampDrained) :
    damperOpen v r s = (s.setDamper v dampOpen, admOk) := by
  have hr : s.damper v ≠ dampResetting := by rcases h with h | h | h <;> rw [h] <;> decide
  have hc : s.damper v ≠ dampClosing := by rcases h with h | h | h <;> rw [h] <;> decide
  simp only [damperOpen, hr, hc, if_false]

theorem damperThrottle_of {v : Nat} {r : AdminReq} {s : State} (h1 : 1 ≤ oHalf r 4) (h2 : oHalf r 4 ≤ s.ft v Reg.FT_INFLIGHT_MAX) :
    damperThrottle v r s = if s.damper v = dampOpen ∨ s.damper v = dampThrottled then
        ((s.setDamper v dampThrottled).modVf v (fun x => { x with throttle := oHalf r 4 }), admOk)
      else (s, admErr stState) :=
  if_neg (by omega)

theorem damperClose_resetting {v : Nat} {s : State} (r : AdminReq) (h : s.damper v = dampResetting) :
    damperClose v r s = (s, admErr stState) := if_pos h

theorem damperClose_open {v : Nat} {s : State} (r : AdminReq) (h : s.damper v = dampOpen ∨ s.damper v = dampThrottled) :
    damperClose v r s = (enterClosing v s, admOk) := by
  have hr : s.damper v ≠ dampResetting := by rcases h with h | h <;> rw [h] <;> decide
  simp only [damperClose, hr, h, if_false, if_true]

theorem damperClose_closed {v : Nat} {s : State} (r : AdminReq) (h : s.damper v = dampClosing ∨ s.damper v = dampDrained) :
    damperClose v r s = (s, admOk) := by
  rcases h with h | h <;> simp only [damperClose, h] <;> rfl

theorem damperCloseWait_of {v st : Nat} {r : AdminReq} {s t : State} (h : damperClose v r s = (t, admErr st)) :
    damperCloseWait v r s = if st = stOK ∧ t.damper v ≠ dampDrained then
      (t, .hold { r.held with vf := v, isWait := true }) else (t, admErr st) := by
  simp only [damperCloseWait, h, admErr]

/-! ### The refusals that drained VFs are spared -/

theorem quiescedOp_unbound {f : Nat → AdminReq → State → State × Adm} {r : AdminReq} {s : State} (hb : s.bound (oHalf r 0) = false) :
    quiescedOp f r s = (s, admErr stNotBound) := boundOp_unbound hb

theorem quiescedOp_busy {f : Nat → AdminReq → State → State × Adm} {r : AdminReq} {s : State} (hb : s.bound (oHalf r 0) = true)
    (hd : s.damper (oHalf r 0) ≠ dampDrained) : quiescedOp f r s = (s, admErr stNotQuiesced) :=
  (boundOp_of hb).trans (if_pos hd)

theorem quiescedOp_locked {f : Nat → AdminReq → State → State × Adm} {r : AdminReq} {s : State} (hb : s.bound (oHalf r 0) = true)
    (hd : s.damper (oHalf r 0) = dampDrained) (hl : s.ft (oHalf r 0) Reg.FT_TDI_LOCKED = 1) :
    quiescedOp f r s = (s, admErr stTdiLocked) :=
  (boundOp_of hb).trans ((if_neg (not_not_intro hd)).trans (if_pos hl))

/-- The states of a VF that an opcode for drained VFs refuses, and the status of each. -/
def NotQuiesced (s : State) (v st : Nat) : Prop :=
  s.bound v = false ∧ st = stNotBound ∨ s.bound v = true ∧ s.damper v ≠ dampDrained ∧ st = stNotQuiesced ∨
    s.bound v = true ∧ s.damper v = dampDrained ∧ s.ft v Reg.FT_TDI_LOCKED = 1 ∧ st = stTdiLocked

theorem quiescedOp_refuses {f : Nat → AdminReq → State → State × Adm} {r : AdminReq} {s : State} {st : Nat}
    (h : NotQuiesced s (oHalf r 0) st) : quiescedOp f r s = (s, admErr st) := by
  rcases h with ⟨hb, rfl⟩ | ⟨hb, hd, rfl⟩ | ⟨hb, hd, hl, rfl⟩
  · exact quiescedOp_unbound hb
  · exact quiescedOp_busy hb hd
  · exact quiescedOp_locked hb hd hl

theorem quiescedRow_refuses {op st : Nat} {q : Fin 4} {rd : AdminRead} {r : AdminReq} {s : State} {bad : State → Bytes → Bool}
    {f : Nat → AdminReq → State → State × Adm} (a : AdminAt s op q rd r) (hn : oHalf r 0 < s.flue.numVfs) (hv : oHalf r 0 < 512)
    (hb : bad s rd.desc = false) (h : NotQuiesced s (oHalf r 0) st) :
    adminRow op q rd (ownVf bad) (quiescedOp f) s = .next (adminDone r st [] [] (adminFrom r s)) :=
  adminRow_done a (ownVf_none a hn hv hb) (quiescedOp_refuses (s := adminFrom r s) h)

/-- Settles O35: each action by the damper's state, and the shared refusals in the order in which `quiescedOp` looks. -/
theorem damperAndQuiescence : Obligations.DamperAndQuiescence := by
  unfold Obligations.DamperAndQuiescence
  refine ⟨?moves, ?refusals⟩
  case moves =>
    rintro q rd r s v a rfl hn hv hb
    refine ⟨?opens, ?reopens, ?throttles, ?refusesThrottle, ?closes, ?isClosed, ?drained, ?waits, ?closesAndWaits, ?resetting⟩
    case opens => exact fun h0 hd => damperRow_done a hn hv hb h0 (by decide) (damperOpen_else (s := adminFrom r s) r hd)
    case reopens => exact fun h0 hd => damperRow_done a hn hv hb h0 (by decide) (damperOpen_closing (s := adminFrom r s) r hd)
    case throttles =>
      exact fun h1 hd hl hm => damperRow_done a hn hv hb h1 (by decide)
        ((damperThrottle_of (s := adminFrom r s) hl hm).trans (if_pos hd))
    case refusesThrottle =>
      intro h1 hd hl hm
      have hno : ¬(s.damper (oHalf r 0) = dampOpen ∨ s.damper (oHalf r 0) = dampThrottled) := by
        rcases hd with hd | hd | hd <;> rw [hd] <;> decide
      exact damperRow_done a hn hv hb h1 (by decide) ((damperThrottle_of (s := adminFrom r s) hl hm).trans (if_neg hno))
    case closes => exact fun h2 hd => damperRow_done a hn hv hb h2 (by decide) (damperClose_open (s := adminFrom r s) r hd)
    case isClosed => exact fun h2 hd => damperRow_done a hn hv hb h2 (by decide) (damperClose_closed (s := adminFrom r s) r hd)
    case drained =>
      exact fun h3 hd => damperRow_done a hn hv hb h3 (by decide)
        ((damperCloseWait_of (s := adminFrom r s) (damperClose_closed r (.inr hd))).trans (if_neg (fun c => c.2 hd)))
    case waits =>
      intro h3 hd
      have hnot : s.damper (oHalf r 0) ≠ dampDrained := by rw [hd]; decide
      exact damperRow_held a hn hv hb h3 (by decide)
        ((damperCloseWait_of (s := adminFrom r s) (damperClose_closed r (.inl hd))).trans (if_pos ⟨rfl, hnot⟩))
    case closesAndWaits =>
      intro h3 hd
      have hw := damperCloseWait_of (s := adminFrom r s) (damperClose_open r hd)
      dsimp only
      split
      · rename_i hc
        exact damperRow_done a hn hv hb h3 (by decide) (hw.trans (if_neg (fun c => c.2 hc)))
      · rename_i hc
        exact damperRow_held a hn hv hb h3 (by decide) (hw.trans (if_pos ⟨rfl, hc⟩))
    case resetting =>
      intro hd
      refine ⟨fun h => ?_, fun h => ?_, fun h => ?_⟩
      · exact damperRow_done a hn hv hb h (by decide) (damperOpen_resetting (s := adminFrom r s) r hd)
      · exact damperRow_done a hn hv hb h (by decide) (damperClose_resetting (s := adminFrom r s) r hd)
      · exact damperRow_done a hn hv hb h (by decide)
          ((damperCloseWait_of (s := adminFrom r s) (damperClose_resetting r hd)).trans (if_neg (fun c => absurd c.1 (by decide))))
  case refusals =>
    rintro op q rd r s v st c hc a rfl
    simp only [List.mem_cons, Prod.mk.injEq, List.not_mem_nil, or_false] at hc
    rcases hc with ⟨rfl, rfl⟩ | ⟨rfl, rfl⟩ | ⟨rfl, rfl⟩
    · refine ⟨fun h => ?_, fun hn hv _ h => quiescedRow_refuses a hn hv rfl h⟩
      exact adminRow_stop _ a (ownVf_refuses a (h.imp_right (Or.imp_right (fun e => absurd e.1 (by decide)))))
    · refine ⟨fun h => adminRow_stop _ a (ownVf_refuses a ?_), fun hn hv he h => quiescedRow_refuses a hn hv ?_ h⟩
      · simpa [badMove, a.byte] using h
      · simpa [badMove, a.byte] using he
    · refine ⟨fun h => ?_, fun hn hv _ h => quiescedRow_refuses a hn hv rfl h⟩
      exact adminRow_stop _ a (ownVf_refuses a (h.imp_right (Or.imp_right (fun e => absurd e.1 (by decide)))))

end Sys2Proof.Machine
end

section
/-! Lengths of digests, signatures and slot records, and what AES gives under a key of no bytes. -/

namespace Sys2Proof.Machine

/-! ### Digests and signatures -/

@[simp] theorem length_toBe (n v : Nat) : (toBe n v).length = n := by simp [toBe]

theorem length_sha2Round (P : Sha2) (x : List Nat × List Nat) (k : Nat) : (sha2Round P x k).1.length = x.1.length := by
  unfold sha2Round
  dsimp only
  split <;> rfl

theorem length_sha2Rounds (P : Sha2) (l : List Nat) (x : List Nat × List Nat) :
    (l.foldl (sha2Round P) x).1.length = x.1.length := by
  induction l generalizing x with
  | nil => rfl
  | cons k l ih => exact (ih _).trans (length_sha2Round P x k)

theorem length_sha2Block (P : Sha2) (h : List Nat) (blk : Bytes) : (sha2Block P h blk).length = h.length := by
  simp [sha2Block, length_sha2Rounds]

theorem length_sha2Blocks (P : Sha2) (l : List Bytes) (h : List Nat) : (l.foldl (sha2Block P) h).length = h.length := by
  induction l generalizing h with
  | nil => rfl
  | cons b l ih => exact (ih _).trans (length_sha2Block P h b)

theorem length_flatMap_toBe (n : Nat) (l : List Nat) : (l.flatMap (toBe n)).length = l.length * n := by
  induction l with
  | nil => exact (Nat.zero_mul n).symm
  | cons a l ih => rw [List.flatMap_cons, List.length_append, ih, length_toBe, List.length_cons, Nat.succ_mul, Nat.add_comm]

/-- A digest is as long as the words of the hash allow. -/
theorem length_sha2 (P : Sha2) (iv : List Nat) (out : Nat) (m : Bytes) (h : out ≤ iv.length * (P.w / 8)) :
    (sha2 P iv out m).length = out := by
  unfold sha2
  rw [List.length_take, length_flatMap_toBe, length_sha2Blocks, Nat.min_eq_left h]

theorem length_firstPrimes_eight : (firstPrimes 8).length = 8 := by decide +kernel

theorem length_sha512 (m : Bytes) : (sha512 m).length = 64 :=
  length_sha2 _ _ _ _ (by simp [length_firstPrimes_eight, sha2w64])

theorem length_p384Pub (d : Nat) : (p384Pub d).length = 96 := by
  unfold p384Pub p384Bytes
  split <;> simp

theorem length_p384Sign (d : Nat) (k m : Bytes) : (p384Sign d k m).length = 96 := by
  unfold p384Sign
  split <;> simp

/-- The owner attestation certificate (R209). -/
theorem length_ownerCert (s : State) (owner request nonce : Bytes) : (ownerCert s owner request nonce).length = 280 := by
  simp [ownerCert, length_p384Pub, length_p384Sign, length_sha512, serial16, ascii]

/-! ### AES under a key of no bytes -/

theorem aesRoundKeys_nil : aesRoundKeys [] = List.replicate 7 [] := by decide +kernel

theorem xorNats_nil_right (a : List Nat) : xorNats a [] = [] := List.zipWith_nil_right

theorem aesEnc_nil (blk : Bytes) : aesEnc [] blk = [] := by
  have hk (i : Nat) : (List.replicate 7 ([] : List Nat)).getD i [] = [] := by
    rw [List.getD_eq_getElem?_getD, List.getElem?_replicate]
    split <;> rfl
  simp only [aesEnc, aesRoundKeys_nil, hk, xorNats_nil_right]
  have hfold (l : List Nat) : l.foldl (fun _ _ => ([] : List Nat)) [] = [] := by
    induction l with
    | nil => rfl
    | cons _ _ ih => exact ih
  rw [hfold, List.map_nil]

theorem cmac_aes_nil (m : Bytes) : cmac .aes [] m = [] := by
  simp only [cmac, Cipher.enc, aesEnc_nil]

/-- No key derives from a root of no bytes. -/
theorem internalKey_nil (label : String) (h slot gen n : Nat) : internalKey [] label h slot gen n = [] := by
  simp [internalKey, deriveRoot, kdfCmac, kdfCtr, cmac_aes_nil]

theorem length_slotRecordBody (recipe fp : Bytes) (slot h counter : Nat) : (slotRecordBody recipe fp slot h counter).length = 80 := by
  simp only [slotRecordBody, padTo, List.length_append, List.length_take, length_zeros, length_toLe, List.length_cons, List.length_nil]
  omega

/-- A record under an ember of no bytes lacks its MAC. -/
theorem length_digestRecord_nil (digest : Bytes) (n h : Nat) : (digestRecord [] digest n h).length = 80 := by
  simp [digestRecord, slotRecord, slotRecordMac, internalKey_nil, cmac_aes_nil, length_slotRecordBody]

end Sys2Proof.Machine
end

section
/-! OWNERSHIP_COMPLETE in a hearth whose DRBG has a key of no bytes. -/

namespace Sys2Proof.Machine

/-! ### The length that a completion entry tells -/

theorem fieldLe_entryBytes_len (e : Entry) (hd sq : Nat) (ph : Bool) : fieldLe (entryBytes e hd sq ph) 8 3 = e.len % 2 ^ 24 := by
  rw [entryBytes_eq, ← List.append_assoc, ← List.append_assoc]
  exact fieldLe_append_toLe _ _ 3 e.len (by simp)

/-- A quiet completion's last output is its entry, which tells the length of the data. -/
theorem adminDone_quiet_last {r : AdminReq} (hq : dQuiet r.desc = true) (st : Nat) (res out : Bytes) (t : State) :
    ∃ a b, (adminDone r st res out t).out.getLast? = some (.hostWrite .pf0 false a b) ∧ fieldLe b 8 3 = out.length % 2 ^ 24 := by
  let e : Entry := { tag := dTag r.desc, status := st, len := out.length, hasRes := !res.isEmpty, result := res }
  let s : State := { t with out := t.out ++ scatter .pf0 (t.relaxed .pf0) r.dst out }
  have hlast : (adminDone r st res out t).out.getLast? = some (entryWrite (.admin (Fin.ofNat 4 r.q)) e s) := by
    simp only [adminDone, adminPost, postAdmin, hq, postCompletion_out, completionMessages, Bool.true_eq_false, false_and, if_false,
      List.append_nil, List.getLast?_append]
    rfl
  exact ⟨_, _, hlast, fieldLe_entryBytes_len e _ _ _⟩

theorem adminDone_quiet_length {r : AdminReq} (hq : dQuiet r.desc = true) {st st' : Nat} {res res' out out' : Bytes} {t t' : State}
    (h : adminDone r st res out t = adminDone r st' res' out' t') : out.length % 2 ^ 24 = out'.length % 2 ^ 24 := by
  obtain ⟨a, b, hb, hlen⟩ := adminDone_quiet_last hq st res out t
  obtain ⟨a', b', hb', hlen'⟩ := adminDone_quiet_last hq st' res' out' t'
  rw [h, hb'] at hb
  simp only [Option.some.injEq, Output.hostWrite.injEq, true_and] at hb
  rw [← hlen, ← hlen', hb.2]

/-- What a ceremony that completes returns. -/
theorem ownershipComplete_output {r : AdminReq} {s t : State} {c : Ceremony} {es : List (Nat × Bytes)} {own : Bytes}
    (hc : s.flue.ceremony = some c) (h2 : 2 ≤ c.accepted.length) (ha : ceremonyAllowed s = true)
    (hd : drawEmbers s.hearthList s = some (es, own, t)) :
    ∃ u x k, ownershipComplete r s = (u, .done stOK [] (ownerCert x own c.request k ++
      es.flatMap (fun p => digestRecord p.2 (sha256 (slice c.request 0x218 256)) 254 p.1
        ++ digestRecord p.2 (sha256 (slice c.request 0x18 512)) 255 p.1))) := by
  have hno : ¬(c.accepted.length < 2 ∨ (!ceremonyAllowed s) = true) := by simp [ha, Nat.not_lt.2 h2]
  simp only [ownershipComplete, hc, if_neg hno, hd]
  exact ⟨_, _, _, rfl⟩

theorem exec_ownershipComplete_done {q : Fin 4} {rd : AdminRead} {r : AdminReq} {s t : State} {st : Nat} {res out : Bytes}
    (a : AdminAt s 0x0824 q rd r) (hin : dInLen rd.desc = 0) (hroom : 280 + s.variant.hearths * 192 ≤ dOutLen rd.desc)
    (b : ownershipComplete r (adminFrom r s) = (t, .done st res out)) :
    exec (.ownershipComplete q rd) s = .next (adminDone r st res out t) :=
  adminRow_done a (by rw [if_neg (not_not_intro hin), if_neg (Nat.not_lt.2 hroom)]) b

/-! ### The counterexample -/

/-- OWNERSHIP_COMPLETE in pointer form with OUT_LEN 512, its completion quiet. -/
def quietComplete : AdminRead :=
  { desc := toLe 2 0x0824 ++ toLe 2 17 ++ zeros 80 ++ toLe 4 512 ++ zeros 40, sglIn := [], sglOut := [], inp := .ok [] }

def keylessCeremony : Ceremony := { request := [], challenge := [], started := 0, accepted := [(0, []), (1, [])] }

/-- A part of one hearth, PROVISIONED, whose ceremony has two officers. The DRBG of its hearth runs under a key of no bytes. -/
def keylessState : State :=
  let s : State :=
    { variant := { hearths := 1 }
      hearths := [(0, { ent := { source := .healthy, drbg := .running, pool := List.replicate 4 [] } })]
      flue := { ceremony := some keylessCeremony
                adminQps := [(0, { sqTail := 1 })] }
      chim := { vault := { intact := true }, fuses := { Fuses.start with lcWords := [(1, 32), (2, 32)] } } }
  let s := (s.wr bootPage Reg.BOOT_STATUS_STATE flueRunning).setHState 0 hsStarted
  ((s.qwr (.admin 0) Reg.QP_CFG_SQ_LOG2 4).qwr (.admin 0) Reg.QP_CFG_CQ_LOG2 4).qwr (.admin 0) Reg.QP_CTRL_ENABLE 1

/-- What the descriptor gives the opcode. -/
def quietReq : AdminReq :=
  { q := 0, desc := quietComplete.desc, inp := zeros 0, dst := (readLists quietComplete.desc [] []).out, key := keylessState.flue.nextTag }

theorem quietReq_at : AdminAt keylessState 0x0824 0 quietComplete quietReq where
  size := by decide +kernel
  ready := by decide +kernel
  opcode := by decide +kernel
  read := by decide +kernel
  valid := by decide +kernel
  serves := .inl (by decide +kernel)
  queue := rfl
  desc := rfl
  dst := rfl
  key := rfl
  inp := ⟨[], by decide +kernel, by decide +kernel⟩

theorem keyless_embers : ∃ own t, drawEmbers keylessState.hearthList (adminFrom quietReq keylessState) = some ([(0, [])], own, t) := by
  have h : (drawEmbers keylessState.hearthList (adminFrom quietReq keylessState)).map (·.1) = some [(0, [])] := by decide +kernel
  obtain ⟨⟨es, own, t⟩, hd, rfl⟩ := Option.map_eq_some_iff.1 h
  exact ⟨own, t, hd⟩

theorem keyless_output : ∃ u x own k, ownershipComplete quietReq (adminFrom quietReq keylessState) =
    (u, .done stOK [] (ownerCert x own keylessCeremony.request k ++
      [(0, [])].flatMap (fun p => digestRecord p.2 (sha256 (slice keylessCeremony.request 0x218 256)) 254 p.1
        ++ digestRecord p.2 (sha256 (slice keylessCeremony.request 0x18 512)) 255 p.1))) := by
  obtain ⟨own, t, hd⟩ := keyless_embers
  have ha : ceremonyAllowed (adminFrom quietReq keylessState) = true := by decide +kernel
  obtain ⟨u, x, k, h⟩ := ownershipComplete_output (r := quietReq) (s := adminFrom quietReq keylessState) (c := keylessCeremony) rfl
    (by decide) ha (by rwa [adminFrom_hearthList])
  exact ⟨u, x, own, k, h⟩

/-- The part after the command, and the 440 bytes that it returns. -/
theorem keyless_complete : ∃ u out, exec (.ownershipComplete 0 quietComplete) keylessState = .next (adminDone quietReq stOK [] out u) ∧
    out.length = 440 := by
  obtain ⟨u, x, own, k, h⟩ := keyless_output
  have hroom : 280 + keylessState.variant.hearths * 192 ≤ dOutLen quietComplete.desc := by decide +kernel
  exact ⟨u, _, exec_ownershipComplete_done quietReq_at (by decide +kernel) hroom h,
    by simp [length_ownerCert, length_digestRecord_nil]⟩

/-- Refutes O36: nothing holds a state's DRBG to a key of 32 bytes. Under a key of no bytes the ember drawn has none, the two
records of the hearth lack their MACs, and OWNERSHIP_COMPLETE returns 280 + 160 bytes where the statement has 280 + 192. -/
theorem not_slotAndOwnershipCommands : ¬ Obligations.SlotAndOwnershipCommands := by
  unfold Obligations.SlotAndOwnershipCommands
  rintro ⟨-, -, -, -, -, -, -, complete, -⟩
  obtain ⟨own, t, hd⟩ := keyless_embers
  have hin : dInLen quietComplete.desc = 0 := by decide +kernel
  have hroom : 280 + keylessState.variant.hearths * 192 ≤ dOutLen quietComplete.desc := by decide +kernel
  have hallowed : ceremonyAllowed keylessState = true := by decide +kernel
  obtain ⟨u, out, he, hlen, -⟩ :=
    complete 0 quietComplete quietReq keylessState t keylessCeremony _ own quietReq_at hin hroom rfl (by decide) hallowed hd
  obtain ⟨u', out', he', hlen'⟩ := keyless_complete
  have hquiet : dQuiet quietReq.desc = true := by decide +kernel
  have heq := adminDone_quiet_length hquiet (Host.Outcome.next.inj (he'.symm.trans he))
  rw [hlen, hlen'] at heq
  exact absurd heq (by decide)

end Sys2Proof.Machine
end

section
/-! Images, the start and the reset of a hearth (R681 to R694). -/

namespace Sys2Proof.Machine

/-- A check of an opcode's input: the opcode answers the status of a check that fails, and goes on where none does. -/
theorem adminRow_checked {s t u : State} {op : Nat} {q : Fin 4} {rd : AdminRead} {r : AdminReq} {own : State → Bytes → Option Nat}
    {body : AdminReq → State → State × Adm} {c : Option Nat} (a : AdminAt s op q rd r) (l : own s rd.desc = none)
    (ho : c = none → body r (adminFrom r s) = (t, admOk)) (he : ∀ st, c = some st → body r (adminFrom r s) = (u, admErr st)) :
    adminRow op q rd own body s = .next (c.elim (adminDone r stOK [] [] t) (fun st => adminDone r st [] [] u)) := by
  cases c with
  | none => exact adminRow_done a l (ho rfl)
  | some st => exact adminRow_done a l (he st rfl)

/-! ### IMAGE_LOAD -/

/-- The outer image in the hearth's memory, and its version in the flue's registers (R691). -/
def outerLoaded (h : Nat) (img : Bytes) (s : State) : State :=
  imageEvent true h ((((s.modH h (fun x =>
    { x with imageOuter := some (byteAt img 6, img), tcmOut := memPut x.tcmOut 0 (img.drop 2176) })).wr (pgF .flueBoot)
      (Reg.HEARTH_STATE_SVN_OUTER h) (byteAt img 6)).wr (pgF .flueBoot) (Reg.HEARTH_STATE_OUTER h) 1))

theorem imageLoad_of {r : AdminReq} {s : State} (he : s.enabled (pHearth r.desc) = true) (hl : s.live (pHearth r.desc) = true)
    (ho : s.flag (pgF .flueBoot) (Reg.HEARTH_STATE_OUTER (pHearth r.desc)) = false) :
    imageLoad r s = match checkImage s kindOuter (pHearth r.desc) r.inp with
      | some st => (imageEvent false (pHearth r.desc) s, admErr st)
      | none => (outerLoaded (pHearth r.desc) r.inp s, admOk) := by
  simp only [imageLoad, he, hl, ho, Bool.not_true, Bool.false_eq_true, or_self, if_false] <;> rfl

/-! ### HEARTH_START and HEARTH_RESET -/

/-- The lifecycle allows a start: the part is neither blank nor out of service. -/
def MayStart (s : State) (h : Nat) : Prop :=
  s.enabled h = true ∧ lcState s ≠ lcBlank ∧ lcState s ≠ lcDecommissioned

theorem hearthStart_of {r : AdminReq} {s : State} (m : MayStart s (pHearth r.desc))
    (hst : s.hState (pHearth r.desc) = hsReset ∨ s.hState (pHearth r.desc) = hsFatal ∨ s.hState (pHearth r.desc) = hsFailed ∨
      s.hState (pHearth r.desc) = hsOff) :
    hearthStart r s = (beginStart (pHearth r.desc) r.inp
        (if s.hState (pHearth r.desc) = hsFatal then hearthReset (pHearth r.desc) stFatal s else s),
      .hold { r.held with hearth := pHearth r.desc, isStart := true }) := by
  obtain ⟨he, hb, hd⟩ := m
  simp only [hearthStart, he, hb, hd, hst, Bool.not_true, Bool.false_eq_true, if_false, not_true_eq_false, or_self]

theorem hearthResetOp_of {r : AdminReq} {s : State} (he : s.enabled (oByte r 0) = true)
    (hq : dParam r.desc % 2 = 1 ∨ ∀ v ∈ s.boundVfs (oByte r 0), s.damper v = dampDrained) :
    hearthResetOp r s = (hearthReset (oByte r 0) stFatal s, admOk) := by
  have hgo : ¬((!decide (dParam r.desc % 2 = 1)) = true ∧
      (!(s.boundVfs (oByte r 0)).all (fun v => s.damper v == dampDrained)) = true) := by
    simpa [Decidable.or_iff_not_imp_left] using hq
  simp only [hearthResetOp, he, hgo, Bool.not_true, Bool.false_eq_true, if_false]

/-! ### The end of a start -/

/-- A hearth whose start waits for what it needs. -/
structure Starts (s : State) (h : Nat) : Prop where
  starting : s.hState h = hsStarting
  up       : s.up h = true

theorem classDown_of_up {s : State} {h c : Nat} (hu : classUp s h c = true) : classDown s h c = false := by
  simp only [classUp, List.any_eq_true, Bool.and_eq_true, Bool.not_eq_true'] at hu
  obtain ⟨u, hm, -, hon⟩ := hu
  simp only [classDown, List.all_eq_false, Bool.and_eq_true, not_and, Bool.not_eq_true]
  exact ⟨u, hm, fun _ => hon⟩

theorem doHearthStarted_down {s : State} {h : Nat} (b : Starts s h) (hd : classDown s h 1 = true ∨ classDown s h 2 = true) :
    doHearthStarted h s = startFails h stOffline s := by
  have hgo : ¬(s.hState h ≠ hsStarting ∨ (!s.up h) = true) := by simp [b.starting, b.up]
  simp only [doHearthStarted, if_neg hgo, if_pos hd]

theorem doHearthStarted_up {s : State} {h : Nat} (b : Starts s h) (h1 : classUp s h 1 = true) (h2 : classUp s h 2 = true) :
    doHearthStarted h s =
      match checkImage s kindInner h ((s.H h).imageInner.getD (0, [])).2 with
      | some st => startFails h st (imageEvent false h s)
      | none =>
        if (!(hobUnits s).all (settled s h)) = true ∨ (!s.memReady h) = true ∨ (s.H h).ent.drbg = .uninstantiated then s
        else if (lateShadow h s).chim.vault.rngGens.getD (h * 8) 0 = 0xFFFFFFFF then
          endStart h stFatal (enterFatal h fatRange0Stuck
            (imageEvent true h ((lateShadow h s).wr (memPage h) (Reg.RNG_STATUS_STUCK 0) 1)))
        else match startRange0 h (lateShadow h s) with
          | none => lateShadow h s
          | some t => finishStart h ((s.H h).imageInner.getD (0, [])).2 (imageEvent true h t) := by
  have hgo : ¬(s.hState h ≠ hsStarting ∨ (!s.up h) = true) := by simp [b.starting, b.up]
  simp only [doHearthStarted, if_neg hgo, classDown_of_up h1, classDown_of_up h2, h1, h2, Bool.false_eq_true, or_self, if_false,
    Bool.not_true] <;> rfl

theorem doHearthStarted_finishes {s t : State} {h : Nat} (b : Starts s h) (h1 : classUp s h 1 = true) (h2 : classUp s h 2 = true)
    (hc : checkImage s kindInner h ((s.H h).imageInner.getD (0, [])).2 = none) (hu : ∀ u ∈ hobUnits s, settled s h u = true)
    (hm : s.memReady h = true) (hd : (s.H h).ent.drbg ≠ .uninstantiated)
    (hg : (lateShadow h s).chim.vault.rngGens.getD (h * 8) 0 ≠ 0xFFFFFFFF) (ht : startRange0 h (lateShadow h s) = some t) :
    doHearthStarted h s = finishStart h ((s.H h).imageInner.getD (0, [])).2 (imageEvent true h t) := by
  have hall : (hobUnits s).all (settled s h) = true := List.all_eq_true.2 hu
  rw [doHearthStarted_up b h1 h2, hc]
  simp only [hall, hm, hd, Bool.not_true, Bool.false_eq_true, or_self, if_false, if_neg hg, ht]

theorem doHearthStarted_refused {s : State} {h st : Nat} (b : Starts s h) (h1 : classUp s h 1 = true) (h2 : classUp s h 2 = true)
    (hc : checkImage s kindInner h ((s.H h).imageInner.getD (0, [])).2 = some st) :
    doHearthStarted h s = startFails h st (imageEvent false h s) := by
  rw [doHearthStarted_up b h1 h2, hc]

/-- Settles O37: the checks of each opcode pass, and the end of a start goes by the tests, the image and range 0. -/
theorem hearthStartAndReset : Obligations.HearthStartAndReset := by
  unfold Obligations.HearthStartAndReset
  refine ⟨?load, ?start, ?restart, ?finishes, ?refused, ?down, ?reset⟩
  case load =>
    rintro q rd r s h a rfl he hl ho
    have hload := imageLoad_of (r := r) (s := adminFrom r s) he hl ho
    rw [checkImage_adminFrom] at hload
    exact adminRow_checked a rfl (fun hc => hload.trans (by rw [hc] <;> rfl)) (fun st hc => hload.trans (by rw [hc]))
  case start =>
    rintro q rd r s h a rfl he hb hd hst
    have hf : s.hState (pHearth r.desc) ≠ hsFatal := by rcases hst with hst | hst | hst <;> rw [hst] <;> decide
    have hstart := hearthStart_of (r := r) (s := adminFrom r s) ⟨he, hb, hd⟩ (hst.imp_right .inr)
    exact adminRow_held a rfl (hstart.trans (by rw [adminFrom_hState, if_neg hf]))
  case restart =>
    rintro q rd r s h a rfl he hb hd hst
    have hstart := hearthStart_of (r := r) (s := adminFrom r s) ⟨he, hb, hd⟩ (.inr (.inl hst))
    exact adminRow_held a rfl (hstart.trans (by rw [adminFrom_hState, if_pos hst]))
  case finishes =>
    rintro h s t img hst hup rfl h1 h2 hc hu hm hd hg ht
    exact congrArg Host.Outcome.next (doHearthStarted_finishes ⟨hst, hup⟩ h1 h2 hc hu hm hd hg ht)
  case refused =>
    rintro h s img st hst hup rfl h1 h2 hc
    exact congrArg Host.Outcome.next (doHearthStarted_refused ⟨hst, hup⟩ h1 h2 hc)
  case down =>
    exact fun h s hst hup hd => congrArg Host.Outcome.next (doHearthStarted_down ⟨hst, hup⟩ hd)
  case reset =>
    rintro q rd r s h a rfl he hq
    exact adminRow_done a rfl (hearthResetOp_of (s := adminFrom r s) he hq)

end Sys2Proof.Machine
end

section
/-! Lifecycle words, fuses, fatal dumps and the tamper log. -/

namespace Sys2Proof.Machine

/-! ### A completion keeps the names of held requests -/

@[simp] theorem State.modQp_admin_nextTag (s : State) (q : Fin 4) (f : Qp → Qp) : (s.modQp (.admin q) f).flue.nextTag = s.flue.nextTag := rfl

@[simp] theorem State.emit_nextTag (s : State) (o : Output) : (s.emit o).flue.nextTag = s.flue.nextTag := by
  cases o <;> rfl

theorem sendMsix_nextTag (fn : Func) (v : Nat) (s : State) : (sendMsix fn v s).flue.nextTag = s.flue.nextTag := by
  cases h : vectorMasked fn v s
  · rw [sendMsix_of_unmasked h, State.emit_nextTag]
  · rw [sendMsix_of_masked h]; rfl

theorem postCompletion_nextTag (q : Fin 4) (e : Entry) (sup : Bool) (s : State) :
    (postCompletion (.admin q) e sup s).flue.nextTag = s.flue.nextTag := by
  rcases postCompletion_cases (.admin q) e sup s with ⟨-, h⟩ | ⟨-, -, h⟩ | ⟨-, -, h⟩
  · rw [h]; simp [entryWritten]
  · rw [h]; simp [entryWritten]
  · rw [h, raiseVector, sendMsix_nextTag]; simp [entryWritten]

theorem adminDone_nextTag (r : AdminReq) (st : Nat) (res out : Bytes) (t : State) :
    (adminDone r st res out t).flue.nextTag = t.flue.nextTag := postCompletion_nextTag ..

/-! ### LIFECYCLE_ADVANCE -/

theorem adminGo_of {s : State} {op : Nat} {q : Fin 4} {rd : AdminRead} {r : AdminReq} {own : State → Bytes → Option Nat}
    {body : AdminReq → State → State × Adm} (a : AdminAt s op q rd r) (l : own s rd.desc = none) :
    adminGo op q.val rd own body s = adminEnd r (body r (adminFrom r s)) := by
  have hw : rd.wf = true := by simp [AdminRead.wf, a.size]
  exact Host.Outcome.next.inj ((if_pos hw).symm.trans (adminRow_of a l))

theorem ownLen_none {n : Nat} {d : Bytes} (s : State) (h : dInLen d = n) : ownLen n s d = none := if_neg (not_not_intro h)

theorem execLifecycleAdvance_of {s : State} {q : Fin 4} {rd : AdminRead} {r : AdminReq} (part : Option Nat)
    (a : AdminAt s 0x0850 q rd r) (hl : dInLen rd.desc = 2368) :
    exec (.lifecycleAdvance q rd part) s = .next
      (let t := adminEnd r (lifecycleAdvance part r (adminFrom r s))
       if part.isSome ∧ t.flue.nextTag ≠ s.flue.nextTag then doMainLoss t else t) := by
  have hw : rd.wf = true := by simp [AdminRead.wf, a.size]
  calc exec (.lifecycleAdvance q rd part) s
      = .next (lifecycleRow q.val rd part s) := if_pos hw
    _ = _ := by rw [lifecycleRow, adminGo_of a (ownLen_none s hl)]

/-- The word of the target partly blown (R703). -/
def partlyBlown (target n : Nat) (s : State) : State :=
  s.modChim (fun c => { c with fuses := { c.fuses with
    lcWords := c.fuses.lcWords.put target (clamp (c.fuses.lcWords.getD target 0) 31 n) } })

theorem lifecycleAdvance_refused {part : Option Nat} {r : AdminReq} {s : State} {st : Nat} (h : checkAdvance s r.inp = some st) :
    lifecycleAdvance part r s = (s, admErr st) := by
  simp only [lifecycleAdvance, h]

theorem lifecycleAdvance_whole {r : AdminReq} {s : State} (h : checkAdvance s r.inp = none) (hq : s.chim.quenching = false) :
    lifecycleAdvance none r s = (if byteAt r.inp 5 = lcDecommissioned then lifecycleMoved (decommission s)
      else refreshPins (lifecycleMoved (blowWord (byteAt r.inp 5) s)), admOk) := by
  simp only [lifecycleAdvance, h, hq, Bool.false_eq_true, if_false]
  split <;> rfl

theorem lifecycleAdvance_part {r : AdminReq} {s : State} (n : Nat) (h : checkAdvance s r.inp = none)
    (hq : s.chim.quenching = false) : lifecycleAdvance (some n) r s = (partlyBlown (byteAt r.inp 5) n s, .hold r.held) := by
  simp only [lifecycleAdvance, h, hq, Bool.false_eq_true, if_false] <;> rfl

/-! ### FUSE_PROGRAM and ROLLBACK_ADVANCE -/

/-- The lifecycle and the temperature allow the programming of a fuse word (R704). -/
def MayProgram (s : State) : Prop := (lcState s = lcVendorTest ∨ lcState s = lcProvisioned) ∧ hotterThan s 340 = false

/-- The fuses after bits `v` of the word that `w` names are blown. -/
def withFuses (w v : Nat) (f : Fuses) : Fuses :=
  if w = 1 then { f with tamperDis := f.tamperDis ||| v } else { f with compat := f.compat ||| v }

theorem fuseProgram_of {r : AdminReq} {s : State} {width : Nat} (m : MayProgram s)
    (hw : (if oByte r 0 = 1 then 10 else if oByte r 0 = 2 then s.variant.hearths else 0) = width) (h0 : width ≠ 0)
    (hv : fieldLe (dOperands r.desc) 4 4 < 2 ^ width) :
    fuseProgram r s = (raiseFlue evFuseProgrammed (pgF .fuse) {} (s.modChim (fun c =>
      { c with fuses := withFuses (oByte r 0) (fieldLe (dOperands r.desc) 4 4) c.fuses })), admOk) := by
  obtain ⟨hl, hh⟩ := m
  have hdiv : fieldLe (dOperands r.desc) 4 4 / 2 ^ width = 0 := Nat.div_eq_of_lt hv
  have hgo : ¬(¬(lcState s = lcVendorTest ∨ lcState s = lcProvisioned) ∨ hotterThan s 340 = true ∨
      fieldLe (dOperands r.desc) 4 4 / 2 ^ width ≠ 0 ∨ width = 0) := by simp [hl, hh, hdiv, h0]
  simp only [fuseProgram, hw, if_neg hgo, withFuses]

theorem rollbackAdvance_of {r : AdminReq} {s : State} (hk : oByte r 0 + 1 ≤ 3)
    (hv : arbValue s.chim.fuses (oByte r 0 + 1) < oByte r 1) (h128 : oByte r 1 ≤ 128) (hr : runningSvns s (oByte r 0 + 1) ≠ [])
    (hmin : ∀ x ∈ runningSvns s (oByte r 0 + 1), oByte r 1 ≤ x) :
    rollbackAdvance r s = ((List.range (oByte r 1 - arbValue s.chim.fuses (oByte r 0 + 1))).foldl
        (fun x _ => raiseFlue evFuseProgrammed (pgF .fuse) {} x)
        (s.modChim (fun c => { c with fuses := setArb (oByte r 0 + 1) (oByte r 1) c.fuses })), admOk) := by
  have hgo : ¬(3 < oByte r 0 + 1 ∨ oByte r 1 ≤ arbValue s.chim.fuses (oByte r 0 + 1) ∨ 128 < oByte r 1) := by omega
  have hrun : ¬((runningSvns s (oByte r 0 + 1)).isEmpty = true ∨
      (runningSvns s (oByte r 0 + 1)).any (fun x => decide (x < oByte r 1)) = true) := by
    simpa [hr] using hmin
  simp only [rollbackAdvance, if_neg hgo, if_neg hrun]

/-! ### Fatal dumps -/

/-- The handler of a hearth's fatal state runs, its dump not yet written. -/
structure WritesDump (s : State) (h : Nat) : Prop where
  fatal   : (s.H h).fatal.isSome = true
  handler : (s.H h).dump.handler = true
  up      : s.up h = true

/-- The handler has ended. -/
def handlerDone (h : Nat) (s : State) : State := s.modH h (fun x => { x with dump := { x.dump with handler := false } })

theorem WritesDump.goes {s : State} {h : Nat} (w : WritesDump s h) :
    ¬((s.H h).fatal.isNone = true ∨ (!(s.H h).dump.handler) = true ∨ (!s.up h) = true) := by
  simp only [Option.isNone_eq_false_iff.2 w.fatal, w.handler, w.up, Bool.not_true, Bool.false_eq_true, or_self, not_false_eq_true]

theorem dumpWritten_placed {s : State} {h b : Nat} {root : Bytes} (w : WritesDump s h) (hb : (s.H h).dump.base = some b)
    (hr : hearthRoot (s.H h) = some root) (hm : s.memReady h = true) :
    dumpWritten h s = if isolating s then raiseFlue evDumpFailed (pgF .flueEvents) { inst := h }
        ((handlerDone h s).modMem h (fun m => { m with ddr := memSet m.ddr (b + 7) 0 }))
      else raiseFlue evDumpReady (pgF .flueEvents) { inst := h }
        (regionWrite h b (dumpImage (handlerDone h s) h root) (derived h 1 (handlerDone h s))) := by
  have hm' : (handlerDone h s).memReady h = true := hm
  have hi : isolating (handlerDone h s) = isolating s := rfl
  simp only [handlerDone] at hm' hi
  simp only [dumpWritten, if_neg w.goes, hb, hr, hm', hi, Bool.not_true, Bool.false_eq_true, if_false, handlerDone]

theorem dumpWritten_noBase {s : State} {h : Nat} (w : WritesDump s h) (hb : (s.H h).dump.base = none) :
    dumpWritten h s = raiseFlue evDumpFailed (pgF .flueEvents) { inst := h } (handlerDone h s) := by
  simp only [dumpWritten, if_neg w.goes, hb] <;> rfl

/-- The tag that stands in the dump's header is that of its contents under the key. -/
def dumpAuthentic (k : Bytes) (h : Nat) (s : State) : Prop :=
  gcmTag k (slice (dumpBytes s h 0 64) 0x30 12) (dumpBytes s h 0 64) (dumpBytes s h 0x100 bodyLen) = dumpBytes s h 0x40 16

theorem dumpOpen_authentic {r : AdminReq} {s : State} {root : Bytes}
    (hc : openCheck s (pHearth r.desc) (dOutLen r.desc) = .ok root)
    (ht : dumpAuthentic (dumpKeyOf root (pHearth r.desc)) (pHearth r.desc) s) :
    dumpOpen r s = (derived (pHearth r.desc) 1 s, .done stOK [] (gcmCrypt (dumpKeyOf root (pHearth r.desc))
      (slice (dumpBytes s (pHearth r.desc) 0 64) 0x30 12) (dumpBytes s (pHearth r.desc) 0x100 bodyLen))) := by
  simp only [dumpOpen, hc]
  exact if_neg (not_not_intro ht)

theorem dumpOpen_forged {r : AdminReq} {s : State} {root : Bytes}
    (hc : openCheck s (pHearth r.desc) (dOutLen r.desc) = .ok root)
    (ht : ¬dumpAuthentic (dumpKeyOf root (pHearth r.desc)) (pHearth r.desc) s) :
    dumpOpen r s = (derived (pHearth r.desc) 1 s, admErr stTagMismatch) := by
  simp only [dumpOpen, hc]
  exact if_pos ht

theorem dumpAuthentic_adminFrom (k : Bytes) (h : Nat) (r : AdminReq) (s : State) :
    dumpAuthentic k h (adminFrom r s) = dumpAuthentic k h s := rfl

theorem dumpOpen_refused {r : AdminReq} {s : State} {st : Nat} (hc : openCheck s (pHearth r.desc) (dOutLen r.desc) = .error st) :
    dumpOpen r s = (s, admErr st) := by
  simp only [dumpOpen, hc]

theorem dumpClear_of {r : AdminReq} {s : State} {b : Nat} (he : s.enabled (oByte r 0) = true)
    (hh : (s.H (oByte r 0)).dump.handler = false) (hb : (s.H (oByte r 0)).dump.base = some b) :
    dumpClear r s = (s.modMem (oByte r 0) (fun m => { m with ddr := memSet m.ddr (b + 7) 0 }), admOk) := by
  simp only [dumpClear, he, hh, hb, Bool.not_true, Bool.false_eq_true, if_false]

/-! ### The tamper log -/

/-- The MAC of the log under the owner ember's key, or zeros where there is none (R592). -/
def logMac (key : Option Bytes) (body : Bytes) : Bytes := key.elim (zeros 16) (fun k => cmac .aes k body)

theorem tamperLogOut_of {r : AdminReq} {s : State} (hl : (tamperLogBody s).length + 16 ≤ dOutLen r.desc) :
    tamperLogOut r s = (s, .done stOK [] (tamperLogBody s ++ logMac (vaultRecordKey s) (tamperLogBody s))) := by
  simp only [tamperLogOut, Nat.not_lt.2 hl, if_false]
  cases vaultRecordKey s <;> rfl

/-- Settles O38: each opcode's checks pass, and the branches of what it does follow the word, the root and the owner ember. -/
theorem lifecycleFusesAndDumps : Obligations.LifecycleFusesAndDumps := by
  unfold Obligations.LifecycleFusesAndDumps
  refine ⟨?whole, ?part, ?fuse, ?rollback, ?written, ?isolated, ?noBase, ?opens, ?notOpened, ?clear, ?log, ?unkeyed⟩
  case whole =>
    intro q rd r s a hl hq
    refine (execLifecycleAdvance_of none a hl).trans (congrArg Host.Outcome.next ?_)
    rw [if_neg (by simp)]
    cases hc : checkAdvance s r.inp with
    | none => rw [lifecycleAdvance_whole (s := adminFrom r s) ((checkAdvance_adminFrom ..).trans hc) hq] <;> rfl
    | some st => rw [lifecycleAdvance_refused (s := adminFrom r s) ((checkAdvance_adminFrom ..).trans hc)] <;> rfl
  case part =>
    intro q rd r s n a hl hq
    refine (execLifecycleAdvance_of (some n) a hl).trans (congrArg Host.Outcome.next ?_)
    cases hc : checkAdvance s r.inp with
    | none =>
      rw [lifecycleAdvance_part (s := adminFrom r s) n ((checkAdvance_adminFrom ..).trans hc) hq]
      have htag : (adminHold r r.held (partlyBlown (byteAt r.inp 5) n (adminFrom r s))).flue.nextTag = s.flue.nextTag + 1 :=
        congrArg (· + 1) a.key
      exact if_pos ⟨rfl, by rw [adminEnd, htag]; omega⟩
    | some st =>
      rw [lifecycleAdvance_refused (s := adminFrom r s) ((checkAdvance_adminFrom ..).trans hc)]
      exact if_neg (fun c => c.2 (adminDone_nextTag ..))
  case fuse =>
    rintro q rd r s v a hl hh rfl
    have hm : MayProgram (adminFrom r s) := ⟨hl, hh⟩
    refine ⟨fun h1 hv => ?_, fun h2 h0 hv => ?_⟩
    · exact adminRow_done a rfl ((fuseProgram_of hm (if_pos h1) (by decide) hv).trans (by simp only [h1, withFuses, if_true] <;> rfl))
    · exact adminRow_done a rfl ((fuseProgram_of hm ((if_neg (by omega)).trans (if_pos h2)) h0 hv).trans
        (by simp only [h2, withFuses, show ¬(2 : Nat) = 1 by decide, if_false] <;> rfl))
  case rollback =>
    rintro q rd r s k v a rfl rfl hk hv h128 hr hmin
    exact adminRow_done a rfl (rollbackAdvance_of (s := adminFrom r s) hk hv h128 hr hmin)
  case written =>
    rintro h s b root hf hh hu hb hr hm hi
    exact congrArg Host.Outcome.next ((dumpWritten_placed ⟨hf, hh, hu⟩ hb hr hm).trans (if_neg (by simp [hi])))
  case isolated =>
    rintro h s b root hf hh hu hb hr hm hi
    exact congrArg Host.Outcome.next ((dumpWritten_placed ⟨hf, hh, hu⟩ hb hr hm).trans (if_pos hi))
  case noBase =>
    exact fun h s hf hh hu hb => congrArg Host.Outcome.next (dumpWritten_noBase ⟨hf, hh, hu⟩ hb)
  case opens =>
    rintro q rd r s h root k a hl rfl hc rfl
    have hc' := (openCheck_adminFrom r s (pHearth r.desc) (dOutLen r.desc)).trans hc
    split
    · rename_i ht
      exact adminRow_done a (ownLen_none s hl) (dumpOpen_authentic hc' ((dumpAuthentic_adminFrom ..).mpr ht))
    · rename_i ht
      exact adminRow_done a (ownLen_none s hl) (dumpOpen_forged hc' (fun c => ht ((dumpAuthentic_adminFrom ..).mp c)))
  case notOpened =>
    rintro q rd r s h st a hl rfl hc
    exact adminRow_done a (ownLen_none s hl) (dumpOpen_refused ((openCheck_adminFrom ..).trans hc))
  case clear =>
    rintro q rd r s h b a rfl he hh hb
    exact adminRow_done a rfl (dumpClear_of (s := adminFrom r s) he hh hb)
  case log =>
    intro q rd r s k a hl ho hk
    have hlog := tamperLogOut_of (s := adminFrom r s) ho
    rw [tamperLogBody_adminFrom, vaultRecordKey_adminFrom, hk] at hlog
    exact adminRow_done a (ownLen_none s hl) hlog
  case unkeyed =>
    intro q rd r s a hl ho hk
    have hlog := tamperLogOut_of (s := adminFrom r s) ho
    rw [tamperLogBody_adminFrom, vaultRecordKey_adminFrom, hk] at hlog
    exact adminRow_done a (ownLen_none s hl) hlog

end Sys2Proof.Machine
end

section
/-! Function-level resets, the events of the link, and PF0's power state. -/

namespace Sys2Proof.Machine

/-! ### The start and the end of a function-level reset -/

theorem ftPage_ne_flueBoot (v : Nat) : ftPage v ≠ pgF .flueBoot := by
  intro e
  exact absurd (congrArg Page.kind e) (by simp [ftPage, pgF])

@[simp] theorem State.up_setFt (s : State) (v : Nat) (f : Nat → Fld) (x h : Nat) : (s.setFt v f x).up h = s.up h := by
  have hs : (s.setFt v f x).hState h = s.hState h := by
    have hr := s.rd_wr_page _ _ (f (v % 128)) (Reg.HEARTH_STATE_STATE h) x (ftPage_ne_flueBoot v).symm
    exact congrArg (fun n => if s.enabled h then n else 0) hr
  rw [State.up, State.up, hs, State.setFt_H]

/-- The fields of the function table that the start of a reset sets where no job is aborted. -/
def resetFields : List ((Nat → Fld) × Nat) := [(Reg.FT_DAMPER, dampResetting), (Reg.FT_TDI_LOCKED, 0), (Reg.FT_RESET_ABORTED, 0)]

theorem resetFields_inEntry : ∀ e ∈ resetFields, InEntry e.1 := by
  simp +arith [resetFields, InEntry, ftBit, Reg.FT_DAMPER, Reg.FT_TDI_LOCKED, Reg.FT_RESET_ABORTED]

theorem resetFields_apart : (resetFields.map (fun e => ftBit e.1)).Nodup := by decide

theorem resetFields_fit : ∀ e ∈ resetFields, ∀ i, e.2 < 2 ^ (e.1 i).w := by
  simp [resetFields, dampResetting, Reg.FT_DAMPER, Reg.FT_TDI_LOCKED, Reg.FT_RESET_ABORTED]

/-- The part after the first writes of a VF's reset. -/
def resetBegun (v : Nat) (s : State) : State :=
  ((s.setDamper v dampResetting).modVf v (fun x => { x with tdi := .unlocked, tdiNonce := [], aborting := true })).setFt v
    Reg.FT_TDI_LOCKED 0

/-- The part after the start of a VF's reset, where the VF has no job and no group. -/
def resetStarted (v : Nat) (s : State) : State := (resetBegun v s).setFt v Reg.FT_RESET_ABORTED 0

theorem resetBegun_H (v : Nat) (s : State) (h : Nat) : (resetBegun v s).H h = s.H h := rfl

theorem resetStarted_ft (v w : Nat) (f : Nat → Fld) (s : State) :
    (resetStarted v s).ft w f = (State.setFields v resetFields s).ft w f := rfl

theorem resetStarted_up (v : Nat) (s : State) (h : Nat) : (resetStarted v s).up h = s.up h :=
  calc (resetStarted v s).up h
      = (resetBegun v s).up h := State.up_setFt ..
    _ = ((s.setDamper v dampResetting).modVf v (fun x => { x with tdi := .unlocked, tdiNonce := [], aborting := true })).up h :=
        State.up_setFt ..
    _ = (s.setDamper v dampResetting).up h := rfl
    _ = s.up h := State.up_setFt ..

theorem groupsOf_congr {s t : State} {h : Nat} (e : t.H h = s.H h) (vf : Option Nat) : groupsOf t h vf = groupsOf s h vf := by
  rw [groupsOf, groupsOf, e]

theorem flrStart_eq (v : Nat) (s : State) : flrStart v s =
    (let h := s.ft v Reg.FT_HEARTH
     let s := (groupsOf (resetBegun v s) h (some v)).foldl (fun s g => startRollback h g s) (resetBegun v s)
     let mine := (s.H h).jobs.filter (fun p => p.2.vf == v && !staysHeld s h p.2)
     let s := s.setFt v Reg.FT_RESET_ABORTED mine.length
     let s := (mine.filter (fun p => !runsOn p.2)).foldl (fun s p => abortJob h p.1 s) s
     if s.up h then
       raiseH h evVfResetAbort (pgH .stoker h) { vf := v, owner := s.ft v Reg.FT_OWNER_ID, payload := toLe 2 mine.length } s
     else s) := rfl

theorem flrStart_idle {v : Nat} {s : State} (hg : groupsOf s (s.ft v Reg.FT_HEARTH) (some v) = [])
    (hj : ∀ p ∈ (s.H (s.ft v Reg.FT_HEARTH)).jobs, p.2.vf ≠ v) (hu : s.up (s.ft v Reg.FT_HEARTH) = false) :
    flrStart v s = resetStarted v s := by
  have hnone : (s.H (s.ft v Reg.FT_HEARTH)).jobs.filter
      (fun p => p.2.vf == v && !staysHeld (resetBegun v s) (s.ft v Reg.FT_HEARTH) p.2) = [] := by
    rw [List.filter_eq_nil_iff]
    intro p hp
    simp [hj p hp]
  have hdown := (resetStarted_up v s (s.ft v Reg.FT_HEARTH)).trans hu
  have hgroups := (groupsOf_congr (resetBegun_H v s (s.ft v Reg.FT_HEARTH)) (some v)).trans hg
  rw [flrStart_eq]
  simp only [resetStarted] at hdown ⊢
  simp only [hgroups, List.foldl_nil, resetBegun_H, hnone, List.filter_nil, List.length_nil, hdown, Bool.false_eq_true, if_false]

theorem vfReset_bound {v : Nat} {s : State} (hb : s.bound v = true) (hd : s.damper v ≠ dampResetting) :
    vfReset v s = flrStart v s := by
  simp only [vfReset, hd, hb, if_false, if_true]

theorem flrDone_of {v : Nat} {s : State} (hd : s.damper v = dampResetting)
    (hm : ∀ p ∈ (s.H (s.ft v Reg.FT_HEARTH)).jobs.filter (fun p => p.2.vf == v),
      p.2.state ≠ .held ∧ (p.2.state = .running → ∀ u ∈ p.2.units, isBurner u = false)) :
    flrDone v s = enterDrained v (wipeQueues v
      ((((s.H (s.ft v Reg.FT_HEARTH)).jobs.filter (fun p => p.2.vf == v)).foldl
        (fun t p => abortJob (s.ft v Reg.FT_HEARTH) p.1 t) s).modVf v (fun x => { x with aborting := false }))) := by
  have hend : ((s.H (s.ft v Reg.FT_HEARTH)).jobs.filter (fun p => p.2.vf == v)).any
      (fun p => p.2.state == .held || (p.2.state == .running && p.2.units.any isBurner)) = false := by
    rw [List.any_eq_false]
    intro p hp
    simpa using hm p hp
  simp only [flrDone, hd, hend, ne_eq, not_true_eq_false, Bool.false_eq_true, or_self, if_false]

/-! ### Resets of all functions -/

theorem resetPages_foldl_flue (p : Nat → Page) (l : List Nat) (s : State) :
    (l.foldl (fun a i => a.resetPage (p i)) s).flue = s.flue := by
  induction l generalizing s with
  | nil => rfl
  | cons i l ih => exact ih _

theorem resetFunction_flue (fn : Func) (s : State) : (resetFunction fn s).flue = s.flue := by
  simp only [resetFunction, State.resetPage_flue]
  split
  · exact resetPages_foldl_flue ..
  · rfl

theorem linkReset_flue (s : State) : (linkReset s).flue = { (allVfsReset s).flue with d3hot := false, ide := [] } := by
  rw [linkReset, State.flue_modFlue, resetFunction_flue]

/-! ### The link -/

/-- The fields of LINK_STATUS after a training. -/
def trainedFields (rate width flit bad : Nat) : List (Fld × Nat) :=
  [(Reg.LINK_STATUS_RATE, rate), (Reg.LINK_STATUS_WIDTH, width), (Reg.LINK_STATUS_FLIT, flit), (Reg.LINK_STATUS_UNSUPPORTED, bad),
   (Reg.LINK_STATUS_UP, 1), (Reg.LINK_STATUS_ASPM, 0)]

/-- The part after a training, before its event. -/
def linkTrained (rate width flit bad : Nat) (s : State) : State :=
  (State.wrs linkPage (trainedFields rate width flit bad) s).modFlue (fun x => { x with vfEnable := true })

theorem doTrained_of {rate width : Nat} {flit : Bool} {s : State} {bad : Bool} (hl : flueListens s = true) (hp : s.chim.perst = false)
    (hb : (rate == 3 || decide (2 ≤ width) || (rate == 2 && !flit)) = bad) :
    doTrained rate width flit s = if bad then raiseFlue evLinkDegraded linkPage {} (linkTrained rate width (b2n flit) (b2n bad) s)
      else linkTrained rate width (b2n flit) (b2n bad) s := by
  subst hb
  simp only [doTrained, hl, hp, Bool.not_true, Bool.false_eq_true, or_self, if_false] <;> rfl

theorem linkTrained_rd {rate width flit : Nat} {s : State} (hs : s.regs.Rising) (hr : rate < 4) (hw : width < 4) (hf : flit < 2) :
    (linkTrained rate width flit 0 s).rd linkPage Reg.LINK_STATUS_RATE = rate ∧
    (linkTrained rate width flit 0 s).rd linkPage Reg.LINK_STATUS_WIDTH = width ∧
    (linkTrained rate width flit 0 s).rd linkPage Reg.LINK_STATUS_FLIT = flit ∧
    (linkTrained rate width flit 0 s).rd linkPage Reg.LINK_STATUS_UNSUPPORTED = 0 ∧
    (linkTrained rate width flit 0 s).rd linkPage Reg.LINK_STATUS_UP = 1 ∧
    (linkTrained rate width flit 0 s).rd linkPage Reg.LINK_STATUS_ASPM = 0 := by
  have h := State.rd_wrs linkPage (trainedFields rate width flit 0) s hs
    (by simp [trainedFields, Fld.place, Reg.LINK_STATUS_RATE, Reg.LINK_STATUS_WIDTH, Reg.LINK_STATUS_FLIT,
      Reg.LINK_STATUS_UNSUPPORTED, Reg.LINK_STATUS_UP, Reg.LINK_STATUS_ASPM])
  simp only [trainedFields, List.forall_mem_cons] at h
  obtain ⟨h1, h2, h3, h4, h5, h6, -⟩ := h
  exact ⟨h1.trans (Nat.mod_eq_of_lt hr), h2.trans (Nat.mod_eq_of_lt hw), h3.trans (Nat.mod_eq_of_lt hf), h4, h5, h6⟩

theorem linkTrained_rest (rate width flit bad : Nat) (s : State) : (linkTrained rate width flit bad s).flue.vfEnable = true ∧
    (linkTrained rate width flit bad s).hearths = s.hearths ∧ (linkTrained rate width flit bad s).chim = s.chim ∧
    (linkTrained rate width flit bad s).out = s.out := by
  rw [linkTrained, State.wrs_rest]
  exact ⟨rfl, rfl, rfl, rfl⟩

theorem b2n_lt (b : Bool) : b2n b < 2 := by cases b <;> decide

/-- Settles O39: a reset with nothing to abort sets three fields of the VF's entry; a training writes six of LINK_STATUS. -/
theorem linkAndFunctionResets : Obligations.LinkAndFunctionResets := by
  unfold Obligations.LinkAndFunctionResets
  refine ⟨?flr, ?idle, ?again, ?done, ?all, ?trained, ?degraded, ?down, ?perst, fun s => rfl, ?power, ?l1, ?l0⟩
  case flr =>
    exact fun v s hv hb hd => congrArg Host.Outcome.next ((if_pos hv).trans (vfReset_bound hb hd))
  case idle =>
    intro v s hv hb hd hg hj hu hs
    have hrise := (Tab.sorted_iff _).1 hs
    have hft := State.ft_setFields v.isLt resetFields s hrise resetFields_inEntry resetFields_apart resetFields_fit
    simp only [resetFields, List.forall_mem_cons] at hft
    obtain ⟨hDamper, hLocked, hAborted, -⟩ := hft
    have hBound : (resetStarted v s).ft v Reg.FT_BOUND = s.ft v Reg.FT_BOUND :=
      State.ft_setFields_ne (bindFields_inEntry 0 0 0 0 _ (.tail _ (.head _))) v.isLt v.isLt resetFields s resetFields_inEntry
        (.inr (by decide))
    refine ⟨resetStarted v s, congrArg Host.Outcome.next ((if_pos hv).trans ((vfReset_bound hb hd).trans (flrStart_idle hg hj hu))),
      hDamper, hLocked, hAborted, ?_, ?_, rfl, rfl, rfl⟩
    · simp [resetStarted, resetBegun, State.vf, State.modVf]
    · rw [State.bound, hBound]; exact hb
  case again =>
    exact fun v s hv hd => congrArg Host.Outcome.next ((if_pos hv).trans (if_pos hd))
  case done =>
    rintro v s mine hd rfl hm
    exact congrArg Host.Outcome.next (flrDone_of hd hm)
  case all =>
    intro s hl
    exact ⟨congrArg Host.Outcome.next (if_pos hl), congrArg Host.Outcome.next (if_pos hl), congrArg Host.Outcome.next (if_pos hl),
      rfl, by rw [linkReset_flue] <;> rfl, by rw [linkReset_flue], by rw [linkReset_flue]⟩
  case trained =>
    intro rate width flit s hs hl hp hr hw hf
    have hb : (rate.val == 3 || decide (2 ≤ width.val) || (rate.val == 2 && !flit)) = false := by
      simpa [hr, Nat.not_le.2 hw] using hf
    obtain ⟨h1, h2, h3, h4, h5, h6⟩ := linkTrained_rd ((Tab.sorted_iff _).1 hs) rate.isLt width.isLt (b2n_lt flit)
    exact ⟨_, congrArg Host.Outcome.next ((doTrained_of hl hp hb).trans (if_neg Bool.false_ne_true)), h1, h2, h3, h5, h4, h6,
      linkTrained_rest ..⟩
  case degraded =>
    intro rate width flit s hl hp hbad
    have hb : (rate.val == 3 || decide (2 ≤ width.val) || (rate.val == 2 && !flit)) = true := by
      simpa [or_assoc] using hbad
    exact congrArg Host.Outcome.next ((doTrained_of hl hp hb).trans (if_pos rfl))
  case down =>
    exact fun s hl => congrArg Host.Outcome.next (if_pos hl)
  case perst =>
    intro s hl hp
    refine congrArg Host.Outcome.next ((if_neg (by simp [hp])).trans ?_)
    rw [if_pos hl] <;> rfl
  case power =>
    exact fun b s hl => congrArg Host.Outcome.next (if_pos hl)
  case l1 =>
    intro k s hs hu
    refine ⟨_, congrArg Host.Outcome.next (if_pos hu), ?_, rfl⟩
    rw [State.rd_wr _ _ _ _ ((Tab.sorted_iff _).1 hs)]
    exact Nat.mod_eq_of_lt (show 1 + k.val < 4 by omega)
  case l0 =>
    intro s hs
    refine ⟨_, rfl, ?_, rfl⟩
    rw [State.rd_wr _ _ _ _ ((Tab.sorted_iff _).1 hs)]
    rfl

end Sys2Proof.Machine
end

section
/-! The boot ROM of the flue, the check of its image and its restart. -/

namespace Sys2Proof.Machine

theorem doBootGo_loads {b : Bytes} {s : State} (hl : flueListens s = true) (hst : s.bootState = stRomWait ∨ s.bootState = stRejected) :
    doBootGo .pf0 (.ok b) s = (s.wr bootPage Reg.BOOT_STATUS_STATE stLoading).modFlue (fun x =>
      { x with bootImage := slice b 0 ((s.wr bootPage Reg.BOOT_STATUS_STATE stLoading).rd bootPage Reg.BOOT_LEN_LEN), bootErr := false }) := by
  have hgo : ¬(s.bootState ≠ stRomWait ∧ s.bootState ≠ stRejected) := fun e => hst.elim e.1 e.2
  simp only [doBootGo, hl, Bool.not_true, Bool.false_eq_true, if_false, ne_eq, not_true_eq_false, hgo]

theorem doBootGo_busy {i : Dma} {s : State} (hl : flueListens s = true) (h0 : s.bootState ≠ stRomWait) (h3 : s.bootState ≠ stRejected) :
    doBootGo .pf0 i s = refuse bootPage .pf0 0x04C 1 cState s := by
  simp only [doBootGo, hl, Bool.not_true, Bool.false_eq_true, if_false, ne_eq, not_true_eq_false, h0, h3, not_false_eq_true, and_self,
    if_true]

theorem doBootGo_stranger {who : Requester} {i : Dma} {s : State} (hl : flueListens s = true) (hu : s.flueUp = true) (hw : who ≠ .pf0) :
    doBootGo who i s = refuse bootPage who 0x04C 1 cRequester s := by
  simp only [doBootGo, hl, hu, hw, Bool.not_true, Bool.false_eq_true, if_false, ne_eq, not_false_eq_true, if_true]

theorem doBootRestart_stranger {who : Requester} {f : Bool} {s : State} (hl : flueListens s = true) (hu : s.flueUp = true)
    (hw : who ≠ .pf0) : doBootRestart who f s = refuse bootPage who 0x04C 2 cRequester s := by
  simp only [doBootRestart, hl, hu, hw, Bool.not_true, Bool.false_eq_true, if_false, ne_eq, not_false_eq_true, if_true]

theorem doBootRestart_pf0 {f : Bool} {s : State} (hl : flueListens s = true) (hu : s.flueUp = true) :
    doBootRestart .pf0 f s = if f then refuse bootPage .pf0 0x04C 2 cState s else flueRestart s := by
  simp only [doBootRestart, hl, hu, Bool.not_true, Bool.false_eq_true, if_false, ne_eq, not_true_eq_false, false_or]

/-- The image checked, by the status of the check that failed. -/
theorem doFlueCheck_of {s : State} {c : Option Nat} (hl : flueListens s = true) (hst : s.bootState = stLoading)
    (hc : (if s.flue.bootErr then some stHostDma else checkImage s kindFlue 0 s.flue.bootImage) = c) :
    doFlueCheck s = c.elim
      (recoverGangs (countCycle (imageEvent true 0xFF
        ((((s.wr bootPage Reg.BOOT_STATUS_STATE flueRunning).wr bootPage Reg.BOOT_STATUS_CODE stOK).wr bootPage Reg.BOOT_SVN_FLUE
          (byteAt s.flue.bootImage 6)).modFlue (fun x => { x with imageMeas := s.flue.bootImage, bootImage := [] })))))
      (fun st => imageEvent false 0xFF ((s.wr bootPage Reg.BOOT_STATUS_STATE stRejected).wr bootPage Reg.BOOT_STATUS_CODE st)) := by
  have hgo : ¬((!flueListens s) = true ∨ s.bootState ≠ stLoading) := by simp [hl, hst]
  simp only [doFlueCheck, if_neg hgo, hc]
  cases c <;> rfl

/-- Settles O40: who asks, and in which state of the boot, decides what GO, RESTART and the check's end do. -/
theorem flueBootAndRestart : Obligations.FlueBootAndRestart := by
  unfold Obligations.FlueBootAndRestart
  refine ⟨?go, ?busy, ?checked, ?failed, ?restart, ?stranger⟩
  case go => exact fun b s hl hst => congrArg Host.Outcome.next (doBootGo_loads hl hst)
  case busy => exact fun i s hl h0 h3 => congrArg Host.Outcome.next (doBootGo_busy hl h0 h3)
  case checked =>
    intro s hl hst he
    have hc : (if s.flue.bootErr then some stHostDma else checkImage s kindFlue 0 s.flue.bootImage)
        = checkImage s kindFlue 0 s.flue.bootImage := if_neg (by rw [he]; exact Bool.false_ne_true)
    exact congrArg Host.Outcome.next (doFlueCheck_of hl hst hc)
  case failed =>
    intro s hl hst he
    have hc : (if s.flue.bootErr then some stHostDma else checkImage s kindFlue 0 s.flue.bootImage) = some stHostDma := if_pos he
    exact congrArg Host.Outcome.next (doFlueCheck_of hl hst hc)
  case restart =>
    intro s hl hu
    exact ⟨congrArg Host.Outcome.next ((doBootRestart_pf0 hl hu).trans (if_neg Bool.false_ne_true)),
      congrArg Host.Outcome.next (if_pos ⟨hu, hl⟩), congrArg Host.Outcome.next ((doBootRestart_pf0 hl hu).trans (if_pos rfl))⟩
  case stranger =>
    exact fun who i f s hl hu hw => ⟨congrArg Host.Outcome.next (doBootGo_stranger hl hu hw),
      congrArg Host.Outcome.next (doBootRestart_stranger hl hu hw)⟩

end Sys2Proof.Machine
end

section
/-! The SPDM responder: sessions, the messages that leave in them, and IDE and TDISP over them. -/

namespace Sys2Proof.Machine

/-! ### Sessions under updates -/

theorem State.session?_congr {s t : State} (e : t.flue = s.flue) (i : Nat) : t.session? i = s.session? i := by
  rw [State.session?, State.session?, e]

theorem State.session?_modSession {s : State} {i : Nat} {x : Session} (f : Session → Session) (h : s.session? i = some x) :
    (s.modSession i f).session? i = some (f x) := by
  have hx : s.flue.spdm.sessions.getD i {} = x := by
    rw [State.session?] at h
    rw [Tab.getD, h, Option.getD_some]
  exact (Tab.find?_put _ _ _).trans (congrArg (fun y => some (f y)) hx)

theorem State.session?_modSession_ne (s : State) {i k : Nat} (f : Session → Session) (h : k ≠ i) :
    (s.modSession i f).session? k = s.session? k := Tab.find?_put_ne _ _ _ _ h

theorem sendIn_of {s : State} {i : Nat} {x : Session} (code : Nat) (m : Bytes) (h : s.session? i = some x) :
    sendIn i code m s =
      (s.emit (.message (some i) code (sealRecord s i x m))).modSession i (fun x => { x with seqTx := x.seqTx + 1 }) := by
  simp only [sendIn, h]

theorem respond_in {s : State} {i : Nat} {x : Session} (m : Bytes) (h : s.session? i = some x) :
    (respond (some i) m s).out = s.out ++ [.message (some i) (byteAt m 1) (sealRecord s i x m)] ∧
    (respond (some i) m s).session? i = some { x with seqTx := x.seqTx + 1 } := by
  rw [respond, sendIn_of _ _ h]
  exact ⟨rfl, State.session?_modSession _ h⟩

theorem respond_session?_ne {s : State} {i k : Nat} {x : Session} (m : Bytes) (h : s.session? i = some x) (hk : k ≠ i) :
    (respond (some i) m s).session? k = s.session? k := by
  rw [respond, sendIn_of _ _ h]
  exact State.session?_modSession_ne _ _ hk

/-! ### Requests in a session's application phase -/

theorem inSession_of {s : State} {i : Nat} {x : Session} (h : s.session? i = some x) (hp : x.phase = 1) :
    inSession (some i) s = .ok () := by
  simp only [inSession, h, hp, if_true]

theorem securedRequest_of {s : State} {i : Nat} {x : Session} (f : State → State) (hu : s.flueUp = true)
    (h : s.session? i = some x) (hp : x.phase = 1) : securedRequest i f s = f s := by
  simp only [securedRequest, hu, inSession_of h hp, Bool.not_true, Bool.false_eq_true, if_false]

theorem tdispRequest_of {s : State} {i v : Nat} {x : Session} (f : State → State) (hu : s.flueUp = true)
    (h : s.session? i = some x) (hp : x.phase = 1) (hv : s.vfExists v = true) : tdispRequest i v f s = f s :=
  (securedRequest_of _ hu h hp).trans (if_neg (by simp [hv]))

/-! ### IDE -/

theorem keyProg_of {rid : Nat} {m : Bytes} {s : State} (hm : m.length = 47) (hk : keyStatus s rid m = 0) :
    ∃ x, (keyProg rid m s).1 = s.modFlue (fun f => { f with ide := f.ide.put (byteAt m 3) x }) ∧
      x.keys.find? (keyIndex (byteAt m 5)) = some (m.drop 7) := by
  simp only [keyProg, hm, hk, ne_eq, not_true_eq_false, if_false]
  exact ⟨_, rfl, Tab.find?_put _ _ _⟩

theorem streamInsecure_of {n : Nat} {s : State} {x : IdeStream} (h : s.flue.ide.find? n = some x) :
    streamInsecure n s = if (!x.secure) = true ∨ n = 0 then s.modFlue (fun f => { f with ide := f.ide.put n { rid := x.rid } })
      else (streamVf x).elim (s.modFlue (fun f => { f with ide := f.ide.put n { rid := x.rid } }))
        (fun v => tdiError v (s.modFlue (fun f => { f with ide := f.ide.put n { rid := x.rid } }))) := by
  simp only [streamInsecure, h]
  cases streamVf x <;> rfl

/-! ### TDISP -/

theorem lockInterface_badState {i v : Nat} {m : Bytes} {s : State} (hm : m.length = 20)
    (h : (s.vf v).tdi ≠ .unlocked ∨ (s.bound v = true ∧ s.damper v = dampResetting)) :
    lockInterface i v m s = tdispError i v .badState s := by
  simp only [lockInterface, hm, ne_eq, not_true_eq_false, if_false]
  exact if_pos h

theorem lockInterface_unlocked {i v : Nat} {m : Bytes} {s : State} (hm : m.length = 20) (ht : (s.vf v).tdi = .unlocked)
    (hb : ¬(s.bound v = true ∧ s.damper v = dampResetting)) :
    lockInterface i v m s = if (!s.bound v) = true ∨ (!onSecureStream s v) = true then tdispError i v .badDevice s
      else tdispSend i v 0x03 (s.free 32).1
        ((setTdi v .locked (s.free 32).1 (s.free 32).2).modVf v (fun y => { y with tdiOffset := fieldLe m 4 8 })) := by
  simp only [lockInterface, hm, ht, ne_eq, not_true_eq_false, if_false, false_or]
  exact if_neg hb

theorem sendReport_of {i v off len : Nat} {s : State} (ht : (s.vf v).tdi = .locked ∨ (s.vf v).tdi = .run)
    (ho : off < (interfaceReport s v).length) :
    sendReport i v off len s = tdispSend i v 0x04
      (toLe 2 (min len ((interfaceReport s v).length - off)) ++
        toLe 2 ((interfaceReport s v).length - off - min len ((interfaceReport s v).length - off)) ++
        slice (interfaceReport s v) off (min len ((interfaceReport s v).length - off))) s := by
  have hgo : ¬((s.vf v).tdi ≠ .locked ∧ (s.vf v).tdi ≠ .run) := fun e => ht.elim e.1 e.2
  simp only [sendReport, if_neg hgo, Nat.not_le.2 ho, if_false]

theorem setTdi_locked {v : Nat} {t : TdiState} (nonce : Bytes) {s : State} (hs : s.regs.Rising) :
    (setTdi v t nonce s).ft v Reg.FT_TDI_LOCKED = 1 ↔ t = .locked ∨ t = .run := by
  rw [setTdi, State.ft_setFt]
  · cases t <;> simp [b2n, Reg.FT_TDI_LOCKED]
  · exact hs

/-- Settles O41: a request in a session's application phase reaches its body, and the body's branches follow the TDI's state. -/
theorem ideAndTdisp : Obligations.IdeAndTdisp := by
  unfold Obligations.IdeAndTdisp
  refine ⟨?km, fun i m s x h => respond_in m h, ?prog, ?insecure, ?plain, ?tdisp, ?tdi⟩
  case km =>
    intro i rid m s x hu h hp
    have hbody := securedRequest_of (doIdeKm i.val rid.val m) hu h hp
    refine ⟨fun h0 => ?_, fun h2 => ?_, fun h45 hk => ?_⟩
    · exact congrArg Host.Outcome.next (hbody.trans (if_pos h0))
    · exact congrArg Host.Outcome.next (hbody.trans ((if_neg (by omega)).trans (if_pos h2)))
    · refine congrArg Host.Outcome.next (hbody.trans ((if_neg (by omega)).trans ((if_neg (by omega)).trans ((if_pos h45).trans ?_))))
      rw [if_pos hk]
  case prog =>
    intro rid m s hm hk
    obtain ⟨x, hx, hkey⟩ := keyProg_of hm hk
    rw [hx]
    refine ⟨?_, fun k hne => Tab.find?_put_ne _ _ _ _ hne, rfl, rfl, rfl⟩
    rw [State.flue_modFlue, Tab.find?_put, Option.map_some, hkey]
  case insecure =>
    intro n s x hu h hsec hn
    exact congrArg Host.Outcome.next ((if_pos hu).trans ((streamInsecure_of h).trans (if_neg (by simp [hsec, hn]))))
  case plain =>
    intro n s x hu h hsec
    exact congrArg Host.Outcome.next ((if_pos hu).trans ((streamInsecure_of h).trans (if_pos (by simpa using hsec))))
  case tdisp =>
    intro i v s x hu h hp hv
    have body (f : State → State) : tdispRequest i.val v.val f s = f s := tdispRequest_of f hu h hp hv
    refine ⟨congrArg Host.Outcome.next (body _), congrArg Host.Outcome.next (body _), congrArg Host.Outcome.next (body _),
      congrArg Host.Outcome.next (body _), ?lock, ?resetting, ?badDevice, ?notUnlocked, ?start, ?notLocked, ?report⟩
    case lock =>
      intro m hm ht hb hd hs
      exact congrArg Host.Outcome.next ((body _).trans ((lockInterface_unlocked hm ht (fun c => hd c.2)).trans
        (if_neg (by simp [hb, hs]))))
    case resetting =>
      exact fun m hm ht hb hd => congrArg Host.Outcome.next ((body _).trans (lockInterface_badState hm (.inr ⟨hb, hd⟩)))
    case badDevice =>
      intro m hm ht hbad
      have hno : ¬(s.bound v = true ∧ s.damper v = dampResetting) := by
        rcases hbad with hb | ⟨hd, -⟩
        · simp [hb]
        · simp [hd]
      refine congrArg Host.Outcome.next ((body _).trans ((lockInterface_unlocked hm ht hno).trans (if_pos ?_)))
      rcases hbad with hb | ⟨-, hs⟩
      · simp [hb]
      · simp [hs]
    case notUnlocked =>
      exact fun m hm ht => congrArg Host.Outcome.next ((body _).trans (lockInterface_badState hm (.inl ht)))
    case start =>
      rintro nonce ht rfl
      exact congrArg Host.Outcome.next ((body _).trans ((if_neg (not_not_intro ht)).trans (if_neg (not_not_intro rfl))))
    case notLocked =>
      exact fun nonce ht => congrArg Host.Outcome.next ((body _).trans (if_pos ht))
    case report =>
      exact fun off len ht ho => congrArg Host.Outcome.next ((body _).trans (sendReport_of ht ho))
  case tdi =>
    intro v s t nonce hs
    exact ⟨setTdi_locked nonce ((Tab.sorted_iff _).1 hs), by simp [setTdi, State.vf, State.modVf]⟩

end Sys2Proof.Machine
end

section
/-! The SPDM requests. -/

namespace Sys2Proof.Machine

/-! ### Checks that pass -/

theorem spdmRequest_ok {session : Option Nat} {msg m : Bytes} {f : State → SpdmAns} {s t : State} (hu : s.flueUp = true)
    (h : f s = .ok (t, m)) : spdmRequest session msg f s = respond session m t := by
  simp only [spdmRequest, hu, h, Bool.not_true, Bool.false_eq_true, if_false]

theorem spdmRequest_error {session : Option Nat} {msg : Bytes} {f : State → SpdmAns} {s : State} {e : SpdmErr} (hu : s.flueUp = true)
    (h : f s = .error e) : spdmRequest session msg f s = respond session (spdmError e (byte (byteAt msg 1))) s := by
  simp only [spdmRequest, hu, h, Bool.not_true, Bool.false_eq_true, if_false]

theorem spdmGuard_ok {code len : Nat} {msg : Bytes} {ready : Bool} (h0 : byteAt msg 0 = 0x13) (h1 : byteAt msg 1 = code)
    (hl : len ≤ msg.length) (hr : ready = true) : spdmGuard code len msg ready = .ok () := by
  simp only [spdmGuard, h0, h1, hr, Nat.not_lt.2 hl, ne_eq, not_true_eq_false, or_self, if_false, Bool.not_true, Bool.false_eq_true]

theorem identityGuard_ok {s : State} {slot : Nat} (hl : lcState s ≠ lcDecommissioned) (hp : pairReady s slot = true) :
    identityGuard s slot = .ok () := by
  simp only [identityGuard, hl, hp, Bool.not_true, Bool.false_eq_true, if_false]

theorem identityGuard_notReady {s : State} {slot : Nat} (hl : lcState s ≠ lcDecommissioned) (hp : pairReady s slot = false) :
    identityGuard s slot = .error .notReady := by
  simp only [identityGuard, hl, hp, Bool.not_false, if_false, if_true]

theorem signSlot_le (s : State) : signSlot s ≤ 1 := by
  unfold signSlot
  cases s.flue.spdm.ecdsa <;> decide

/-- The kind of measurement summary that CHALLENGE and KEY_EXCHANGE may ask for. -/
theorem summaryKind {n : Nat} (h : n = 0 ∨ n = 1 ∨ n = 0xFF) : (n == 0 || n == 1 || n == 0xFF) = true := by
  rcases h with rfl | rfl | rfl <;> rfl

/-! ### Version, capabilities and algorithms -/

theorem doGetVersion_of {m : Bytes} {s : State} (h0 : byteAt m 0 = 0x10) (h1 : byteAt m 1 = 0x84) (hl : 4 ≤ m.length) :
    doGetVersion m s = .ok (s.modSpdm (fun x =>
      { p384Ready := x.p384Ready, rsaReady := x.rsaReady, versionDone := true, vca := m ++ [0x10, 0x04, 0, 0, 0, 1, 0, 0x13] }),
      [0x10, 0x04, 0, 0, 0, 1, 0, 0x13]) := by
  simp only [doGetVersion, h0, h1, Nat.not_lt.2 hl, ne_eq, not_true_eq_false, or_self, if_false]

theorem doGetCapabilities_of {m : Bytes} {s : State} (hg : spdmGuard 0xE1 20 m (s.flue.spdm.versionDone && !s.flue.spdm.capsDone) = .ok ()) :
    ∃ rsp, doGetCapabilities m s = .ok (s.modSpdm (fun x => { x with capsDone := true, vca := x.vca ++ m ++ rsp }), rsp) := by
  simp only [doGetCapabilities, hg, bind, Except.bind]
  exact ⟨_, rfl⟩

theorem doNegotiate_of {m : Bytes} {s : State} {rsa ec : Bool}
    (hg : spdmGuard 0xE3 32 m (s.flue.spdm.capsDone && !s.flue.spdm.algsDone) = .ok ())
    (hr : ((fieldLe m 8 4).testBit 5 && (fieldLe m 12 4).testBit 2) = rsa)
    (he : ((fieldLe m 8 4).testBit 7 && (fieldLe m 12 4).testBit 1) = ec) (hany : (!rsa && !ec) = false) :
    ∃ rsp, doNegotiate m s = .ok (s.modSpdm (fun x => { x with algsDone := true, ecdsa := !rsa, vca := x.vca ++ m ++ rsp }), rsp) := by
  simp only [doNegotiate, hg, bind, Except.bind, hr, he, hany, Bool.false_eq_true, if_false]
  exact ⟨_, rfl⟩

/-! ### Digests, certificates and the challenge -/

theorem doGetDigests_of {m : Bytes} {s : State} (hg : spdmGuard 0x81 4 m s.flue.spdm.algsDone = .ok ()) :
    doGetDigests none m s = .ok (s.modSpdm (fun x =>
        { x with msgB := x.msgB ++ (m ++ ([0x13, 0x01, 0x03, 0x03] ++ certDigest s 0 ++ certDigest s 1)) }),
      [0x13, 0x01, 0x03, 0x03] ++ certDigest s 0 ++ certDigest s 1) := by
  simp only [doGetDigests, hg, bind, Except.bind, inSession] <;> rfl

/-- The portion of a certificate chain from an offset, as GET_CERTIFICATE answers it. -/
def chainPortion (slot off n : Nat) : Bytes :=
  [0x13, 0x02, byte slot, 0] ++ toLe 2 n ++ toLe 2 ((Config.certChain slot).length - off - n) ++ slice (Config.certChain slot) off n

/-- A GET_CERTIFICATE that reaches the identity's checks. -/
structure CertAsked (m : Bytes) (s : State) : Prop where
  checked : spdmGuard 0x82 8 m s.flue.spdm.algsDone = .ok ()
  slot    : byteAt m 2 % 16 ≤ 1

theorem doGetCertificate_refused {m : Bytes} {s : State} {e : SpdmErr} (a : CertAsked m s)
    (hi : identityGuard s (byteAt m 2 % 16) = .error e) : doGetCertificate none m s = .error e := by
  simp only [doGetCertificate, a.checked, bind, Except.bind, inSession, Nat.not_lt.2 a.slot, if_false, hi]

theorem doGetCertificate_of {m : Bytes} {s : State} (a : CertAsked m s) (hi : identityGuard s (byteAt m 2 % 16) = .ok ())
    (h3 : byteAt m 3 % 2 = 0) :
    doGetCertificate none m s = if (Config.certChain (byteAt m 2 % 16)).length ≤ fieldLe m 4 2 then .error .invalidRequest
      else
        let rsp := chainPortion (byteAt m 2 % 16) (fieldLe m 4 2)
          (min (fieldLe m 6 2) ((Config.certChain (byteAt m 2 % 16)).length - fieldLe m 4 2))
        .ok (s.modSpdm (fun x => { x with msgB := x.msgB ++ (m ++ rsp) }), rsp) := by
  simp only [doGetCertificate, a.checked, bind, Except.bind, inSession, Nat.not_lt.2 a.slot, if_false, hi, h3]
  rfl

/-- A signature draws free bytes and changes nothing else. -/
theorem spdmSign_rest (context : String) (m : Bytes) (s : State) :
    (spdmSign context m s).2 = { s with freeCtr := (spdmSign context m s).2.freeCtr } := by
  unfold spdmSign
  dsimp only
  split <;> rfl

theorem doChallenge_of {m : Bytes} {s : State} (hg : spdmGuard 0x83 44 m s.flue.spdm.algsDone = .ok ())
    (hs : byteAt m 2 = signSlot s) (h3 : byteAt m 3 = 0 ∨ byteAt m 3 = 1 ∨ byteAt m 3 = 0xFF)
    (hi : identityGuard s (byteAt m 2) = .ok ()) :
    ∃ rsp, doChallenge m s =
      let x := spdmSign "responder-challenge_auth signing" (s.flue.spdm.vca ++ s.flue.spdm.msgB ++ m ++ rsp) (s.free 32).2
      .ok (x.2.modSpdm (fun y => { y with msgB := [] }), rsp ++ x.1) := by
  rw [hs] at hi
  have hgo : ¬(1 < signSlot s ∨ (!(byteAt m 3 == 0 || byteAt m 3 == 1 || byteAt m 3 == 0xFF)) = true) := by
    have hle := signSlot_le s
    simp only [summaryKind h3, Bool.not_true, Bool.false_eq_true, or_false]
    omega
  simp only [doChallenge, hg, bind, Except.bind, hs, if_neg hgo, hi, ne_eq, not_true_eq_false, if_false]
  exact ⟨_, rfl⟩

end Sys2Proof.Machine
end

section
/-! The SPDM requests for measurements, and those that open, use and end a session. -/

namespace Sys2Proof.Machine

/-! ### Measurements -/

theorem measIndexes_pos {s : State} {n : Nat} (h : n ∈ measIndexes s) : n ≠ 0 := by
  rintro rfl
  simp [measIndexes] at h

/-- An unsigned measurement of one index (R125). -/
theorem doGetMeasurements_of {m : Bytes} {s : State} (hg : spdmGuard 0xE0 12 m s.flue.spdm.algsDone = .ok ())
    (h2 : byteAt m 2 % 2 = 0) (hff : byteAt m 3 ≠ 0xFF) (hi : byteAt m 3 ∈ measIndexes s) :
    ∃ rest, doGetMeasurements none m s =
      let rsp := [0x13, 0x60, 0, 0, 1] ++ toLe 3 (measBlock s (byteAt m 3)).length ++ (measBlock s (byteAt m 3) ++ rest)
      .ok ((s.free 32).2.modSpdm (fun x => { x with msgL := x.msgL ++ m ++ rsp }), rsp) := by
  refine ⟨(s.free 32).1 ++ ([0, 0] ++ slice m 4 8), ?_⟩
  simp only [doGetMeasurements, h2, Nat.zero_ne_one, if_false, hg, bind, Except.bind, inSession, hi, not_true_eq_false, and_false,
    false_and, or_self, measIndexes_pos hi, hff, List.flatMap_cons, List.flatMap_nil, List.append_nil, List.append_assoc] <;> rfl

theorem slice_measBlock (s : State) (i : Nat) (rest : Bytes) :
    slice ([0x13, 0x60, 0, 0, 1] ++ toLe 3 (measBlock s i).length ++ (measBlock s i ++ rest)) 8 (measBlock s i).length
      = measBlock s i := slice_append_mid _ _ _ (by simp) rfl

/-! ### KEY_EXCHANGE -/

/-- A KEY_EXCHANGE whose checks pass up to the choice of a session. -/
structure KeyAsked (m : Bytes) (s : State) : Prop where
  checked : spdmGuard 0xE4 138 m s.flue.spdm.algsDone = .ok ()
  slot    : byteAt m 3 = signSlot s
  ready   : pairReady s (byteAt m 3) = true
  point   : p384.on (pointOf p384 (slice m 40 96)) = true
  summary : byteAt m 2 = 0 ∨ byteAt m 2 = 1 ∨ byteAt m 2 = 0xFF

theorem KeyAsked.goes {m : Bytes} {s : State} (a : KeyAsked m s) : ¬(1 < byteAt m 3) ∧
    ¬(byteAt m 3 ≠ signSlot s ∨ (!p384.on (pointOf p384 (slice m 40 96))) = true ∨
      (!(byteAt m 2 == 0 || byteAt m 2 == 1 || byteAt m 2 == 0xFF)) = true) := by
  have hle := signSlot_le s
  refine ⟨by rw [a.slot]; omega, ?_⟩
  simp only [a.slot, a.point, summaryKind a.summary, ne_eq, not_true_eq_false, Bool.not_true, Bool.false_eq_true, or_self,
    not_false_eq_true]

theorem doKeyExchange_full {m : Bytes} {s : State} (a : KeyAsked m s) (hf : s.flue.spdm.sessions.lowestFree 0 8 = none) :
    doKeyExchange m s = .error .sessionLimit := by
  obtain ⟨h1, hgo⟩ := a.goes
  simp only [doKeyExchange, a.checked, bind, Except.bind, if_neg h1, a.ready, Bool.not_true, Bool.false_eq_true, if_false, if_neg hgo,
    hf]

/-- The session that a KEY_EXCHANGE opens is put beside the others, in a state that differs in the count of free bytes alone. -/
theorem doKeyExchange_of {m : Bytes} {s : State} {i : Nat} (a : KeyAsked m s) (hf : s.flue.spdm.sessions.lowestFree 0 8 = some i) :
    ∃ (u : State) (x : Session) (rsp : Bytes), doKeyExchange m s = .ok (u.modSession i (fun _ => x), rsp) ∧
      u.flue = s.flue ∧ u.hearths = s.hearths ∧ u.chim = s.chim ∧ u.regs = s.regs ∧ x.phase = 0 := by
  obtain ⟨h1, hgo⟩ := a.goes
  simp only [doKeyExchange, a.checked, bind, Except.bind, if_neg h1, a.ready, Bool.not_true, Bool.false_eq_true, if_false, if_neg hgo,
    hf]
  refine ⟨_, _, _, rfl, ?_, ?_, ?_, ?_, rfl⟩ <;> rw [spdmSign_rest] <;> rfl

/-! ### FINISH -/

/-- The part after a FINISH whose MAC holds: the session's application phase under its new secrets. -/
theorem doFinish_of {i : Nat} {m : Bytes} {s : State} {x : Session} (hu : s.flueUp = true) (h : s.session? i = some x)
    (hg : spdmGuard 0xE5 (4 + spdmHashLen s) m (x.phase == 0) = .ok ()) :
    ∃ f : Session → Session, (∀ y, (f y).phase = 1 ∧ (f y).seqTx = 0 ∧
        (f y).secret = spdmMac s (spdmExpand s x.secret "derived" []) (zeros (spdmHashLen s))) ∧
      doFinish i m s =
        if slice m 4 (spdmHashLen s) ≠ spdmMac s (finishedKey s x.keysRx) (spdmHash s (x.trans ++ m.take 4)) then
          endSession i (respond (some i) (spdmError .decryptError 0xE5) s)
        else (respond (some i) [0x13, 0x65, 0, 0] s).modSession i f := by
  simp only [doFinish, hu, h, hg, Bool.not_true, Bool.false_eq_true, if_false]
  exact ⟨_, fun y => ⟨rfl, rfl, rfl⟩, rfl⟩

/-! ### Requests of an open session -/

theorem sessionRequest_ok {i code : Nat} {m rsp : Bytes} {f : State → SpdmAns} {s t : State} {x : Session} (hu : s.flueUp = true)
    (h : s.session? i = some x) (hp : x.phase = 1) (h0 : byteAt m 0 = 0x13) (h1 : byteAt m 1 = code) (hl : 4 ≤ m.length)
    (hf : f s = .ok (t, rsp)) : sessionRequest i code m f s = respond (some i) rsp t := by
  refine spdmRequest_ok hu ?_
  simp only [inSession_of h hp, spdmGuard_ok h0 h1 hl rfl, bind, Except.bind, hf]

theorem doEndSession_of {i : Nat} {m : Bytes} {s : State} {x : Session} (hu : s.flueUp = true) (h : s.session? i = some x)
    (hp : x.phase = 1) (h0 : byteAt m 0 = 0x13) (h1 : byteAt m 1 = 0xEC) (hl : 4 ≤ m.length) :
    doEndSession i m s = endSession i (respond (some i) [0x13, 0x6C, 0, 0] s) := by
  have hreq : sessionRequest i 0xEC m (fun s => .ok (s, [0x13, 0x6C, 0, 0])) s = respond (some i) [0x13, 0x6C, 0, 0] s :=
    sessionRequest_ok hu h hp h0 h1 hl rfl
  simp only [doEndSession, hreq, hu, inSession_of h hp, spdmGuard_ok h0 h1 hl rfl, Bool.not_true,
    Bool.false_eq_true, if_false]

/-- KEY_UPDATE begins where no update is under way. -/
theorem doKeyUpdate_begins {i : Nat} {m : Bytes} {s : State} {x : Session} (h : s.session? i = some x) (hr : x.pendRx = [])
    (ht : x.pendTx = []) :
    (byteAt m 2 = 1 → doKeyUpdate i m s = .ok (s.modSession i (fun y =>
      { y with keysRx := spdmExpand s y.keysRx "traffic upd" [], pendRx := y.keysRx }), [0x13, 0x69, 1, byte (byteAt m 3)])) ∧
    (byteAt m 2 = 2 → doKeyUpdate i m s = .ok (s.modSession i (fun y =>
      { y with
        keysRx := spdmExpand s y.keysRx "traffic upd" [], pendRx := y.keysRx
        keysTx := spdmExpand s y.keysTx "traffic upd" [], pendTx := y.keysTx, seqTx := 0 }), [0x13, 0x69, 2, byte (byteAt m 3)])) := by
  have hpend : (!x.pendRx.isEmpty || !x.pendTx.isEmpty) = false := by simp [hr, ht]
  constructor
  · intro h2
    simp only [doKeyUpdate, h, Option.getD_some, hpend, h2]
    exact if_pos (by decide)
  · intro h2
    simp only [doKeyUpdate, h, Option.getD_some, hpend, h2]
    exact (if_neg (by decide)).trans (if_pos (by decide))

/-- KEY_UPDATE ends an update under way. -/
theorem doKeyUpdate_ends {i : Nat} {m : Bytes} {s : State} {x : Session} (h : s.session? i = some x) (h2 : byteAt m 2 = 3)
    (hp : x.pendRx ≠ [] ∨ x.pendTx ≠ []) :
    doKeyUpdate i m s = .ok (s.modSession i (fun y => { y with pendRx := [], pendTx := [] }), [0x13, 0x69, 3, byte (byteAt m 3)]) := by
  have hpend : (!x.pendRx.isEmpty || !x.pendTx.isEmpty) = true := by simpa using hp
  simp only [doKeyUpdate, h, Option.getD_some, hpend, h2]
  exact (if_neg (by decide)).trans ((if_neg (by decide)).trans (if_pos (by decide)))

theorem modSpdm_restored {s : State} {x : Spdm} (f : Spdm → Spdm) (h : s.flue.spdm = x) :
    { s.modSpdm f with flue := { (s.modSpdm f).flue with spdm := x } } = s := by
  subst h
  rfl

/-- Settles O42: each request's checks pass, and its body answers. -/
theorem spdmMessages : Obligations.SpdmMessages := by
  unfold Obligations.SpdmMessages
  refine ⟨?version, ?capabilities, ?rsa, ?ecdsa, ?digests, ?certificate, ?notReady, ?challenge, ?measurements, ?keys, ?full, ?finish,
    ?session⟩
  case version =>
    exact fun m s hu h0 h1 hl => congrArg Host.Outcome.next (spdmRequest_ok hu (doGetVersion_of h0 h1 hl))
  case capabilities =>
    intro m s hu h0 h1 hl hv hc
    obtain ⟨rsp, h⟩ := doGetCapabilities_of (s := s) (spdmGuard_ok h0 h1 hl (by simp [hv, hc]))
    exact ⟨rsp, congrArg Host.Outcome.next (spdmRequest_ok hu h)⟩
  case rsa =>
    intro m s hu h0 h1 hl hc ha h5 h2
    obtain ⟨rsp, h⟩ := doNegotiate_of (s := s) (spdmGuard_ok h0 h1 hl (by simp [hc, ha])) (by rw [h5, h2]) rfl rfl
    exact ⟨rsp, congrArg Host.Outcome.next (spdmRequest_ok hu h)⟩
  case ecdsa =>
    intro m s hu h0 h1 hl hc ha h5 h7 h12
    obtain ⟨rsp, h⟩ := doNegotiate_of (s := s) (spdmGuard_ok h0 h1 hl (by simp [hc, ha])) (by rw [h5, Bool.false_and])
      (by rw [h7, h12, Bool.and_self]) rfl
    exact ⟨rsp, congrArg Host.Outcome.next (spdmRequest_ok hu h)⟩
  case digests =>
    exact fun m s hu h0 h1 hl ha => congrArg Host.Outcome.next (spdmRequest_ok hu (doGetDigests_of (spdmGuard_ok h0 h1 hl ha)))
  case certificate =>
    rintro m s slot n hu h0 h1 hl ha rfl hs hlc hp h3 rfl
    have hcert := doGetCertificate_of ⟨spdmGuard_ok h0 h1 hl ha, hs⟩ (identityGuard_ok hlc hp) h3
    refine ⟨_, fun hlt => ?_, fun hle => ?_, rfl⟩
    · exact congrArg Host.Outcome.next (spdmRequest_ok hu (hcert.trans (if_neg (Nat.not_le.2 hlt))))
    · refine congrArg Host.Outcome.next ((spdmRequest_error hu (hcert.trans (if_pos hle))).trans ?_)
      rw [h1] <;> rfl
  case notReady =>
    rintro m s slot hu h0 h1 hl ha rfl hs hlc hp
    refine congrArg Host.Outcome.next ((spdmRequest_error hu
      (doGetCertificate_refused ⟨spdmGuard_ok h0 h1 hl ha, hs⟩ (identityGuard_notReady hlc hp))).trans ?_)
    rw [h1] <;> rfl
  case challenge =>
    rintro m s slot hu h0 h1 hl ha rfl hs h3 hlc hp
    obtain ⟨rsp, h⟩ := doChallenge_of (spdmGuard_ok h0 h1 hl ha) hs h3 (identityGuard_ok hlc hp)
    refine ⟨_, rsp, _, congrArg Host.Outcome.next (spdmRequest_ok hu h), ?_, ?_⟩
    · exact Prod.ext rfl (modSpdm_restored _ (by rw [spdmSign_rest] <;> rfl))
    · rw [spdmSign_rest]; rfl
  case measurements =>
    rintro m s op hu h0 h1 hl ha h2 rfl hff hi
    obtain ⟨rest, h⟩ := doGetMeasurements_of (spdmGuard_ok h0 h1 hl ha) h2 hff hi
    exact ⟨_, congrArg Host.Outcome.next (spdmRequest_ok hu h), slice_measBlock ..⟩
  case keys =>
    intro m s i hu h0 h1 hl ha hs hp hpt hk hf
    obtain ⟨u, x, rsp, h, hflue, hh, hc, hr, hx⟩ := doKeyExchange_of ⟨spdmGuard_ok h0 h1 hl ha, hs, hp, hpt, hk⟩ hf
    refine ⟨_, rsp, x, congrArg Host.Outcome.next (spdmRequest_ok hu h), Tab.find?_put _ _ _, hx, fun k hne => ?_, hh, hc, hr⟩
    exact (State.session?_modSession_ne u _ hne).trans (State.session?_congr hflue k)
  case full =>
    intro m s hu h0 h1 hl ha hs hp hpt hk hf
    refine congrArg Host.Outcome.next ((spdmRequest_error hu
      (doKeyExchange_full ⟨spdmGuard_ok h0 h1 hl ha, hs, hp, hpt, hk⟩ hf)).trans ?_)
    rw [h1] <;> rfl
  case finish =>
    intro i m s x hu h hp h0 h1 hl
    obtain ⟨f, hf, hfin⟩ := doFinish_of hu h (spdmGuard_ok h0 h1 hl (by rw [hp] <;> rfl))
    refine ⟨fun hmac => ?_, fun hmac => congrArg Host.Outcome.next (hfin.trans (if_pos hmac))⟩
    obtain ⟨hout, hsess⟩ := respond_in (i := i.val) [0x13, 0x65, 0, 0] h
    obtain ⟨hphase, hseq, hsecret⟩ := hf { x with seqTx := x.seqTx + 1 }
    refine ⟨_, _, congrArg Host.Outcome.next (hfin.trans (if_neg (not_not_intro hmac))), State.session?_modSession f hsess, hphase, hseq,
      hsecret, hout, fun k hne => ?_⟩
    exact (State.session?_modSession_ne _ f hne).trans (respond_session?_ne _ h hne)
  case session =>
    intro i m s x hu h hp h0 hl
    refine ⟨fun h1 => ?heartbeat, fun h1 => ?ends, fun h1 h2 hr ht => ?one, fun h1 h2 hr ht => ?both, fun h1 h2 hpend => ?verified⟩
    case heartbeat => exact congrArg Host.Outcome.next (sessionRequest_ok hu h hp h0 h1 hl rfl)
    case ends => exact congrArg Host.Outcome.next (doEndSession_of hu h hp h0 h1 hl)
    case one => exact congrArg Host.Outcome.next (sessionRequest_ok hu h hp h0 h1 hl ((doKeyUpdate_begins h hr ht).1 h2))
    case both => exact congrArg Host.Outcome.next (sessionRequest_ok hu h hp h0 h1 hl ((doKeyUpdate_begins h hr ht).2 h2))
    case verified => exact congrArg Host.Outcome.next (sessionRequest_ok hu h hp h0 h1 hl (doKeyUpdate_ends h h2 hpend))

end Sys2Proof.Machine
end

section
/-! The vault's and the key cache's commands. -/

namespace Sys2Proof.Machine

/-! ### Changes of one hearth -/

theorem Tab.put_put {α : Type} (t : Tab α) (n : Nat) (a b : α) : Tab.put (Tab.put t n a) n b = Tab.put t n b := by
  induction t with
  | nil => simp [Tab.put]
  | cons p t ih =>
    simp only [Tab.put]
    split
    · simp [Tab.put]
    · split <;> simp [Tab.put, *]

theorem State.modH_congr {s : State} {h : Nat} {f g : Hearth → Hearth} (e : f (s.H h) = g (s.H h)) : s.modH h f = s.modH h g := by
  simp only [State.modH, e]

theorem State.modH_modH (s : State) (h : Nat) (f g : Hearth → Hearth) :
    (s.modH h f).modH h g = s.modH h (fun x => g (f x)) := by
  simp [State.modH, State.H, Tab.put_put]

/-! ### The vault -/

theorem doShadowReload_of {h : Nat} {s : State} (hr : (s.H h).reloading = true) (hi : isolating s = false) :
    doShadowReload h s = s.modH h (fun x =>
      { x with reloading := false, shadow := if x.needStart then x.shadow else emberAtStart s h }) := by
  simp only [doShadowReload, hr, hi, Bool.not_true, Bool.false_eq_true, or_self, if_false]

theorem bankPass_of {h : Nat} {s : State} (hu : s.up h = true) (hw : (s.H h).bankWait = true) :
    bankPass h s = match cacheMgReady h s with
      | some t => ((reshare h t).modH h (fun x => { x with bankWait := false, bankDeferred := false })).wr (pgH .keycache h)
          Reg.KC_BANK_LAST_PASS ((reshare h t).modH h (fun x => { x with bankWait := false, bankDeferred := false })).now
      | none => if (s.H h).bankDeferred then s
        else raiseH h evBankDeferred (pgH .keycache h) {} (s.modH h (fun x => { x with bankDeferred := true })) := by
  simp only [bankPass, hu, hw, Bool.not_true, Bool.false_eq_true, or_self, if_false] <;> rfl

/-- Settles O44: each command's guards pass or fail by the premises; a reload for a hearth that waits for its restart keeps its
shadow, which is the entry itself. -/
theorem vaultAndKeyCacheCommands : Obligations.VaultAndKeyCacheCommands := by
  unfold Obligations.VaultAndKeyCacheCommands
  refine ⟨?period, ?stranger, ?locked, ?reload, ?needsStart, ?pass, ?deferred, ?seeded, ?flush, ?flushRefused, ?identity⟩
  case period =>
    intro d s hf hl
    refine congrArg Host.Outcome.next ((if_pos hf).trans ?_)
    simp only [doBankPeriod, hl, ne_eq, not_true_eq_false, Bool.false_eq_true, if_false]
  case stranger =>
    intro who d s hf hw
    exact congrArg Host.Outcome.next ((if_pos hf).trans (if_pos hw))
  case locked =>
    intro d s hf hl
    refine congrArg Host.Outcome.next ((if_pos hf).trans ?_)
    simp only [doBankPeriod, hl, ne_eq, not_true_eq_false, if_false, if_true]
  case reload =>
    intro h s hr hi hn
    refine congrArg Host.Outcome.next ((doShadowReload_of hr hi).trans (State.modH_congr ?_))
    simp only [hn, Bool.false_eq_true, if_false]
  case needsStart =>
    intro h s hr hi hn
    refine congrArg Host.Outcome.next ((doShadowReload_of hr hi).trans (State.modH_congr ?_))
    simp only [hn, if_true]
  case pass =>
    intro h s t hu hw ht
    refine ⟨congrArg Host.Outcome.next ((bankPass_of hu hw).trans ?_), fun hd => congrArg Host.Outcome.next (if_pos hd)⟩
    rw [ht]
    rfl
  case deferred =>
    intro h s hu hw ht
    refine congrArg Host.Outcome.next ((bankPass_of hu hw).trans ?_)
    rw [ht]
  case seeded =>
    intro h s t b hb
    simp only [cacheMgReady, hb]
  case flush =>
    rintro h who s w ha rfl hi
    refine congrArg Host.Outcome.next ((onHearth_of_answers _ ha).trans ?_)
    simp only [doFlush, hi, Bool.not_true, Bool.false_eq_true, if_false]
  case flushRefused =>
    rintro h who s w ha rfl hi
    refine congrArg Host.Outcome.next ((onHearth_of_answers _ ha).trans ?_)
    simp only [doFlush, hi, Bool.not_false, if_true]
  case identity =>
    intro b s hf hs
    refine ⟨_, congrArg Host.Outcome.next (if_neg ?_), ?_⟩
    · obtain ⟨_, e⟩ := Option.isSome_iff_exists.1 hs
      simp [hf, e]
    · cases b <;> simp [State.modFlue]

end Sys2Proof.Machine
end

section
/-! The entropy source and the DRBG. -/

namespace Sys2Proof.Machine

@[simp] theorem State.ent_modEnt (s : State) (h : Nat) (f : Entropy → Entropy) : (s.modEnt h f).ent h = f (s.ent h) := by
  simp [State.ent, State.modEnt]

theorem State.modEnt_congr {s : State} {h : Nat} {f g : Entropy → Entropy} (e : f (s.ent h) = g (s.ent h)) :
    s.modEnt h f = s.modEnt h g := by
  unfold State.modEnt
  exact State.modH_congr (congrArg (fun a => { s.H h with ent := a }) e)

theorem State.modEnt_modEnt (s : State) (h : Nat) (f g : Entropy → Entropy) :
    (s.modEnt h f).modEnt h g = s.modEnt h (fun e => g (f e)) := State.modH_modH _ _ _ _

/-! ### Samples and the conditioner -/

/-- What a strobe leaves once the pairs have been tested: the collection register, the raw port's word and the test's position. -/
def strobed (s : State) (h bits : Nat) (e : Entropy) : Entropy :=
  let (v, n) := healthyBits e.removed bits
  let take := e.source == .healthy && decide (e.pool.length < 5) && decide (e.collN < 768)
  { e with
    testPos := if e.testing = 0 then e.testPos else e.testPos + 1
    raw := if e.rawN < 32 then e.raw + b2n (bits.testBit (s.rd (entPage h) Reg.ENT_RAW_SEL_PAIR)) * 2 ^ e.rawN else e.raw
    rawN := min 32 (e.rawN + 1)
    coll := if take then e.coll + v * 2 ^ e.collN else e.coll
    collN := if take then e.collN + n else e.collN }

theorem doRawSample_of {h bits rings : Nat} {s : State} (hu : s.up h = true) (hp : (s.H h).power = 0)
    (hs : (s.ent h).source ≠ .starting ∨ (s.ent h).testing ≠ 0) :
    doRawSample h bits rings s =
      let t := (List.range 64).foldl (fun s p => samplePair h p (b2n (bits.testBit p)) (rings.testBit p) s) s
      t.modEnt h (strobed t h bits) := by
  have hgo : ¬((!s.up h) = true ∨ (s.H h).power ≠ 0 ∨ ((s.ent h).source = .starting ∧ (s.ent h).testing = 0)) := by
    rw [hu, hp]
    rintro (e | e | ⟨e1, e2⟩)
    · exact Bool.false_ne_true e
    · exact e rfl
    · exact hs.elim (fun h => h e1) (fun h => h e2)
  exact if_neg hgo

theorem strobed_takes {s : State} {h bits : Nat} {e : Entropy} (hs : e.source = .healthy) (hp : e.pool.length < 5)
    (hn : e.collN < 768) :
    (strobed s h bits e).coll = e.coll + (healthyBits e.removed bits).1 * 2 ^ e.collN ∧
      (strobed s h bits e).collN = e.collN + (healthyBits e.removed bits).2 := by
  simp [strobed, hs, hp, hn]

theorem doConditioner_of {h : Nat} {s : State} (hu : s.up h = true) (hp : (s.H h).power = 0) (hs : (s.ent h).source = .healthy)
    (hn : 768 ≤ (s.ent h).collN) (hl : (s.ent h).pool.length < 5) :
    doConditioner h s = s.modEnt h (fun e =>
      { e with pool := e.pool ++ [bcc (slice Config.conditionerKey 0 32) (toLe 96 (e.coll % 2 ^ 768))], coll := e.coll / 2 ^ 768,
               collN := e.collN - 768 }) := by
  have hgo : ¬((!s.up h) = true ∨ (s.H h).power ≠ 0 ∨ (s.ent h).source ≠ .healthy ∨ (s.ent h).collN < 768 ∨
      5 ≤ (s.ent h).pool.length) := by simp [hu, hp, hs]; omega
  exact (if_neg hgo).trans (State.modEnt_congr rfl)

/-! ### Tests -/

theorem doStartupDone_of {h : Nat} {s : State} (hu : s.up h = true) (ht : (s.ent h).testing = 1) (hp : 4096 ≤ (s.ent h).testPos) :
    doStartupDone h s =
      let t := s.modEnt h (fun e => { e with testing := 0, source := .healthy, tests := [], coll := 0, collN := 0 })
      if 64 - popCount 64 (s.ent h).removed < 48 then sourceFail h t else t := by
  have hgo : ¬((!s.up h) = true ∨ (s.ent h).testing ≠ 1 ∨ (s.ent h).testPos < 4096) := by simp [hu, ht]; omega
  exact if_neg hgo

theorem doEntTest_restart {h : Nat} {who : Requester} {s : State} (hm : mgrOrInner who = true) (hs : (s.ent h).source = .failed) :
    doEntTest h true who s = s.modEnt h (fun e =>
      { e with testing := 2, testPos := 0, testFails := 0, under := 2 ^ 64 - 1, source := .starting, tests := [] }) := by
  have hnone : ∀ l : Tab PairTest, l.filter (fun _ => false) = [] := fun l =>
    List.filter_eq_nil_iff.2 (fun _ _ => Bool.false_ne_true)
  simp only [doEntTest, hm, hs, Bool.not_true, Bool.false_eq_true, if_false, if_true, ne_eq, not_true_eq_false, Bool.true_or, hnone]

theorem doEntTest_retest {h : Nat} {who : Requester} {s : State} (hm : mgrOrInner who = true) (hs : (s.ent h).source = .healthy) :
    doEntTest h false who s = s.modEnt h (fun e =>
      { e with testing := 3, testPos := 0, testFails := 0, under := e.removed,
               tests := e.tests.filter (fun t => !e.removed.testBit t.1) }) := by
  simp only [doEntTest, hm, hs, Bool.not_true, Bool.false_eq_true, if_false, ne_eq, not_true_eq_false, Bool.false_or]

theorem doEntTest_state {h : Nat} {who : Requester} {s : State} {restart : Bool} (hm : mgrOrInner who = true)
    (hs : (s.ent h).source ≠ if restart then SourceState.failed else SourceState.healthy) :
    doEntTest h restart who s = refuse (entPage h) who 0x040 (if restart then 2 else 4) cState s := by
  simp only [doEntTest, hm, Bool.not_true, Bool.false_eq_true, if_false, if_pos hs]

theorem doTestDone_goes {h : Nat} {s : State} (hu : s.up h = true) (ht : (s.ent h).testing = 2 ∨ (s.ent h).testing = 3)
    (hp : 4096 ≤ (s.ent h).testPos) :
    ¬((!s.up h) = true ∨ ¬((s.ent h).testing = 2 ∨ (s.ent h).testing = 3) ∨ (s.ent h).testPos < 4096) := by
  simp [hu, ht]
  omega

theorem doTestDone_retest {h : Nat} {s : State} (hu : s.up h = true) (ht : (s.ent h).testing = 3) (hp : 4096 ≤ (s.ent h).testPos) :
    doTestDone h s = s.modEnt h (fun e =>
      { e with testing := 0, removed := e.removed &&& e.testFails, under := 0, testFails := 0 }) :=
  (if_neg (doTestDone_goes hu (.inr ht) hp)).trans (if_pos ht)

/-- The source at the end of a RESTART, before it is found healthy. -/
def restartEnd (e : Entropy) : Entropy :=
  { e with testing := 0, removed := e.removed &&& e.testFails, under := 0, testFails := 0, source := .failed,
           coll := 0, collN := 0, pool := [], tests := [] }

/-- A RESTART in which no pair failed leaves no pair out. -/
theorem doTestDone_recovered {h : Nat} {s t : State} (hu : s.up h = true) (ht : (s.ent h).testing = 2)
    (hp : 4096 ≤ (s.ent h).testPos) (hf : (s.ent h).testFails = 0)
    (e : t = s.modEnt h (fun e => { e with testing := 0, removed := 0, under := 0, testFails := 0, source := .healthy,
                                           coll := 0, collN := 0, pool := [], tests := [] })) :
    doTestDone h s = raiseH h evEntRecovered (entPage h) { payload := captureBytes (entPage h) t } t := by
  have h3 : ¬(s.ent h).testing = 3 := by omega
  have hnone : (List.range 64).filter (fun p => (s.ent h).testFails.testBit p && !(s.ent h).removed.testBit p) = [] := by
    simp [hf]
  have hpop : ¬64 - popCount 64 0 < 48 := by decide
  have he : (s.modEnt h restartEnd).modEnt h (fun e => { e with source := .healthy }) = t := by
    rw [e, State.modEnt_modEnt]
    exact State.modEnt_congr (by simp [restartEnd, hf])
  refine (if_neg (doTestDone_goes hu (.inl ht) hp)).trans ((if_neg h3).trans ?_)
  have hrem : (restartEnd (s.ent h)).removed = 0 := by simp [restartEnd, hf]
  have hgo : ¬64 - popCount 64 ((s.modEnt h restartEnd).ent h).removed < 48 := by rw [State.ent_modEnt, hrem]; exact hpop
  rw [hnone]
  exact (if_neg hgo).trans (he ▸ rfl)

/-! ### The DRBG -/

theorem doInstantiate_of {h : Nat} {s : State} {kv : Bytes × Bytes} (hu : s.up h = true) (hd : (s.ent h).drbg = .uninstantiated)
    (hs : (s.ent h).source = .healthy) (hl : 5 ≤ (s.ent h).pool.length)
    (e : kv = drbgUpdate (zeros 32) (zeros 16) (drbgDf (((s.ent h).pool.take 4).flatten ++
      (padTo 16 s.chim.fuses.serial ++ [byte h] ++ zeros 15)))) :
    doInstantiate h s = (s.modEnt h (fun e =>
      { e with key := kv.1, v := kv.2, core := e.pool.getD 4 [], pool := e.pool.drop 5, requests := 0, drbg := .running })).wr
        (entPage h) Reg.ENT_LAST_RESEED_TIME s.now := by
  have hl' : ¬(s.ent h).pool.length < 5 := by omega
  simp only [doInstantiate, hu, hd, hs, hl', Bool.not_true, Bool.false_eq_true, ne_eq, not_true_eq_false, or_self, if_false, ← e] <;> rfl

theorem doGenerate_of {h n : Nat} {s : State} (hu : s.up h = true) (h1 : 1 ≤ n) (h2 : n ≤ 65536) :
    doGenerate h n s = match drbgLower h n false s with
      | none => s
      | some (out, s) => s.modEnt h (fun e =>
          if e.bufIn.length < 32 then { e with bufIn := e.bufIn ++ out.take (64 - e.bufIn.length) }
          else if e.bufOut.length < 32 then { e with bufOut := e.bufOut ++ out.take (64 - e.bufOut.length) }
          else e) := by
  have hgo : ¬((!s.up h) = true ∨ n = 0 ∨ 65536 < n) := by simp [hu]; omega
  exact (if_neg hgo).trans rfl

theorem doGenerate_none {h n : Nat} {s : State} (hn : drbgLower h n false s = none) : doGenerate h n s = s := by
  unfold doGenerate
  rw [hn]
  exact ite_self _

theorem drbgLower_none {h n : Nat} {s : State} (hn : seedWaits (s.H h) = true ∨ drbgRequest h n false s = none) :
    drbgLower h n false s = none := by
  unfold drbgLower
  split
  next => rfl
  next hw => exact hn.resolve_left hw

theorem drbgReseed_ent (h : Nat) (s : State) : ((drbgReseed h s).ent h).drbg = .running ∧
    ((drbgReseed h s).ent h).requests = 0 ∧ ((drbgReseed h s).ent h).pool = (s.ent h).pool.drop 4 := by
  simp [drbgReseed, State.ent]

theorem doReseed_of {h : Nat} {s : State} (hu : s.up h = true) (hd : (s.ent h).drbg ≠ .uninstantiated)
    (hc : canReseed (s.ent h) = true)
    (hdue : s.reseedPeriod h ≤ (s.ent h).requests ∨ (s.ent h).drbg = .holdover ∨ (s.ent h).drbg = .stopped) :
    doReseed h s = drbgReseed h s := by
  refine if_pos ?_
  simpa [hu, hd, hc, or_assoc] using hdue

/-! ### Ports -/

theorem doDataRead_in {h : Nat} {who : Requester} {s : State} (hi : isInner who = true) (hl : 4 ≤ (s.ent h).bufIn.length) :
    doDataRead h who false s = (s.modEnt h (fun e => { e with bufIn := (s.ent h).bufIn.drop 4 })).emit
      (.readData ((s.ent h).bufIn.take 4)) := by
  simp only [doDataRead, hi, Bool.false_eq_true, if_false, Bool.not_true, if_neg (Nat.not_lt.2 hl)]

theorem doDataRead_out {h : Nat} {who : Requester} {s : State} (ho : isOuter who = true) (hl : 4 ≤ (s.ent h).bufOut.length) :
    doDataRead h who true s = (s.modEnt h (fun e => { e with bufOut := (s.ent h).bufOut.drop 4 })).emit
      (.readData ((s.ent h).bufOut.take 4)) := by
  simp only [doDataRead, ho, Bool.false_eq_true, if_false, if_true, Bool.not_true, if_neg (Nat.not_lt.2 hl)]

theorem doDataRead_empty {h : Nat} {who : Requester} {s : State} (hi : isInner who = true) (hl : (s.ent h).bufIn.length < 4) :
    doDataRead h who false s = (s.wr (entPage h) Reg.ENT_STATUS_EMPTY_IN 1).emit (.readData (zeros 4)) := by
  simp only [doDataRead, hi, Bool.false_eq_true, if_false, Bool.not_true, if_pos hl]

theorem doDataRead_stranger {h : Nat} {who : Requester} {s : State} (hi : isInner who = false) :
    doDataRead h who false s =
      (capture (entPage h) who 0x048 0 (reqIdentity who) true cRead s).emit (.readData (zeros 4)) := by
  simp only [doDataRead, hi, Bool.false_eq_true, if_false, Bool.not_false, if_true]

theorem doRawRead_of {h : Nat} {s : State} (hv : inVendorTest s = true) (hl : 32 ≤ (s.ent h).rawN) :
    doRawRead h s = (s.modEnt h (fun e => { e with raw := 0, rawN := 0 })).emit (.readData (toLe 4 (s.ent h).raw)) := by
  simp only [doRawRead, hv, Bool.not_true, Bool.false_eq_true, if_false, if_neg (Nat.not_lt.2 hl)]

theorem doRawRead_zero {h : Nat} {s : State} (hv : inVendorTest s = false) : doRawRead h s = s.emit (.readData (zeros 4)) := by
  simp only [doRawRead, hv, Bool.not_false, if_true]

theorem entRawRead_of {h : Fin 16} {who : Requester} {s : State} (hw : ∀ v, who ≠ .vf v) (ha : s.answers h = true) :
    exec (.entRawRead h who) s = .next (doRawRead h (wakeHearth h s)) := by
  cases who with
  | vf v => exact absurd rfl (hw v)
  | _ => exact congrArg Host.Outcome.next (if_pos ha)

/-- Settles O47: the guards of each command pass or fail by its premises; the strobe's effect on the source is `strobed`, and a
RESTART in which no pair failed leaves all 64 in use. -/
theorem entropyAndDrbg : Obligations.EntropyAndDrbg := by
  unfold Obligations.EntropyAndDrbg
  refine ⟨?sample, ?paused, ?conditioner, ?startup, ?restart, ?retest, ?state, ?retestDone, ?recovered, ?instantiate, ?generate,
    ?waits, ?reseed, ?policy, ?ports, ?raw⟩
  case sample =>
    rintro h bits rings s t hu hp hs rfl
    refine ⟨_, congrArg Host.Outcome.next (doRawSample_of hu hp hs), ?_, ?_, ?_, rfl, rfl, rfl, rfl⟩
    · rw [State.ent_modEnt]; rfl
    · rw [State.ent_modEnt]; rfl
    · rw [State.ent_modEnt]
      exact strobed_takes
  case paused =>
    intro h bits rings s hs
    refine congrArg Host.Outcome.next (if_pos ?_)
    rcases hs with hs | hs
    · exact .inl (by simp [hs])
    · exact .inr (.inl hs)
  case conditioner => exact fun h s hu hp hs hn hl => congrArg Host.Outcome.next (doConditioner_of hu hp hs hn hl)
  case startup => exact fun h s hu ht hp => congrArg Host.Outcome.next (doStartupDone_of hu ht hp)
  case restart =>
    rintro h who s w ha rfl hm hs
    exact congrArg Host.Outcome.next ((onHearth_of_answers _ ha).trans (doEntTest_restart hm hs))
  case retest =>
    rintro h who s w ha rfl hm hs
    exact congrArg Host.Outcome.next ((onHearth_of_answers _ ha).trans (doEntTest_retest hm hs))
  case state =>
    rintro h who s w ha rfl hm
    exact ⟨fun hs => congrArg Host.Outcome.next ((onHearth_of_answers _ ha).trans (doEntTest_state hm hs)),
      fun hs => congrArg Host.Outcome.next ((onHearth_of_answers _ ha).trans (doEntTest_state hm hs))⟩
  case retestDone => exact fun h s hu ht hp => congrArg Host.Outcome.next (doTestDone_retest hu ht hp)
  case recovered => exact fun h s t hu ht hp hf e => congrArg Host.Outcome.next (doTestDone_recovered hu ht hp hf e)
  case instantiate => exact fun h s kv hu hd hs hl e => congrArg Host.Outcome.next (doInstantiate_of hu hd hs hl e)
  case generate =>
    intro h n s t b hu h1 h2 hw hr
    refine congrArg Host.Outcome.next ((doGenerate_of hu h1 h2).trans ?_)
    simp only [drbgLower, hw, Bool.false_eq_true, if_false, hr]
  case waits => exact fun h n s hn => congrArg Host.Outcome.next (doGenerate_none (drbgLower_none hn))
  case reseed => exact fun h s hu hd hc hdue => ⟨congrArg Host.Outcome.next (doReseed_of hu hd hc hdue), drbgReseed_ent h s⟩
  case policy =>
    rintro h who d s w ha rfl hm
    refine congrArg Host.Outcome.next ((onHearth_of_answers _ ha).trans ?_)
    simp only [doPolicy, hm, Bool.not_true, Bool.false_eq_true, if_false]
  case ports =>
    rintro h who s w ha rfl
    exact ⟨fun hi hl => congrArg Host.Outcome.next ((if_pos ha).trans (doDataRead_in hi hl)),
      fun ho hl => congrArg Host.Outcome.next ((if_pos ha).trans (doDataRead_out ho hl)),
      fun hi hl => congrArg Host.Outcome.next ((if_pos ha).trans (doDataRead_empty hi hl)),
      fun hi => congrArg Host.Outcome.next ((if_pos ha).trans (doDataRead_stranger hi))⟩
  case raw =>
    rintro h who s w hw ha rfl
    exact ⟨fun hv hl => (entRawRead_of hw ha).trans (congrArg Host.Outcome.next (doRawRead_of hv hl)),
      fun hv => (entRawRead_of hw ha).trans (congrArg Host.Outcome.next (doRawRead_zero hv))⟩

end Sys2Proof.Machine
end

section
/-! What a hearth's events, and the fatal state that a full recorder brings, leave alone: the registers of the memory paths and
the chimney. -/

namespace Sys2Proof.Machine

/-- Between `s` and `t` no register of a memory path and nothing of the chimney changes. -/
structure MempathFrame (s t : State) : Prop where
  rd   : ∀ p f, p.kind = .mempath → t.rd p f = s.rd p f
  chim : t.chim = s.chim

namespace MempathFrame

theorem refl (s : State) : MempathFrame s s := ⟨fun _ _ _ => rfl, rfl⟩

theorem trans {r s t : State} (a : MempathFrame r s) (b : MempathFrame s t) : MempathFrame r t :=
  ⟨fun p f h => (b.rd p f h).trans (a.rd p f h), b.chim.trans a.chim⟩

theorem wr (s : State) {p : Page} (hp : p.kind ≠ .mempath) (f : Fld) (v : Nat) : MempathFrame s (s.wr p f v) :=
  ⟨fun q g hq => s.rd_wr_page p q f g v (by rintro rfl; exact hp hq), rfl⟩

theorem orBit (s : State) {p : Page} (hp : p.kind ≠ .mempath) (f : Fld) (i : Nat) : MempathFrame s (s.orBit p f i) := .wr s hp f _
theorem bump (s : State) {p : Page} (hp : p.kind ≠ .mempath) (f : Fld) : MempathFrame s (s.bump p f) := .wr s hp f _
theorem modH (s : State) (h : Nat) (f : Hearth → Hearth) : MempathFrame s (s.modH h f) := ⟨fun _ _ _ => rfl, rfl⟩
theorem modFlue (s : State) (f : Flue → Flue) : MempathFrame s (s.modFlue f) := ⟨fun _ _ _ => rfl, rfl⟩

theorem same {s t : State} (hr : t.regs = s.regs) (hc : t.chim = s.chim) : MempathFrame s t :=
  ⟨fun p f _ => by simp only [State.rd, hr], hc⟩

theorem ite {c : Prop} [Decidable c] {r s t : State} (a : MempathFrame r s) (b : MempathFrame r t) :
    MempathFrame r (if c then s else t) := by split <;> assumption

theorem foldl {α : Type} {f : State → α → State} (hf : ∀ s x, MempathFrame s (f s x)) (l : List α) (s : State) :
    MempathFrame s (l.foldl f s) := by
  induction l generalizing s with
  | nil => exact .refl s
  | cons x l ih => exact (hf s x).trans (ih _)

/-! ### Events -/

theorem recPage_kind (u : Option Nat) : (recPage u).kind ≠ .mempath := by cases u <;> exact nofun

theorem setRecorder (s : State) (u : Option Nat) (r : Recorder) : MempathFrame s (s.setRecorder u r) := by
  cases u <;> exact .same rfl rfl

theorem sendMsix (fn : Func) (v : Nat) (s : State) : MempathFrame s (sendMsix fn v s) := by
  refine .ite (.orBit s ?_ _ _) (.same rfl rfl)
  cases fn <;> exact nofun

theorem sendMessages (g : Nat) (s : State) : MempathFrame s (sendMessages g s) := by
  have h0 : MempathFrame s (if s.flag (routePage g) (Reg.RT_PF0_EN (routeIdx g)) then
      Machine.sendMsix .pf0 (s.rd (routePage g) (Reg.RT_PF0_VECTOR (routeIdx g))) s else s) := .ite (.sendMsix ..) (.refl s)
  exact .ite (h0.trans (.sendMsix ..)) h0

theorem raiseBit (e : Ev) (u g : Nat) {p : Page} (hp : p.kind ≠ .mempath) (s : State) : MempathFrame s (raiseBit e u g p s) :=
  .ite (.orBit s hp _ _) ((MempathFrame.orBit s hp _ _).trans (.sendMessages ..))

theorem record (u : Option Nat) (r : Rec) (s : State) : MempathFrame s (record u r s).1 := by
  have hp := recPage_kind u
  unfold Machine.record
  dsimp only
  split
  · exact .refl s
  · split
    · split
      · exact (wr s hp _ _).trans (.setRecorder ..)
      · split
        · exact (wr s hp _ _).trans (.bump _ hp _)
        · exact (((((wr s hp _ _).trans (.wr _ hp _ _)).trans (.wr _ hp _ _)).trans (.wr _ hp _ _)).trans (.wr _ hp _ _)).trans
            (.setRecorder ..)
    · split
      · exact (wr s hp _ _).trans (.setRecorder ..)
      · exact (wr s hp _ _).trans (.bump _ hp _)
      · exact .wr s hp _ _

theorem raiseQuiet (u : Option Nat) (e : Ev) (s : State) : MempathFrame s (raiseQuiet u e s) := by
  unfold Machine.raiseQuiet
  exact .ite (.raiseBit _ _ _ (recPage_kind u) _) ((raiseBit _ _ _ (recPage_kind u) _).trans (.record ..))

theorem raiseFollow (u : Option Nat) (s : State) (e : Ev) : MempathFrame s (raiseFollow u s e) := by
  unfold Machine.raiseFollow
  have h : ∀ g r, MempathFrame s (Machine.record u r (Machine.raiseBit e (u.getD 0) g (recPage u) s)).1 := fun g r =>
    (raiseBit e _ g (recPage_kind u) s).trans (.record u r _)
  exact .ite (h _ _) ((h _ _).trans (.foldl (fun s e => .raiseQuiet u e s) _ _))

theorem raiseFlue (e : Ev) {p : Page} (hp : p.kind ≠ .mempath) (i : Info) (s : State) : MempathFrame s (raiseFlue e p i s) := by
  unfold Machine.raiseFlue
  have h : ∀ r l, MempathFrame s (List.foldl (Machine.raiseFollow none) (Machine.record none r (Machine.raiseBit e 0 e.n p s)).1 l) :=
    fun r l => ((raiseBit e _ _ hp s).trans (.record none r _)).trans (.foldl (raiseFollow none) l _)
  refine .ite (.ite ?_ ?_) (h _ _)
  · exact .ite ((h _ _).trans (.setRecorder ..)) (((h _ _).trans (.setRecorder ..)).trans (.raiseBit _ _ _ (by nofun) _))
  · exact ((h _ _).trans (.bump _ (by nofun) _)).trans (.raiseQuiet ..)

theorem errFlueReg {p : Page} (hp : p.kind ≠ .mempath) (f : Fld) (i : Nat) (s : State) : MempathFrame s (errFlueReg p f i s) := by
  unfold Machine.errFlueReg
  refine .ite ((bump s hp f).trans ?_) (.bump s hp f)
  exact .ite (.refl _) ((orBit _ (by nofun) _ _).trans (.raiseFlue _ (by nofun) _ _))

/-! ### Completions -/

theorem modQp (s : State) (t : Queue) (f : Qp → Qp) : MempathFrame s (s.modQp t f) := by
  cases t <;> exact .same rfl rfl

theorem raiseVector (t : Queue) (s : State) : MempathFrame s (raiseVector t s) := (modQp s t _).trans (.sendMsix ..)

theorem postCompletion (t : Queue) (e : Entry) (b : Bool) (s : State) : MempathFrame s (postCompletion t e b s) := by
  have h : ∀ l f, MempathFrame s (State.modQp { s with out := l } t f) := fun l f =>
    (same (s := s) (t := { s with out := l }) rfl rfl).trans (.modQp _ t f)
  exact .ite (h _ _) (.ite ((h _ _).trans (.modQp ..)) ((h _ _).trans (.raiseVector ..)))

theorem postAdmin (q tag st : Nat) (g : Bool) (r o : Bytes) (d : List SgEntry) (b : Bool) (s : State) :
    MempathFrame s (postAdmin q tag st g r o d b s) :=
  .trans (t := Machine.postAdmin q tag st g r o d b s) (.same (t := { s with out := s.out ++ scatter .pf0 (s.relaxed .pf0) d o }) rfl rfl)
    (.postCompletion ..)

theorem restQueue (t : Queue) (s : State) : MempathFrame s (restQueue t s) := by
  refine .ite (.refl s) (.wr s ?_ _ _)
  cases t <;> exact nofun

theorem closeAdmin (k st : Nat) (g : Bool) (o : Bytes) (s : State) : MempathFrame s (closeAdmin k st g o s) := by
  unfold Machine.closeAdmin
  split
  · exact .refl s
  · refine .trans ?_ (.restQueue ..)
    exact .trans (.modFlue s _) (.postAdmin ..)

/-! ### Gangs, groups and dampers -/

theorem gangAbort (r : GangRef) (h : Nat) (s : State) : MempathFrame s (gangAbort r h s) := by
  unfold Machine.gangAbort
  split
  · exact .refl s
  · exact .ite (((modFlue s _).trans (.errFlueReg (by nofun) _ _ _)).trans (.raiseFlue _ (by nofun) _ _)) (.refl s)

theorem gangMemberDone (r : GangRef) (h : Nat) (s : State) : MempathFrame s (gangMemberDone r h s) :=
  .same rfl rfl

theorem startRollback (h g : Nat) (s : State) : MempathFrame s (startRollback h g s) := by
  unfold Machine.startRollback
  split
  · exact .refl s
  · refine .ite (.ite (.refl s) ?_) (.ite ?_ (.refl s))
    · split
      · exact (modH s h _).trans (.gangAbort ..)
      · exact .modH s h _
    · split
      · exact .gangAbort ..
      · exact .refl s

theorem setFt (s : State) (v : Nat) (f : Nat → Fld) (x : Nat) : MempathFrame s (s.setFt v f x) := .wr s (by nofun) _ _

theorem finishWaits (v st : Nat) (s : State) : MempathFrame s (finishWaits v st s) :=
  .foldl (fun s k => .closeAdmin k st false [] s) _ _

theorem enterDrained (v : Nat) (s : State) : MempathFrame s (enterDrained v s) :=
  (((setFt s v _ _).trans (.raiseFlue _ (by nofun) _ _)).trans (.orBit _ (by nofun) _ _)).trans (.finishWaits ..)

theorem checkDrain (v : Nat) (s : State) : MempathFrame s (checkDrain v s) := .ite (.enterDrained v s) (.refl s)

theorem enterClosing (v : Nat) (s : State) : MempathFrame s (enterClosing v s) :=
  ((setFt s v _ _).trans (.foldl (fun s g => .startRollback _ g s) _ _)).trans (.checkDrain ..)

theorem tdiError (v : Nat) (s : State) : MempathFrame s (tdiError v s) := by
  have h : ∀ i, MempathFrame s (Machine.raiseFlue evTdiError (ftPage v) i
      ((s.modVf v (fun x => { x with tdi := .error })).setFt v Reg.FT_TDI_LOCKED 0)) := fun i =>
    ((modFlue s _).trans (.setFt ..)).trans (.raiseFlue _ (by nofun) _ _)
  exact .ite (.ite ((h _).trans (.enterClosing ..)) (h _)) (.refl s)

/-! ### Fatal state -/

theorem failAllJobs (h st : Nat) (s : State) : MempathFrame s (failAllJobs h st s) :=
  ((modH s h _).trans (.modH _ h _)).trans (.wr _ (by nofun) _ _)

theorem endGroups (h st : Nat) (s : State) : MempathFrame s (endGroups h st s) := by
  unfold Machine.endGroups
  refine .trans ?_ (.modH _ h _)
  refine .trans (.trans (.foldl (fun s p => ?_) _ _) (.foldl (fun s p => ?_) _ _)) (.foldl (fun s p => ?_) _ _)
  · split
    · exact .ite (.refl s) (.gangAbort ..)
    · exact .refl s
  · exact (foldl (fun s k => .closeAdmin k st true _ s) _ _).trans (.foldl (fun s k => .closeAdmin k st false _ s) _ _)
  · split
    · exact .gangMemberDone ..
    · exact .refl s

theorem raiseFatalEntry (h c : Nat) (s : State) : MempathFrame s (raiseFatalEntry h c s) :=
  (raiseBit _ _ _ (by nofun) s).trans (.record ..)

theorem enterFatal (h c : Nat) (s : State) : MempathFrame s (enterFatal h c s) := by
  unfold Machine.enterFatal
  split
  · exact .refl s
  · have hstate : MempathFrame s (Machine.raiseFatalEntry h c (s.setHState h hsFatal)) :=
      (wr s (by nofun) _ _).trans (.raiseFatalEntry ..)
    refine .trans ?_ (.foldl (fun s v => .tdiError v s) _ _)
    refine .trans ?_ (.raiseFlue _ (by nofun) _ _)
    refine .trans ?_ (.modH _ h _)
    refine .trans ?_ (.foldl (fun s c => .modH s h _) _ _)
    refine .trans ?_ (.modH _ h _)
    refine .trans ?_ (.endGroups ..)
    refine .trans ?_ (.failAllJobs ..)
    exact hstate.trans (.modH _ h _)

/-- A hearth event, whatever it does to its recorder. -/
theorem raiseH (h : Nat) (e : Ev) {p : Page} (hp : p.kind ≠ .mempath) (i : Info) (s : State) : MempathFrame s (raiseH h e p i s) := by
  have hr : ∀ g r l, MempathFrame s (List.foldl (Machine.raiseFollow (some h))
      (Machine.record (some h) r (Machine.raiseBit e h g p s)).1 l) := fun g r l =>
    ((raiseBit e h g hp s).trans (.record _ r _)).trans (.foldl (raiseFollow (some h)) l _)
  exact .ite (((hr _ _ _).trans (.modH _ h _)).trans (.enterFatal ..)) (hr _ _ _)

theorem flagHCtr (h : Nat) (f : Nat → Fld) (e : Ev) (i : Nat) (s : State) : MempathFrame s (flagHCtr h f e i s) :=
  .ite (.refl s) ((orBit s (by nofun) _ _).trans (.raiseH h e (by nofun) _ _))

theorem addCtr (h i k : Nat) (s : State) : MempathFrame s (addCtr h i k s) := by
  refine .ite (.trans ?_ (.flagHCtr h _ _ i _)) (.modH s h _)
  exact .modH s h _

end MempathFrame

end Sys2Proof.Machine
end

section
/-! The commands of the memory path. -/

namespace Sys2Proof.Machine

/-! ### The sub-channel -/

theorem memInit_of {h : Nat} {who : Requester} {s : State} (hm : mgrOrInner who = true) (h0 : s.memState h = 0) :
    memInit h who s = (s.wr (memPage h) Reg.PAGE_CTRL_LOCK 1).wr (memPage h) Reg.MEM_STATUS_STATE
      (if cfgGib (s.wr (memPage h) Reg.PAGE_CTRL_LOCK 1) h = 0 then 3 else 1) := by
  simp only [memInit, hm, h0, Bool.not_true, Bool.false_eq_true, ne_eq, not_true_eq_false, if_false]

theorem memInit_refused {h : Nat} {who : Requester} {s : State} (hm : mgrOrInner who = true) (h0 : s.memState h ≠ 0) :
    memInit h who s = captureMem h who 0x044 1 cState s := by
  simp only [memInit, hm, Bool.not_true, Bool.false_eq_true, if_false, if_pos h0]

/-- A part whose training has ended well. -/
def trained (h : Nat) (s : State) : State :=
  let s := (s.wr (memPage h) Reg.MEM_STATUS_STATE 2).wr (memPage h) Reg.MEM_CFG_CAP_GIB (cfgGib s h)
  s.modH h (fun x => { x with dump := { x.dump with base := some (s.memInner h + dumpBase) } })

theorem memTrained_ok {h : Nat} {s : State} (h1 : s.memState h = 1) (hu : s.up h = true) : memTrained h true s = trained h s := by
  simp only [memTrained, h1, hu, ne_eq, not_true_eq_false, Bool.not_true, Bool.false_eq_true, or_self, if_false, if_true, trained]

theorem memTrained_failed {h : Nat} {s : State} (h1 : s.memState h = 1) (hu : s.up h = true) :
    memTrained h false s = s.wr (memPage h) Reg.MEM_STATUS_STATE 3 := by
  simp only [memTrained, h1, hu, ne_eq, not_true_eq_false, Bool.not_true, Bool.false_eq_true, or_self, if_false]

theorem trained_reads {h : Nat} {s : State} (hs : s.regs.Rising) (hc : cfgGib s h < 2 ^ 6) :
    (trained h s).memState h = 2 ∧ (trained h s).rd (memPage h) Reg.MEM_CFG_CAP_GIB = cfgGib s h ∧
      ((trained h s).H h).dump.base = some ((trained h s).memInner h + dumpBase) := by
  refine ⟨?_, ?_, by simp [trained, State.memInner]⟩
  · exact (State.rd_wr_bits _ _ _ _ _ _ (by decide)).trans (State.rd_wr _ _ _ _ hs)
  · exact (State.rd_wr _ _ _ _ (State.wr_rising _ _ _ _ hs)).trans (Nat.mod_eq_of_lt hc)

theorem patrol_of {h off : Nat} {c : LineCheck} {s : State} (hu : s.up h = true) (hr : s.memReady h = true)
    (he : s.flag (memPage h) Reg.MEM_CTRL_SCRUB_EN = true) (ho : off < s.memCap h) :
    patrol h off c s = lineFinding h off (scrubView c) s := by
  simp only [patrol, hu, hr, he, Bool.not_true, Bool.false_eq_true, false_or, if_neg (Nat.not_le.2 ho)]

/-! ### Ranges -/

/-- The registers of a range that an INIT has cleared. -/
def initCleared (h r : Nat) (s : State) : State :=
  ((s.wr (memPage h) (Reg.RNG_STATUS_CFG_ERR r) 0).wr (memPage h) (Reg.RNG_STATUS_CFG_CODE r) 0).wr (memPage h)
    (Reg.RNG_STATUS_CAUSE r) 0

/-- The range that an INIT puts into force, under its own key. -/
def keyedRange (h r : Nat) (s : State) : MemRange :=
  { regRange s h r with key := rangeKey ((hearthRoot (s.H h)).getD []) h r (regRange s h r).gen }

/-- The range's registers and its generation in the vault, before the derivation is counted and the range stands in the table. -/
def initStarted (h r : Nat) (s : State) : State :=
  ((initCleared h r s).modVault (fun v => { v with rngGens := v.rngGens.put (h * 8 + r) (regRange s h r).gen })).wr (memPage h)
    (Reg.RNG_STATUS_STATE r) rsInit

theorem rngInit_refused {h r c : Nat} {who : Requester} {s : State} (hr : r ≠ 0) (hm : mgrOrInner who = true)
    (hc : initCode s h r = some c) :
    rngInit h r who s = (s.wr (memPage h) (Reg.RNG_STATUS_CFG_ERR r) 1).wr (memPage h) (Reg.RNG_STATUS_CFG_CODE r) c := by
  simp only [rngInit, hr, hm, Bool.not_true, Bool.false_eq_true, or_self, if_false, hc]

theorem rngInit_of {h r : Nat} {who : Requester} {s : State} (hr : r ≠ 0) (hm : mgrOrInner who = true)
    (hc : initCode s h r = none) (hmode : (regRange s h r).mode ≠ 0) :
    rngInit h r who s = (derived h 1 (initStarted h r s)).modMem h (fun m => { m with ranges := m.ranges.put r (keyedRange h r s) }) := by
  simp only [rngInit, hr, hm, Bool.not_true, Bool.false_eq_true, or_self, if_false, hc, hmode] <;> rfl

theorem initStarted_reads {h r : Nat} {s : State} (hr : r < 8) (hs : s.regs.Rising) :
    (initStarted h r s).rangeState h r = rsInit ∧ (initStarted h r s).rd (memPage h) (Reg.RNG_STATUS_CFG_ERR r) = 0 := by
  have hs1 : (initCleared h r s).regs.Rising := State.wr_rising _ _ _ _ (State.wr_rising _ _ _ _ (State.wr_rising _ _ _ _ hs))
  have hclear : (initCleared h r s).rd (memPage h) (Reg.RNG_STATUS_CFG_ERR r) = 0 := by
    refine (State.rd_wr_bits _ _ _ _ _ _ ?_).trans ((State.rd_wr_bits _ _ _ _ _ _ ?_).trans (State.rd_wr _ _ _ _ hs))
    all_goals simp only [Reg.RNG_STATUS_CFG_ERR, Reg.RNG_STATUS_CAUSE, Reg.RNG_STATUS_CFG_CODE]; omega
  refine ⟨State.rd_wr _ _ _ _ hs1, (State.rd_wr_bits _ _ _ _ _ _ ?_).trans hclear⟩
  simp only [Reg.RNG_STATUS_CFG_ERR, Reg.RNG_STATUS_STATE]
  omega

theorem vaultGen_started (h r : Nat) (s : State) : vaultGen (initStarted h r s) h r = (regRange s h r).gen := by
  simp [vaultGen, initStarted, State.modVault, State.modChim, State.wr]

theorem derived_frame (h k : Nat) (s : State) : MempathFrame s (derived h k s) := .addCtr h 152 k s

theorem State.range_modMem (s : State) (h : Nat) (f : MemPath → MemPath) (r : Nat) :
    (s.modMem h f).range h r = (f (s.H h).mem).ranges.getD r {} := by
  simp [State.range, State.modMem]

theorem rangeReady_of {h r : Nat} {s : State} (hu : s.up h = true) (hr : s.rangeState h r = rsInit) :
    rangeReady h r s = raiseMem h evRangeReady (memPage h) r ((s.modMem h (fun m =>
      { m with
        ddr := memClear (memClear m.ddr (s.range h r).base (s.range h r).size) (s.range h r).metaAt (s.range h r).metaLen,
        nodes := m.nodes.filter (fun l => !spanHas (s.range h r).metaAt (s.range h r).metaLen (64 * l)),
        poison := m.poison.filter (fun l => l * 64 < (s.range h r).base || (s.range h r).base + (s.range h r).size ≤ l * 64) })).wr
          (memPage h) (Reg.RNG_STATUS_STATE r) rsActive) := by
  simp only [rangeReady, hu, hr, Bool.not_true, Bool.false_eq_true, ne_eq, not_true_eq_false, or_self, if_false]

theorem reencDone_of {h : Nat} {s : State} {a : Nat × Nat} {l : List (Nat × Nat)} (hu : s.up h = true)
    (hl : (s.H h).mem.reenc = a :: l) :
    reencDone h s = ((s.modMem h (fun m => { m with reenc := l })).wr (memPage h) Reg.MEM_REENC_BUSY
      (b2n (decide (0 < l.length)))).wr (memPage h) Reg.MEM_REENC_QUEUED (l.length - 1) := by
  have hdrop : s.modMem h (fun m => { m with reenc := m.reenc.drop 1 }) = s.modMem h (fun m => { m with reenc := l }) :=
    State.modH_congr (by simp [hl])
  have hmem : ((s.modMem h (fun m => { m with reenc := l })).H h).mem.reenc = l := by simp [State.modMem]
  simp only [reencDone, hu, hl, Bool.not_true, Bool.false_eq_true, List.isEmpty_cons, or_self, if_false, hdrop, hmem]

/-! ### Ownership -/

theorem ownGo_of {h : Nat} {who : Requester} {s : State} (hm : mgrOrInner who = true) (hc : goCode s h = none) :
    ownGo h who s = ((s.modMem h (fun m => { m with pending := m.pending ++ [regOwn s h] })).wr (memPage h)
      Reg.OWN_STATUS_CMD_ERR 0).wr (memPage h) Reg.OWN_STATUS_ERR_CODE 0 := by
  simp only [ownGo, hm, Bool.not_true, Bool.false_eq_true, if_false, hc]

theorem ownGo_refused {h c : Nat} {who : Requester} {s : State} (hm : mgrOrInner who = true) (hc : goCode s h = some c) :
    ownGo h who s = (s.wr (memPage h) Reg.OWN_STATUS_CMD_ERR 1).wr (memPage h) Reg.OWN_STATUS_ERR_CODE c := by
  simp only [ownGo, hm, Bool.not_true, Bool.false_eq_true, if_false, hc]

theorem ownSync_of {h : Nat} {who : Requester} {s : State} (hm : mgrOrInner who = true)
    (hb : s.flag (memPage h) Reg.OWN_STATUS_SYNC_BUSY = false) :
    ownSync h who s = (s.wr (memPage h) Reg.OWN_STATUS_SYNC_BUSY 1).modMem h (fun m => { m with transit := m.pending }) := by
  simp only [ownSync, hm, hb, Bool.not_true, Bool.false_eq_true, or_self, if_false]

theorem ownSyncDone_of {h : Nat} {s t : State} (hu : s.up h = true) (hb : s.flag (memPage h) Reg.OWN_STATUS_SYNC_BUSY = true)
    (e : t = ((s.H h).mem.transit.foldl (fun s c => (List.range c.count).foldl (fun s i => setOwner h (c.page + i) c.entry s) s)
      s).modMem h (fun m => { m with pending := [], transit := [] })) :
    ownSyncDone h s = raiseMem h evOwnSyncDone (memPage h) 0xFF ((t.wr (memPage h) Reg.OWN_STATUS_SYNC_BUSY 0).wr (memPage h)
      Reg.OWN_STATUS_GEN ((t.wr (memPage h) Reg.OWN_STATUS_SYNC_BUSY 0).rd (memPage h) Reg.OWN_STATUS_GEN + 1)) := by
  rw [State.rd_wr_bits _ _ _ _ _ _ (by decide), e]
  simp only [ownSyncDone, hu, hb, Bool.not_true, Bool.false_eq_true, or_self, if_false]

/-- An entry that names the owner a page has already: nothing is filled, and the table alone changes. -/
theorem setOwner_same {h page entry : Nat} {s : State} (he : s.ownEntry h page % 2 ^ 17 = entry % 2 ^ 17) :
    setOwner h page entry s = s.modMem h (fun m =>
      { m with owners := if entry = 0 then m.owners.del page else m.owners.put page entry }) := by
  have hmoved : (s.ownEntry h page % 2 ^ 17 != entry % 2 ^ 17) = false := by rw [he]; exact bne_self_eq_false _
  simp only [setOwner, hmoved, Bool.false_and, Bool.false_eq_true, if_false]

theorem State.ownEntry_modMem (s : State) (h : Nat) (f : MemPath → MemPath) (p : Nat) :
    (s.modMem h f).ownEntry h p = (f (s.H h).mem).owners.getD p 0 := by
  simp [State.ownEntry, State.modMem]

theorem ownEntry_setOwner {h page entry : Nat} {s : State} (hs : (s.H h).mem.owners.sorted = true)
    (he : s.ownEntry h page % 2 ^ 17 = entry % 2 ^ 17) : (setOwner h page entry s).ownEntry h page = entry := by
  rw [setOwner_same he, State.ownEntry_modMem]
  dsimp only
  split
  next h0 => rw [Tab.getD, Tab.find?_del ((Tab.sorted_iff _).1 hs), h0]; rfl
  next => exact Tab.getD_put ..

theorem ownEntry_setOwner_ne {h page entry p : Nat} {s : State} (he : s.ownEntry h page % 2 ^ 17 = entry % 2 ^ 17) (hp : p ≠ page) :
    (setOwner h page entry s).ownEntry h p = s.ownEntry h p := by
  rw [setOwner_same he, State.ownEntry_modMem]
  dsimp only
  split
  · rw [Tab.getD, Tab.find?_del_ne _ _ _ hp]; rfl
  · exact Tab.getD_put_ne _ _ _ _ _ hp

theorem ddr_setOwner {h page entry : Nat} {s : State} (he : s.ownEntry h page % 2 ^ 17 = entry % 2 ^ 17) :
    ((setOwner h page entry s).H h).mem.ddr = (s.H h).mem.ddr := by
  rw [setOwner_same he]
  simp [State.modMem]

/-! ### Protection units -/

theorem mpuSync_of {h m : Nat} {who : Requester} {s : State} (hw : mpuWriter m who = true)
    (hg : ∀ i, i < 16 → regionBad (shadowRegion s h m i) = false) :
    mpuSync h m who s = s.modMem h (fun x => { x with mpus := x.mpus.put m { regions := mpuImage s h m, syncing := true } }) := by
  have hbad : (List.range 16).find? (fun i => regionBad (shadowRegion s h m i)) = none :=
    List.find?_eq_none.2 (fun i hi => by rw [hg i (List.mem_range.1 hi)]; exact Bool.false_ne_true)
  simp only [mpuSync, hw, Bool.not_true, Bool.false_eq_true, if_false, hbad]

/-- The unit of a master's page whose SYNC ends. -/
def mpuSynced (h m : Nat) (s : State) : State :=
  s.modMem h (fun x => { x with mpus := x.mpus.put m { x.mpus.getD m {} with syncing := false } })

theorem mpuSyncDone_of {h m : Nat} {s : State} (hu : s.up h = true) (hy : ((s.H h).mem.mpus.getD m {}).syncing = true) :
    ∃ v, mpuSyncDone h m s = ((mpuSynced h m s).wr (mpuPage h m) Reg.PAGE_GEN_GEN
      (s.rd (mpuPage h m) Reg.PAGE_GEN_GEN + 1)).wr (mpuPage h m) Reg.MPU_STATUS_DIRTY v := by
  have hgo : ¬((!s.up h) = true ∨ (!((s.H h).mem.mpus.getD m {}).syncing) = true) := by simp [hu, hy]
  exact ⟨_, (if_neg hgo).trans rfl⟩

theorem mpuSynced_reads (h m v : Nat) {s : State} (hs : s.regs.Rising) :
    (((mpuSynced h m s).wr (mpuPage h m) Reg.PAGE_GEN_GEN (s.rd (mpuPage h m) Reg.PAGE_GEN_GEN + 1)).wr (mpuPage h m)
      Reg.MPU_STATUS_DIRTY v).rd (mpuPage h m) Reg.PAGE_GEN_GEN = (s.rd (mpuPage h m) Reg.PAGE_GEN_GEN + 1) % 2 ^ 16 :=
  (State.rd_wr_bits _ _ _ _ _ _ (by decide)).trans (State.rd_wr _ _ _ _ hs)

/-- Settles O48: each command's guards pass or fail by its premises, and a register read after a command is found past its later
writes; the derivation that an INIT counts leaves the registers of the memory path (`MempathFrame`), whatever event it raises. -/
theorem memoryPathCommands : Obligations.MemoryPathCommands := by
  unfold Obligations.MemoryPathCommands
  refine ⟨?init, ?initRefused, ?training, ?scrub, ?rangeRefused, ?rangeInit, ?ready, ?reenc, ?go, ?goRefused, ?sync, ?syncDone, ?owner,
    ?mpu, ?mpuDone⟩
  case init =>
    rintro h who s w ha rfl hm h0
    exact congrArg Host.Outcome.next ((onHearth_of_answers _ ha).trans (memInit_of hm h0))
  case initRefused =>
    rintro h who s w ha rfl hm h0
    exact congrArg Host.Outcome.next ((onHearth_of_answers _ ha).trans (memInit_refused hm h0))
  case training =>
    intro h s hs h1 hu hc
    have hr := (Tab.sorted_iff _).1 hs
    exact ⟨⟨_, congrArg Host.Outcome.next (memTrained_ok h1 hu), trained_reads hr hc⟩,
      ⟨_, congrArg Host.Outcome.next (memTrained_failed h1 hu), State.rd_wr _ _ _ _ hr, rfl⟩⟩
  case scrub => exact fun h off c s hu hr he ho => congrArg Host.Outcome.next (patrol_of hu hr he ho)
  case rangeRefused =>
    rintro h r who s w c ha rfl hr hm hc
    exact congrArg Host.Outcome.next ((onHearth_of_answers _ ha).trans (rngInit_refused hr hm hc))
  case rangeInit =>
    rintro h r who s w ha rfl hr hm hc hmode hs
    obtain ⟨hst, herr⟩ := initStarted_reads (h := h) r.isLt ((Tab.sorted_iff _).1 hs)
    have hf := derived_frame h 1 (initStarted h r (wakeHearth h s))
    refine ⟨_, _, congrArg Host.Outcome.next ((onHearth_of_answers _ ha).trans (rngInit_of hr hm hc hmode)), ?_, ?_, ?_, ?_, rfl⟩
    · exact (hf.rd _ _ rfl).trans hst
    · exact (hf.rd _ _ rfl).trans herr
    · exact (congrArg (fun c => c.vault.rngGens.getD (h * 8 + r) 0) hf.chim).trans (vaultGen_started ..)
    · rw [State.range_modMem]
      exact Tab.getD_put ..
  case ready => exact fun h r s hu hr => congrArg Host.Outcome.next (rangeReady_of hu hr)
  case reenc => exact fun h s a l hu hl => congrArg Host.Outcome.next (reencDone_of hu hl)
  case go =>
    rintro h who s w ha rfl hm hc
    exact congrArg Host.Outcome.next ((onHearth_of_answers _ ha).trans (ownGo_of hm hc))
  case goRefused =>
    rintro h who s w c ha rfl hm hc
    exact congrArg Host.Outcome.next ((onHearth_of_answers _ ha).trans (ownGo_refused hm hc))
  case sync =>
    rintro h who s w ha rfl hm hb
    exact congrArg Host.Outcome.next ((onHearth_of_answers _ ha).trans (ownSync_of hm hb))
  case syncDone => exact fun h s t hu hb e => congrArg Host.Outcome.next (ownSyncDone_of hu hb e)
  case owner =>
    exact fun h page entry s hs he => ⟨ownEntry_setOwner hs he, fun p hp => ownEntry_setOwner_ne he hp, ddr_setOwner he⟩
  case mpu =>
    rintro h m who s w ha rfl hw hg
    exact congrArg Host.Outcome.next ((onHearth_of_answers _ ha).trans (mpuSync_of hw hg))
  case mpuDone =>
    intro h m s hu hy hs
    obtain ⟨v, e⟩ := mpuSyncDone_of hu hy
    refine ⟨_, congrArg Host.Outcome.next e, ?_, ?_, mpuSynced_reads h m v ((Tab.sorted_iff _).1 hs)⟩
    · simp [mpuSynced, State.modMem]
    · simp [mpuSynced, State.modMem]

end Sys2Proof.Machine
end

section
/-! What a master's access brings. -/

namespace Sys2Proof.Machine

theorem memoryAccess_of {h m kind a n : Nat} {mm : Bool} {d : Bytes} {c : LineCheck} {s : State} {q : Req}
    (hu : (if m = 25 then onHearth h (fun s => s) s else s).up h = true) (hn : n ≠ 0)
    (hq : masterReq (if m = 25 then onHearth h (fun s => s) s else s) h m mm kind = some q) :
    memoryAccess h m kind mm a n d c s =
      deliver h q a (accessAnswer h q a n d c (if m = 25 then onHearth h (fun s => s) s else s)) := by
  unfold memoryAccess
  simp only [hu, hn, hq, Bool.not_true, Bool.false_eq_true, or_self, if_false]

/-! ### Stages 2 to 4 -/

/-- No command is moving the page of an offset to another owner. -/
def Settled (s : State) (h off : Nat) : Prop :=
  ∀ o ∈ (s.H h).mem.transit, ¬(o.page ≤ off / 4096 ∧ off / 4096 < o.page + o.count)

theorem Settled.none {s : State} {h off : Nat} (k : Settled s h off) :
    (s.H h).mem.transit.any (fun o => decide (o.page ≤ off / 4096) && decide (off / 4096 < o.page + o.count)) = false := by
  refine List.any_eq_false.2 (fun o ho => ?_)
  simpa using fun h1 => Nat.not_lt.1 (fun h2 => k o ho ⟨h1, h2⟩)

/-- Stages 2 to 4 of an access to the owner area outside every range, its table line sound and its page settled: ownership
decides. -/
theorem ddrCheck_owned {h off : Nat} {q : Req} {s : State} (ho : off < s.memInner h) (hr : s.rangeAt h off = none)
    (hp : passesAll q.master = false) (ht : s.poisoned h (s.memInner h + off / 4096 * 4) = false) (hs : Settled s h off) :
    ddrCheck h q off .clean s = if ownAllows (s.ownEntry h (off / 4096)) q.ident q.writes q.fetches then (s, none)
      else (violate h q (2 ^ 35 + off) vOwnership s, some (.refused vOwnership)) := by
  have hinner : decide (s.memInner h ≤ off) = false := decide_eq_false (Nat.not_le.2 ho)
  have hrs : ¬(rsOff = rsInit ∨ rsOff = rsBroken) := by decide
  cases hown : ownAllows (s.ownEntry h (off / 4096)) q.ident q.writes q.fetches <;>
    simp [ddrCheck, hinner, hr, hrs, ht, hp, hs.none, hown]

theorem ddrCheck_internal {h off : Nat} {q : Req} {s : State} {c : LineCheck} (ho : s.memInner h ≤ off)
    (ha : innerAllows (innerArea (off - s.memInner h)) q = false) :
    ddrCheck h q off c s = (violate h q (2 ^ 35 + off) vInternal s, some (.refused vInternal)) := by
  simp [ddrCheck, ho, ha]

/-! ### Stages 5 and 6 -/

theorem addCtr_below {h i k : Nat} {s : State} (hc : (s.H h).ctrs.getD i 0 + k < 2 ^ 64) :
    addCtr h i k s = s.modH h (fun x => { x with ctrs := x.ctrs.put i (((s.H h).ctrs.getD i 0 + k) % 2 ^ 64) }) :=
  if_neg (Nat.not_le.2 hc)

/-- A read outside every range of bytes that are not poisoned: the count of the reads alone changes. -/
theorem ddrData_read {h off n : Nat} {q : Req} {s : State} (hr : s.rangeAt h off = none) (hw : q.writes = false)
    (hp : s.poisoned h off = false) (hc : (s.H h).ctrs.getD 159 0 + 1 < 2 ^ 64) :
    ddrData h q off n [] .clean s = (addCtr h 159 1 s, .ok (memBytes (s.H h).mem.ddr off n)) := by
  have hk : ¬(q.kind = 1 ∧ n = 64 ∧ off % 64 = 0) := fun hk => by simp [Req.writes, hk.1] at hw
  have hmem : ((addCtr h 159 1 s).H h).mem = (s.H h).mem := by rw [addCtr_below hc]; simp
  have hregs : (addCtr h 159 1 s).regs = s.regs := by rw [addCtr_below hc]; rfl
  have hpoison : (addCtr h 159 1 s).poisoned h off = false := by rw [← hp, State.poisoned, State.poisoned, hmem]
  have hrange : (addCtr h 159 1 s).rangeAt h off = none := by
    rw [← hr]
    simp only [State.rangeAt, State.rangeState, State.range, State.rd, hmem, hregs]
  have hrs : ¬rsOff = rsBroken := by decide
  simp only [ddrData, inNodes, readNodes, hr, lineFinding, if_neg hk, Bool.false_eq_true, if_false, ite_self, hrange, hpoison, hrs, or_self,
    and_false, false_and, hw, hmem]

theorem ddrAccess_stopped {h off n : Nat} {q : Req} {s t : State} {d : Bytes} {c : LineCheck} {a : Answer}
    (e : ddrCheck h q off c s = (t, some a)) : ddrAccess h q off n d c s = (t, a) := by
  simp only [ddrAccess, e]

theorem ddrAccess_passed {h off n : Nat} {q : Req} {s t : State} {d : Bytes} {c : LineCheck}
    (e : ddrCheck h q off c s = (t, none)) : ddrAccess h q off n d c s = ddrData h q off n d c t := by
  simp only [ddrAccess, e]

/-- Settles O49: an access that its master makes is delivered as it is answered; one that stage 2 or 4 refuses stores nothing but its
violation, and a read that ownership allows brings the stored bytes. -/
theorem memoryAccessAnswers : Obligations.MemoryAccessAnswers := by
  unfold Obligations.MemoryAccessAnswers
  refine ⟨?master, ?window, ?internal, ?notOwner, ?read⟩
  case master =>
    intro h m k mm a n d c s q hm hu hn hq
    have hs : (if m.val = 25 then onHearth h (fun s => s) s else s) = s := if_neg hm
    refine congrArg Host.Outcome.next ((memoryAccess_of (q := q) (by rw [hs]; exact hu) hn (by rw [hs]; exact hq)).trans ?_)
    rw [hs]
  case window =>
    rintro h k mm a n d c s w q rfl hu hn hq
    exact congrArg Host.Outcome.next (memoryAccess_of (m := 25) hu hn hq)
  case internal => exact fun h q off n d s ho ha => ⟨_, ddrAccess_stopped (ddrCheck_internal ho ha), rfl⟩
  case notOwner =>
    intro h q off n d s ho hr hp ht hs ha
    exact ddrAccess_stopped ((ddrCheck_owned ho hr hp ht hs).trans (if_neg (by rw [ha]; exact Bool.false_ne_true)))
  case read =>
    intro h q off n s ho hr hp ht hpo hw hs ha hc
    exact (ddrAccess_passed ((ddrCheck_owned ho hr hp ht hs).trans (if_pos ha))).trans (ddrData_read hr hw hpo hc)

end Sys2Proof.Machine
end

section
/-! The cores' worlds, fatal declarations and debug. -/

namespace Sys2Proof.Machine

/-! ### Transits -/

theorem gateStore_open {h c code service : Nat} {op : WorldOp} {s : State} (hr : coreRuns s h c = true)
    (ho : transitOpen (s.core h c) op = true) : gateStore h c op code service s = startTransit h c op service s := by
  simp only [gateStore, hr, ho, Bool.not_true, Bool.false_eq_true, if_false, if_true]

theorem gateStore_closed {h c code service : Nat} {op : WorldOp} {s : State} (hr : coreRuns s h c = true)
    (ho : transitOpen (s.core h c) op = false) : gateStore h c op code service s = gateRefused h c (code + 256 * service) s := by
  simp only [gateStore, hr, ho, Bool.not_true, Bool.false_eq_true, if_false]

theorem doGateFault_of {h c data : Nat} {s : State} (hr : coreRuns s h c = true) (ho : opOfCode (data % 8) = none) :
    doGateFault h c data s = gateRefused h c data s := by
  simp only [doGateFault, hr, ho, Bool.not_true, Bool.false_eq_true, or_self, if_false]

theorem doTransitDone_of {h c n : Nat} {op : WorldOp} {s : State} (hu : s.up h = true) (ht : (s.core h c).transit = some (op, n)) :
    doTransitDone h c s = addCtr h 155 1 ((flushL1 h c s).modCore h c (crossWorld s h c op n)) := by
  simp only [doTransitDone, hu, ht, Bool.not_true, Bool.false_eq_true, if_false]

theorem doCoreRelease_of {h c : Nat} {who : Requester} {s : State} (hi : isInner who = true) (hc : c ≠ 0)
    (hr : (s.core h c).released = false) :
    doCoreRelease h c who s = (s.wr (gatePage h) (Reg.CORE_CTRL_RELEASE c) 1).modCore h c (fun x =>
      { x with released := true, halted := false, world := .inner, machine := true,
               pc := innerVec (s.wr (gatePage h) (Reg.CORE_CTRL_RELEASE c) 1) h }) := by
  have hgo : ¬(c = 0 ∨ ((s.wr (gatePage h) (Reg.CORE_CTRL_RELEASE c) 1).core h c).released = true) := by
    rintro (e | e)
    · exact hc e
    · exact Bool.false_ne_true (hr.symm.trans e)
  unfold doCoreRelease
  simp only [hi, Bool.not_true, Bool.false_eq_true, if_false, if_neg hgo]

/-! ### Debug -/

theorem dbgRow_of {d : Nat} {f : State → State} {s : State} (hf : s.flueUp = true) : dbgRow .pf1 d f s = .next (f s) := by
  simp only [dbgRow, hf, Bool.not_true, Bool.false_eq_true, if_false, if_true]

theorem dbgRow_refused {who : Requester} {d : Nat} {f : State → State} {s : State} (hf : s.flueUp = true) (hw : who ≠ .pf1) :
    dbgRow who d f s = .next (refuse dbgPage who 0x040 d cRequester s) := by
  simp only [dbgRow, hf, Bool.not_true, Bool.false_eq_true, if_false, if_neg hw]

theorem newChallenge_of {s t u : State} {h : Nat} {b : Bytes} (e : t = s.wr dbgPage Reg.DBG_STATUS_CHALLENGE_OPEN 0)
    (hh : h0Hearth t = some h) (hd : drbgRequest h 32 false t = some (b, u)) :
    newChallenge s = (setChallenge b u).wr dbgPage Reg.DBG_STATUS_CHALLENGE_OPEN 1 := by
  subst e
  simp only [newChallenge, hh, hd]

theorem submitToken_of {s : State} (hb : s.flag dbgPage Reg.DBG_STATUS_BUSY = false) :
    submitToken s = ((s.modFlue (fun x =>
      { x with token := tokenBuffer s, tokenChal := if s.flag dbgPage Reg.DBG_STATUS_CHALLENGE_OPEN then some (challengeBytes s) else none })).wr dbgPage
        Reg.DBG_STATUS_BUSY 1).wr dbgPage Reg.DBG_STATUS_CHALLENGE_OPEN 0 := by
  simp only [submitToken, hb, Bool.false_eq_true, if_false]

theorem doTokenDone_of {s : State} (hf : s.flueUp = true) (hb : s.flag dbgPage Reg.DBG_STATUS_BUSY = true) :
    doTokenDone s = (checkToken s s.flue.token).elim
      (grantEnables (byteAt s.flue.token 5) (byteAt s.flue.token 6) (fieldLe s.flue.token 0x58 4)
        (((s.wr dbgPage Reg.DBG_STATUS_BUSY 0).wr dbgPage Reg.DBG_STATUS_CODE stOK).modFlue
          (fun x => { x with token := [], tokenChal := none })))
      (fun st => ((s.wr dbgPage Reg.DBG_STATUS_BUSY 0).wr dbgPage Reg.DBG_STATUS_CODE st).modFlue
        (fun x => { x with token := [], tokenChal := none })) := by
  have hgo : ¬((!s.flueUp) = true ∨ (!s.flag dbgPage Reg.DBG_STATUS_BUSY) = true) := by simp [hf, hb]
  unfold doTokenDone
  rw [if_neg hgo]
  cases e : checkToken s s.flue.token <;> simp [e]

/-- Settles O53: each command's guards pass or fail by its premises. -/
theorem worldsFatalAndDebug : Obligations.WorldsFatalAndDebug := by
  unfold Obligations.WorldsFatalAndDebug
  refine ⟨?gate, ?interrupt, ?fault, ?transitDone, ?release, ?fatal, ?challenge, ?submit, ?tokenDone, ?revoke, ?stranger, ?expiry,
    ?notExpired, ?halt, ?notInvasive, ?resume⟩
  case gate =>
    intro h c v s hr
    exact ⟨fun ho => congrArg Host.Outcome.next (gateStore_open hr ho), fun ho => congrArg Host.Outcome.next (gateStore_open hr ho),
      fun ho => congrArg Host.Outcome.next (gateStore_open hr ho), fun ho => congrArg Host.Outcome.next (gateStore_open hr ho),
      fun ho => congrArg Host.Outcome.next (gateStore_closed hr ho), fun ho => congrArg Host.Outcome.next (gateStore_closed hr ho)⟩
  case interrupt =>
    intro h c s hu hr ht hw hi
    exact congrArg Host.Outcome.next (if_pos ⟨hu, hr.imp_left id, Option.isNone_iff_eq_none.2 ht, hw, hi⟩)
  case fault => exact fun h c d s hr ho => congrArg Host.Outcome.next (doGateFault_of hr ho)
  case transitDone => exact fun h c s op n hu ht => congrArg Host.Outcome.next (doTransitDone_of hu ht)
  case release =>
    rintro h c who s w ha rfl hi hc hr
    exact congrArg Host.Outcome.next ((onHearth_of_answers _ ha).trans (doCoreRelease_of hi hc hr))
  case fatal =>
    exact fun h s hw => ⟨congrArg Host.Outcome.next (if_pos hw), fun c hc => congrArg Host.Outcome.next (if_pos ⟨hw, hc⟩)⟩
  case challenge =>
    intro s t u h b hf e hh hd
    exact (dbgRow_of hf).trans (congrArg Host.Outcome.next (newChallenge_of e hh hd))
  case submit => exact fun s hf hb => (dbgRow_of hf).trans (congrArg Host.Outcome.next (submitToken_of hb))
  case tokenDone => exact fun s hf hb => congrArg Host.Outcome.next (doTokenDone_of hf hb)
  case revoke => exact fun d s hf => dbgRow_of hf
  case stranger => exact fun who d s hf hw => ⟨dbgRow_refused hf hw, dbgRow_refused hf hw, dbgRow_refused hf hw⟩
  case expiry => exact fun h s h0 hn => congrArg Host.Outcome.next (if_pos ⟨h0, hn⟩)
  case notExpired =>
    intro h s hn
    exact congrArg Host.Outcome.next (if_neg (fun hc => hn.elim hc.1 (Nat.not_lt.2 hc.2)))
  case halt => exact fun h c s hf hr hi => congrArg Host.Outcome.next (if_pos ⟨hf, hr, hi⟩)
  case notInvasive =>
    intro h c s hf hi
    have hno : ¬invasive s h c = true := by rw [hi]; exact Bool.false_ne_true
    exact ⟨congrArg Host.Outcome.next (if_neg (fun hc => hno hc.2.2)), congrArg Host.Outcome.next (if_neg (fun hc => hno hc.2.2.2.1))⟩
  case resume =>
    intro h c s hf hu hh hi hn
    exact congrArg Host.Outcome.next (if_pos ⟨hf, hu, hh, hi, Option.isNone_iff_eq_none.2 hn⟩)

end Sys2Proof.Machine
end

section
/-! The power states of a hearth, its blocks and its profile. -/

namespace Sys2Proof.Machine

/-! ### PWR_CTRL -/

theorem setFields_hearths (p : Page) (fs : List (Fld × Nat)) (s : State) : (setFields p fs s).hearths = s.hearths := by
  have hfold : (fs.foldl (fun a e => a.wr p e.1 e.2) s).hearths = s.hearths := by
    rw [show fs.foldl (fun a e => a.wr p e.1 e.2) s = State.wrs p fs s from rfl, State.wrs_rest]
  unfold setFields bumpGen
  dsimp only
  split
  · rfl
  · split <;> exact hfold

theorem onPwrCtrl_of {h d : Nat} {who : Requester} {f : State → State} {s : State} (ha : s.answers h = true)
    (hm : mgrOrInner who = true) : onPwrCtrl h who d f s = f (wakeHearth h s) :=
  (onHearth_of_answers _ ha).trans (if_pos hm)

theorem onPwrCtrl_refused {h d : Nat} {who : Requester} {f : State → State} {s : State} (ha : s.answers h = true)
    (hm : mgrOrInner who = false) : onPwrCtrl h who d f s = refuse (powerPage h) who 0x040 d cRequester (wakeHearth h s) :=
  (onHearth_of_answers _ ha).trans (if_neg (by rw [hm]; exact Bool.false_ne_true))

theorem setTarget_of {h v : Nat} {who : Requester} {s : State}
    (hv : v < 2 ∨ isInner who = true ∨ holds? (setFields (powerPage h) [(Reg.PWR_CTRL_TARGET, v)] s) h 20 = false) :
    setTarget h who v s = (undefer h 20 (setFields (powerPage h) [(Reg.PWR_CTRL_TARGET, v)] s)).modH h
      (fun x => { x with pwrTarget := v }) := by
  refine if_neg ?_
  rintro ⟨h2, hi, hh⟩
  rcases hv with hv | hv | hv
  · omega
  · simp [hv] at hi
  · exact Bool.false_ne_true (hv.symm.trans hh)

/-- The profile asked for is the one in force, and no change to another is under way. -/
def ProfileStands (h v : Nat) (s : State) : Prop := v = (s.H h).profile ∧ (s.H h).transition = false

theorem setProfile_same {h d v : Nat} {who : Requester} {s : State} (h3 : v < 3) (hp : ProfileStands h v s) :
    setProfile h who d v s = setFields (powerPage h) [(Reg.PWR_CTRL_PROFILE, v)] s := by
  have hv : ¬v = 3 := by omega
  have hH : (setFields (powerPage h) [(Reg.PWR_CTRL_PROFILE, v)] s).H h = s.H h := by simp only [State.H, setFields_hearths]
  obtain ⟨e, ht⟩ := hp
  refine (if_neg hv).trans (if_pos ?_)
  rw [hH, ht]
  exact ⟨e, rfl⟩

theorem setProfile_new {h d v : Nat} {who : Requester} {s : State} (h3 : v < 3) (hp : ¬ProfileStands h v s) :
    setProfile h who d v s = (setFields (powerPage h) [(Reg.PWR_CTRL_PROFILE, v)] s).modH h (fun x => { x with transition := true }) := by
  have hv : ¬v = 3 := by omega
  have hH : (setFields (powerPage h) [(Reg.PWR_CTRL_PROFILE, v)] s).H h = s.H h := by simp only [State.H, setFields_hearths]
  refine (if_neg hv).trans (if_neg ?_)
  rw [hH]
  exact fun hc => hp ⟨hc.1, by simpa using hc.2⟩

/-! ### Entries and exits -/

theorem doH1Entry_of {h : Nat} {s : State} (hu : s.up h = true) (hp : (s.H h).power = 0) (ht : (s.H h).pwrTarget = 1)
    (hj : jobsQuiet (s.H h) = true) : doH1Entry h s = s.modH h (fun x => { coresWait x with power := 1 }) := by
  simp only [doH1Entry, hu, hp, ht, hj, Bool.not_true, Bool.false_eq_true, ne_eq, not_true_eq_false, or_self, if_false]

theorem doH2Entry_of {h : Nat} {s : State} (hu : s.up h = true) (ht : (s.H h).pwrTarget = 2) (hj : jobsQuiet (s.H h) = true)
    (hm : memQuiet s h = true) : doH2Entry h s = s.modH h (fun x => { coresWait (dropRandom x) with power := 2 }) := by
  simp only [doH2Entry, hu, ht, hj, hm, Bool.not_true, Bool.false_eq_true, ne_eq, not_true_eq_false, or_self, if_false]

theorem wakeHearth_h1 {h : Nat} {s : State} (hp : (s.H h).power = 1) : wakeHearth h s = s.modH h (fun x => { x with power := 0 }) :=
  if_pos hp

theorem wakeHearth_h2 {h : Nat} {s : State} (hp : (s.H h).power = 2) : wakeHearth h s = deliverPulses h (s.modH h exitH2) := by
  have h1 : ¬(s.H h).power = 1 := by omega
  exact (if_neg h1).trans (if_pos hp)

/-- Entries are not made while a job runs or completes. -/
theorem entries_wait {h : Nat} {s : State} (hj : jobsQuiet (s.H h) = false) :
    doH1Entry h s = s ∧ doH2Entry h s = s ∧ doH3Entry h s = s := by
  have hn : (!jobsQuiet (s.H h)) = true := by rw [hj]; rfl
  exact ⟨if_pos (.inr (.inr (.inr hn))), if_pos (.inr (.inr (.inl hn))), if_pos (.inr (.inr (.inr (.inl hn))))⟩

/-! ### H3 -/

/-- Between `s` and `t` the hearth keeps what H3 keeps, and registers and variant stand. -/
structure CountersOnly (h : Nat) (s t : State) : Prop where
  regs    : t.regs = s.regs
  variant : t.variant = s.variant
  hearth  : ∃ g, t.H h = { s.H h with mem := { (s.H h).mem with ranges := g } }

theorem CountersOnly.refl (h : Nat) (s : State) : CountersOnly h s s := ⟨rfl, rfl, _, rfl⟩

theorem CountersOnly.trans {h : Nat} {r s t : State} (a : CountersOnly h r s) (b : CountersOnly h s t) : CountersOnly h r t := by
  obtain ⟨g, e⟩ := a.hearth
  obtain ⟨k, d⟩ := b.hearth
  exact ⟨b.regs.trans a.regs, b.variant.trans a.variant, k, by rw [d, e]⟩

theorem CountersOnly.rangeState {h : Nat} {s t : State} (a : CountersOnly h s t) (r : Nat) : t.rangeState h r = s.rangeState h r := by
  simp only [State.rangeState, State.rd, a.regs]

/-- A range that is OFF is not lost. -/
theorem dropRange_off {h r : Nat} {b : Bool} {s : State} (hr : s.rangeState h r = rsOff) : CountersOnly h s (dropRange h r b s) := by
  have e : dropRange h r b s = s.modMem h (fun m => { m with ranges := m.ranges.upd r (fun g => { g with ctrs := [] }) }) := by
    simp [dropRange, hr, rsOff, rsInit, rsActive]
  rw [e]
  exact ⟨rfl, rfl, _, State.H_modH ..⟩

theorem dropRanges_off {h : Nat} {b : Bool} {s : State} (hr : ∀ r, r < 8 → s.rangeState h r = rsOff) :
    CountersOnly h s (dropRanges h b s) := by
  have main : ∀ (l : List Nat) (t : State), (∀ r ∈ l, r < 8) → CountersOnly h s t →
      CountersOnly h s (l.foldl (fun s r => dropRange h r b s) t) := by
    intro l
    induction l with
    | nil => exact fun t _ ht => ht
    | cons r l ih =>
      intro t hl ht
      have hoff : t.rangeState h r = rsOff := (ht.rangeState r).trans (hr r (hl r (List.mem_cons_self ..)))
      exact ih _ (fun x hx => hl x (List.mem_cons_of_mem _ hx)) (ht.trans (dropRange_off hoff))
  exact main _ s (fun r hr => List.mem_range.1 hr) (.refl h s)

/-- The hearth as H3 leaves it. -/
def atH3 (x : Hearth) : Hearth :=
  { hearthRest x x.compat with
    testRoot := x.testRoot, iiPending := x.iiPending, compatLock := x.compatLock, power := 3, pwrTarget := 3 }

/-- The registers that an entry to H3 writes, after the ranges. -/
def h3Written (h : Nat) (s : State) : State :=
  let p := pgH .events h
  let s := ((s.wr p Reg.EVR_SEQ_NEXT 0).wr p Reg.EVR_STATUS_FROZEN 0).wr p Reg.EVR_STATUS_FREEZER 0
  clearImages h (s.modH h atH3)

theorem doH3Entry_of {h : Nat} {s : State} (hl : s.live h = true) (hu : s.up h = true) (ht : (s.H h).pwrTarget = 3)
    (hj : jobsQuiet (s.H h) = true) (hm : memQuiet s h = true) (hq : quiesced s h = true) :
    doH3Entry h s = (h3Written h (dropRanges h false s)).setHState h hsOff := by
  have hgo : ¬((!s.live h) = true ∨ (!s.up h) = true ∨ (s.H h).pwrTarget ≠ 3 ∨ (!jobsQuiet (s.H h)) = true ∨ (!memQuiet s h) = true ∨
      (!quiesced s h) = true) := by simp [hl, hu, ht, hj, hm, hq]
  exact if_neg hgo

theorem h3Written_rising (h : Nat) {s : State} (hs : s.regs.Rising) : (h3Written h s).regs.Rising := by
  have hrec := State.wrs_rising (pgH .events h) [(Reg.EVR_SEQ_NEXT, 0), (Reg.EVR_STATUS_FROZEN, 0), (Reg.EVR_STATUS_FREEZER, 0)] s hs
  exact State.wrs_rising (pgF .flueBoot)
    [(Reg.HEARTH_STATE_SVN_INNER h, 0), (Reg.HEARTH_STATE_SVN_OUTER h, 0), (Reg.HEARTH_STATE_OUTER h, 0)] (State.modH _ h atH3) hrec

theorem h3Written_variant (h : Nat) (s : State) : (h3Written h s).variant = s.variant := rfl

theorem hState_setHState {h v : Nat} {s : State} (he : s.enabled h = true) (hs : s.regs.Rising) (hv : v < 8) :
    (s.setHState h v).hState h = v :=
  (if_pos he).trans ((State.rd_wr _ _ _ _ hs).trans (Nat.mod_eq_of_lt hv))

theorem enabled_of_variant {h : Nat} {s t : State} (e : t.variant = s.variant) : t.enabled h = s.enabled h := by
  simp only [State.enabled, e]

theorem h3Written_hearth (h : Nat) (s : State) : (h3Written h s).H h = atH3 (s.H h) := by
  simp [h3Written, clearImages]

/-! ### Pulses -/

/-- The crossing after `k + 1` pulses to a stopped clock. -/
def pulsed (k : Nat) : Crossing := { inFlight := 1, pending := min k 255, overflow := decide (255 < k) }

theorem pulse_pulsed (k : Nat) : (pulsed k).pulse = pulsed (k + 1) := by
  by_cases h : min k 255 < 255
  · have h1 : min (k + 1) 255 = min k 255 + 1 := by omega
    have h2 : ¬255 < k ∧ ¬255 < k + 1 := by omega
    simp [Crossing.pulse, pulsed, h, h1, h2]
  · have h1 : min (k + 1) 255 = min k 255 := by omega
    have h2 : 255 < k + 1 := by omega
    simp [Crossing.pulse, pulsed, h, h1, h2]

theorem foldl_pulse (k : Nat) : (List.replicate (k + 1) ()).foldl (fun (c : Crossing) _ => c.pulse) {} = pulsed k := by
  induction k with
  | zero => rfl
  | succ k ih => rw [List.replicate_succ', List.foldl_append, ih]; exact pulse_pulsed k

theorem deliverPulses_of {h : Nat} {s : State} (hu : s.up h = true) :
    deliverPulses h s = (s.H h).cross.foldl (fun s p => deliverCrossing h p.1 p.2 s) (s.modH h (fun x => { x with cross := [] })) :=
  if_neg (by rw [hu]; exact Bool.false_ne_true)

theorem deliverCrossing_of {h k : Nat} (b : Bool) (s : State) (hk : 0 < k) :
    deliverCrossing h 0 { inFlight := 1, pending := k, overflow := b } s =
      if b then errCtr h 209 ((addCtr h 149 k (addCtr h 149 1 s)).orBit (hCtrPage h) Reg.H_CTR_XOVF_XOVF 0)
      else addCtr h 149 k (addCtr h 149 1 s) := by
  have hk' : ¬k = 0 := by omega
  simp only [deliverCrossing, feedPulse, xDoorbells, Nat.one_ne_zero, hk', if_false, if_true]

/-! ### Blocks -/

theorem askBlock_of {h b v : Nat} {who : Requester} {s : State} (hv : v ≠ 0) (hh : isInner who = true ∨ holds? s h b = false)
    (hb : s.blockState h b ≠ v) : askBlock h b who v s = setBlock h b 3 (undefer h b s) := by
  have hgo : ¬((!isInner who) = true ∧ holds? s h b = true) := by
    rintro ⟨hi, ho⟩
    exact hh.elim (fun e => by simp [e] at hi) (fun e => Bool.false_ne_true (e.symm.trans ho))
  exact (if_neg hv).trans ((if_neg hgo).trans (if_neg hb))

theorem doBlockDone_drained {h b : Nat} {s : State} (hu : s.up h = true) (h3 : s.blockState h b = 3) (hi : blockIdle (s.eng h b) = true) :
    doBlockDone h b s = if blockReq s h b = 2 then killBlock h b (setBlock h b (blockReq s h b) s)
      else setBlock h b (blockReq s h b) s := by
  have hgo : ¬(!s.up h) = true := by rw [hu]; exact Bool.false_ne_true
  exact (if_neg hgo).trans (if_pos ⟨h3, hi⟩)

theorem doBlockDone_tested {h b : Nat} {s : State} (hu : s.up h = true) (h4 : s.blockState h b = 4) :
    doBlockDone h b s = requestKat h b false (setBlock h b 0 s) := by
  have hgo : ¬(!s.up h) = true := by rw [hu]; exact Bool.false_ne_true
  have h3 : ¬(s.blockState h b = 3 ∧ blockIdle (s.eng h b) = true) := fun e => by omega
  exact (if_neg hgo).trans ((if_neg h3).trans (if_pos h4))

/-- Settles O54: each entry, exit and write takes effect where its guards pass; H3 with every range OFF keeps what a hearth reset
keeps (`atH3`), and the crossing after so many pulses is `pulsed`. -/
theorem powerAndProfiles : Obligations.PowerAndProfiles := by
  unfold Obligations.PowerAndProfiles
  refine ⟨?target, ?refused, ?h1, ?wake, ?h2, ?h2Exit, ?pulses, ?send, ?deliver, ?h3, ?busy, ?profile, ?profileDone, ?block, ?blockRefused,
    ?ask, ?drained, ?tested, ?hold, ?holdRefused⟩
  case target =>
    rintro h who d s w v ha rfl hm rfl hv
    exact congrArg Host.Outcome.next ((onPwrCtrl_of ha hm).trans (setTarget_of hv))
  case refused =>
    rintro h who d s w ha rfl hm
    exact ⟨congrArg Host.Outcome.next (onPwrCtrl_refused ha hm), congrArg Host.Outcome.next (onPwrCtrl_refused ha hm),
      congrArg Host.Outcome.next (onPwrCtrl_refused ha hm)⟩
  case h1 => exact fun h s hu hp ht hj => congrArg Host.Outcome.next (doH1Entry_of hu hp ht hj)
  case wake => exact fun h s hp => congrArg Host.Outcome.next ((if_pos hp).trans (wakeHearth_h1 hp))
  case h2 => exact fun h s hu ht hj hm => congrArg Host.Outcome.next (doH2Entry_of hu ht hj hm)
  case h2Exit => exact fun h s hp ht => congrArg Host.Outcome.next ((if_pos ⟨hp, ht⟩).trans (wakeHearth_h2 hp))
  case pulses =>
    intro k hk
    obtain ⟨j, rfl⟩ : ∃ j, k = j + 1 := ⟨k - 1, by omega⟩
    rw [foldl_pulse, pulsed]
    simp only [Nat.add_sub_cancel, Crossing.mk.injEq, decide_eq_decide, true_and]
    omega
  case send =>
    intro h b s
    refine ⟨fun hu => if_pos hu, fun hu ha => ?_, fun hu ha _ => ?_⟩
    · exact (if_neg (by rw [hu]; exact Bool.false_ne_true)).trans (if_neg (by rw [ha]; exact Bool.false_ne_true))
    · have e : sendPulse h b s = s.modH h (fun x => { x with cross := x.cross.put b (x.cross.getD b {}).pulse }) :=
        (if_neg (by rw [hu]; exact Bool.false_ne_true)).trans (if_pos ha)
      rw [e]
      simp
  case deliver =>
    intro h k s hu hk
    refine ⟨fun hc => ?_, fun hc => ?_, fun hc => ?_⟩
    · rw [deliverPulses_of hu, hc, List.foldl_nil]
    · rw [deliverPulses_of hu, hc, List.foldl_cons, List.foldl_nil]
      exact (deliverCrossing_of false _ hk).trans (if_neg Bool.false_ne_true)
    · rw [deliverPulses_of hu, hc, List.foldl_cons, List.foldl_nil]
      exact (deliverCrossing_of true _ hk).trans (if_pos rfl)
  case h3 =>
    intro h s hs he hl hu ht hj hm hq hr
    have hd := dropRanges_off (b := false) hr
    have hrise : (dropRanges h false s).regs.Rising := by rw [hd.regs]; exact (Tab.sorted_iff _).1 hs
    have hen : (h3Written h (dropRanges h false s)).enabled h = true :=
      (enabled_of_variant ((h3Written_variant ..).trans hd.variant)).trans he
    have hH : (h3Written h (dropRanges h false s)).H h = atH3 ((dropRanges h false s).H h) := h3Written_hearth ..
    refine ⟨_, congrArg Host.Outcome.next (doH3Entry_of hl hu ht hj hm hq), hState_setHState hen (h3Written_rising h hrise) (by decide),
      ?_⟩
    obtain ⟨g, e⟩ := hd.hearth
    simp only [State.setHState, State.wr_H, hH, e]
    exact ⟨rfl, rfl, rfl, rfl, rfl, rfl, rfl⟩
  case busy =>
    intro h s hj
    obtain ⟨e1, e2, e3⟩ := entries_wait hj
    exact ⟨congrArg Host.Outcome.next e1, congrArg Host.Outcome.next e2, congrArg Host.Outcome.next e3⟩
  case profile =>
    rintro h who d s w ha rfl hm
    exact ⟨fun e => congrArg Host.Outcome.next ((onPwrCtrl_of ha hm).trans (if_pos e)),
      fun h3 hp => congrArg Host.Outcome.next ((onPwrCtrl_of ha hm).trans (setProfile_same h3 hp)),
      fun h3 hp => congrArg Host.Outcome.next ((onPwrCtrl_of ha hm).trans (setProfile_new h3 hp)),
      congrArg Host.Outcome.next (onPwrCtrl_of ha hm)⟩
  case profileDone =>
    intro h s ht
    exact congrArg Host.Outcome.next (if_neg (by rw [ht]; exact Bool.false_ne_true))
  case block =>
    rintro h hi who d s w ha rfl -
    exact congrArg Host.Outcome.next (onHearth_of_answers _ ha)
  case blockRefused =>
    rintro h hi who d s w ha rfl hm
    exact congrArg Host.Outcome.next ((onHearth_of_answers _ ha).trans (if_pos (by rw [hm]; rfl)))
  case ask => exact fun h b v who s hv hh hb => askBlock_of hv hh hb
  case drained =>
    intro h b s hu h3 hi
    exact ⟨fun e => congrArg Host.Outcome.next ((doBlockDone_drained hu h3 hi).trans (if_neg e)),
      fun e => congrArg Host.Outcome.next ((doBlockDone_drained hu h3 hi).trans ((if_pos e).trans (by rw [e])))⟩
  case tested => exact fun h b s hu h4 => congrArg Host.Outcome.next (doBlockDone_tested hu h4)
  case hold =>
    rintro h who d s w t ha rfl hi rfl
    exact congrArg Host.Outcome.next ((onHearth_of_answers _ ha).trans (if_neg (by rw [hi]; exact Bool.false_ne_true)))
  case holdRefused =>
    rintro h who d s w ha rfl hi
    exact congrArg Host.Outcome.next ((onHearth_of_answers _ ha).trans (if_pos (by rw [hi]; rfl)))

end Sys2Proof.Machine
end

section
/-! The tamper supervisor's commands, the supplies and the reset pin. -/

namespace Sys2Proof.Machine

/-! ### Registers of CHIMNEY.TAMPER -/

theorem fromPf0_of {off d : Nat} {f : State → State} {s : State} (hf : s.flueUp = true) : fromPf0 off .pf0 d f s = f s := by
  simp only [fromPf0, hf, Bool.not_true, Bool.false_eq_true, if_false, ne_eq, not_true_eq_false]

theorem fromPf0_refused {off d : Nat} {who : Requester} {f : State → State} {s : State} (hf : s.flueUp = true) (hw : who ≠ .pf0) :
    fromPf0 off who d f s = refuse tamperPage who off d cRequester s := by
  simp only [fromPf0, hf, Bool.not_true, Bool.false_eq_true, if_false, if_pos hw]

theorem doLock_new {s : State} (hl : s.chim.vault.locked = false) :
    doLock s = (logEntry kLock 0xFF 0 0 (s.modVault (fun v => { v with locked := true }))).1 :=
  if_neg (by rw [hl]; exact Bool.false_ne_true)

theorem doRelease_of {who : Requester} {s : State} (hs : s.chim.vault.sticky = 0) (hq : s.chim.quenching = false) :
    doRelease who s =
      let a := logEntry kRelease 0xFF 0 0 (s.modVault (fun v => { v with level := 0 }))
      refreshPins (raiseTamper 3 a.2 a.1) := by
  have hgo : ¬(s.chim.vault.sticky ≠ 0 ∨ s.chim.quenching = true) := by simp [hs, hq]
  exact if_neg hgo

/-- Settles O57: each command's guards pass or fail by its premises. -/
theorem tamperCommands : Obligations.TamperCommands := by
  unfold Obligations.TamperCommands
  refine ⟨?trip, ?sample, ?quenched, ?pf0, ?stranger, ?fwTrigger, ?cleared⟩
  case trip => exact fun l s hi => congrArg Host.Outcome.next (if_pos hi)
  case sample => exact fun l s hi hb => congrArg Host.Outcome.next (if_pos ⟨hi, hb⟩)
  case quenched =>
    intro s hq
    exact congrArg Host.Outcome.next (if_neg (by rw [hq]; exact Bool.false_ne_true))
  case pf0 =>
    intro s hf
    exact ⟨congrArg Host.Outcome.next (fromPf0_of hf),
      fun hl => congrArg Host.Outcome.next ((fromPf0_of hf).trans (doLock_new hl)),
      fun hl => congrArg Host.Outcome.next ((fromPf0_of hf).trans (if_pos hl)),
      fun hs hq => congrArg Host.Outcome.next ((fromPf0_of hf).trans (doRelease_of hs hq)),
      fun hc => congrArg Host.Outcome.next ((fromPf0_of hf).trans (if_pos hc)),
      fun hi d => congrArg Host.Outcome.next (fromPf0_of hf), fun d => congrArg Host.Outcome.next (fromPf0_of hf)⟩
  case stranger =>
    exact fun who s hf hw => ⟨congrArg Host.Outcome.next (fromPf0_refused hf hw), congrArg Host.Outcome.next (fromPf0_refused hf hw),
      congrArg Host.Outcome.next (fromPf0_refused hf hw)⟩
  case fwTrigger =>
    intro h who s
    refine ⟨fun hi hu => congrArg Host.Outcome.next ((if_pos hi).trans (if_pos hu)), fun hi hu => congrArg Host.Outcome.next ?_⟩
    exact (if_neg (by rw [hi]; exact Bool.false_ne_true)).trans (if_pos hu)
  case cleared => exact fun n s => rfl

/-! ### Supplies -/

/-- The pins leave everything but themselves and the outputs. -/
structure PinFrame (s t : State) : Prop where
  regs    : t.regs = s.regs
  flue    : t.flue = s.flue
  hearths : t.hearths = s.hearths
  por     : t.chim.por = s.chim.por
  main    : t.chim.main = s.chim.main
  fuses   : t.chim.fuses = s.chim.fuses
  vault   : t.chim.vault = s.chim.vault

theorem PinFrame.refreshPins (s : State) : PinFrame s (refreshPins s) := by
  rw [refreshPins_eq]
  exact ⟨rfl, rfl, rfl, rfl, rfl, rfl, rfl⟩

/-- A quench cut short is noted in the vault; nothing else changes. -/
theorem cutQuench_eq (s : State) : ∃ b, cutQuench s = s.modVault (fun v => { v with quenched := b }) := by
  unfold cutQuench
  split
  · exact ⟨true, rfl⟩
  · exact ⟨s.chim.vault.quenched, rfl⟩

/-- A hearth held in reset has neither keys nor jobs nor memory. -/
theorem porReset_hearth (s : State) (h : Nat) :
    ((porReset s).H h).cache = [] ∧ ((porReset s).H h).jobs = [] ∧ ((porReset s).H h).mem.ddr = [] := by
  have e : (porReset s).hearths =
      s.hearths.mapVals (fun k x => { strap := x.strap, compat := s.chim.fuses.compat.testBit k }) := rfl
  simp only [State.H, Tab.getD, e, Tab.find?_mapVals]
  cases s.hearths.find? h <;> exact ⟨rfl, rfl, rfl⟩

theorem doPorRelease_of {s : State} (hm : s.chim.main = true) (hp : s.chim.por = true) :
    doPorRelease s = refreshPins ((vaultAtFlueStart (s.modChim (fun c => { c with por := false }))).emit
      (.pin "HOBSEL" (vaultAtFlueStart (s.modChim (fun c => { c with por := false }))).variant.hob)) := by
  have hgo : ¬((!s.chim.main) = true ∨ (!s.chim.por) = true) := by simp [hm, hp]
  exact if_neg hgo

theorem doSupply_of {x : Supply} {s : State} (hx : s.chim.supply ≠ x) (hh : s.chim.holding = false) (hn : x ≠ .none) :
    doSupply x s = refreshPins (s.modChim (fun c => maskActive { c with supply := x })) := by
  have hgo : ¬(s.chim.supply = x ∨ s.chim.holding = true) := by simp [hx, hh]
  refine (if_neg hgo).trans ?_
  cases x with
  | none => exact absurd rfl hn
  | vaon => rfl
  | vbat => rfl

theorem doSupply_none {s : State} (hx : s.chim.supply ≠ .none) (hh : s.chim.holding = false) (hm : s.chim.main = false) :
    doSupply .none s = refreshPins (islandDrops s) := by
  have hgo : ¬(s.chim.supply = .none ∨ s.chim.holding = true) := by simp [hx, hh]
  refine (if_neg hgo).trans ?_
  simp only [hm, Bool.false_eq_true, if_false]

theorem doMainLoss_of {s : State} (hm : s.chim.main = true) :
    doMainLoss s = refreshPins ((porReset (cutQuench s)).modChim (fun c => maskActive { c with
      main := false, vault := { c.vault with freshOwed := true } })) :=
  if_neg (by rw [hm]; exact Bool.false_ne_true)

/-- Settles O59: the reset pin and the loss of main power leave `porReset` of a state in which a quench was cut short, and the pins
that follow change nothing of it. -/
theorem suppliesAndPor : Obligations.SuppliesAndPor := by
  unfold Obligations.SuppliesAndPor
  refine ⟨?low, ?loss, ?back, ?deassert, ?switch, ?dead, ?holding⟩
  case low =>
    intro s hm hp
    obtain ⟨b, e⟩ := cutQuench_eq s
    have f := PinFrame.refreshPins (porReset (cutQuench s))
    refine ⟨_, congrArg Host.Outcome.next (if_pos ⟨hm, by rw [hp]; rfl⟩), f.regs, f.por, ?_, ?_, ?_, ?_, ?_, ?_, fun h => ?_⟩
    · rw [f.fuses, e]; rfl
    · rw [f.vault, e]; rfl
    · rw [f.vault, e]; rfl
    · rw [f.vault, e]; rfl
    · rw [f.vault]; rfl
    · rw [f.flue, e]; rfl
    · rw [State.H_congr f.hearths]
      exact porReset_hearth _ h
  case loss =>
    intro s hm
    obtain ⟨b, e⟩ := cutQuench_eq s
    have f := PinFrame.refreshPins ((porReset (cutQuench s)).modChim (fun c => maskActive { c with
      main := false, vault := { c.vault with freshOwed := true } }))
    refine ⟨_, congrArg Host.Outcome.next (doMainLoss_of hm), f.regs, f.main, ?_, ?_, ?_, ?_⟩
    · rw [f.vault, e]; rfl
    · rw [f.vault, e]; rfl
    · rw [f.vault]; rfl
    · rw [f.flue, e]; rfl
  case back =>
    intro s hm hd
    have hgo : ¬(s.chim.main = true ∨ regimeOf s.chim = .dead) := by simp [hm, hd]
    exact congrArg Host.Outcome.next (if_neg hgo)
  case deassert => exact fun s hm hp => congrArg Host.Outcome.next (doPorRelease_of hm hp)
  case switch => exact fun x s hx hh hn => congrArg Host.Outcome.next (doSupply_of hx hh hn)
  case dead => exact fun s hx hh hm => congrArg Host.Outcome.next (doSupply_none hx hh hm)
  case holding => exact fun s hh => ⟨congrArg Host.Outcome.next (if_pos hh), congrArg Host.Outcome.next (if_pos hh)⟩

end Sys2Proof.Machine
end

section
/-! Snapshots, recorders, injected events, page locks and soft resets. -/

namespace Sys2Proof.Machine

/-! ### Snapshots -/

theorem execSnapGo_of {who : Requester} {d : Word} {s : State} (hf : s.flueUp = true) (hd : d.toNat % 2 = 1) :
    exec (.snapGo who d) s = .next (snapGo who d.toNat s) := congrArg Host.Outcome.next (if_pos ⟨hf, hd⟩)

theorem snapGo_idle {d : Nat} {s : State} (hb : s.flag ctrPage Reg.SNAP_STATUS_BUSY = false) : snapGo .pf0 d s = sendMark s := by
  simp only [snapGo, hb, ne_eq, not_true_eq_false, Bool.false_eq_true, if_false]

theorem snapGo_busy {d : Nat} {s : State} (hb : s.flag ctrPage Reg.SNAP_STATUS_BUSY = true) :
    snapGo .pf0 d s = refuse ctrPage .pf0 0x040 d cState s := by
  simp only [snapGo, hb, ne_eq, not_true_eq_false, if_false, if_true]

theorem snapDue_of {s : State} (hf : s.flueUp = true) (hp : s.rd ctrPage Reg.SNAP_CTRL_PERIOD ≠ 0) :
    snapDue s = if s.flag ctrPage Reg.SNAP_STATUS_BUSY then s.modFlue (fun f => { f with snapOwed := true }) else sendMark s := by
  have hgo : ¬((!s.flueUp) = true ∨ s.rd ctrPage Reg.SNAP_CTRL_PERIOD = 0) := by simp [hf, hp]
  exact if_neg hgo

theorem snapLatch_of {s t : State} (hf : s.flueUp = true) (hb : s.flag ctrPage Reg.SNAP_STATUS_BUSY = true)
    (e : t = latchFlue flueLink
      ((s.hearthList.filter (fun h => (s.rd ctrPage Reg.SNAP_DELIVERED_HEARTHS).testBit h && takesMark s h)).foldl
        (fun a h => latchHearth h (s.rd ctrPage Reg.SNAP_STATUS_EPOCH) a) s))
    (ho : t.flue.snapOwed = false) :
    snapLatch s = (t.wr ctrPage Reg.CTR_EPOCH_EPOCH (s.rd ctrPage Reg.SNAP_STATUS_EPOCH)).wr ctrPage Reg.SNAP_STATUS_BUSY 0 := by
  simp only [snapLatch, hf, hb, Bool.not_true, Bool.false_eq_true, or_self, if_false, ← e, State.wr_flue, ho]

theorem nextEpoch_range {e : Nat} (h : e < 0x10000) : nextEpoch e ≠ 0 ∧ nextEpoch e < 0x10000 ∧ (e < 0xFFFF → nextEpoch e = e + 1) := by
  unfold nextEpoch
  split <;> omega

/-! ### Recorders -/

theorem freeze_of {h : Nat} {who : Requester} {s : State} (hc : freezerCode who ≠ 0)
    (hf : s.flag (recPage (some h)) Reg.EVR_STATUS_FROZEN = false) :
    freeze (some h) who s = (s.wr (recPage (some h)) Reg.EVR_STATUS_FROZEN 1).wr (recPage (some h)) Reg.EVR_STATUS_FREEZER
      (freezerCode who) := by
  simp only [freeze, hc, Option.isNone_some, Bool.false_eq_true, false_and, or_self, if_false, hf]

theorem freeze_frozen {h : Nat} {who : Requester} {s : State} (hc : freezerCode who ≠ 0)
    (hf : s.flag (recPage (some h)) Reg.EVR_STATUS_FROZEN = true) :
    freeze (some h) who s = refuse (recPage (some h)) who 0x040 8 cState s := by
  simp only [freeze, hc, Option.isNone_some, Bool.false_eq_true, false_and, or_self, if_false, hf, if_true]

theorem freeze_flue {who : Requester} {s : State} (hc : freezerCode who = 1 ∨ freezerCode who = 3)
    (hf : s.flag (recPage none) Reg.EVR_STATUS_FROZEN = false) :
    freeze none who s = (s.wr (recPage none) Reg.EVR_STATUS_FROZEN 1).wr (recPage none) Reg.EVR_STATUS_FREEZER (freezerCode who) := by
  have hgo : ¬(freezerCode who = 0 ∨ ((none : Option Nat).isNone = true ∧ freezerCode who = 2)) := by
    rintro (e | ⟨-, e⟩) <;> omega
  exact (if_neg hgo).trans (if_neg (by rw [hf]; exact Bool.false_ne_true))

/-- Who may undo a freeze: the inner world and the freezer (R658). -/
def MayUnfreeze (p : Page) (who : Requester) (s : State) : Prop :=
  freezerCode who = 2 ∨ freezerCode who = s.rd p Reg.EVR_STATUS_FREEZER

theorem unfreeze_of {h : Nat} {who : Requester} {s : State} (hc : freezerCode who ≠ 0)
    (hf : s.flag (recPage (some h)) Reg.EVR_STATUS_FROZEN = true) (hm : MayUnfreeze (recPage (some h)) who s) :
    unfreeze (some h) who s = drain (some h) ((s.wr (recPage (some h)) Reg.EVR_STATUS_FROZEN 0).wr (recPage (some h))
      Reg.EVR_STATUS_FREEZER 0) := by
  have hgo : ¬(freezerCode who ≠ 2 ∧ freezerCode who ≠ s.rd (recPage (some h)) Reg.EVR_STATUS_FREEZER) :=
    fun e => hm.elim e.1 e.2
  simp only [unfreeze, hf, hc, Bool.not_true, Option.isNone_some, Bool.false_eq_true, false_and, false_or, if_false, if_neg hgo]

theorem unfreeze_stranger {h : Nat} {who : Requester} {s : State}
    (hf : s.flag (recPage (some h)) Reg.EVR_STATUS_FROZEN = true) (h2 : freezerCode who ≠ 2)
    (hr : freezerCode who ≠ s.rd (recPage (some h)) Reg.EVR_STATUS_FREEZER) :
    unfreeze (some h) who s = refuse (recPage (some h)) who 0x040 16 cRequester s := by
  have hno : ¬(!s.flag (recPage (some h)) Reg.EVR_STATUS_FROZEN) = true := by simp [hf]
  exact (if_neg hno).trans (if_pos (.inr (.inr ⟨h2, hr⟩)))

theorem ack_goes {h : Nat} {who : Requester} (hw : who = .pf1 ∨ isInner who = true) :
    (decide (who = .pf1) || (isInner who && (some h).isSome)) = true := by
  rcases hw with rfl | hw
  · rfl
  · simp [hw]

theorem ack_of {h q : Nat} {who : Requester} {s : State} {z : List Slotted} (hw : who = .pf1 ∨ isInner who = true)
    (hz : ackZone q (s.recorder (some h)).reserved = some z) :
    ack (some h) who q s = s.setRecorder (some h) { s.recorder (some h) with reserved := z } := by
  simp only [ack, ack_goes hw, Bool.not_true, Bool.false_eq_true, if_false, hz, Option.isNone_some, Bool.false_and]

theorem ack_unknown {h q : Nat} {who : Requester} {s : State} (hw : who = .pf1 ∨ isInner who = true)
    (hz : ackZone q (s.recorder (some h)).reserved = none) :
    ack (some h) who q s = refuse (recPage (some h)) who 0x04C q cValue s := by
  simp only [ack, ack_goes hw, Bool.not_true, Bool.false_eq_true, if_false, hz]

/-! ### Pages -/

theorem onPage_hearth {p : Page} {f : State → State} {s : State} (hh : isHearthPage p = true) (he : s.enabled p.unit.val = true)
    (ha : s.answers p.unit.val = true) : onPage p f s = f (wakeHearth p.unit.val s) :=
  (if_pos hh).trans ((if_pos he).trans (onHearth_of_answers _ ha))

theorem onPage_flue {p : Page} {f : State → State} {s : State} (hh : isHearthPage p = false) (hf : s.flueUp = true) :
    onPage p f s = f s :=
  (if_neg (by rw [hh]; exact Bool.false_ne_true)).trans (if_pos (by rw [hf]; rfl))

theorem execEvtInject_of {p : Page} {who : Requester} {d : Word} {s : State} (hp : p.regWf = true) (hh : p.home = p) :
    exec (.evtInject p who d) s = .next (onPage p (inject p who d.toNat) s) :=
  (if_pos hp).trans (by rw [hh])

theorem execPageLockSet_of {p : Page} {who : Requester} {s : State} (hp : p.regWf = true) (hh : p.home = p) :
    exec (.pageLockSet p who) s = .next (onPage p (setLock p who) s) :=
  (if_pos hp).trans (by rw [hh])

theorem inject_debug {p : Page} {d : Nat} {s : State} (hh : isHearthPage p = true) (he : (s.H p.unit.val).enables.testBit 1 = true) :
    inject p .debug d s = (hearthEvents.filter (fun e => e.homes.contains p.kind && d.testBit e.bit)).foldl
      (fun x e => raiseH p.unit.val e p
        { inst := if manyPages p.kind then p.inst.val else 0xFF, owner := 0xFFF5, payload := captureBytes p s } x) s :=
  (if_pos hh).trans (if_pos ⟨rfl, he⟩)

theorem inject_pf0 {p : Page} {d : Nat} {s : State} (hh : isHearthPage p = false) (hk : p.kind ≠ .vfQueue)
    (hv : inVendorTest s = true) :
    inject p .pf0 d s = (flueEvents.filter (fun e => e.homes.contains p.kind && d.testBit e.bit)).foldl
      (fun x e => raiseFlue e p
        { inst := if manyPages p.kind then p.inst.val else 0xFF, owner := 0xFFF5, payload := captureBytes p s } x) s :=
  (if_neg (by rw [hh]; exact Bool.false_ne_true)).trans (if_pos ⟨hk, rfl, hv⟩)

theorem setLock_inner {p : Page} {c : Fin 4} {s : State} (hk : p.kind = .gate ∨ p.kind = .mempath) :
    setLock p (.inner c) s = s.wr p Reg.PAGE_CTRL_LOCK 1 := by
  rcases hk with hk | hk <;> simp [setLock, hk, lockable, isInner, mgrOrInner]

theorem setLock_vault {p : Page} {who : Requester} {s : State} (hk : p.kind = .vault) :
    setLock p who s = if who = .pf0 then s.wr p Reg.PAGE_CTRL_LOCK 1 else refuse p who 0x008 4 cRequester s := by
  simp [setLock, hk, lockable]

/-! ### Soft resets -/

/-- The page of an engine at its reset values. -/
def pageCleared (h u : Nat) (s : State) : State :=
  { s with regs := resetPageRegs (pgU h u) 0x010 0x014 (resetPageRegs (pgU h u) 0x020 0x034 (resetPageRegs (pgU h u) 0x040 0x1000 s.regs)) }

/-- The fields of an engine's page that a soft reset keeps, by the kind of the engine. -/
def keptOf (bn hash : Bool) : List Fld :=
  [Reg.KAT_CTRL_PERIOD, if bn then Reg.BN_ORDER_ORDER2 else if hash then Reg.HE_ORDER_ORDER2 else Reg.CE_ORDER_ORDER2] ++
    if bn then [Reg.BN_LIMIT_ATTEMPTS] else []

theorem keptOf_apart : ∀ bn hash, ((keptOf bn hash).map Fld.place).Nodup := by decide

/-- The values that they keep. -/
def keptFields (h u : Nat) (s : State) : List (Fld × Nat) := (keptOf (isBn u) (isHash u)).map (fun f => (f, s.rd (pgU h u) f))

theorem softReset_of {h u : Nat} {who : Requester} {s : State} (hi : isInner who = true) (hh : (s.eng h u).holder = 0)
    (hb : (s.eng h u).busy = false) (hs : (s.eng h u).scrubbing = false) :
    softReset h u who s = (State.wrs (pgU h u) (keptFields h u s) (pageCleared h u s)).modEng h u (fun e => { e with scrubbing := true }) := by
  have hgo : ¬((s.eng h u).holder ≠ 0 ∨ (s.eng h u).busy = true ∨ (s.eng h u).scrubbing = true) := by simp [hh, hb, hs]
  have hin : ¬(!isInner who) = true := by simp [hi]
  refine (if_neg hin).trans ((if_neg hgo).trans ?_)
  unfold keptFields
  cases isBn u <;> rfl

theorem pageCleared_rising {h u : Nat} {s : State} (hs : s.regs.Rising) : (pageCleared h u s).regs.Rising :=
  ((hs.filter _).filter _).filter _

theorem period_kept {h u : Nat} {s : State} (hs : s.regs.Rising) :
    (State.wrs (pgU h u) (keptFields h u s) (pageCleared h u s)).rd (pgU h u) Reg.KAT_CTRL_PERIOD =
      s.rd (pgU h u) Reg.KAT_CTRL_PERIOD % 2 ^ Reg.KAT_CTRL_PERIOD.w := by
  have hplaces : (keptFields h u s).map (fun e => e.1.place) = (keptOf (isBn u) (isHash u)).map Fld.place := by
    simp [keptFields]
  have hm : (Reg.KAT_CTRL_PERIOD, s.rd (pgU h u) Reg.KAT_CTRL_PERIOD) ∈ keptFields h u s :=
    List.mem_map_of_mem (List.mem_append_left _ (List.mem_cons_self ..))
  exact State.rd_wrs _ _ _ (pageCleared_rising hs) (hplaces ▸ keptOf_apart _ _) _ hm

theorem softReset_refused {h u : Nat} {who : Requester} {s : State} (hi : isInner who = true)
    (hb : (s.eng h u).holder ≠ 0 ∨ (s.eng h u).busy = true ∨ (s.eng h u).scrubbing = true) :
    softReset h u who s = refuse (pgU h u) who 0x008 2 cState s := by
  have hin : ¬(!isInner who) = true := by simp [hi]
  exact (if_neg hin).trans (if_pos hb)

/-- Settles O60: each command's guards pass or fail by its premises, and a soft reset writes the kept fields back at places of their
own. -/
theorem snapshotsRecordersAndPages : Obligations.SnapshotsRecordersAndPages := by
  unfold Obligations.SnapshotsRecordersAndPages
  refine ⟨?go, ?goBusy, ?period, ?latch, ?epoch, ?freezer, ?flueFreezer, ?ack, ?ackUnknown, ?injectDebug, ?injectPf0, ?lock, ?vaultLock,
    ?soft, ?softBusy⟩
  case go => exact fun d s hf hd hb => (execSnapGo_of hf hd).trans (congrArg Host.Outcome.next (snapGo_idle hb))
  case goBusy => exact fun d s hf hd hb => (execSnapGo_of hf hd).trans (congrArg Host.Outcome.next (snapGo_busy hb))
  case period =>
    intro s hf hp
    exact ⟨fun hb => congrArg Host.Outcome.next ((snapDue_of hf hp).trans (if_neg (by rw [hb]; exact Bool.false_ne_true))),
      fun hb => congrArg Host.Outcome.next ((snapDue_of hf hp).trans (if_pos hb))⟩
  case latch =>
    rintro s t e hf hb - rfl ht ho
    exact congrArg Host.Outcome.next (snapLatch_of hf hb ht ho)
  case epoch => exact fun e he => nextEpoch_range he
  case freezer =>
    rintro h who s w p c ha rfl rfl rfl hc
    exact ⟨fun hf => congrArg Host.Outcome.next ((onHearth_of_answers _ ha).trans (freeze_of hc hf)),
      fun hf => congrArg Host.Outcome.next ((onHearth_of_answers _ ha).trans (freeze_frozen hc hf)),
      fun hf hm => congrArg Host.Outcome.next ((onHearth_of_answers _ ha).trans (unfreeze_of hc hf hm)),
      fun hf h2 hr => congrArg Host.Outcome.next ((onHearth_of_answers _ ha).trans (unfreeze_stranger hf h2 hr))⟩
  case flueFreezer =>
    rintro who s c hf rfl hc hz
    exact congrArg Host.Outcome.next ((if_pos hf).trans (freeze_flue hc hz))
  case ack =>
    rintro h who q s w z ha rfl hw hz
    exact congrArg Host.Outcome.next ((onHearth_of_answers _ ha).trans (ack_of hw hz))
  case ackUnknown =>
    rintro h who q s w ha rfl hw hz
    exact congrArg Host.Outcome.next ((onHearth_of_answers _ ha).trans (ack_unknown hw hz))
  case injectDebug =>
    rintro p d s w hp hh hpage he ha rfl hen
    exact (execEvtInject_of hp hh).trans (congrArg Host.Outcome.next ((onPage_hearth hpage he ha).trans (inject_debug hpage hen)))
  case injectPf0 =>
    intro p d s hp hh hpage hk hf hv
    exact (execEvtInject_of hp hh).trans (congrArg Host.Outcome.next ((onPage_flue hpage hf).trans (inject_pf0 hpage hk hv)))
  case lock =>
    rintro p s w hp hk he ha rfl c
    have hh : p.home = p := home_of_kind (by rcases hk with e | e <;> simp [e])
    have hpage : isHearthPage p = true := by rcases hk with e | e <;> simp only [isHearthPage, e] <;> rfl
    exact (execPageLockSet_of hp hh).trans (congrArg Host.Outcome.next ((onPage_hearth hpage he ha).trans (setLock_inner hk)))
  case vaultLock =>
    intro p who s hp hk hf
    have hh : p.home = p := home_of_kind (by simp [hk])
    have hpage : isHearthPage p = false := by simp only [isHearthPage, hk]; rfl
    have e := (execPageLockSet_of (who := who) (s := s) hp hh).trans (congrArg Host.Outcome.next ((onPage_flue hpage hf).trans (setLock_vault hk)))
    exact ⟨fun hw => e.trans (congrArg Host.Outcome.next (if_pos hw)), fun hw => e.trans (congrArg Host.Outcome.next (if_neg hw))⟩
  case soft =>
    rintro h u who s w ha rfl hi hh hb hsc hs
    refine ⟨_, congrArg Host.Outcome.next ((onHearth_of_answers _ ha).trans (softReset_of hi hh hb hsc)), ?_,
      period_kept ((Tab.sorted_iff _).1 hs), ?_⟩
    · rw [State.eng_modEng]
    · rw [State.wrs_rest]
      rfl
  case softBusy =>
    rintro h u who s w ha rfl hi hb
    exact congrArg Host.Outcome.next ((onHearth_of_answers _ ha).trans (softReset_refused hi hb))

end Sys2Proof.Machine
end
